-- ==== Sys2Proof/Word.lean ====
section
/-! DEFINITION. The word types of the model and the names of the part's units (R6, R13). -/

namespace Sys2Proof

/-- A byte, bit 0 the least significant (R6). -/
abbrev Byte := BitVec 8

/-- A 32-bit register or Nib word. -/
abbrev Word := BitVec 32

/-- Half h of the package (R13). -/
abbrev Half := Fin 2

/-- Quire h.q, and its Inkstone (R13). -/
structure QuireId where
  h : Half
  q : Fin 144
  deriving DecidableEq, Repr

/-- Nib h.q.n (R13). -/
structure NibId where
  h : Half
  q : Fin 144
  n : Fin 16
  deriving DecidableEq, Repr

/-- DMA channel h.d (R13). -/
structure DmaId where
  h : Half
  d : Fin 64
  deriving DecidableEq, Repr

/-- Server core h.c (R13). -/
structure CoreId where
  h : Half
  c : Fin 48
  deriving DecidableEq, Repr

/-- The number 144h + q of a quire (R62, R438). -/
def QuireId.num (i : QuireId) : Nat := 144 * i.h.val + i.q.val

/-- The number 2,304h + 16q + n of a Nib (R138, R438). -/
def NibId.num (i : NibId) : Nat := 2304 * i.h.val + 16 * i.q.val + i.n.val

/-- The quire that holds a Nib. -/
def NibId.quire (i : NibId) : QuireId := ⟨i.h, i.q⟩

/-- The number 64h + d of a DMA channel. -/
def DmaId.num (i : DmaId) : Nat := 64 * i.h.val + i.d.val

/-- The number 48h + c of a server core, its agent ID (R322). -/
def CoreId.num (i : CoreId) : Nat := 48 * i.h.val + i.c.val

/-- The other half. -/
def otherHalf (h : Half) : Half := if h = 0 then 1 else 0

end Sys2Proof
end

