-- ==== Sys2Proof/Syntax.lean ====
section
/-! DEFINITION. The commands of the block: one constructor per row of spec/opcode_table.json, and the
shapes of their operands. A command is one step of the part (spec/95): a Jalcel command, a register
access, an instruction of a Nib, a message that arrives, a timer that ends, a physical event. -/

namespace Sys2Proof

/-- The command header after OPCODE (R174), as it stands in a slot, reserved bits included. -/
structure JHeader where
  length : BitVec 8
  flags : BitVec 8
  fence : BitVec 16
  cq : BitVec 16
  target : BitVec 32
  waitSem : BitVec 16
  signalSem : BitVec 16
  waitValue : BitVec 32
  signalValue : BitVec 32
  aux : BitVec 64
  deriving DecidableEq, Repr

/-- A Jalcel command at the head of a queue: its queue, header and the body bytes from offset 0x20
on, missing bytes reading zero (R174). -/
structure JCmd where
  queue : BitVec 12
  hdr : JHeader
  body : List Byte
  deriving DecidableEq, Repr

/-- The fields of a custom-0 Brush instruction (R147), OP excepted. -/
structure C0 where
  vd : BitVec 4
  m : Bool
  fmt : BitVec 3
  vs1 : BitVec 4
  s : Bool
  src2 : BitVec 5
  mr : BitVec 2
  deriving DecidableEq, Repr

/-- The fields of a custom-1 Brush instruction (R148), OP excepted. -/
structure C1 where
  rd : BitVec 5
  f3 : BitVec 3
  rs1 : BitVec 5
  rs2 : BitVec 5
  msk : BitVec 2
  deriving DecidableEq, Repr

/-- The gauge set that a write of GAUGE_CTL reaches (R58). -/
inductive GaugeSel where
  | ink (q : QuireId) (g : Fin 8)
  | nib (n : NibId) (g : Fin 4)
  | srp (h : Half)   -- the set of SRP_TAG_SEL.TAG
  | blt              -- the set of BLT_GAUGE_SEL.REGION
  deriving DecidableEq, Repr

/-- The receiving end of a packet link: the Ligature at half h, or Blotter link BLh at its Vellum or
at the Blotter (R16, R23). -/
inductive LinkEnd where
  | lig (h : Half)
  | blVellum (h : Half)
  | blBlotter (h : Half)
  deriving DecidableEq, Repr

/-- One block of a Scriptorium message (R280): elements as raw codes, scale or zero byte, flags. -/
structure SrpBlock where
  elems : List (BitVec 32)
  scale : Byte
  flags : Byte
  deriving DecidableEq, Repr

/-- A link block as a port's decoder gives it (R346, R347): its 256 bytes, the codewords corrected and not
correctable since the block before, whether one of the latter touched this block, and the 128-byte lines of its packet's
payload that it carries poisoned, an attribute beside the bytes (R306; DESIGN CHOICE, log entry 45). -/
structure RxBlock where
  bytes : List Byte
  corr : BitVec 8
  unc : BitVec 8
  bad : Bool
  poison : BitVec 32
  deriving DecidableEq, Repr

/-- A Scriptorium message (R279, R280) from package `src`. -/
structure SrpMsg where
  src : BitVec 16
  tag : BitVec 20
  attempt : BitVec 4
  crc : BitVec 32
  rank : BitVec 16
  seg : BitVec 16
  first : BitVec 32
  pos : BitVec 16
  sat : BitVec 48
  word : BitVec 32            -- bytes 28-31: abandon cause, or credits granted
  early : Bool                -- whether the sender spent early credit (R293)
  blocks : List SrpBlock
  exps : List (BitVec 16)     -- the exponents of a scale message
  well : List Byte            -- the raw Well that closes a segment's gather, or empty
  deriving DecidableEq, Repr

/-- An Uttupel packet (R354), reserved bits included, and the attribute of R306: one bit for each 128-byte line of its
payload that is poisoned. -/
structure UtpPkt where
  dst : BitVec 16
  src : BitVec 16
  ctl : BitVec 8
  hops : BitVec 8
  opcode : BitVec 8
  flags : BitVec 8
  psn : BitVec 32
  apsn : BitVec 32
  inc : BitVec 32
  len : BitVec 16
  hcrc : BitVec 16
  pcrc : BitVec 32
  resv : BitVec 32
  payload : List Byte
  poison : BitVec 32
  deriving DecidableEq, Repr

/-- Server-core atomics (R338): read-modify-writes, and LR and SC. -/
inductive AmoOp where
  | add | swap | and | or | xor | max | min | maxu | minu | cas | lr | sc
  deriving DecidableEq, Repr

/-- The stable state a Data or DataCmp message grants (R324). -/
inductive Grant where
  | m | e | f
  deriving DecidableEq, Repr

/-- What the physical units report at the end of a boot stage: the units whose self-test or training
failed, or that were not up when it overran, as unit codes (R409), the bytes of usable capacity each trained CXL link reports (R312), and
the check of each image's signature is the Colophon's own. -/
structure BootReport where
  failed : List (BitVec 24)
  cxlBytes : List (Nat × Nat)
  deriving DecidableEq, Repr

/-- The header of a request datagram on port M (R413): version, type, request ID, whether its payload length is that of
the payload, and how many requests wait when it comes. -/
structure ReqHead where
  version : BitVec 8
  type : BitVec 8
  id : BitVec 16
  lenOk : Bool
  ahead : Nat
  deriving DecidableEq, Repr

/-- A requester on port M, told apart by source address and port (R414). -/
structure Requester where
  ip : BitVec 32
  port : BitVec 16
  deriving DecidableEq, Repr

/-- An SPDM request on port M (R413, R414): its requester, the header it lies under, and whether it is the request its row
names; one that is not is some request outside the list of R414. -/
structure SpdmCall where
  who : Requester
  hd : ReqHead
  listed : Bool
  deriving DecidableEq, Repr

/-- Units whose clock or power can be lost at run time (R340 cause 8). -/
inductive ClockUnit where
  | cluster (h : Half) (k : Fin 6)
  | reservoir (h : Half)
  | blotter
  deriving DecidableEq, Repr

/-- The commands, one per row of spec/opcode_table.json: those with operands in its order, then those without
(Lean's runtime holds no more than 245 constructors that carry fields, and only in the first places). -/
inductive Instr where
  -- Jalcel commands at their dispatch (R183)
  | nop (c : JCmd)
  | inlineWrite (c : JCmd)
  | fenceVisible (c : JCmd)
  | gaugeSnapshot (c : JCmd)
  | tileOp (c : JCmd)
  | nibLaunch (c : JCmd)
  | dmaStart (c : JCmd)
  | bucketPost (c : JCmd)
  | scaleRound (c : JCmd)
  | reissue (c : JCmd)
  | bucketRelease (c : JCmd)
  | bucketAbort (c : JCmd)
  | regionUpdate (c : JCmd)
  | pinEpoch (c : JCmd)
  | regionInit (c : JCmd)
  | feedStreamOpen (c : JCmd)
  | feedSubmit (c : JCmd)
  | feedFlush (c : JCmd)
  | feedStreamClose (c : JCmd)
  | feedLoadMerges (c : JCmd)
  | biasFlip (c : JCmd)
  | xltInvalidate (c : JCmd)
  -- the Scribe's registers and events
  | scbDoorbell (h : Half) (queue : BitVec 12) (tail : BitVec 16)
  | scbCqDoorbell (h : Half) (cq : BitVec 12) (head : BitVec 16)
  | queueEnable (h : Half) (queue : BitVec 12)
  | queueDisable (h : Half) (queue : BitVec 12)
  | queueReset (h : Half) (queue : BitVec 12)
  | cqEnable (h : Half) (cq : BitVec 12)
  | cqDisable (h : Half) (cq : BitVec 12)
  | cqReset (h : Half) (cq : BitVec 12)
  | scbSemValueWrite (h : Half) (value : BitVec 32)
  | commandDispatch (h : Half)
  | slotFetchFail (queue : BitVec 12)
  | commandCompletion (h : Half)
  | semaphoreSignal (h : Half)
  | headWbFail (queue : BitVec 12)
  | cqEntryWriteFail (h : Half) (cq : BitVec 12)
  | msiWriteFail (h : Half) (cq : BitVec 12)
  -- Inkstones
  | commandPortSubmit (n : NibId)
  | tileOpStart (q : QuireId)
  | noWgradSkipRetire (q : QuireId)
  | operandFetchFault (q : QuireId)
  | outputWriteFault (q : QuireId)
  | streamingEnd (q : QuireId)
  | tileOpComplete (q : QuireId)
  | completionRecordWrite (q : QuireId)
  | ductusCredit (q : QuireId) (tag : BitVec 16)
  | ductusTileArrival (q : QuireId)
  | ductusMergeDone (q : QuireId)
  | ductusAbandon (q : QuireId)
  | ductusFencedReply (q : QuireId)
  | paletteScrub (q : QuireId) (word : Nat) (upset : Nat)
  | gaugeClear (g : GaugeSel)
  -- Nibs
  | nibScalarInstruction (n : NibId)
  | csrAccess (n : NibId) (f3 : BitVec 3) (csr : BitVec 12) (rd rs1 : BitVec 5)
  | fence (n : NibId)
  | ecall (n : NibId)
  | ebreak (n : NibId)
  | remoteLoadReturn (n : NibId) (entry : Nat)
  | postedStoreFault (n : NibId)
  | nibStop (n : NibId)
  | apertureAccess (core : CoreId) (n : NibId) (off : BitVec 18) (log2w : Fin 4) (wr : Option (BitVec 64))
  | vadd (n : NibId) (i : C0)
  | vsub (n : NibId) (i : C0)
  | vmul (n : NibId) (i : C0)
  | vfma (n : NibId) (i : C0)
  | vfnms (n : NibId) (i : C0)
  | vmin (n : NibId) (i : C0)
  | vmax (n : NibId) (i : C0)
  | vdiv (n : NibId) (i : C0)
  | vsqrt (n : NibId) (i : C0)
  | vexp (n : NibId) (i : C0)
  | vlog (n : NibId) (i : C0)
  | vrsqrt (n : NibId) (i : C0)
  | vtanh (n : NibId) (i : C0)
  | vsgnj (n : NibId) (i : C0)
  | vsgnjn (n : NibId) (i : C0)
  | vsgnjx (n : NibId) (i : C0)
  | vand (n : NibId) (i : C0)
  | vor (n : NibId) (i : C0)
  | vxor (n : NibId) (i : C0)
  | vsll (n : NibId) (i : C0)
  | vsrl (n : NibId) (i : C0)
  | vsra (n : NibId) (i : C0)
  | vcmpeq (n : NibId) (i : C0)
  | vcmplt (n : NibId) (i : C0)
  | vcmple (n : NibId) (i : C0)
  | vmerge (n : NibId) (i : C0)
  | vbcast (n : NibId) (i : C0)
  | viota (n : NibId) (i : C0)
  | setlen (n : NibId) (i : C1)
  | vld (n : NibId) (i : C1)
  | vst (n : NibId) (i : C1)
  | vgather (n : NibId) (i : C1)
  | vscatter (n : NibId) (i : C1)
  | vcvt (n : NibId) (i : C1)
  | vcompress (n : NibId) (i : C1)
  | vexpand (n : NibId) (i : C1)
  | vredsum (n : NibId) (i : C1)
  | vredmax (n : NibId) (i : C1)
  | vredmin (n : NibId) (i : C1)
  | vmpop (n : NibId) (i : C1)
  | vmlogic (n : NibId) (i : C1)
  | vmld (n : NibId) (i : C1)
  | vmst (n : NibId) (i : C1)
  | vextract (n : NibId) (i : C1)
  | vinsert (n : NibId) (i : C1)
  | nwzero (n : NibId) (i : C1)
  | nwmac (n : NibId) (i : C1)
  | nwadd (n : NibId) (i : C1)
  | nwread (n : NibId) (i : C1)
  | nwst (n : NibId) (i : C1)
  | nwld (n : NibId) (i : C1)
  | nwflags (n : NibId) (i : C1)
  | msend (n : NibId) (i : C1)
  | mfree (n : NibId) (i : C1)
  | mwait (n : NibId) (i : C1)
  | namo (n : NibId) (i : C1)
  | qdma (n : NibId) (i : C1)
  | mailboxDelivery (i : Nat)
  | qdmaTransferDone (q : QuireId)
  -- DMA channels
  | dmaRun (d : DmaId)
  | dmaPause (d : DmaId)
  | dmaResume (d : DmaId)
  | dmaDescPtrWrite (d : DmaId) (ptr : BitVec 64)
  | descriptorFetch (d : DmaId)
  | descriptorFetchFault (d : DmaId)
  | dmaLineReturn (d : DmaId)
  | dmaReadFail (d : DmaId)
  | descriptorComplete (d : DmaId)
  | dmaWritebackFail (d : DmaId)
  -- Ligature and Blotter links
  | ligFlitReceive (e : LinkEnd) (flit : List Byte)
  | ligRetry (e : LinkEnd) (seq : BitVec 10)
  | ligReplayLimit (e : LinkEnd)
  | ligAckTimeout (e : LinkEnd)
  -- Scriptorium
  | srpScaleMsg (m : SrpMsg)
  | srpReduceMsg (m : SrpMsg)
  | srpGatherMsg (m : SrpMsg)
  | srpAbandonMsg (m : SrpMsg)
  | srpCreditMsg (m : SrpMsg)
  | bucketComplete (tag : BitVec 20)
  -- Blotter and Ruler
  | pinWaitTimeout (slot : Fin 8)
  | updateStageDone (slot : Fin 8)
  | updateStreamDone (slot : Fin 8)
  | descriptorWriteback (slot : Fin 8)
  | rulProbe (t : BitVec 48)
  -- memory tiers
  | hbmScrubRead (h : Half) (line : Nat) (upset : List Nat)
  | reservoirScrub (h : Half) (line : Nat) (upset : List Nat)
  | cxlLinkDown (l : Fin 6)
  | cxlResponseTimeout (l : Fin 6) (addr : BitVec 48)
  | cxlFatalError (l : Fin 6)
  -- coherence
  | coreLoad (c : CoreId) (addr : BitVec 48) (log2w : Fin 4)
  | coreStore (c : CoreId) (addr : BitVec 48) (log2w : Fin 4) (value : BitVec 64)
  | coreAtomic (c : CoreId) (addr : BitVec 48) (wide : Bool) (op : AmoOp) (value expect : BitVec 64)
  | cacheEviction (c : CoreId) (line : BitVec 41)
  | cboClean (c : CoreId) (addr : BitVec 48)
  | cboFlush (c : CoreId) (addr : BitVec 48)
  | cboInval (c : CoreId) (addr : BitVec 48)
  | cboZero (c : CoreId) (addr : BitVec 48)
  | rdShared (c : CoreId) (line : BitVec 41)
  | rdOwn (c : CoreId) (line : BitVec 41)
  | upgrade (c : CoreId) (line : BitVec 41)
  | atomicReq (c : CoreId) (addr : BitVec 48) (wide : Bool) (op : AmoOp) (value expect : BitVec 64)
  | wbDirty (c : CoreId) (line : BitVec 41)
  | evictClean (c : CoreId) (line : BitVec 41)
  | rdCur (agent : BitVec 10) (line : BitVec 41)
  | wrFull (agent : BitVec 10) (line : BitVec 41) (data : List Byte) (poison : Bool)
  | wrPartial (agent : BitVec 10) (addr : BitVec 48) (data : List (Option Byte))
  | atomicFar (agent : BitVec 10) (addr : BitVec 48) (wide : Bool) (op : AmoOp) (value expect : BitVec 64)
  | snpFwdShared (c : CoreId) (line : BitVec 41) (req : CoreId)
  | snpFwdOwn (c : CoreId) (line : BitVec 41) (req : CoreId)
  | snpInv (c : CoreId) (line : BitVec 41)
  | snpCur (c : CoreId) (line : BitVec 41)
  | data (c : CoreId) (line : BitVec 41) (g : Grant)
  | dataCmp (c : CoreId) (line : BitVec 41) (g : Grant)
  | grantCmp (c : CoreId) (line : BitVec 41)
  | grantAck (c : CoreId) (line : BitVec 41)
  | rspI (c : CoreId) (line : BitVec 41)
  | rspS (c : CoreId) (line : BitVec 41)
  | rspFwd (c : CoreId) (line : BitVec 41)
  | rspIWbPend (c : CoreId) (line : BitVec 41)
  | wbAck (c : CoreId) (line : BitVec 41)
  | cmp (agent : BitVec 10) (line : BitVec 41)
  | nack (agent : BitVec 10) (line : BitVec 41) (reserved : Bool)
  | nackRetry (agent : BitVec 10) (line : BitVec 41)
  | reservationLapse (line : BitVec 41)
  | snoopTimeout (line : BitVec 41)
  | grantAckTimeout (line : BitVec 41)
  -- Lightfast and Uttupel
  | linkBlockReceive (p : Fin 28) (block : RxBlock)
  | linkRetry (p : Fin 28) (seq : BitVec 12)
  | linkReplayLimit (p : Fin 28)
  | linkAckTimeout (p : Fin 28)
  | wavelengthLock (p : Fin 28)
  | alignHoldDone (p : Fin 28)
  | initBlock (p : Fin 28) (pkg : BitVec 16) (port : BitVec 6) (inc : BitVec 32)
  | trainingRetry (p : Fin 28)
  | transitForward (h : Half) (k : UtpPkt)
  | dataPacket (k : UtpPkt)
  | ackPacket (k : UtpPkt)
  | nakPacket (k : UtpPkt)
  | rnrPacket (k : UtpPkt)
  | openPacket (k : UtpPkt)
  | openAckPacket (k : UtpPkt)
  | domainDownPacket (k : UtpPkt)
  | rtoExpiry (ctx : BitVec 20)
  | ackDelayExpiry (ctx : BitVec 20)
  | rnrDelayExpiry (ctx : BitVec 20)
  | utpCtxReset (h : Half)
  | txRingDoorbell (h : Half) (b : Fin 7) (tail : BitVec 16)
  | rxRingDoorbell (h : Half) (b : Fin 7) (tail : BitVec 16)
  | ethFrameRx (p : Fin 28) (frame : List Byte)
  -- Feed
  | sampleDispatch (h : Half) (stream : Fin 32)
  | decodeComplete (h : Half) (stream : Fin 32) (seq : Nat)
  | resizeComplete (h : Half) (stream : Fin 32) (seq : Nat)
  | fedSwrDb (h : Half) (index : BitVec 12)
  | budgetExpiry (h : Half) (stream : Fin 32) (seq : Nat)
  | liveCloseExpiry (h : Half) (stream : Fin 32)
  | batchEmit (h : Half) (stream : Fin 32)
  -- power, boot, Colophon
  | railFault (rail : BitVec 8)
  | thermalTrip (sensor : BitVec 8) (reading : BitVec 32)
  | railTimeout (rail : BitVec 8)
  | bootStageAdvance (r : BootReport)
  | stageTimeout (r : BootReport)
  | colophonSample (readings : List (BitVec 8 × BitVec 32))
  | coreRun (c : CoreId)
  | arpRequest (ip : BitVec 32) (mac : BitVec 48)
  | icmpEcho (ip : BitVec 32) (payload : List Byte)
  | logRead (who : Requester) (hd : ReqHead) (flash : Bool) (slot : BitVec 16) (count : Nat)
  | sensorRead (who : Requester) (hd : ReqHead) (first : Nat) (count : Nat)
  | imageWrite (who : Requester) (hd : ReqHead) (comp : BitVec 8) (off : BitVec 32) (bytes : List Byte)
  | imageCommit (who : Requester) (hd : ReqHead) (comp : BitVec 8) (len : BitVec 32)
  | getVersion (r : SpdmCall)
  | getCapabilities (r : SpdmCall) (flags : BitVec 32)
  | negotiateAlgorithms (r : SpdmCall) (asym hash : BitVec 32)
  | getDigests (r : SpdmCall)
  | getCertificate (r : SpdmCall) (slot : BitVec 8) (off len : BitVec 16)
  | challenge (r : SpdmCall) (slot : BitVec 8) (summary : BitVec 8) (nonce : BitVec 256)
  | getMeasurements (r : SpdmCall) (index : BitVec 8) (sign : Bool) (nonce : BitVec 256)
  | unlock (frame : BitVec 48) (key : BitVec 32)
  | postedWriteDone (frame : BitVec 48)
  | registerWrite (c : CoreId) (addr : BitVec 48) (value : BitVec 32)
  | opticalLockLoss (p : Fin 28)
  | clockLoss (u : ClockUnit)
  | contributionReadDone (tag : BitVec 20) (block : Nat)
  | batchDescriptorOwned (h : Half) (stream : Fin 32)
  -- rows without operands
  | rulApply
  | powerOn
  | inputBelow34V
  | inputTrip
  | railSequenceStep
  | colophonStartWatchdog
  | heartbeatLapse
  | driverStopped
  | heartbeat
  | attach
  | detach
  | packageReset
  | downAutoReset
  | updateGo
  | updateFinish
  | updateConfirm
  | logCommit
  | logFlashCopy
  deriving DecidableEq, Repr

end Sys2Proof
end

