-- ==== Sys2Proof/Config.lean ====
section
/-! DEFINITION. What the manual leaves open or names without giving: constants without a body, so
that no proof can see a value (R12, and the published standards the manual cites). -/

namespace Sys2Proof.Config
open Sys2Proof

/-- A fresh undefined byte, by a counter of the state (DESIGN CHOICE, log entry 7): overlap bytes (R200), Retain
bytes after a fault (R117). -/
opaque freeByte : Nat → Byte

/-- A fresh choice where the manual allows either of two outcomes (DESIGN CHOICE, log entry 7). -/
opaque freeBit : Nat → Bool

/-- The upset of a stored cell at a tick, by POWER_CYCLES and TICK, if one happens: 0 a word of a Nib's local store, 1 of a
palette, 2 of HBM, 3 of a Reservoir, 4 a filter, bias, tracker or L2 tag entry; the Nib, Inkstone or agent; the word or
line; and the symbols it puts in error. What disturbs a cell lies outside the manual (DESIGN CHOICE, log entry 57). -/
opaque upset : (cycles tick : Nat) → Option (Nat × Nat × Nat × Nat)

/-- Quire cycles beyond one that instruction number `k` of Nib `i` takes since package reset (DESIGN CHOICE, log
entry 14). -/
opaque stalls : (i k : Nat) → Nat

/-- A port's received power in units of the port's register, by address and TICK (DESIGN CHOICE, log entry 24). -/
opaque rxPower : (addr tick : Nat) → BitVec 32

/-- Whether bytes that follow the end of a JPEG image, a raw DEFLATE stream or a zlib stream make the sample
corrupt; the manual and the formats do not say (DESIGN CHOICE, log entry 56). -/
opaque tailCorrupt : List Byte → Bool

/-- The set of a home's snoop filter that a line falls in, before the modulus, and the entry that a full set
gives up, by a counter of the state: R323 gives the size and the ways (DESIGN CHOICE, log entry 32). -/
opaque filterIndex : (home line : Nat) → Nat
opaque filterVictim : Nat → Nat

/-- The line that a full Reservoir evicts, by a counter of the state: R310 gives no policy (DESIGN CHOICE, log entry
16). -/
opaque resVictim : Nat → Nat

/-- The bin of the multicast hash that a MAC address falls in (R362), which the manual does not give (DESIGN CHOICE, log
entry 56). -/
opaque macBin : BitVec 48 → Nat

/-- A byte of the header of a message that crosses between the halves or to the Blotter, by what the message is,
its ends and its address: R17 gives the header 16 bytes and no layout (DESIGN CHOICE, log entry 29). -/
opaque flitHeader : (use src dst addr i : Nat) → Byte

/-- What VEXTRACT reads at a slot index above 1,023 of a vector register (DESIGN CHOICE, log entry 26). -/
opaque slotBeyond : (reg index : Nat) → BitVec 32

/-- The root-key digest in the boot ROM (R393; PRESUMED opaque, log entry 12). -/
opaque rootKeyDigest : List Byte

/-- The identity key's signature over a message, RSASSA-PKCS1-v1_5 with SHA-256 (R412, R414; PRESUMED opaque, log entry
12). -/
opaque identitySign : List Byte → List Byte

/-- The certificates of the manufacturing region (R412): the root's by its key's digest, the device CA's by the root
certificate that signs it, and the device's by the CA certificate that signs it and the package serial it names (PRESUMED
opaque, log entry 12). -/
opaque rootCert : (keyDigest : List Byte) → List Byte
opaque caCert : (root : List Byte) → List Byte
opaque deviceCert : (ca : List Byte) → (serial : BitVec 64) → List Byte

/-- Whether programming the flash die or reading it back fails, by a counter of the state: R403 names the case, and what
causes it lies in the die (DESIGN CHOICE, log entry 47). -/
opaque flashFails : Nat → Bool

/-- ID_SERIAL and ID_STEPPING.STEPPING, fuses (R440; DESIGN CHOICE, log entry 15). -/
opaque serial : BitVec 64
opaque stepping : BitVec 8

/-- COL_FW_VERSION of the booted firmware image is its header's VERSION; COL_FW_FEATURES is the
firmware's own (R428): which of bits 0 to 7 it publishes (DESIGN CHOICE, log entry 15). -/
opaque fwFeatures : BitVec 8

end Sys2Proof.Config
end

