-- ==== Sys2Proof/Machine/State.lean ====
section
/-! DEFINITION. The state of the package as plain data (spec/00 to spec/16), the reasons a step can
stop, and the state right after the Colophon's power-on reset. Where a table of registers gives a
software-written register or a counter, it stands in `State.regs` under its own address of R438
(`State.act` holds the active copy of a shadowed one); a read-only status field is computed from
the unit's state. -/

namespace Sys2Proof.Machine
open Sys2Proof

/-- Sparse data by key, keys rising; an unlisted key holds the value its reader names. -/
abbrev Sparse (α : Type) := List (Nat × α)

/-- Physical memory (R301): the bytes that differ from zero, and the poisoned
lines (R306). Lines are address div 128. -/
structure Mem where
  cells : List Host.Cell
  poison : List Nat
  deriving DecidableEq, Repr

/-- Whether a unit that the driver starts and stops is running (R198, R261, R296, R390, R341). -/
inductive RunSt where
  | off | running | stopped | halted
  deriving DecidableEq, Repr

/-- An address space bound to a unit: the binding queue, its ASID and ROOT (R170, R315). -/
structure Space where
  queue : BitVec 12
  asid : BitVec 16
  root : BitVec 64
  deriving DecidableEq, Repr

/-- A cached leaf (R316): the virtual pages `vpn` to `vpn + pages - 1` of an ASID map from physical
page `ppn` on, with the leaf's permission bits. -/
structure TlbEntry where
  h : Half
  asid : BitVec 16
  vpn : Nat
  pages : Nat
  ppn : Nat
  flags : BitVec 8
  deriving DecidableEq, Repr

/-- A cached non-leaf entry (R316): under an ASID, the table page that the walk reaches for the top
`3 - level` index fields `pre` of a virtual page. -/
structure TlbNode where
  h : Half
  asid : BitVec 16
  level : Nat
  pre : Nat
  table : Nat
  deriving DecidableEq, Repr

/-! ### Jalcel (06) -/

/-- A submission queue (R170, R171, R197). -/
structure Queue where
  enabled : Bool
  halted : Bool
  cqFault : Bool
  fetchFault : Bool
  wbFault : Bool
  waiting : Bool
  base : BitVec 64
  log2 : BitVec 8
  prio : BitVec 8
  asid : BitVec 16
  root : BitVec 64
  headWb : BitVec 64
  head : BitVec 16
  tail : BitVec 16
  deriving DecidableEq, Repr

/-- A completion queue (R189 to R191, R469). `used` counts reserved and unreturned entries. -/
structure Cq where
  enabled : Bool
  fault : Bool
  msiFault : Bool
  base : BitVec 64
  log2 : BitVec 8
  msiAddr : BitVec 64
  msiData : BitVec 32
  head : BitVec 16
  wr : BitVec 16
  phase : Bool
  used : Nat
  epoch : Nat       -- counts enables, so that an entry of an earlier enable is discarded (R469)
  deriving DecidableEq, Repr

/-- A reported completion, with TICK then (R190). -/
structure Done where
  status : BitVec 8
  d0 : BitVec 64
  d1 : BitVec 64
  tick : BitVec 64
  deriving DecidableEq, Repr

/-- A command dispatched and not yet posted (R192). -/
structure OutCmd where
  id : Nat
  queue : BitVec 12
  slot : BitVec 16
  op : BitVec 16
  flags : BitVec 8
  fence : BitVec 16
  cq : BitVec 12
  cqEpoch : Nat
  sem : BitVec 16
  value : BitVec 32
  scope : BitVec 32      -- FENCE_VISIBLE only (R185)
  done : Option Done
  deriving DecidableEq, Repr

/-- A signal that waits until the writes of its queue's command are visible (R181). -/
structure Sig where
  h : Half
  queue : BitVec 12
  sem : BitVec 16
  value : BitVec 32
  deriving DecidableEq, Repr

/-! ### Wells and Inkstones (03, 04) -/

/-- A Well: value field, flag word, term count (R63, R64, R69). -/
structure Well where
  val : BitVec 640
  flags : BitVec 32
  cnt : BitVec 64
  deriving DecidableEq, Repr

/-- The body of a tile operation as written (R102), reserved bits included. -/
structure TileOp where
  aAddr : BitVec 64
  bAddr : BitVec 64
  aScale : BitVec 64
  bScale : BitVec 64
  aStride : BitVec 32
  bStride : BitVec 32
  aScaleStride : BitVec 32
  bScaleStride : BitVec 32
  k : BitVec 32
  opnd : BitVec 32
  outc : BitVec 32
  mcast : BitVec 32
  outAddr : BitVec 64
  outStride : BitVec 32
  preFmt : BitVec 32
  preAddr : BitVec 64
  preStride : BitVec 32
  portCtl : BitVec 32
  seed : BitVec 64
  base : BitVec 64
  duct : BitVec 32
  pred : BitVec 32
  succ : BitVec 32
  resv : List Byte
  deriving DecidableEq, Repr

/-- Who issued a tile operation: a Scribe command by its id, or a Nib of the quire (R110). -/
inductive InkOrigin where
  | scribe (id : Nat)
  | port (n : Fin 16)
  deriving DecidableEq, Repr

/-- Phases of an operation (R114, INK_STAT.PHASE); `released` is its end before completion. -/
inductive Phase where
  | idle | fill | streaming | ductusWait | merge | resolve | drain | send | released
  deriving DecidableEq, Repr

/-- A failed access: its status code and virtual address (R192). -/
structure FaultAt where
  status : BitVec 8
  va : BitVec 64
  deriving DecidableEq, Repr

/-- A line of an operand as fetched: its bytes with their poison, and the fault that cut it short. -/
abbrev Line := List (Byte × Bool) × Option FaultAt

/-- An operand's lines and scale lines. -/
structure Fetched where
  lines : List Line
  scales : List Line
  deriving DecidableEq, Repr

/-- A tile operation in an Inkstone's queue (R110). `preA` and `preB` are the operand lines, by number, that the fill engine
fetched while the operation before it ran (R113), `latch` the status and term count it completes with once the next operation has its
Wells (R115), `sent` whether its tile's first beat has left, and `mark` the place of the tile's last packet in the
context it goes on (R361). -/
structure InkOp where
  body : TileOp
  origin : InkOrigin
  space : Space
  skip : Bool
  members : BitVec 4
  phase : Phase
  fetchFault : Option FaultAt
  outFault : Option FaultAt
  recv : Option (Sparse Well)
  credit : Bool
  sent : Bool
  ended : Option (BitVec 8)
  preA : Sparse Line
  preB : Sparse Line
  latch : Option (BitVec 8 × Nat)
  mark : Option (Nat × Nat)
  deriving DecidableEq, Repr

/-- A completion record that waits for its mailbox (R142). -/
structure HeldRec where
  nib : Fin 16
  mbox : BitVec 4
  bytes : List Byte
  deriving DecidableEq, Repr

/-- An Inkstone: its queue of two, its 4,096 Wells keyed 64r + c, its palette bytes, the palette ranges
that hold undefined bytes (from, to, and the number of the first free byte; R99), poisoned 16-byte
words, the symbols in error by word (R98), its unmatched Ductus grants and the credits that came, each with the partner
and the chain tag (R84), its held record. -/
structure Ink where
  running : Option InkOp
  waiting : Option InkOp
  wells : Sparse Well
  pal : Sparse Byte
  palFree : List (Nat × Nat × Nat)
  palPoison : List Nat
  palEcc : Sparse Nat
  grants : List (BitVec 32 × BitVec 16)
  credits : List (BitVec 32 × BitVec 16)
  held : Option HeldRec
  deriving DecidableEq, Repr

/-- A multicast set (R118, R119): its stroke group, the members as commanded and still live, tag, the members dispatched,
the B fields of the first of them, the members that stream, whether one has streamed, and the lines of B that the group
has fetched. -/
structure McSet where
  group : Nat
  named : BitVec 4
  members : BitVec 4
  tag : BitVec 16
  joined : BitVec 4
  first : TileOp
  started : BitVec 4
  streamed : Bool
  b : Sparse Line
  deriving DecidableEq, Repr

/-- Ductus messages (R84, R86, R87, R361). -/
inductive DKind where
  | credit | tile | abandon | fenced | announce
  deriving DecidableEq, Repr

/-- A Ductus message in flight between two links, named as in PRED and SUCC (R106). -/
structure DuctMsg where
  kind : DKind
  dst : BitVec 32
  src : BitVec 32
  tag : BitVec 16
  wells : Sparse Well
  deriving DecidableEq, Repr

/-! ### Nibs (05) -/

/-- NIB_STATE.STATE. -/
inductive NibSt where
  | halted | running | waiting | faulted
  deriving DecidableEq, Repr

/-- What an outstanding remote operation will do on its return (R126). -/
inductive RemKind where
  | load (rd : BitVec 5) (fp : Bool) (value : Word)
  | store
  | msend
  deriving DecidableEq, Repr

/-- An outstanding remote operation: its Nib address, virtual and physical address, and the XLT_INVALIDATE commands that
wait for it (R316). -/
structure RemOp where
  kind : RemKind
  addr : BitVec 32
  va : BitVec 48
  pa : Nat
  inv : List Nat
  deriving DecidableEq, Repr

/-- A Nib fault (R134): cause, Nib address, 48-bit address. -/
structure NFault where
  cause : BitVec 4
  addr : BitVec 32
  va : BitVec 48
  deriving DecidableEq, Repr

/-- A Nib with its Brush, Nib Well, mailboxes and local store. Vector slots are keyed
1,024v + slot, mask registers by number, mailbox bytes 64b + i; `lsPoison` and `lsEcc` name 16-byte words of the
local store, poisoned and with a number of symbols in error (R129, R305). -/
structure Nib where
  st : NibSt
  cause : BitVec 4
  pc : Word
  x : Sparse Word
  f : Sparse Word
  frm : BitVec 3
  space : Space
  launch : Option Nat
  v : Sparse Word
  m : Sparse (BitVec 1024)
  len : BitVec 13
  bctl : Word
  bstat : Word
  bpoison : BitVec 16
  bseed : BitVec 64
  bcnt : BitVec 64
  mbox : Sparse Byte
  mfull : BitVec 16
  well : Well
  cycle : BitVec 64
  instret : BitVec 64
  ls : Sparse Byte
  lsPoison : List Nat
  lsEcc : Sparse Nat
  faultAddr : Word
  faultVa : BitVec 48
  stage : Sparse Byte
  portWait : Bool
  portTick : BitVec 64
  rops : List RemOp
  storeFault : Option NFault
  waitMask : BitVec 16
  waitRd : BitVec 5
  deriving DecidableEq, Repr

/-- A QDMA transfer that waits in its quire's engine (R130). -/
structure QXfer where
  nib : Fin 16
  desc : Word
  deriving DecidableEq, Repr

/-- A mailbox message in flight: sender's number (R138), destination word (R137), 64 bytes, and whether it was refused once
and is retried. -/
structure Mail where
  src : Nat
  dst : Word
  bytes : List Byte
  tried : Bool
  deriving DecidableEq, Repr

/-! ### DMA (06) -/

/-- DMA_STAT.STATE. -/
inductive DmaSt where
  | idle | running | pausing | paused | halted
  deriving DecidableEq, Repr

/-- A DMA descriptor as fetched (R200). -/
structure DmaDesc where
  ctl : BitVec 32
  src : BitVec 64
  dst : BitVec 64
  rowBytes : BitVec 32
  rows : BitVec 32
  srcStride : BitVec 32
  dstStride : BitVec 32
  next : BitVec 64
  pattern : BitVec 64
  deriving DecidableEq, Repr

/-- An outstanding read of a channel: one source line or a part of it, where it lies by the translation at its issue,
and the XLT_INVALIDATE commands that wait for it (R199, R316). -/
structure DmaRead where
  len : Nat
  va : Nat
  pa : Option Nat
  inv : List Nat
  deriving DecidableEq, Repr

/-- A DMA channel. `done` counts the bytes written of the descriptor, `reads` are the reads
outstanding, oldest first; `codes` holds the statuses met since the start (R188). -/
structure Dma where
  st : DmaSt
  stop : BitVec 2
  ptr : BitVec 64
  desc : Option DmaDesc
  done : Nat
  reads : List DmaRead
  poison : Bool
  fail : Option (BitVec 8)
  pauseReq : Bool
  launch : Option Nat
  space : Space
  bindSh : BitVec 12
  bindAct : BitVec 12
  processed : Nat
  failed : Nat
  firstFail : Option (BitVec 64)
  codes : List (BitVec 8)
  errAddr : BitVec 64
  deriving DecidableEq, Repr

/-! ### Packet links (01, 12) -/

/-- One end of a flit or block link. Send side: the next SEQ, the replay buffer of SEQ, channel and
payload, what waits for a credit or a replay entry with the packet stream it belongs to, the lane served
last, the stream in the middle of whose packet each lane stands, credits spent and reported per channel,
the channel whose credits are reported next, the SEQ last requested and how often. Receive side: the
expected SEQ, whether what comes is discarded until a replay, slots freed, the message under assembly with its poisoned
lines and the way of a packet in transit per channel, whole messages. Then the failure, and what a flit link has put
on the wire, oldest first. -/
structure Link where
  nextSeq : Nat
  replay : List (Nat × Nat × List Byte)
  txq : List (Nat × Nat × List Byte)
  lane : Nat
  owner : Sparse Nat
  spent : Sparse Nat
  credited : Sparse Nat
  cvc : Nat
  lastReq : Option Nat
  reqCount : Nat
  rxExp : Nat
  discard : Bool
  freed : Sparse Nat
  partials : Sparse (List Byte)
  marks : Sparse (BitVec 32)
  cut : Sparse (Nat × Nat)
  rx : List (Nat × List Byte)
  failed : Bool
  cause : BitVec 2
  out : List (List Byte)
  deriving DecidableEq, Repr

/-- LFP_PORT_STAT.STATE (R349). -/
inductive PortSt where
  | disabled | signal | aligned | init | up
  deriving DecidableEq, Repr

/-- A Vellum port. -/
structure Port where
  role : BitVec 2
  st : PortSt
  lock : BitVec 8
  loop : Bool
  nbrPkg : BitVec 16
  nbrPort : BitVec 6
  link : Link
  deriving DecidableEq, Repr

/-- States of a connection context (R356). -/
inductive CtxSt where
  | closed | opening | opened | failed | down
  deriving DecidableEq, Repr

/-- A connection context (R356, R357). `waiting` holds payloads not yet sent; `sentN` and `ackN` count
the payloads its users gave it and those acknowledged, `stalled` the waiting ones that have found the store full. -/
structure Ctx where
  st : CtxSt
  psn : Nat
  unacked : List UtpPkt
  waiting : List (List Byte × Bool × BitVec 32)
  expPsn : Nat
  inc : Option (BitVec 32)
  retries : Nat
  rto : Nat
  timer : Nat
  sinceAck : Nat
  nakSent : Bool
  rnrWait : Bool
  goback : Option Nat            -- the PSN that the last go-back-N began with (R358)
  dtile : List Byte              -- Ductus tile under reception (R361)
  dlink : Option (BitVec 32 × BitVec 32 × BitVec 16)  -- the link it is for: own name, sender, tag
  announced : List (BitVec 32 × BitVec 32 × BitVec 16)
  sentN : Nat
  ackN : Nat
  stalled : Nat
  deriving DecidableEq, Repr

/-- A software or Ethernet ring (R360): positions; the receive descriptors in progress, each with its
context and the bytes so far; and the transmit descriptors sent and not yet acknowledged, each with its
context and the place of its last packet there. -/
structure Ring where
  txHead : BitVec 16
  txTail : BitVec 16
  rxHead : BitVec 16
  rxTail : BitVec 16
  rxOpen : List (Nat × Nat × Nat)
  fly : List (Nat × Nat × Nat)
  deriving DecidableEq, Repr

/-- A flow-table entry of an Ethernet port (R363): IP version, address, UDP port, and the place the
frame goes to: a Feed lane, the receive ring, or a drop. -/
structure Flow where
  valid : Bool
  v6 : Bool
  addr : BitVec 128
  port : BitVec 16
  lane : Option (Fin 8)
  drop : Bool
  deriving DecidableEq, Repr

/-! ### Blotter and Ruler (08) -/

/-- A region descriptor as read (R229). -/
structure Region where
  ctl : BitVec 32
  resv4 : BitVec 32
  step : BitVec 64
  w0 : BitVec 64
  w1 : BitVec 64
  g : BitVec 64
  m : BitVec 64
  v : BitVec 64
  elems : BitVec 64
  rowLen : BitVec 32
  usedCols : BitVec 32
  seed : BitVec 64
  beta1 : BitVec 32
  beta2 : BitVec 32
  eps : BitVec 32
  wd : BitVec 32
  tail : List Byte
  deriving DecidableEq, Repr

/-- An update in a slot (R234, R235). `stage` is the stage it is in; 9 means streamed, waiting for
the write-back of R239. -/
structure Upd where
  out : Nat
  order : Nat
  space : Space
  region : Nat
  uctl : BitVec 32
  expect : BitVec 64
  lrReg : BitVec 32
  clip : BitVec 32
  clipAddr : BitVec 64
  rtable : BitVec 64
  nregions : Nat
  pinWait : Nat
  stage : Nat
  desc : Option Region
  lr : BitVec 32
  c : BitVec 32
  waitFrom : Option Nat
  badLines : Nat
  anyFail : Bool
  anyPoison : Bool
  deriving DecidableEq, Repr

/-- A pin or init that waits for an update in stage 7 or 8 (R254). -/
structure BltWait where
  out : Nat
  init : Bool
  region : Nat
  deriving DecidableEq, Repr

/-- The settings of a Ruler group (RUL frame). -/
structure RulSet where
  ctl : BitVec 32
  peak : BitVec 32
  minRatio : BitVec 32
  gamma : BitVec 32
  warmup : BitVec 32
  decay : BitVec 48
  period : BitVec 48
  deriving DecidableEq, Repr

/-- A Ruler group: shadow and active settings, the largest t evaluated, an APPLY that waits. -/
structure Rul where
  sh : RulSet
  ac : RulSet
  lastT : Option Nat
  applyWait : Bool
  deriving DecidableEq, Repr

/-! ### Scriptorium (09) -/

/-- A bucket descriptor (R264). -/
structure BDesc where
  tag : BitVec 32
  ctl : BitVec 32
  elems : BitVec 64
  c0 : BitVec 64
  c1 : BitVec 64
  out : BitVec 64
  scale : BitVec 64
  seed : BitVec 64
  ranks : BitVec 64
  firstRank : BitVec 32
  nranks : BitVec 32
  sumsq : BitVec 64
  resv : List Byte
  deriving DecidableEq, Repr

/-- States of a tag (R271). -/
inductive TagSt where
  | free | early | scaling | running | held
  deriving DecidableEq, Repr

/-- A tag in its lead Scriptorium. `heldMsgs` are early messages with their phases, `outq` messages that
wait for credit, `lastSent` the place of its last packet in each context; `outDone` the blocks written
(combined, while SCALING), `expDone` the blocks whose exponent is agreed or whose chain began here;
`satSeg` the saturation counts of the segments, and at N + j those this package added. -/
structure Tag where
  st : TagSt
  attempt : Nat
  space : Space
  out : Option Nat
  desc : Option BDesc
  ranks : List (BitVec 16)
  crc : BitVec 32
  table : List Byte
  headroom : Nat
  heldMsgs : List (Nat × SrpMsg)
  outq : List (Nat × SrpMsg)
  lastSent : Sparse Nat
  abandon : Option (BitVec 16)
  abandonHeld : Bool
  outDone : List Nat
  satSeg : Sparse Nat
  satBlocks : List Nat
  poisonBlocks : List Nat
  partials : Sparse Well
  exps : Sparse (BitVec 16)
  expDone : List Nat
  credits : Nat
  deriving DecidableEq, Repr

/-! ### Coherence (11) -/

/-- States of a line in a server-core cache (R324), transient ones included. -/
inductive CSt where
  | i | s | e | f | m | isd | imd | sma | mia
  deriving DecidableEq, Repr

/-- What a core waits to do with a line. -/
inductive CoreOp where
  | load (addr : BitVec 48) (log2w : Fin 4)
  | store (addr : BitVec 48) (log2w : Fin 4) (value : BitVec 64)
  | atomic (addr : BitVec 48) (wide : Bool) (op : AmoOp) (value expect : BitVec 64)
  | zero (addr : BitVec 48)
  | clean (addr : BitVec 48)
  | flush (addr : BitVec 48)
  deriving DecidableEq, Repr

/-- A line in a core's L2: state, data (in flight with a grant), poison, the state before the request, what has arrived
of the grant, the operation that waits, the old value of a far atomic with its poison on the way with Cmp, and the
operations that wait behind the first, in order. -/
structure CLine where
  st : CSt
  data : List Byte
  poison : Bool
  prev : CSt
  got : Option Grant
  comp : Bool
  op : Option CoreOp
  old : Option (List Byte × Bool)
  more : List CoreOp
  deriving DecidableEq, Repr

/-- A snoop-filter entry (R323): holders by agent, and the one in M, E or F. -/
structure FEnt where
  holders : List Nat
  owner : Option (Nat × Grant)
  deriving DecidableEq, Repr

/-- The kind of a transaction at a home (R328, R329); `evict` frees a filter entry for a request of another
line (R323). -/
inductive TKind where
  | shared | own | upgrade
  | cur | full (data : List Byte) (poison : Bool) | partial_ (addr : Nat) (data : List (Option Byte))
  | atomic (addr : Nat) (wide : Bool) (op : AmoOp) (value expect : BitVec 64) (core : Bool)
  | evict (line : Nat)
  deriving DecidableEq, Repr

/-- A transaction in progress on a line (R332): requester, kind, the caches whose snoop is
unanswered, a cache whose writeback is awaited (R337), whether a holder forwarded the data, and whether
the grant is sent. -/
structure Trans where
  req : Nat
  kind : TKind
  waits : List Nat
  wbWait : Option Nat
  fwd : Bool
  granted : Bool
  deriving DecidableEq, Repr

/-- Coherence messages (R325); Cmp carries the data read or the old value, and `again n` is a request sent again with
count n (R334). -/
inductive CohMsg where
  | rdShared | rdOwn | upgrade | atomicReq | wbDirty | evictClean | rdCur | wrFull | wrPartial | atomicFar
  | snpFwdShared | snpFwdOwn | snpInv | snpCur
  | data (g : Grant) | dataCmp (g : Grant) | grantCmp | grantAck
  | rspI | rspS | rspFwd | rspIWbPend | wbAck | cmp (data : List Byte) (poison : Bool) | nack (reserved : Bool)
  | again (n : Nat) (m : CohMsg)
  deriving DecidableEq, Repr

/-- A BIAS_FLIP in progress: its command, first 64 KiB page, page count and the bias it sets. -/
structure Flip where
  out : Nat
  page : Nat
  pages : Nat
  device : Bool
  deriving DecidableEq, Repr

/-- The coherent domain: caches keyed agent * 2^41 + line, the homes' filter, transactions and
reservations keyed by line, Nack counts and the ticks at which retries are due keyed as caches,
predictor keyed 4,096h + index, flips that wait; the tick from which a reservation lapses after 2 µs, EvictClean
messages in flight by 4 * agent + home, the request with its data that a non-caching agent had refused, the Cmp (false) and
Nack (true) messages on their way to such agents, and the filter, bias, tracker and L2 tag
entries with an uncorrectable error, keyed as caches under the home's ID or the core's (R335, R333, R334, R340). -/
structure Coh where
  running : Bool
  down : Bool
  cause : BitVec 4
  downHome : Nat
  downAgent : BitVec 10
  downAddr : BitVec 48
  downTick : Nat
  caches : Sparse CLine
  filter : Sparse FEnt
  trans : Sparse Trans
  resv : Sparse Nat
  nacks : Sparse Nat
  retryAt : Sparse Nat
  pred : Sparse Nat
  flips : List Flip
  resvAt : Sparse Nat
  evOut : Sparse Nat
  asked : Sparse (CohMsg × List Byte)
  replies : List (Nat × Bool)
  badTags : List Nat
  deriving DecidableEq, Repr


/-! ### Feed (13) -/

/-- A stream descriptor (R372). -/
structure StreamDesc where
  ctl : BitVec 32
  slots : BitVec 32
  slotBytes : BitVec 32
  pad : BitVec 32
  ring : BitVec 64
  log2 : BitVec 8
  resv19 : BitVec 8
  sem : BitVec 16
  budget : BitVec 32
  staging : BitVec 64
  stagingBytes : BitVec 64
  outCap : BitVec 32
  maxRatio : BitVec 32
  maxPixels : BitVec 32
  maxSide : BitVec 16
  resv3e : BitVec 16
  outW : BitVec 16
  outH : BitVec 16
  ageLimit : BitVec 32
  liveClose : BitVec 32
  rtp : BitVec 32
  ssrc : BitVec 32
  width : BitVec 16
  height : BitVec 16
  resv58 : List Byte
  deriving DecidableEq, Repr

/-- A decoded sample: an image of `comps` components, or bytes, or tokens; `trunc` as R382. -/
inductive Decoded where
  | image (w h comps : Nat) (px : List Byte)
  | bytes (b : List Byte)
  | tokens (t : List Nat)
  | bad (status : BitVec 8)
  deriving DecidableEq, Repr

/-- Where a sample stands (R378, R384): at engine `k` of a kind of R409, at a software-ring index,
decoded and before crop and resize, ready for its slot, or padded while software still holds it. -/
inductive SampleSt where
  | queued
  | engine (kind : Nat) (k : Nat)
  | software (index : Nat)
  | decoded (d : Decoded)
  | ready (d : Decoded)
  | late (index : Nat)
  deriving DecidableEq, Repr

/-- A sample or a complete live frame of a stream (R373, R386). `bytes` are what its engine reads: the
source, or the output of its decompressor; `stage` is its staging space, offset and size. -/
structure Sample where
  seq : Nat
  src : BitVec 64
  len : BitVec 32
  budget : BitVec 32
  crop : List (BitVec 16)
  cookie : BitVec 64
  submit : Option Nat
  stamp : BitVec 64
  bytes : List Byte
  sw : Bool
  stage : Option (Nat × Nat)
  st : SampleSt
  deriving DecidableEq, Repr

/-- A decided slot of the batch under assembly (R375). -/
structure Slot where
  seq : Nat
  status : BitVec 8
  valid : Bool
  sw : Bool
  trunc : Bool
  len : Nat
  stamp : BitVec 64
  cookie : BitVec 64
  data : List Byte
  deriving DecidableEq, Repr

/-- A FEED_SUBMIT in progress: its samples not yet in a slot, and what its completion reports
(R383). -/
structure Submit where
  out : Nat
  first : Nat
  left : Nat
  codes : List (BitVec 8)
  padded : Nat
  truncd : Nat
  deriving DecidableEq, Repr

/-- An RTP packet of a live frame under assembly (R386). -/
structure RtpPkt where
  seq : BitVec 16
  ts : BitVec 32
  marker : Bool
  stamp : BitVec 64
  payload : List Byte
  deriving DecidableEq, Repr

/-- States of a stream. -/
inductive StreamSt where
  | closed | opened | closing
  deriving DecidableEq, Repr

/-- A Feed stream. Slots, and with them batches, are numbered from OPEN on: a file stream's slot by the sequence number
it belongs to, a live stream's by the order of writing. `firstSeq` is the number of the current batch's first slot, and
`slots` holds what is written, keyed by the distance from it. An entry of `flushes` is a slot number at which a batch ends
early, with the command that waits for it, if one does. `owned` counts the batch descriptors, from the current one on, that
the Feed has found owned, and `stale` is keyed by batch. -/
structure Stream where
  st : StreamSt
  space : Space
  desc : Option StreamDesc
  next : Nat
  batch : Nat
  firstSeq : Nat
  ringPos : Nat
  slots : Sparse Slot
  stale : Sparse Nat
  samples : List Sample
  flushes : List (Option Nat × Nat)
  closeOut : Option Nat
  owned : Nat
  waitDesc : Bool
  pkts : List RtpPkt
  lastTs : Option (BitVec 32)
  ssrc : Option (BitVec 32)
  qtabs : Sparse (List Byte)
  deriving DecidableEq, Repr

/-- A FEED_LOAD_MERGES that waits for earlier tokenizing samples (R380). -/
structure MergeLoad where
  out : Nat
  space : Space
  count : Nat
  merges : Nat
  classes : Nat
  deriving DecidableEq, Repr

/-- The Feed of one half: the software ring is keyed by descriptor index and names stream and
sequence number. -/
structure Feed where
  run : RunSt
  streams : Sparse Stream
  submits : List Submit
  merges : List (Nat × Nat)
  classes : List Byte
  loads : List MergeLoad
  swr : Sparse (Nat × Nat)
  swNext : Nat
  deriving DecidableEq, Repr

/-! ### Gauges (02), cores, Colophon (14 to 16) -/

/-- A gauge set: five 48-bit counters in the order of R59, and SAT (R60). -/
structure Gauge where
  converted : Nat
  overflow : Nat
  zeroed : Nat
  subnormal : Nat
  nanOut : Nat
  sat : BitVec 5
  deriving DecidableEq, Repr

/-- A server core as the package sees it: started (R445), NMI pending (R341), the last load's
value, the last exception (R301, R308), the line of its LR reservation (R338), mncause of its NMI (R341); whether it is
in machine mode, the pc and a0 and a1 it starts with (R401, R445). -/
structure Core where
  running : Bool
  nmi : Bool
  result : BitVec 64
  exc : Option Nat
  lr : Option Nat
  mncause : Nat
  machine : Bool
  pc : BitVec 64
  a0 : BitVec 64
  a1 : BitVec 64
  deriving DecidableEq, Repr

/-- Input, regulators and trips (R455 to R460). `step` is the rail step that is coming up, 0
before the first and 9 after the last, `rails` the rails that are on (sensor indices of R416), `off` the
state after a trip. -/
structure Power where
  input : Bool
  step : Nat
  rails : List Nat
  off : Bool
  deriving DecidableEq, Repr

/-- State of an image slot (R396); `fallback` is a slot kept behind the one a confirm made ACTIVE
(R404). -/
inductive SlotSt where
  | active | pending (attempts : Nat) | fallback | invalid
  deriving DecidableEq, Repr

/-- The boot control record (R391): POWER_CYCLES, the slot states, keyed 2 * component + slot with component 0 Colophon, 1
server-core, 2 Rubric, and the last valid management address, with its generation number; `good` says whether its CRC-32
holds. -/
structure BootRec where
  cycles : BitVec 48
  slots : Sparse SlotSt
  ip : Option (BitVec 32)
  gen : Nat
  good : Bool
  deriving DecidableEq, Repr

/-- The flash die and the fuses (R391, R394, R29): the two copies of the boot control record, image bytes, of which an
unlisted one reads 0xFF, and the log ring. -/
structure Flash where
  recA : BootRec
  recB : BootRec
  bytes : Sparse Byte
  log : Sparse (List Byte)
  logHead : BitVec 16
  svn : Nat
  fences : List (BitVec 24)
  deriving DecidableEq, Repr

/-- The Rubric's values as booted (R407). -/
structure Rubric where
  pkg : BitVec 16
  roles : List (BitVec 8)
  macs : List (BitVec 48)
  cxl : List (Nat × List Nat)
  fences : List (BitVec 24)
  tThrottle : Nat
  hyst : Nat
  tAlert : Nat
  powerLimit : Nat
  pools : List Nat
  ranks : List (BitVec 16)
  ip : Option (BitVec 32)
  prefixLen : Nat
  gateway : BitVec 32
  permit : Bool
  len : Nat
  deriving DecidableEq, Repr

/-- A CXL interleave set as mapped (R312): base in the second-tier window, links, bytes. -/
structure CxlSet where
  base : Nat
  links : List Nat
  bytes : Nat
  deriving DecidableEq, Repr

/-- COL_UPD_STAT.STATE (R403). -/
inductive UpdSt where
  | idle | busy | done | failed
  deriving DecidableEq, Repr

/-- The capabilities that the package states (R414). -/
structure SpdmCaps where
  cert : Bool
  chal : Bool
  measSigned : Bool
  ctExponent : Nat
  transferSize : Nat
  msgSize : Nat
  deriving DecidableEq, Repr

/-- The algorithms that are selected (R414), by the names of the published standard. -/
structure SpdmAlgs where
  measSpec : String
  asym : String
  hash : String
  measHash : String
  deriving DecidableEq, Repr

/-- The value type of a measurement (R415). -/
inductive MeasType where
  | mutableFirmware | firmwareConfig
  deriving DecidableEq, Repr

/-- A measurement as it is reported (R415). -/
structure SpdmMeas where
  index : Nat
  type : MeasType
  digest : List Byte
  deriving DecidableEq, Repr

/-- Why an SPDM request is refused: unsupported (R414), or with a slot, an index or a summary that is not offered. -/
inductive SpdmErr where
  | unsupportedRequest | invalidRequest
  deriving DecidableEq, Repr

/-- Where an SPDM reply goes: a requester, and the request ID that is echoed; its header is that of a type 1 reply with
status OK (R413). -/
structure ReplyTo where
  who : Requester
  id : BitVec 16
  deriving DecidableEq, Repr

/-- What port M answered (R413 to R415). -/
inductive Mgmt where
  | arp (ip : BitVec 32)
  | icmp (ip : BitVec 32) (payload : List Byte)
  | reply (who : Requester) (type : BitVec 8) (id : BitVec 16) (status : BitVec 8) (payload : List Byte)
  | spdmVersion (dst : ReplyTo) (versions : List (Nat × Nat))
  | spdmCaps (dst : ReplyTo) (caps : SpdmCaps)
  | spdmAlgs (dst : ReplyTo) (algs : Option SpdmAlgs)
  | spdmDigests (dst : ReplyTo) (digest : List Byte)
  | spdmCert (dst : ReplyTo) (part : List Byte) (left : Nat)
  | spdmChallenge (dst : ReplyTo) (digest summary sig : List Byte)
  | spdmMeas (dst : ReplyTo) (blocks : List SpdmMeas) (sig : Option (List Byte))
  | spdmError (dst : ReplyTo) (code : SpdmErr)
  deriving DecidableEq, Repr

/-- An SPDM requester's transcript (R414): the kinds of request served, oldest first. -/
structure Transcript where
  who : Requester
  done : List Nat
  bytes : List Byte
  deriving DecidableEq, Repr

/-- The Colophon (14, 15). Booted slots are 0 A, 1 B, per component. Sensors are keyed by index;
thermal steps, power steps and counts by 36h + s; ceilings and their counts by 6h + k. -/
structure Colo where
  stage : Nat
  reselect : Bool
  bootFailed : Bool
  recovery : Bool
  started : Bool
  bootedCol : Nat
  bootedScfw : Nat
  bootedRub : Nat
  rubric : Rubric
  fences : List (BitVec 24 × BitVec 8)
  meas : List (List Byte)
  hostHalf : Option Half
  service : BitVec 4
  upd : UpdSt
  updCause : BitVec 4
  updComp : BitVec 2
  updImage : Option (List Byte)
  updOld : SlotSt
  updSvn : Nat
  sensors : Sparse (BitVec 32)
  stepT : Sparse Nat
  stepP : Sparse Nat
  cool : Sparse Nat
  ceil : Sparse Nat
  ceilCool : Sparse Nat
  ceilLow : Nat
  powHist : List Nat
  powLow : Nat
  log : Sparse (List Byte)
  logNext : Nat
  logFlashed : Nat
  spdm : List Transcript
  lastReset : BitVec 2
  featPend : Bool
  deriving DecidableEq, Repr

/-- ID_DRV_STAT.STATE (R449). -/
inductive DrvSt where
  | detached | attached | stopping | stopped
  deriving DecidableEq, Repr

/-- The driver's attachment. -/
structure Drv where
  st : DrvSt
  cause : BitVec 2
  attachFail : Bool
  lateHb : Bool
  deriving DecidableEq, Repr

/-- A latch of R431: the address of the low word read with the high word it copied, or the low
word staged. -/
structure Latch where
  rd : Option (Nat × Word)
  wr : Option (Nat × Word)
  deriving DecidableEq, Repr

/-- A posted write in progress (R435): a register write that has yet to take effect, or the posted
part of a command with a row of its own. -/
inductive Posted where
  | write (core : CoreId) (addr : Nat) (value : Word) (low : Option Word)
  | taken
  deriving DecidableEq, Repr

/-- The register frames: frames whose lock is open (R433), latches keyed by frame base div 65,536
times 96 plus core, posted writes, WDROP and GUARD_VIOL keyed by frame base div 65,536. -/
structure Frames where
  lock : List Nat
  latches : Sparse Latch
  posted : Sparse Posted
  wdrop : List Nat
  gviol : List Nat
  deriving DecidableEq, Repr

/-- Messages that left a unit or the package, newest last. -/
inductive Sent where
  | coh (msg : CohMsg) (src dst : Nat) (line : Nat)
  | utp (k : UtpPkt)
  | srp (dst : BitVec 16) (phase : Nat) (m : SrpMsg)
  | block (port : Nat) (payload : List Byte) (poison : BitVec 32)
  | mgmt (r : Mgmt)
  deriving DecidableEq, Repr

/-- The Scriptorium of one half. -/
structure Srp where
  run : RunSt
  deriving DecidableEq, Repr

/-- The Scribe of one half: run state and, per priority, the queue served last (R173). -/
structure Scb where
  run : RunSt
  rr : Sparse Nat
  deriving DecidableEq, Repr

/-- The whole package, and the queue of commands that wait. Keys: Scribes, Scriptoria and Feeds by
half; queues and semaphores by number; completion queues 4,096h + number; Inkstones and quires
144h + q; Nibs 2,304h + 16q + n; DMA channels 64h + d; links 0 and 1 Ligature, 2 and 3 Vellum ends
of BL0 and BL1, 4 and 5 their Blotter ends; gauge sets kind * 2^28 + index (R62); regions, tags,
groups, contexts by number; early credits by context; routes 65,536h + destination, and in `routesSh` those written and not yet active; rings 8h + b; flow entries
4,096 * port + index; address filters by port; cores 48h + c; registers by address. `ecc` counts the symbols in error of
HBM's 16-byte codewords, by address / 16; `res` holds the Reservoirs' lines, true when dirty (R310), and `resEcc` the symbols in error of their words, by address / 16 (R305); `scrubPos` the stack
line that a stack's scrub reads next, by 6h + k (R309); `stale` keeps, of a line some of whose writes need not have
reached its home yet, what it held before each of them, oldest first, with the queue of that write (R182); `invals` the XLT_INVALIDATE commands that wait (R316). -/
structure State where
  pending : List Instr
  tick : BitVec 64
  free : Nat
  power : Power
  flash : Flash
  col : Colo
  drv : Drv
  frames : Frames
  regs : Sparse Word
  act : Sparse Word
  mem : Mem
  ecc : Sparse Nat
  res : Sparse Bool
  resEcc : Sparse Nat
  stale : Sparse (List (Nat × List Byte × Bool))
  scrubPos : Sparse Nat
  bias : List Nat
  xlt : List TlbEntry
  xltNodes : List TlbNode
  invals : List Nat
  cxl : List CxlSet
  cxlUp : List Nat
  cxlBytes : Sparse Nat
  scb : Sparse Scb
  queues : Sparse Queue
  cqs : Sparse Cq
  sems : Sparse Word
  outs : List OutCmd
  nextId : Nat
  reported : List Nat
  sigs : List Sig
  inks : Sparse Ink
  mcast : List McSet
  duct : List DuctMsg
  nibs : Sparse Nib
  qdma : Sparse (List QXfer)
  mail : List Mail
  dmas : Sparse Dma
  dmaTurn : Sparse Nat
  links : Sparse Link
  blt : RunSt
  upds : Sparse Upd
  updOrder : Nat
  pins : Sparse (Nat × Nat)
  bltWaits : List BltWait
  ruls : Sparse Rul
  badval : Bool
  probeDone : Bool
  srp : Sparse Srp
  tags : Sparse Tag
  srpEarly : Sparse Nat
  coh : Coh
  ports : Sparse Port
  ctxs : Sparse Ctx
  routes : Sparse Word
  routesSh : Sparse Word
  rings : Sparse Ring
  flows : Sparse Flow
  macUni : Sparse (List (BitVec 48))
  macHash : Sparse (BitVec 256)
  ethBad : Sparse Nat
  ethPause : Sparse Nat
  ethTag : Sparse (BitVec 16)
  feeds : Sparse Feed
  gauges : Sparse Gauge
  cores : Sparse Core
  sent : List Sent
  deriving DecidableEq, Repr

/-- No command of this block faults: every stop the manual names is an effect on the state. The one
constructor is raised by nobody. Safe. -/
inductive Fault where
  | none
  deriving DecidableEq, Repr

/-- Why a command is refused. -/
inductive Refusal where
  /-- Raised by `exec` alone, for a command without a meaning yet. Safe: it stops. -/
  | notModelled (mnemonic : String)
  deriving DecidableEq, Repr

/-- The values a Rubric's absent records take (R407), with package ID 0 and the port roles of R15. -/
def Rubric.default : Rubric where
  pkg := 0
  roles := (List.range 34).map fun i => if i < 28 then (if i = 12 ∨ i = 13 ∨ i = 26 ∨ i = 27 then 2 else 1) else 3
  macs := []
  cxl := []
  fences := []
  tThrottle := 100
  hyst := 5
  tAlert := 95
  powerLimit := 3000
  pools := [0, 0]
  ranks := []
  ip := none
  prefixLen := 8
  gateway := 0
  permit := false
  len := 0

/-- The state at the release of the Colophon's power-on reset (R443, R456): every register at its
reset value, memory zero, nothing booted. -/
def State.reset : State where
  pending := []
  tick := 0
  free := 0
  power := { input := true, step := 0, rails := [150, 151], off := false }
  flash := { recA := { cycles := 1
                       slots := [(0, .active), (1, .invalid), (2, .active), (3, .invalid), (4, .active), (5, .invalid)]
                       ip := none, gen := 1, good := true }
             recB := { cycles := 0, slots := [], ip := none, gen := 0, good := false }
             bytes := [], log := [], logHead := 0, svn := 0, fences := [] }
  col := { stage := 0, reselect := false, bootFailed := false, recovery := false, started := false
           bootedCol := 0, bootedScfw := 0, bootedRub := 0, rubric := Rubric.default, fences := []
           meas := [], hostHalf := none, service := 0
           upd := .idle, updCause := 0, updComp := 0, updImage := none, updOld := .invalid, updSvn := 0
           sensors := [], stepT := [], stepP := [], cool := [], ceil := [], ceilCool := [], ceilLow := 0
           powHist := [], powLow := 0, log := [], logNext := 0, logFlashed := 0, spdm := []
           lastReset := 0, featPend := false }
  drv := { st := .detached, cause := 0, attachFail := false, lateHb := false }
  frames := { lock := [], latches := [], posted := [], wdrop := [], gviol := [] }
  regs := []
  act := []
  mem := { cells := [], poison := [] }
  ecc := []
  res := []
  resEcc := []
  stale := []
  scrubPos := []
  bias := []
  xlt := []
  xltNodes := []
  invals := []
  cxl := []
  cxlUp := []
  cxlBytes := []
  scb := []
  queues := []
  cqs := []
  sems := []
  outs := []
  nextId := 0
  reported := []
  sigs := []
  inks := []
  mcast := []
  duct := []
  nibs := []
  qdma := []
  mail := []
  dmas := []
  dmaTurn := []
  links := []
  blt := .off
  upds := []
  updOrder := 0
  pins := []
  bltWaits := []
  ruls := []
  badval := false
  probeDone := false
  srp := []
  tags := []
  srpEarly := []
  coh := { running := false, down := false, cause := 0, downHome := 0, downAgent := 0, downAddr := 0, downTick := 0
           caches := [], filter := [], trans := [], resv := [], nacks := [], retryAt := [], pred := [], flips := []
           resvAt := [], evOut := [], asked := [], replies := [], badTags := [] }
  ports := []
  ctxs := []
  routes := []
  routesSh := []
  rings := []
  flows := []
  macUni := []
  macHash := []
  ethBad := []
  ethPause := []
  ethTag := []
  feeds := []
  gauges := []
  cores := []
  sent := []

end Sys2Proof.Machine
end

