-- ==== Sys2Proof/Machine/Bits.lean ====
section
/-! DEFINITION. Sparse tables, byte strings, bit fields and the check codes the manual names. -/

namespace Sys2Proof.Machine
open Sys2Proof

/-- The value at a key, or `d` where the key is not listed. -/
def sget {α : Type} (d : α) : Sparse α → Nat → α
  | [], _ => d
  | (k', v) :: t, k => if k' = k then v else sget d t k

/-- The table with `v` at key `k`, keys kept rising. -/
def sset {α : Type} : Sparse α → Nat → α → Sparse α
  | [], k, v => [(k, v)]
  | (k', v') :: t, k, v =>
    if k < k' then (k, v) :: (k', v') :: t
    else if k = k' then (k, v) :: t
    else (k', v') :: sset t k v

/-- The table without key `k`. -/
def sdel {α : Type} (m : Sparse α) (k : Nat) : Sparse α := m.filter fun p => p.1 ≠ k

/-- Whether a key is listed. -/
def shas {α : Type} (m : Sparse α) (k : Nat) : Bool := m.any fun p => p.1 = k

/-- Insert into a rising list of numbers without repeats. -/
def ninsert : List Nat → Nat → List Nat
  | [], k => [k]
  | k' :: t, k => if k < k' then k :: k' :: t else if k = k' then k' :: t else k' :: ninsert t k

/-- The `n` low bytes of `v`, least significant first (R6). -/
def leBytes : Nat → Nat → List Byte
  | 0, _ => []
  | n + 1, v => BitVec.ofNat 8 v :: leBytes n (v / 256)

/-- The number that bytes spell, least significant first (R6). -/
def leNat : List Byte → Nat
  | [] => 0
  | b :: t => b.toNat + 256 * leNat t

/-- The number in bytes `off` to `off + n - 1`, missing bytes zero. -/
def bget (b : List Byte) (off n : Nat) : Nat := leNat ((b.drop off).take n)

/-- `n` bytes from `off` on, missing bytes zero. -/
def bslice (b : List Byte) (off n : Nat) : List Byte :=
  let t := (b.drop off).take n
  t ++ List.replicate (n - t.length) 0

/-- Bits [hi:lo] of a number. -/
def fieldN (v hi lo : Nat) : Nat := v / 2 ^ lo % 2 ^ (hi + 1 - lo)

/-- Bits [hi:lo] of a word as a number. -/
def field {w : Nat} (v : BitVec w) (hi lo : Nat) : Nat := fieldN v.toNat hi lo

/-- Bit i of a word. -/
def bitAt {w : Nat} (v : BitVec w) (i : Nat) : Bool := v.getLsbD i

/-- A word with bits [hi:lo] replaced. -/
def setField {w : Nat} (v : BitVec w) (hi lo : Nat) (x : Nat) : BitVec w :=
  let mask : BitVec w := BitVec.ofNat w ((2 ^ (hi + 1 - lo) - 1) * 2 ^ lo)
  (v &&& ~~~mask) ||| (BitVec.ofNat w (x * 2 ^ lo) &&& mask)

/-- Whether every byte of a string is zero. -/
def allZero (b : List Byte) : Bool := b.all (· = 0)

/-- CRC-16 with polynomial 0x8BB7, initial value 0xFFFF, bytes most significant bit first (R16). -/
def crc16 (b : List Byte) : BitVec 16 :=
  b.foldl (fun acc x =>
    (List.range 8).foldl (fun r i =>
      let top := r.getLsbD 15 != x.getLsbD (7 - i)
      let r' := r <<< 1
      if top then r' ^^^ 0x8BB7#16 else r') acc) 0xFFFF#16

/-- CRC-32 with the IEEE 802.3 polynomial, initial value all ones and final inversion (R266, R346). -/
def crc32 (b : List Byte) : BitVec 32 :=
  ~~~ (b.foldl (fun acc x =>
    (List.range 8).foldl (fun r _ =>
      if r.getLsbD 0 then (r >>> 1) ^^^ 0xEDB88320#32 else r >>> 1) (acc ^^^ x.setWidth 32)) 0xFFFFFFFF#32)

/-- Replace element i of a list. -/
def lset {α : Type} (l : List α) (i : Nat) (v : α) : List α := l.set i v

/-- ceil(a / b). -/
def cdiv (a b : Nat) : Nat := (a + b - 1) / b

/-- The first place of a list, if any, whose element meets a test. -/
def findIdx? {α : Type} (p : α → Bool) : List α → Option Nat
  | [] => none
  | a :: t => if p a then some 0 else (findIdx? p t).map (· + 1)

/-- The list without element i. -/
def dropAt {α : Type} : List α → Nat → List α
  | [], _ => []
  | _ :: t, 0 => t
  | a :: t, i + 1 => a :: dropAt t i

/-- Write bytes at consecutive keys of a sparse byte store whose unlisted bytes read zero. -/
def bput (m : Sparse Byte) (a : Nat) : List Byte → Sparse Byte
  | [] => m
  | b :: t => bput (sset m a b) (a + 1) t

/-- Write bytes at consecutive keys in one piece. -/
def bputRange (m : Sparse Byte) (a : Nat) (b : List Byte) : Sparse Byte :=
  m.filter (fun p => p.1 < a) ++ ((b.zipIdx a).filter fun x => x.1 ≠ 0).map (fun x => (x.2, x.1)) ++
    m.filter (fun p => a + b.length ≤ p.1)

/-- The listed bytes of a range of keys, in order, unlisted ones zero. -/
def bgetRange (m : Sparse Byte) (a n : Nat) : List Byte :=
  let l := m.filter fun p => a ≤ p.1 && p.1 < a + n
  (l.foldl (fun (r : List Byte × Nat) p => (p.2 :: (List.replicate (p.1 - r.2) 0 ++ r.1), p.1 + 1)) ([], a) |>.1.reverse)
    |> fun t => t ++ List.replicate (n - t.length) 0

/-- `n` bytes from key `a` on. -/
def bgetS (m : Sparse Byte) (a n : Nat) : List Byte := (List.range n).map fun i => sget 0 m (a + i)

end Sys2Proof.Machine
end

