-- ==== Sys2Proof/Machine/Num.lean ====
section
/-! DEFINITION. Number formats, exact arithmetic and rounding (02): values are exact dyadic numbers,
infinities or NaN; every conversion rounds once, from the exact source. -/

namespace Sys2Proof.Machine
open Sys2Proof

/-- A value: NaN, ±Inf, or ± m × 2^e exactly. -/
inductive FNum where
  | nan
  | inf (neg : Bool)
  | fin (neg : Bool) (m : Nat) (e : Int)
  deriving DecidableEq, Repr

/-- Which encodings with all exponent bits set are special (R35): infinity and NaN, only the
all-ones NaN of E4M3, or none. -/
inductive Special where
  | ieee | nanOnly | none
  deriving DecidableEq, Repr

/-- A floating-point layout (R35). -/
structure FFmt where
  eb : Nat
  mb : Nat
  bias : Int
  sp : Special
  deriving DecidableEq, Repr

def fmtFP64 : FFmt := ⟨11, 52, 1023, .ieee⟩
def fmtFP32 : FFmt := ⟨8, 23, 127, .ieee⟩
def fmtBF16 : FFmt := ⟨8, 7, 127, .ieee⟩
def fmtFP16 : FFmt := ⟨5, 10, 15, .ieee⟩
def fmtE4M3 : FFmt := ⟨4, 3, 7, .nanOnly⟩
def fmtE5M2 : FFmt := ⟨5, 2, 15, .ieee⟩
def fmtE3M2 : FFmt := ⟨3, 2, 3, .none⟩
def fmtE2M3 : FFmt := ⟨2, 3, 1, .none⟩
def fmtE2M1 : FFmt := ⟨2, 1, 1, .none⟩

/-- Bits of an element, the sign included. -/
def FFmt.width (f : FFmt) : Nat := 1 + f.eb + f.mb

/-- The exponent of the subnormal spacing. -/
def FFmt.tmin (f : FFmt) : Int := 1 - f.bias - f.mb

/-- The largest finite magnitude's encoding. -/
def FFmt.maxBits (f : FFmt) : Nat :=
  match f.sp with
  | .ieee => (2 ^ f.eb - 1) * 2 ^ f.mb - 1
  | .nanOnly => 2 ^ (f.eb + f.mb) - 2
  | .none => 2 ^ (f.eb + f.mb) - 1

/-- The canonical NaN of a format that has one (R36). -/
def FFmt.nanBits (f : FFmt) : Nat :=
  match f.sp with
  | .ieee => (2 ^ f.eb - 1) * 2 ^ f.mb + 2 ^ (f.mb - 1)
  | .nanOnly => 2 ^ (f.eb + f.mb) - 1
  | .none => 0

/-- The encoding of +Inf of a format that has one. -/
def FFmt.infBits (f : FFmt) : Nat := (2 ^ f.eb - 1) * 2 ^ f.mb

/-- The sign bit in place. -/
def FFmt.sign (f : FFmt) (neg : Bool) : Nat := if neg then 2 ^ (f.eb + f.mb) else 0

/-- The value of an encoding (R35, R36). -/
def FFmt.decode (f : FFmt) (bits : Nat) : FNum :=
  let neg := bits / 2 ^ (f.eb + f.mb) % 2 = 1
  let ex := bits / 2 ^ f.mb % 2 ^ f.eb
  let ma := bits % 2 ^ f.mb
  let mag : FNum :=
    if ex = 0 then .fin neg ma f.tmin
    else .fin neg (2 ^ f.mb + ma) (f.tmin + (ex - 1 : Nat))
  match f.sp with
  | .ieee => if ex = 2 ^ f.eb - 1 then (if ma = 0 then .inf neg else .nan) else mag
  | .nanOnly => if ex = 2 ^ f.eb - 1 ∧ ma = 2 ^ f.mb - 1 then .nan else mag
  | .none => mag

/-- Rounding modes: those of R41, and the two more of the RISC-V scalar FPU (R122). -/
inductive Rnd where
  | rne | rtz | sr | rdn | rup | rmm
  deriving DecidableEq, Repr

/-- The mode of a 2-bit field (R41), 3 taken as 0 where a rule says so (R146). -/
def Rnd.ofField (n : Nat) : Rnd := if n = 1 then .rtz else if n = 2 then .sr else .rne

/-- m × 2^e in units of 2^t, rounded on the magnitude (R41 to R43); `n` is the Sand output. -/
def roundAt (mode : Rnd) (n : Nat) (neg : Bool) (m : Nat) (e t : Int) : Nat :=
  if t ≤ e then m * 2 ^ (e - t).toNat
  else
    let d := (t - e).toNat
    let q := m / 2 ^ d
    let r := m % 2 ^ d
    let up : Bool :=
      match mode with
      | .rne => decide (2 ^ d < 2 * r) || (decide (2 * r = 2 ^ d) && decide (q % 2 = 1))
      | .rtz => false
      | .sr => decide (2 ^ 32 ≤ r * 2 ^ 32 / 2 ^ d + n)
      | .rdn => neg && decide (r ≠ 0)
      | .rup => !neg && decide (r ≠ 0)
      | .rmm => decide (2 ^ d ≤ 2 * r)
    if up then q + 1 else q

/-- The exponent of the leading one of m × 2^e, m nonzero. -/
def leadExp (m : Nat) (e : Int) : Int := e + (Nat.log2 m : Int)

/-- The result of a conversion, with the gauge conditions of R59. -/
structure Conv where
  bits : Nat
  ovf : Bool
  zeroed : Bool
  subn : Bool
  nan : Bool
  deriving DecidableEq, Repr

/-- The magnitude's encoding with no upper limit on the exponent (R45). -/
def FFmt.roundMag (f : FFmt) (mode : Rnd) (n : Nat) (neg : Bool) (m : Nat) (e : Int) : Nat :=
  if m = 0 then 0
  else
    let t := max (leadExp m e - f.mb) f.tmin
    (t - f.tmin).toNat * 2 ^ f.mb + roundAt mode n neg m e t

/-- Whether range mode `rng` saturates for a target (R44). -/
def FFmt.saturates (f : FFmt) (rng : Nat) : Bool :=
  match f.sp with
  | .none => true
  | .nanOnly => rng ≠ 2
  | .ieee => rng = 1

/-- The result for a source out of range or infinite (R46, R47): `rtz` keeps the largest finite
value for a finite source. -/
def FFmt.outOfRange (f : FFmt) (rng : Nat) (keepMax neg : Bool) : Nat × Bool :=
  if f.saturates rng then (f.sign neg + f.maxBits, false)
  else match f.sp with
    | .ieee => if keepMax then (f.sign neg + f.maxBits, false) else (f.sign neg + f.infBits, false)
    | _ => (f.nanBits, true)

/-- Conversion to a floating-point element (R41 to R47). Under RDN and RUP, which only the scalar
FPU has, an overflow toward zero keeps the largest finite value. -/
def FFmt.conv (f : FFmt) (mode : Rnd) (rng : Nat) (n : Nat) : FNum → Conv
  | .nan => ⟨f.nanBits, false, false, false, true⟩
  | .inf neg =>
    let r := f.outOfRange rng false neg
    ⟨r.1, f.sp ≠ .ieee, false, false, r.2⟩
  | .fin neg m e =>
    let b := f.roundMag mode n neg m e
    if f.maxBits < b then
      let keep := mode = .rtz || (mode = .rdn && !neg) || (mode = .rup && neg)
      let r := f.outOfRange rng keep neg
      ⟨r.1, true, false, false, r.2⟩
    else ⟨f.sign neg + b, false, m ≠ 0 && b = 0, b ≠ 0 && b < 2 ^ f.mb, false⟩

/-- Conversion to a two's-complement integer of `w` bits (R45 to R47, R50). -/
def convInt (w : Nat) (mode : Rnd) (n : Nat) : FNum → Conv
  | .nan => ⟨0, false, false, false, false⟩
  | .inf neg => ⟨if neg then 2 ^ (w - 1) else 2 ^ (w - 1) - 1, true, false, false, false⟩
  | .fin neg m e =>
    let q := roundAt mode n neg m e 0
    if neg then
      if 2 ^ (w - 1) < q then ⟨2 ^ (w - 1), true, false, false, false⟩
      else ⟨(2 ^ w - q) % 2 ^ w, false, m ≠ 0 && q = 0, false, false⟩
    else if 2 ^ (w - 1) ≤ q then ⟨2 ^ (w - 1) - 1, true, false, false, false⟩
    else ⟨q, false, m ≠ 0 && q = 0, false, false⟩

/-- The value of an integer. -/
def FNum.ofInt (i : Int) : FNum := .fin (i < 0) i.natAbs 0

/-- The value of a two's-complement encoding of `w` bits (R40). -/
def intOfBits (w bits : Nat) : Int := if bits < 2 ^ (w - 1) then bits else (bits : Int) - 2 ^ w

/-- The element width in bits of a format code (R34); the scale of an MX block is apart. -/
def fmtBits (code : Nat) : Nat :=
  if code = 0x0 ∨ code = 0xB then 32
  else if code = 0x1 ∨ code = 0x2 then 16
  else if code = 0x7 ∨ code = 0x8 then 6
  else if code = 0x9 then 4
  else 8

/-- Whether a code is a block-scaled format (R34). -/
def fmtMx (code : Nat) : Bool := 5 ≤ code && code ≤ 9

/-- The floating-point layout of a code's elements; codes without one give FP32's. -/
def fmtLayout (code : Nat) : FFmt :=
  match code with
  | 0 => fmtFP32 | 1 => fmtBF16 | 2 => fmtFP16 | 3 => fmtE4M3 | 4 => fmtE5M2
  | 5 => fmtE4M3 | 6 => fmtE5M2 | 7 => fmtE2M3 | 8 => fmtE3M2 | 9 => fmtE2M1
  | _ => fmtFP32

/-- The exact value of an element of a format code, unscaled (R35, R37, R40). -/
def fmtValue (code bits : Nat) : FNum :=
  if code = 0xA then .ofInt (intOfBits 8 bits)
  else if code = 0xB then .ofInt (intOfBits 32 bits)
  else (fmtLayout code).decode bits

/-- A value times 2^s. -/
def FNum.scale (s : Int) : FNum → FNum
  | .fin neg m e => .fin neg m (e + s)
  | x => x

/-- The value of element bits under scale byte `sc` (R37). -/
def mxValue (code bits sc : Nat) : FNum :=
  if sc = 255 then .nan else (fmtValue code bits).scale ((sc : Int) - 127)

/-- One conversion to a non-MX code (R41 to R50). -/
def fmtConv (code : Nat) (mode : Rnd) (rng n : Nat) (x : FNum) : Conv :=
  if code = 0xA then convInt 8 mode n x
  else if code = 0xB then convInt 32 mode n x
  else (fmtLayout code).conv mode rng n x

/-! ### Exact arithmetic -/

/-- Negation. -/
def FNum.neg : FNum → FNum
  | .nan => .nan
  | .inf s => .inf !s
  | .fin s m e => .fin (!s) m e

/-- The sign of a non-NaN value. -/
def FNum.sgn : FNum → Bool
  | .nan => false
  | .inf s => s
  | .fin s _ _ => s

/-- Whether a value is a zero. -/
def FNum.isZero : FNum → Bool
  | .fin _ 0 _ => true
  | _ => false

/-- A finite value as an integer multiple of 2^t, t at most its exponent. -/
def finInt (neg : Bool) (m : Nat) (e t : Int) : Int :=
  let v : Int := m * 2 ^ (e - t).toNat
  if neg then -v else v

/-- Exact sum; `zneg` is the sign of an exact zero formed from terms of both signs. -/
def FNum.add (zneg : Bool) : FNum → FNum → FNum
  | .nan, _ | _, .nan => .nan
  | .inf s, .inf t => if s = t then .inf s else .nan
  | .inf s, _ => .inf s
  | _, .inf t => .inf t
  | .fin s m e, .fin t k d =>
    if m = 0 ∧ k = 0 then .fin (if s = t then s else zneg) 0 0
    else
      let lo := min e d
      let v := finInt s m e lo + finInt t k d lo
      if v = 0 then .fin zneg 0 0 else .fin (v < 0) v.natAbs lo

/-- Exact product. -/
def FNum.mul : FNum → FNum → FNum
  | .nan, _ | _, .nan => .nan
  | .inf s, y => if y.isZero then .nan else .inf (s != y.sgn)
  | x, .inf t => if x.isZero then .nan else .inf (x.sgn != t)
  | .fin s m e, .fin t k d => .fin (s != t) (m * k) (e + d)

/-- Quotient to `p` bits beyond the leading one, with a sticky last bit. -/
def FNum.div (p : Nat) : FNum → FNum → FNum
  | .nan, _ | _, .nan => .nan
  | .inf s, y => match y with | .inf _ => .nan | _ => .inf (s != y.sgn)
  | .fin s _ _, .inf t => .fin (s != t) 0 0
  | .fin s m e, .fin t k d =>
    if k = 0 then (if m = 0 then .nan else .inf (s != t))
    else
      let sh := p + Nat.log2 k + 1
      let q := m * 2 ^ sh / k
      let st := if m * 2 ^ sh % k = 0 then 0 else 1
      .fin (s != t) (2 * q + st) (e - d - sh - 1)

/-- floor of the square root, by bits from 2^i down. -/
def isqrtBits (x : Nat) : Nat → Nat → Nat
  | 0, r => if (r + 1) * (r + 1) ≤ x then r + 1 else r
  | i + 1, r =>
    let c := r + 2 ^ (i + 1)
    isqrtBits x i (if c * c ≤ x then c else r)

/-- floor of the square root. -/
def isqrt (x : Nat) : Nat := isqrtBits x (Nat.log2 x / 2 + 1) 0

/-- Square root to `p` bits, with a sticky last bit. -/
def FNum.sqrt (p : Nat) : FNum → FNum
  | .nan => .nan
  | .inf s => if s then .nan else .inf false
  | .fin s m e =>
    if m = 0 then .fin s 0 0
    else if s then .nan
    else
      let odd := e % 2 ≠ 0
      let m' := (if odd then 2 * m else m) * 2 ^ (2 * p)
      let e' := (if odd then e - 1 else e) / 2 - p
      let r := isqrt m'
      let st := if r * r = m' then 0 else 1
      .fin false (2 * r + st) (e' - 1)

/-- a × b + c exactly. -/
def FNum.fma (zneg : Bool) (a b c : FNum) : FNum := (a.mul b).add zneg c

/-- Ordering of non-NaN values: a < b, zeros equal. -/
def FNum.lt : FNum → FNum → Bool
  | .nan, _ | _, .nan => false
  | .inf s, .inf t => s && !t
  | .inf s, _ => s
  | _, .inf t => !t
  | .fin s m e, .fin t k d => let lo := min e d; decide (finInt s m e lo < finInt t k d lo)

/-- Equality of non-NaN values, zeros equal. -/
def FNum.eq : FNum → FNum → Bool
  | .nan, _ | _, .nan => false
  | .inf s, .inf t => s = t
  | .inf _, _ | _, .inf _ => false
  | .fin s m e, .fin t k d => let lo := min e d; decide (finInt s m e lo = finInt t k d lo)

/-! ### IEEE binary32 and binary64 under RNE (R241, R242, R255) -/

/-- Round to binary32 under RNE. -/
def rnd32 (x : FNum) : Nat := (fmtFP32.conv .rne 2 0 x).bits
def val32 (b : Nat) : FNum := fmtFP32.decode b
def add32 (a b : Nat) : Nat := rnd32 ((val32 a).add false (val32 b))
def sub32 (a b : Nat) : Nat := rnd32 ((val32 a).add false (val32 b).neg)
def mul32 (a b : Nat) : Nat := rnd32 ((val32 a).mul (val32 b))
def div32 (a b : Nat) : Nat := rnd32 ((val32 a).div 80 (val32 b))
def sqrt32 (a : Nat) : Nat := rnd32 ((val32 a).sqrt 80)
def fma32 (a b c : Nat) : Nat := rnd32 (FNum.fma false (val32 a) (val32 b) (val32 c))
def neg32 (a : Nat) : Nat := if a < 2 ^ 31 then a + 2 ^ 31 else a - 2 ^ 31

/-- Round to binary64 under RNE. -/
def rnd64 (x : FNum) : Nat := (fmtFP64.conv .rne 2 0 x).bits
def val64 (b : Nat) : FNum := fmtFP64.decode b
def add64 (a b : Nat) : Nat := rnd64 ((val64 a).add false (val64 b))
def sub64 (a b : Nat) : Nat := rnd64 ((val64 a).add false (val64 b).neg)
def mul64 (a b : Nat) : Nat := rnd64 ((val64 a).mul (val64 b))
def div64 (a b : Nat) : Nat := rnd64 ((val64 a).div 120 (val64 b))
def sqrt64 (a : Nat) : Nat := rnd64 ((val64 a).sqrt 120)
def max64 (a b : Nat) : Nat := if (val64 a).lt (val64 b) then b else a
def one64 : Nat := 0x3FF0000000000000
def ofNat64 (n : Nat) : Nat := rnd64 (.fin false n 0)

/-- pow_bin of R242, by the bits of n from the lowest; `fuel` bounds the 48 bits. -/
def powBinGo : Nat → Nat → Nat → Nat → Nat
  | 0, _, r, _ => r
  | fuel + 1, s, r, n =>
    if n = 0 then r
    else
      let r' := if n % 2 = 1 then mul64 r s else r
      let n' := n / 2
      powBinGo fuel (if 0 < n' then mul64 s s else s) r' n'

/-- β^t as R242 computes it. -/
def powBin (b n : Nat) : Nat := powBinGo 64 b one64 n

/-- π × 2^300, truncated. -/
def pi300 : Nat :=
  0x3243f6a8885a308d313198a2e03707344a4093822299f31d0082efa98ec4e6c89452821e638d

/-- The Taylor sum of cos in units of 2^-300: `term` is x^(2i) / (2i)!, `x2` is x². -/
def cosGo (x2 : Nat) : Nat → Nat → Nat → Int → Int
  | 0, _, _, acc => acc
  | fuel + 1, i, term, acc =>
    let acc' := if i % 2 = 0 then acc + term else acc - term
    cosGo x2 fuel (i + 1) (term * x2 / 2 ^ 300 / ((2 * i + 1) * (2 * i + 2))) acc'

/-- cos(π × p) correctly rounded to binary64, for p from 0 to 1 (R255). Its value is irrational but
for p = 0, 1/2 and 1, so 250 correct bits decide the rounding (DEDUCED, log entry 20). -/
def cospi (p : Nat) : Nat :=
  match val64 p with
  | .fin _ m e =>
    let x := if e < 0 then pi300 * m / 2 ^ e.natAbs else pi300 * m * 2 ^ e.natAbs
    if m = 0 then one64
    else if (val64 p).eq (.fin false 1 (-1)) then 0
    else
      let v := cosGo (x * x / 2 ^ 300) 60 0 (2 ^ 300) 0
      rnd64 (.fin (v < 0) v.natAbs (-300))
  | _ => fmtFP64.nanBits

/-! ### Sand (R54 to R57) -/

/-- The Sand function of R55. -/
def sand (seed : BitVec 64) (stream : BitVec 8) (counter : BitVec 64) : BitVec 32 :=
  let k0 : BitVec 32 := seed.extractLsb' 0 32
  let k1 : BitVec 32 := seed.extractLsb' 32 32
  let x : BitVec 32 := counter.extractLsb' 0 32 ^^^ k0
  let x := x * 0x9A4B3C6D#32
  let x := x ^^^ (x >>> 16)
  let x := x ^^^ counter.extractLsb' 32 32 ^^^ k1
  let x := x * 0xB52E7A93#32
  let x := x ^^^ (x >>> 15)
  let x := x ^^^ (stream.setWidth 32 * 0x01010101#32)
  let x := x * 0x9A4B3C6D#32
  let x := x ^^^ (x >>> 13)
  let x := x ^^^ k0 ^^^ k1
  let x := x * 0xB52E7A93#32
  x ^^^ (x >>> 16)

/-! ### Block-scaled conversion (R49) -/

/-- The largest exponent of an MX element format (R49). -/
def mxEmax (code : Nat) : Int :=
  match code with
  | 5 => 8 | 6 => 15 | 8 => 4 | _ => 2

/-- The larger leading exponent of the nonzero magnitudes, if any is nonzero. -/
def mxLead (acc : Option Int) : FNum → Option Int
  | .fin _ m e =>
    if m = 0 then acc
    else some (match acc with | none => leadExp m e | some a => max a (leadExp m e))
  | _ => acc

/-- Whether a value is finite. -/
def FNum.isFin : FNum → Bool
  | .fin _ _ _ => true
  | _ => false

/-- A block of 32 elements to an MX format: scale byte and conversions, `n i` the Sand output of
element i of the block (R49). An element of a NaN block counts in NAN_OUT, and one with an infinite
source also in OVERFLOW (R59). -/
def mxBlock (code : Nat) (mode : Rnd) (n : Nat → Nat) (xs : List FNum) : Nat × List Conv :=
  if xs.all FNum.isFin then
    match xs.foldl mxLead none with
    | none => (0, xs.map fun x => ⟨(fmtLayout code).sign x.sgn, false, false, false, false⟩)
    | some a =>
      let e := max (-127) (min 127 (a - mxEmax code))
      ((e + 127).toNat,
        xs.mapIdx fun i x => (fmtLayout code).conv mode 1 (n i) (x.scale (-e)))
  else (255, xs.map fun x => ⟨0, (match x with | .inf _ => true | _ => false), false, false, true⟩)

end Sys2Proof.Machine
end

