-- ==== Sys2Proof/Machine/Flags.lean ====
section
/-! DEFINITION. The sticky flags of a Well (R69), the gauge counters (R59, R60), and the status codes
with their order (R193, R194). -/

namespace Sys2Proof.Machine
open Sys2Proof

/-! ### Well flags (R69) -/

def flNan : Nat := 0
def flPinf : Nat := 1
def flNinf : Nat := 2
def flOvf : Nat := 3
def flOvfNeg : Nat := 4
def flTrunc : Nat := 5
def flPoison : Nat := 6
def flCntSat : Nat := 7

/-- Whether flag `i` is set. -/
def Well.flag (w : Well) (i : Nat) : Bool := w.flags.getLsbD i

/-- Set flag `i` (R70: flags only gather). -/
def Well.setFlag (w : Well) (i : Nat) : Well := { w with flags := w.flags ||| (1#32 <<< i) }

/-- The state of a zero initialisation (R81). -/
def wellZero : Well := ⟨0, 0, 0⟩

/-! ### Gauges -/

/-- An empty gauge set. -/
def gaugeZero : Gauge := ⟨0, 0, 0, 0, 0, 0⟩

/-- The ceiling of a gauge counter (R60). -/
def gaugeMax : Nat := 0xFFFFFFFFFFFF

/-- One more, held at the ceiling (R60). -/
def gaugeInc (n : Nat) : Nat := if gaugeMax ≤ n + 1 then gaugeMax else n + 1

/-- The counters `c` (CONVERTED first) one higher, with the SAT bits of those that reach the ceiling
(R60). -/
def Gauge.bump (g : Gauge) (conv ovf zer sub nan : Bool) : Gauge :=
  let f (c : Bool) (n : Nat) : Nat := if c then gaugeInc n else n
  let s (c : Bool) (n i : Nat) : BitVec 5 := if c && f c n = gaugeMax then 1#5 <<< i else 0
  { converted := f conv g.converted
    overflow := f ovf g.overflow
    zeroed := f zer g.zeroed
    subnormal := f sub g.subnormal
    nanOut := f nan g.nanOut
    sat := g.sat ||| s conv g.converted 0 ||| s ovf g.overflow 1 ||| s zer g.zeroed 2
      ||| s sub g.subnormal 3 ||| s nan g.nanOut 4 }

/-- Count one converted value (R59). -/
def Gauge.count (g : Gauge) (c : Conv) : Gauge := g.bump true c.ovf c.zeroed c.subn c.nan

/-- Count a list of converted values. -/
def Gauge.countAll (g : Gauge) (l : List Conv) : Gauge := l.foldl Gauge.count g

/-! ### Status codes (R193) -/

def stOk : BitVec 8 := 0x00
def stDataPoison : BitVec 8 := 0x01
def stTranslation : BitVec 8 := 0x02
def stBus : BitVec 8 := 0x03
def stClipped : BitVec 8 := 0x04
def stFrozen : BitVec 8 := 0x05
def stStepMismatch : BitVec 8 := 0x06
def stHeldTimeout : BitVec 8 := 0x07
def stLate : BitVec 8 := 0x08
def stStale : BitVec 8 := 0x09
def stImplausible : BitVec 8 := 0x0A
def stOutCap : BitVec 8 := 0x0B
def stPeerAbandoned : BitVec 8 := 0x0C
def stDriverLost : BitVec 8 := 0x0D
def stWellOverflow : BitVec 8 := 0x0E
def stFenced : BitVec 8 := 0x0F
def stDomainDown : BitVec 8 := 0x10
def stMalformed : BitVec 8 := 0x11
def stDecodeError : BitVec 8 := 0x12

/-- Whether a code is Error class (R193, R194). -/
def statusIsError (c : BitVec 8) : Bool :=
  c = 0x01 || c = 0x02 || c = 0x03 || c = 0x06 || c = 0x07 || (0x0C ≤ c.toNat && c.toNat ≤ 0x11)

/-- The place of a code in the order of R194, lowest reported first; the codes of other chapters
come after WELL_OVERFLOW, and OK last. -/
def statusRank (c : BitVec 8) : Nat :=
  if c = stMalformed then 0 else if c = stFenced then 1 else if c = stDriverLost then 2
  else if c = stDomainDown then 3 else if c = stPeerAbandoned then 4 else if c = stTranslation then 5
  else if c = stBus then 6 else if c = stDataPoison then 7 else if c = stWellOverflow then 8
  else if c = stOk then 99 else 9

/-- The first of two codes under R194, the earlier kept on a tie. -/
def statusMin (a b : BitVec 8) : BitVec 8 := if statusRank b < statusRank a then b else a

/-- The first of the codes under R194, OK when there is none. -/
def statusFirst (l : List (BitVec 8)) : BitVec 8 := l.foldl statusMin stOk

end Sys2Proof.Machine
end

