-- ==== Sys2Proof/Machine/Operands.lean ====
section
/-! DEFINITION. How elements stand in bytes (R6, R38), and the values an element of each format
gives: the operand forms of tile operations, Brush instructions, buckets and regions. -/

namespace Sys2Proof.Machine
open Sys2Proof

/-- `w` bits from bit `pos` of a little-endian byte string on; `w` at most 32. -/
def bitsAt (b : List Byte) (pos w : Nat) : Nat := bget b (pos / 8) 5 / 2 ^ (pos % 8) % 2 ^ w

/-- Element `i` of a plane of format `code` (R38: 6-bit and 4-bit elements pack little-endian). -/
def elemAt (code : Nat) (b : List Byte) (i : Nat) : Nat := bitsAt b (i * fmtBits code) (fmtBits code)

/-- The number whose base-2^w digits are given, least significant first. -/
def digitsNat (w : Nat) : List Nat → Nat
  | [] => 0
  | a :: t => a % 2 ^ w + 2 ^ w * digitsNat w t

/-- Elements of `w` bits packed little-endian, in groups of eight. -/
def packBits (w : Nat) : List Nat → List Byte
  | a :: b :: c :: d :: e :: f :: g :: h :: t =>
    leBytes w (digitsNat w [a, b, c, d, e, f, g, h]) ++ packBits w t
  | l => leBytes (cdiv (w * l.length) 8) (digitsNat w l)

/-- Bytes of `n` elements of a format. -/
def planeBytes (code n : Nat) : Nat := cdiv (fmtBits code * n) 8

/-- An operand: a value, or an element read from poison (R67). -/
inductive Opnd where
  | pois
  | val (x : FNum)
  deriving DecidableEq, Repr

/-- The value of bits of a format under a scale byte, which only MX formats use. -/
def elemValue (code bits sc : Nat) : FNum := if fmtMx code then mxValue code bits sc else fmtValue code bits

end Sys2Proof.Machine
end

