-- ==== Sys2Proof/Machine/Well.lean ====
section
/-! DEFINITION. Wells: what enters one, what leaves it, and its raw form (R63 to R82). -/

namespace Sys2Proof.Machine
open Sys2Proof

/-- The term count raised, saturating (R68). -/
def Well.addCnt (w : Well) (n : Nat) : Well :=
  if 2 ^ 64 - 1 ≤ w.cnt.toNat + n then ({ w with cnt := BitVec.ofNat 64 (2 ^ 64 - 1) }).setFlag flCntSat
  else { w with cnt := BitVec.ofNat 64 (w.cnt.toNat + n) }

/-- Whether an exact value-field sum leaves the range of R63. -/
def wellOut (v : Int) : Bool := v < -(2 ^ 639) || 2 ^ 639 ≤ v

/-- Add an integer multiple of 2^-272: the value field takes the sum modulo 2^640, and OVF with
OVF_NEG record the first time the range is left (R69, R70). -/
def Well.addInt (w : Well) (v : Int) : Well :=
  let x := w.val.toInt + v
  let w' := { w with val := BitVec.ofInt 640 x }
  if wellOut x && !w.flag flOvf then
    let w'' := w'.setFlag flOvf
    if x < 0 then w''.setFlag flOvfNeg else w''
  else w'

/-- A finite product ± m × 2^e: bits below 2^-272 are cut and set TRUNC (R39, R51). -/
def Well.addFin (w : Well) (neg : Bool) (m : Nat) (e : Int) : Well :=
  if -272 ≤ e then
    let q : Int := m * 2 ^ (e + 272).toNat
    w.addInt (if neg then -q else q)
  else
    let d := (-272 - e).toNat
    let q : Int := (m / 2 ^ d : Nat)
    let w' := if m % 2 ^ d = 0 then w else w.setFlag flTrunc
    w'.addInt (if neg then -q else q)

/-- One product (R65 to R68). -/
def Well.addProduct (w : Well) (a b : Opnd) : Well :=
  let w' :=
    match a, b with
    | .pois, _ | _, .pois => w.setFlag flPoison
    | .val x, .val y =>
      match x.mul y with
      | .nan => w.setFlag flNan
      | .inf neg => w.setFlag (if neg then flNinf else flPinf)
      | .fin neg m e => w.addFin neg m e
  w'.addCnt 1

/-- A merge of an incoming Well (R68 to R70, R85). -/
def Well.merge (w inc : Well) : Well :=
  let had := w.flag flOvf
  let inOvf := inc.flag flOvf
  let plain := inc.flags &&& 0xE7#32
  let w1 : Well :=
    if inOvf then { w with val := w.val + inc.val }
    else w.addInt inc.val.toInt
  let w2 : Well := { w1 with flags := w1.flags ||| plain }
  let w3 : Well :=
    if inOvf && !had then
      let x := w2.setFlag flOvf
      if inc.flag flOvfNeg then x.setFlag flOvfNeg else x
    else w2
  w3.addCnt inc.cnt.toNat

/-- The exact value of the value field. An exact zero is +0 (R42). -/
def Well.num (w : Well) : FNum :=
  let v := w.val.toInt
  .fin (v < 0) v.natAbs (-272)

/-- A preload of a value or a poisoned element from a rounded tile (R80). -/
def wellPreload : Opnd → Well
  | .pois => { wellZero with flags := 0x40, cnt := 1 }
  | .val .nan => { wellZero with flags := 0x01, cnt := 1 }
  | .val (.inf neg) => { wellZero with flags := if neg then 0x04 else 0x02, cnt := 1 }
  | .val (.fin neg m e) => { wellZero.addFin neg m e with cnt := 1 }

/-- The 96 bytes of a raw Well element (R77, R79). -/
def Well.raw (w : Well) : List Byte :=
  leBytes 80 w.val.toNat ++ leBytes 4 (w.flags.toNat % 256) ++ leBytes 8 w.cnt.toNat ++ leBytes 4 0

/-- The Well that 96 raw bytes restore, `pois` when any lies in poison (R80). -/
def wellOfRaw (b : List Byte) (pois : Bool) : Well :=
  if pois then { wellZero with flags := 0x40, cnt := 1 }
  else { val := BitVec.ofNat 640 (bget b 0 80)
         flags := BitVec.ofNat 32 (bget b 80 1)
         cnt := BitVec.ofNat 64 (bget b 84 8) }

/-- A rounded readout of one element (R72) and what its gauge counts (R59): whether the element
writes its line poisoned, and the conversion. -/
def Well.readout (w : Well) (code : Nat) (mode : Rnd) (rng n : Nat) : Bool × Conv :=
  let src : FNum :=
    if w.flag flPoison then .nan
    else if w.flag flNan || (w.flag flPinf && w.flag flNinf) then .nan
    else if w.flag flPinf then .inf false
    else if w.flag flNinf then .inf true
    else if w.flag flOvf then .fin (w.flag flOvfNeg) 1 400
    else w.num
  let c := fmtConv code mode rng n src
  (w.flag flPoison, { c with ovf := c.ovf || w.flag flOvf })

end Sys2Proof.Machine
end

