-- ==== Sys2Proof/Machine/Regs.lean ====
section
/-! DEFINITION. The register map (R438), the fields software may write and the sticky fields, with
their reset values, and plain access to the stored words. Status that follows from a unit's state is
computed in RegRead.lean; what a write does is in Registers.lean. -/

namespace Sys2Proof.Machine
open Sys2Proof

/-- A 64 KiB register frame (R438). -/
inductive Frame where
  | id | col | blt | rul | memB | cohB | lfpB
  | scb (h : Half) | dma (h : Half) | srp (h : Half) | fed (h : Half) | lig (h : Half) | lfp (h : Half)
  | utp (h : Half) | mem (h : Half) | coh (h : Half) | xlt (h : Half)
  | ink (h : Half) (q : Fin 144)
  | nib (h : Half) (q : Fin 144)
  deriving DecidableEq, Repr

/-- The base of register space (R301). -/
def regSpace : Nat := 0xF00000000000

/-- The base of a Vellum's k-th frame. -/
def vellumBase (h : Half) (k : Nat) : Nat := 0xF00001000000 + 0x100000 * h.val + 0x10000 * k

/-- Where a frame lies (R438). -/
def Frame.base : Frame → Nat
  | .id => 0xF00000000000
  | .col => 0xF00000010000
  | .blt => 0xF00000020000
  | .rul => 0xF00000030000
  | .memB => 0xF00000040000
  | .cohB => 0xF00000050000
  | .lfpB => 0xF00000060000
  | .scb h => vellumBase h 0
  | .dma h => vellumBase h 1
  | .srp h => vellumBase h 2
  | .fed h => vellumBase h 3
  | .lig h => vellumBase h 4
  | .lfp h => vellumBase h 5
  | .utp h => vellumBase h 6
  | .mem h => vellumBase h 7
  | .coh h => vellumBase h 8
  | .xlt h => vellumBase h 9
  | .ink h q => 0xF00010000000 + 0x1000000 * h.val + 0x10000 * q.val
  | .nib h q => 0xF00020000000 + 0x1000000 * h.val + 0x10000 * q.val

/-- The half with number 0 or 1, other numbers half 0. -/
def halfOf (n : Nat) : Half := if n % 2 = 1 then 1 else 0

/-- The half of bit 40 of an HBM address, and of a queue number (R169, R301). -/
def queueHalf (q : Nat) : Half := if q < 2048 then 0 else 1

/-- The quire column, wrapped into range (callers check the range first). -/
def quireFin (n : Nat) : Fin 144 := ⟨n % 144, Nat.mod_lt _ (by decide)⟩

/-- The frame that holds an address of register space, if one does (R438). -/
def frameAt (addr : Nat) : Option Frame :=
  let p := addr / 0x10000
  if p = 0xF0000000 then some .id
  else if p = 0xF0000001 then some .col
  else if p = 0xF0000002 then some .blt
  else if p = 0xF0000003 then some .rul
  else if p = 0xF0000004 then some .memB
  else if p = 0xF0000005 then some .cohB
  else if p = 0xF0000006 then some .lfpB
  else if 0xF0000100 ≤ p ∧ p < 0xF0000120 then
    let h := halfOf ((p - 0xF0000100) / 16)
    match (p - 0xF0000100) % 16 with
    | 0 => some (.scb h) | 1 => some (.dma h) | 2 => some (.srp h) | 3 => some (.fed h)
    | 4 => some (.lig h) | 5 => some (.lfp h) | 6 => some (.utp h) | 7 => some (.mem h)
    | 8 => some (.coh h) | 9 => some (.xlt h) | _ => none
  else if 0xF0001000 ≤ p ∧ p < 0xF0001200 then
    let q := (p - 0xF0001000) % 256
    if q < 144 then some (.ink (halfOf ((p - 0xF0001000) / 256)) (quireFin q)) else none
  else if 0xF0002000 ≤ p ∧ p < 0xF0002200 then
    let q := (p - 0xF0002000) % 256
    if q < 144 then some (.nib (halfOf ((p - 0xF0002000) / 256)) (quireFin q)) else none
  else none

/-- Whether a frame takes posted writes for every register (R435). -/
def Frame.posted : Frame → Bool
  | .id | .col | .blt | .rul | .memB | .cohB | .lfpB => true
  | _ => false

/-- FRAME_ID.KIND (R434). -/
def Frame.kind : Frame → Nat
  | .ink .. => 1 | .nib .. => 2 | .scb _ => 3 | .dma _ => 4 | .srp _ => 5 | .blt => 6 | .rul => 7
  | .fed _ => 8 | .col => 9 | .lig _ => 10 | .lfp _ => 11 | .lfpB => 11 | .utp _ => 12 | .mem _ => 13
  | .memB => 13 | .coh _ => 14 | .cohB => 14 | .xlt _ => 15 | .id => 16

/-- FRAME_ID.INSTANCE (R434). -/
def Frame.instance_ : Frame → Nat
  | .ink h q | .nib h q => 144 * h.val + q.val
  | .scb h | .dma h | .srp h | .fed h | .lig h | .lfp h | .utp h | .mem h | .coh h | .xlt h => h.val
  | .blt | .rul | .memB | .cohB | .lfpB => 0xFFFF
  | .col | .id => 0

/-- Access codes of R11. -/
inductive Acc where
  | ro | rw | wo | rs | rwg
  deriving DecidableEq, Repr

/-- A field: its bits, access and reset value. -/
structure Fld where
  hi : Nat
  lo : Nat
  acc : Acc
  reset : Nat
  deriving DecidableEq, Repr

/-- A register: its offset in the frame's normal window, whether it is 64-bit, whether it has shadow
and active copies (R436), and its fields other than reserved ones. -/
structure Reg where
  off : Nat
  wide : Bool
  sh : Bool
  flds : List Fld
  deriving DecidableEq, Repr

/-- A 64-bit read-only counter. -/
def ctrReg (off : Nat) : Reg := ⟨off, true, false, [⟨63, 0, .ro, 0⟩]⟩
/-- A read-only register of 32 bits. -/
def roReg (off : Nat) : Reg := ⟨off, false, false, [⟨31, 0, .ro, 0⟩]⟩
/-- A read-only register of 64 bits. -/
def roReg64 (off : Nat) : Reg := ⟨off, true, false, [⟨63, 0, .ro, 0⟩]⟩
/-- A write-only register of 32 bits. -/
def woReg (off hi : Nat) : Reg := ⟨off, false, false, [⟨hi, 0, .wo, 0⟩]⟩
/-- A register of one software-written field from bit 0. -/
def rwReg (off hi reset : Nat) (sh : Bool) : Reg := ⟨off, 31 < hi, sh, [⟨hi, 0, .rw, reset⟩]⟩
/-- The counters at `lo`, `lo + 8`, … below `hi`. -/
def ctrRegs (lo n : Nat) : List Reg := (List.range n).map fun i => ctrReg (lo + 8 * i)

/-- A gauge set at `off` (02, *Gauge-set registers*). -/
def gaugeRegs (off : Nat) : List Reg :=
  ctrRegs off 5 ++ [⟨off + 0x28, false, false, [⟨4, 0, .rs, 0⟩]⟩, woReg (off + 0x2C) 0]

/-- The common tail (R434). -/
def tailRegs : List Reg :=
  [roReg 0x3FF0, ⟨0x3FF4, false, false, [⟨0, 0, .ro, 0⟩, ⟨1, 1, .rs, 0⟩, ⟨2, 2, .rs, 0⟩, ⟨3, 3, .ro, 0⟩]⟩,
    woReg 0x3FFC 31]

def idRegs : List Reg :=
  [roReg 0x0000, roReg 0x0004, roReg 0x0008, roReg64 0x0010, roReg 0x0018, roReg 0x001C,
    rwReg 0x0020 9 0 false, roReg 0x0024] ++
  (List.range 9).map (fun i => roReg (0x40 + 4 * i)) ++
  [woReg 0x0100 1, ⟨0x0104, false, false, [⟨1, 0, .ro, 0⟩, ⟨2, 2, .rs, 0⟩, ⟨3, 3, .rs, 0⟩, ⟨5, 4, .ro, 0⟩]⟩,
    woReg 0x0108 31, rwReg 0x010C 15 500 false, roReg64 0x0110,
    ⟨0x0120, false, false, [⟨0, 0, .rwg, 0⟩]⟩,
    ⟨0x0124, false, false, [⟨0, 0, .rwg, 0⟩, ⟨16, 1, .rwg, 1000⟩]⟩, roReg 0x0128]

def colRegs : List Reg :=
  [⟨0x0000, false, false, [⟨0, 0, .ro, 0⟩, ⟨1, 1, .rs, 0⟩, ⟨4, 2, .ro, 0⟩]⟩,
    roReg64 0x0008, roReg64 0x0010, roReg 0x0018, roReg 0x001C, roReg64 0x0020, rwReg 0x0028 63 0 false,
    roReg64 0x0030, roReg 0x0038, roReg 0x003C, roReg 0x0040, rwReg 0x0048 47 0 false, rwReg 0x0050 31 0 false,
    ⟨0x0054, false, false, [⟨1, 0, .rw, 0⟩, ⟨2, 2, .wo, 0⟩]⟩, roReg 0x0058,
    ⟨0x005C, false, false, [⟨0, 0, .rwg, 0⟩]⟩, roReg 0x0060, rwReg 0x0080 7 0 false, roReg 0x0084,
    rwReg 0x0088 6 0 false, roReg 0x008C] ++
  (List.range 12).map (fun i => rwReg (0x90 + 4 * i) 4 22 true) ++
  [⟨0x0100, false, false, [⟨0, 0, .rw, 0⟩, ⟨16, 1, .rw, 0⟩]⟩, roReg 0x0104, roReg 0x0108, roReg 0x010C] ++
  (List.range 16).map (fun i => roReg (0x110 + 4 * i)) ++
  (List.range 8).map (fun i => rwReg (0x160 + 4 * i) 31 0 false) ++
  [woReg 0x0180 0, rwReg 0x0184 2 2 false, ctrReg 0x01C0, ctrReg 0x01C8]

def bltRegs : List Reg :=
  [⟨0x0000, false, false, [⟨0, 0, .ro, 0⟩, ⟨1, 1, .rs, 0⟩, ⟨6, 2, .ro, 0⟩]⟩, rwReg 0x0004 19 1000 true,
    roReg 0x0008, roReg 0x000C, rwReg 0x0010 63 0 true, roReg64 0x0018, rwReg 0x0020 16 0 true, roReg 0x0024] ++
  ctrRegs 0x40 7 ++ [rwReg 0x0080 15 0 false, roReg 0x0084, rwReg 0x0088 15 0 false] ++ gaugeRegs 0x100

def rulRegs : List Reg :=
  [rwReg 0x0000 7 0 false, roReg 0x0004,
    ⟨0x0008, false, false, [⟨0, 0, .ro, 0⟩, ⟨1, 1, .rs, 0⟩, ⟨2, 2, .rs, 0⟩, ⟨3, 3, .ro, 0⟩]⟩, woReg 0x000C 0,
    ⟨0x0010, false, true, [⟨2, 0, .rw, 0⟩, ⟨3, 3, .rw, 0⟩, ⟨8, 4, .rw, 1⟩]⟩, rwReg 0x0014 31 0 true,
    rwReg 0x0018 31 0 true, rwReg 0x001C 31 0x3F800000 true, rwReg 0x0020 31 0 true, rwReg 0x0028 47 1 true,
    rwReg 0x0030 47 1 true] ++
  [roReg 0x0110, roReg 0x0114, roReg 0x0118, roReg 0x011C, roReg 0x0120, roReg64 0x0128, roReg64 0x0130,
    rwReg 0x0200 47 0 false, roReg 0x0208]

def memBRegs : List Reg :=
  (List.range 6).map (fun l => ⟨0x100 + 4 * l, false, false, [⟨0, 0, .ro, 0⟩, ⟨1, 1, .rs, 0⟩, ⟨2, 2, .ro, 0⟩, ⟨21, 8, .ro, 0⟩]⟩) ++
  (List.range 6).map (fun l => roReg64 (0x120 + 8 * l)) ++ [ctrReg 0x150]

def cohRegs : List Reg :=
  [⟨0x0000, false, false, [⟨6, 0, .ro, 0⟩, ⟨7, 7, .rs, 0⟩]⟩,
    ⟨0x0004, false, false, [⟨15, 0, .rwg, 20⟩, ⟨17, 16, .rw, 0⟩]⟩, roReg 0x0008, roReg64 0x0010] ++ ctrRegs 0x40 9

/-- A port block of an LFP frame (12). -/
def lfpPortRegs (b : Nat) : List Reg :=
  [roReg b, roReg (b + 4)] ++ (List.range 4).map (fun j => roReg (b + 8 + 4 * j)) ++ ctrRegs (b + 0x18) 5

def lfpRegs (n : Nat) : List Reg := (List.range n).flatMap fun i => lfpPortRegs (0x100 + 0x40 * i)

def scbRegs : List Reg :=
  [roReg 0x0000, woReg 0x0008 27, woReg 0x000C 27,
    ⟨0x0010, true, true, [⟨63, 12, .rw, 0⟩]⟩, ⟨0x0018, true, true, [⟨63, 12, .rw, 0⟩]⟩,
    woReg 0x0020 13, woReg 0x0024 13, ⟨0x0028, false, false, [⟨0, 0, .ro, 0⟩, ⟨1, 1, .rs, 0⟩]⟩,
    rwReg 0x0030 11 0 false, roReg 0x0034, rwReg 0x0038 9 0 false, rwReg 0x003C 31 0 false,
    ctrReg 0x0040, ctrReg 0x0048, ctrReg 0x0050, rwReg 0x0058 11 0 false,
    ⟨0x005C, false, false, [⟨1, 0, .ro, 0⟩, ⟨2, 2, .rs, 0⟩, ⟨31, 16, .ro, 0⟩]⟩]

/-- The block of a DMA channel (06). -/
def dmaRegs (b : Nat) : List Reg :=
  [⟨b, false, false, [⟨0, 0, .rw, 0⟩, ⟨1, 1, .rw, 0⟩, ⟨2, 2, .rw, 0⟩]⟩, roReg (b + 4), rwReg (b + 8) 63 0 false,
    roReg64 (b + 0x10), roReg64 (b + 0x18), rwReg (b + 0x20) 11 0 true, roReg (b + 0x24), ctrReg (b + 0x28)]

def srpRegs : List Reg :=
  [roReg 0x0000, roReg 0x0004, roReg 0x0008, roReg64 0x0010, roReg 0x0018, rwReg 0x0020 19 0 false, roReg 0x0024] ++
  ctrRegs 0x40 9 ++ gaugeRegs 0x100

def fedRegs : List Reg :=
  [roReg 0x0000, rwReg 0x0004 2 4 true, roReg 0x0008, roReg 0x000C, roReg 0x0010, rwReg 0x0018 47 0 true,
    ⟨0x0020, false, true, [⟨3, 0, .rw, 4⟩, ⟨4, 4, .rw, 0⟩]⟩, woReg 0x0024 11, rwReg 0x0028 4 0 false,
    roReg 0x002C, roReg64 0x0030, roReg 0x0038] ++ ctrRegs 0x40 12

def ligRegs : List Reg :=
  [⟨0x0000, false, false, [⟨0, 0, .ro, 0⟩, ⟨1, 1, .rs, 0⟩, ⟨3, 2, .ro, 0⟩, ⟨4, 4, .ro, 0⟩]⟩,
    ⟨0x0004, false, false, [⟨4, 0, .rwg, 16⟩, ⟨15, 5, .rwg, 2000⟩]⟩] ++ ctrRegs 0x10 4

/-- The block of a software or Ethernet ring (12). -/
def ringRegs (b : Nat) : List Reg :=
  [rwReg b 47 0 true, rwReg (b + 8) 47 0 true,
    ⟨b + 0x10, false, true, [⟨3, 0, .rw, 4⟩, ⟨7, 4, .rw, 4⟩, ⟨8, 8, .rw, 0⟩]⟩, woReg (b + 0x14) 31]

def utpRegs : List Reg :=
  [roReg 0x0000, roReg 0x0004,
    ⟨0x0008, false, true, [⟨9, 0, .rw, 20⟩, ⟨13, 10, .rw, 7⟩, ⟨23, 14, .rw, 1⟩, ⟨31, 24, .rw, 10⟩]⟩,
    ⟨0x000C, false, true, [⟨4, 0, .rwg, 16⟩, ⟨19, 5, .rwg, 10000⟩]⟩, rwReg 0x0010 15 0 false, rwReg 0x0014 27 0 false,
    rwReg 0x0018 19 0 false, roReg 0x001C, ⟨0x0020, false, false, [⟨0, 0, .rwg, 0⟩]⟩] ++
  ctrRegs 0x40 9 ++ (List.range 7).flatMap (fun b => ringRegs (0x800 + 0x40 * b))

def memRegs : List Reg :=
  [roReg 0x0000, ⟨0x0004, false, true, [⟨15, 0, .rw, 24⟩, ⟨16, 16, .rw, 1⟩]⟩,
    ⟨0x0008, false, false, [⟨5, 0, .rwg, 0⟩, ⟨11, 6, .rwg, 0⟩, ⟨12, 12, .rwg, 0⟩, ⟨13, 13, .rwg, 0⟩]⟩,
    ⟨0x0010, true, false, [⟨47, 0, .rwg, 0⟩]⟩, roReg64 0x0018,
    ⟨0x0020, false, false, [⟨9, 0, .ro, 0⟩, ⟨31, 31, .rs, 0⟩]⟩] ++ ctrRegs 0x40 6

def xltRegs : List Reg :=
  [⟨0x0000, false, false, [⟨0, 0, .rs, 0⟩, ⟨1, 1, .rs, 0⟩]⟩, roReg64 0x0008, roReg 0x0010] ++ ctrRegs 0x40 3

def inkRegs : List Reg :=
  [roReg 0x0000, roReg 0x0004,
    ⟨0x0008, false, true, [⟨1, 0, .rw, 0⟩, ⟨2, 2, .rw, 0⟩, ⟨3, 3, .rw, 1⟩, ⟨19, 4, .rw, 0xFFFF⟩]⟩,
    roReg 0x000C, roReg 0x0010] ++ ctrRegs 0x18 7 ++ (List.range 8).flatMap (fun g => gaugeRegs (0x100 + 0x30 * g))

/-- The block of Nib n in its quire's frame (05). -/
def nibBlockRegs (n : Nat) : List Reg :=
  let b := 0x100 + 0x40 * n
  [roReg b, roReg (b + 4), roReg (b + 8), roReg64 (b + 0x10), woReg (b + 0x18) 0, roReg (b + 0x1C), roReg (b + 0x20),
    ctrReg (b + 0x28)]

/-- A window register (05): VALID and BASE. -/
def winReg (off : Nat) : Reg := ⟨off, true, true, [⟨0, 0, .rw, 0⟩, ⟨47, 28, .rw, 0⟩]⟩

def listFind (l : List Reg) (off : Nat) : Option Reg :=
  l.find? fun r => r.off = off || (r.wide && r.off + 4 = off)

/-- The register at an offset of a frame's normal window; the high word of a 64-bit register gives
that register (R431, R437). -/
def regAt (f : Frame) (off : Nat) : Option Reg :=
  if 0x3FF0 ≤ off then listFind tailRegs off
  else match f with
  | .id =>
    if 0x200 ≤ off ∧ off < 0x200 + 16 * 96 then
      let b := off / 16 * 16
      listFind [rwReg b 63 0 false, ⟨b + 8, false, false, [⟨0, 0, .rw, 0⟩, ⟨1, 1, .ro, 0⟩]⟩] off
    else listFind idRegs off
  | .col => listFind colRegs off
  | .blt => listFind bltRegs off
  | .rul => listFind rulRegs off
  | .memB => listFind memBRegs off
  | .cohB => listFind cohRegs off
  | .lfpB => listFind (lfpRegs 6) off
  | .scb _ => listFind scbRegs off
  | .dma _ =>
    if 0x100 ≤ off ∧ off < 0x1100 then listFind (dmaRegs (off / 0x40 * 0x40)) off else none
  | .srp _ => listFind srpRegs off
  | .fed _ => listFind fedRegs off
  | .lig _ => listFind ligRegs off
  | .lfp _ => listFind (lfpRegs 14) off
  | .utp _ => listFind utpRegs off
  | .mem _ => listFind memRegs off
  | .coh _ => listFind cohRegs off
  | .xlt _ => listFind xltRegs off
  | .ink _ _ => listFind inkRegs off
  | .nib _ _ =>
    if off = 0 then some (roReg 0)
    else if 0x40 ≤ off ∧ off < 0x60 then some (ctrReg (off / 8 * 8))
    else if 0x100 ≤ off ∧ off < 0x500 then listFind (nibBlockRegs ((off - 0x100) / 0x40)) off
    else if 0x700 ≤ off ∧ off < 0x740 then some (roReg (off / 4 * 4))
    else if 0x800 ≤ off ∧ off < 0xC00 then some (winReg (off / 8 * 8))
    else if 0xC00 ≤ off ∧ off < 0x1000 then some (roReg64 (off / 8 * 8))
    else if 0x1000 ≤ off ∧ off < 0x1C00 then listFind (gaugeRegs (0x1000 + (off - 0x1000) / 0x30 * 0x30)) off
    else none

/-- The reset value of a register. -/
def Reg.resetVal (r : Reg) : Nat := r.flds.foldl (fun a f => a + f.reset * 2 ^ f.lo) 0

/-- The reset value of the word at an address. -/
def regReset (addr : Nat) : Word :=
  match frameAt addr with
  | none => 0
  | some f =>
    match regAt f (addr - f.base) with
    | none => 0
    | some r => BitVec.ofNat 32 (if addr - f.base = r.off then r.resetVal else r.resetVal / 2 ^ 32)

/-- A stored 32-bit word: the shadow copy where the register has one. -/
def regWord (s : State) (addr : Nat) : Word := sget (regReset addr) s.regs addr

/-- The active copy of a shadowed word (R436). -/
def regAct (s : State) (addr : Nat) : Word := sget (regReset addr) s.act addr

/-- Store a word. -/
def setReg (s : State) (addr : Nat) (v : Word) : State := { s with regs := sset s.regs addr v }

/-- A stored 64-bit register. -/
def regWord64 (s : State) (addr : Nat) : Nat := (regWord s addr).toNat + 2 ^ 32 * (regWord s (addr + 4)).toNat

/-- The active copy of a shadowed 64-bit register. -/
def regAct64 (s : State) (addr : Nat) : Nat := (regAct s addr).toNat + 2 ^ 32 * (regAct s (addr + 4)).toNat

/-- Store a 64-bit register. -/
def setReg64 (s : State) (addr v : Nat) : State :=
  setReg (setReg s addr (BitVec.ofNat 32 v)) (addr + 4) (BitVec.ofNat 32 (v / 2 ^ 32))

/-- Add to a 64-bit counter of a frame. -/
def count (s : State) (f : Frame) (off n : Nat) : State :=
  if n = 0 then s else setReg64 s (f.base + off) (regWord64 s (f.base + off) + n)

/-- Copy the shadow words at the given addresses to their active copies (R436). -/
def applyShadow (s : State) (addrs : List Nat) : State :=
  { s with act := addrs.foldl (fun a x => sset a x (regWord s x)) s.act }

/-- Whether shadow and active copies differ at any of the addresses. -/
def shadowPending (s : State) (addrs : List Nat) : Bool := addrs.any fun x => regWord s x ≠ regAct s x

/-- Set bits of a stored word. -/
def regSetBits (s : State) (addr : Nat) (m : Word) : State := setReg s addr (regWord s addr ||| m)

end Sys2Proof.Machine
end

