-- ==== Sys2Proof/Machine/Ops.lean ====
section
/-! DEFINITION. The operations that commands share: fences (R29 to R31), memory with its symbol code
and poison (R301 to R310), coherent accesses by units (R329), translation (R315 to R317), gauges
(R58 to R61), the event log (R421, R422) and completions (R192). -/

namespace Sys2Proof.Machine
open Sys2Proof

/-! ### Fences -/

/-- Whether a unit code of R409 is fenced in this boot. -/
def unitFenced (s : State) (kind idx : Nat) : Bool := s.col.fences.any fun p => p.1.toNat = kind + 256 * idx

def halfFenced (s : State) (h : Half) : Bool := unitFenced s 8 h.val
def bltFenced (s : State) : Bool := unitFenced s 9 0
def ligFenced (s : State) : Bool := unitFenced s 7 0
def quireFenced (s : State) (q : QuireId) : Bool := halfFenced s q.h || unitFenced s 1 q.num
def clusterFenced (s : State) (h : Half) (k : Nat) : Bool := halfFenced s h || unitFenced s 2 (6 * h.val + k)
def stackFenced (s : State) (h : Half) (k : Nat) : Bool := halfFenced s h || unitFenced s 3 (6 * h.val + k)
def dmaFenced (s : State) (d : DmaId) : Bool := halfFenced s d.h || unitFenced s 4 d.num
/-- Feed engine k of type t (R409). -/
def feedEngFenced (s : State) (h : Half) (t k : Nat) : Bool :=
  halfFenced s h || unitFenced s 5 (32 * h.val + 8 * t + k)
/-- Engine e of 0 to 16; a fenced half or Blotter takes its engines with it (R31). -/
def engineFenced (s : State) (e : Nat) : Bool :=
  unitFenced s 6 e || (if e < 7 then halfFenced s 0 else if e < 14 then halfFenced s 1 else bltFenced s)
/-- Whether the unit of a frame is fenced, so that the frame reads zero (R437). -/
def frameFenced (s : State) : Frame → Bool
  | .id | .col => false
  | .blt | .rul | .memB | .cohB | .lfpB => bltFenced s
  | .ink h q | .nib h q => quireFenced s ⟨h, q⟩
  | .lig h => ligFenced s || halfFenced s h
  | .scb h | .dma h | .srp h | .fed h | .lfp h | .utp h | .mem h | .coh h | .xlt h => halfFenced s h

/-- The live HBM stacks of a half in ascending number (R302). -/
def liveStacks (s : State) (h : Half) : List Nat := (List.range 6).filter fun k => !stackFenced s h k

/-- Whether the coherent domain serves accesses (R341). -/
def alive (s : State) : Bool := s.coh.running && !s.coh.down

/-! ### The physical map -/

/-- The home of an address: Reservoir 0 or 1, or 2 the Blotter (R301). -/
def homeOf (a : Nat) : Nat := if a < 2 ^ 40 then 0 else if a < 2 ^ 41 then 1 else 2

/-- The base of the second-tier window (R301). -/
def tier2 : Nat := 0x100000000000

/-- Whether an address is mapped memory (R301, R302, R312). -/
def mappedAt (s : State) (a : Nat) : Bool :=
  if a < 2 ^ 41 then decide (a % 2 ^ 40 < (liveStacks s (halfOf (a / 2 ^ 40))).length * 128000000000)
  else if tier2 ≤ a ∧ a < 2 * tier2 then
    !bltFenced s && s.cxl.any fun c => decide (c.base ≤ a - tier2 ∧ a - tier2 < c.base + c.bytes)
  else false

/-- Whether a home serves a unit's access to an address: it is mapped, and the domain is not down
(R301, R341). -/
def served (s : State) (a : Nat) : Bool := alive s && mappedAt s a

/-- The stack and pseudo-channel of an HBM address (R302, R303). -/
def stackOf (s : State) (a : Nat) : Nat × Nat :=
  let st := liveStacks s (halfOf (a / 2 ^ 40))
  let p := a % 2 ^ 40 / 4096
  (st.getD (p % max 1 st.length) 0, a % 4096 / 128)

/-! ### Memory bytes -/

/-- The byte at an address; unlisted bytes read zero (R443). -/
def mget (c : List Host.Cell) (a : Nat) : Byte := sget 0 c a

/-- Write one byte and keep the canonical form: addresses rising, no zero listed. -/
def mput : List Host.Cell → Nat → Byte → List Host.Cell
  | [], a, b => if b = 0 then [] else [(a, b)]
  | (k, v) :: t, a, b =>
    if a < k then (if b = 0 then (k, v) :: t else (a, b) :: (k, v) :: t)
    else if a = k then (if b = 0 then t else (a, b) :: t)
    else (k, v) :: mput t a b

/-- Write bytes from an address on. -/
def mputs (c : List Host.Cell) (a : Nat) : List Byte → List Host.Cell
  | [] => c
  | b :: t => mputs (mput c a b) (a + 1) t

/-- `n` bytes from an address on. -/
def mgets (c : List Host.Cell) (a n : Nat) : List Byte := (List.range n).map fun i => mget c (a + i)

/-- The canonical form of a list of cells from address `lo` on. -/
def Memory.wfFrom : Nat → List Host.Cell → Bool
  | _, [] => true
  | lo, (k, v) :: t => decide (lo ≤ k) && decide (v ≠ 0) && Memory.wfFrom (k + 1) t

/-- Memory in canonical form. -/
def Memory.wf (m : Mem) : Bool := Memory.wfFrom 0 m.cells

/-! ### Lines, the symbol code and poison -/

/-- Whether a line is poisoned (R306). -/
def linePoisoned (s : State) (line : Nat) : Bool := s.mem.poison.contains line

/-- Set or clear a line's poison. -/
def setPoison (s : State) (line : Nat) (p : Bool) : State :=
  { s with mem := { s.mem with poison := if p then ninsert s.mem.poison line else s.mem.poison.filter (· ≠ line) } }

/-- Record the symbols in error of a codeword of HBM, by address / 16 (R304). -/
def setEcc (s : State) (w n : Nat) : State :=
  { s with ecc := if n = 0 then sdel s.ecc w else sset s.ecc w n }

/-- The codewords of an HBM line with symbols in error, in ascending order (R304). -/
def lineEcc (s : State) (line : Nat) : List (Nat × Nat) :=
  if homeOf (line * 128) = 2 then []
  else ((List.range 8).map fun c => (8 * line + c, sget 0 s.ecc (8 * line + c))).filter fun p => p.2 ≠ 0

/-- The MEM frame of the half that holds an HBM line. -/
def memFrameOf (line : Nat) : Frame := .mem (halfOf (line * 128 / 2 ^ 40))

/-- Log an uncorrectable error in MEM_ERR_ADDR and MEM_ERR_INFO (R305, R309); `src` is SOURCE. -/
def logUe (s : State) (line src : Nat) : State :=
  let f := memFrameOf line
  let (st, pc) := stackOf s (line * 128)
  let s := setReg64 s (f.base + 0x18) (line * 128)
  setReg s (f.base + 0x20) (BitVec.ofNat 32 (src + 4 * st + 32 * pc + 2 ^ 31))

/-- An undefined choice that the part makes and the manual leaves open (DESIGN CHOICE, log entry 7). -/
def freshBit (s : State) : State × Bool := ({ s with free := s.free + 1 }, Config.freeBit s.free)

/-- The copy of the boot control record in force: with a CRC that holds, and the higher generation (R391). -/
def Flash.record (f : Flash) : BootRec := if f.recB.good && (!f.recA.good || f.recA.gen < f.recB.gen) then f.recB else f.recA
def Flash.cycles (f : Flash) : BitVec 48 := f.record.cycles
def Flash.slots (f : Flash) : Sparse SlotSt := f.record.slots
def Flash.ip (f : Flash) : Option (BitVec 32) := f.record.ip

/-- Write the boot control record: a new generation in the place of the other copy (R391). -/
def Flash.put (f : Flash) (g : BootRec → BootRec) : Flash :=
  let r := { g f.record with gen := f.record.gen + 1, good := true }
  if f.recB.good && (!f.recA.good || f.recA.gen < f.recB.gen) then { f with recA := r } else { f with recB := r }

/-- Decode a codeword with `n` symbols in error (R305): one is corrected, two poison the line, more do either of the
two, and a wrong correction leaves the codeword's bytes free (DESIGN CHOICE, log entry 7). -/
def decodeWord (s : State) (w n src : Nat) : State :=
  let line := w / 8
  let bad (s : State) : State := logUe (count (setPoison s line true) (memFrameOf line) 0x48 1) line src
  let fix (s : State) : State := count s (memFrameOf line) 0x40 1
  if n = 0 then s
  else if n = 1 then fix s
  else if n = 2 then bad s
  else
    let r := freshBit s
    if r.2 then bad r.1
    else
      let s := fix r.1
      let b := (List.range 16).map fun i => Config.freeByte (s.free + i)
      { s with mem := { s.mem with cells := mputs s.mem.cells (16 * w) b }, free := s.free + 16 }

/-- Decode codewords in order. -/
def decodeWords (s : State) (l : List (Nat × Nat)) (src : Nat) : State := l.foldl (fun s p => decodeWord s p.1 p.2 src) s

/-- The injection of MEM_INJECT on an HBM write of a line (10, *Registers*). -/
def injectOn (s : State) (line : Nat) : State :=
  let f := memFrameOf line
  let r := regWord s (f.base + 0x08)
  if homeOf (line * 128) ≠ 2 && bitAt r 13 && regWord64 s (f.base + 0x10) / 128 = line then
    let a := field r 5 0
    let b := field r 11 6
    let n := (if a < 36 then 1 else 0) + (if bitAt r 12 && b ≠ a && b < 36 then 1 else 0)
    setEcc (setReg s (f.base + 0x08) (setField r 13 13 0)) (8 * line) n
  else s

/-- HBM is written with a line: its codewords are encoded anew. -/
def hbmWrite (s : State) (line : Nat) : State :=
  injectOn { s with ecc := s.ecc.filter fun p => p.1 / 8 ≠ line } line

/-- HBM reads a line: errors are decoded and the line is written back (R305, R309). -/
def hbmRead (s : State) (line src : Nat) : State :=
  let l := lineEcc s line
  if l.isEmpty then s else hbmWrite (decodeWords s l src) line

/-! ### The Reservoirs (R310) -/

/-- The lines that a half's Reservoir holds at most: 384 MiB less the reorder pool (R310, R293). -/
def resLines (s : State) (h : Half) : Nat := (384 - s.col.rubric.pools.getD h.val 0) * 8192

/-- The Reservoir's lines of the half that an HBM line belongs to. -/
def resOf (s : State) (line : Nat) : List (Nat × Bool) := s.res.filter fun p => homeOf (p.1 * 128) = homeOf (line * 128)

/-- The words of a line in its Reservoir that have symbols in error. -/
def lineResEcc (s : State) (line : Nat) : List (Nat × Nat) := s.resEcc.filter fun p => p.1 / 8 = line

/-- A Reservoir reads a line: a corrected word is rewritten in place, an uncorrectable one poisons its line in place, and
the line is written to HBM so (R305, R310; a clean line counts as dirty then, DESIGN CHOICE, log entry 16). -/
def resRead (s : State) (line : Nat) : State :=
  let l := lineResEcc s line
  if l.isEmpty then s
  else
    let s := decodeWords { s with resEcc := s.resEcc.filter fun p => p.1 / 8 ≠ line } l 2
    if linePoisoned s line then { s with res := sset s.res line true } else s

/-- A line leaves its Reservoir; a dirty one is written to HBM (R310). -/
def resEvict (s : State) (line : Nat) : State :=
  let dirty := sget false s.res line
  let s := if dirty then resRead s line else s
  let s := { s with res := sdel s.res line, resEcc := s.resEcc.filter fun p => p.1 / 8 ≠ line }
  if dirty then hbmWrite s line else s

/-- A line that any agent reads or writes is held by its home's Reservoir; a full one evicts a line for it. Which
one, the manual leaves open (DESIGN CHOICE, log entry 16). -/
def resHold (s : State) (line : Nat) (dirty : Bool) : State :=
  if homeOf (line * 128) = 2 then s
  else
    let l := resOf s line
    let s :=
      if shas s.res line || decide (l.length < resLines s (halfOf (line * 128 / 2 ^ 40))) then s
      else resEvict { s with free := s.free + 1 } ((l[Config.resVictim s.free % l.length]?).getD (line, false)).1
    { s with res := sset s.res line (dirty || sget false s.res line) }

/-- A line comes to its home: from HBM unless the Reservoir holds it (R305, R310). -/
def resFetch (s : State) (line : Nat) : State := if shas s.res line then resRead s line else hbmRead s line 0

/-- A demand read of a line at its home: data and whether it is poisoned. -/
def rdLine (s : State) (line : Nat) : State × (List Byte × Bool) :=
  if linePoisoned s line then
    let s := if homeOf (line * 128) = 2 then count s .memB 0x150 1 else count s (memFrameOf line) 0x50 1
    (resHold s line false, mgets s.mem.cells (line * 128) 128, true)
  else
    let s := resHold (resFetch s line) line false
    (s, mgets s.mem.cells (line * 128) 128, linePoisoned s line)

/-- The runs of bytes that an image gives, from offset `i` on. -/
def imageRuns : Nat → List (Option Byte) → List (Nat × List Byte)
  | _, [] => []
  | i, none :: t => imageRuns (i + 1) t
  | i, some b :: t =>
    match imageRuns (i + 1) t with
    | [] => [(i, [b])]
    | (j, bs) :: r => if j = i + 1 then (i, b :: bs) :: r else (i, [b]) :: (j, bs) :: r

/-- A write at a home of runs of bytes within one line, `whole` when they are all of it (R307). -/
def wrRuns (s : State) (line : Nat) (whole : Bool) (l : List (Nat × List Byte)) (pois : Bool) : State :=
  let s := if whole then { s with resEcc := s.resEcc.filter fun p => p.1 / 8 ≠ line } else resFetch s line
  let s := { s with mem := { s.mem with cells := l.foldl (fun c r => mputs c r.1 r.2) s.mem.cells } }
  let s := if pois then setPoison s line true else if whole then setPoison s line false else s
  resHold s line true

/-- A write at a home of bytes within one line (R307). -/
def wrLine (s : State) (a : Nat) (b : List Byte) (pois : Bool) : State :=
  wrRuns s (a / 128) (decide (b.length = 128)) [(a, b)] pois

/-- A write at a home of the bytes that an image of a line's bytes from `a` on gives (WrPartial's mask, R325). -/
def wrImage (s : State) (a : Nat) (img : List (Option Byte)) (pois : Bool) : State :=
  wrRuns s (a / 128) (decide ((img.filterMap id).length = 128)) (imageRuns a img) pois

/-! ### Accesses by units, coherent with the server-core caches (R329, R331) -/

/-- The number of lines in the physical space. -/
def lineSpan : Nat := 2 ^ 41

/-- The cache entries of a line. -/
def copiesOf (s : State) (line : Nat) : List (Nat × CLine) :=
  s.coh.caches.filter fun p => p.1 % lineSpan = line

/-- The snoop-filter entry of a line (R323). -/
def filterOf (s : State) (line : Nat) : FEnt := sget ⟨[], none⟩ s.coh.filter line

/-- Whether a copy holds a line's only current data: in M, or in MI_A with a writeback that its home has not taken yet
(R327, R337). -/
def dirtyCopy (s : State) (p : Nat × CLine) : Bool :=
  p.2.st = .m || (p.2.st = .mia && (filterOf s (p.1 % lineSpan)).owner.any fun o => o.1 = p.1 / lineSpan)

/-- The home brings itself the current value for a unit's access: a copy in M gives its data and stays in E, and a
writeback in flight is written (R327, R337). On a busy line the access comes before the transaction in progress: the
data is taken, also from a grant on its way, and no copy changes state (DESIGN CHOICE, log entry 21). -/
def snoopCur (s : State) (line : Nat) : State :=
  let busy := shas s.coh.trans line
  (copiesOf s line).foldl (fun s p =>
    if dirtyCopy s p then
      let s := wrLine s (line * 128) p.2.data p.2.poison
      if busy || p.2.st = .mia then s
      else { s with coh := { s.coh with caches := sset s.coh.caches p.1 { p.2 with st := .e } } }
    else if busy && p.2.st = .imd && p.2.data.length = 128 then wrLine s (line * 128) p.2.data p.2.poison
    else s) s

/-- Replace bytes of a line image. -/
def patch (d : List Byte) (off : Nat) (b : List Byte) : List Byte :=
  (List.range 128).map fun i => if off ≤ i ∧ i < off + b.length then b.getD (i - off) 0 else d.getD i 0

/-- What a unit's write does to a copy (R327; DESIGN CHOICE, log entry 21): stable copies go, a pending upgrade becomes a
read for ownership, and a writeback in flight carries the new bytes. On a busy line no copy changes state, and each
that holds or is being given data carries the new bytes. -/
def copyAfterWrite (busy : Bool) (off : Nat) (b : List Byte) (pois : Bool) (c : CLine) : Option CLine :=
  let upd (c : CLine) : CLine :=
    { c with data := patch c.data off b, poison := pois || (c.poison && b.length ≠ 128) }
  match c.st with
  | .i => some c
  | .s | .e | .f | .m =>
    if busy then some (upd c) else if c.op.isSome then some { c with st := .i, prev := .i, data := [] } else none
  | .mia => some (upd c)
  | .isd | .imd => some (if busy && c.data.length = 128 then upd c else c)
  | .sma => some (if busy then upd c else { c with st := .imd, prev := .i, data := [] })

/-- The filter entry of a line that a unit has written: only a cache whose writeback is in flight stays (R337). -/
def filterAfterWrite (s : State) (line : Nat) : Sparse FEnt :=
  match (filterOf s line).owner with
  | none => sdel s.coh.filter line
  | some (o, g) =>
    if (copiesOf s line).any fun p => p.1 / lineSpan = o && p.2.st = .mia then sset s.coh.filter line ⟨[o], some (o, g)⟩
    else sdel s.coh.filter line

/-- Invalidate the copies of a line for a unit's write of `b` at `off`, and break reservations. -/
def snoopInvAll (s : State) (line off : Nat) (b : List Byte) (pois : Bool) : State :=
  let busy := shas s.coh.trans line
  let cs := s.coh.caches.filterMap fun p =>
    if p.1 % lineSpan = line then (copyAfterWrite busy off b pois p.2).map fun c => (p.1, c) else some p
  { s with coh := { s.coh with caches := cs, filter := if busy then s.coh.filter else filterAfterWrite s line }
           cores := s.cores.map fun p => if p.2.lr = some line then (p.1, { p.2 with lr := none }) else p }

/-- The COH frame of the home of a line (R301, R322). -/
def cohFrameOf (line : Nat) : Frame :=
  if homeOf (line * 128) = 2 then .cohB else .coh (halfOf (line * 128 / 2 ^ 40))

/-- A home accepts a unit's request and snoops the holders its filter lists, or for a read the one in M (R329). -/
def homeCount (s : State) (line : Nat) (onlyOwner : Bool) : State :=
  let n := if onlyOwner then (if (copiesOf s line).any (dirtyCopy s) then 1 else 0) else (filterOf s line).holders.length
  count (count s (cohFrameOf line) 0x40 1) (cohFrameOf line) 0x60 n

/-- The writes of a line that have not reached their home yet. -/
def setStale (s : State) (line : Nat) (l : List (Nat × List Byte × Bool)) : State :=
  { s with stale := if l.isEmpty then sdel s.stale line else sset s.stale line l }

/-- What an agent sees of a line with this current contents. The home takes the line's writes in their order, and how many
of those still on their way have reached it is an undefined choice; those that have stay there (R182, R325; DESIGN CHOICE,
log entry 3). -/
def seenFrom (line : Nat) (now : List Byte × Bool) : List (Nat × List Byte × Bool) → State → State × (List Byte × Bool)
  | [], s => (setStale s line [], now)
  | e :: t, s =>
    let r := freshBit s
    if r.2 then (setStale r.1 line (e :: t), e.2) else seenFrom line now t r.1

def seen (s : State) (line : Nat) (now : List Byte × Bool) : State × (List Byte × Bool) :=
  if shas s.stale line then seenFrom line now (sget [] s.stale line) s else (s, now)

/-- A unit's read of a mapped line. -/
def unitRead (s : State) (line : Nat) : State × (List Byte × Bool) :=
  let r := rdLine (snoopCur (homeCount s line true) line) line
  seen r.1 line r.2

/-- A line's contents: those of a copy in M, or memory's. -/
def lineNow (s : State) (line : Nat) : List Byte × Bool :=
  match (copiesOf s line).find? (dirtyCopy s) with
  | some p => (p.2.data, p.2.poison)
  | none => (mgets s.mem.cells (line * 128) 128, linePoisoned s line)

/-- A line has been written for a command of queue `q`: until that write is visible an agent may see what the line held
before it, as found in `s0` (R182). -/
def keepOld (s0 s : State) (q line : Nat) : State :=
  setStale s line (sget [] s0.stale line ++ [(q, lineNow s0 line)])

/-- The writes of a line after the last one that `p` names: the home has that one, and so those before it. -/
def afterLast (p : Nat → Bool) : List (Nat × List Byte × Bool) → List (Nat × List Byte × Bool)
  | [] => []
  | e :: t => if (e :: t).any fun x => p x.1 then afterLast p t else e :: t

/-- The writes made for the queues named are visible to all agents (R181, R182). -/
def visible (s : State) (p : Nat → Bool) : State :=
  { s with stale := (s.stale.map fun e => (e.1, afterLast p e.2)).filter fun e => !e.2.isEmpty }

/-- What a home does with a unit's write of bytes within one line; the writes before it have reached the home (R329). -/
def homeWrite (s : State) (a : Nat) (b : List Byte) (pois : Bool) : State :=
  let line := a / 128
  let s := if b.length = 128 then s else snoopCur s line
  let s := wrLine (snoopInvAll s line (a % 128) b pois) a b pois
  { s with stale := sdel s.stale line }

/-- A unit's write of bytes within one mapped line. -/
def unitWrite (s : State) (a : Nat) (b : List Byte) (pois : Bool) : State :=
  homeWrite (homeCount s (a / 128) false) a b pois

/-- A unit's write of the bytes that a line image gives, in one request (R126, R329). -/
def unitMask (s : State) (line : Nat) (img : List (Option Byte)) (pois : Bool) : State :=
  let whole := decide ((img.filterMap id).length = 128)
  let s := homeCount s line false
  let s := if whole then s else snoopCur s line
  let s := wrImage ((imageRuns 0 img).foldl (fun s r => snoopInvAll s line r.1 r.2 pois) s) (line * 128) img pois
  { s with stale := sdel s.stale line }

/-- The result of an atomic on a value of `bits` bits (R128, R338). -/
def amoVal (op : AmoOp) (bits old x expect : Nat) : Nat :=
  let so := intOfBits bits old
  let sx := intOfBits bits x
  match op with
  | .add => (old + x) % 2 ^ bits
  | .swap | .sc => x
  | .and => old &&& x
  | .or => old ||| x
  | .xor => old ^^^ x
  | .max => if so < sx then x else old
  | .min => if sx < so then x else old
  | .maxu => if old < x then x else old
  | .minu => if x < old then x else old
  | .cas => if old = expect then x else old
  | .lr => old

/-- An atomic performed at the home of a mapped line, after the writes before it (R128, R329, R338): the old value, `none`
when the line is poisoned. -/
def farAtomic (s : State) (pa w : Nat) (op : AmoOp) (x expect : Nat) : State × Option Nat :=
  let line := pa / 128
  let s := count (homeCount s line false) (cohFrameOf line) 0x80 1
  let (s, d, p) := rdLine (snoopCur s line) line
  if p then (s, none)
  else
    let old := bget d (pa % 128) w
    let new := amoVal op (8 * w) old x expect
    (if op = .cas ∧ old ≠ expect then setStale s line [] else homeWrite s pa (leBytes w new) false, some old)

/-- The pieces of `n` bytes from `a` on that lie in one line each. -/
def lineChunks : Nat → Nat → Nat → List (Nat × Nat)
  | 0, _, _ => []
  | fuel + 1, a, n =>
    if n = 0 then []
    else
      let k := min n (128 - a % 128)
      (a, k) :: lineChunks fuel (a + k) (n - k)

/-- The pieces, with fuel for all of them. -/
def chunks (a n : Nat) : List (Nat × Nat) := lineChunks (n / 128 + 2) a n

/-- Bytes, each with whether its line was poisoned. -/
abbrev PBytes := List (Byte × Bool)

/-- The bytes alone. -/
def PBytes.bytes (b : PBytes) : List Byte := b.map Prod.fst

/-- Whether any byte is poisoned. -/
def PBytes.poisoned (b : PBytes) : Bool := b.any Prod.snd

/-- A unit's read by physical address; `none` when a line is unmapped. -/
def pread (s : State) (a n : Nat) : State × Option PBytes :=
  (chunks a n).foldl (fun r c =>
    match r with
    | (s, none) => (s, none)
    | (s, some acc) =>
      if served s c.1 then
        let (s, d, p) := unitRead s (c.1 / 128)
        (s, some (acc ++ (bslice d (c.1 % 128) c.2).map fun b => (b, p)))
      else (s, none)) (s, some [])

/-- A unit's write by physical address, line by line upward; false when it met an unmapped line. -/
def pwrite (s : State) (a : Nat) (b : List Byte) : State × Bool :=
  (chunks a b.length).foldl (fun r c =>
    if r.2 then
      if served r.1 c.1 then (unitWrite r.1 c.1 (bslice b (c.1 - a) c.2) false, true) else (r.1, false)
    else r) (s, true)

/-- A unit's write by physical address of bytes some of whose 128-byte pieces, counted from the first byte, are poisoned:
each line that takes a byte of such a piece is written poisoned (R306). -/
def pwriteMarked (s : State) (a : Nat) (b : List Byte) (pois : BitVec 32) : State :=
  ((chunks a b.length).foldl (fun r c =>
    if r.2 && served r.1 c.1 then
      (unitWrite r.1 c.1 (bslice b (c.1 - a) c.2) (bitAt pois ((c.1 - a) / 128) || bitAt pois ((c.1 + c.2 - 1 - a) / 128)), true)
    else (r.1, false)) (s, true)).1

/-! ### Translation (R315 to R317) -/

/-- Bits of a page-table entry. -/
def pteBit (e i : Nat) : Bool := e / 2 ^ i % 2 = 1

/-- The permission check of an access on a leaf's flags: the cause, or 0 (R315, R317). -/
def leafCause (flags : Nat) (write : Bool) : Nat :=
  if !pteBit flags 4 then 2
  else if (if write then !pteBit flags 2 else !pteBit flags 1) then 2
  else if !pteBit flags 6 || (write && !pteBit flags 7) then 3
  else 0

/-- What a walk gives: a cause of R317, or the leaf with the non-leaf entries read on the way. -/
inductive Walk where
  | bad (cause : Nat)
  | leaf (e : TlbEntry) (nodes : List TlbNode)
  deriving DecidableEq, Repr

/-- The leaf that an entry read at `level` for `vpn` gives, `none` when the entry is invalid: a
superpage must be aligned, and the only Svnapot form is 64 KiB (R315). -/
def leafEntry (h : Half) (asid : BitVec 16) (vpn level e : Nat) : Option TlbEntry :=
  let ppn := e / 2 ^ 10 % 2 ^ 44
  let span := 2 ^ (9 * level)
  let fl := BitVec.ofNat 8 e
  if level = 3 then none
  else if pteBit e 63 then
    if level = 0 ∧ ppn % 16 = 8 then some ⟨h, asid, vpn / 16 * 16, 16, ppn / 16 * 16, fl⟩ else none
  else if ppn % span ≠ 0 then none
  else some ⟨h, asid, vpn / span * span, span, ppn, fl⟩

/-- The walk from the table page at `table`, level by level (R315). -/
def walkFrom (h : Half) (asid : BitVec 16) (vpn : Nat) (write : Bool) :
    Nat → State → Nat → List TlbNode → State × Walk
  | lv, s, table, nodes =>
    let a := table + 8 * (vpn / 2 ^ (9 * lv) % 512)
    match pread s a 8 with
    | (s, none) => (s, .bad 6)
    | (s, some b) =>
      if b.poisoned then (s, .bad 5)
      else
        let e := leNat b.bytes
        let rwx := e / 2 % 8
        if !pteBit e 0 || rwx % 4 = 2 || e / 2 ^ 54 % 128 ≠ 0 then (s, .bad 1)
        else if rwx = 0 then
          if pteBit e 4 || pteBit e 6 || pteBit e 7 || pteBit e 63 then (s, .bad 1)
          else
            match lv with
            | 0 => (s, .bad 1)
            | k + 1 =>
              let t := e / 2 ^ 10 % 2 ^ 44 * 4096
              walkFrom h asid vpn write k s t (nodes ++ [⟨h, asid, k, vpn / 2 ^ (9 * (k + 1)), t⟩])
        else
          match leafEntry h asid vpn lv e with
          | none => (s, .bad 1)
          | some l =>
            let c := leafCause l.flags.toNat write
            if c ≠ 0 then (s, .bad c)
            else if 2 ^ 36 ≤ l.ppn + l.pages - 1 then (s, .bad 4)
            else (s, .leaf l nodes)
  termination_by structural lv => lv

/-- Log a translation fault (R317). -/
def xltFault (s : State) (h : Half) (sp : Space) (va cause : Nat) : State :=
  let f := Frame.xlt h
  let s := count s f 0x48 1
  let st := regWord s f.base
  if bitAt st 0 then regSetBits s f.base 2
  else
    let s := regSetBits s f.base 1
    let s := setReg64 s (f.base + 0x08) (va % 2 ^ 48)
    setReg s (f.base + 0x10) (BitVec.ofNat 32 (sp.queue.toNat + 2 ^ 12 * cause + 2 ^ 16 * sp.asid.toNat))

/-- Translate a virtual address in a space by the unit of half `h`: the physical address, or `none`
after a logged fault. A virtual address with a bit above 47 set has no translation, cause 1 (DEDUCED, log
entry 22). -/
def xlate (s : State) (h : Half) (sp : Space) (va : Nat) (write : Bool) : State × Option Nat :=
  let vpn := va / 4096
  let hit := s.xlt.find? fun e => e.h = h && e.asid = sp.asid && decide (e.vpn ≤ vpn ∧ vpn < e.vpn + e.pages)
  if 2 ^ 48 ≤ va then (xltFault s h sp va 1, none)
  else match hit with
  | some e =>
    let c := leafCause e.flags.toNat write
    if c ≠ 0 then (xltFault s h sp va c, none)
    else (s, some ((e.ppn + (vpn - e.vpn)) * 4096 + va % 4096))
  | none =>
    let s := count s (.xlt h) 0x40 1
    let node (k : Nat) : Option TlbNode :=
      s.xltNodes.find? fun n => n.h = h && n.asid = sp.asid && n.level = k && n.pre = vpn / 2 ^ (9 * (k + 1))
    let (lv, table) := match node 0, node 1, node 2 with
      | some n, _, _ => (0, n.table)
      | none, some n, _ => (1, n.table)
      | none, none, some n => (2, n.table)
      | none, none, none => (3, sp.root.toNat)
    match walkFrom h sp.asid vpn write lv s table [] with
    | (s, .bad c) => (xltFault s h sp va c, none)
    | (s, .leaf e nodes) =>
      ({ s with xlt := s.xlt ++ [e], xltNodes := s.xltNodes ++ nodes },
        some ((e.ppn + (vpn - e.vpn)) * 4096 + va % 4096))

/-- A unit's read by virtual address; a fault names its first failing byte. -/
def vread (s : State) (h : Half) (sp : Space) (va n : Nat) : State × Except FaultAt PBytes :=
  (chunks va n).foldl (fun r c =>
    match r with
    | (s, .error e) => (s, .error e)
    | (s, .ok acc) =>
      match xlate s h sp c.1 false with
      | (s, none) => (s, .error ⟨stTranslation, BitVec.ofNat 64 c.1⟩)
      | (s, some pa) =>
        if served s pa then
          let (s, d, p) := unitRead s (pa / 128)
          (s, .ok (acc ++ (bslice d (pa % 128) c.2).map fun b => (b, p)))
        else (s, .error ⟨stBus, BitVec.ofNat 64 c.1⟩)) (s, .ok [])

/-- The outcome of a write by virtual address: the fault that stopped it and the bytes written. -/
structure Wrote where
  fault : Option FaultAt
  bytes : Nat
  deriving DecidableEq, Repr

/-- A unit's write by virtual address in ascending lines, stopping at the first that fails. A fault names the first
byte of the output in its line (R117; DESIGN CHOICE, log entry 44). -/
def vwrite (s : State) (h : Half) (sp : Space) (va : Nat) (b : List Byte) (pois : Nat → Bool) : State × Wrote :=
  (chunks va b.length).foldl (fun r c =>
    match r.2.fault with
    | some _ => r
    | none =>
      match xlate r.1 h sp c.1 true with
      | (s, none) => (s, { r.2 with fault := some ⟨stTranslation, BitVec.ofNat 64 c.1⟩ })
      | (s, some pa) =>
        if served s pa then
          let k := c.1 - va
          let p := (List.range c.2).any fun i => pois (k + i)
          (keepOld s (unitWrite s pa (bslice b k c.2) p) sp.queue.toNat (pa / 128), { r.2 with bytes := r.2.bytes + c.2 })
        else (s, { r.2 with fault := some ⟨stBus, BitVec.ofNat 64 c.1⟩ })) (s, ⟨none, 0⟩)

/-- The lines of a stopped output after the failing one, from byte `start` on: each is written or left,
an undefined choice, and none reports a fault (R117). The pieces written are given back. -/
def vwriteRest (s : State) (h : Half) (sp : Space) (va : Nat) (b : List Byte) (pois : Nat → Bool) (start : Nat) :
    State × List (Nat × Nat) :=
  ((chunks va b.length).filter fun c => start ≤ c.1 - va).foldl (fun r c =>
    let f := freshBit r.1
    if f.2 then
      match xlate f.1 h sp c.1 true with
      | (_, none) => (f.1, r.2)
      | (s, some pa) =>
        if served s pa then
          let k := c.1 - va
          (keepOld s (unitWrite s pa (bslice b k c.2) ((List.range c.2).any fun i => pois (k + i))) sp.queue.toNat (pa / 128),
            r.2 ++ [(k, c.2)])
        else (f.1, r.2)
    else (f.1, r.2)) (s, [])

/-! ### Gauges -/

/-- The key of a gauge set: owner kind and index of R62. -/
def gaugeKey (kind idx : Nat) : Nat := kind * 2 ^ 28 + idx

def gaugeOf (s : State) (key : Nat) : Gauge := sget gaugeZero s.gauges key

/-- Count conversions in a gauge set (R59 to R61). -/
def gaugeAdd (s : State) (key : Nat) (l : List Conv) : State :=
  if l.isEmpty then s else { s with gauges := sset s.gauges key ((gaugeOf s key).countAll l) }

/-- Clear a gauge set (R61). -/
def gaugeClr (s : State) (key : Nat) : State := { s with gauges := sdel s.gauges key }

/-! ### The event log -/

/-- An entry of R421. -/
def logEntry (s : State) (code sev : Nat) (payload : List Byte) : List Byte :=
  let b := leBytes 8 s.tick.toNat ++ leBytes 4 s.flash.cycles.toNat ++ leBytes 4 s.col.logNext ++
    leBytes 2 code ++ leBytes 1 sev ++ leBytes 1 0 ++ bslice payload 0 40
  b ++ leBytes 4 (crc32 b).toNat

/-- COL_LOG_CFG.FLASH_MIN, 5 to 7 acting as 4 (R422). -/
def flashMin (s : State) : Nat := min 4 (field (regWord s (Frame.col.base + 0x184)) 2 0)

/-- Copy one entry to the flash ring, erasing a sector when its first slot is entered (R422). -/
def flashPut (s : State) (e : List Byte) : State :=
  let p := s.flash.logHead.toNat
  let base := if p % 1024 = 0 then s.flash.log.filter fun x => x.1 / 1024 ≠ p / 1024 else s.flash.log
  { s with flash := { s.flash with log := sset base p e, logHead := s.flash.logHead + 1 } }

/-- Copy what is due among the sequence numbers from `col.logFlashed` on below `lim` (R422). -/
def flashCopy : Nat → Nat → State → State
  | 0, _, s => s
  | fuel + 1, lim, s =>
    let n := s.col.logFlashed
    if lim ≤ n then s
    else
      let e := sget [] s.col.log (n % 4096)
      let s := if flashMin s ≤ bget e 18 1 ∧ bget e 12 4 = n then flashPut s e else s
      flashCopy fuel lim { s with col := { s.col with logFlashed := n + 1 } }

/-- Log an event; severity 4 reaches flash at once (R422). -/
def logPut (s : State) (code sev : Nat) (payload : List Byte) : State :=
  let e := logEntry s code sev payload
  let n := s.col.logNext
  let s := { s with col := { s.col with log := sset s.col.log (n % 4096) e, logNext := n + 1 } }
  if sev = 4 then flashCopy 4096 (n + 1) { s with col := { s.col with logFlashed := max s.col.logFlashed (n + 1 - 4096) } } else s

/-! ### Completions -/

/-- Whether a completion already reported is posted before one of command `o`: it came at an earlier tick, or at this one
for a lower queue, or the same queue and no higher slot (R192). -/
def postsBefore (s : State) (o : OutCmd) (i : Nat) : Bool :=
  match s.outs.find? fun p => p.id = i with
  | none => true
  | some p =>
    p.done.any (fun d => d.tick ≠ s.tick) || decide (p.queue.toNat < o.queue.toNat)
      || (p.queue = o.queue && decide (p.slot.toNat ≤ o.slot.toNat))

/-- The place of a completion among those reported and not posted (R192). -/
def reportIn (s : State) (o : OutCmd) : List Nat → List Nat
  | [] => [o.id]
  | i :: t => if postsBefore s o i then i :: reportIn s o t else o.id :: i :: t

/-- A unit reports command `id` complete (R192); a command reported already, or gone, is left. Completions of one tick
reach the Scribe together (DESIGN CHOICE, log entry 13). That of a Blotter command makes its writes visible (R182). -/
def report (s : State) (id : Nat) (st : BitVec 8) (d0 d1 : Nat) : State :=
  match s.outs.find? fun o => o.id = id && o.done.isNone with
  | none => s
  | some o =>
    let s := if o.op.toNat / 16 = 5 then visible s (· = o.queue.toNat) else s
    { s with outs := s.outs.map fun p =>
               if p.id = id then { p with done := some ⟨st, BitVec.ofNat 64 d0, BitVec.ofNat 64 d1, s.tick⟩ } else p
             reported := reportIn s o s.reported }

/-- Report when a command stands behind an operation. -/
def reportOpt (s : State) (id : Option Nat) (st : BitVec 8) (d0 d1 : Nat) : State :=
  match id with
  | none => s
  | some i => report s i st d0 d1

/-- A server core not yet started. -/
def coreReset : Core where
  running := false
  nmi := false
  result := 0
  exc := none
  lr := none
  mncause := 0
  machine := false
  pc := 0
  a0 := 0
  a1 := 0

/-- Add a message that leaves. -/
def send (s : State) (m : Sent) : State := { s with sent := s.sent ++ [m] }

/-- A command of the model: always a next state. -/
abbrev Out := Host.Outcome State Fault Refusal

end Sys2Proof.Machine
end

