-- ==== Sys2Proof/Machine/Scribe.lean ====
section
/-! DEFINITION. Submission queues, completion queues, semaphores and the gate that every Jalcel
command passes at dispatch (R169 to R198, R428, R435, R469). -/

namespace Sys2Proof.Machine
open Sys2Proof

/-- Whether a half offers training service (R446). -/
def trains (s : State) (h : Half) : Bool :=
  !halfFenced s h && !(liveStacks s h).isEmpty && (List.range 144).any (fun q => !quireFenced s ⟨h, quireFin q⟩)
    && (s.col.hostHalf = some h || !ligFenced s)
/-- Whether Inkstone and Nib commands complete with FENCED_UNIT for want of it in either half (R446). -/
def noTraining (s : State) : Bool := !trains s 0 && !trains s 1

/-! ### Tables of the Scribe -/

/-- A queue after reset. -/
def queueReset : Queue where
  enabled := false
  halted := false
  cqFault := false
  fetchFault := false
  wbFault := false
  waiting := false
  base := 0
  log2 := 0
  prio := 0
  asid := 0
  root := 0
  headWb := 0
  head := 0
  tail := 0

/-- A completion queue after reset; PHASE is 1 in the first pass (R190). -/
def cqReset : Cq where
  enabled := false
  fault := false
  msiFault := false
  base := 0
  log2 := 0
  msiAddr := 0
  msiData := 0
  head := 0
  wr := 0
  phase := true
  used := 0
  epoch := 0

def queueOf (s : State) (q : Nat) : Queue := sget queueReset s.queues q
def setQueue (s : State) (q : Nat) (v : Queue) : State := { s with queues := sset s.queues q v }
def cqKey (h : Half) (cq : Nat) : Nat := 4096 * h.val + cq
def cqOf (s : State) (h : Half) (cq : Nat) : Cq := sget cqReset s.cqs (cqKey h cq)
def setCq (s : State) (h : Half) (cq : Nat) (v : Cq) : State := { s with cqs := sset s.cqs (cqKey h cq) v }
def scbOf (s : State) (h : Half) : Scb := sget ⟨.off, []⟩ s.scb h.val
def setScb (s : State) (h : Half) (v : Scb) : State := { s with scb := sset s.scb h.val v }
def semOf (s : State) (i : Nat) : Word := sget 0 s.sems i

/-- Whether any queue of either Scribe is enabled (R428, R451). -/
def anyQueueEnabled (s : State) : Bool := s.queues.any fun p => p.2.enabled

/-- An index in a ring of 2^log2 slots. -/
def ringIdx (log2 : BitVec 8) (i : Nat) : BitVec 16 := BitVec.ofNat 16 (i % 2 ^ log2.toNat)

/-- The address space of a queue (R170). -/
def queueSpace (s : State) (q : Nat) : Space :=
  ⟨BitVec.ofNat 12 q, (queueOf s q).asid, (queueOf s q).root⟩

/-! ### Posted writes (R435) -/

def frameKey (f : Frame) : Nat := f.base / 65536

/-- Whether a posted write of the frame is in progress. -/
def frameBusy (s : State) (f : Frame) : Bool := shas s.frames.posted (frameKey f)

/-- A posted write that is in progress until POSTED_WRITE_DONE, or is discarded with WDROP when one
already is (R435; DESIGN CHOICE, log entry 8). -/
def postedOp (s : State) (f : Frame) (g : State → State) : State :=
  if frameBusy s f then { s with frames := { s.frames with wdrop := ninsert s.frames.wdrop (frameKey f) } }
  else g { s with frames := { s.frames with posted := sset s.frames.posted (frameKey f) .taken } }

/-- A write to a register that holds nothing but guarded fields (R433): with the frame's lock open it is
accepted and closes the lock, otherwise GUARD_VIOL is set. -/
def guardOp (s : State) (f : Frame) (g : State → State) : State :=
  if s.frames.lock.contains (frameKey f) then
    g { s with frames := { s.frames with lock := s.frames.lock.filter fun k => k ≠ frameKey f } }
  else { s with frames := { s.frames with gviol := ninsert s.frames.gviol (frameKey f) } }

/-! ### Features (R428) -/

/-- Whether feature bit `i` is in COL_FEATURES_ON. -/
def featureOn (s : State) (i : Nat) : Bool := regWord64 s (Frame.col.base + 0x30) / 2 ^ i % 2 = 1

/-- COL_FW_FEATURES: what the firmware publishes; bits 8 to 63 are clear in firmware for this part. -/
def fwFeatures (s : State) : Nat := if 1 ≤ s.col.stage then Config.fwFeatures.toNat else 0

/-- Take the driver's features into effect (R428). -/
def applyFeatures (s : State) : State :=
  let on := regWord64 s (Frame.col.base + 0x28) &&& fwFeatures s
  let s := setReg64 s (Frame.col.base + 0x30) on
  { s with col := { s.col with featPend := false } }

/-- A pending write of COL_DRV_FEATURES applies when the last queue is disabled (R428). -/
def settleFeatures (s : State) : State := if s.col.featPend && !anyQueueEnabled s then applyFeatures s else s

/-! ### The opcode table (R183, R428) -/

/-- The feature an opcode needs. NOP needs none; what the Feed's stream commands need depends on their
stream, and REGION_UPDATE also needs RULER in one case (R428). -/
def opFeature (op : Nat) : Option Nat :=
  if 0x01 ≤ op ∧ op ≤ 0x30 ∨ op = 0x70 ∨ op = 0x71 then some 0
  else if 0x40 ≤ op ∧ op ≤ 0x44 then some 1
  else if 0x50 ≤ op ∧ op ≤ 0x52 then some 2
  else if op = 0x64 then some 6
  else none

/-- The target kind of an opcode (R183). -/
def opKind (op : Nat) : Nat :=
  if op ≤ 0x03 then 0 else if op = 0x10 then 1 else if op = 0x20 then 2 else if op = 0x30 then 3
  else if op / 16 = 4 then 4 else if op / 16 = 5 then 6 else if op / 16 = 6 then 5 else 7

/-- LENGTH of an opcode with a fixed one (R183 and the chapters of its unit). -/
def opLength (op : Nat) : Nat :=
  match op with
  | 0x00 => 0 | 0x02 => 4 | 0x03 => 20 | 0x10 => 224 | 0x20 => 40 | 0x30 => 8
  | 0x40 => 8 | 0x41 => 12 | 0x42 => 8 | 0x43 => 4 | 0x44 => 4
  | 0x50 => 32 | 0x51 => 16 | 0x52 => 8
  | 0x60 => 16 | 0x61 => 16 | 0x62 => 4 | 0x63 => 4 | 0x64 => 24
  | 0x70 => 16 | 0x71 => 16
  | _ => 0

/-- Whether an opcode is one the tables list (R183). -/
def opKnown (op : Nat) : Bool :=
  [0x00, 0x01, 0x02, 0x03, 0x10, 0x20, 0x30, 0x40, 0x41, 0x42, 0x43, 0x44, 0x50, 0x51, 0x52, 0x60, 0x61, 0x62, 0x63,
    0x64, 0x70, 0x71].contains op

def fenceOrder (f : BitVec 16) : Bool := bitAt f 0
def fenceVisibleBit (f : BitVec 16) : Bool := bitAt f 1
def fenceWait (f : BitVec 16) : Bool := bitAt f 2
def fenceSignal (f : BitVec 16) : Bool := bitAt f 3
def targetIndex (t : BitVec 32) : Nat := field t 15 4

/-- Whether the header breaks its layout (R174 to R177, R195). -/
def headerBad (s : State) (op : Nat) (h : JHeader) : Bool :=
  let kind := field h.target 3 0
  let idx := targetIndex h.target
  field h.flags 7 3 ≠ 0 || field h.fence 15 4 ≠ 0 || field h.cq 15 12 ≠ 0 || field h.target 31 16 ≠ 0
  || !opKnown op || kind ≠ opKind op
  || (if kind = 1 then 144 ≤ idx else if kind = 2 then 2304 ≤ idx else if kind = 3 then 64 ≤ idx else idx ≠ 0)
  || (if op = 1 then h.length = 0 || 224 < h.length.toNat else h.length.toNat ≠ opLength op)
  || (op ≠ 1 && h.aux ≠ 0)
  || (fenceWait h.fence && 2047 < h.waitSem.toNat) || (fenceSignal h.fence && 2047 < h.signalSem.toNat)
  || (match opFeature op with | none => false | some b => !featureOn s b)

/-! ### Semaphores -/

/-- Whether value `v` satisfies threshold `t` (R179). -/
def semSatisfies (v t : Word) : Bool := (v - t).toNat < 2 ^ 31

/-- Signal a semaphore: it only moves forward (R180). -/
def semSignal (s : State) (i : Nat) (v : Word) : State :=
  let d := (v - semOf s i).toNat
  if 1 ≤ d ∧ d < 2 ^ 31 then { s with sems := sset s.sems i v } else s

/-! ### The gate -/

/-- Whether a queue can dispatch at all: its Scribe runs, the queue is enabled and not halted, and the
ring holds a command (R171, R197, R198). -/
def queueLive (s : State) (q : Nat) : Bool :=
  let v := queueOf s q
  alive s && !halfFenced s (queueHalf q) && decide ((scbOf s (queueHalf q)).run = .running)
    && v.enabled && !v.halted && decide (v.head ≠ v.tail)

/-- Whether an earlier command of the queue has not completed (R176 ORDER). -/
def earlierOut (s : State) (q : Nat) : Bool := s.outs.any fun o => o.queue.toNat = q

/-- Whether the head command is held by its fences, its completion queue or its target (R173). -/
def gateHeld (s : State) (c : JCmd) (order targetHeld : Bool) : Bool :=
  let q := c.queue.toNat
  let cq := cqOf s (queueHalf q) (field c.hdr.cq 11 0)
  ((order || fenceOrder c.hdr.fence) && earlierOut s q)
  || (fenceWait c.hdr.fence && c.hdr.waitSem.toNat ≤ 2047 && !semSatisfies (semOf s c.hdr.waitSem.toNat) c.hdr.waitValue)
  || targetHeld
  || decide (2 ^ cq.log2.toNat ≤ cq.used)

/-- Write the head back to HEAD_WB; a write that fails halts the queue (R171, R469). -/
def writeHead (s : State) (q : Nat) : State :=
  let v := queueOf s q
  if v.headWb = 0 then s
  else
    let r := pwrite s v.headWb.toNat (leBytes 4 v.head.toNat)
    if r.2 then r.1 else setQueue r.1 q { v with halted := true, wbFault := true }

/-- The record of a dispatched command. -/
def outCmd (s : State) (c : JCmd) (op : Nat) : OutCmd where
  id := s.nextId
  queue := c.queue
  slot := (queueOf s c.queue.toNat).head
  op := BitVec.ofNat 16 op
  flags := c.hdr.flags
  fence := c.hdr.fence
  cq := c.hdr.cq.setWidth 12
  cqEpoch := (cqOf s (queueHalf c.queue.toNat) (field c.hdr.cq 11 0)).epoch
  sem := c.hdr.signalSem
  value := c.hdr.signalValue
  scope := BitVec.ofNat 32 (bget c.body 0 4)
  done := none

/-- Dispatch: the head moves on, an entry is reserved, and the command is outstanding (R171, R191). -/
def takeHead (s : State) (c : JCmd) (op : Nat) : State :=
  let q := c.queue.toNat
  let h := queueHalf q
  let v := queueOf s q
  let n := field c.hdr.cq 11 0
  let cq := cqOf s h n
  let o := outCmd s c op
  let s := { s with outs := s.outs ++ [o], nextId := s.nextId + 1 }
  let s := setCq s h n { cq with used := cq.used + 1 }
  let s := setQueue s q { v with head := ringIdx v.log2 (v.head.toNat + 1), waiting := false }
  let scb := scbOf s h
  let s := setScb s h { scb with rr := sset scb.rr v.prio.toNat q }
  writeHead (count s (.scb h) 0x40 1) q

/-- A head command at its dispatch (R173, R191, R194 to R196): a completion queue that is not enabled
halts the queue, a hold leaves it waiting, and otherwise it is dispatched and completes with
MALFORMED_COMMAND, FENCED_UNIT or DATA_POISON, or starts. `start` is given its id. -/
def gate (s : State) (c : JCmd) (op : Nat) (poison order bad fenced held : Bool) (start : Nat → State → State) : State :=
  let q := c.queue.toNat
  let v := queueOf s q
  if !queueLive s q then s
  else if !(cqOf s (queueHalf q) (field c.hdr.cq 11 0)).enabled then
    setQueue s q { v with halted := true, cqFault := true, waiting := false }
  else
    let bad := headerBad s op c.hdr || bad
    if gateHeld s c order (held && !poison && !bad && !fenced) then setQueue s q { v with waiting := true }
    else
      let id := s.nextId
      let s := takeHead s c op
      if poison then report s id stDataPoison 0 0
      else if bad then report s id stMalformed 0 0
      else if fenced then report s id stFenced 0 0
      else start id s

/-! ### Completion -/

/-- Reserved entries of a completion queue: outstanding commands that name it in its current epoch. -/
def cqReserved (s : State) (h : Half) (n : Nat) : Nat :=
  (s.outs.filter fun o => queueHalf o.queue.toNat = h && o.cq.toNat = n && o.cqEpoch = (cqOf s h n).epoch).length

/-- The queues in a FENCE_VISIBLE's scope (R185). -/
def fenceCovers (o : OutCmd) (q : Nat) : Bool :=
  if o.scope = 0 then q = o.queue.toNat else if o.scope = 1 then queueHalf q = queueHalf o.queue.toNat else true

/-- Whether every command in a FENCE_VISIBLE's scope has completed (R185). -/
def fenceDone (s : State) (o : OutCmd) : Bool := !s.outs.any fun p => p.id < o.id && fenceCovers o p.queue.toNat

/-- Report every FENCE_VISIBLE whose scope is done, its writes visible (R185). -/
def settleFences (s : State) : State :=
  s.outs.foldl (fun s o =>
    if o.op = 0x0002 && o.done.isNone && fenceDone s o then report (visible s (fenceCovers o)) o.id stOk 0 0 else s) s

/-- A completion entry (R190). -/
def cqEntry (o : OutCmd) (d : Done) (phase : Bool) : List Byte :=
  leBytes 2 o.queue.toNat ++ [d.status] ++ [if phase then 1 else 0] ++ leBytes 2 o.slot.toNat ++
    leBytes 2 o.op.toNat ++ leBytes 8 d.tick.toNat ++ leBytes 8 d.d0.toNat ++ leBytes 8 d.d1.toNat

/-- Post an entry and its notification; a failed entry write disables the completion queue, and a
failed notification is recorded (R190, R469). `failE` and `failM` say that the write itself fails. -/
def postEntry (s : State) (h : Half) (o : OutCmd) (d : Done) (failE failM : Bool) : State :=
  let n := o.cq.toNat
  let cq := cqOf s h n
  let w := if failE then (s, false) else pwrite s (cq.base.toNat + 32 * cq.wr.toNat) (cqEntry o d cq.phase)
  if !w.2 then
    setCq w.1 h n { cq with
      enabled := false, fault := true, used := cq.used - 1 - cqReserved w.1 h n, epoch := cq.epoch + 1 }
  else
    let nx := ringIdx cq.log2 (cq.wr.toNat + 1)
    let s := setCq w.1 h n { cq with wr := nx, phase := if nx = 0 then !cq.phase else cq.phase }
    if bitAt o.flags 1 && cq.msiAddr ≠ 0 then
      let m := if failM then (s, false) else pwrite s cq.msiAddr.toNat (leBytes 4 cq.msiData.toNat)
      if m.2 then m.1 else setCq m.1 h n { cqOf m.1 h n with msiFault := true }
    else s

/-- Whether a command posts an entry (R175): always with CQE, else for a status other than OK. -/
def postsEntry (o : OutCmd) (d : Done) : Bool := bitAt o.flags 0 || d.status ≠ stOk

/-- Post one reported completion, with VISIBLE after its writes are visible (R175, R181, R182, R190 to R192, R197). -/
def completeCmd (s : State) (o : OutCmd) (d : Done) (failE failM : Bool) : State :=
  let h := queueHalf o.queue.toNat
  let n := o.cq.toNat
  let cq := cqOf s h n
  let s := { s with outs := s.outs.filter fun p => p.id ≠ o.id, reported := s.reported.filter fun i => i ≠ o.id }
  let s := if fenceVisibleBit o.fence then visible s (· = o.queue.toNat) else s
  let s := if d.status = stMalformed then count s (.scb h) 0x48 1 else s
  let s :=
    if cq.enabled && cq.epoch = o.cqEpoch then
      if postsEntry o d then postEntry s h o d failE failM else setCq s h n { cq with used := cq.used - 1 }
    else s
  let q := queueOf s o.queue.toNat
  let s := if bitAt o.flags 2 && statusIsError d.status then setQueue s o.queue.toNat { q with halted := true } else s
  let s := if fenceSignal o.fence && o.sem.toNat ≤ 2047 then { s with sigs := s.sigs ++ [⟨h, o.queue, o.sem, o.value⟩] } else s
  settleFences s

/-- The first reported completion that a Scribe has to post. -/
def nextDone (s : State) (h : Half) : Option (OutCmd × Done) :=
  s.reported.findSome? fun i =>
    (s.outs.find? fun o => o.id = i && queueHalf o.queue.toNat = h).bind fun o => o.done.map fun d => (o, d)

/-- Whether a Scribe still posts: it runs, or has stopped at a command boundary (R198). -/
def scbPosts (s : State) (h : Half) : Bool :=
  alive s && ((scbOf s h).run = .running || (scbOf s h).run = .stopped)

/-! ### Register and event commands of the Scribe -/

/-- SCB_DOORBELL (R169, R172). -/
def doorbell (s : State) (h : Half) (q tail : Nat) : State :=
  if halfFenced s h then s
  else
    let v := queueOf s q
    if queueHalf q = h && v.enabled then setQueue s q { v with tail := ringIdx v.log2 tail }
    else count s (.scb h) 0x50 1

/-- SCB_CQ_DOORBELL (R190, R191). -/
def cqDoorbell (s : State) (h : Half) (n head : Nat) : State :=
  if halfFenced s h then s
  else
    let v := cqOf s h n
    if v.enabled then
      let nh := ringIdx v.log2 head
      let d := (2 ^ v.log2.toNat + nh.toNat - v.head.toNat) % 2 ^ v.log2.toNat
      setCq s h n { v with head := nh, used := v.used - min d (v.used - cqReserved s h n) }
    else count s (.scb h) 0x50 1

/-- Whether a queue-table entry keeps its layout (R170). -/
def queueEntryOk (b : List Byte) : Bool :=
  bget b 0 8 % 4096 = 0 && 4 ≤ bget b 8 1 && bget b 8 1 ≤ 16 && bget b 9 1 / 8 = 0 && bget b 0x0C 4 = 0
    && bget b 0x18 8 % 4 = 0 && allZero (bslice b 0x20 32)

/-- A failed enable (R170, R451). -/
def qctlFail (s : State) (h : Half) : State := regSetBits s ((Frame.scb h).base + 0x28) 2

/-- The boundary "queue enable": SCB_QTABLE and SCB_CQTABLE become active together, at the enable of a queue or
completion queue that reads its table (R436; that either enable is the boundary of both is DESIGN CHOICE, log entry
48). -/
def scbBoundary (s : State) (h : Half) : State :=
  let b := (Frame.scb h).base
  applyShadow s [b + 0x10, b + 0x14, b + 0x18, b + 0x1C]

/-- SCB_QCTL enable (R170, R451): the entry is read and checked. -/
def qctlEnable (s : State) (h : Half) (q : Nat) : State :=
  if s.drv.st ≠ .attached || queueHalf q ≠ h || !alive s then qctlFail s h
  else if (queueOf s q).enabled then s
  else
    let s := scbBoundary s h
    match pread s (regAct64 s ((Frame.scb h).base + 0x10) + 64 * (q % 2048)) 64 with
    | (s, none) => qctlFail s h
    | (s, some pb) =>
      let b := pb.bytes
      if pb.poisoned || !queueEntryOk b then qctlFail s h
      else
        setQueue s q { queueOf s q with
          enabled := true
          base := BitVec.ofNat 64 (bget b 0 8)
          log2 := BitVec.ofNat 8 (bget b 8 1)
          prio := BitVec.ofNat 8 (bget b 9 1)
          asid := BitVec.ofNat 16 (bget b 0x0A 2)
          root := BitVec.ofNat 64 (bget b 0x10 8)
          headWb := BitVec.ofNat 64 (bget b 0x18 8) }

/-- SCB_QCTL disable (R170). -/
def qctlDisable (s : State) (h : Half) (q : Nat) : State :=
  if queueHalf q = h then settleFeatures (setQueue s q { queueOf s q with enabled := false, waiting := false }) else s

/-- SCB_QCTL reset (R197). -/
def qctlReset (s : State) (h : Half) (q : Nat) : State :=
  if queueHalf q = h then
    settleFeatures (setQueue s q { queueOf s q with
      enabled := false, waiting := false, halted := false, cqFault := false, fetchFault := false, wbFault := false
      head := 0, tail := 0 })
  else s

/-- Whether a completion-queue table entry keeps its layout (R189). -/
def cqEntryOk (b : List Byte) : Bool :=
  bget b 0 8 % 4096 = 0 && 4 ≤ bget b 8 1 && bget b 8 1 ≤ 16 && allZero (bslice b 9 7) && bget b 0x1C 4 = 0

/-- SCB_CQCTL enable (R189). -/
def cqctlEnable (s : State) (h : Half) (n : Nat) : State :=
  if !alive s then qctlFail s h
  else if (cqOf s h n).enabled then s
  else
    let s := scbBoundary s h
    match pread s (regAct64 s ((Frame.scb h).base + 0x18) + 32 * n) 32 with
    | (s, none) => qctlFail s h
    | (s, some pb) =>
      let b := pb.bytes
      if pb.poisoned || !cqEntryOk b then qctlFail s h
      else
        setCq s h n { cqOf s h n with
          enabled := true, fault := false
          base := BitVec.ofNat 64 (bget b 0 8)
          log2 := BitVec.ofNat 8 (bget b 8 1)
          msiAddr := BitVec.ofNat 64 (bget b 0x10 8)
          msiData := BitVec.ofNat 32 (bget b 0x18 4) }

/-- SCB_CQCTL disable (R189): entries of commands still outstanding will be discarded (R469). -/
def cqctlDisable (s : State) (h : Half) (n : Nat) : State :=
  let v := cqOf s h n
  if v.enabled then setCq s h n { v with enabled := false, used := v.used - cqReserved s h n, epoch := v.epoch + 1 } else s

/-- SCB_CQCTL reset (R197). -/
def cqctlReset (s : State) (h : Half) (n : Nat) : State :=
  let v := cqOf s h n
  setCq s h n { v with enabled := false, fault := false, msiFault := false, head := 0, wr := 0, phase := true, used := 0
                       epoch := v.epoch + 1 }

/-- An SCB posted operation on a live half. -/
def scbPosted (s : State) (h : Half) (g : State → State) : State :=
  if halfFenced s h then s else postedOp s (.scb h) g

def execScbDoorbell (h : Half) (q : BitVec 12) (tail : BitVec 16) (s : State) : Out := .next (doorbell s h q.toNat tail.toNat)
def execScbCqDoorbell (h : Half) (n : BitVec 12) (head : BitVec 16) (s : State) : Out :=
  .next (cqDoorbell s h n.toNat head.toNat)
def execQueueEnable (h : Half) (q : BitVec 12) (s : State) : Out := .next (scbPosted s h fun s => qctlEnable s h q.toNat)
def execQueueDisable (h : Half) (q : BitVec 12) (s : State) : Out := .next (scbPosted s h fun s => qctlDisable s h q.toNat)
def execQueueReset (h : Half) (q : BitVec 12) (s : State) : Out := .next (scbPosted s h fun s => qctlReset s h q.toNat)
def execCqEnable (h : Half) (n : BitVec 12) (s : State) : Out := .next (scbPosted s h fun s => cqctlEnable s h n.toNat)
def execCqDisable (h : Half) (n : BitVec 12) (s : State) : Out := .next (scbPosted s h fun s => cqctlDisable s h n.toNat)
def execCqReset (h : Half) (n : BitVec 12) (s : State) : Out := .next (scbPosted s h fun s => cqctlReset s h n.toNat)

/-- SCB_SEM_VALUE sets the selected semaphore directly (R180). -/
def execScbSemValueWrite (h : Half) (v : BitVec 32) (s : State) : Out :=
  .next (scbPosted s h fun s =>
    { s with sems := sset s.sems (1024 * h.val + field (regWord s ((Frame.scb h).base + 0x38)) 9 0) v })

/-- A slot read that fails outright (R171). -/
def slotFail (s : State) (q : Nat) : State :=
  if queueLive s q then setQueue s q { queueOf s q with halted := true, fetchFault := true, waiting := false } else s

def execSlotFetchFail (q : BitVec 12) (s : State) : Out := .next (slotFail s q.toNat)

/-- A completion is posted (R192). -/
def execCommandCompletion (h : Half) (s : State) : Out :=
  if scbPosts s h then
    match nextDone s h with
    | none => .next s
    | some (o, d) => .next (completeCmd s o d false false)
  else .next s

/-- The first waiting signal of a Scribe is performed: its command has completed and its writes are
visible from now on (R181, R182). -/
def execSemaphoreSignal (h : Half) (s : State) : Out :=
  if alive s then
    match findIdx? (fun g => decide (g.h = h)) s.sigs with
    | none => .next s
    | some i =>
      match s.sigs[i]? with
      | none => .next s
      | some g => .next (semSignal { visible s (· = g.queue.toNat) with sigs := dropAt s.sigs i } g.sem.toNat g.value)
  else .next s

/-- A head write-back fails (R469). -/
def execHeadWbFail (q : BitVec 12) (s : State) : Out :=
  let v := queueOf s q.toNat
  if alive s && v.enabled && v.headWb ≠ 0 then .next (setQueue s q.toNat { v with halted := true, wbFault := true })
  else .next s

/-- A completion-entry write fails (R469). -/
def execCqEntryWriteFail (h : Half) (n : BitVec 12) (s : State) : Out :=
  if scbPosts s h then
    match nextDone s h with
    | none => .next s
    | some (o, d) =>
      if o.cq = n && postsEntry o d then .next (completeCmd s o d true false) else .next s
  else .next s

/-- A notification write fails (R469). -/
def execMsiWriteFail (h : Half) (n : BitVec 12) (s : State) : Out :=
  if scbPosts s h then
    match nextDone s h with
    | none => .next s
    | some (o, d) =>
      if o.cq = n && postsEntry o d && bitAt o.flags 1 && (cqOf s h n.toNat).msiAddr ≠ 0 then .next (completeCmd s o d false true) else .next s
  else .next s

end Sys2Proof.Machine
end

