-- ==== Sys2Proof/Machine/Ruler.lean ====
section
/-! DEFINITION. The Ruler (R255 to R260). -/

namespace Sys2Proof.Machine
open Sys2Proof

/-- A group's settings after reset. -/
def rulSetReset : RulSet := ⟨0x10, 0, 0, 0x3F800000, 0, 1, 1⟩
def rulReset : Rul := ⟨rulSetReset, rulSetReset, none, false⟩
def rulOf (s : State) (g : Nat) : Rul := sget rulReset s.ruls g
def setRul (s : State) (g : Nat) (v : Rul) : State := { s with ruls := sset s.ruls g v }

/-- The binary64 value of an FP32 register. -/
def f64of32 (b : Nat) : Nat := rnd64 (val32 b)

def RulSet.shape (r : RulSet) : Nat := let x := field r.ctl 2 0; if 4 < x then 0 else x
def RulSet.restart (r : RulSet) : Bool := bitAt r.ctl 3
def RulSet.mult (r : RulSet) : Nat := max 1 (min 16 (field r.ctl 8 4))

/-- The restarts of R255: the period that holds `tau`, and `tau` in it. -/
def restartGo (mult : Nat) : Nat → Nat → Nat → Nat × Nat
  | 0, tau, per => (tau, per)
  | fuel + 1, tau, per =>
    if per ≤ tau ∧ per < 2 ^ 48 then restartGo mult fuel (tau - per) (per * mult) else (tau, per)

/-- fp32() of R255: RNE, saturating. -/
def rulOut (r : Nat) : Nat := (fmtFP32.conv .rne 1 0 (val64 r)).bits

/-- The Ruler value of a group's settings at t (R255). -/
def ruler (g : RulSet) (t : Nat) : Nat :=
  let peak := f64of32 g.peak.toNat
  let lo := mul64 peak (f64of32 g.minRatio.toNat)
  let w := g.warmup.toNat
  if 0 < w ∧ t ≤ w then rulOut (mul64 peak (div64 (ofNat64 t) (ofNat64 w)))
  else
    let tau := t - w
    let (d, x) :=
      if g.restart then
        let per := max g.period.toNat 1
        if g.mult = 1 then (per, tau % per)
        else let r := restartGo g.mult 64 tau per; (r.2, r.1)
      else
        let d := max g.decay.toNat 1
        (d, min tau d)
    let p := div64 (ofNat64 x) (ofNat64 d)
    match g.shape with
    | 1 => rulOut (add64 lo (mul64 (sub64 peak lo) (sub64 one64 p)))
    | 2 => rulOut (add64 lo (mul64 (sub64 peak lo) (mul64 0x3FE0000000000000 (add64 one64 (cospi p)))))
    | 3 =>
      let n := ofNat64 (max w 1)
      rulOut (max64 lo (mul64 peak (sqrt64 (div64 n (add64 (ofNat64 x) n)))))
    | 4 => rulOut (if (val64 peak).isZero then lo else max64 lo (mul64 peak (powBin (f64of32 g.gamma.toNat) x)))
    | _ => rulOut peak

/-- An update of the group starts at t: the shadow settings become active when t is new (R258). It starts when its
descriptor, which names the group, and its body are found valid (DEDUCED, log entry 52). -/
def rulStart (s : State) (g t : Nat) : State :=
  let r := rulOf s g
  if r.lastT.all (· < t) then setRul s g { r with ac := r.sh, lastT := some t } else s

/-- The selected group. -/
def rulSel (s : State) : Nat := field (regWord s Frame.rul.base) 7 0

/-- Whether an update of the group is between its Ruler evaluation and its completion (R258). -/
def rulBusy (s : State) (g : Nat) : Bool :=
  s.upds.any fun p => 7 ≤ p.2.stage && !bitAt p.2.uctl 0 && p.2.desc.any fun d => field d.ctl 23 16 = g

/-- RUL_APPLY (R258): while an update of the group is evaluated and not complete the write waits, and BUSY stays set. -/
def rulApply (s : State) : State :=
  let g := rulSel s
  let r := rulOf s g
  setRul s g (if rulBusy s g then { r with applyWait := true } else { r with ac := r.sh })

/-- Whether the posted write of a frame still waits for an update (R258). -/
def rulWaits (s : State) (f : Frame) : Bool := f = .rul && s.ruls.any fun p => p.2.applyWait

/-- An APPLY that waited takes effect once no update of its group is in progress. -/
def rulSettle (s : State) (g : Nat) : State :=
  let r := rulOf s g
  if r.applyWait && !rulBusy s g then setRul s g { r with ac := r.sh, applyWait := false } else s

/-- A posted operation of the RUL frame. -/
def rulPosted (s : State) (f : State → State) : State := if bltFenced s then s else postedOp s .rul f

def execRulApply (s : State) : Out := .next (rulPosted s rulApply)

/-- RUL_PROBE_STEP (R259). -/
def rulProbe (s : State) (t : Nat) : State :=
  let s := setReg64 s (Frame.rul.base + 0x200) t
  { setReg s (Frame.rul.base + 0x208) (BitVec.ofNat 32 (ruler (rulOf s (rulSel s)).ac t)) with probeDone := true }

def execRulProbe (t : BitVec 48) (s : State) : Out := .next (rulPosted s fun s => rulProbe s t.toNat)

end Sys2Proof.Machine
end

