-- ==== Sys2Proof/Machine/BlotterStream.lean ====
section
/-! DEFINITION. The Blotter's regions and their element stream (R228 to R231, R238, R241 to R249, R262). -/

namespace Sys2Proof.Machine
open Sys2Proof

/-! ### Regions (R228 to R231) -/

def regionOf (b : List Byte) : Region where
  ctl := BitVec.ofNat 32 (bget b 0 4)
  resv4 := BitVec.ofNat 32 (bget b 4 4)
  step := BitVec.ofNat 64 (bget b 8 8)
  w0 := BitVec.ofNat 64 (bget b 0x10 8)
  w1 := BitVec.ofNat 64 (bget b 0x18 8)
  g := BitVec.ofNat 64 (bget b 0x20 8)
  m := BitVec.ofNat 64 (bget b 0x28 8)
  v := BitVec.ofNat 64 (bget b 0x30 8)
  elems := BitVec.ofNat 64 (bget b 0x38 8)
  rowLen := BitVec.ofNat 32 (bget b 0x40 4)
  usedCols := BitVec.ofNat 32 (bget b 0x44 4)
  seed := BitVec.ofNat 64 (bget b 0x48 8)
  beta1 := BitVec.ofNat 32 (bget b 0x50 4)
  beta2 := BitVec.ofNat 32 (bget b 0x54 4)
  eps := BitVec.ofNat 32 (bget b 0x58 4)
  wd := BitVec.ofNat 32 (bget b 0x5C 4)
  tail := bslice b 0x60 160

def Region.algo (r : Region) : Nat := field r.ctl 1 0
def Region.nesterov (r : Region) : Bool := bitAt r.ctl 2
def Region.frozen (r : Region) : Bool := bitAt r.ctl 3
def Region.versioned (r : Region) : Bool := bitAt r.ctl 4
def Region.adapter (r : Region) : Bool := bitAt r.ctl 5
def Region.rectoSel (r : Region) : Bool := bitAt r.ctl 6
/-- The R34 code of the gradient, and of the state tensors. -/
def Region.gFmt (r : Region) : Nat := if bitAt r.ctl 8 then 0 else 1
def Region.sFmt (r : Region) : Nat := if bitAt r.ctl 9 then 0 else 1
def Region.round (r : Region) : Nat := field r.ctl 11 10
def Region.range (r : Region) : Nat := field r.ctl 13 12
def Region.group (r : Region) : Nat := field r.ctl 23 16
def Region.n (r : Region) : Nat := field r.elems 39 0
/-- The weight buffer read, and the one written (R250). -/
def Region.recto (r : Region) : Nat := if r.rectoSel then r.w1.toNat else r.w0.toNat
def Region.dest (r : Region) : Nat :=
  if r.versioned then (if r.rectoSel then r.w0.toNat else r.w1.toNat) else r.w0.toNat

/-- A finite FP32 hyperparameter from 0 to a bound: `hi` is 0 for exactly zero, 1 for below one, 2 for
at most one, 3 for any. Negative zero is zero (DEDUCED, log entry 52). -/
def hyperOk (b : BitVec 32) (hi : Nat) : Bool :=
  let x := val32 b.toNat
  let one : FNum := .fin false 1 0
  x.isFin && !x.lt (.fin false 0 0) &&
    (if hi = 0 then x.isZero else if hi = 1 then x.lt one else if hi = 2 then !one.lt x else true)

/-- Whether a descriptor is invalid (R231). -/
def Region.bad (r : Region) : Bool :=
  let al (a : BitVec 64) : Bool := a.toNat % 128 ≠ 0
  field r.ctl 7 7 ≠ 0 || field r.ctl 15 14 ≠ 0 || field r.ctl 31 24 ≠ 0 || r.algo = 3 || r.round = 3 || r.range = 3
  || r.resv4 ≠ 0 || field r.step 63 48 ≠ 0 || field r.elems 63 40 ≠ 0 || !allZero r.tail || r.n = 0
  || al r.w0 || al r.w1 || al r.g || al r.m || al r.v
  || (if r.versioned then r.w1 = 0 else r.w1 ≠ 0 || r.rectoSel) || (r.algo ≠ 1 && r.v ≠ 0)
  || (r.adapter && (r.usedCols = 0 || r.rowLen.toNat < r.usedCols.toNat))
  || !(match r.algo with
      | 0 => hyperOk r.beta1 2 && hyperOk r.beta2 0 && hyperOk r.eps 0
      | 1 => hyperOk r.beta1 1 && hyperOk r.beta2 1 && hyperOk r.eps 3
      | _ => hyperOk r.beta1 2 && hyperOk r.beta2 2 && hyperOk r.eps 0)
  || !hyperOk r.wd 3

/-! ### Arithmetic (R241 to R246) -/

/-- The per-update scalars of R242, in FP32. -/
structure Scalars where
  lr : Nat
  c : Nat
  om1 : Nat
  om2 : Nat
  k1 : Nat
  k2 : Nat
  dec : Nat
  deriving DecidableEq, Repr

def f32of64 (b : Nat) : Nat := rnd32 (val64 b)

def scalars (d : Region) (u : Upd) : Scalars :=
  let t := u.expect.toNat + 1
  let b1 := f64of32 d.beta1.toNat
  let b2 := f64of32 d.beta2.toNat
  let bc (b : Nat) : Nat := f32of64 (div64 one64 (sub64 one64 (powBin b t)))
  { lr := u.lr.toNat, c := u.c.toNat
    om1 := f32of64 (sub64 one64 b1), om2 := f32of64 (sub64 one64 b2)
    k1 := bc b1, k2 := bc b2
    dec := f32of64 (sub64 one64 (mul64 (f64of32 u.lr.toNat) (f64of32 d.wd.toNat))) }

/-- The FP32 inputs of one element. -/
structure Elem where
  w : Nat
  g : Nat
  m : Nat
  v : Nat
  deriving DecidableEq, Repr

/-- R243. -/
def sgd (d : Region) (k : Scalars) (first : Bool) (e : Elem) : Elem :=
  let mu := d.beta1.toNat
  let g := add32 (mul32 e.g k.c) (mul32 e.w d.wd.toNat)
  let m := if first then g else add32 (mul32 e.m mu) g
  let dd := if d.nesterov then add32 g (mul32 m mu) else m
  { e with w := sub32 e.w (mul32 k.lr dd), m := m }

/-- R244. -/
def adamw (d : Region) (k : Scalars) (e : Elem) : Elem :=
  let g := mul32 e.g k.c
  let m := add32 (mul32 e.m d.beta1.toNat) (mul32 g k.om1)
  let v := add32 (mul32 e.v d.beta2.toNat) (mul32 (mul32 g g) k.om2)
  let r := add32 (sqrt32 (mul32 v k.k2)) d.eps.toNat
  let dd := div32 (mul32 m k.k1) r
  { e with w := sub32 (mul32 e.w k.dec) (mul32 k.lr dd), m := m, v := v }

/-- sign(x) of R245. -/
def sign32 (b : Nat) : Nat :=
  match val32 b with
  | .nan => fmtFP32.nanBits
  | .inf neg => if neg then 0xBF800000 else 0x3F800000
  | .fin neg m _ => if m = 0 then b else if neg then 0xBF800000 else 0x3F800000

/-- R245. -/
def lion (d : Region) (k : Scalars) (e : Elem) : Elem :=
  let g := mul32 e.g k.c
  let dd := sign32 (add32 (mul32 e.m d.beta1.toNat) (mul32 g k.om1))
  { e with
    w := sub32 (mul32 e.w k.dec) (mul32 k.lr dd)
    m := add32 (mul32 e.m d.beta2.toNat) (mul32 g k.om2) }

/-- The step of one element. -/
def updElem (d : Region) (k : Scalars) (t : Nat) (e : Elem) : Elem :=
  match d.algo with
  | 0 => sgd d k (t = 1) e
  | 1 => adamw d k e
  | _ => lion d k e

/-- A written value in its storage format (R246): bits, and what the gauge counts. -/
def storeElem (d : Region) (fmt stream t i x : Nat) : Nat × Option Conv :=
  if fmt = 0 then (x, none)
  else
    let n := (sand d.seed (BitVec.ofNat 8 stream) (BitVec.ofNat 64 (t % 2 ^ 24 * 2 ^ 40 + i))).toNat
    let c := fmtBF16.conv (Rnd.ofField d.round) d.range n (val32 x)
    (c.bits, some c)

/-! ### The stream (R238, R247, R248) -/

/-- Whether element i takes part (R247). -/
def Region.takes (d : Region) (i : Nat) : Bool :=
  i < d.n && (!d.adapter || i % d.rowLen.toNat < d.usedCols.toNat)

/-- Read the 64 elements of block `b` of a tensor of format `fmt`: FP32 bits with whether the input is
poisoned, and whether any read failed. Lines that hold no element in use are not read. -/
def readBlock (s : State) (h : Half) (sp : Space) (d : Region) (addr fmt b : Nat) : State × List (Nat × Bool) × Bool :=
  let eb := fmtBits fmt / 8
  let per := 128 / eb
  (List.range (64 / per)).foldl (fun r l =>
    let (s, acc, bad) := r
    let first := 64 * b + per * l
    if (List.range per).any fun j => d.takes (first + j) then
      match vread s h sp (addr + first * eb) 128 with
      | (s, .error _) => (s, acc ++ List.replicate per (0, true), true)
      | (s, .ok x) =>
        (s, acc ++ (List.range per).map fun j =>
          (bget x.bytes (eb * j) eb * (if fmt = 0 then 1 else 65536), x.poisoned), bad)
    else (s, acc ++ List.replicate per (0, false), bad)) (s, [], false)

/-- What one element writes to a tensor: bits, whether they come from poison, and the gauge's count. -/
structure WElem where
  idx : Nat
  bits : Nat
  pois : Bool
  conv : Option Conv
  deriving DecidableEq, Repr

/-- Runs of elements at consecutive places. -/
def runsOf : List WElem → List (List WElem)
  | [] => []
  | a :: t =>
    match runsOf t with
    | (b :: r) :: rest => if b.idx = a.idx + 1 then (a :: b :: r) :: rest else [a] :: (b :: r) :: rest
    | l => [a] :: l

/-- Write the elements of one line: the line is poisoned when any value comes from poison. The result
says whether the write failed. -/
def writeLineElems (s : State) (h : Half) (sp : Space) (addr eb : Nat) (l : List WElem) : State × Bool :=
  let p := l.any (·.pois)
  (runsOf l).foldl (fun r run =>
    if r.2 then r
    else
      match run with
      | [] => r
      | e :: _ =>
        let x := vwrite r.1 h sp (addr + e.idx * eb) (run.flatMap fun e => leBytes eb e.bits) fun _ => p
        (x.1, x.2.fault.isSome)) (s, false)

/-- The state of a stream: what the completion reports, whether the domain's end cuts it off, and the lines written. -/
structure StreamAcc where
  bad : Nat
  fail : Bool
  pois : Bool
  conv : List Conv
  cut : Bool
  lines : Nat
  deriving DecidableEq, Repr

/-- Write a block's elements of one tensor, line by line. -/
def writeBlock (s : State) (h : Half) (sp : Space) (addr fmt b : Nat) (l : List WElem) (a : StreamAcc) : State × StreamAcc :=
  let eb := fmtBits fmt / 8
  let per := 128 / eb
  (List.range (64 / per)).foldl (fun r k =>
    let es := l.filter fun e => e.idx / per = (64 * b) / per + k
    let f := if a.cut && !es.isEmpty then freshBit r.1 else (r.1, !es.isEmpty)
    if !f.2 then (f.1, r.2)
    else
      let w := writeLineElems f.1 h sp addr eb es
      let p := es.any (·.pois)
      (w.1, { r.2 with
        bad := r.2.bad + if w.2 || p then 1 else 0
        fail := r.2.fail || w.2
        lines := r.2.lines + 1
        conv := r.2.conv ++ if w.2 then [] else es.filterMap fun e => if e.pois then none else e.conv })) (s, a)

/-- A value computed from a poisoned input is free (DESIGN CHOICE, log entry 7). -/
def poisElem (s : State) (i eb : Nat) : State × WElem :=
  ({ s with free := s.free + eb },
    ⟨i, leNat ((List.range eb).map fun j => Config.freeByte (s.free + j)), true, none⟩)

/-- The step of an element in use: what it writes, which of W, M and V come from a poisoned input, and
whether any input was poisoned (R238). -/
structure Stepped where
  idx : Nat
  out : Elem
  pw : Bool
  pm : Bool
  pv : Bool
  any : Bool
  deriving DecidableEq, Repr

/-- The step of element `i` from its inputs, each with its poison: a value is poisoned when an operation
of R243 to R245 that leads to it reads a poisoned input. -/
def stepElem (d : Region) (k : Scalars) (t i : Nat) (w g m v : Nat × Bool) : Stepped where
  idx := i
  out := updElem d k t ⟨w.1, g.1, m.1, v.1⟩
  pw := w.2 || g.2 || (m.2 && !(d.algo = 0 && t = 1)) || (d.algo = 1 && v.2)
  pm := g.2 || (m.2 && !(d.algo = 0 && t = 1)) || (d.algo = 0 && w.2)
  pv := v.2 || g.2
  any := w.2 || g.2 || m.2 || v.2

/-- The written elements of one tensor for the elements in use; an element with a poisoned input counts
in no gauge. -/
def outElems (d : Region) (fmt stream t : Nat) (pick : Elem → Nat) (pois : Stepped → Bool) (s : State)
    (es : List Stepped) : State × List WElem :=
  es.foldl (fun r e =>
    if pois e then let p := poisElem r.1 e.idx (fmtBits fmt / 8); (p.1, r.2 ++ [p.2])
    else
      let y := storeElem d fmt stream t e.idx (pick e.out)
      (r.1, r.2 ++ [⟨e.idx, y.1, false, if e.any then none else y.2⟩])) (s, [])

/-- One block of 64 elements. -/
def streamBlock (d : Region) (u : Upd) (k : Scalars) (s : State) (a : StreamAcc) (b : Nat) : State × StreamAcc :=
  let h := queueHalf u.space.queue.toNat
  let t := u.expect.toNat + 1
  let adam := d.algo = 1
  let (s, w, f1) := readBlock s h u.space d d.recto 1 b
  let (s, g, f2) := readBlock s h u.space d d.g.toNat d.gFmt b
  let (s, m, f3) := readBlock s h u.space d d.m.toNat d.sFmt b
  let (s, v, f4) := if adam then readBlock s h u.space d d.v.toNat d.sFmt b else (s, [], false)
  let at_ (l : List (Nat × Bool)) (j : Nat) : Nat × Bool := l.getD j (0, false)
  let es := ((List.range 64).filter fun j => d.takes (64 * b + j)).map fun j =>
    stepElem d k t (64 * b + j) (at_ w j) (at_ g j) (at_ m j) (at_ v j)
  let a := { a with
    fail := a.fail || f1 || f2 || f3 || f4
    pois := a.pois || es.any (·.any) }
  let (s, ws) := outElems d 1 0x04 t Elem.w Stepped.pw s es
  let (s, a) := writeBlock s h u.space d.dest 1 b ws a
  let (s, ms) := outElems d d.sFmt 0x05 t Elem.m Stepped.pm s es
  let (s, a) := writeBlock s h u.space d.m.toNat d.sFmt b ms a
  if adam then
    let (s, vs) := outElems d d.sFmt 0x06 t Elem.v Stepped.pv s es
    writeBlock s h u.space d.v.toNat d.sFmt b vs a
  else (s, a)

/-- The blocks of a region in ascending order. -/
def streamGo (d : Region) (u : Upd) (k : Scalars) : Nat → Nat → State → StreamAcc → State × StreamAcc
  | 0, _, s, a => (s, a)
  | left + 1, b, s, a =>
    let r := streamBlock d u k s a b
    streamGo d u k left (b + 1) r.1 r.2

/-- Elements of a region that take part. -/
def Region.updated (d : Region) : Nat :=
  if d.adapter then
    let rl := d.rowLen.toNat
    d.n / rl * d.usedCols.toNat + min (d.n % rl) d.usedCols.toNat
  else d.n

/-! ### A stream cut off (R262) -/

/-- An update that the end of the domain finds in stage 8: each line it writes holds the old or the new values, an
undefined choice (R262; DESIGN CHOICE, log entry 7). -/
def streamCut (s : State) (u : Upd) : State :=
  match u.desc with
  | none => s
  | some d =>
    if u.stage ≠ 8 then s
    else
      let r := streamGo d u (scalars d u) (cdiv d.n 64) 0 s { bad := 0, fail := false, pois := false, conv := [], cut := true, lines := 0 }
      let s := gaugeAdd r.1 (gaugeKey 4 u.region) r.2.conv
      if r.2.lines = 0 then s else count s .blt 0x40 1

/-- The Blotter stops at once when the domain goes down (R262). -/
def bltCut (s : State) : State := s.upds.foldl (fun s p => streamCut s p.2) s

end Sys2Proof.Machine
end

