-- ==== Sys2Proof/Machine/Flits.lean ====
section
/-! DEFINITION. Packet links, and the sending side of the flit links: the Ligature and the Blotter links
(R16 to R23). The manual names the 16-byte message header and gives no layout: Config.flitHeader stands for
it (DESIGN CHOICE, log entry 29). -/

namespace Sys2Proof.Machine
open Sys2Proof

/-- A link end after training. -/
def linkReset : Link where
  nextSeq := 0
  replay := []
  txq := []
  lane := 0
  owner := []
  spent := []
  credited := []
  cvc := 0
  lastReq := none
  reqCount := 0
  rxExp := 0
  discard := false
  freed := []
  partials := []
  marks := []
  cut := []
  rx := []
  failed := false
  cause := 0
  out := []

/-- Bytes of a list cut into pieces of `n`; `fuel` bounds the pieces. -/
def pieces {α : Type} (n : Nat) : Nat → List α → List (List α)
  | 0, _ => []
  | fuel + 1, b => if b.isEmpty then [] else b.take n :: pieces n fuel (b.drop n)

/-- Take a cumulative ACK: the replay buffer loses what it covers (R17, R20). -/
def takeAck (l : Link) (ack : Nat) : Link :=
  match findIdx? (fun x => x.1 = ack) l.replay with
  | none => l
  | some i => { l with replay := l.replay.drop (i + 1) }

/-- Take a cumulative credit report in units of `unit`, modulo `md` (R17, R19). -/
def takeCredit (l : Link) (ch cnt unit md : Nat) : Link :=
  let have_ := sget 0 l.credited ch
  let d := (cnt + md - have_ / unit % md) % md
  if d = 0 then l else { l with credited := sset l.credited ch (have_ + unit * d) }

/-! ### Ends -/

/-- The number of a link end. -/
def linkIdx : LinkEnd → Nat
  | .lig h => h.val
  | .blVellum h => 2 + h.val
  | .blBlotter h => 4 + h.val

def linkOf (s : State) (e : LinkEnd) : Link := sget linkReset s.links (linkIdx e)
def setLink (s : State) (e : LinkEnd) (l : Link) : State := { s with links := sset s.links (linkIdx e) l }

/-- Whether a link exists in this boot and passes flits. -/
def linkLive (s : State) (e : LinkEnd) : Bool :=
  alive s && !(linkOf s e).failed &&
    match e with
    | .lig _ => !ligFenced s && !halfFenced s 0 && !halfFenced s 1
    | .blVellum h | .blBlotter h => !bltFenced s && !halfFenced s h

/-- The home that stands at a link end. -/
def endHome : LinkEnd → Nat
  | .lig h | .blVellum h => h.val
  | .blBlotter _ => 2

/-- Add to a counter of the LIG frame; Blotter links have none. -/
def ligCount (s : State) (e : LinkEnd) (off : Nat) : State :=
  match e with
  | .lig h => count s (.lig h) off 1
  | _ => s

/-- The end that sends from one place to another: 0 and 1 the halves, 2 the Blotter. -/
def linkPath (a b : Nat) : Option LinkEnd :=
  match a, b with
  | 0, 1 => some (.lig 0)
  | 1, 0 => some (.lig 1)
  | 0, 2 => some (.blVellum 0)
  | 1, 2 => some (.blVellum 1)
  | 2, 0 => some (.blBlotter 0)
  | 2, 1 => some (.blBlotter 1)
  | _, _ => none

/-! ### Sending (R17 to R20) -/

/-- Receive slots of a channel: 0 request, 1 response, 2 snoop, 3 bulk (R18, R23). -/
def flitSlots : LinkEnd → Nat → Nat
  | .lig _, vc => [512, 512, 256, 1024].getD vc 0
  | _, vc => [256, 256, 128, 512].getD vc 0

/-- A channel's share of one cycle's flits (R18, R23). -/
def flitShare : LinkEnd → Nat → Nat
  | .lig _, vc => [4, 5, 2, 5].getD vc 0
  | _, vc => [2, 2, 1, 3].getD vc 0

/-- A flit with its control word (R16, R17): `vck` holds VC in bits [1:0] and KIND in bits [3:2]. -/
def buildFlit (l : Link) (seq vck : Nat) (payload : List Byte) : List Byte :=
  let cw := vck % 16 + 2 ^ 4 * (seq % 1024) + 2 ^ 14 * ((l.rxExp + 1023) % 1024) + 2 ^ 24 * (l.cvc % 4) +
    2 ^ 26 * (sget 0 l.freed (l.cvc % 4) / 8 % 64)
  let b := leBytes 4 cw ++ bslice payload 0 58
  b ++ leBytes 2 (crc16 b).toNat

/-- Put a flit on the wire; CVC rotates over the four channels, upward from 0 (R19; the order and its start are
DESIGN CHOICE, log entry 29). -/
def flitPut (l : Link) (seq vck : Nat) (payload : List Byte) : Link :=
  { l with out := l.out ++ [buildFlit l seq vck payload], cvc := (l.cvc + 1) % 4 }

/-- An idle flit, and a control flit of type RETRY that names the expected SEQ: both carry the next unused SEQ
(R17, R21; the payload's layout is DESIGN CHOICE, log entry 29). -/
def flitIdle (l : Link) : Link := flitPut l l.nextSeq 12 []
def flitRetryOut (l : Link) : Link := flitPut l l.nextSeq 8 ([1, 0] ++ leBytes 2 l.rxExp)

/-- Whether a channel has a credit (R18), and whether a flit of it waits. -/
def flitCredit (l : Link) (e : LinkEnd) (vc : Nat) : Bool := decide (sget 0 l.spent vc < sget 0 l.credited vc + flitSlots e vc)
def flitWaits (l : Link) (vc : Nat) : Bool := l.txq.any fun x => x.2.1 % 4 = vc

/-- First-send the oldest waiting flit of a channel: it takes a SEQ, a credit and an entry of the replay buffer
(R18, R20). -/
def flitOut (s : State) (e : LinkEnd) (vc : Nat) : Option State :=
  let l := linkOf s e
  match findIdx? (fun x => x.2.1 % 4 = vc) l.txq with
  | none => none
  | some i =>
    match l.txq[i]? with
    | none => none
    | some x =>
      if flitCredit l e vc && l.replay.length < 256 then
        some (ligCount (setLink s e { flitPut l l.nextSeq x.2.1 x.2.2 with
          nextSeq := (l.nextSeq + 1) % 1024
          replay := l.replay ++ [(l.nextSeq, x.2)]
          txq := dropAt l.txq i
          spent := sset l.spent vc (sget 0 l.spent vc + 1) }) e 0x10)
      else none

/-- Up to `n` flits of a channel in one cycle, and the slots it leaves. -/
def flitTurn : Nat → State → LinkEnd → Nat → State × Nat
  | 0, s, _, _ => (s, 0)
  | n + 1, s, e, vc =>
    match flitOut s e vc with
    | none => (s, n + 1)
    | some s => flitTurn n s e vc

/-- One cycle: each channel takes its share, and slots left over pass to snoop, response, request and bulk in
this order (R18, R19). The second part of the answer is the slots nobody used. -/
def flitCycle (s : State) (e : LinkEnd) : State × Nat :=
  let own := (List.range 4).foldl (fun (r : State × Nat) vc =>
    let t := flitTurn (flitShare e vc) r.1 e vc
    (t.1, r.2 + t.2)) (s, 0)
  [2, 1, 0, 3].foldl (fun r vc => flitTurn r.2 r.1 e vc) own

/-- Cycles until no waiting flit may leave; one that then waits for a credit counts in LIG_CREDIT_STALL. -/
def flitPump : Nat → State → LinkEnd → State
  | 0, s, _ => s
  | fuel + 1, s, e =>
    let r := flitCycle s e
    if r.2 = 0 then flitPump fuel r.1 e
    else
      let l := linkOf r.1 e
      if l.replay.length < 256 && (List.range 4).any (fun vc => flitWaits l vc && !flitCredit l e vc) then ligCount r.1 e 0x28
      else r.1

/-- The flits of a message, named by the number of its sender: a head with the header and 42 bytes of data, bodies with 58 bytes each (R17). -/
def flitsOf (id vc : Nat) (hdr data : List Byte) : List (Nat × Nat × List Byte) :=
  (id, vc, bslice hdr 0 16 ++ bslice data 0 42) :: (pieces 58 70 (data.drop 42)).map fun b => (id, vc + 4, bslice b 0 58)

/-- The messages that cross between places, as the header names them. -/
inductive FlitUse where
  | coh (msg : CohMsg) | mail | ductus (k : DKind) | transit
  deriving DecidableEq, Repr

/-- A number for a coherence message. -/
def CohMsg.num : CohMsg → Nat
  | .rdShared => 0 | .rdOwn => 1 | .upgrade => 2 | .atomicReq => 3 | .wbDirty => 4 | .evictClean => 5 | .rdCur => 6
  | .wrFull => 7 | .wrPartial => 8 | .atomicFar => 9 | .snpFwdShared => 10 | .snpFwdOwn => 11 | .snpInv => 12
  | .snpCur => 13 | .data .m => 14 | .data .e => 15 | .data .f => 16 | .dataCmp .m => 17 | .dataCmp .e => 18
  | .dataCmp .f => 19 | .grantCmp => 20 | .grantAck => 21 | .rspI => 22 | .rspS => 23 | .rspFwd => 24
  | .rspIWbPend => 25 | .wbAck => 26 | .cmp _ _ => 27 | .nack false => 28 | .nack true => 29
  | .again n m => 32 * (n + 1) + m.num % 32

/-- The channel of a coherence message (R325): 0 request, 1 response, 2 snoop. -/
def CohMsg.chan : CohMsg → Nat
  | .rdShared | .rdOwn | .upgrade | .atomicReq | .wbDirty | .evictClean | .rdCur | .wrFull | .wrPartial | .atomicFar
  | .again _ _ => 0
  | .snpFwdShared | .snpFwdOwn | .snpInv | .snpCur => 2
  | _ => 1

/-- A number for a use, the argument of Config.flitHeader. -/
def FlitUse.num : FlitUse → Nat
  | .mail => 1
  | .transit => 2
  | .ductus k => 8 + (match k with | .credit => 0 | .tile => 1 | .abandon => 2 | .fenced => 3 | .announce => 4)
  | .coh m => 16 + m.num

/-- Send a message from one place to another on a channel under a sender's number; within one place no link carries
it. Data above 4,096 bytes goes as several messages (R17). -/
def linkSendAs (id : Nat) (s : State) (a b vc : Nat) (u : FlitUse) (src dst addr : Nat) (data : List Byte) : State :=
  match linkPath a b with
  | none => s
  | some e =>
    if linkLive s e then
      let l := linkOf s e
      let hdr := (List.range 16).map (Config.flitHeader u.num src dst addr)
      let ms := if data.length ≤ 4096 then [data] else pieces 4096 (data.length / 4096 + 1) data
      let q := l.txq ++ ms.flatMap (flitsOf id vc hdr)
      flitPump (q.length + 1) (setLink s e { l with txq := q }) e
    else s

/-- A message whose sender does not wait for its last flit. -/
def linkSend (s : State) (a b vc : Nat) (u : FlitUse) (src dst addr : Nat) (data : List Byte) : State :=
  linkSendAs 0 s a b vc u src dst addr data

end Sys2Proof.Machine
end

