-- ==== Sys2Proof/Machine/UtpCore.lean ====
section
/-! DEFINITION. The sending side of Uttupel (R343 to R357): packets, link blocks, routing and the
contexts' transmit queues. What arrives is in Uttupel.lean. -/

namespace Sys2Proof.Machine
open Sys2Proof

/-! ### Links -/

/-- A port's link block (R346): `vlf` holds the lane in bits [2:0], SOP in bit 3, EOP in bit 4 and
KIND in bits [6:5]; above them it holds the poisoned lines of the packet that go with the block (R306). -/
def buildBlock (l : Link) (seq vlf : Nat) (payload : List Byte) : List Byte :=
  let cvl := l.cvc % 8
  let hdr := seq % 4096 + 2 ^ 12 * ((l.rxExp + 4095) % 4096) + 2 ^ 24 * (vlf % 8) + 2 ^ 27 * (vlf / 32 % 4)
    + 2 ^ 29 * (vlf / 8 % 2) + 2 ^ 30 * (vlf / 16 % 2) + 2 ^ 32 * cvl + 2 ^ 35 * (sget 0 l.freed cvl % 4096)
  let b := leBytes 8 hdr ++ bslice payload 0 244
  b ++ leBytes 4 (crc32 b).toNat

/-- A port after reset. -/
def portReset : Port := ⟨0, .disabled, 0, false, 0, 0, linkReset⟩

def portOf (s : State) (p : Nat) : Port := sget portReset s.ports p
def setPort (s : State) (p : Nat) (v : Port) : State := { s with ports := sset s.ports p v }

/-- The base address of a port's block in its LFP frame (12, *Registers*). -/
def portBase (p : Nat) : Nat :=
  if p < 14 then (Frame.lfp 0).base + 0x100 + 0x40 * p
  else if p < 28 then (Frame.lfp 1).base + 0x100 + 0x40 * (p - 14)
  else Frame.lfpB.base + 0x100 + 0x40 * (p - 28)

/-- Add to a counter of a port's block. -/
def portCount (s : State) (p off n : Nat) : State :=
  setReg64 s (portBase p + off) (regWord64 s (portBase p + off) + n)

/-- The poisoned lines that go with a block. -/
def vlfMarks (vlf : Nat) : BitVec 32 := BitVec.ofNat 32 (vlf / 128)

/-- Put a block on the fibre; CVL rotates over the eight lanes, upward from 0 (R347, R19; the order and its
start are DESIGN CHOICE, log entry 46). -/
def blockPut (s : State) (p : Nat) (l : Link) (seq vlf : Nat) (payload : List Byte) : State :=
  setPort (send s (.block p (buildBlock l seq vlf payload) (vlfMarks vlf))) p { portOf s p with link := { l with cvc := (l.cvc + 1) % 8 } }

/-- Whether a lane has a credit (R347). -/
def blockCredit (l : Link) (vl : Nat) : Bool := decide (sget 0 l.spent vl < sget 0 l.credited vl + 1024)

/-- Whether a block of a lane may leave now (R347, R348). -/
def blockFree (l : Link) (vl : Nat) : Bool := l.replay.length < 1024 && blockCredit l vl

/-- The block whose turn it is on a lane: a packet once begun goes on to its end (R346). -/
def laneNext (l : Link) (vl : Nat) : Option Nat :=
  findIdx? (fun x => decide (x.2.1 % 8 = vl) && (!shas l.owner vl || decide (x.1 = sget 0 l.owner vl))) l.txq

/-- A receive block of a port's lane is free again (R347). -/
def blockFreed (s : State) (p vl : Nat) : State :=
  let v := portOf s p
  setPort s p { v with link := { v.link with freed := sset v.link.freed vl (sget 0 v.link.freed vl + 1) } }

/-- A block of a packet in transit leaves the port and lane that received it, which its stream names (R347, R353). -/
def transitFreed (s : State) (src : Nat) : State := if 1 ≤ src ∧ src ≤ 224 then blockFreed s ((src - 1) / 8) ((src - 1) % 8) else s

/-- Send one block of a stream: it takes a SEQ, a replay entry and a credit, and frees what it took up here. -/
def blockOut (s : State) (p src vlf : Nat) (payload : List Byte) : State :=
  let s := transitFreed s src
  let l := (portOf s p).link
  let vl := vlf % 8
  blockPut s p { l with
    nextSeq := (l.nextSeq + 1) % 4096
    replay := l.replay ++ [(l.nextSeq, vlf, payload)]
    lane := vl
    owner := if vlf / 16 % 2 = 1 then sdel l.owner vl else sset l.owner vl src
    spent := sset l.spent vl (sget 0 l.spent vl + 1) } l.nextSeq vlf payload

/-- The lane that takes its turn among those with a block that may leave: the lanes of LTC 0 first, then
round-robin after the lane served last (R347). -/
def nextLane (l : Link) : Option Nat :=
  let ready (vl : Nat) : Bool := blockFree l vl && (laneNext l vl).isSome
  let turn := (List.range 8).map fun i => (l.lane + 1 + i) % 8
  match turn.find? fun vl => decide (vl < 2) && ready vl with
  | some vl => some vl
  | none => turn.find? ready

/-- Send what waits and now may leave (R347). -/
def linkPump : Nat → State → Nat → State
  | 0, s, _ => s
  | fuel + 1, s, p =>
    let v := portOf s p
    let l := v.link
    match (nextLane l).bind (laneNext l) with
    | none => s
    | some i =>
      match l.txq[i]? with
      | none => s
      | some b => linkPump fuel (blockOut (setPort s p { v with link := { l with txq := dropAt l.txq i } }) p b.1 b.2.1 b.2.2) p

/-- Send a block of a stream, or let it wait behind others of its lane for its turn, a credit or a replay entry
(R347, R352). Streams are 0 the packets of this package, 1 + 8p + VL a packet in transit from port p, 255 DOMAIN_DOWN, and
256 + the context the packets of a go-back-N. -/
def blockSend (s : State) (p src vlf : Nat) (payload : List Byte) : State :=
  let v := portOf s p
  let l := v.link
  let s := if blockCredit l (vlf % 8) then s else portCount s p 0x30 1
  linkPump (l.txq.length + 1) (setPort s p { v with link := { l with txq := l.txq ++ [(src, vlf, payload)] } }) p

/-- An idle block: the next unused SEQ, the ACK and the credits (R346). -/
def blockIdle (s : State) (p : Nat) : State := let l := (portOf s p).link; blockPut s p l l.nextSeq 32 []

/-! ### Packets (R354) -/

/-- Bytes 0 to 21 of a packet. -/
def pktHead (k : UtpPkt) : List Byte :=
  leBytes 2 k.dst.toNat ++ leBytes 2 k.src.toNat ++ [k.ctl, k.hops, k.opcode, k.flags] ++ leBytes 4 k.psn.toNat ++
    leBytes 4 k.apsn.toNat ++ leBytes 4 k.inc.toNat ++ leBytes 2 k.len.toNat

/-- HCRC, with HOPS and LEVEL taken as zero. -/
def pktHcrc (k : UtpPkt) : BitVec 16 := crc16 (pktHead { k with hops := 0, ctl := k.ctl &&& 0xBF#8 })

/-- PCRC of a payload, zero when it is empty. -/
def pktPcrc (b : List Byte) : BitVec 32 := if b.isEmpty then 0 else crc32 b

/-- The bytes of a packet. -/
def pktBytes (k : UtpPkt) : List Byte :=
  pktHead k ++ leBytes 2 k.hcrc.toNat ++ leBytes 4 k.pcrc.toNat ++ leBytes 4 k.resv.toNat ++ k.payload

/-- The packet that bytes spell. -/
def pktOfBytes (b : List Byte) : UtpPkt where
  dst := BitVec.ofNat 16 (bget b 0 2)
  src := BitVec.ofNat 16 (bget b 2 2)
  ctl := b.getD 4 0
  hops := b.getD 5 0
  opcode := b.getD 6 0
  flags := b.getD 7 0
  psn := BitVec.ofNat 32 (bget b 8 4)
  apsn := BitVec.ofNat 32 (bget b 12 4)
  inc := BitVec.ofNat 32 (bget b 16 4)
  len := BitVec.ofNat 16 (bget b 20 2)
  hcrc := BitVec.ofNat 16 (bget b 22 2)
  pcrc := BitVec.ofNat 32 (bget b 24 4)
  resv := BitVec.ofNat 32 (bget b 28 4)
  poison := 0
  payload := bslice b 32 (min (bget b 20 2) (b.length - 32))

def pktClass (k : UtpPkt) : Nat := field k.ctl 3 0
def pktLtc (k : UtpPkt) : Nat := field k.ctl 5 4

/-- Whether a header keeps its rules: HCRC, OPCODE and reserved fields (R354). -/
def pktHeadOk (k : UtpPkt) : Bool :=
  k.hcrc = pktHcrc k && k.opcode.toNat ≤ 6 && !bitAt k.ctl 7 && field k.flags 7 1 = 0 && field k.psn 31 24 = 0
    && field k.apsn 30 24 = 0 && k.resv = 0 && k.len.toNat ≤ 4096

/-- Whether the payload is the one PCRC covers (R354). -/
def pktPayOk (k : UtpPkt) : Bool := k.payload.length = k.len.toNat && k.pcrc = pktPcrc k.payload

def ownPkg (s : State) : BitVec 16 := s.col.rubric.pkg
/-- The incarnation: the low 32 bits of POWER_CYCLES (R356, R426). -/
def incarnation (s : State) : BitVec 32 := s.flash.cycles.setWidth 32

/-- The half whose engine holds the contexts of a CLASS (R355). -/
def ctxHalf (s : State) (cls : Nat) : Half :=
  if halfFenced s 0 then 1 else if halfFenced s 1 then 0 else halfOf cls

/-- The LTC of DATA of a CLASS (R355). -/
def classLtc (cls : Nat) : Nat := if cls < 2 then 1 else if cls < 4 then 2 else 3

/-- A packet of this package. -/
def mkPkt (s : State) (dst : BitVec 16) (cls opcode : Nat) (last : Bool) (psn : Nat) (apsn : Option Nat)
    (payload : List Byte) : UtpPkt :=
  let ltc := if opcode = 0 then classLtc cls else 0
  let k : UtpPkt := {
    dst := dst, src := ownPkg s, ctl := BitVec.ofNat 8 (cls + 16 * ltc), hops := 32
    opcode := BitVec.ofNat 8 opcode, flags := if last then 1 else 0
    psn := BitVec.ofNat 32 (psn % 2 ^ 24)
    apsn := match apsn with | none => 0 | some a => BitVec.ofNat 32 (a % 2 ^ 24 + 2 ^ 31)
    inc := incarnation s, len := BitVec.ofNat 16 payload.length, hcrc := 0, pcrc := pktPcrc payload, resv := 0
    payload := payload, poison := 0 }
  { k with hcrc := pktHcrc k }

/-! ### Routing (R350 to R352) -/

/-- The table entry of a half for a destination. -/
def routeOf (s : State) (h : Half) (dst : Nat) : Word := sget 0 s.routes (65536 * h.val + dst)

/-- The entries written since the last packet boundary become active (R350, R436). -/
def routeBoundary (s : State) (h : Half) : State :=
  let mine := s.routesSh.filter fun x => decide (x.1 / 65536 = h.val)
  { s with routes := mine.foldl (fun r x => sset r x.1 x.2) s.routes
           routesSh := s.routesSh.filter fun x => decide (x.1 / 65536 ≠ h.val) }

/-- Whether a port code names a V port that is UP in the Uttupel role. -/
def portUp (s : State) (code : Nat) : Bool :=
  code < 28 && decide ((portOf s code).st = .up) && decide ((portOf s code).role = 1)

/-- The port a packet leaves on: PORT(x mod n), or the next UP port of the set (R351). -/
def routePort (s : State) (h : Half) (k : UtpPkt) : Option Nat :=
  let e := routeOf s h k.dst.toNat
  if !bitAt e 26 || k.dst = ownPkg s then none
  else
    let n := field e 25 24 + 1
    let x := (k.src.toNat ^^^ k.dst.toNat ^^^ pktClass k) % n
    ((List.range n).map fun i => field e (6 * ((x + i) % n) + 5) (6 * ((x + i) % n))).find? fun c => portUp s c

/-- The half of a V port. -/
def portHalf (p : Nat) : Half := if p < 14 then 0 else 1

/-- A block on its way from a half to a port: a port of the other half is reached over the Ligature's bulk channel
(R353). -/
def blockTo (s : State) (h : Half) (p src vlf : Nat) (payload : List Byte) : State :=
  blockSend (linkSend s h.val (portHalf p).val 3 .transit p vlf 0 payload) p src vlf payload

/-- A packet as it leaves on its entry: at LEVEL 1 from a dateline on (R352). -/
def atLevel (s : State) (h : Half) (k : UtpPkt) : UtpPkt :=
  if bitAt (routeOf s h k.dst.toNat) 27 then { k with ctl := k.ctl ||| 0x40#8 } else k

/-- The virtual lane of a packet (R347). -/
def pktLane (k : UtpPkt) : Nat := 2 * pktLtc k + (if bitAt k.ctl 6 then 1 else 0)

/-- The poisoned 128-byte lines of a payload that block `i` of its packet holds bytes of: the payload begins at byte 32 of
the packet, and a block holds 244 (R306, R346). -/
def pieceMarks (pois : BitVec 32) (i : Nat) : Nat :=
  (List.range 32).foldl (fun n j => if bitAt pois j && decide (32 + 128 * j < 244 * (i + 1) ∧ 244 * i < 160 + 128 * j) then n + 2 ^ j else n) 0

/-- Put a packet of a stream on its link (R346, R352). -/
def emitPkt (s : State) (h : Half) (k : UtpPkt) (p src : Nat) : State :=
  let k := atLevel s h k
  let ps := pieces 244 32 (pktBytes k)
  let s := send s (.utp k)
  (ps.zipIdx).foldl (fun s x =>
    blockTo s h p src (pktLane k + (if x.2 = 0 then 8 else 0) + (if x.2 + 1 = ps.length then 16 else 0) + 128 * pieceMarks k.poison x.2) x.1) s

/-- A packet boundary: UTP_CFG, UTP_LINK_CFG and the routes of a half's frame become active (R436). -/
def utpBoundary (s : State) (h : Half) : State :=
  routeBoundary (applyShadow s [(Frame.utp h).base + 0x08, (Frame.utp h).base + 0x0C]) h

/-- Route a packet of a stream from the engine of a half; a packet without a route is dropped and counted
(R351). -/
def routePktAs (s : State) (h : Half) (src : Nat) (k : UtpPkt) : State :=
  let s := utpBoundary s h
  match routePort s h k with
  | none => count s (.utp h) 0x58 1
  | some p => emitPkt s h k p src

/-- Route a packet of this package. -/
def routePkt (s : State) (h : Half) (k : UtpPkt) : State := routePktAs s h 0 k

/-! ### Contexts (R355 to R357) -/

def ctxReset : Ctx where
  st := .closed
  psn := 0
  unacked := []
  waiting := []
  expPsn := 0
  inc := none
  retries := 0
  rto := 0
  timer := 0
  sinceAck := 0
  nakSent := false
  rnrWait := false
  goback := none
  dtile := []
  dlink := none
  announced := []
  sentN := 0
  ackN := 0
  stalled := 0

def ctxKey (peer cls : Nat) : Nat := peer * 16 + cls
def ctxOf (s : State) (key : Nat) : Ctx := sget ctxReset s.ctxs key
def setCtx (s : State) (key : Nat) (c : Ctx) : State := { s with ctxs := sset s.ctxs key c }

/-- UTP_CFG of the engine that holds a context. -/
def utpCfg (s : State) (h : Half) : Word := regAct s ((Frame.utp h).base + 0x08)
/-- The initial RTO in µs, 0 acting as 1. -/
def initRto (s : State) (h : Half) : Nat := max 1 (field (utpCfg s h) 9 0)

/-- The cumulative acknowledgement a context sends: the last PSN received in order, when there is
one. -/
def ctxApsn (c : Ctx) : Option Nat :=
  if c.inc.isNone then none else if c.expPsn = 0 then none else some ((c.expPsn + 2 ^ 24 - 1) % 2 ^ 24)

/-- Send a packet without payload on a context's control path (R355). -/
def sendCtl (s : State) (key opcode psn : Nat) : State :=
  let cls := key % 16
  let c := ctxOf s key
  routePkt s (ctxHalf s cls) (mkPkt s (BitVec.ofNat 16 (key / 16)) cls opcode false psn (ctxApsn c) [])

/-- Bytes in the retransmit store of a half's engine (R357). -/
def storeBytes (s : State) (h : Half) : Nat :=
  s.ctxs.foldl (fun n p => if ctxHalf s (p.1 % 16) = h then p.2.unacked.foldl (fun n k => n + k.payload.length) n else n) 0

/-- Send the oldest waiting payload of an OPEN context as DATA, window and store allowing, while the domain is up (R357,
R359). -/
def ctxSendOne (s : State) (key : Nat) : Option State :=
  let c := ctxOf s key
  let h := ctxHalf s (key % 16)
  match c.waiting with
  | [] => none
  | (b, last, pois) :: rest =>
    if alive s && c.st = .opened && !c.rnrWait && c.unacked.length < 1024 && storeBytes s h + b.length ≤ 67108864 then
      let k := { mkPkt s (BitVec.ofNat 16 (key / 16)) (key % 16) 0 last c.psn (ctxApsn c) b with poison := pois }
      let s := setCtx s key { c with
        waiting := rest, stalled := c.stalled - 1, unacked := c.unacked ++ [k], psn := (c.psn + 1) % 2 ^ 24, sinceAck := 0
        timer := if c.unacked.isEmpty then s.tick.toNat else c.timer }
      some (routePkt (count s (.utp h) 0x40 1) h k)
    else none

/-- Send as much as may leave. -/
def ctxPump : Nat → State → Nat → State
  | 0, s, _ => s
  | fuel + 1, s, key =>
    match ctxSendOne s key with
    | none => s
    | some s => ctxPump fuel s key

/-- Whether only the full retransmit store keeps a context's oldest payload (R357). -/
def storeStalled (s : State) (key : Nat) : Bool :=
  let c := ctxOf s key
  match c.waiting with
  | [] => false
  | (b, _) :: _ => c.st = .opened && !c.rnrWait && c.unacked.length < 1024 && decide (67108864 < storeBytes s (ctxHalf s (key % 16)) + b.length)

/-- Send what waits on a context. Payloads that wait because the store is full count in UTP_STORE_STALL, each once
(R357). -/
def ctxKick (s : State) (key : Nat) : State :=
  let s := ctxPump ((ctxOf s key).waiting.length + 1) s key
  let c := ctxOf s key
  if storeStalled s key && decide (c.stalled < c.waiting.length) then
    count (setCtx s key { c with stalled := c.waiting.length }) (.utp (ctxHalf s (key % 16))) 0x68 (c.waiting.length - c.stalled)
  else s

/-- Space in the retransmit store of a half frees: the contexts that wait send, in the order of their numbers
(R357; the order is DESIGN CHOICE, log entry 46). -/
def storeKick (s : State) (h : Half) : State :=
  (s.ctxs.filter fun p => decide (ctxHalf s (p.1 % 16) = h) && !p.2.waiting.isEmpty).foldl (fun s p => ctxKick s p.1) s

/-- A user's payload for a context (R356), with the 128-byte lines of it that are poisoned (R306): the status that ends
it at once, or none. -/
def utpSend (s : State) (peer cls : Nat) (payload : List Byte) (last : Bool) (pois : BitVec 32) : State × Option (BitVec 8) :=
  let key := ctxKey peer cls
  let h := ctxHalf s cls
  let s := utpBoundary s h
  let c := ctxOf s key
  if !alive s then (s, none)
  else match c.st with
  | .failed => (s, some stPeerAbandoned)
  | .down => (s, some stDomainDown)
  | .closed =>
    let s := setCtx s key { c with st := .opening, waiting := [(payload, last, pois)], retries := 0, rto := initRto s h
                                   timer := s.tick.toNat, sentN := c.sentN + 1 }
    (sendCtl s key 4 0, none)
  | .opening | .opened =>
    (ctxKick (setCtx s key { c with waiting := c.waiting ++ [(payload, last, pois)], sentN := c.sentN + 1 }) key, none)

end Sys2Proof.Machine
end

