-- ==== Sys2Proof/Machine/Down.lean ====
section
/-! DEFINITION. The coherent domain goes down (R340, R341, R359), and the log entries that go with
failures (R423; the widths of payload fields are DESIGN CHOICE, log entry 28). -/

namespace Sys2Proof.Machine
open Sys2Proof

/-- A payload of fields, each a width in bytes and a value, in order. -/
def logFields (l : List (Nat × Nat)) : List Byte := l.flatMap fun x => leBytes x.1 x.2

/-- Event 0x0032: link codes 0 Ligature, 1 and 2 Blotter links, 8 + l a CXL link, 16 + p a port. -/
def logLinkFail (s : State) (link cause : Nat) : State := logPut s 0x0032 2 (logFields [(4, link), (4, cause)])

/-- DOMAIN_DOWN on every context of a half that is OPEN or OPENING (R359), a stream of its own. -/
def sendDowns (s : State) : State :=
  s.ctxs.foldl (fun s p =>
    if p.2.st = .opened || p.2.st = .opening then
      let cls := p.1 % 16
      routePktAs s (ctxHalf s cls) 255 (mkPkt s (BitVec.ofNat 16 (p.1 / 16)) cls 6 false 0 none [])
    else s) s

/-- After DOMAIN_DOWN a port carries nothing more: of what waits for a credit, only DOMAIN_DOWN still leaves (R341, R359). -/
def fabricStop (s : State) : State :=
  { s with ports := s.ports.map fun p =>
      (p.1, { p.2 with link := { p.2.link with txq := p.2.link.txq.filter fun x => x.1 = 255, owner := [] } }) }

/-- An update whose image is still being read when the domain goes down fails with cause 8, its slot as it was; whether the
read still goes on is free (R405; DESIGN CHOICE, log entry 47). -/
def updCut (s : State) : State :=
  if s.col.upd = .busy && s.col.updImage.isSome then
    let r := freshBit s
    let c := s.col.updComp.toNat - 1
    let booted := if c = 0 then s.col.bootedCol else if c = 1 then s.col.bootedScfw else s.col.bootedRub
    if r.2 then
      { r.1 with
        col := { s.col with updImage := none, updCause := 8 }
        flash := s.flash.put fun b => { b with slots := sset b.slots (2 * c + (1 - booted)) s.col.updOld } }
    else r.1
  else s

/-- The domain goes down: cause, the home that detected it (0, 1 the Reservoirs, 2 the Blotter), the
agent and the line concerned; the Blotter is cut off (R262, R340, R341). A domain that is down stays as it went down (R342). -/
def domainDown (s : State) (cause home agent addr : Nat) : State :=
  if !alive s then s
  else
    let s := updCut (fabricStop (sendDowns (bltCut s)))
    let s := logPut s 0x0030 4 (logFields [(4, cause), (4, agent), (8, addr)])
    { s with
      coh := { s.coh with
        running := false, down := true, cause := BitVec.ofNat 4 cause, downHome := home + 1
        downAgent := BitVec.ofNat 10 agent, downAddr := BitVec.ofNat 48 addr, downTick := s.tick.toNat }
      cores := s.cores.map fun p => (p.1, if p.2.running then { p.2 with nmi := true, mncause := 1, machine := true } else p.2)
      scb := s.scb.map fun p => (p.1, { p.2 with run := if p.2.run = .off then .off else .halted })
      srp := s.srp.map fun p => (p.1, { p.2 with run := if p.2.run = .off then .off else .halted })
      feeds := s.feeds.map fun p => (p.1, { p.2 with run := if p.2.run = .off then .off else .halted })
      blt := if s.blt = .off then .off else .halted }

/-- The agent ID of a home (R322). -/
def homeAgent (home : Nat) : Nat := 108 + home

end Sys2Proof.Machine
end

