-- ==== Sys2Proof/Machine/Blotter.lean ====
section
/-! DEFINITION. The Blotter: updates, pins and inits (R228 to R254, R261, R262). -/

namespace Sys2Proof.Machine
open Sys2Proof

/-! ### Slots and pins -/

/-- The update of a slot. -/
def updAt (s : State) (k : Nat) : Option Upd := (s.upds.find? fun p => p.1 = k).map Prod.snd
def setUpd (s : State) (k : Nat) (u : Upd) : State := { s with upds := sset s.upds k u }
/-- Recto and verso pin counts of a region (R251). -/
def pinsOf (s : State) (r : Nat) : Nat × Nat := sget (0, 0) s.pins r
def setPins (s : State) (r : Nat) (p : Nat × Nat) : State := { s with pins := sset s.pins r p }

/-- Whether the Blotter works on commands it has taken. -/
def bltLive (s : State) : Bool := alive s && !bltFenced s && (s.blt = .running || s.blt = .stopped)

/-- The first free slot of the eight (R235). -/
def freeSlot (s : State) : Option Nat := (List.range 8).find? fun k => (updAt s k).isNone

/-- The words with shadow and active copies in the BLT frame. -/
def bltShadows : List Nat :=
  let b := Frame.blt.base
  [b + 0x04, b + 0x10, b + 0x14, b + 0x20]

/-- The Region boundary: shadow values become active at the start of a command (08, *Registers*). -/
def regionBoundary (s : State) : State := applyShadow s bltShadows

/-- The active table base and region count. -/
def rtableAct (s : State) : Nat := regAct64 s (Frame.blt.base + 0x10) / 4096 * 4096
def nregionsAct (s : State) : Nat := field (regAct s (Frame.blt.base + 0x20)) 16 0

/-- The descriptor at an address, or the status of its read (stage 1). -/
def readRegion (s : State) (a : Nat) : State × Except (BitVec 8) Region :=
  match pread s a 256 with
  | (s, none) => (s, .error stBus)
  | (s, some b) => if b.poisoned then (s, .error stDataPoison) else (s, .ok (regionOf b.bytes))

/-! ### REGION_UPDATE (R233, R235) -/

/-- Whether a body breaks R233. -/
def Upd.bad (u : Upd) : Bool :=
  let mode := field u.uctl 2 1
  let lr := val32 u.lrReg.toNat
  65536 ≤ u.region || mode = 3 || field u.uctl 31 3 ≠ 0 || field u.expect 63 48 ≠ 0 || u.expect.toNat = 2 ^ 48 - 1
  || (if bitAt u.uctl 0 then !lr.isFin || lr.lt (.fin false 0 0) else u.lrReg ≠ 0)
  || (mode ≠ 1 && u.clip ≠ 0) || (if mode = 2 then u.clipAddr.toNat % 4 ≠ 0 else u.clipAddr ≠ 0)

/-- An update as it enters its slot. -/
def newUpd (s : State) (id : Nat) (sp : Space) (b : List Byte) : Upd where
  out := id
  order := s.updOrder
  space := sp
  region := bget b 0 4
  uctl := BitVec.ofNat 32 (bget b 4 4)
  expect := BitVec.ofNat 64 (bget b 8 8)
  lrReg := BitVec.ofNat 32 (bget b 0x10 4)
  clip := BitVec.ofNat 32 (bget b 0x14 4)
  clipAddr := BitVec.ofNat 64 (bget b 0x18 8)
  rtable := 0
  nregions := 0
  pinWait := 0
  stage := 1
  desc := none
  lr := 0
  c := 0
  waitFrom := none
  badLines := 0
  anyFail := false
  anyPoison := false

/-- Whether a REGION_UPDATE takes its rate from the Ruler while that feature is not enabled (R428). -/
def rulerOff (s : State) (c : JCmd) : Bool := !bitAt (BitVec.ofNat 32 (bget c.body 4 4)) 0 && !featureOn s 3

/-- REGION_UPDATE takes a free slot at its dispatch, or is held at the head. -/
def runRegionUpdate (poison : Bool) (c : JCmd) (s : State) : State :=
  let sp := queueSpace s c.queue.toNat
  gate s c 0x50 poison false (rulerOff s c) (bltFenced s) ((freeSlot s).isNone) fun id s =>
    match freeSlot s with
    | none => s
    | some k => { setUpd s k (newUpd s id sp c.body) with updOrder := s.updOrder + 1 }

def execRegionUpdate (c : JCmd) (s : State) : Out := .next (runRegionUpdate false c s)

/-! ### Pins and inits (R252 to R254) -/

/-- Whether an update of the region is in stage 7, 8 or 9. -/
def inStream (s : State) (r : Nat) : Bool := s.upds.any fun p => p.2.region = r && 7 ≤ p.2.stage

/-- A pin or an init is taken; a descriptor that cannot be read ends it with the read's status and its address (DEDUCED, log
entry 52). -/
def takePin (s : State) (id r : Nat) (init : Bool) : State :=
  let s := regionBoundary s
  let a := rtableAct s + 256 * r
  if nregionsAct s ≤ r then report s id stMalformed 0 0
  else
    match readRegion s a with
    | (s, .error st) => report s id st a 0
    | (s, .ok d) =>
      let p := pinsOf s r
      if d.bad then report s id stMalformed 0 0
      else if init then report (setPins s r (0, 0)) id stOk d.step.toNat 0
      else if !d.versioned || 65535 ≤ p.1 then report s id stMalformed 0 0
      else report (setPins s r (p.1 + 1, p.2)) id stOk d.step.toNat d.recto

/-- A release is taken; a descriptor that cannot be read ends it as it ends a pin (DEDUCED, log entry 52). -/
def takeRelease (s : State) (id r epoch : Nat) : State :=
  let s := regionBoundary s
  let a := rtableAct s + 256 * r
  if nregionsAct s ≤ r then report s id stMalformed 0 0
  else
    match readRegion s a with
    | (s, .error st) => report s id st a 0
    | (s, .ok d) =>
      let p := pinsOf s r
      if d.bad || !d.versioned then report s id stMalformed 0 0
      else if epoch = d.step.toNat ∧ 0 < p.1 then report (setPins s r (p.1 - 1, p.2)) id stOk (p.1 - 1) 0
      else if epoch + 1 = d.step.toNat ∧ 0 < p.2 then report (setPins s r (p.1, p.2 - 1)) id stOk (p.2 - 1) 0
      else report (count s .blt 0x68 1) id stOk 0 1

/-- A pin or init is taken at once, or waits for the update in stage 7 or 8 (R254). -/
def pinOrWait (s : State) (id r : Nat) (init : Bool) : State :=
  if inStream s r || s.bltWaits.any (fun w => w.region = r) then { s with bltWaits := s.bltWaits ++ [⟨id, init, r⟩] }
  else takePin s id r init

/-- The pins and inits that waited for a region's update are taken, in order. -/
def settlePins (s : State) (r : Nat) : State :=
  if inStream s r then s
  else
    (s.bltWaits.filter fun w => w.region = r).foldl (fun s w => takePin s w.out r w.init)
      { s with bltWaits := s.bltWaits.filter fun w => w.region ≠ r }

/-- PIN_EPOCH (R252). -/
def runPinEpoch (poison : Bool) (c : JCmd) (s : State) : State :=
  let b := c.body
  let op := bget b 4 4
  let bad := bget b 2 2 ≠ 0 || 1 < op || 2 ^ 48 ≤ bget b 8 8 || (op = 0 && bget b 8 8 ≠ 0)
  gate s c 0x51 poison false bad (bltFenced s) false fun id s =>
    if op = 1 then takeRelease s id (bget b 0 2) (bget b 8 8) else pinOrWait s id (bget b 0 2) false

def execPinEpoch (c : JCmd) (s : State) : Out := .next (runPinEpoch false c s)

/-- REGION_INIT (R253). -/
def runRegionInit (poison : Bool) (c : JCmd) (s : State) : State :=
  let b := c.body
  gate s c 0x52 poison false (bget b 2 2 ≠ 0 || bget b 4 4 ≠ 0) (bltFenced s) false fun id s =>
    pinOrWait s id (bget b 0 2) true

def execRegionInit (c : JCmd) (s : State) : Out := .next (runRegionInit false c s)

/-! ### The stages (R234, R236, R237) -/

/-- An update completes: its slot is free, and what waited for it goes on. -/
def updEnd (s : State) (k : Nat) (u : Upd) (st : BitVec 8) (d0 d1 : Nat) : State :=
  let s := report { s with upds := sdel s.upds k } u.out st d0 d1
  let s := settlePins s u.region
  match u.desc with
  | none => s
  | some d => rulSettle s d.group

/-- Whether an earlier update of the region is not complete (R236). -/
def updWaits (s : State) (u : Upd) : Bool := s.upds.any fun p => p.2.region = u.region && p.2.order < u.order

/-- The tensors an update reads or writes: address, element bytes, and whether it reads and writes
(R237). -/
def Region.tensors (r : Region) : List (Nat × Nat × Bool × Bool) :=
  let eb (f : Nat) : Nat := fmtBits f / 8
  (if r.versioned then [(r.recto, 2, true, false), (r.dest, 2, false, true)] else [(r.w0.toNat, 2, true, true)]) ++
    [(r.g.toNat, eb r.gFmt, true, false), (r.m.toNat, eb r.sFmt, true, true)] ++
    (if r.algo = 1 then [(r.v.toNat, eb r.sFmt, true, true)] else [])

/-- Translate the pages from `va` on; the first address that fails. -/
def xlatePages (h : Half) (sp : Space) (rd wr : Bool) : Nat → Nat → State → State × Option Nat
  | 0, _, s => (s, none)
  | n + 1, va, s =>
    match (if rd then xlate s h sp va false else (s, some 0)) with
    | (s, none) => (s, some va)
    | (s, some _) =>
      match (if wr then xlate s h sp va true else (s, some 0)) with
      | (s, none) => (s, some va)
      | (s, some _) => xlatePages h sp rd wr n ((va / 4096 + 1) * 4096) s

/-- Translate every page of the tensors (stage 7). -/
def xlateTensors (s : State) (h : Half) (sp : Space) (n : Nat) (l : List (Nat × Nat × Bool × Bool)) : State × Option Nat :=
  l.foldl (fun r t =>
    match r.2 with
    | some _ => r
    | none => xlatePages h sp t.2.2.1 t.2.2.2 ((t.1 % 4096 + n * t.2.1 + 4095) / 4096) t.1 r.1) (s, none)

/-- Stage 5 ends with the clip factor: the pin wait starts when the verso is pinned (R251). -/
def enterSix (s : State) (k : Nat) (u : Upd) (d : Region) (c : BitVec 32) : State :=
  let waits := d.versioned && (pinsOf s u.region).2 ≠ 0
  setUpd s k { u with stage := 6, c := c, waitFrom := if waits then some s.tick.toNat else none }

/-- The end of a wait in stage 6 counts its ticks (R251). -/
def countWait (s : State) (u : Upd) : State :=
  match u.waitFrom with
  | none => s
  | some t => count s .blt 0x70 (s.tick.toNat - t)

/-- Stage 6 ends (R251, R257): the wait is counted, and the rate taken from the command or the group's active settings. -/
def leavePinWait (s : State) (k : Nat) (u : Upd) (d : Region) : State :=
  let lr := if bitAt u.uctl 0 then u.lrReg.toNat else ruler (rulOf s d.group).ac (u.expect.toNat + 1)
  setUpd (countWait s u) k { u with stage := 7, lr := BitVec.ofNat 32 lr, waitFrom := none }

/-- HELD_TIMEOUT (R251). -/
def heldTimeout (s : State) (k : Nat) (u : Upd) (d : Region) : State :=
  updEnd (count (countWait s u) .blt 0x60 1) k u stHeldTimeout (d.step.toNat - 1) (pinsOf s u.region).2

/-- Stage 1: the Region boundary and the descriptor. A REGION at or above COUNT ends it before any read (DEDUCED, log entry
52). -/
def stageRead (s : State) (k : Nat) (u : Upd) : State :=
  let s := regionBoundary s
  let u := { u with
    rtable := BitVec.ofNat 64 (rtableAct s), nregions := nregionsAct s
    pinWait := field (regAct s (Frame.blt.base + 4)) 19 0 }
  let a := u.rtable.toNat + 256 * u.region
  if u.nregions ≤ u.region || 65536 ≤ u.region then updEnd s k u stMalformed 0 0
  else
    match readRegion s a with
    | (s, .error st) => updEnd s k u st a 0
    | (s, .ok d) => setUpd s k { u with desc := some d, stage := 2 }

/-- One stage of 2 to 7 of an update whose descriptor is `d`. -/
def stageGo (s : State) (k : Nat) (u : Upd) (d : Region) : State :=
  let h := queueHalf u.space.queue.toNat
  match u.stage with
  | 2 =>
    if d.bad || u.bad then updEnd s k u stMalformed 0 0
    else setUpd (if bitAt u.uctl 0 then s else rulStart s d.group (u.expect.toNat + 1)) k { u with stage := 3 }
  | 3 =>
    if d.frozen then updEnd (count s .blt 0x50 1) k u stFrozen d.step.toNat 0 else setUpd s k { u with stage := 4 }
  | 4 =>
    if d.step ≠ u.expect then updEnd (count s .blt 0x58 1) k u stStepMismatch d.step.toNat u.expect.toNat
    else setUpd s k { u with stage := 5 }
  | 5 =>
    match field u.uctl 2 1 with
    | 0 => enterSix s k u d 0x3F800000
    | 1 => enterSix s k u d u.clip
    | _ =>
      match vread s h u.space u.clipAddr.toNat 4 with
      | (s, .error f) => updEnd s k u f.status u.clipAddr.toNat 0
      | (s, .ok b) =>
        if b.poisoned then updEnd s k u stDataPoison u.clipAddr.toNat 0
        else enterSix s k u d (BitVec.ofNat 32 (leNat b.bytes))
  | 6 =>
    if d.versioned && (pinsOf s u.region).2 ≠ 0 then
      if u.pinWait = 0 then heldTimeout s k u d
      else s
    else leavePinWait s k u d
  | 7 =>
    match xlateTensors s h u.space d.n d.tensors with
    | (s, some va) => updEnd s k u stTranslation va 0
    | (s, none) => setUpd s k { u with stage := 8 }
  | _ => s

/-- A stage of an update ends (R234). -/
def stageDone (s : State) (k : Nat) : State :=
  match updAt s k with
  | none => s
  | some u =>
    if !bltLive s then s
    else if u.stage = 1 then (if updWaits s u then s else stageRead s k u)
    else match u.desc with
    | none => s
    | some d => stageGo s k u d

def execUpdateStageDone (k : Fin 8) (s : State) : Out := .next (stageDone s k.val)

/-- The verso pin outlasted PIN_WAIT (R251). -/
def pinTimeout (s : State) (k : Nat) : State :=
  match updAt s k with
  | none => s
  | some u =>
    match u.desc with
    | none => s
    | some d =>
      if bltLive s && u.stage = 6 && d.versioned && (pinsOf s u.region).2 ≠ 0 then heldTimeout s k u d else s

def execPinWaitTimeout (k : Fin 8) (s : State) : Out := .next (pinTimeout s k.val)

/-! ### The stream (R238, R247, R248) -/

/-- The whole region is processed, and the step waits to be committed (R238). -/
def streamDone (s : State) (k : Nat) : State :=
  match updAt s k with
  | none => s
  | some u =>
    match u.desc with
    | none => s
    | some d =>
      if !bltLive s || u.stage ≠ 8 then s
      else
        let s := count (count s .blt 0x40 1) .blt 0x48 d.updated
        let (s, a) := streamGo d u (scalars d u) (cdiv d.n 64) 0 s { bad := 0, fail := false, pois := false, conv := [], cut := false, lines := 0 }
        let s := gaugeAdd s (gaugeKey 4 u.region) a.conv
        setUpd s k { u with stage := 9, badLines := a.bad, anyFail := a.fail, anyPoison := a.pois }

def execUpdateStreamDone (k : Fin 8) (s : State) : Out := .next (streamDone s k.val)

/-! ### The commit of the step (R239) -/

/-- Bytes 0x00 to 0x0F of the descriptor after the update. -/
def descOut (d : Region) (t : Nat) : List Byte :=
  let ctl := if d.versioned then d.ctl ^^^ 0x40#32 else d.ctl
  leBytes 4 ctl.toNat ++ leBytes 4 d.resv4.toNat ++ leBytes 8 t

/-- The descriptor is written back and the update completes. -/
def descWriteback (s : State) (k : Nat) : State :=
  match updAt s k with
  | none => s
  | some u =>
    match u.desc with
    | none => s
    | some d =>
      if !bltLive s || u.stage ≠ 9 then s
      else
        let t := u.expect.toNat + 1
        let a := u.rtable.toNat + 256 * u.region
        let lines := min u.badLines (2 ^ 32 - 1)
        match pwrite s a (descOut d t) with
        | (s, false) => updEnd s k u stBus a (u.lr.toNat + 2 ^ 32 * lines)
        | (s, true) =>
          let s := if d.versioned then setPins s u.region (0, (pinsOf s u.region).1) else s
          let st := if u.anyFail then stBus else if u.anyPoison then stDataPoison else stOk
          updEnd s k u st t (u.lr.toNat + 2 ^ 32 * (if st = stOk then u.c.toNat else lines))

def execDescriptorWriteback (k : Fin 8) (s : State) : Out := .next (descWriteback s k.val)

/-! ### Driver loss (R261) -/

/-- Updates in stages 1 to 6 complete with DRIVER_LOST. -/
def bltDropEarly (s : State) : State :=
  (s.upds.filter fun p => p.2.stage ≤ 6).foldl (fun s p => updEnd (countWait s p.2) p.1 p.2 stDriverLost 0 0) s

end Sys2Proof.Machine
end

