-- ==== Sys2Proof/Machine/NibCore.lean ====
section
/-! DEFINITION. A Nib's registers, its local store and its mailboxes as other units reach them (R123 to
R129, R136 to R140). -/

namespace Sys2Proof.Machine
open Sys2Proof

/-- No bound space. -/
def spaceNone : Space := ⟨0, 0, 0⟩

/-- A Nib after reset: halted, everything zero (R64, R443; DESIGN CHOICE, log entry 5). -/
def nibReset : Nib where
  st := .halted
  cause := 0
  pc := 0
  x := []
  f := []
  frm := 0
  space := spaceNone
  launch := none
  v := []
  m := []
  len := 0
  bctl := 0
  bstat := 0
  bpoison := 0
  bseed := 0
  bcnt := 0
  mbox := []
  mfull := 0
  well := wellZero
  cycle := 0
  instret := 0
  ls := []
  lsPoison := []
  lsEcc := []
  faultAddr := 0
  faultVa := 0
  stage := []
  portWait := false
  portTick := 0
  rops := []
  storeFault := none
  waitMask := 0
  waitRd := 0

def nibAt (s : State) (k : Nat) : Nib := sget nibReset s.nibs k
def nibOf (s : State) (n : NibId) : Nib := nibAt s n.num
def setNibAt (s : State) (k : Nat) (v : Nib) : State := { s with nibs := sset s.nibs k v }
def setNib (s : State) (n : NibId) (v : Nib) : State := setNibAt s n.num v

/-- The Nib with number 2,304h + 16q + n. -/
def nibIdOf (k : Nat) : NibId :=
  ⟨halfOf (k / 2304), ⟨k / 16 % 144, Nat.mod_lt _ (by decide)⟩, ⟨k % 16, Nat.mod_lt _ (by decide)⟩⟩

/-- x[i], x0 reading zero. -/
def Nib.xr (v : Nib) (i : Nat) : Word := if i % 32 = 0 then 0 else sget 0 v.x (i % 32)

/-- Write x[i]; a write of x0 is discarded. -/
def Nib.setX (v : Nib) (i : Nat) (w : Word) : Nib := if i % 32 = 0 then v else { v with x := sset v.x (i % 32) w }

/-- Write a message into mailbox `b` and set FULL (R136). -/
def Nib.mailIn (v : Nib) (b : Nat) (bytes : List Byte) : Nib :=
  { v with mbox := bputRange v.mbox (64 * b) (bslice bytes 0 64), mfull := v.mfull ||| (1#16 <<< b) }

/-- Whether mailbox `b` is full. -/
def Nib.mailFull (v : Nib) (b : Nat) : Bool := bitAt v.mfull b

/-! ### Retiring, faults and the end of a launch -/

/-- The NIB frame of a Nib's quire. -/
def nibFrame (n : NibId) : Frame := .nib n.h n.q

/-- The offset of a Nib's register block in its frame. -/
def nibBlock (n : NibId) : Nat := 0x100 + 0x40 * n.n.val

/-- One instruction retires: the counters advance (R123, NIB_RETIRED; DESIGN CHOICE, log entry 14) and pc is `npc`. -/
def nibRetire (s : State) (n : NibId) (v : Nib) (npc : Word) : State :=
  let a := (nibFrame n).base + nibBlock n + 0x28
  let k := Config.stalls n.num (regWord64 s a)
  setNib (count s (nibFrame n) (nibBlock n + 0x28) 1) n
    { v with pc := npc, instret := v.instret + 1, cycle := v.cycle + 1 + BitVec.ofNat 64 k }

/-- A message reaches a mailbox; a Nib that waits on it resumes, and its MWAIT retires (R136, R140). -/
def mailTo (s : State) (n : NibId) (b : Nat) (bytes : List Byte) : State :=
  let v := (nibOf s n).mailIn b bytes
  if v.st = .waiting && v.waitMask &&& v.mfull ≠ 0 then
    nibRetire s n { v.setX v.waitRd.toNat (v.mfull.setWidth 32) with st := .running, waitMask := 0 } (v.pc + 4)
  else setNib s n v

/-- The launch status of a fault cause (R134). -/
def nibStatus (cause : BitVec 4) : BitVec 8 :=
  if cause = 4 then stTranslation else if cause = 6 then stDataPoison else stBus

/-- The launch ends: x10, BSTAT and the cause are reported (R133, R134, R192). -/
def endLaunch (s : State) (n : NibId) (v : Nib) (st : BitVec 8) : State :=
  reportOpt (setNib s n { v with launch := none }) v.launch st (v.xr 10).toNat
    (v.bstat.toNat + 2 ^ 32 * v.cause.toNat)

/-- A fault halts the Nib in FAULTED and completes its launch (R134). -/
def nibFault (s : State) (n : NibId) (f : NFault) : State :=
  let v := { nibOf s n with
    st := .faulted, cause := f.cause, faultAddr := f.addr, faultVa := f.va, storeFault := none, waitMask := 0 }
  endLaunch s n v (nibStatus f.cause)

/-- Whether a QDMA transfer of the Nib is not done. -/
def qdmaBusy (s : State) (n : NibId) : Bool := (sget [] s.qdma n.quire.num).any fun t => t.nib = n.n

/-- Whether nothing that a Nib started is outstanding (R126, R130). -/
def nibQuiet (s : State) (n : NibId) : Bool := (nibOf s n).rops.isEmpty && !qdmaBusy s n

/-- A fault of an instruction: the Nib first waits for its outstanding operations, in `s0` (R134). -/
def faultAfter (s0 s : State) (n : NibId) (f : NFault) : State :=
  if nibQuiet s0 n then nibFault s n f else s0

/-- A stop that waited for the Nib's outstanding operations or its submit takes effect (R135). -/
def settleStop (s : State) (n : NibId) : State :=
  let v := nibOf s n
  match v.storeFault with
  | some f => if f.cause = 8 && nibQuiet s n && !v.portWait then nibFault s n f else s
  | none => s

/-! ### The local store (R124, R129) -/

/-- Bytes of a local store. -/
def lsSize : Nat := 0x30000

/-- Whether any 16-byte word that `n` bytes at `a` touch is poisoned (R129). -/
def lsPoisoned (v : Nib) (a n : Nat) : Bool := v.lsPoison.any fun w => decide (a / 16 ≤ w ∧ w ≤ (a + n - 1) / 16)

/-- Write bytes of the local store: a whole 16-byte word of unpoisoned data clears its poison, and a
part of a poisoned word leaves it poisoned (R129, R439). A word wholly written is encoded anew. -/
def lsWrite (v : Nib) (a : Nat) (b : List Byte) (pois : Bool) : Nib :=
  let lo := a / 16
  let hi := (a + b.length - 1) / 16
  let keep (w : Nat) : Bool := w < lo || hi < w || !(a ≤ 16 * w && 16 * w + 16 ≤ a + b.length)
  let ps := v.lsPoison.filter keep
  let ps := if pois && !b.isEmpty then (List.range (hi + 1 - lo)).foldl (fun l i => ninsert l (lo + i)) ps else ps
  { v with ls := bputRange v.ls a b, lsPoison := ps, lsEcc := v.lsEcc.filter fun p => keep p.1 }

/-- The XLT_INVALIDATE commands that no remote operation and no DMA read holds up any more complete (R316). -/
def settleInvals (s : State) : State :=
  let held (id : Nat) : Bool :=
    (s.nibs.any fun p => p.2.rops.any fun o => o.inv.contains id)
      || s.dmas.any fun p => p.2.reads.any fun r => r.inv.contains id
  (s.invals.filter fun id => !held id).foldl (fun s id => report s id stOk 0 0) { s with invals := s.invals.filter held }

/-- A 16-byte word with `k` symbols in error is read (R129, R305): one is corrected and counted in NIB_LS_CE, two
poison the word and count in NIB_LS_UE, more do either, and a wrong correction leaves the word's bytes free
(DESIGN CHOICE, log entry 7). -/
def lsWord (s : State) (n : NibId) (w k : Nat) : State :=
  let v := nibOf s n
  let v := { v with lsEcc := sdel v.lsEcc w }
  let fix (s : State) (v : Nib) : State := count (setNib s n v) (nibFrame n) 0x40 1
  let bad (s : State) : State := count (setNib s n { v with lsPoison := ninsert v.lsPoison w }) (nibFrame n) 0x48 1
  if k = 0 then setNib s n v
  else if k = 1 then fix s v
  else if k = 2 then bad s
  else
    let r := freshBit s
    if r.2 then bad r.1
    else
      let b := (List.range 16).map fun i => Config.freeByte (r.1.free + i)
      fix { r.1 with free := r.1.free + 16 } { v with ls := bputRange v.ls (16 * w) b }

/-- The words that `len` bytes of a local store at `a` touch are read. -/
def lsCheck (s : State) (n : NibId) (a len : Nat) : State :=
  ((nibOf s n).lsEcc.filter fun p => decide (a / 16 ≤ p.1 ∧ p.1 ≤ (a + len - 1) / 16)).foldl
    (fun s p => lsWord s n p.1 p.2) s

/-- A write to a local store: a word written in part is read, merged and encoded anew (R129, R439). -/
def lsStore (s : State) (n : NibId) (a : Nat) (b : List Byte) (pois : Bool) : State :=
  let s := if a % 16 ≠ 0 then lsCheck s n a 1 else s
  let s := if (a + b.length) % 16 ≠ 0 then lsCheck s n (a + b.length - 1) 1 else s
  setNib s n (lsWrite (nibOf s n) a b pois)

end Sys2Proof.Machine
end

