-- ==== Sys2Proof/Machine/Ink.lean ====
section
/-! DEFINITION. Inkstones: tile operations from dispatch to completion, the palette, multicast and
Ductus chains (R81 to R120, R141, R142, R361). -/

namespace Sys2Proof.Machine
open Sys2Proof

/-! ### The descriptor (R102 to R107) -/

/-- The 224-byte body as fields. -/
def tileOfBody (b : List Byte) : TileOp where
  aAddr := BitVec.ofNat 64 (bget b 0x00 8)
  bAddr := BitVec.ofNat 64 (bget b 0x08 8)
  aScale := BitVec.ofNat 64 (bget b 0x10 8)
  bScale := BitVec.ofNat 64 (bget b 0x18 8)
  aStride := BitVec.ofNat 32 (bget b 0x20 4)
  bStride := BitVec.ofNat 32 (bget b 0x24 4)
  aScaleStride := BitVec.ofNat 32 (bget b 0x28 4)
  bScaleStride := BitVec.ofNat 32 (bget b 0x2C 4)
  k := BitVec.ofNat 32 (bget b 0x30 4)
  opnd := BitVec.ofNat 32 (bget b 0x34 4)
  outc := BitVec.ofNat 32 (bget b 0x38 4)
  mcast := BitVec.ofNat 32 (bget b 0x3C 4)
  outAddr := BitVec.ofNat 64 (bget b 0x40 8)
  outStride := BitVec.ofNat 32 (bget b 0x48 4)
  preFmt := BitVec.ofNat 32 (bget b 0x4C 4)
  preAddr := BitVec.ofNat 64 (bget b 0x50 8)
  preStride := BitVec.ofNat 32 (bget b 0x58 4)
  portCtl := BitVec.ofNat 32 (bget b 0x5C 4)
  seed := BitVec.ofNat 64 (bget b 0x60 8)
  base := BitVec.ofNat 64 (bget b 0x68 8)
  duct := BitVec.ofNat 32 (bget b 0x70 4)
  pred := BitVec.ofNat 32 (bget b 0x74 4)
  succ := BitVec.ofNat 32 (bget b 0x78 4)
  resv := bslice b 0x7C 100

def TileOp.kLen (t : TileOp) : Nat := field t.k 23 0
def TileOp.noWgrad (t : TileOp) : Bool := bitAt t.opnd 24
def TileOp.init (t : TileOp) : Nat := field t.outc 1 0
def TileOp.action (t : TileOp) : Nat := field t.outc 3 2
def TileOp.outFmt (t : TileOp) : Nat := field t.outc 7 4
def TileOp.round (t : TileOp) : Nat := field t.outc 9 8
def TileOp.range (t : TileOp) : Nat := field t.outc 11 10
def TileOp.gauge (t : TileOp) : Nat := field t.outc 14 12
def TileOp.isMcast (t : TileOp) : Bool := bitAt t.mcast 0
def TileOp.members (t : TileOp) : BitVec 4 := (t.mcast >>> 1).setWidth 4
def TileOp.mcTag (t : TileOp) : BitVec 16 := (t.mcast >>> 16).setWidth 16
def TileOp.hasPred (t : TileOp) : Bool := bitAt t.duct 16
def TileOp.hasSucc (t : TileOp) : Bool := bitAt t.duct 17
def TileOp.tag (t : TileOp) : BitVec 16 := t.duct.setWidth 16
def TileOp.recvSeg (t : TileOp) : Nat := field t.duct 22 18

/-- One operand of an operation. -/
structure Operand where
  fmt : Nat
  view : Nat
  src : Nat
  seg : Nat
  addr : Nat
  stride : Nat
  sAddr : Nat
  sStride : Nat
  deriving DecidableEq, Repr

def TileOp.opA (t : TileOp) : Operand :=
  ⟨field t.opnd 3 0, field t.opnd 8 8, field t.opnd 11 10, field t.opnd 18 14, t.aAddr.toNat, t.aStride.toNat,
    t.aScale.toNat, t.aScaleStride.toNat⟩
def TileOp.opB (t : TileOp) : Operand :=
  ⟨field t.opnd 7 4, field t.opnd 9 9, field t.opnd 13 12, field t.opnd 23 19, t.bAddr.toNat, t.bStride.toNat,
    t.bScale.toNat, t.bScaleStride.toNat⟩

/-- Bytes of an operand, scales included (R99). -/
def Operand.bytes (o : Operand) (k : Nat) : Nat := 8 * k * fmtBits o.fmt + if fmtMx o.fmt then 2 * k else 0

/-- Palette segments an operand uses (R99). -/
def Operand.segs (o : Operand) (k : Nat) : Nat := if o.src = 0 then 2 else cdiv (o.bytes k) 65536

/-- Whether two operand formats may pair (R96). -/
def pairOk (a b : Nat) : Bool :=
  if a = 0 then b = 0
  else if 1 ≤ a ∧ a ≤ 4 then 1 ≤ b && b ≤ 4
  else if fmtMx a then fmtMx b
  else a = 0xA && b = 0xA

/-- Whether an operand's used addresses and strides break R102 or R108. -/
def Operand.addrBad (o : Operand) : Bool :=
  o.src ≠ 2 && (o.addr % 32 ≠ 0 || 2 ^ 48 ≤ o.addr || o.stride % 32 ≠ 0
    || (fmtMx o.fmt && (o.sAddr % 32 ≠ 0 || o.sStride % 32 ≠ 0)))

/-- Whether two segment ranges overlap. -/
def segOverlap (a an b bn : Nat) : Bool := a < b + bn && b < a + an

/-- Member index of a quire in its stroke group (R105). -/
def memberOf (q : QuireId) : Nat := 2 * (q.q.val / 12 % 2) + q.q.val % 12 % 2
/-- Stroke group 36h + s of a quire (R13). -/
def groupOf (q : QuireId) : Nat := 36 * q.h.val + 6 * (q.q.val / 12 / 2) + q.q.val % 12 / 2
/-- The quire of member m of a quire's group. -/
def groupMate (q : QuireId) (m : Nat) : QuireId :=
  ⟨q.h, quireFin (12 * (q.q.val / 12 / 2 * 2 + m / 2 % 2) + (q.q.val % 12 / 2 * 2 + m % 2))⟩

/-- Whether a tile operation of an Inkstone is malformed (R109). -/
def tileBad (q : QuireId) (t : TileOp) : Bool :=
  let k := t.kLen
  let a := t.opA
  let b := t.opB
  let an := a.segs k
  let bn := b.segs k
  field t.k 31 24 ≠ 0 || k = 0 || k % 64 ≠ 0 || 16777152 < k
  || field t.opnd 31 25 ≠ 0 || field t.outc 31 15 ≠ 0 || field t.mcast 15 5 ≠ 0 || field t.portCtl 15 4 ≠ 0
  || field t.duct 31 23 ≠ 0 || !allZero t.resv
  || !pairOk a.fmt b.fmt || a.src = 3 || b.src = 3
  || t.init = 3 || t.round = 3 || t.range = 3
  || a.addrBad || b.addrBad
  || 24 < a.seg + an || 24 < b.seg + bn || segOverlap a.seg an b.seg bn
  || (t.hasPred && (18 < t.recvSeg || segOverlap a.seg an t.recvSeg 6 || segOverlap b.seg bn t.recvSeg 6))
  || (t.hasSucc != (t.action = 3))
  || (t.action = 1 && t.outAddr.toNat % 128 ≠ 0)
  || (t.action = 2 && (!([0, 1, 2, 3, 4, 0xA, 0xB].contains t.outFmt) || t.outAddr.toNat % 32 ≠ 0 || t.outStride.toNat % 32 ≠ 0))
  || (t.init = 1 && (!([0, 1, 2, 3, 4, 0xA, 0xB, 0xC].contains t.preFmt.toNat)
        || (if t.preFmt = 0xC then t.preAddr.toNat % 128 ≠ 0 else t.preAddr.toNat % 32 ≠ 0 || t.preStride.toNat % 32 ≠ 0)))
  || (t.isMcast && (!bitAt t.members (memberOf q) || b.src = 2))
  || field t.pred 31 25 ≠ 0 || field t.succ 31 25 ≠ 0
  || (t.hasPred && 143 < field t.pred 24 17) || (t.hasSucc && 143 < field t.succ 24 17)

/-! ### State access -/

def inkReset : Ink where
  running := none
  waiting := none
  wells := []
  pal := []
  palFree := []
  palPoison := []
  palEcc := []
  grants := []
  credits := []
  held := none

def inkAt (s : State) (k : Nat) : Ink := sget inkReset s.inks k
def inkOf (s : State) (q : QuireId) : Ink := inkAt s q.num
def setInk (s : State) (q : QuireId) (v : Ink) : State := { s with inks := sset s.inks q.num v }
def inkFrame (q : QuireId) : Frame := .ink q.h q.q
/-- The active INK_CFG. -/
def inkCfg (s : State) (q : QuireId) : Word := regAct s ((inkFrame q).base + 0x08)
def cmdSrc (s : State) (q : QuireId) : Nat := let v := field (inkCfg s q) 1 0; if v = 3 then 0 else v
def wellAt (v : Ink) (i : Nat) : Well := sget wellZero v.wells i

/-- The name of a link as PRED and SUCC hold it (R106). -/
def linkWord (s : State) (q : QuireId) : BitVec 32 :=
  BitVec.ofNat 32 ((ownPkg s).toNat + 2 ^ 16 * q.h.val + 2 ^ 17 * q.q.val)
def wordPkg (w : BitVec 32) : Nat := field w 15 0
def wordQuire (w : BitVec 32) : QuireId := ⟨halfOf (field w 16 16), quireFin (field w 24 17)⟩
def wordLocal (s : State) (w : BitVec 32) : Bool := wordPkg w = (ownPkg s).toNat
/-- Whether a partner in the own package is fenced (R87). -/
def partnerFenced (s : State) (w : BitVec 32) : Bool := wordLocal s w && quireFenced s (wordQuire w)

/-! ### Ductus messages (R84, R86, R87, R361) -/

def dkindCode : DKind → Nat
  | .credit => 0 | .tile => 1 | .abandon => 2 | .fenced => 3 | .announce => 4

/-- The 32 payload bytes of a control message between packages (DESIGN CHOICE, log entry 23). -/
def ductBytes (m : DuctMsg) : List Byte :=
  leBytes 4 (dkindCode m.kind) ++ leBytes 4 m.tag.toNat ++ leBytes 4 m.dst.toNat ++ leBytes 4 m.src.toNat ++ leBytes 16 0

/-- A tile as raw Wells, row-major (R78). -/
def tileRaw (w : Sparse Well) : List Byte := (List.range 4096).flatMap fun i => (sget wellZero w i).raw

/-- The CLASS of a Ductus message to another package: 2 + the half of the partner named, a credit on the context its
tile will use (R361). -/
def ductClass (m : DuctMsg) : Nat := 2 + field (if m.kind = .credit then m.src else m.dst) 16 16

/-- Send a Ductus message: within the package it travels to its link, between halves on the Ligature, a tile on the
bulk channel and a control message on the response channel (R86), and to another package as DATA packets (R361). The
status of a context in FAILED or DOWN is given back. -/
def ductSend (s : State) (m : DuctMsg) : State × Option (BitVec 8) :=
  if wordLocal s m.dst then
    let q := wordQuire m.src
    let tile := decide (m.kind = .tile)
    (linkSendAs (if tile then 1 + q.num else 0) { s with duct := s.duct ++ [m] } q.h.val (wordQuire m.dst).h.val
      (if tile then 3 else 1) (.ductus m.kind) m.src.toNat m.dst.toNat m.tag.toNat (if tile then tileRaw m.wells else []), none)
  else
    let cls := ductClass m
    let ps := if m.kind = .tile then pieces 4096 96 (tileRaw m.wells) else [ductBytes m]
    ps.foldl (fun r p =>
      match r.2 with
      | some st => (r.1, some st)
      | none => utpSend r.1 (wordPkg m.dst) cls p false 0) (s, none)

/-- Whether flits of a link's tile still wait at the Ligature (R86). -/
def tileOnLig (s : State) (q : QuireId) : Bool := (linkOf s (.lig q.h)).txq.any fun x => x.1 = 1 + q.num

/-- Whether the last beat of an operation's tile has left: its last flit is sent on the Ligature (R86), or its last
packet is in the retransmit store (R361). -/
def tileLeft (s : State) (q : QuireId) (op : InkOp) : Bool :=
  op.sent && match op.mark with
    | some m => decide (m.2 + (ctxOf s m.1).waiting.length ≤ (ctxOf s m.1).sentN)
    | none => !tileOnLig s q

/-- Send and forget the status. -/
def ductTell (s : State) (q : QuireId) (kind : DKind) (dst : BitVec 32) (tag : BitVec 16) : State :=
  (ductSend s ⟨kind, dst, linkWord s q, tag, []⟩).1

/-! ### The palette (R97 to R99) -/

/-- Remove a range of keys from the list of undefined ranges. -/
def carve (l : List (Nat × Nat × Nat)) (a b : Nat) : List (Nat × Nat × Nat) :=
  l.flatMap fun r =>
    if r.2.1 ≤ a || b ≤ r.1 then [r]
    else (if r.1 < a then [(r.1, a, r.2.2)] else []) ++ (if b < r.2.1 then [(b, r.2.1, r.2.2 + (b - r.1))] else [])

/-- A palette byte: an undefined one is a free value. -/
def palByte (v : Ink) (a : Nat) : Byte :=
  match v.palFree.find? fun r => decide (r.1 ≤ a ∧ a < r.2.1) with
  | some r => Config.freeByte (r.2.2 + (a - r.1))
  | none => sget 0 v.pal a

/-- Whether a palette word lies outside `n` bytes from `a` on. -/
def palApart (a n w : Nat) : Bool := w < a / 16 || (a + n - 1) / 16 < w

/-- Write palette bytes, with the poison of each. -/
def palWrite (v : Ink) (a : Nat) (b : PBytes) : Ink :=
  let n := b.length
  let ps := v.palPoison.filter (palApart a n)
  let ps := (b.zipIdx a).foldl (fun l x => if x.1.2 then ninsert l (x.2 / 16) else l) ps
  { v with pal := bputRange v.pal a b.bytes, palFree := carve v.palFree a (a + n), palPoison := ps
           palEcc := v.palEcc.filter fun p => palApart a n p.1 }

/-- Read palette bytes, each with its word's poison. -/
def palRead (v : Ink) (a n : Nat) : PBytes :=
  let plain := bgetRange v.pal a n
  let fr := v.palFree.filter fun r => decide (a < r.2.1 ∧ r.1 < a + n)
  if fr.isEmpty && v.palPoison.isEmpty then plain.map fun b => (b, false)
  else (plain.zipIdx a).map fun x => (if fr.isEmpty then x.1 else palByte v x.2, v.palPoison.contains (x.2 / 16))

/-- Make a range undefined, its bytes numbered from `base` on. -/
def palUndef (v : Ink) (a n base : Nat) : Ink :=
  { v with pal := v.pal.filter (fun p => p.1 < a || a + n ≤ p.1)
           palFree := carve v.palFree a (a + n) ++ [(a, a + n, base)]
           palPoison := v.palPoison.filter (palApart a n)
           palEcc := v.palEcc.filter fun p => palApart a n p.1 }

/-- Record the symbols in error of a palette word (R98, R304). -/
def palMark (v : Ink) (w n : Nat) : Ink := { v with palEcc := if n = 0 then sdel v.palEcc w else sset v.palEcc w n }

/-- A palette word with `n` symbols in error is read (R98, R305): one is corrected and counts in INK_PAL_CE, and only the
scrub writes it back; two poison the word and count in INK_PAL_UE; more do either, and a wrong correction leaves the
word's bytes free (DESIGN CHOICE, log entry 7). -/
def palWord (s : State) (q : QuireId) (w n : Nat) (scrub : Bool) : State :=
  let f := inkFrame q
  let bad (s : State) : State :=
    let v := inkOf s q
    count (setInk s q (palMark { v with palPoison := ninsert v.palPoison w } w 0)) f 0x48 1
  if n = 0 then s
  else if n = 1 then count (if scrub then setInk s q (palMark (inkOf s q) w 0) else s) f 0x40 1
  else if n = 2 then bad s
  else
    let r := freshBit s
    if r.2 then bad r.1
    else
      let s := count r.1 f 0x40 1
      setInk { s with free := s.free + 16 } q (palUndef (inkOf s q) (16 * w) 16 s.free)

/-- The array reads `n` palette bytes: words in error are decoded (R98). -/
def palScan (s : State) (q : QuireId) (a n : Nat) : State :=
  ((inkOf s q).palEcc.filter fun p => !palApart a n p.1).foldl (fun s p => palWord s q p.1 p.2 false) s

/-! ### Fetching operands -/

/-- A read that keeps the bytes before a fault and leaves the fault unlogged. -/
def vreadUpTo (s : State) (h : Half) (sp : Space) (va n : Nat) : State × PBytes × Option FaultAt :=
  (chunks va n).foldl (fun r c =>
    match r.2.2 with
    | some _ => r
    | none =>
      match vread r.1 h sp c.1 c.2 with
      | (_, .error e) => (r.1, r.2.1, some e)
      | (s, .ok b) => (s, r.2.1 ++ b, none)) (s, [], none)

/-- Lines of the element plane: how many and how long (R100). -/
def Operand.shape (o : Operand) (k : Nat) : Nat × Nat :=
  if o.view = 0 then (64, planeBytes o.fmt k) else (k, planeBytes o.fmt 64)
/-- Lines of the scale plane (R101). -/
def Operand.sShape (o : Operand) (k : Nat) : Nat × Nat :=
  if !fmtMx o.fmt then (0, 0) else if o.view = 0 then (64, k / 32) else (k / 32, 64)

/-- Lines cut from a dense byte string. -/
def cutLines (len : Nat) : Nat → PBytes → List Line
  | 0, _ => []
  | n + 1, b => (b.take len, none) :: cutLines len n (b.drop len)

/-- The lines of both planes of an operand, scale lines last. -/
def Operand.lineCount (o : Operand) (k : Nat) : Nat := (o.shape k).1 + (o.sShape k).1

/-- Line `i` of an operand: its address, its place in the operand's palette bytes and its length. -/
def Operand.linePlace (o : Operand) (k i : Nat) : Nat × Nat × Nat :=
  let sh := o.shape k
  let ss := o.sShape k
  if i < sh.1 then (o.addr + i * o.stride, i * sh.2, sh.2)
  else (o.sAddr + (i - sh.1) * o.sStride, sh.1 * sh.2 + (i - sh.1) * ss.2, ss.2)

/-- Fetch one line of an operand. -/
def fetchLine (s : State) (q : QuireId) (sp : Space) (o : Operand) (k i : Nat) : State × Line :=
  let l := o.linePlace k i
  let r := vreadUpTo s q.h sp l.1 l.2.2
  (r.1, r.2)

/-- `n` lines from number `i` on. -/
def linesFrom (get : State → Nat → State × Line) : Nat → Nat → State → State × List Line
  | 0, _, s => (s, [])
  | n + 1, i, s =>
    let r := get s i
    let t := linesFrom get n (i + 1) r.1
    (t.1, r.2 :: t.2)

/-- A line that lies in the palette from byte `a` on, as the array reads it: an error met since poisons its word, and a
wrong correction leaves it free (R98). -/
def palLine (v : Ink) (a : Nat) (l : Line) : Line :=
  ((l.1.zipIdx a).map fun x =>
    (if v.palFree.any fun r => decide (r.1 ≤ x.2 ∧ x.2 < r.2.1) then palByte v x.2 else x.1.1,
      x.1.2 || v.palPoison.contains (x.2 / 16)), l.2)

/-- The lines of an operand for the array: from the palette those fetched early, `pre`, or resident, and the rest from
memory, or from what the group fetched, `shared`. -/
def fetchOperand (s : State) (q : QuireId) (sp : Space) (o : Operand) (k : Nat) (pre shared : Sparse Line) : State × Fetched :=
  let sh := o.shape k
  let ss := o.sShape k
  let a := o.seg * 65536
  if o.src = 2 then
    let s := palScan s q a (o.bytes k)
    let v := inkOf s q
    (s, ⟨cutLines sh.2 sh.1 (palRead v a (sh.1 * sh.2)), cutLines ss.2 ss.1 (palRead v (a + sh.1 * sh.2) (ss.1 * ss.2))⟩)
  else
    let s := pre.foldl (fun s p => let l := o.linePlace k p.1; palScan s q (a + l.2.1) l.2.2) s
    let v := inkOf s q
    let get (s : State) (i : Nat) : State × Line :=
      match pre.find? fun p => p.1 = i with
      | some p => (s, palLine v (a + (o.linePlace k i).2.1) p.2)
      | none => match shared.find? fun p => p.1 = i with
        | some p => (s, p.2)
        | none => fetchLine s q sp o k i
    let r := linesFrom get (o.lineCount k) 0 s
    (r.1, ⟨r.2.take sh.1, r.2.drop sh.1⟩)

/-- The earlier of two stops; of two at one step the TRANSLATION_FAULT (R194). -/
def stopMin (a b : Option (Nat × FaultAt)) : Option (Nat × FaultAt) :=
  match a, b with
  | none, y => y
  | x, none => x
  | some x, some y =>
    if y.1 < x.1 || (y.1 = x.1 && y.2.status = stTranslation && x.2.status ≠ stTranslation) then some y else some x

/-- The first k step a line misses, with its fault: `per` steps per unit of progress. -/
def lineStop (view per k : Nat) (prog : PBytes → Nat) (l : List Line) : Option (Nat × FaultAt) :=
  (l.zipIdx).foldl (fun r x =>
    stopMin r (x.1.2.map fun f => (min k (if view = 0 then per * prog x.1.1 else per * x.2), f))) none

/-- The first k step whose data is missing (R117). -/
def Fetched.stop (o : Operand) (k : Nat) (f : Fetched) : Option (Nat × FaultAt) :=
  stopMin (lineStop o.view 1 k (fun b => b.length * 8 / fmtBits o.fmt) f.lines)
    (lineStop o.view 32 k (fun b => b.length) f.scales)

/-- Element bits of a line with their poison. -/
def lineElems (fmt n : Nat) (b : PBytes) : Array (Nat × Bool) :=
  let by_ := b.bytes
  let w := fmtBits fmt
  ((List.range n).map fun i =>
    (elemAt fmt by_ i, ((b.drop (i * w / 8)).take ((i * w + w - 1) / 8 - i * w / 8 + 1)).any Prod.snd)).toArray

/-- Element (m, k) of an operand, m its row or column (R67, R100, R101). -/
def operandFn (o : Operand) (k : Nat) (f : Fetched) : Nat → Nat → Opnd :=
  let n := if o.view = 0 then k else 64
  let el := (f.lines.map fun l => lineElems o.fmt n l.1).toArray
  let sc := (f.scales.map fun l => (l.1.map fun b => (b.1.toNat, b.2)).toArray).toArray
  fun m kk =>
    let e := if o.view = 0 then (el.getD m #[]).getD kk (0, false) else (el.getD kk #[]).getD m (0, false)
    let c := if !fmtMx o.fmt then (127, false)
      else if o.view = 0 then (sc.getD m #[]).getD (kk / 32) (0, false) else (sc.getD (kk / 32) #[]).getD m (0, false)
    if e.2 || c.2 then .pois else .val (elemValue o.fmt e.1 c.1)

/-- The k step that byte `off` of line `i` serves. -/
def Operand.stepOf (o : Operand) (i off : Nat) : Nat := if o.view = 0 then off * 8 / fmtBits o.fmt else i
def Operand.sStepOf (o : Operand) (i off : Nat) : Nat := if o.view = 0 then 32 * off else 32 * i

/-- The bytes a faulted Retain leaves in place of one line: data for the steps before the stop, and an
undefined choice between data and the old byte after it (R117). -/
def retainLine (v : Ink) (a free stop : Nat) (step : Nat → Nat) (len : Nat) (l : PBytes) : PBytes :=
  (List.range len).map fun i =>
    let old := (palByte v (a + i), v.palPoison.contains ((a + i) / 16))
    match l[i]? with
    | none => old
    | some d => if step i < stop then d else if Config.freeBit (free + i) then d else old

/-- Write lines that have come from memory into an operand's segments (DESIGN CHOICE, log entry 10): dense lines, scales
after. -/
def putLines (v : Ink) (o : Operand) (k : Nat) (l : Sparse Line) : Ink :=
  l.foldl (fun v p => palWrite v (o.seg * 65536 + (o.linePlace k p.1).2.1) p.2.1) v

/-- What an operand leaves in its segments (R99, R117). Of a Retain the lines that did not lie there yet are written. What
the two segments of a Memory operand hold afterwards is free, up to the operand's size (DESIGN CHOICE, log entry 7). -/
def fillPalette (s : State) (q : QuireId) (o : Operand) (k : Nat) (pre : Sparse Line) (f : Fetched) (stop : Option Nat) : State :=
  let v := inkOf s q
  let a := o.seg * 65536
  if o.src = 2 then s
  else if o.src = 0 then
    let n := min (o.bytes k) 131072
    setInk { s with free := s.free + n } q (palUndef v a n s.free)
  else
    match stop with
    | none =>
      let l := ((f.lines ++ f.scales).zipIdx).map fun x => (x.2, x.1)
      setInk s q (putLines v o k (l.filter fun p => !pre.any fun e => e.1 = p.1))
    | some st =>
      let sh := o.shape k
      let ss := o.sShape k
      let base := a + sh.1 * sh.2
      let e := (f.lines.zipIdx).flatMap fun x =>
        retainLine v (a + x.2 * sh.2) (s.free + x.2 * sh.2) st (o.stepOf x.2) sh.2 x.1.1
      let c := (f.scales.zipIdx).flatMap fun x =>
        retainLine v (base + x.2 * ss.2) (s.free + sh.1 * sh.2 + x.2 * ss.2) st (o.sStepOf x.2) ss.2 x.1.1
      setInk { s with free := s.free + o.bytes k } q (palWrite v a (e ++ c))

/-! ### Preload and products -/

/-- Fetch a preload tile: the Wells it gives, or the fault (R80, R117). -/
def preloadTile (s : State) (q : QuireId) (sp : Space) (t : TileOp) : State × Except FaultAt (Sparse Well) :=
  let fmt := t.preFmt.toNat
  if fmt = 0xC then
    (List.range 64).foldl (fun r i =>
      match r with
      | (s, .error e) => (s, .error e)
      | (s, .ok acc) =>
        match vread s q.h sp (t.preAddr.toNat + 6144 * i) 6144 with
        | (s, .error e) => (s, .error e)
        | (s, .ok b) => (s, .ok (acc ++ (List.range 64).map fun j =>
            let e : PBytes := (b.drop (96 * j)).take 96
            (64 * i + j, wellOfRaw e.bytes e.poisoned)))) (s, .ok [])
  else
    (List.range 64).foldl (fun r i =>
      match r with
      | (s, .error e) => (s, .error e)
      | (s, .ok acc) =>
        match vread s q.h sp (t.preAddr.toNat + t.preStride.toNat * i) (planeBytes fmt 64) with
        | (s, .error e) => (s, .error e)
        | (s, .ok b) =>
          let el := lineElems fmt 64 b
          (s, .ok (acc ++ (List.range 64).map fun j =>
            let x := el.getD j (0, false)
            (64 * i + j, wellPreload (if x.2 then .pois else .val (fmtValue fmt x.1)))))) (s, .ok [])

/-- Add the products of steps 0 to `n - 1` to every Well (R65, R94). -/
def addTile (w : Sparse Well) (a b : Nat → Nat → Opnd) (n : Nat) : Sparse Well :=
  (List.range 4096).map fun c =>
    (c, (List.range n).foldl (fun x k => x.addProduct (a (c / 64) k) (b (c % 64) k)) (sget wellZero w c))

/-- Quarter quire cycles per k step of a format (R95). -/
def fmtPace (code : Nat) : Nat := if code = 0 then 16 else if code = 1 ∨ code = 2 then 4 else if code = 9 then 1 else 2

/-- Whether a multicast set is one that an operation names. -/
def mcNames (q : QuireId) (t : TileOp) (m : McSet) : Bool :=
  m.group = groupOf q && m.named = t.members && m.tag = t.mcTag

/-- The first set whose test holds, without a member; a set without members is gone. -/
def mcDrop (bit : BitVec 4) (p : McSet → Bool) : List McSet → List McSet
  | [] => []
  | m :: t =>
    if p m then
      let m' := { m with
        members := m.members &&& ~~~bit
        joined := m.joined &&& ~~~bit
        started := m.started &&& ~~~bit }
      if m'.members = 0 then t else m' :: t
    else m :: mcDrop bit p t

/-- The member an operation's Inkstone is, as a bit. -/
def memberBit (q : QuireId) : BitVec 4 := 1#4 <<< memberOf q

/-- An operation that joined leaves its multicast set (R119), the oldest or, for one that waits, the
newest it joined. -/
def leaveSet (s : State) (q : QuireId) (t : TileOp) (newest : Bool) : State :=
  if !t.isMcast then s
  else
    let p (m : McSet) : Bool := mcNames q t m && bitAt m.joined (memberOf q)
    { s with mcast := if newest then (mcDrop (memberBit q) p s.mcast.reverse).reverse else mcDrop (memberBit q) p s.mcast }

/-- The set that an operation in the queue joined. -/
def mcOf (s : State) (q : QuireId) (t : TileOp) : Option McSet :=
  s.mcast.find? fun m => mcNames q t m && bitAt m.joined (memberOf q)

/-- The first set whose test holds, changed. -/
def mcUpd (f : McSet → McSet) (p : McSet → Bool) : List McSet → List McSet
  | [] => []
  | m :: t => if p m then f m :: t else m :: mcUpd f p t

/-- An operation begins to stream within its set. -/
def mcBegin (s : State) (q : QuireId) (t : TileOp) : State :=
  if t.isMcast then
    { s with mcast := mcUpd (fun m => { m with started := m.started ||| memberBit q, streamed := true })
               (fun m => mcNames q t m && bitAt m.joined (memberOf q)) s.mcast }
  else s

/-- Whether every live member of an operation's multicast set has been dispatched (R118, R119). -/
def mcReady (s : State) (q : QuireId) (t : TileOp) : Bool :=
  !t.isMcast || match mcOf s q t with
    | some m => m.joined = m.members
    | none => false

/-- Whether every member still in an operation's multicast set streams, so that B can go on to its end (R118). -/
def mcTogether (s : State) (q : QuireId) (t : TileOp) : Bool :=
  !t.isMcast || match mcOf s q t with
    | some m => m.started = m.members
    | none => true

/-- Whether an operation reads one of `n` segments from `a` on: the array its operands up to the last streaming cycle, and
the merge its receive buffer (R113). -/
def opReads (op : InkOp) (a n : Nat) : Bool :=
  let t := op.body
  let k := t.kLen
  let array := op.phase = .fill || op.phase = .streaming
  (array && (segOverlap a n t.opA.seg (t.opA.segs k) || segOverlap a n t.opB.seg (t.opB.segs k)))
    || (t.hasPred && (array || op.phase = .ductusWait || op.phase = .merge) && segOverlap a n t.recvSeg 6)

/-- Whether line `i` of an operand may be fetched early: it is not there yet, it has a place of its own in the segments,
which are two for a Memory operand, and the operation `at` the head, when it is another, does not read them (R113). -/
def lineEarly (head : Option InkOp) (o : Operand) (k : Nat) (pre : Sparse Line) (i : Nat) : Bool :=
  let l := o.linePlace k i
  let a := o.seg + l.2.1 / 65536
  let b := o.seg + (l.2.1 + l.2.2 - 1) / 65536
  o.src ≠ 2 && (o.src ≠ 0 || l.2.1 + l.2.2 ≤ 131072) && (!pre.any fun p => p.1 = i)
    && head.all fun r => !opReads r a (b - a + 1)

/-- The operation of an Inkstone that has joined a set and does not stream yet, and the one at the head when that is
another. -/
def mcMember (v : Ink) (p : InkOp → Bool) : Option (InkOp × Option InkOp) :=
  match v.running.filter p, v.waiting.filter p with
  | some op, _ => some (op, none)
  | none, some w => some (w, v.running)
  | none, none => none

/-- Whether an operation is one of the set that `t` names, before its streaming. -/
def mcPart (t : TileOp) (op : InkOp) : Bool :=
  op.body.isMcast && op.body.members = t.members && op.body.mcTag = t.mcTag && !op.skip && op.ended.isNone
    && (op.phase = .fill || op.phase = .idle)

/-- The members of an operation's set, with the number of each among the four Inkstones of the group. -/
def mcMates (s : State) (q : QuireId) (t : TileOp) : List QuireId :=
  match mcOf s q t with
  | none => []
  | some m => ((List.range 4).filter fun i => bitAt m.joined i).map (groupMate q)

/-- A line of B that the group has fetched goes into the segments of every member that can take it (R118). -/
def mcPut (s : State) (q : QuireId) (t : TileOp) (i : Nat) (l : Line) : State :=
  (mcMates s q t).foldl (fun s p =>
    let v := inkOf s p
    match mcMember v (mcPart t) with
    | some (op, head) =>
      let o := op.body.opB
      if lineEarly head o op.body.kLen op.preB i then
        let op' := { op with preB := sset op.preB i l }
        let v := putLines v o op.body.kLen [(i, l)]
        setInk s p (if head.isNone then { v with running := some op' } else { v with waiting := some op' })
      else s
    | none => s) s

/-- The group fetches lines of B once (R118): for an operation that streams now all that are missing, in its space
(DESIGN CHOICE, log entry 44), and ahead of that those that every member can take. -/
def groupFetch (s : State) (q : QuireId) (op : InkOp) (all : Bool) : State :=
  let t := op.body
  let k := t.kLen
  (List.range (t.opB.lineCount k)).foldl (fun s i =>
    let takes (p : QuireId) : Bool := match mcMember (inkOf s p) (mcPart t) with
      | some (op, head) => lineEarly head op.body.opB k op.preB i
      | none => false
    if (mcOf s q t).any (fun m => m.b.any fun p => p.1 = i) || !(all || (mcMates s q t).all takes) then s
    else
      let r := fetchLine s q op.space t.opB k i
      let m := mcUpd (fun m => { m with b := sset m.b i r.2 }) (fun m => mcNames q t m && bitAt m.joined (memberOf q)) r.1.mcast
      mcPut { r.1 with mcast := m } q t i r.2) s

/-- The A operand for the array, with what its early fill fetched (R113). -/
def inkOperandA (s : State) (q : QuireId) (op : InkOp) : State × Fetched :=
  fetchOperand s q op.space op.body.opA op.body.kLen op.preA []

/-- The lines of B that lie in an operation's segments ahead of its streaming. -/
def earlyB (s : State) (q : QuireId) (op : InkOp) : Sparse Line :=
  if op.body.isMcast then ((mcMember (inkOf s q) (mcPart op.body)).map fun x => x.1.preB).getD op.preB else op.preB

/-- The B operand. A multicast set fetches it once, in the space of the member that streams first (R118; DESIGN
CHOICE, log entry 44). -/
def inkOperandB (s : State) (q : QuireId) (op : InkOp) : State × Fetched :=
  let t := op.body
  if t.isMcast then
    let s := groupFetch s q op true
    fetchOperand s q op.space t.opB t.kLen (earlyB s q op) (((mcOf s q t).map (·.b)).getD [])
  else fetchOperand s q op.space t.opB t.kLen op.preB []

/-- Fill and stream the running operation: initialisation, products up to the first missing step, and
the fault that will end it (R81, R94, R117). -/
def streamTile (s : State) (q : QuireId) (op : InkOp) : State × Sparse Well × Option FaultAt :=
  let t := op.body
  let k := t.kLen
  let shared := t.isMcast && (mcOf s q t).any (·.streamed)
  let init : State × Except FaultAt (Sparse Well) :=
    if t.init = 1 then preloadTile s q op.space t
    else (s, .ok (if t.init = 0 then [] else (inkOf s q).wells))
  match init with
  | (s, .error e) => (s, (inkOf s q).wells, some e)
  | (s, .ok w) =>
    let (s, fa) := inkOperandA s q op
    let (s, fb) := inkOperandB s q op
    let stop := stopMin (fa.stop t.opA k) (fb.stop t.opB k)
    let n := match stop with | none => k | some x => x.1
    let s := match stop with
      | some x => if x.2.status = stTranslation && !(shared && stop = fb.stop t.opB k) then (vread s q.h op.space x.2.va.toNat 1).1 else s
      | none => s
    let pb := earlyB s q op
    let s := fillPalette s q t.opA k op.preA fa (stop.map Prod.fst)
    let s := fillPalette s q t.opB k pb fb (stop.map Prod.fst)
    let s := count s (inkFrame q) 0x20 (cdiv (n * max (fmtPace t.opA.fmt) (fmtPace t.opB.fmt)) 4)
    (s, addTile w (operandFn t.opA k fa) (operandFn t.opB k fb) n, stop.map Prod.snd)

/-! ### Completion (R73, R87, R111, R116, R117) -/

/-- The record of R111. -/
def portRecord (s : State) (op : InkOp) (st : BitVec 8) (cnt : Nat) : List Byte :=
  leBytes 2 st.toNat ++ leBytes 2 (field op.body.portCtl 31 16) ++ leBytes 4 0 ++ leBytes 8 s.tick.toNat ++
    leBytes 8 cnt ++ leBytes 40 0

/-- The Nib of a quire. -/
def nibIn (q : QuireId) (n : Fin 16) : NibId := ⟨q.h, q.q, n⟩

/-- Write a record into its mailbox, or hold it while the mailbox is full (R142). -/
def postRecord (s : State) (q : QuireId) (r : HeldRec) : State :=
  let v := nibOf s (nibIn q r.nib)
  if v.mailFull r.mbox.toNat then setInk s q { inkOf s q with held := some r }
  else mailTo s (nibIn q r.nib) r.mbox.toNat r.bytes

/-- The term count of Well (0, 0) that an operation's end reports: its own, also when the next operation has the Wells
(R111, R115). -/
def opCount (s : State) (q : QuireId) (op : InkOp) : Nat :=
  match op.latch with
  | some l => l.2
  | none => (wellAt (inkOf s q) 0).cnt.toNat

/-- Report an operation's end to its origin: DETAIL0 the term count of Well (0, 0), DETAIL1 a failing
address (R111, R192). -/
def inkReport (s : State) (q : QuireId) (op : InkOp) (st : BitVec 8) (va : Nat) : State :=
  let cnt := opCount s q op
  match op.origin with
  | .scribe id => report s id st cnt va
  | .port n => postRecord s q ⟨n, BitVec.ofNat 4 (field op.body.portCtl 3 0), portRecord s op st cnt⟩

/-- Whether the first beat of the predecessor's tile has arrived at a link (R87): the tile is here, or a packet of it. -/
def tileBegun (s : State) (q : QuireId) (op : InkOp) : Bool :=
  op.recv.isSome || s.ctxs.any fun p => !p.2.dtile.isEmpty && p.2.dlink = some (linkWord s q, op.body.pred, op.body.tag)

/-- The abandons of a link that ends, in `s0`, before its tile has left (R87): to the successor, and to the
predecessor while its tile has not begun to arrive. -/
def sendAbandons (s0 s : State) (q : QuireId) (op : InkOp) (toSucc toPred : Bool) : State :=
  let t := op.body
  let s := if t.hasSucc && !tileLeft s0 q op && toSucc && !partnerFenced s t.succ then ductTell s q .abandon t.succ t.tag else s
  if t.hasPred && !tileBegun s0 q op && toPred && !partnerFenced s t.pred then ductTell s q .abandon t.pred t.tag else s

/-- The packets of a tile, which the mark names the last of, that still wait at their context are taken back, and the
places of later ones move down (R87). -/
def ductCancel (s : State) (m : Nat × Nat) : State :=
  let c := ctxOf s m.1
  let base := c.sentN - c.waiting.length
  let keep := (c.waiting.zipIdx).filter fun x => !decide (m.2 < base + x.2 + 97 ∧ base + x.2 < m.2)
  let k := c.waiting.length - keep.length
  let down (op : InkOp) : InkOp :=
    { op with mark := op.mark.map fun x => if x.1 = m.1 && m.2 < x.2 then (x.1, x.2 - k) else x }
  { setCtx s m.1 { c with waiting := keep.map Prod.fst, sentN := c.sentN - k } with
    inks := s.inks.map fun p => (p.1, { p.2 with running := p.2.running.map down, waiting := p.2.waiting.map down }) }

/-- The credit that a link has not used goes with it (R84). -/
def creditDrop (s : State) (q : QuireId) (op : InkOp) : State :=
  let t := op.body
  if t.hasSucc && !op.credit then setInk s q { inkOf s q with credits := (inkOf s q).credits.erase (t.succ, t.tag) } else s

/-- What a link that ends leaves behind goes: its grant while its predecessor's tile has not come, the credit it has not
used, and what is left to send of its tile (R87). -/
def linkDrop (s : State) (q : QuireId) (op : InkOp) : State :=
  let t := op.body
  let v := inkOf s q
  let v := if t.hasPred && op.recv.isNone then { v with grants := v.grants.erase (t.pred, t.tag) } else v
  let s := creditDrop (setInk s q v) q op
  if !op.sent then s
  else match op.mark with
  | some m => ductCancel s m
  | none =>
    if tileOnLig s q then
      let l := linkOf s (.lig q.h)
      setLink { s with duct := s.duct.filter fun m => !(m.kind = .tile && m.src = linkWord s q) } (.lig q.h)
        { l with txq := l.txq.filter fun x => x.1 ≠ 1 + q.num }
    else s

/-- INK_CFG's shadow becomes active at the Tile operation boundary. -/
def inkBoundary (s : State) (q : QuireId) : State := applyShadow s [(inkFrame q).base + 0x08]

/-- A waiting operation comes to the head of the queue. -/
def InkOp.head (op : InkOp) : InkOp := if op.phase = .idle then { op with phase := .fill } else op

/-- End the running operation: count it, apply the shadow, report, and let the waiting one run. -/
def finishRunning (s : State) (q : QuireId) (op : InkOp) (st : BitVec 8) (va : Nat) : State :=
  let s := count s (inkFrame q) 0x18 1
  let s := inkBoundary s q
  let s := if !op.skip && (op.phase = .fill || op.phase = .streaming) then leaveSet s q op.body false else s
  let s := inkReport s q op st va
  let v := inkOf s q
  setInk s q { v with running := v.waiting.map InkOp.head, waiting := none }

/-- End a waiting operation. -/
def finishWaiting (s : State) (q : QuireId) (op : InkOp) (st : BitVec 8) : State :=
  let s := count s (inkFrame q) 0x18 1
  let s := if op.skip then s else leaveSet s q op.body true
  let s := inkReport s q op st 0
  setInk s q { inkOf s q with waiting := none }

/-- Whether a held record keeps operations of the Inkstone from completing (R142). -/
def inkBlocked (s : State) (q : QuireId) : Bool := (inkOf s q).held.isSome

/-- The statuses a tile brings (R73). -/
def tileStatus (v : Ink) : BitVec 8 :=
  if v.wells.any fun p => p.2.flag flPoison then stDataPoison
  else if v.wells.any fun p => p.2.flag flOvf then stWellOverflow
  else stOk

/-! ### Dispatch into the queue (R110, R112, R118, R119) -/

/-- Whether the queue has room and no record is held, and a link's grant has a place among four (R84, R110, R142). -/
def inkRoom (s : State) (q : QuireId) (t : TileOp) (skip : Bool) : Bool :=
  let v := inkOf s q
  v.waiting.isNone && !inkBlocked s q && (skip || !t.hasPred || v.grants.length < 4)

/-- Whether an operation is skipped, as decided at its dispatch (R112). -/
def skipped (s : State) (q : QuireId) (t : TileOp) : Bool := t.noWgrad && bitAt (inkCfg s q) 2

/-- The fields that every member of a multicast set shares (R118): the scale fields count also where the format has no
scales, so that R108 ignores them otherwise (DESIGN CHOICE, log entry 44). -/
def mcFields (t : TileOp) : List Nat :=
  [t.bAddr.toNat, t.bScale.toNat, t.bStride.toNat, t.bScaleStride.toNat, t.opB.fmt, t.opB.view, t.kLen, t.opB.src]

/-- Whether a set still waits for this Inkstone's operation. -/
def mcOpen (q : QuireId) (t : TileOp) (m : McSet) : Bool :=
  mcNames q t m && bitAt m.members (memberOf q) && !bitAt m.joined (memberOf q)

/-- The set an operation would join. -/
def mcFind (s : State) (q : QuireId) (t : TileOp) : Option McSet := s.mcast.find? (mcOpen q t)

/-- A member whose B fields differ leaves the set it would have joined (R119). -/
def mcRefuse (s : State) (q : QuireId) (t : TileOp) : State :=
  { s with mcast := mcDrop (memberBit q) (mcOpen q t) s.mcast }

/-- Whether an operation's B fields differ from the first member's (R119). -/
def mcMismatch (s : State) (q : QuireId) (t : TileOp) : Bool :=
  t.isMcast && match mcFind s q t with
    | none => false
    | some m => mcFields m.first ≠ mcFields t

/-- The members of MEMBERS that are not fenced (R119). -/
def liveMembers (s : State) (q : QuireId) (m : BitVec 4) : BitVec 4 :=
  (List.range 4).foldl (fun (a : BitVec 4) i => if bitAt m i && !quireFenced s (groupMate q i) then a ||| (1#4 <<< i) else a) 0

/-- Join a multicast set, or start one. -/
def mcJoin (s : State) (q : QuireId) (t : TileOp) : State :=
  match mcFind s q t with
  | some _ => { s with mcast := mcUpd (fun m => { m with joined := m.joined ||| memberBit q }) (mcOpen q t) s.mcast }
  | none => { s with mcast := s.mcast ++ [⟨groupOf q, t.members, liveMembers s q t.members, t.mcTag, memberBit q, t, 0, false, []⟩] }

/-- A tile operation as dispatched. -/
def newOp (t : TileOp) (o : InkOrigin) (sp : Space) (skip : Bool) : InkOp where
  body := t
  origin := o
  space := sp
  skip := skip
  members := 0
  phase := .fill
  fetchFault := none
  outFault := none
  recv := none
  credit := false
  sent := false
  ended := none
  preA := []
  preB := []
  latch := none
  mark := none

/-- Place an operation in the queue: the skip, the Ductus credit and announce, and the multicast join
are made here. A link whose partner is fenced in the own package, or whose context is FAILED or DOWN,
completes at once (R87, R356); one that is a multicast member too joins no set then, and the set goes on waiting for it
(R119; DESIGN CHOICE, log entry 44). -/
def inkEnqueue (s : State) (q : QuireId) (t : TileOp) (o : InkOrigin) (sp : Space) : State :=
  let skip := skipped s q t
  let op := newOp t o sp skip
  let place (s : State) : State :=
    let v := inkOf s q
    setInk s q (if v.running.isNone then { v with running := some op } else { v with waiting := some { op with phase := .idle } })
  if skip then place s
  else if (t.hasPred && partnerFenced s t.pred) || (t.hasSucc && partnerFenced s t.succ) then
    let s := sendAbandons s s q op true true
    inkReport (count s (inkFrame q) 0x18 1) q op stFenced 0
  else
    let a := if t.hasSucc && !wordLocal s t.succ then ductSend s ⟨.announce, t.succ, linkWord s q, t.tag, []⟩ else (s, none)
    let b := if t.hasPred && a.2.isNone then ductSend a.1 ⟨.credit, t.pred, linkWord s q, t.tag, []⟩ else a
    match b.2 with
    | some st =>
      let s := sendAbandons b.1 b.1 q op (a.2.isNone) (a.2.isSome)
      inkReport (count s (inkFrame q) 0x18 1) q op st 0
    | none =>
      let s := b.1
      let s := if t.hasPred then setInk s q { inkOf s q with grants := (inkOf s q).grants ++ [(t.pred, t.tag)] } else s
      let s := if t.isMcast then mcJoin s q t else s
      place s

/-- The Inkstone a TILE_OP names. -/
def targetQuire (c : JCmd) : QuireId := ⟨queueHalf c.queue.toNat, quireFin (targetIndex c.hdr.target)⟩

/-- TILE_OP (R110): held while CMD_SRC keeps the Scribe out or the queue is full. -/
def runTileOp (poison : Bool) (c : JCmd) (s : State) : State :=
  let q := targetQuire c
  let t := tileOfBody c.body
  let held := cmdSrc s q = 1 || !inkRoom s q t (skipped s q t)
  let mis := !tileBad q t && mcMismatch s q t && !skipped s q t
  gate s c 0x10 poison false (tileBad q t || mis) (quireFenced s q || noTraining s) held fun id s =>
    inkEnqueue s q t (.scribe id) (queueSpace s c.queue.toNat)

/-- TILE_OP with what a member whose B fields differ does once it is dispatched: it leaves its set
(R119). -/
def runTile (poison : Bool) (c : JCmd) (s : State) : State :=
  let q := targetQuire c
  let t := tileOfBody c.body
  let r := runTileOp poison c s
  if r.nextId ≠ s.nextId && !poison && !tileBad q t && mcMismatch s q t && !skipped s q t then mcRefuse r q t else r

def execTileOp (c : JCmd) (s : State) : Out := .next (runTile false c s)

/-- Whether no lower Nib of the quire submitted at the same tick and still waits (R141; DESIGN CHOICE, log entry 13). -/
def portFirst (s : State) (n : NibId) : Bool :=
  (List.range n.n.val).all fun k =>
    let o := nibOf s ⟨n.h, n.q, ⟨k % 16, Nat.mod_lt _ (by decide)⟩⟩
    !(o.portWait && decide (o.portTick = (nibOf s n).portTick))

/-- A Nib's submission at its command port (R110, R141): the body is queued, waits, or is discarded. A
malformed body completes with its record and has no other effect (R109). -/
def portSubmit (s : State) (n : NibId) : State :=
  let q := n.quire
  let v := nibOf s n
  let t := tileOfBody (bgetRange v.stage 0x20 224)
  let src := cmdSrc s q
  let free (s : State) : State := settleStop (setNib s n { nibOf s n with portWait := false }) n
  if !alive s || !v.portWait || !portFirst s n || quireFenced s q then s
  else if src = 0 || !bitAt (inkCfg s q) (4 + n.n.val) then free (count s (inkFrame q) 0x38 1)
  else if tileBad q t || (mcMismatch s q t && !skipped s q t) then
    if inkBlocked s q then s
    else
      let op := newOp t (.port n.n) v.space false
      let s := if tileBad q t then s else mcRefuse s q t
      free (inkReport (count s (inkFrame q) 0x18 1) q op stMalformed 0)
  else if !inkRoom s q t (skipped s q t) then s
  else free (inkEnqueue s q t (.port n.n) v.space)

def execCommandPortSubmit (n : NibId) (s : State) : Out := .next (portSubmit s n)

/-! ### Running -/

/-- Change the running operation. -/
def setRunning (s : State) (q : QuireId) (op : InkOp) : State := setInk s q { inkOf s q with running := some op }

/-- Whether an operation has released the Wells, its action done or its output in the latch (R115). -/
def wellsFree (s : State) (q : QuireId) (op : InkOp) : Bool :=
  match op.phase with
  | .released | .drain => true
  | .send => if op.body.action = 3 then tileLeft s q op else op.outFault.isNone
  | _ => false

/-- The early fill of the waiting operation's operands, line by line into segments that the running one does not read
(R113); the B of a multicast set whose members are all here goes into the segments of all of them (R118). -/
def earlyFill (s : State) (q : QuireId) (op w : InkOp) : State :=
  let k := w.body.kLen
  let one (o : Operand) (pre : InkOp → Sparse Line) (put : InkOp → Sparse Line → InkOp) (s : State) : State :=
    (List.range (o.lineCount k)).foldl (fun s i =>
      match (inkOf s q).waiting with
      | none => s
      | some w =>
        if lineEarly (some op) o k (pre w) i then
          let r := fetchLine s q w.space o k i
          let v := putLines (inkOf r.1 q) o k [(i, r.2)]
          setInk r.1 q { v with waiting := some (put w (sset (pre w) i r.2)) }
        else s) s
  let s := one w.body.opA (·.preA) (fun w l => { w with preA := l }) s
  if !w.body.isMcast then one w.body.opB (·.preB) (fun w l => { w with preB := l }) s
  else if mcReady s q w.body then groupFetch s q w false
  else s

/-- An operation streams: the Wells after its products, and the operation in its new phase. -/
def startOp (s : State) (q : QuireId) (op : InkOp) : State × InkOp :=
  let (s, w, f) := streamTile s q op
  (mcBegin (setInk s q { inkOf s q with wells := w }) q op.body,
    { op with phase := .streaming, fetchFault := f, preA := [], preB := [] })

/-- Fill and streaming begin (R113 to R115): the operation at the head forms its products; once it has released the
Wells, the waiting one does, and the status and count of the first are latched; before that, the waiting one's fill
goes ahead. -/
def tileStart (s : State) (q : QuireId) : State :=
  let v := inkOf s q
  let ready (op : InkOp) : Bool := !op.skip && op.ended.isNone && mcReady s q op.body
  match v.running with
  | none => s
  | some op =>
    if !alive s || inkBlocked s q then s
    else if op.phase = .fill then
      if ready op then
        let r := startOp s q op
        setRunning r.1 q r.2
      else s
    else match v.waiting with
      | none => s
      | some w =>
        if w.skip || w.ended.isSome || w.phase ≠ .idle then s
        else if wellsFree s q op && ready w then
          let r := startOp s q w
          setInk r.1 q { inkOf r.1 q with
            running := some { op with latch := some (tileStatus v, (wellAt v 0).cnt.toNat) }, waiting := some r.2 }
        else earlyFill s q op w

def execTileOpStart (q : QuireId) (s : State) : Out := .next (tileStart s q)

/-- A skipped operation retires (R112). -/
def skipRetire (s : State) (q : QuireId) : State :=
  match (inkOf s q).running with
  | none => s
  | some op =>
    if !alive s || !op.skip || inkBlocked s q then s
    else finishRunning (count s (inkFrame q) 0x30 1) q op stOk 0

def execNoWgradSkipRetire (q : QuireId) (s : State) : Out := .next (skipRetire s q)

/-- A fetch fault ends the operation (R117): its own tile goes nowhere, so the successor is abandoned, and a credit that
came for it is void (R84). -/
def fetchFaultEnd (s : State) (q : QuireId) : State :=
  match (inkOf s q).running with
  | none => s
  | some op =>
    match op.fetchFault with
    | none => s
    | some f =>
      if !alive s || op.phase ≠ .streaming || op.ended.isSome || inkBlocked s q then s
      else finishRunning (creditDrop (sendAbandons s s q op true false) q op) q op f.status f.va.toNat

def execOperandFetchFault (q : QuireId) (s : State) : Out := .next (fetchFaultEnd s q)

/-! ### The output action (R72, R79, R82) -/

/-- The conversions of output row `i` (R72), each with whether its line is written poisoned. -/
def roundedRow (s : State) (q : QuireId) (op : InkOp) (i : Nat) : List (Bool × Conv) :=
  let t := op.body
  (List.range 64).map fun j =>
    (wellAt (inkOf s q) (64 * i + j)).readout t.outFmt (Rnd.ofField t.round) t.range
      (sand t.seed 0x01 (t.base + BitVec.ofNat 64 (64 * i + j))).toNat

/-- The bytes of an output row. -/
def rowBytes (op : InkOp) (cs : List (Bool × Conv)) : List Byte :=
  packBits (fmtBits op.body.outFmt) (cs.map fun c => c.2.bits)

/-- Whether byte `b` of an output row belongs to a poisoned element. -/
def rowPois (op : InkOp) (cs : List (Bool × Conv)) (b : Nat) : Bool :=
  (cs.map Prod.fst).getD (b * 8 / fmtBits op.body.outFmt) false

/-- Where an output row goes. -/
def rowAddr (op : InkOp) (i : Nat) : Nat := op.body.outAddr.toNat + i * op.body.outStride.toNat

/-- Rows after a failing line, each line written or left (R117). -/
def restRounded (q : QuireId) (op : InkOp) : Nat → Nat → Nat → State → State
  | 0, _, _, s => s
  | n + 1, i, start, s =>
    let w := fmtBits op.body.outFmt
    let cs := roundedRow s q op i
    let r := vwriteRest s q.h op.space (rowAddr op i) (rowBytes op cs) (rowPois op cs) start
    let done := r.2.flatMap fun c => ((cs.drop (c.1 * 8 / w)).take (c.2 * 8 / w)).map Prod.snd
    restRounded q op n (i + 1) 0 (gaugeAdd r.1 (gaugeKey 1 (q.num * 8 + op.body.gauge)) done)

/-- Store rounded: rows in order, counted as written (R61, R117). -/
def storeRounded (q : QuireId) (op : InkOp) : Nat → Nat → State → State × Option FaultAt
  | 0, _, s => (s, none)
  | n + 1, i, s =>
    let cs := roundedRow s q op i
    let r := vwrite s q.h op.space (rowAddr op i) (rowBytes op cs) (rowPois op cs)
    let done := (cs.take (r.2.bytes * 8 / fmtBits op.body.outFmt)).map Prod.snd
    let s := gaugeAdd r.1 (gaugeKey 1 (q.num * 8 + op.body.gauge)) done
    match r.2.fault with
    | some f => (restRounded q op (n + 1) i (r.2.bytes + 1) s, some f)
    | none => storeRounded q op n (i + 1) s

/-- The bytes of lines `3i` to `3i + 2` of a raw tile. -/
def rawPiece (s : State) (q : QuireId) (i : Nat) : List Byte :=
  (List.range 4).flatMap fun j => (wellAt (inkOf s q) (4 * i + j)).raw

/-- Pieces after a failing line, each line written or left (R117). -/
def restRaw (q : QuireId) (op : InkOp) : Nat → Nat → Nat → State → State
  | 0, _, _, s => s
  | n + 1, i, start, s =>
    restRaw q op n (i + 1) 0
      (vwriteRest s q.h op.space (op.body.outAddr.toNat + 384 * i) (rawPiece s q i) (fun _ => false) start).1

/-- Store raw: the tile in ascending address, four elements at a time (R78, R79). -/
def storeRaw (q : QuireId) (op : InkOp) : Nat → Nat → State → State × Option FaultAt
  | 0, _, s => (s, none)
  | n + 1, i, s =>
    let r := vwrite s q.h op.space (op.body.outAddr.toNat + 384 * i) (rawPiece s q i) fun _ => false
    match r.2.fault with
    | some f => (restRaw q op (n + 1) i (r.2.bytes + 1) r.1, some f)
    | none => storeRaw q op n (i + 1) r.1

/-- Send the tile once the successor's credit is here (R84). -/
def trySend (s : State) (q : QuireId) : State :=
  match (inkOf s q).running with
  | none => s
  | some op =>
    let v := inkOf s q
    if op.phase = .send && op.body.action = 3 && !op.sent && op.ended.isNone && v.credits.contains (op.body.succ, op.body.tag) then
      let s := setInk s q { v with credits := v.credits.erase (op.body.succ, op.body.tag), running := some { op with credit := true } }
      let m : DuctMsg := ⟨.tile, op.body.succ, linkWord s q, op.body.tag, v.wells⟩
      let r := ductSend s m
      let key := ctxKey (wordPkg m.dst) (ductClass m)
      match r.2 with
      | none => setRunning r.1 q { op with
          credit := true, sent := true, mark := if wordLocal s m.dst then none else some (key, (ctxOf r.1 key).sentN) }
      | some st => setRunning r.1 q { op with credit := true, ended := some st }
    else s

/-- The output action after the last product and any merge (R82). -/
def outputAction (s : State) (q : QuireId) (op : InkOp) : State :=
  match op.body.action with
  | 0 => setRunning s q { op with phase := .released }
  | 1 =>
    let r := storeRaw q op 1024 0 s
    setRunning r.1 q { op with phase := .send, outFault := r.2 }
  | 2 =>
    let r := storeRounded q op 64 0 s
    setRunning r.1 q { op with phase := .drain, outFault := r.2 }
  | _ => trySend (setRunning s q { op with phase := .send }) q

/-- Streaming ends (R114): the operation leaves its multicast set; a link waits for its predecessor's tile, another
operation goes to its output. -/
def streamEnd (s : State) (q : QuireId) : State :=
  match (inkOf s q).running with
  | none => s
  | some op =>
    if !alive s || op.phase ≠ .streaming || op.fetchFault.isSome || op.ended.isSome || !mcTogether s q op.body then s
    else
      let s := leaveSet s q op.body false
      if op.body.hasPred then setRunning s q { op with phase := if op.recv.isSome then .merge else .ductusWait }
      else outputAction s q op

def execStreamingEnd (q : QuireId) (s : State) : Out := .next (streamEnd s q)

/-- An output write fault ends the operation (R117). -/
def writeFaultEnd (s : State) (q : QuireId) : State :=
  match (inkOf s q).running with
  | none => s
  | some op =>
    match op.outFault with
    | none => s
    | some f =>
      if !alive s || inkBlocked s q then s
      else finishRunning s q op f.status f.va.toNat

def execOutputWriteFault (q : QuireId) (s : State) : Out := .next (writeFaultEnd s q)

/-- Whether an operation has nothing more to do (R116), or ended while a record was held (R87, R142). -/
def opDone (s : State) (q : QuireId) (op : InkOp) : Bool :=
  op.ended.isSome || match op.phase with
    | .released => true
    | .drain => op.outFault.isNone
    | .send => if op.body.action = 3 then tileLeft s q op else op.outFault.isNone
    | _ => false

/-- A link ends, in `s0`, with a status: what it leaves behind goes, and its partners learn of it (R87). -/
def linkFinish (s0 s : State) (q : QuireId) (op : InkOp) (toSucc toPred : Bool) : State :=
  linkDrop (sendAbandons s0 s q op toSucc toPred) q op

/-- The status that a finished operation's Wells give it (R73, R115). -/
def opStatus (s : State) (q : QuireId) (op : InkOp) : BitVec 8 :=
  match op.latch with
  | some l => l.1
  | none => tileStatus (inkOf s q)

/-- An operation completes with the status of R73, or with the one that ended its link; the one at the head goes
before one that waits. -/
def tileComplete (s : State) (q : QuireId) : State :=
  if !alive s || inkBlocked s q then s
  else match (inkOf s q).running with
    | none => s
    | some op =>
      if opDone s q op then
        match op.ended with
        | some st => finishRunning (linkFinish s s q op true true) q op st 0
        | none => finishRunning s q op (opStatus s q op) 0
      else match (inkOf s q).waiting with
        | none => s
        | some w =>
          match w.ended with
          | some st => finishWaiting (linkFinish s s q w true true) q w st
          | none => s

def execTileOpComplete (q : QuireId) (s : State) : Out := .next (tileComplete s q)

/-- A held record is written once its mailbox is free (R142). -/
def recordWrite (s : State) (q : QuireId) : State :=
  match (inkOf s q).held with
  | none => s
  | some r =>
    let v := nibOf s (nibIn q r.nib)
    if !alive s || v.mailFull r.mbox.toNat then s
    else mailTo (setInk s q { inkOf s q with held := none }) (nibIn q r.nib) r.mbox.toNat r.bytes

def execCompletionRecordWrite (q : QuireId) (s : State) : Out := .next (recordWrite s q)

/-! ### Ductus events (R84, R85, R87, R361) -/

/-- Take the first message of a kind for a link. -/
def takeDuct (s : State) (p : DuctMsg → Bool) : Option (DuctMsg × State) :=
  match findIdx? p s.duct with
  | none => none
  | some i => (s.duct[i]?).map fun m => (m, { s with duct := dropAt s.duct i })

/-- A credit arrives (R84). -/
def creditIn (s : State) (q : QuireId) (tag : BitVec 16) : State :=
  match takeDuct s fun m => m.kind = .credit && m.dst = linkWord s q && m.tag = tag with
  | none => s
  | some (m, s) => trySend (setInk s q { inkOf s q with credits := (inkOf s q).credits ++ [(m.src, tag)] }) q

def execDuctusCredit (q : QuireId) (tag : BitVec 16) (s : State) : Out := .next (if alive s then creditIn s q tag else s)

/-- Whether an operation is the link that a message from `src` with `tag` is for. -/
def isLink (op : InkOp) (src : BitVec 32) (tag : BitVec 16) : Bool :=
  !op.skip && op.ended.isNone && op.body.tag = tag && ((op.body.hasPred && op.body.pred = src) || (op.body.hasSucc && op.body.succ = src))

/-- Whether an operation is the link that waits for a tile. -/
def wantsTile (op : InkOp) (src : BitVec 32) (tag : BitVec 16) : Bool :=
  !op.skip && op.ended.isNone && op.body.hasPred && op.body.pred = src && op.body.tag = tag && op.recv.isNone

/-- The operation in the queue that waits for a tile; the flag says that it is the one at the head. -/
def tileWanter (v : Ink) (src : BitVec 32) (tag : BitVec 16) : Option (InkOp × Bool) :=
  match v.running.filter (wantsTile · src tag), v.waiting.filter (wantsTile · src tag) with
  | some op, _ => some (op, true)
  | none, some w => some (w, false)
  | none, none => none

/-- Whether a receive has to wait, since the operation at the head reads the segments it goes to (R113). -/
def recvHeld (v : Ink) (src : BitVec 32) (tag : BitVec 16) : Bool :=
  match tileWanter v src tag, v.running with
  | some (w, false), some op => opReads op w.body.recvSeg 6
  | _, _ => false

/-- The predecessor's tile has arrived: it lies in the receive segments, and the merge starts once the
link's own products are done. A tile for a link that has ended is discarded (R87, R117). -/
def tileIn (s : State) (q : QuireId) (m : DuctMsg) : State :=
  let v := { inkOf s q with grants := (inkOf s q).grants.erase (m.src, m.tag) }
  let put (op : InkOp) : Ink := palWrite v (op.body.recvSeg * 65536) ((tileRaw m.wells).map fun b => (b, false))
  match tileWanter v m.src m.tag with
  | none => setInk s q v
  | some (op, true) =>
    setInk s q { put op with running := some { op with recv := some m.wells
                                                       phase := if op.phase = .ductusWait then .merge else op.phase } }
  | some (w, false) => setInk s q { put w with waiting := some { w with recv := some m.wells } }

/-- Whether the last beat of a tile may arrive: it has left its sender in this package, and the receive need not wait. -/
def tileComes (s : State) (q : QuireId) (m : DuctMsg) : Bool :=
  m.kind = .tile && m.dst = linkWord s q && !(wordLocal s m.src && tileOnLig s (wordQuire m.src))
    && !recvHeld (inkOf s q) m.src m.tag

def execDuctusTileArrival (q : QuireId) (s : State) : Out :=
  if alive s then
    match takeDuct s (tileComes s q) with
    | none => .next s
    | some (m, s) => .next (tileIn s q m)
  else .next s

/-- A Well of the tile that arrived, as the merge reads it from the receive segments: an error met since poisons it, and a
wrong correction leaves it free (R67, R98). -/
def recvWell (v : Ink) (op : InkOp) (r : Sparse Well) (i : Nat) : Well :=
  let a := op.body.recvSeg * 65536 + 96 * i
  let pois := (List.range 6).any fun j => v.palPoison.contains (a / 16 + j)
  let free := v.palFree.any fun x => decide (a < x.2.1 ∧ x.1 < a + 96)
  if pois then wellOfRaw [] true
  else if free then wellOfRaw (palRead v a 96).bytes false
  else sget wellZero r i

/-- The merge ends, and the link performs its output action (R85). -/
def mergeDone (s : State) (q : QuireId) : State :=
  match (inkOf s q).running with
  | none => s
  | some op =>
    match op.recv with
    | none => s
    | some r =>
      if !alive s || op.phase ≠ .merge || op.ended.isSome then s
      else
        let s := palScan s q (op.body.recvSeg * 65536) 393216
        let v := inkOf s q
        let w := (List.range 4096).map fun i => (i, (wellAt v i).merge (recvWell v op r i))
        outputAction (setInk s q { v with wells := w }) q op

def execDuctusMergeDone (q : QuireId) (s : State) : Out := .next (mergeDone s q)

/-- End the link that a message from `src` concerns, with a status, by what has left in `s0`; the abandon is passed on to
its other partner (R87). -/
def endLink (s0 s : State) (q : QuireId) (src : BitVec 32) (tag : BitVec 16) (st : BitVec 8) : State :=
  let v := inkOf s q
  let go (op : InkOp) : State :=
    linkFinish s0 s q op (!op.body.hasSucc || op.body.succ ≠ src) (!op.body.hasPred || op.body.pred ≠ src)
  match v.running.filter (fun op => isLink op src tag && !tileLeft s0 q op), v.waiting.filter (isLink · src tag) with
  | some op, _ => finishRunning (go op) q op st 0
  | none, some w => finishWaiting (go w) q w st
  | none, none => s

def execDuctusAbandon (q : QuireId) (s : State) : Out :=
  if alive s && !inkBlocked s q then
    match takeDuct s fun m => m.kind = .abandon && m.dst = linkWord s q with
    | none => .next s
    | some (m, s) => .next (endLink s s q m.src m.tag stPeerAbandoned)
  else .next s

def execDuctusFencedReply (q : QuireId) (s : State) : Out :=
  if alive s && !inkBlocked s q then
    match takeDuct s fun m => m.kind = .fenced && m.dst = linkWord s q with
    | none => .next s
    | some (m, s) => .next (endLink s s q m.src m.tag stFenced)
  else .next s

/-- A palette word is read and corrected in an idle cycle (R98, R305): `upset` symbols more are in error. While PAL_SCRUB
is clear nothing reads it, and the errors stay until the array does (DESIGN CHOICE, log entry 7). -/
def paletteScrub (s : State) (q : QuireId) (word upset : Nat) : State :=
  let v := inkOf s q
  let n := sget 0 v.palEcc word + upset
  if !alive s || quireFenced s q || 98304 ≤ word || v.palPoison.contains word then s
  else if bitAt (inkCfg s q) 3 then palWord s q word n true
  else setInk s q (palMark v word n)

def execPaletteScrub (q : QuireId) (word upset : Nat) (s : State) : Out := .next (paletteScrub s q word upset)

end Sys2Proof.Machine
end

