-- ==== Sys2Proof/Machine/Crypto.lean ====
section
/-! DEFINITION. The digests and signatures of signed images (R392, R393): SHA-256 of FIPS 180-4 and the
verification RSASSA-PSS of PKCS #1 v2.2. -/

namespace Sys2Proof.Machine
open Sys2Proof

/-- The round constants of SHA-256. -/
def shaK : List (BitVec 32) :=
  [0x428a2f98, 0x71374491, 0xb5c0fbcf, 0xe9b5dba5, 0x3956c25b, 0x59f111f1, 0x923f82a4, 0xab1c5ed5] ++
  [0xd807aa98, 0x12835b01, 0x243185be, 0x550c7dc3, 0x72be5d74, 0x80deb1fe, 0x9bdc06a7, 0xc19bf174] ++
  [0xe49b69c1, 0xefbe4786, 0x0fc19dc6, 0x240ca1cc, 0x2de92c6f, 0x4a7484aa, 0x5cb0a9dc, 0x76f988da] ++
  [0x983e5152, 0xa831c66d, 0xb00327c8, 0xbf597fc7, 0xc6e00bf3, 0xd5a79147, 0x06ca6351, 0x14292967] ++
  [0x27b70a85, 0x2e1b2138, 0x4d2c6dfc, 0x53380d13, 0x650a7354, 0x766a0abb, 0x81c2c92e, 0x92722c85] ++
  [0xa2bfe8a1, 0xa81a664b, 0xc24b8b70, 0xc76c51a3, 0xd192e819, 0xd6990624, 0xf40e3585, 0x106aa070] ++
  [0x19a4c116, 0x1e376c08, 0x2748774c, 0x34b0bcb5, 0x391c0cb3, 0x4ed8aa4a, 0x5b9cca4f, 0x682e6ff3] ++
  [0x748f82ee, 0x78a5636f, 0x84c87814, 0x8cc70208, 0x90befffa, 0xa4506ceb, 0xbef9a3f7, 0xc67178f2]

/-- The eight working words of SHA-256. -/
structure Sha where
  a : BitVec 32
  b : BitVec 32
  c : BitVec 32
  d : BitVec 32
  e : BitVec 32
  f : BitVec 32
  g : BitVec 32
  h : BitVec 32
  deriving DecidableEq, Repr

/-- The initial hash value. -/
def shaInit : Sha :=
  ⟨0x6a09e667, 0xbb67ae85, 0x3c6ef372, 0xa54ff53a, 0x510e527f, 0x9b05688c, 0x1f83d9ab, 0x5be0cd19⟩

/-- One round with a schedule word plus its constant. -/
def Sha.round (v : Sha) (kw : BitVec 32) : Sha :=
  let s1 := v.e.rotateRight 6 ^^^ v.e.rotateRight 11 ^^^ v.e.rotateRight 25
  let ch := (v.e &&& v.f) ^^^ (~~~v.e &&& v.g)
  let t1 := v.h + s1 + ch + kw
  let s0 := v.a.rotateRight 2 ^^^ v.a.rotateRight 13 ^^^ v.a.rotateRight 22
  let maj := (v.a &&& v.b) ^^^ (v.a &&& v.c) ^^^ (v.b &&& v.c)
  ⟨t1 + (s0 + maj), v.a, v.b, v.c, v.d + t1, v.e, v.f, v.g⟩

/-- Extend a schedule held latest word first by `n` words. -/
def shaExtend : Nat → List (BitVec 32) → List (BitVec 32)
  | 0, w => w
  | n + 1, w =>
    let x := w.getD 14 0
    let y := w.getD 1 0
    let g0 := x.rotateRight 7 ^^^ x.rotateRight 18 ^^^ (x >>> 3)
    let g1 := y.rotateRight 17 ^^^ y.rotateRight 19 ^^^ (y >>> 10)
    shaExtend n ((g1 + w.getD 6 0 + g0 + w.getD 15 0) :: w)

/-- The number that bytes spell, most significant first. -/
def beNat (b : List Byte) : Nat := b.foldl (fun n x => 256 * n + x.toNat) 0

/-- The `n` low bytes of a number, most significant first. -/
def beBytes (n v : Nat) : List Byte := (leBytes n v).reverse

/-- One block of 64 bytes. -/
def shaBlock (v : Sha) (b : List Byte) : Sha :=
  let w := (List.range 16).map fun i => BitVec.ofNat 32 (beNat (bslice b (4 * i) 4))
  let r := ((shaExtend 48 w.reverse).reverse.zip shaK).foldl (fun r x => r.round (x.1 + x.2)) v
  ⟨v.a + r.a, v.b + r.b, v.c + r.c, v.d + r.d, v.e + r.e, v.f + r.f, v.g + r.g, v.h + r.h⟩

/-- All blocks of a padded message; `n` of them. -/
def shaGo : Nat → Sha → List Byte → Sha
  | 0, v, _ => v
  | n + 1, v, b => shaGo n (shaBlock v (b.take 64)) (b.drop 64)

/-- SHA-256. -/
def sha256 (m : List Byte) : List Byte :=
  let pad := m ++ [0x80#8] ++ List.replicate ((119 - m.length % 64) % 64) 0 ++ beBytes 8 (8 * m.length)
  let v := shaGo (pad.length / 64) shaInit pad
  [v.a, v.b, v.c, v.d, v.e, v.f, v.g, v.h].flatMap fun x => beBytes 4 x.toNat

/-- The mask generation function MGF1 with SHA-256, `n` bytes. -/
def mgf1 (seed : List Byte) (n : Nat) : List Byte :=
  ((List.range (cdiv n 32)).flatMap fun i => sha256 (seed ++ beBytes 4 i)).take n

/-- The public operation with the exponent 0x10001. -/
def rsaPublic (m x : Nat) : Nat := (List.range 16).foldl (fun y _ => y * y % m) (x % m) * x % m

/-- RSASSA-PSS verification with SHA-256, a 32-byte salt and a modulus of 3,072 bits (R393). -/
def pssOk (modulus sig m : List Byte) : Bool :=
  let n := beNat modulus
  let s := beNat sig
  let em := beBytes 384 (rsaPublic n s)
  let masked := em.take 351
  let h := (em.drop 351).take 32
  let db : List Byte := (masked.zip (mgf1 h 351)).map fun x => x.1 ^^^ x.2
  let salt := db.drop 319
  decide (2 ^ 3071 ≤ n) && decide (s < n) && em.getD 383 0 = 0xBC && decide ((em.getD 0 0).toNat < 128) &&
    decide ((db.getD 0 0).toNat % 128 = 0) && allZero ((db.take 318).drop 1) && db.getD 318 0 = 1 &&
    sha256 (List.replicate 8 0 ++ sha256 m ++ salt) = h

end Sys2Proof.Machine
end

