-- ==== Sys2Proof/Machine/RubricData.lean ====
section
/-! DEFINITION. Reading a Rubric (R406 to R411, R344) and checking an image (R392, R393). -/

namespace Sys2Proof.Machine
open Sys2Proof

/-- The number of units of a kind of R409. -/
def kindCount (kind : Nat) : Nat :=
  match kind with
  | 1 => 288 | 2 => 12 | 3 => 12 | 4 => 128 | 6 => 17 | 7 => 1 | 8 => 2 | 9 => 1
  | _ => 0

/-- Whether a unit code names a unit (R409): 8 JPEG, inflater and Zstandard engines and 4 tokenizers a
half (R366 to R368, R371). -/
def unitCode (c : BitVec 24) : Bool :=
  let kind := field c 7 0
  let idx := field c 23 8
  if kind = 5 then idx < 64 && decide (idx % 8 < if idx / 8 % 4 = 3 then 4 else 8) else decide (idx < kindCount kind)

/-- A record: TYPE without its critical bit, whether it is critical, and its value. -/
structure RubRec where
  type : Nat
  critical : Bool
  val : List Byte
  deriving DecidableEq, Repr

/-- The records of a Rubric's bytes from 0x40 on; none when one runs past LENGTH (R407, R411). -/
def rubRecords : Nat → List Byte → Option (List RubRec)
  | 0, _ => some []
  | fuel + 1, b =>
    if b.isEmpty then some []
    else
      let n := bget b 4 4
      let t := bget b 0 2
      if b.length < 8 || b.length < 8 + n then none
      else (rubRecords fuel (b.drop (8 + cdiv n 4 * 4))).map fun l => ⟨t % 32768, decide (32768 ≤ t), bslice b 8 n⟩ :: l

/-- Whether the header of a Rubric is right (R406), given its slot from its first byte on. -/
def rubHeaderOk (b : List Byte) : Bool :=
  let n := bget b 8 4
  b.length ≥ 64 && bget b 0 4 = 0x4252565A && bget b 4 2 = 1 && bget b 6 2 = 0 && bget b 12 4 = 0 && 64 ≤ n && n ≤ 1048576 &&
    n ≤ b.length && decide (sha256 ((b.take n).drop 64) = bslice b 16 32)

def rubFind (l : List RubRec) (t : Nat) : Option (List Byte) := (l.find? fun r => r.type = t).map (·.val)

/-- Whether a Rubric is valid (R411); its records. -/
def rubValid (b : List Byte) : Option (List RubRec) :=
  if !rubHeaderOk b then none
  else
    let n := bget b 8 4
    match rubRecords (n / 8 + 1) ((b.take n).drop 64) with
    | none => none
    | some l =>
      let ts := l.map (·.type)
      if ts.eraseDups.length ≠ ts.length || l.any (fun r => r.critical && (r.type = 0 || 8 < r.type)) then none
      else
        match rubFind l 1 with
        | none => none
        | some v => if v.length = 2 then some l else none

/-- A value taken from a Rubric, with the records and places refused on the way (event 0x0011). -/
abbrev Refused := List (Nat × Nat)

/-- The port roles (R344): a role that a port may not take, and an Ethernet port beyond the fourth of its
half, become Disabled. -/
def portRoles (v : Option (List Byte)) (hasMac : Bool) : List (BitVec 8) × Refused :=
  let l := match v with | none => Rubric.default.roles | some b => if b.length = 34 then b else Rubric.default.roles
  let r0 : Refused := match v with | some b => if b.length = 34 then [] else [(2, 0)] | none => []
  l.zipIdx.foldl (fun r x =>
    let i := x.2
    let eth := ((r.1.drop (if i < 14 then 0 else 14)).filter fun y => y = 2).length
    let ok := if i < 28 then x.1 = 0 || x.1 = 1 || (x.1 = 2 && hasMac && decide (eth < 4)) else x.1 = 0 || x.1 = 3
    if ok then (r.1 ++ [x.1], r.2) else (r.1 ++ [0], r.2 ++ [(if x.1 = 2 && !hasMac then 3 else 2, i)])) ([], r0)

/-- An interleave set of CXL_SETS: base, links, or a value out of range (R410). -/
def cxlSetOf (b : List Byte) : Option (Nat × List Nat) :=
  let base := bget b 0 8
  let w := bget b 8 1
  let links := (bslice b 9 w).map (·.toNat)
  if base % 2 ^ 30 = 0 && base < 2 ^ 44 && [1, 2, 3, 4, 6].contains w && links.all (· < 6) && links.eraseDups.length = w &&
    allZero (bslice b (9 + w) (7 - w)) then some (base, links) else none

/-- The sets of the record, in order; a value out of range in any of them leaves no second tier (R411). -/
def cxlSets (v : Option (List Byte)) : List (Nat × List Nat) × Refused :=
  match v with
  | none => ([], [])
  | some b =>
    let n := bget b 0 1
    if n = 0 || 6 < n || bget b 1 3 ≠ 0 || b.length ≠ 4 + 16 * n then ([], [(4, 0)])
    else
      let l := (List.range n).map fun i => cxlSetOf (bslice b (4 + 16 * i) 16)
      match findIdx? Option.isNone l with
      | some i => ([], [(4, i)])
      | none => (l.filterMap id, [])

/-- The Rubric that valid records give, and what was refused or, of an unknown type, ignored (R407, R411). -/
def rubricOf (n : Nat) (l : List RubRec) : Rubric × Refused :=
  let d := Rubric.default
  let mac := match rubFind l 3 with | some b => if b.length = 224 then some b else none | none => none
  let roles := portRoles (rubFind l 2) mac.isSome
  let sets := cxlSets (rubFind l 4)
  let fen := (rubFind l 5).getD []
  let fenOk := fen.length % 4 = 0 && fen.length ≤ 4096
  let codes := if fenOk then (List.range (fen.length / 4)).map fun i => bget fen (4 * i) 4 else []
  let codeOk (c : Nat) : Bool := c < 2 ^ 24 && unitCode (BitVec.ofNat 24 c)
  let th := rubFind l 6
  let thOk (b : List Byte) : Bool :=
    b.length = 8 && 70 ≤ bget b 0 1 && bget b 0 1 ≤ 105 && 1 ≤ bget b 1 1 && bget b 1 1 ≤ 20 && 60 ≤ bget b 2 1 &&
      bget b 2 1 ≤ 105 && bget b 3 1 = 0 && 500 ≤ bget b 4 2 && bget b 4 2 ≤ 3000 && bget b 6 2 = 0
  let tv := match th with | some b => if thOk b then b else [] | none => []
  let sp := rubFind l 7
  let spOk (b : List Byte) : Bool :=
    4 ≤ b.length && bget b 0 1 ≤ 128 && bget b 1 1 ≤ 128 && bget b 2 2 = 0 && b.length % 2 = 0 && b.length ≤ 4 + 131072
  let sv := match sp with | some b => if spOk b then b else [] | none => []
  let mg := rubFind l 8
  let mgOk (b : List Byte) : Bool :=
    b.length = 12 && 8 ≤ bget b 4 1 && bget b 4 1 ≤ 30 && bget b 5 1 < 2 && bget b 6 2 = 0
  let mv := match mg with | some b => if mgOk b then b else [] | none => []
  let bad (t : Nat) (v : Option (List Byte)) (ok : List Byte → Bool) : Refused :=
    match v with | some b => if ok b then [] else [(t, 0)] | none => []
  ({ d with
      pkg := BitVec.ofNat 16 (bget ((rubFind l 1).getD []) 0 2)
      roles := roles.1
      macs := match mac with | some b => (List.range 28).map fun i => BitVec.ofNat 48 (beNat (bslice b (8 * i) 6)) | none => []
      cxl := sets.1
      fences := (codes.filter codeOk).map (BitVec.ofNat 24)
      tThrottle := if tv.isEmpty then d.tThrottle else bget tv 0 1
      hyst := if tv.isEmpty then d.hyst else bget tv 1 1
      tAlert := if tv.isEmpty then d.tAlert else bget tv 2 1
      powerLimit := if tv.isEmpty then d.powerLimit else bget tv 4 2
      pools := if sv.isEmpty then d.pools else [bget sv 0 1, bget sv 1 1]
      ranks := (List.range ((sv.length - 4) / 2)).map fun i => BitVec.ofNat 16 (bget sv (4 + 2 * i) 2)
      ip := if mv.isEmpty then none else some (BitVec.ofNat 32 (beNat (bslice mv 0 4)))
      prefixLen := if mv.isEmpty then d.prefixLen else bget mv 4 1
      gateway := if mv.isEmpty then 0 else BitVec.ofNat 32 (beNat (bslice mv 8 4))
      permit := decide (bget mv 5 1 = 1)
      len := n },
    roles.2 ++ bad 3 (rubFind l 3) (fun b => b.length = 224) ++ sets.2 ++
      (if fenOk then [] else [(5, 0)]) ++ ((codes.zipIdx.filter fun x => !codeOk x.1).map fun x => (5, x.2)) ++ bad 6 th thOk ++ bad 7 sp spOk ++ bad 8 mg mgOk ++
      ((l.filter fun r => r.type = 0 || 8 < r.type).map fun r => (r.type, 0)))

/-! ### Images (R392, R393) -/

/-- Whether the body of an image lies inside its target (R392). -/
def imageFits (b : List Byte) (kind : Nat) : Bool :=
  let n := bget b 0x10 8
  let a := bget b 0x18 8
  if kind = 1 then n ≤ 983040 && decide (a + n ≤ 2 ^ 20)
  else n ≤ 50330496 && decide (0x01000000 ≤ a) && decide (a + n ≤ 0x04000000)

/-- The first check of R393 that an image fails, 1 to 5, or 0. PUBEXP, which check 2 covers, must be the one of R392. -/
def imageCheck (kind fused : Nat) (b : List Byte) : Nat :=
  let n := bget b 0x10 8
  let hdr := b.length ≥ 1152 && bget b 0 4 = 0x4D49565A && bget b 4 2 = 1 && bget b 6 2 = kind &&
    allZero (bslice b 0x48 184) && allZero (bslice b 0x284 124) && imageFits b kind &&
    1152 + n ≤ b.length
  if !hdr then 1
  else if sha256 (bslice b 0x100 388) ≠ Config.rootKeyDigest || bslice b 0x280 4 ≠ [0, 1, 0, 1] then 2
  else if !pssOk (bslice b 0x100 384) (bslice b 0x300 384) (b.take 0x300) then 3
  else if sha256 ((b.drop 1152).take n) ≠ bslice b 0x28 32 then 4
  else if bget b 8 4 < fused then 5
  else 0

end Sys2Proof.Machine
end

