-- ==== Sys2Proof/Machine/Boot.lean ====
section
/-! DEFINITION. Power, boot and reset (R29, R31, R391 to R401, R420, R440 to R446, R452 to R460). -/

namespace Sys2Proof.Machine
open Sys2Proof

/-! ### Flash (R391, R396) -/

/-- Bytes of the flash die; an unlisted byte reads 0xFF. -/
def flashRange (m : Sparse Byte) (a n : Nat) : List Byte :=
  let l := m.filter fun p => a ≤ p.1 && p.1 < a + n
  (l.foldl (fun (r : List Byte × Nat) p => (p.2 :: (List.replicate (p.1 - r.2) 0xFF ++ r.1), p.1 + 1)) ([], a)).1.reverse
    |> fun t => t ++ List.replicate (n - t.length) 0xFF

/-- Program bytes of the flash die. -/
def flashWrite (m : Sparse Byte) (a : Nat) (b : List Byte) : Sparse Byte :=
  m.filter (fun p => p.1 < a) ++ (b.zipIdx a).map (fun x => (x.2, x.1)) ++ m.filter (fun p => a + b.length ≤ p.1)

/-- Components are 0 Colophon firmware, 1 server-core firmware, 2 Rubric; slots 0 A and 1 B. -/
def slotBase (c k : Nat) : Nat :=
  match c with
  | 0 => 0x00040000 + 0x400000 * k
  | 1 => 0x01000000 + 0x3000000 * k
  | _ => 0x07000000 + 0x100000 * k
def slotSize (c : Nat) : Nat := match c with | 0 => 0x400000 | 1 => 0x3000000 | _ => 0x100000

def slotSt (f : Flash) (c k : Nat) : SlotSt := sget .invalid f.slots (2 * c + k)
def setSlot (s : State) (c k : Nat) (v : SlotSt) : State :=
  { s with flash := s.flash.put fun r => { r with slots := sset r.slots (2 * c + k) v } }

/-- The bytes of a slot that a check needs: header and body, or the Rubric's LENGTH. -/
def slotImage (s : State) (c k : Nat) : List Byte :=
  let hdr := flashRange s.flash.bytes (slotBase c k) (if c = 2 then 64 else 1152)
  let n := if c = 2 then bget hdr 8 4 else 1152 + bget hdr 0x10 8
  flashRange s.flash.bytes (slotBase c k) (min n (slotSize c))

/-- The check that a component's bytes fail, or 0: R393 for firmware, R411 for a Rubric (1). -/
def compCheck (s : State) (c : Nat) (b : List Byte) : Nat :=
  if c = 2 then (if (rubValid b).isSome then 0 else 1) else imageCheck (c + 1) s.flash.svn b

/-- An image or Rubric for a slot fails check `e` (event 0x0003, R423). -/
def rejectLog (s : State) (c k e : Nat) : State := logPut s 0x0003 3 (logFields [(4, c + 1), (4, k), (4, e)])

/-- A slot whose image fails its check is INVALID (R396), and the rejection is logged. -/
def rejectSlot (s : State) (c k e : Nat) : State := setSlot (rejectLog s c k e) c k .invalid

/-- Steps 1 to 4 of R396: the slot that is selected before its check. -/
def pickSlot (s : State) (c : Nat) : State × Option Nat :=
  let drop (s : State) (k : Nat) : State := if slotSt s.flash c k = .pending 0 then setSlot s c k .invalid else s
  let s := drop (drop s 0) 1
  let pend (k : Nat) : Option Nat := match slotSt s.flash c k with | .pending (n + 1) => some n | _ => none
  let is (v : SlotSt) (k : Nat) : Bool := slotSt s.flash c k = v
  match pend 0, pend 1 with
  | some n, _ => (setSlot s c 0 (.pending n), some 0)
  | none, some n => (setSlot s c 1 (.pending n), some 1)
  | none, none => (s, [0, 1].find? (is .active) <|> [0, 1].find? (is .fallback))

/-- A component selects its slot (R396). -/
def chooseSlot (s : State) (c : Nat) : State × Option Nat :=
  match pickSlot s c with
  | (s, none) => (s, none)
  | (s, some k) =>
    let e := compCheck s c (slotImage s c k)
    if e = 0 then (s, some k)
    else
      let s := rejectSlot s c k e
      if slotSt s.flash c (1 - k) = .invalid then (s, none)
      else
        let e := compCheck s c (slotImage s c (1 - k))
        if e = 0 then (s, some (1 - k)) else (rejectSlot s c (1 - k) e, none)

/-- The ROM or firmware takes a component's slot again after a package reset, without selecting or
counting (R442). -/
def warmSlot (s : State) (c k : Nat) : State × Option Nat :=
  if compCheck s c (slotImage s c k) = 0 then (s, some k) else (s, none)

/-! ### Fences (R29, R31) -/

/-- Whether a boot follows a package reset. -/
def warm (s : State) : Bool := s.col.lastReset ≠ 0

/-- Fence units from a source: 1 fuse, 2 self-test, 3 Rubric. A unit fenced already keeps its source. -/
def fenceUnits (s : State) (src : BitVec 8) (l : List (BitVec 24)) : State :=
  l.foldl (fun s c =>
    if !unitCode c || s.col.fences.any (fun p => p.1 = c) then s
    else logPut { s with col := { s.col with fences := s.col.fences ++ [(c, src)] } } 0x0010 1
      (logFields [(4, c.toNat + 2 ^ 24 * src.toNat)])) s

def unitOf (kind idx : Nat) : BitVec 24 := BitVec.ofNat 24 (kind + 256 * idx)

/-- Whether a half has what host service needs but for firmware (R446). -/
def hostCapable (s : State) (h : Half) : Bool :=
  !halfFenced s h && !(liveStacks s h).isEmpty && (List.range 6).any fun k => !clusterFenced s h k

/-- A fenced Ligature fences half 1, or half 0 when half 0 lacks host service (R31). It is judged when stage 2 ends and every
other fence is known, and the half takes the Ligature's own source, of which R29 says nothing (DESIGN CHOICE, log entry
47). -/
def fenceByLigature (s : State) : State :=
  match s.col.fences.find? fun p => p.1 = unitOf 7 0 with
  | none => s
  | some (_, src) =>
    if halfFenced s 0 || halfFenced s 1 then s
    else fenceUnits s src [unitOf 8 (if hostCapable s 0 then 1 else 0)]

/-- Units that a failed rail fences (R457). -/
def railUnits (rail : Nat) : List (BitVec 24) :=
  if rail = 148 ∨ rail = 149 then [unitOf 9 0, unitOf 6 14, unitOf 6 15, unitOf 6 16]
  else if 128 ≤ rail ∧ rail < 148 then
    let h := (rail - 128) / 10
    match (rail - 128) % 10 with
    | 0 | 1 => (List.range 144).map fun q => unitOf 1 (144 * h + q)
    | 2 | 3 => [unitOf 8 h]
    | 4 => (List.range 6).map fun k => unitOf 2 (6 * h + k)
    | 5 | 6 | 7 => (List.range 6).map fun k => unitOf 3 (6 * h + k)
    | _ => (List.range 7).map fun e => unitOf 6 (7 * h + e)
  else []

/-! ### Rails (R457) -/

/-- Whether a half is fenced by fuse or by the Rubric, and so keeps its rails off. -/
def railsBarred (s : State) (h : Half) : Bool := s.col.fences.any fun p => p.1 = unitOf 8 h.val && p.2 ≠ 2

/-- The rails of a step, but for those of halves fenced by fuse or by the Rubric. -/
def stepRails (s : State) (step : Nat) : List Nat :=
  let both (l : List Nat) : List Nat := l.flatMap fun r =>
    (if railsBarred s 0 then [] else [128 + r]) ++ (if railsBarred s 1 then [] else [138 + r])
  match step with
  | 1 => both [7] | 2 => both [5] | 3 => both [3, 2] | 4 => [149, 148]
  | 5 => both [6] | 6 => both [1, 0] | 7 => both [4] | 8 => both [9, 8] | _ => []

/-- The rails of the Colophon domain, COLOPHON and FLASH, on while there is input power. -/
def colRails : List Nat := [150, 151]

/-- Enable the rails of a step. -/
def enableStep (s : State) (step : Nat) : State :=
  { s with power := { s.power with step := step, rails := s.power.rails ++ stepRails s step } }

/-! ### The end of a boot that cannot complete (R397) -/

/-- Boot failure, logged with a reason (DESIGN CHOICE, log entry 28). -/
def bootLog (s : State) (why : Nat) : State := logPut s 0x0002 3 (logFields [(4, s.col.stage), (4, why)])

/-- Boot ends at management service. -/
def toManagement (s : State) (why : Nat) : State :=
  let s := bootLog s why
  { s with col := { s.col with bootFailed := true, service := 0 } }

/-- A stage is reached. -/
def reach (s : State) (stage : Nat) : State :=
  logPut { s with col := { s.col with stage := stage } } 0x0001 0
    (logFields [(4, stage), (4, s.col.bootedCol), (4, s.col.bootedScfw), (4, s.col.bootedRub)])

/-! ### Stage 0: the Colophon firmware (R395, R397) -/

/-- The start of the boot ROM counts a power cycle (R426), and stage 0 is reached (R423). -/
def romStart (s : State) : State :=
  reach { s with flash := s.flash.put fun r => { r with cycles := r.cycles + 1 }
                 col := { s.col with recovery := false, bootFailed := false, started := false } } 0

/-- Set one measurement, index 1 to 3 (R415). -/
def setMeas (s : State) (i : Nat) (d : List Byte) : State :=
  { s with col := { s.col with meas := (List.range 3).map fun j => if j + 1 = i then d else s.col.meas.getD j [] } }

/-- The Rubric is selected, read once and applied, and the fence lists of fuses and Rubric with it
(R29, R398, R408). -/
def takeRubric (s : State) : State :=
  match chooseSlot s 2 with
  | (s, none) => toManagement s 3
  | (s, some k) =>
    let b := slotImage s 2 k
    match rubValid b with
    | none => toManagement s 3
    | some l =>
      let n := bget b 8 4
      let r := rubricOf n l
      let s := { s with col := { s.col with rubric := r.1, bootedRub := k, fences := [] } }
      let s := setMeas s 3 (sha256 (b.take n))
      let s := match r.1.ip with | some ip => { s with flash := s.flash.put fun r => { r with ip := some ip } } | none => s
      let s := r.2.foldl (fun s x => logPut s 0x0011 2 (logFields [(4, x.1), (4, x.2)])) s
      fenceUnits (fenceUnits s 1 s.flash.fences) 3 r.1.fences

/-- Stage 0 ends: the firmware runs, or the ROM goes to recovery. Stage 1 begins with the Rubric. A ROM that its start
watchdog or a committed recovery image restarted selects a slot also after a package reset (R395 to R397). -/
def endStage0 (s : State) : State :=
  let keep := warm s && !s.col.reselect
  let pick := if keep then warmSlot s 0 s.col.bootedCol else chooseSlot s 0
  match pick with
  | (s, none) =>
    let s := bootLog s 2
    { s with col := { s.col with recovery := true, bootFailed := true, service := 0 } }
  | (s, some k) =>
    let s := { s with col := { s.col with bootedCol := k, reselect := false } }
    let s := if keep then s else setMeas s 1 (sha256 (slotImage s 0 k))
    let s := reach s 1
    if warm s then s else takeRubric s

/-! ### Stage 1: rails and self-test -/

/-- The firmware has written its start mark, by the end of a stage that it finishes at the latest (R395; DESIGN CHOICE, log
entry 47). -/
def startMark (s : State) : State := { s with col := { s.col with started := true } }

/-- Stage 1 ends: the self-test's failures are fenced (R29). After a package reset they end the reset at
management service instead (R442). -/
def endStage1 (s : State) (failed : List (BitVec 24)) : State :=
  if warm s then
    if failed.any (fun c => unitCode c && !s.col.fences.any fun p => p.1 = c) then toManagement s 5 else reach s 2
  else reach (fenceUnits s 2 failed) 2

/-! ### Stage 2: memory, links and ports -/

/-- The usable capacity of a link (R312). -/
def usable (n : Nat) : Nat := min (2 ^ 41) (n / 2 ^ 28 * 2 ^ 28 - 2 ^ 28)

/-- The second tier comes up: links of CXL ports that report a capacity, and the Rubric's sets in order
(R312, R410). A set that reuses a link of an earlier set, mapped or not, or overlaps a mapped one is not mapped, and that is
logged. -/
def mapCxl (s : State) (caps : List (Nat × Nat)) : State :=
  let up := caps.filter fun p =>
    decide (p.1 < 6) && !bltFenced s && !engineFenced s (14 + p.1 / 2) && s.col.rubric.roles.getD (28 + p.1) 0 = 3
  let bytes : Sparse Nat := up.foldl (fun (m : Sparse Nat) (p : Nat × Nat) => sset m p.1 (usable p.2)) []
  let s := { s with cxlUp := up.foldl (fun (l : List Nat) (p : Nat × Nat) => ninsert l p.1) [], cxlBytes := bytes, cxl := [] }
  (s.col.rubric.cxl.zipIdx.foldl (fun (r : State × List Nat) (x : (Nat × List Nat) × Nat) =>
    let s := r.1
    let base := x.1.1
    let links := x.1.2
    let n : Nat := links.length * (links.map fun l => sget 0 bytes l).foldl min (2 ^ 41)
    let clash := links.any r.2.contains || s.cxl.any fun c => decide (base < c.base + c.bytes ∧ c.base < base + n)
    if clash then (logPut s 0x0011 2 (logFields [(4, 4), (4, x.2)]), r.2 ++ links)
    else if links.all (fun l => s.cxlUp.contains l) then ({ s with cxl := s.cxl ++ [CxlSet.mk base links n] }, r.2 ++ links)
    else (s, r.2 ++ links)) (s, [])).1

/-- Ports take their roles and begin to train (R344, R349). -/
def startPorts (s : State) : State :=
  let one (p : Nat) : Port :=
    let role := s.col.rubric.roles.getD p 0
    let dead := role = 0 || engineFenced s (p / 2)
    { portReset with
      role := role.setWidth 2
      st := if dead then .disabled else if 28 ≤ p then (if s.cxlUp.contains (p - 28) then .up else .signal) else .signal
      lock := if !dead && decide (28 ≤ p) && s.cxlUp.contains (p - 28) then 0xFF else 0 }
  { s with ports := (List.range 34).map fun p => (p, one p) }

/-- Stage 2 ends. -/
def endStage2 (s : State) (r : BootReport) : State :=
  let bad := r.failed.any fun c => unitCode c && !s.col.fences.any fun p => p.1 = c
  if warm s && bad then toManagement s 5
  else reach (startPorts (mapCxl (fenceByLigature (fenceUnits s 2 r.failed)) r.cxlBytes)) 3

/-! ### Stage 3: the boot area and the boot hart -/

/-- Write bytes to HBM while the coherent domain does not run yet. -/
def bootWrite (s : State) (a : Nat) (b : List Byte) : State :=
  let lo := a / 128
  let hi := (a + b.length + 127) / 128
  { s with
    mem := { cells := mputs s.mem.cells a b, poison := s.mem.poison.filter fun l => l < lo || hi ≤ l }
    ecc := s.ecc.filter fun p => p.1 / 8 < lo || hi ≤ p.1 / 8 }

/-- ID_SERVICE.LEVEL (R400, R446). -/
def serviceLevel (s : State) : BitVec 4 :=
  let bit (b : Bool) (i : Nat) : Nat := if b then 2 ^ i else 0
  BitVec.ofNat 4 (bit (trains s 0) 0 + bit (trains s 1) 1 + bit (hostCapable s 0) 2 + bit (hostCapable s 1) 3)

/-- The base of the boot area (R399). -/
def bootBase (s : State) : Nat := 2 ^ 40 * ((s.col.hostHalf.getD 0).val)

/-- A fenced unit with its source, as R400 writes it. -/
def fenceWord (p : BitVec 24 × BitVec 8) : Nat := p.1.toNat + 2 ^ 24 * p.2.toNat

/-- The boot information block (R400), 4 KiB. -/
def bootBlock (s : State) : List Byte :=
  let fw := Config.fwFeatures.toNat
  let b := leBytes 4 0x4942565A ++ leBytes 4 1 ++ leBytes 4 (s.col.hostHalf.getD 0).val ++ leBytes 4 s.col.rubric.pkg.toNat ++
    leBytes 8 s.flash.cycles.toNat ++ leBytes 8 fw ++ bslice (s.col.meas.getD 2 []) 0 32 ++ leBytes 4 s.col.rubric.len ++
    leBytes 4 s.col.service.toNat ++ leBytes 4 s.col.rubric.ranks.length ++ leBytes 4 s.col.fences.length
  bslice (bslice b 0 0x100 ++ s.col.fences.flatMap fun p => leBytes 4 (fenceWord p)) 0 4096

/-- Write the boot area (R399): the information block, the default rank list, the Rubric and the
server-core firmware's body at LOAD_ADDR. -/
def writeBootArea (s : State) (img : List Byte) : State :=
  let b := bootBase s
  let s := bootWrite s b (bootBlock s)
  let s := bootWrite s (b + 0x1000) (s.col.rubric.ranks.flatMap fun p => leBytes 2 p.toNat)
  let s := bootWrite s (b + 0x100000) ((slotImage s 2 s.col.bootedRub).take s.col.rubric.len)
  bootWrite s (b + bget img 0x18 8) ((img.drop 1152).take (bget img 0x10 8))

/-- A core starts in machine mode at an address, with its agent ID in a0 and the boot area's base in a1 (R401, R445). -/
def coreStart (s : State) (agent : Nat) (entry : BitVec 64) : Core :=
  { coreReset with running := true, machine := true, pc := entry, a0 := BitVec.ofNat 64 agent, a1 := BitVec.ofNat 64 (bootBase s) }

/-- The boot hart starts at its firmware's ENTRY (R401): the coherent domain runs, and the units of live halves with
it. -/
def startDomain (s : State) (entry : Nat) : State :=
  let h := s.col.hostHalf.getD 0
  let k := ((List.range 6).find? fun k => !clusterFenced s h k).getD 0
  let live (h : Half) : Bool := !halfFenced s h
  let hs : List Half := [0, 1]
  { s with
    coh := { s.coh with running := true, down := false }
    cores := sset s.cores (48 * h.val + 8 * k) (coreStart s (48 * h.val + 8 * k) (BitVec.ofNat 64 (bootBase s + entry)))
    scb := (hs.filter live).map fun h => (h.val, ⟨.running, []⟩)
    srp := (hs.filter live).map fun h => (h.val, ⟨.running⟩)
    feeds := (hs.filter live).map fun h => (h.val, ⟨.running, [], [], [], [], [], [], 0⟩)
    blt := if bltFenced s then .off else .running }

/-- Stage 3 ends (R395, R397, R401): the host half, its firmware, the boot area and the boot hart. -/
def endStage3 (s : State) : State :=
  if !hostCapable s 0 && !hostCapable s 1 then toManagement s 4
  else
    let s := { s with col := { s.col with hostHalf := some (if hostCapable s 0 then 0 else 1) } }
    match (if warm s then warmSlot s 1 s.col.bootedScfw else chooseSlot s 1) with
    | (s, none) => toManagement s 6
    | (s, some k) =>
      let img := slotImage s 1 k
      let s := { s with col := { s.col with bootedScfw := k } }
      let s := if warm s then s else setMeas s 2 (sha256 img)
      let s := { s with col := { s.col with service := serviceLevel s } }
      startDomain (reach (writeBootArea s img) 4) (bget img 0x20 8)

/-! ### Commands of boot (R395 to R397) -/

/-- Whether the Colophon runs and boot goes on. -/
def booting (s : State) : Bool := s.power.input && !s.power.off && !s.col.bootFailed

/-- A stage finishes (R395). Stage 1 waits for its rails. -/
def stageAdvance (s : State) (r : BootReport) : State :=
  if !booting s then s
  else match s.col.stage with
  | 0 => endStage0 s
  | 1 => if s.power.step < 9 then s else endStage1 (startMark s) r.failed
  | 2 => endStage2 (startMark s) r
  | 3 => endStage3 s
  | 4 => reach s 5
  | _ => s

def execBootStageAdvance (r : BootReport) (s : State) : Out := .next (stageAdvance s r)

/-- A stage overruns its limit (R397): units not yet up are fenced, and boot goes on with the rest, with the links that stage
2 has brought up; with the input below 44 V in stage 1 it ends at management service (R456). -/
def stageTimeout (s : State) (r : BootReport) : State :=
  let l := r.failed
  if !booting s || 4 ≤ s.col.stage then s
  else if s.col.stage = 1 && s.power.step = (if warm s then 2 else 0) then toManagement s 7
  else
    let s := bootLog s 1
    if s.col.stage = 1 then endStage1 { s with power := { s.power with step := 9 } } l
    else if s.col.stage = 2 then endStage2 s r
    else if warm s then stageAdvance s ⟨[], []⟩
    else stageAdvance (fenceUnits s 2 l) ⟨[], []⟩

def execStageTimeout (r : BootReport) (s : State) : Out := .next (stageTimeout s r)

/-- The rails that a package reset leaves on, among some: the HBM retention rails (R459) and the Colophon domain's. -/
def retained (l : List Nat) : List Nat := l.filter fun r => r % 10 = 3 || r % 10 = 5 || 150 ≤ r

/-- No start mark within 10 s (R395): the slot is INVALID and the ROM starts again. -/
def startWatchdog (s : State) : State :=
  if !booting s || !(s.col.stage = 1 || s.col.stage = 2) || s.col.started then s
  else
    let s := romStart (setSlot s 0 s.col.bootedCol .invalid)
    { s with col := { s.col with reselect := true }
             power := if warm s then { s.power with step := 2, rails := retained s.power.rails } else { s.power with step := 0, rails := colRails } }

def execColophonStartWatchdog (s : State) : Out := .next (startWatchdog s)

/-- Every rail of a step is in regulation, and the next step begins (R457). -/
def execRailSequenceStep (s : State) : Out :=
  .next (if booting s && s.col.stage = 1 && decide (s.power.step < 9) then enableStep s (s.power.step + 1) else s)

/-- A rail of the step misses its band: it is left off, and its units are fenced by self-test (R457). -/
def railTimeout (s : State) (rail : Nat) : State :=
  if booting s && s.col.stage = 1 && (stepRails s s.power.step).contains rail && s.power.rails.contains rail then
    let s := { s with power := { s.power with rails := s.power.rails.filter (· ≠ rail) } }
    if warm s then toManagement s 5 else fenceUnits s 2 (railUnits rail)
  else s

def execRailTimeout (rail : BitVec 8) (s : State) : Out := .next (railTimeout s rail.toNat)

/-! ### Power (R420, R456, R458) -/

/-- The second tier's contents, which its devices hold whatever becomes of the package's power (R443; DESIGN CHOICE, log
entry 6). -/
def tier2Mem (m : Mem) : Mem :=
  ⟨m.cells.filter fun c => decide (tier2 ≤ c.1), m.poison.filter fun l => decide (tier2 ≤ 128 * l)⟩

/-- The machine at reset but for what outlives the loss of power: flash, and what lies outside the package. -/
def powerLost (s : State) : State :=
  { State.reset with pending := s.pending, free := s.free, sent := s.sent, flash := s.flash, mem := tier2Mem s.mem }

/-- The input rises above 38 V (R456): everything but flash, fuses and the second tier is at reset, and the ROM starts. -/
def execPowerOn (s : State) : Out := .next (if s.power.input then s else romStart (powerLost s))

/-- The log entries that are due at the flash ring and not copied yet, oldest first (R422). -/
def logDue (s : State) : List (List Byte) :=
  ((List.range (min 4096 (s.col.logNext - s.col.logFlashed))).map fun i =>
    sget [] s.col.log ((max s.col.logFlashed (s.col.logNext - 4096) + i) % 4096)).filter fun e => flashMin s ≤ bget e 18 1

/-- The loss of power may find an entry on its way to the flash ring, which then holds it cut short (R422). Whether it does,
and after which byte, is free (DESIGN CHOICE, log entry 7). -/
def logCut (s : State) : State :=
  match logDue s with
  | [] => s
  | e :: _ =>
    let r := freshBit s
    let n := (Config.freeByte r.1.free).toNat % 64
    if r.2 then flashPut { r.1 with free := r.1.free + 1 } (e.take n ++ List.replicate (64 - n) 0xFF) else r.1

/-- The input falls below 34 V (R456): the Colophon domain stops. -/
def execInputBelow34V (s : State) : Out :=
  .next (if s.power.input then
    { powerLost (logCut s) with power := { input := false, step := 0, rails := [], off := false } }
    else s)

/-- The home that records a loss of power: Reservoir 0, or 1 when half 0 is fenced. -/
def trapHome (s : State) : Nat := if halfFenced s 0 then 1 else 0

/-- The package shuts down (R420, R458): the domain goes down with cause 8, and every rail but the Colophon domain's goes off
and stays off, with the ports and links dark. -/
def shutDown (s : State) : State :=
  let s := domainDown s 8 (trapHome s) (homeAgent (trapHome s)) 0
  { s with power := { s.power with rails := colRails, off := true }, cores := [], ports := [], cxlUp := [] }

def execInputTrip (s : State) : Out := .next (if s.power.input && !s.power.off then shutDown s else s)

/-- A rail leaves ±10 % after stage 1 (R458). -/
def execRailFault (rail : BitVec 8) (s : State) : Out :=
  .next (if s.power.input && !s.power.off && decide (2 ≤ s.col.stage) && s.power.rails.contains rail.toNat then shutDown s else s)

/-- Whether a reading fires a comparator (R420). -/
def tripReading (i : Nat) (v : BitVec 32) : Bool :=
  let t := intOfBits 16 (field v 15 0)
  decide (t ≠ -32768) && (if i < 96 then decide (110 * 16 ≤ t) else if i < 108 then decide (105 * 16 ≤ t)
    else if i < 126 then decide (90 * 16 ≤ t) else false)

/-- An update that a thermal trip meets fails, and its slot stays INVALID (R405); the cause is that of
flash programming (R403). -/
def tripUpdate (s : State) : State :=
  if s.col.upd = .busy && s.col.updImage.isSome then
    { s with col := { s.col with updImage := none, updCause := 6 } }
  else s

/-- A hardware comparator fires (R420). -/
def execThermalTrip (sensor : BitVec 8) (reading : BitVec 32) (s : State) : Out :=
  .next (if s.power.input && !s.power.off && tripReading sensor.toNat reading then
    logPut (tripUpdate (shutDown s)) 0x0023 4 (logFields [(4, sensor.toNat), (4, reading.toNat)]) else s)

/-- A cluster, Reservoir or the Blotter loses its clock (R340 cause 8). -/
def execClockLoss (u : ClockUnit) (s : State) : Out :=
  .next (match u with
    | .cluster h k => if clusterFenced s h k.val then s else domainDown s 8 h.val (homeAgent h.val) 0
    | .reservoir h => if halfFenced s h then s else domainDown s 8 h.val (homeAgent h.val) 0
    | .blotter => if bltFenced s then s else domainDown s 8 2 (homeAgent 2) 0)

/-! ### Package reset (R441 to R444, R459) -/

/-- Whether a register address lies in the Colophon domain and survives a package reset (R443). -/
def survives (a : Nat) : Bool :=
  let c := Frame.col.base
  let i := Frame.id.base
  (c ≤ a && a < c + 0x10000 && !(c + 0x28 ≤ a && a < c + 0x38) && !(c + 0x90 ≤ a && a < c + 0xC0))
    || (i ≤ a && a < i + 0x10000 && !(i + 0x110 ≤ a && a < i + 0x118))

/-- The Colophon's state carried over a package reset; `why` is 1 commanded, 2 automatic. -/
def coloReset (c : Colo) (why : BitVec 2) : Colo :=
  { c with stage := 0, reselect := false, bootFailed := false, recovery := false, started := false, hostHalf := none, service := 0
           lastReset := why, featPend := false }

/-- A package reset (R442): units stop and peers are told, the Reservoirs write their dirty lines to HBM, which is kept,
the rails but the retention ones are cycled, and the ROM restarts in warm form. -/
def packageReset (s : State) (why : BitVec 2) : State :=
  let s := if alive s then updCut (sendDowns (bltCut s)) else s
  let s := s.res.foldl (fun s p => resEvict s p.1) s
  let kept (l : List Nat) : List Nat := l.filter fun k => k * 65536 = Frame.id.base || k * 65536 = Frame.col.base
  let s' := { State.reset with
    pending := s.pending, tick := s.tick, free := s.free, flash := s.flash, sent := s.sent, mem := s.mem, ecc := s.ecc
    power := { s.power with step := 2, rails := retained s.power.rails }
    col := coloReset s.col why
    regs := s.regs.filter fun p => survives p.1
    act := s.act.filter fun p => survives p.1
    frames := {
      lock := kept s.frames.lock, latches := s.frames.latches.filter fun p => survives (p.1 / 96 * 65536)
      posted := [], wdrop := kept s.frames.wdrop, gviol := kept s.frames.gviol } }
  romStart s'

/-- Whether a package reset can run. -/
def canReset (s : State) : Bool := s.power.input && !s.power.off && !s.col.recovery && decide (4 ≤ s.col.stage)

/-- A write of 1 to ID_RESET.PACKAGE (R440, R442). -/
def execPackageReset (s : State) : Out :=
  .next (postedOp s .id fun s => guardOp s .id fun s => if canReset s then packageReset s 1 else s)

/-- DOWN_DELAY in ms, 0 acting as 1 (R444). -/
def downDelay (s : State) : Nat := max 1 (field (regWord s (Frame.id.base + 0x124)) 16 1)

/-- DOWN_DELAY after domain-down with DOWN_AUTO set (R444). -/
def execDownAutoReset (s : State) : Out :=
  .next (if canReset s && s.coh.down && bitAt (regWord s (Frame.id.base + 0x124)) 0 &&
      decide (s.coh.downTick + downDelay s * 1000000 ≤ s.tick.toNat) then packageReset s 2 else s)

/-- A write of 1 to ID_CORE_CTL.RUN (R445). -/
def coreRun (s : State) (c : CoreId) : State :=
  let v := sget coreReset s.cores c.num
  if s.col.stage < 4 || s.col.bootFailed || s.power.off || clusterFenced s c.h (c.c.val / 8) || v.running then s
  else { s with cores := sset s.cores c.num (coreStart s c.num (BitVec.ofNat 64 (regWord64 s (Frame.id.base + 0x200 + 16 * c.num)))) }

def execCoreRun (c : CoreId) (s : State) : Out := .next (postedOp s .id fun s => coreRun s c)

end Sys2Proof.Machine
end

