-- ==== Sys2Proof/Machine/BrushFn.lean ====
section
/-! DEFINITION. The Brush's approximate functions on FP32 values (R161 to R165): every step rounds to
FP32 under RNE, and the tables are those the rules define. -/

namespace Sys2Proof.Machine
open Sys2Proof

/-- T[j] = 2^(j/64) (R162). -/
def tabT : List Nat :=
  [0x3F800000, 0x3F8164D2, 0x3F82CD87, 0x3F843A29, 0x3F85AAC3, 0x3F871F62, 0x3F88980F, 0x3F8A14D5] ++
  [0x3F8B95C2, 0x3F8D1ADF, 0x3F8EA43A, 0x3F9031DC, 0x3F91C3D3, 0x3F935A2B, 0x3F94F4F0, 0x3F96942D] ++
  [0x3F9837F0, 0x3F99E046, 0x3F9B8D3A, 0x3F9D3EDA, 0x3F9EF532, 0x3FA0B051, 0x3FA27043, 0x3FA43516] ++
  [0x3FA5FED7, 0x3FA7CD94, 0x3FA9A15B, 0x3FAB7A3A, 0x3FAD583F, 0x3FAF3B79, 0x3FB123F6, 0x3FB311C4] ++
  [0x3FB504F3, 0x3FB6FD92, 0x3FB8FBAF, 0x3FBAFF5B, 0x3FBD08A4, 0x3FBF179A, 0x3FC12C4D, 0x3FC346CD] ++
  [0x3FC5672A, 0x3FC78D75, 0x3FC9B9BE, 0x3FCBEC15, 0x3FCE248C, 0x3FD06334, 0x3FD2A81E, 0x3FD4F35B] ++
  [0x3FD744FD, 0x3FD99D16, 0x3FDBFBB8, 0x3FDE60F5, 0x3FE0CCDF, 0x3FE33F89, 0x3FE5B907, 0x3FE8396A] ++
  [0x3FEAC0C7, 0x3FED4F30, 0x3FEFE4BA, 0x3FF28177, 0x3FF5257D, 0x3FF7D0DF, 0x3FFA83B3, 0x3FFD3E0C]

/-- R[j] = 1/(1 + j/64) (R163). -/
def tabR : List Nat :=
  [0x3F800000, 0x3F7C0FC1, 0x3F783E10, 0x3F74898D, 0x3F70F0F1, 0x3F6D7304, 0x3F6A0EA1, 0x3F66C2B4] ++
  [0x3F638E39, 0x3F607038, 0x3F5D67C9, 0x3F5A740E, 0x3F579436, 0x3F54C77B, 0x3F520D21, 0x3F4F6475] ++
  [0x3F4CCCCD, 0x3F4A4588, 0x3F47CE0C, 0x3F4565C8, 0x3F430C31, 0x3F40C0C1, 0x3F3E82FA, 0x3F3C5264] ++
  [0x3F3A2E8C, 0x3F381703, 0x3F360B61, 0x3F340B41, 0x3F321643, 0x3F302C0B, 0x3F2E4C41, 0x3F2C7692] ++
  [0x3F2AAAAB, 0x3F28E83F, 0x3F272F05, 0x3F257EB5, 0x3F23D70A, 0x3F2237C3, 0x3F20A0A1, 0x3F1F1166] ++
  [0x3F1D89D9, 0x3F1C09C1, 0x3F1A90E8, 0x3F191F1A, 0x3F17B426, 0x3F164FDA, 0x3F14F209, 0x3F139A86] ++
  [0x3F124925, 0x3F10FDBC, 0x3F0FB824, 0x3F0E7835, 0x3F0D3DCB, 0x3F0C08C1, 0x3F0AD8F3, 0x3F09AE41] ++
  [0x3F088889, 0x3F0767AB, 0x3F064B8A, 0x3F053408, 0x3F042108, 0x3F03126F, 0x3F020821, 0x3F010204]

/-- G[j] = -ln(R[j]) (R163). -/
def tabG : List Nat :=
  [0x00000000, 0x3C7E0545, 0x3CFC14C8, 0x3D3BA2CE, 0x3D785185, 0x3D9A0EBA, 0x3DB78694, 0x3DD4936C] ++
  [0x3DF1383A, 0x3E06BBF4, 0x3E14AA96, 0x3E22695A, 0x3E2FF983, 0x3E3D5C48, 0x3E4A92D4, 0x3E579E49] ++
  [0x3E647FBD, 0x3E71383B, 0x3E7DC8C6, 0x3E851928, 0x3E8B3AE5, 0x3E914A0F, 0x3E974716, 0x3E9D3263] ++
  [0x3EA30C5D, 0x3EA8D56C, 0x3EAE8DED, 0x3EB43640, 0x3EB9CEBF, 0x3EBF57C2, 0x3EC4D19D, 0x3ECA3C9F] ++
  [0x3ECF991E, 0x3ED4E766, 0x3EDA27BD, 0x3EDF5A6D, 0x3EE47FBF, 0x3EE997F4, 0x3EEEA34F, 0x3EF3A213] ++
  [0x3EF8947A, 0x3EFD7AC3, 0x3F012A95, 0x3F0391F3, 0x3F05F397, 0x3F084F9E, 0x3F0AA61F, 0x3F0CF735] ++
  [0x3F0F42FA, 0x3F118987, 0x3F13CAF0, 0x3F160750, 0x3F183EBA, 0x3F1A7144, 0x3F1C9F07, 0x3F1EC812] ++
  [0x3F20EC7E, 0x3F230C5F, 0x3F2527C4, 0x3F273EC1, 0x3F29516A, 0x3F2B5FCE, 0x3F2D6A01, 0x3F2F7015]

/-- Y[64u + b] = 1/sqrt((1 + u)(1 + (2b + 1)/128)) (R164). -/
def tabY : List Nat :=
  [0x3F7F017E, 0x3F7D0D3E, 0x3F7B2452, 0x3F79464E, 0x3F7772CB, 0x3F75A969, 0x3F73E9CB, 0x3F723399] ++
  [0x3F708681, 0x3F6EE232, 0x3F6D4660, 0x3F6BB2C5, 0x3F6A271A, 0x3F68A31D, 0x3F672691, 0x3F65B139] ++
  [0x3F6442DB, 0x3F62DB41, 0x3F617A36, 0x3F601F87, 0x3F5ECB04, 0x3F5D7C7F, 0x3F5C33CC, 0x3F5AF0BF] ++
  [0x3F59B330, 0x3F587AF7, 0x3F5747EE, 0x3F5619F2, 0x3F54F0DF, 0x3F53CC93, 0x3F52ACEE, 0x3F5191D1] ++
  [0x3F507B1D, 0x3F4F68B6, 0x3F4E5A7F, 0x3F4D505E, 0x3F4C4A38, 0x3F4B47F4, 0x3F4A497A, 0x3F494EB3] ++
  [0x3F485787, 0x3F4763E2, 0x3F4673AC, 0x3F4586D3, 0x3F449D42, 0x3F43B6E6, 0x3F42D3AD, 0x3F41F383] ++
  [0x3F411659, 0x3F403C1C, 0x3F3F64BD, 0x3F3E902C, 0x3F3DBE58, 0x3F3CEF34, 0x3F3C22B1, 0x3F3B58C0] ++
  [0x3F3A9154, 0x3F39CC60, 0x3F3909D6, 0x3F3849AA, 0x3F378BD0, 0x3F36D03D, 0x3F3616E4, 0x3F355FBA] ++
  [0x3F3450FC, 0x3F32EF41, 0x3F319589, 0x3F304387, 0x3F2EF8F2, 0x3F2DB587, 0x3F2C7904, 0x3F2B432A] ++
  [0x3F2A13C0, 0x3F28EA8C, 0x3F27C759, 0x3F26A9F4, 0x3F25922C, 0x3F247FD3, 0x3F2372BD, 0x3F226ABE] ++
  [0x3F2167AF, 0x3F206968, 0x3F1F6FC4, 0x3F1E7AA0, 0x3F1D89D9, 0x3F1C9D4E, 0x3F1BB4E1, 0x3F1AD073] ++
  [0x3F19EFE6, 0x3F191320, 0x3F183A05, 0x3F17647C, 0x3F16926C, 0x3F15C3BC, 0x3F14F857, 0x3F143026] ++
  [0x3F136B13, 0x3F12A90B, 0x3F11E9F9, 0x3F112DCA, 0x3F10746D, 0x3F0FBDCE, 0x3F0F09DD, 0x3F0E5889] ++
  [0x3F0DA9C2, 0x3F0CFD79, 0x3F0C539F, 0x3F0BAC25, 0x3F0B06FD, 0x3F0A641A, 0x3F09C36D, 0x3F0924EC] ++
  [0x3F088889, 0x3F07EE37, 0x3F0755ED, 0x3F06BF9E, 0x3F062B40, 0x3F0598C7, 0x3F05082A, 0x3F04795F] ++
  [0x3F03EC5C, 0x3F036117, 0x3F02D788, 0x3F024FA6, 0x3F01C967, 0x3F0144C4, 0x3F00C1B4, 0x3F004030]

/-- The FP32 value of an integer. -/
def int32 (i : Int) : Nat := rnd32 (.ofInt i)

/-- brush_exp (R162), before the result's range is looked at: 2^400 stands for an input above 89.0 and
2^-300 for a finite one below -88.0. -/
def brushExp (x : FNum) : FNum :=
  match x with
  | .nan => .nan
  | .inf neg => if neg then .fin false 0 0 else .inf false
  | .fin neg m e =>
    if (val32 0x42B20000).lt x then .fin false 1 400
    else if x.lt (val32 0xC2B00000) then .fin false 1 (-300)
    else
      let b := rnd32 (.fin neg m e)
      let k : Int :=
        match val32 (mul32 b 0x42B8AA3B) with
        | .fin s m e => let q : Int := roundAt .rne 0 s m e 0; if s then -q else q
        | _ => 0
      let nk := int32 (-k)
      let r := fma32 nk 0x32BFBE8E (fma32 nk 0x3C317200 b)
      let p := fma32 (mul32 r r) (fma32 r 0x3E2AAAAB 0x3F000000) r
      let t := tabT.getD (k % 64).toNat 0
      (val32 (fma32 t p t)).scale (k / 64)

/-- brush_log (R163). -/
def brushLog (x : FNum) : FNum :=
  match x with
  | .nan => .nan
  | .inf neg => if neg then .nan else .inf false
  | .fin neg m e =>
    if m = 0 then .inf true
    else if neg then .nan
    else
      let b := rnd32 (.fin neg m e)
      let j := fieldN b 22 17
      let ex := int32 ((fieldN b 30 23 : Int) - 127)
      let mant := b % 2 ^ 23 + 0x3F800000
      let r := fma32 mant (tabR.getD j 0) 0xBF800000
      let p := fma32 r 0x3E4CCCCD 0xBE800000
      let p := fma32 r p 0x3EAAAAAB
      let p := fma32 r p 0xBF000000
      let p := fma32 (mul32 r r) p r
      let s := add32 (fma32 ex 0x35BFBE8E p) (tabG.getD j 0)
      val32 (fma32 ex 0x3F317200 s)

/-- brush_rsqrt (R164). -/
def brushRsqrt (x : FNum) : FNum :=
  match x with
  | .nan => .nan
  | .inf neg => if neg then .nan else .fin false 0 0
  | .fin neg m e =>
    if m = 0 then .inf neg
    else if neg then .nan
    else
      let b := rnd32 (.fin neg m e)
      let ex : Int := (fieldN b 30 23 : Int) - 127
      let u := (ex % 2).toNat
      let y := rnd32 ((val32 (tabY.getD (64 * u + fieldN b 22 17) 0)).scale (-(ex / 2)))
      let it (y : Nat) : Nat :=
        let h := mul32 b y
        let d := fma32 (neg32 h) y 0x3F800000
        fma32 (mul32 y 0x3F000000) d y
      val32 (it (it y))

/-- brush_tanh (R165). -/
def brushTanh (x : FNum) : FNum :=
  match x with
  | .nan => .nan
  | .inf neg => .fin neg 1 0
  | .fin neg m e =>
    let a := rnd32 (.fin false m e)
    let put (y : Nat) : FNum := val32 (if neg then neg32 y else y)
    if (val32 a).lt (.fin false 1 (-12)) then .fin neg m e
    else if (val32 a).lt (.fin false 1 (-2)) then
      let s := mul32 a a
      let p := fma32 s 0x3CB327A4 0xBD5D0DD1
      let p := fma32 s p 0x3E088889
      let p := fma32 s p 0xBEAAAAAB
      put (fma32 (mul32 a s) p a)
    else if (val32 a).lt (.fin false 10 0) then
      let t := rnd32 (brushExp (val32 (add32 a a)))
      put (div32 (sub32 t 0x3F800000) (add32 t 0x3F800000))
    else put 0x3F800000

end Sys2Proof.Machine
end

