-- ==== Sys2Proof/Machine/Nib.lean ====
section
/-! DEFINITION. The Nib core: RV32IMFC with Zicsr, Zifencei and Zicntr (R121 to R128, R132 to R135),
remote accesses, launch and the local-store aperture (R129, R187, R439). Brush.lean holds the vector
unit. -/

namespace Sys2Proof.Machine
open Sys2Proof

/-! ### Registers -/

/-- f[i]. -/
def Nib.fr (v : Nib) (i : Nat) : Word := sget 0 v.f (i % 32)

/-- Whether an outstanding remote load will write a register (R126). -/
def Nib.pends (v : Nib) (fp : Bool) (r : Nat) : Bool :=
  v.rops.any fun o =>
    match o.kind with
    | .load rd p _ => p = fp && rd.toNat = r && (fp || r ≠ 0)
    | _ => false

/-- An outstanding load to a register that is written meanwhile writes nothing. -/
def dropLoad (fp : Bool) (r : Nat) (o : RemOp) : RemOp :=
  match o.kind with
  | .load rd p x => if p = fp && rd.toNat = r then { o with kind := .load 0 false x } else o
  | _ => o

/-- An instruction writes x[r]. -/
def Nib.putX (v : Nib) (r : Nat) (w : Word) : Nib := { v with rops := v.rops.map (dropLoad false r) }.setX r w

/-- An instruction writes f[r]. -/
def Nib.putF (v : Nib) (r : Nat) (w : Word) : Nib :=
  { v with rops := v.rops.map (dropLoad true r), f := sset v.f (r % 32) w }

/-! ### Fetch and the compressed forms (RVC, R121) -/

/-- An I-type word. -/
def encI (op f3 rd rs1 imm : Nat) : Word := BitVec.ofNat 32 (op + 2 ^ 7 * rd + 2 ^ 12 * f3 + 2 ^ 15 * rs1 + 2 ^ 20 * (imm % 4096))
/-- An R-type word. -/
def encR (op f3 f7 rd rs1 rs2 : Nat) : Word :=
  BitVec.ofNat 32 (op + 2 ^ 7 * rd + 2 ^ 12 * f3 + 2 ^ 15 * rs1 + 2 ^ 20 * rs2 + 2 ^ 25 * f7)
/-- An S-type word. -/
def encS (op f3 rs1 rs2 imm : Nat) : Word :=
  BitVec.ofNat 32 (op + 2 ^ 7 * (imm % 32) + 2 ^ 12 * f3 + 2 ^ 15 * rs1 + 2 ^ 20 * rs2 + 2 ^ 25 * (imm / 32 % 128))
/-- A B-type word. -/
def encB (f3 rs1 rs2 imm : Nat) : Word :=
  BitVec.ofNat 32 (0x63 + 2 ^ 7 * (imm / 2048 % 2) + 2 ^ 8 * (imm / 2 % 16) + 2 ^ 12 * f3 + 2 ^ 15 * rs1 + 2 ^ 20 * rs2 +
    2 ^ 25 * (imm / 32 % 64) + 2 ^ 31 * (imm / 4096 % 2))
/-- A J-type word. -/
def encJ (rd imm : Nat) : Word :=
  BitVec.ofNat 32 (0x6F + 2 ^ 7 * rd + 2 ^ 12 * (imm / 4096 % 256) + 2 ^ 20 * (imm / 2048 % 2) + 2 ^ 21 * (imm / 2 % 1024) +
    2 ^ 31 * (imm / 2 ^ 20 % 2))

/-- A field of `w` bits as a signed number modulo 2^32. -/
def sx (w v : Nat) : Nat := if v < 2 ^ (w - 1) then v else v + 2 ^ 32 - 2 ^ w

/-- The jump offset of C.J and C.JAL. -/
def cjOff (b : Nat → Nat → Nat) : Nat :=
  sx 12 (b 12 12 * 2048 + b 8 8 * 1024 + b 10 9 * 256 + b 6 6 * 128 + b 7 7 * 64 + b 2 2 * 32 + b 11 11 * 16 + b 5 3 * 2)

/-- The branch offset of C.BEQZ and C.BNEZ. -/
def cbOff (b : Nat → Nat → Nat) : Nat :=
  sx 9 (b 12 12 * 256 + b 6 5 * 64 + b 2 2 * 32 + b 11 10 * 8 + b 4 3 * 2)

/-- The 32-bit instruction that a compressed word stands for, `none` when it is reserved or of an
extension the Nib lacks. -/
def expandC (c : BitVec 16) : Option Word :=
  let b (hi lo : Nat) : Nat := field c hi lo
  let rd' := 8 + b 4 2
  let rs' := 8 + b 9 7
  let r := b 11 7
  let r2 := b 6 2
  let imm6 := sx 6 (b 12 12 * 32 + b 6 2)
  let wOff := b 5 5 * 64 + b 12 10 * 8 + b 6 6 * 4
  let lwsp := b 3 2 * 64 + b 12 12 * 32 + b 6 4 * 4
  let swsp := b 8 7 * 64 + b 12 9 * 4
  match b 1 0, b 15 13 with
  | 0, 0 =>
    let i := b 10 7 * 64 + b 12 11 * 16 + b 5 5 * 8 + b 6 6 * 4
    if i = 0 then none else some (encI 0x13 0 rd' 2 i)
  | 0, 2 => some (encI 0x03 2 rd' rs' wOff)
  | 0, 3 => some (encI 0x07 2 rd' rs' wOff)
  | 0, 6 => some (encS 0x23 2 rs' rd' wOff)
  | 0, 7 => some (encS 0x27 2 rs' rd' wOff)
  | 1, 0 => some (encI 0x13 0 r r imm6)
  | 1, 1 => some (encJ 1 (cjOff b))
  | 1, 2 => some (encI 0x13 0 r 0 imm6)
  | 1, 3 =>
    if r = 2 then
      let i := sx 10 (b 12 12 * 512 + b 4 3 * 128 + b 5 5 * 64 + b 2 2 * 32 + b 6 6 * 16)
      if i = 0 then none else some (encI 0x13 0 2 2 i)
    else if imm6 = 0 then none
    else some (BitVec.ofNat 32 (0x37 + 2 ^ 7 * r + 2 ^ 12 * imm6))
  | 1, 4 =>
    match b 11 10 with
    | 0 => if b 12 12 = 1 then none else some (encI 0x13 5 rs' rs' r2)
    | 1 => if b 12 12 = 1 then none else some (encI 0x13 5 rs' rs' (r2 + 0x400))
    | 2 => some (encI 0x13 7 rs' rs' imm6)
    | _ =>
      if b 12 12 = 1 then none
      else match b 6 5 with
      | 0 => some (encR 0x33 0 0x20 rs' rs' rd')
      | 1 => some (encR 0x33 4 0 rs' rs' rd')
      | 2 => some (encR 0x33 6 0 rs' rs' rd')
      | _ => some (encR 0x33 7 0 rs' rs' rd')
  | 1, 5 => some (encJ 0 (cjOff b))
  | 1, 6 => some (encB 0 rs' 0 (cbOff b))
  | 1, 7 => some (encB 1 rs' 0 (cbOff b))
  | 2, 0 => if b 12 12 = 1 then none else some (encI 0x13 1 r r r2)
  | 2, 2 => if r = 0 then none else some (encI 0x03 2 r 2 lwsp)
  | 2, 3 => some (encI 0x07 2 r 2 lwsp)
  | 2, 4 =>
    if b 12 12 = 0 then
      if r2 = 0 then (if r = 0 then none else some (encI 0x67 0 0 r 0)) else some (encR 0x33 0 0 r 0 r2)
    else if r2 = 0 then (if r = 0 then some 0x00100073#32 else some (encI 0x67 0 1 r 0))
    else some (encR 0x33 0 0 r r r2)
  | 2, 6 => some (encS 0x23 2 2 r2 swsp)
  | 2, 7 => some (encS 0x27 2 2 r2 swsp)
  | _, _ => none

/-- A fault with the pc as its Nib address. -/
def pcFault (v : Nib) (cause : BitVec 4) : NFault := ⟨cause, v.pc, 0⟩

/-- The instruction at pc and its length; a reserved compressed word reads as the illegal word 0
(R124, R125, R129). -/
def nibFetch (v : Nib) : Except NFault (Word × Nat) :=
  let a := v.pc.toNat
  let half (a : Nat) : Nat := bget (bgetRange v.ls a 2) 0 2
  if lsSize < a + 2 then .error (pcFault v 2)
  else if lsPoisoned v a 2 then .error (pcFault v 6)
  else if half a % 4 ≠ 3 then .ok ((expandC (BitVec.ofNat 16 (half a))).getD 0, 2)
  else if lsSize < a + 4 then .error (pcFault v 2)
  else if lsPoisoned v a 4 then .error (pcFault v 6)
  else .ok (BitVec.ofNat 32 (half a + 65536 * half (a + 2)), 4)

/-- The words that the instruction at pc lies in are read before it is executed, when the Nib executes (R129). -/
def fetchCheck (s : State) (n : NibId) : State :=
  let v := nibOf s n
  if alive s && !quireFenced s n.quire && v.st = .running && !v.portWait && v.storeFault.isNone then lsCheck s n v.pc.toNat 4
  else s

/-- Whether the Nib executes: it runs, no submit stalls it, and no fault or stop waits for it. -/
def nibReady (s : State) (n : NibId) : Bool :=
  let v := nibOf s n
  alive s && !quireFenced s n.quire && v.st = .running && !v.portWait && v.storeFault.isNone

/-- Whether the Nib executes, and the instruction at its pc is the 32-bit word `w`. -/
def nibAtWord (s : State) (n : NibId) (w : Word) : Bool :=
  nibReady s n &&
    match nibFetch (nibOf s n) with
    | .ok (x, 4) => x = w
    | _ => false

/-! ### Addresses and remote accesses (R124 to R127) -/

/-- What a Nib address reaches. -/
inductive NAddr where
  | loc (a : Nat)
  | mbox (a : Nat)
  | stage (a : Nat)
  | win (va : Nat)
  | bad (cause : BitVec 4)
  deriving DecidableEq, Repr

/-- The active window register w of a Nib (R125). -/
def winActive (s : State) (n : NibId) (w : Nat) : Nat := regAct64 s ((nibFrame n).base + 0x800 + 0x40 * n.n.val + 8 * w)

/-- The Nib address map (R124, R125). -/
def nibAddr (s : State) (n : NibId) (a w : Nat) : NAddr :=
  if a % w ≠ 0 then .bad 2
  else if a < lsSize then .loc a
  else if a < 0x30000 + 0x400 then .mbox (a - 0x30000)
  else if 0x40000 ≤ a ∧ a < 0x40100 then .stage (a - 0x40000)
  else if 0x80000000 ≤ a then
    let r := winActive s n (a / 2 ^ 28 % 8)
    if r % 2 = 1 then .win (r / 2 ^ 28 % 2 ^ 20 * 2 ^ 28 + a % 2 ^ 28) else .bad 3
  else .bad 2

/-- The remote entries of R126. -/
def remMax : Nat := 32

/-- The outcome of an access. -/
inductive Access (α : Type) where
  | done (x : α)
  | fault (f : NFault)
  | stall
  deriving DecidableEq, Repr

/-- A remote access's physical address, or the fault (R125, R134, R429). -/
def nibXlate (s : State) (n : NibId) (a va : Nat) (write : Bool) : State × Access Nat :=
  match xlate s n.h (nibOf s n).space va write with
  | (s, none) => (s, .fault ⟨4, BitVec.ofNat 32 a, BitVec.ofNat 48 va⟩)
  | (s, some pa) => if mappedAt s pa then (s, .done pa) else (s, .fault ⟨5, BitVec.ofNat 32 a, BitVec.ofNat 48 va⟩)

/-- A scalar load of `w` bytes: its value, and for a remote one the entry it takes (R126; the value is
the one at issue, DESIGN CHOICE, log entry 25). -/
def nibLoad (s : State) (n : NibId) (a w : Nat) : State × Access (Nat × Option (Nat × Nat)) :=
  let v := nibOf s n
  match nibAddr s n a w with
  | .bad c => (s, .fault ⟨c, BitVec.ofNat 32 a, 0⟩)
  | .stage _ => (s, .fault ⟨2, BitVec.ofNat 32 a, 0⟩)
  | .loc l =>
    let s := lsCheck s n l w
    let v := nibOf s n
    if lsPoisoned v l w then (s, .fault ⟨6, BitVec.ofNat 32 a, 0⟩) else (s, .done (leNat (bgetRange v.ls l w), none))
  | .mbox l => (s, .done (leNat (bgetRange v.mbox l w), none))
  | .win va =>
    if remMax ≤ v.rops.length then (s, .stall)
    else
      match nibXlate s n a va false with
      | (s, .done pa) =>
        let (s, d, p) := unitRead s (pa / 128)
        if p then (s, .fault ⟨6, BitVec.ofNat 32 a, BitVec.ofNat 48 va⟩)
        else (s, .done (bget d (pa % 128) w, some (va, pa)))
      | (s, .fault f) => (s, .fault f)
      | (s, .stall) => (s, .stall)

/-- A scalar store of `w` bytes: the state with its effect, or the fault of the instruction. A remote
store is posted: a fault it meets is recorded and found at an instruction boundary (R126, R134). -/
def nibStore (s : State) (n : NibId) (a w x : Nat) : State × Access Unit :=
  let v := nibOf s n
  match nibAddr s n a w with
  | .bad c => (s, .fault ⟨c, BitVec.ofNat 32 a, 0⟩)
  | .mbox _ => (s, .fault ⟨2, BitVec.ofNat 32 a, 0⟩)
  | .loc l => (lsStore s n l (leBytes w x) false, .done ())
  | .stage l =>
    if w = 4 then
      let v := { v with stage := bputRange v.stage l (leBytes 4 x) }
      (setNib s n { v with portWait := l = 0, portTick := if l = 0 then s.tick else v.portTick }, .done ())
    else (s, .fault ⟨2, BitVec.ofNat 32 a, 0⟩)
  | .win va =>
    if remMax ≤ v.rops.length then (s, .stall)
    else
      match nibXlate s n a va true with
      | (s, .done pa) =>
        let s := unitWrite s pa (leBytes w x) false
        (setNib s n { nibOf s n with rops := (nibOf s n).rops ++ [⟨.store, BitVec.ofNat 32 a, BitVec.ofNat 48 va, pa, []⟩] }, .done ())
      | (s, .fault f) => (setNib s n { nibOf s n with storeFault := some f }, .done ())
      | (s, .stall) => (s, .stall)

/-! ### Instruction fields -/

def rvRd (w : Word) : Nat := field w 11 7
def rvF3 (w : Word) : Nat := field w 14 12
def rvRs1 (w : Word) : Nat := field w 19 15
def rvRs2 (w : Word) : Nat := field w 24 20
def rvF7 (w : Word) : Nat := field w 31 25
def immI (w : Word) : Word := (w.extractLsb' 20 12).signExtend 32
def immS (w : Word) : Word := (w.extractLsb' 25 7 ++ w.extractLsb' 7 5).signExtend 32
def immB (w : Word) : Word :=
  (w.extractLsb' 31 1 ++ w.extractLsb' 7 1 ++ w.extractLsb' 25 6 ++ w.extractLsb' 8 4 ++ 0#1).signExtend 32
def immJ (w : Word) : Word :=
  (w.extractLsb' 31 1 ++ w.extractLsb' 12 8 ++ w.extractLsb' 20 1 ++ w.extractLsb' 21 10 ++ 0#1).signExtend 32

/-- The x and f registers an instruction reads. -/
def rvSources (w : Word) : List (Bool × Nat) :=
  let x1 := (false, rvRs1 w)
  let x2 := (false, rvRs2 w)
  let f1 := (true, rvRs1 w)
  let f2 := (true, rvRs2 w)
  match field w 6 0 with
  | 0x67 | 0x03 | 0x13 | 0x07 => [x1]
  | 0x63 | 0x23 | 0x33 => [x1, x2]
  | 0x27 => [x1, f2]
  | 0x43 | 0x47 | 0x4B | 0x4F => [f1, f2, (true, field w 31 27)]
  | 0x53 =>
    if rvF7 w = 0x68 ∨ rvF7 w = 0x78 then [x1]
    else if rvF7 w = 0x60 ∨ rvF7 w = 0x70 ∨ rvF7 w = 0x2C then [f1]
    else [f1, f2]
  | _ => []

/-- Whether any source waits for a remote load. -/
def Nib.waits (v : Nib) (l : List (Bool × Nat)) : Bool := l.any fun r => v.pends r.1 r.2

/-! ### Integer instructions -/

/-- OP and OP-IMM of the base and of M, `none` for a reserved form; `sub` is bit 30. -/
def aluBase (f3 : Nat) (sub : Bool) (a b : Word) : Word :=
  let sh := b.toNat % 32
  match f3 with
  | 0 => if sub then a - b else a + b
  | 1 => a <<< sh
  | 2 => if a.toInt < b.toInt then 1 else 0
  | 3 => if a.toNat < b.toNat then 1 else 0
  | 4 => a ^^^ b
  | 5 => if sub then a.sshiftRight sh else a >>> sh
  | 6 => a ||| b
  | _ => a &&& b

/-- The M extension. -/
def aluM (f3 : Nat) (a b : Word) : Word :=
  match f3 with
  | 0 => a * b
  | 1 => BitVec.ofInt 32 (a.toInt * b.toInt / 2 ^ 32)
  | 2 => BitVec.ofInt 32 (a.toInt * (b.toNat : Int) / 2 ^ 32)
  | 3 => BitVec.ofNat 32 (a.toNat * b.toNat / 2 ^ 32)
  | 4 => if b = 0 then BitVec.allOnes 32 else BitVec.ofInt 32 (a.toInt.tdiv b.toInt)
  | 5 => if b = 0 then BitVec.allOnes 32 else a / b
  | 6 => if b = 0 then a else BitVec.ofInt 32 (a.toInt.tmod b.toInt)
  | _ => if b = 0 then a else a % b

/-- The result of an OP or OP-IMM word. -/
def aluExec (w a b : Word) : Option Word :=
  let f3 := rvF3 w
  let f7 := rvF7 w
  if field w 6 0 = 0x13 then
    if f3 = 1 then (if f7 = 0 then some (aluBase 1 false a b) else none)
    else if f3 = 5 then (if f7 = 0 ∨ f7 = 0x20 then some (aluBase 5 (f7 = 0x20) a b) else none)
    else some (aluBase f3 false a b)
  else if f7 = 1 then some (aluM f3 a b)
  else if f7 = 0 then some (aluBase f3 false a b)
  else if f7 = 0x20 ∧ (f3 = 0 ∨ f3 = 5) then some (aluBase f3 true a b)
  else none

/-- Whether a branch is taken, `none` for a reserved form. -/
def branchTaken (f3 : Nat) (a b : Word) : Option Bool :=
  match f3 with
  | 0 => some (a = b)
  | 1 => some (a ≠ b)
  | 4 => some (a.toInt < b.toInt)
  | 5 => some (b.toInt ≤ a.toInt)
  | 6 => some (a.toNat < b.toNat)
  | 7 => some (b.toNat ≤ a.toNat)
  | _ => none

/-! ### The scalar FPU (R122) -/

/-- The rounding mode of an rm field; 5 and 6, and a dynamic mode that frm does not hold, are
reserved. -/
def fpRnd (v : Nib) (rm : Nat) : Option Rnd :=
  match (if rm = 7 then v.frm.toNat else rm) with
  | 0 => some .rne | 1 => some .rtz | 2 => some .rdn | 3 => some .rup | 4 => some .rmm | _ => none

/-- Round to FP32 in a mode. -/
def fpOut (m : Rnd) (x : FNum) : Word := BitVec.ofNat 32 (fmtFP32.conv m 2 0 x).bits

/-- FMIN.S and FMAX.S: the other operand of a NaN, −0 below +0. -/
def fpMinMax (mx : Bool) (a b : Word) : Word :=
  let x := val32 a.toNat
  let y := val32 b.toNat
  if x = .nan then (if y = .nan then 0x7FC00000 else b)
  else if y = .nan then a
  else
    let less := x.lt y || (x.eq y && bitAt a 31 && !bitAt b 31)
    if less = mx then b else a

/-- FCVT.W.S and FCVT.WU.S. -/
def fpToInt (signed : Bool) (m : Rnd) : FNum → Word
  | .nan => if signed then 0x7FFFFFFF else 0xFFFFFFFF
  | .inf neg => if neg then (if signed then 0x80000000 else 0) else if signed then 0x7FFFFFFF else 0xFFFFFFFF
  | .fin neg k e =>
    let q := roundAt m 0 neg k e 0
    if neg then (if signed then BitVec.ofInt 32 (-(min q (2 ^ 31) : Nat)) else 0)
    else BitVec.ofNat 32 (min q (if signed then 2 ^ 31 - 1 else 2 ^ 32 - 1))

/-- FCLASS.S. -/
def fpClass (a : Word) : Word :=
  let neg := bitAt a 31
  let ex := field a 30 23
  let ma := field a 22 0
  let i : Nat :=
    if ex = 255 then (if ma = 0 then (if neg then 0 else 7) else if bitAt a 22 then 9 else 8)
    else if ex = 0 then (if ma = 0 then (if neg then 3 else 4) else if neg then 2 else 5)
    else if neg then 1 else 6
  1#32 <<< i

/-- The result of a floating-point computation: the x or f register written, `none` for a reserved
form. -/
def fpExec (v : Nib) (w : Word) : Option (Bool × Word) :=
  let a := v.fr (rvRs1 w)
  let b := v.fr (rvRs2 w)
  let x := val32 a.toNat
  let y := val32 b.toNat
  let m := fpRnd v (rvF3 w)
  let z (m : Rnd) : Bool := m = .rdn
  let fl (g : Rnd → FNum) : Option (Bool × Word) := m.map fun m => (true, fpOut m (g m))
  let cmp (c : Bool) : Option (Bool × Word) := some (false, if c then 1 else 0)
  if field w 6 0 ≠ 0x53 then
    if field w 26 25 ≠ 0 then none
    else
      let c := val32 (v.fr (field w 31 27)).toNat
      match field w 6 0 with
      | 0x43 => fl fun m => FNum.fma (z m) x y c
      | 0x47 => fl fun m => FNum.fma (z m) x y c.neg
      | 0x4B => fl fun m => FNum.fma (z m) x.neg y c
      | _ => fl fun m => FNum.fma (z m) x.neg y c.neg
  else
    match rvF7 w with
    | 0x00 => fl fun m => x.add (z m) y
    | 0x04 => fl fun m => x.add (z m) y.neg
    | 0x08 => fl fun _ => x.mul y
    | 0x0C => fl fun _ => x.div 80 y
    | 0x2C => if rvRs2 w = 0 then fl fun _ => x.sqrt 80 else none
    | 0x10 =>
      match rvF3 w with
      | 0 => some (true, (a &&& 0x7FFFFFFF) ||| (b &&& 0x80000000))
      | 1 => some (true, (a &&& 0x7FFFFFFF) ||| (~~~b &&& 0x80000000))
      | 2 => some (true, a ^^^ (b &&& 0x80000000))
      | _ => none
    | 0x14 => match rvF3 w with | 0 => some (true, fpMinMax false a b) | 1 => some (true, fpMinMax true a b) | _ => none
    | 0x60 =>
      if rvRs2 w = 0 then m.map fun m => (false, fpToInt true m x)
      else if rvRs2 w = 1 then m.map fun m => (false, fpToInt false m x) else none
    | 0x70 =>
      if rvRs2 w ≠ 0 then none
      else match rvF3 w with | 0 => some (false, a) | 1 => some (false, fpClass a) | _ => none
    | 0x50 =>
      match rvF3 w with
      | 0 => cmp (x.lt y || x.eq y)
      | 1 => cmp (x.lt y)
      | 2 => cmp (x.eq y)
      | _ => none
    | 0x68 =>
      let i := v.xr (rvRs1 w)
      if rvRs2 w = 0 then fl fun _ => .ofInt i.toInt
      else if rvRs2 w = 1 then fl fun _ => .fin false i.toNat 0 else none
    | 0x78 => if rvRs2 w = 0 ∧ rvF3 w = 0 then some (true, v.xr (rvRs1 w)) else none
    | _ => none

/-! ### The scalar step -/

/-- Whether an instruction has a row of its own: Zicsr, FENCE, ECALL, EBREAK and the Brush. -/
def otherRow (w : Word) : Bool :=
  let op := field w 6 0
  (op = 0x73 && (w = 0x73 || w = 0x00100073 || (rvF3 w ≠ 0 && rvF3 w ≠ 4)))
  || (op = 0x0F && rvF3 w = 0)
  || (op = 0x0B && field w 31 27 ≤ 0x1B) || (op = 0x2B && field w 31 27 ≤ 0x1C)

/-- A load's bytes as its register value. -/
def loadValue (f3 x : Nat) : Word :=
  match f3 with
  | 0 => (BitVec.ofNat 8 x).signExtend 32
  | 1 => (BitVec.ofNat 16 x).signExtend 32
  | _ => BitVec.ofNat 32 x

/-- A scalar load instruction (R124 to R126). -/
def runLoad (s : State) (n : NibId) (w : Word) (npc : Word) (fp : Bool) : State :=
  let v := nibOf s n
  let f3 := rvF3 w
  let a := v.xr (rvRs1 w) + immI w
  let rd := rvRd w
  let r := nibLoad s n a.toNat (2 ^ (f3 % 4))
  match r.2 with
  | .stall => s
  | .fault f => faultAfter s r.1 n f
  | .done (x, e) =>
    let v := nibOf r.1 n
    let val := loadValue f3 x
    match e with
    | none => nibRetire r.1 n (if fp then v.putF rd val else v.putX rd val) npc
    | some (va, pa) =>
      let v := { v with rops := v.rops.map (dropLoad fp rd) ++
        [⟨.load (BitVec.ofNat 5 rd) fp val, a, BitVec.ofNat 48 va, pa, []⟩] }
      nibRetire r.1 n v npc

/-- A scalar store instruction. -/
def runStore (s : State) (n : NibId) (w : Word) (npc : Word) (fp : Bool) : State :=
  let v := nibOf s n
  let x := if fp then v.fr (rvRs2 w) else v.xr (rvRs2 w)
  let wd := 2 ^ rvF3 w
  let r := nibStore s n (v.xr (rvRs1 w) + immS w).toNat wd (x.toNat % 2 ^ (8 * wd))
  match r.2 with
  | .stall => s
  | .fault f => faultAfter s r.1 n f
  | .done _ => nibRetire r.1 n (nibOf r.1 n) npc

/-- One instruction of RV32IMFC or Zifencei (R121). -/
def runScalar (s : State) (n : NibId) (w : Word) (len : Nat) : State :=
  let v := nibOf s n
  let npc := v.pc + BitVec.ofNat 32 len
  let rd := rvRd w
  let a := v.xr (rvRs1 w)
  let b := v.xr (rvRs2 w)
  let ill := faultAfter s s n (pcFault v 1)
  let put (x : Word) : State := nibRetire s n (v.putX rd x) npc
  match field w 6 0 with
  | 0x37 => put (w &&& 0xFFFFF000)
  | 0x17 => put (v.pc + (w &&& 0xFFFFF000))
  | 0x6F => nibRetire s n (v.putX rd npc) (v.pc + immJ w)
  | 0x67 => if rvF3 w = 0 then nibRetire s n (v.putX rd npc) ((a + immI w) &&& 0xFFFFFFFE) else ill
  | 0x63 =>
    match branchTaken (rvF3 w) a b with
    | none => ill
    | some t => nibRetire s n v (if t then v.pc + immB w else npc)
  | 0x13 => match aluExec w a (immI w) with | none => ill | some x => put x
  | 0x33 => match aluExec w a b with | none => ill | some x => put x
  | 0x03 => if rvF3 w = 3 ∨ 5 < rvF3 w then ill else runLoad s n w npc false
  | 0x23 => if 2 < rvF3 w then ill else runStore s n w npc false
  | 0x07 => if rvF3 w = 2 then runLoad s n w npc true else ill
  | 0x27 => if rvF3 w = 2 then runStore s n w npc true else ill
  | 0x0F => if rvF3 w = 1 then nibRetire s n v npc else ill
  | 0x43 | 0x47 | 0x4B | 0x4F | 0x53 =>
    match fpExec v w with
    | none => ill
    | some (fp, x) => nibRetire s n (if fp then v.putF rd x else v.putX rd x) npc
  | _ => ill

/-- NIB_SCALAR_INSTRUCTION: fetch, and run an instruction that has no row of its own. -/
def scalarStep (s : State) (n : NibId) : State :=
  let s := fetchCheck s n
  if nibReady s n then
    match nibFetch (nibOf s n) with
    | .error f => faultAfter s s n f
    | .ok (w, len) =>
      if otherRow w || (nibOf s n).waits (rvSources w) then s else runScalar s n w len
  else s

def execNibScalarInstruction (n : NibId) (s : State) : Out := .next (scalarStep s n)

/-! ### CSRs (R123, R146) -/

/-- The value of a CSR, `none` when the Nib has no such CSR. -/
def csrRead (s : State) (v : Nib) (c : Nat) : Option Word :=
  let lo (x : BitVec 64) : Option Word := some (x.setWidth 32)
  let hi (x : BitVec 64) : Option Word := some ((x >>> 32).setWidth 32)
  match c with
  | 0x001 => some 0
  | 0x002 => some (v.frm.setWidth 32)
  | 0x003 => some (v.frm.setWidth 32 <<< 5)
  | 0x800 => some (v.len.setWidth 32)
  | 0x801 => some v.bctl
  | 0x802 => some v.bstat
  | 0x803 => some (v.bpoison.setWidth 32)
  | 0x804 => lo v.bseed
  | 0x805 => hi v.bseed
  | 0x806 => lo v.bcnt
  | 0x807 => hi v.bcnt
  | 0x808 => some (v.mfull.setWidth 32)
  | 0xC00 => lo v.cycle
  | 0xC01 => lo s.tick
  | 0xC02 => lo v.instret
  | 0xC80 => hi v.cycle
  | 0xC81 => hi s.tick
  | 0xC82 => hi v.instret
  | _ => none

/-- A 64-bit value with its low or high word replaced. -/
def putWord (x : BitVec 64) (hi : Bool) (w : Word) : BitVec 64 :=
  if hi then w ++ x.extractLsb' 0 32 else x.extractLsb' 32 32 ++ w

/-- A write of a CSR; `clear` names the bits that a CSR clear instruction clears, which alone reach
BSTAT (R146). -/
def csrWrite (v : Nib) (c : Nat) (x clear : Word) : Nib :=
  match c with
  | 0x002 => { v with frm := x.setWidth 3 }
  | 0x003 => { v with frm := (x >>> 5).setWidth 3 }
  | 0x801 => { v with bctl := x &&& 0x3F }
  | 0x802 => { v with bstat := v.bstat &&& ~~~(clear &&& 0xF) }
  | 0x803 => { v with bpoison := x.setWidth 16 }
  | 0x804 => { v with bseed := putWord v.bseed false x }
  | 0x805 => { v with bseed := putWord v.bseed true x }
  | 0x806 => { v with bcnt := putWord v.bcnt false x }
  | 0x807 => { v with bcnt := putWord v.bcnt true x }
  | _ => v

/-- The word of a Zicsr instruction. -/
def csrWord (f3 csr rd rs1 : Nat) : Word := encI 0x73 f3 rd rs1 csr

/-- CSR_ACCESS (R146): a CSR that does not exist, or a write of a read-only one, is ILLEGAL. -/
def csrStep (s : State) (n : NibId) (f3 csr rd rs1 : Nat) : State :=
  let s := fetchCheck s n
  let v := nibOf s n
  if f3 % 4 = 0 || !nibAtWord s n (csrWord f3 csr rd rs1) || (f3 < 4 && v.pends false rs1) then s
  else
    let src : Word := if 4 ≤ f3 then BitVec.ofNat 32 rs1 else v.xr rs1
    let writes := f3 % 4 = 1 || rs1 ≠ 0
    match csrRead s v csr with
    | none => faultAfter s s n (pcFault v 1)
    | some old =>
      if writes && 0xC00 ≤ csr then faultAfter s s n (pcFault v 1)
      else
        let x := if f3 % 4 = 1 then src else if f3 % 4 = 2 then old ||| src else old &&& ~~~src
        let v := if writes then csrWrite v csr x (if f3 % 4 = 3 then src else 0) else v
        nibRetire s n (v.putX rd old) (v.pc + 4)

def execCsrAccess (n : NibId) (f3 : BitVec 3) (csr : BitVec 12) (rd rs1 : BitVec 5) (s : State) : Out :=
  .next (csrStep s n f3.toNat csr.toNat rd.toNat rs1.toNat)

/-! ### FENCE, ECALL, EBREAK -/

/-- The instruction at pc when it is a FENCE, ECALL or EBREAK as `p` says, with its length. -/
def nibSpecial (s : State) (n : NibId) (p : Word → Bool) : Option (Word × Nat) :=
  if nibReady s n then
    match nibFetch (nibOf s n) with
    | .ok (w, len) => if p w then some (w, len) else none
    | .error _ => none
  else none

/-- FENCE (R127): it waits for every earlier remote operation and QDMA transfer. -/
def fenceStep (s : State) (n : NibId) : State :=
  let s := fetchCheck s n
  match nibSpecial s n fun w => field w 6 0 = 0x0F && rvF3 w = 0 with
  | none => s
  | some (_, len) =>
    let v := nibOf s n
    if !nibQuiet s n then s else nibRetire s n v (v.pc + BitVec.ofNat 32 len)

def execFence (n : NibId) (s : State) : Out := .next (fenceStep s n)

/-- ECALL (R133, R134): with x17 zero the program ends once its outstanding operations are done. It counts as
retired and leaves pc behind it (DESIGN CHOICE, log entry 43). -/
def ecallStep (s : State) (n : NibId) : State :=
  let s := fetchCheck s n
  match nibSpecial s n fun w => w = 0x73 with
  | none => s
  | some _ =>
    let v := nibOf s n
    if v.pends false 17 || v.pends false 10 then s
    else if v.xr 17 ≠ 0 then faultAfter s s n (pcFault v 1)
    else if !nibQuiet s n then s
    else
      let s := nibRetire s n v (v.pc + 4)
      endLaunch s n { nibOf s n with st := .halted, cause := 0 } stOk

def execEcall (n : NibId) (s : State) : Out := .next (ecallStep s n)

/-- EBREAK (R134). -/
def ebreakStep (s : State) (n : NibId) : State :=
  let s := fetchCheck s n
  match nibSpecial s n fun w => w = 0x00100073 with
  | none => s
  | some _ => faultAfter s s n (pcFault (nibOf s n) 7)

def execEbreak (n : NibId) (s : State) : Out := .next (ebreakStep s n)

/-! ### Outstanding operations -/

/-- A remote load's data returns: its register is written and its entry freed (R126). Operations on
one line end in program order (R127). -/
def loadReturn (s : State) (n : NibId) (e : Nat) : State :=
  let v := nibOf s n
  match v.rops[e]? with
  | some o =>
    if !alive s || quireFenced s n.quire || (v.rops.take e).any (fun p => p.pa / 128 = o.pa / 128 && p.kind ≠ .msend) then s
    else match o.kind with
    | .load rd fp x =>
      let v := { v with rops := dropAt v.rops e }
      settleStop (settleInvals (setNib s n (if fp then { v with f := sset v.f (rd.toNat % 32) x } else v.setX rd.toNat x))) n
    | _ => s
  | none => s

def execRemoteLoadReturn (n : NibId) (e : Nat) (s : State) : Out := .next (loadReturn s n e)

/-- The first posted store of a quire on a line that waits for its Cmp: its Nib and its place among the Nib's remote
operations (R126, R330). -/
def storeOut (s : State) (q : QuireId) (line : Nat) : Option (NibId × Nat) :=
  (List.range 16).findSome? fun k =>
    let n : NibId := ⟨q.h, q.q, ⟨k % 16, Nat.mod_lt _ (by decide)⟩⟩
    (findIdx? (fun o => o.pa / 128 = line && o.kind = .store) (nibOf s n).rops).map fun i => (n, i)

/-- The Cmp of a posted store frees its entry (R126, R330). -/
def storeAck (s : State) (n : NibId) (i : Nat) : State :=
  let v := nibOf s n
  settleStop (settleInvals (setNib s n { v with rops := dropAt v.rops i })) n

/-- A fault found on a posted store halts the Nib at an instruction boundary, once its outstanding
operations are done (R134). -/
def postedFault (s : State) (n : NibId) : State :=
  let v := nibOf s n
  match v.storeFault with
  | some f => if alive s && nibQuiet s n && !v.portWait then nibFault s n f else s
  | none => s

def execPostedStoreFault (n : NibId) (s : State) : Out := .next (postedFault s n)

/-- NIB_CTL.STOP (R135). -/
def nibStop (s : State) (n : NibId) : State :=
  let v := nibOf s n
  if quireFenced s n.quire || !alive s then s
  else if (v.st = .running || v.st = .waiting) && v.storeFault.isNone then
    settleStop (setNib s n { v with storeFault := some (pcFault v 8) }) n
  else s

def execNibStop (n : NibId) (s : State) : Out := .next (nibStop s n)

/-! ### The local-store aperture (R129, R439) -/

/-- A core's aperture read: the value, and NIB_LS_UE counts again on poison. -/
def apertureRead (s : State) (n : NibId) (off w : Nat) : State × Nat :=
  let v := nibOf s n
  if lsSize ≤ off || !(v.st = .halted || v.st = .faulted) || quireFenced s n.quire then (s, 0)
  else
    let s := lsCheck s n off w
    let v := nibOf s n
    if lsPoisoned v off w then (count s (nibFrame n) 0x48 1, 0)
  else (s, leNat (bgetRange v.ls off w))

/-- A core's aperture write. -/
def apertureWrite (s : State) (n : NibId) (off w x : Nat) : State :=
  let v := nibOf s n
  if lsSize ≤ off || !(v.st = .halted || v.st = .faulted) || quireFenced s n.quire then s
  else lsStore s n off (leBytes w x) false

def coreOf (s : State) (k : Nat) : Core := sget coreReset s.cores k
def setCore (s : State) (k : Nat) (c : Core) : State := { s with cores := sset s.cores k c }
/-- A core's load gives a value. -/
def coreResult (s : State) (k x : Nat) : State :=
  setCore s k { coreOf s k with result := BitVec.ofNat 64 x, exc := none }
/-- A core's access raises an exception: 5 and 7 for access faults of loads and stores (RISC-V), 19 for
a hardware error (R301, R308, R429). -/
def coreExc (s : State) (k cause : Nat) : State := setCore s k { coreOf s k with exc := some cause }

/-- An access of a core that runs to an aperture; a misaligned one raises an access fault (R429). -/
def apertureAccess (s : State) (c : CoreId) (n : NibId) (off log2w : Nat) (wr : Option Nat) : State :=
  let w := 2 ^ log2w
  if !(coreOf s c.num).running then s
  else if off % w ≠ 0 then coreExc s c.num (if wr.isSome then 7 else 5)
  else match wr with
  | some x => let s := apertureWrite s n off w x; setCore s c.num { coreOf s c.num with exc := none }
  | none => let r := apertureRead s n off w; coreResult r.1 c.num r.2

def execApertureAccess (c : CoreId) (n : NibId) (off : BitVec 18) (l : Fin 4) (wr : Option (BitVec 64)) (s : State) : Out :=
  .next (apertureAccess s c n off.toNat l.val (wr.map BitVec.toNat))

/-! ### NIB_LAUNCH (R132, R187) -/

/-- The words of a Nib's window registers. -/
def winAddrs (n : NibId) : List Nat := (List.range 16).map fun i => (nibFrame n).base + 0x800 + 0x40 * n.n.val + 4 * i

/-- What a launch sets (R132): the other contents stay. That frm becomes 0 is a DESIGN CHOICE (log entry 43). -/
def Nib.launched (v : Nib) (sp : Space) (id : Nat) (b : List Byte) : Nib :=
  { v with
    st := .running, cause := 0, pc := BitVec.ofNat 32 (bget b 0 4), f := [], frm := 0, space := sp, launch := some id
    x := (List.range 4).foldl (fun x i => sset x (10 + i) (BitVec.ofNat 32 (bget b (4 + 4 * i) 4))) []
    bctl := 0, bstat := 0, bseed := BitVec.ofNat 64 (bget b 0x18 8), bcnt := BitVec.ofNat 64 (bget b 0x20 8)
    cycle := 0, instret := 0, faultAddr := 0, faultVa := 0, portWait := false, rops := [], storeFault := none }

/-- The Nib a command targets. -/
def targetNib (c : JCmd) : NibId :=
  nibIdOf (2304 * (queueHalf c.queue.toNat).val + targetIndex c.hdr.target % 2304)

/-- NIB_LAUNCH: it waits while the Nib is RUNNING or WAITING. -/
def runNibLaunch (poison : Bool) (c : JCmd) (s : State) : State :=
  let n := targetNib c
  let q := c.queue.toNat
  let b := c.body
  let st := (nibOf s n).st
  gate s c 0x20 poison false (bget b 0 4 % 2 ≠ 0 || bget b 0x14 4 ≠ 0) (quireFenced s n.quire || noTraining s)
    (st = .running || st = .waiting) fun id s =>
      let s := applyShadow s (winAddrs n)
      setNib s n ((nibOf s n).launched (queueSpace s q) id b)

def execNibLaunch (c : JCmd) (s : State) : Out := .next (runNibLaunch false c s)

end Sys2Proof.Machine
end

