-- ==== Sys2Proof/Machine/Brush.lean ====
section
/-! DEFINITION. The Brush vector unit and the Nib Well, mailbox messages, NAMO and QDMA (R128, R130,
R131, R136 to R140, R143 to R160, R167, R168). -/

namespace Sys2Proof.Machine
open Sys2Proof

/-! ### Vector registers and masks (R143) -/

/-- Bits [pos + w - 1 : pos] of vector register r, w at most 32. -/
def Nib.vbits (v : Nib) (r pos w : Nat) : Nat :=
  let lo := (sget 0 v.v (1024 * r + pos / 32)).toNat
  let hi := (sget 0 v.v (1024 * r + pos / 32 + 1)).toNat
  (lo + 2 ^ 32 * hi) / 2 ^ (pos % 32) % 2 ^ w

/-- Those bits replaced. -/
def Nib.putVbits (v : Nib) (r pos w x : Nat) : Nib :=
  let k := 1024 * r + pos / 32
  let old := (sget 0 v.v k).toNat + 2 ^ 32 * (sget 0 v.v (k + 1)).toNat
  let sh := pos % 32
  let new := old - old / 2 ^ sh % 2 ^ w * 2 ^ sh + x % 2 ^ w * 2 ^ sh
  let m := sset v.v k (BitVec.ofNat 32 new)
  { v with v := if sh + w ≤ 32 then m else sset m (k + 1) (BitVec.ofNat 32 (new / 2 ^ 32)) }

/-- Element e of register r, elements of w bits. -/
def Nib.velem (v : Nib) (r w e : Nat) : Nat := v.vbits r (w * e) w

/-- Write elements of register r: pairs of index and bits. -/
def Nib.putElems (v : Nib) (r w : Nat) (l : List (Nat × Nat)) : Nib :=
  l.foldl (fun v x => v.putVbits r (w * x.1) w x.2) v

def Nib.mask (v : Nib) (m : Nat) : BitVec 1024 := sget 0 v.m m
def Nib.putMask (v : Nib) (m : Nat) (x : BitVec 1024) : Nib := { v with m := sset v.m m x }

/-- Elements per register of a width in bits (R143). -/
def capacity (w : Nat) : Nat := if w = 32 then 1024 else if w = 16 then 2048 else 4096

/-- The active elements below LEN under a mask, or all of them (R144, R145). -/
def activeElems (len : Nat) (m : Option (BitVec 1024)) : List Nat :=
  match m with
  | none => List.range len
  | some b => (List.range len).filter fun i => bitAt b i

/-! ### Poison marks (R157) -/

def Nib.marked (v : Nib) (r : Nat) : Bool := bitAt v.bpoison r
def Nib.mark (v : Nib) (r : Nat) (p : Bool) : Nib := { v with bpoison := setField v.bpoison r r (if p then 1 else 0) }

/-- The mark of a destination that received `n` elements of `w` bits: set from a marked source, cleared
when the whole register is overwritten. -/
def Nib.remark (v : Nib) (r : Nat) (src : Bool) (n w : Nat) : Nib :=
  if src then v.mark r true else if n * w = 32768 then v.mark r false else v

/-! ### Control (R146, R155, R156) -/

def Nib.round (v : Nib) : Rnd := Rnd.ofField (field v.bctl 1 0)
def Nib.range (v : Nib) : Nat := let r := field v.bctl 3 2; if r = 3 then 0 else r
/-- The Sand output of element i. -/
def Nib.sandAt (v : Nib) (i : Nat) : Nat := (sand v.bseed 0x02 (v.bcnt + BitVec.ofNat 64 i)).toNat
/-- BCNT after an instruction that rounds under SR, or not. -/
def Nib.advance (v : Nib) (rounds : Bool) (n : Nat) : Nib :=
  if rounds && v.round = .sr then { v with bcnt := v.bcnt + BitVec.ofNat 64 n } else v
/-- The Nib's selected gauge set. -/
def nibGauge (n : NibId) (v : Nib) : Nat := gaugeKey 2 (n.num * 4 + field v.bctl 5 4)

/-- The value of element bits with a subnormal input read as zero of its sign (R53 point 2). ZEROED counts no such
input: R59 names subnormal results alone (DESIGN CHOICE, log entry 26). -/
def flushIn (f : FFmt) (bits : Nat) : FNum :=
  if bits / 2 ^ f.mb % 2 ^ f.eb = 0 then .fin (bits / 2 ^ (f.eb + f.mb) % 2 = 1) 0 0 else f.decode bits

/-- A result with a subnormal replaced by zero of its sign (R53 point 2, R59 ZEROED). -/
def flushOut (f : FFmt) (c : Conv) : Conv :=
  if c.subn then { c with bits := c.bits / 2 ^ (f.eb + f.mb) * 2 ^ (f.eb + f.mb), subn := false, zeroed := true } else c

/-- A Brush FP32 or BF16 result (R153). -/
def brushOut (f : FFmt) (m : Rnd) (rng n : Nat) (x : FNum) : Conv := flushOut f (f.conv m rng n x)

/-! ### Custom-0 (R147, R150, R153, R154) -/

/-- The word of a custom-0 instruction. -/
def enc0 (op : Nat) (i : C0) : Word :=
  BitVec.ofNat 32 (0x0B + 2 ^ 7 * i.vd.toNat + 2 ^ 11 * (if i.m then 1 else 0) + 2 ^ 12 * i.fmt.toNat +
    2 ^ 15 * i.vs1.toNat + 2 ^ 19 * (if i.s then 1 else 0) + 2 ^ 20 * i.src2.toNat + 2 ^ 25 * i.mr.toNat + 2 ^ 27 * op)

/-- The operands an instruction has: two, vs1 alone, both under a merge mask, a scalar alone, none, or
two into a mask. -/
inductive Shape0 where
  | bin | un | merge | bcast | iota | cmp
  deriving DecidableEq, Repr

/-- The R34 code of a Brush FMT. -/
def fmtCode (fmt : Nat) : Nat := match fmt with | 0 => 0 | 1 => 1 | 2 => 0xB | _ => 0xA

/-- Whether FMT is a floating-point one. -/
def fmtFp (fmt : Nat) : Bool := fmt < 2

/-- Raw operands of one element, and its result: bits and what a gauge counts, if anything. -/
structure Lane where
  a : Nat
  b : Nat
  d : Nat
  i : Nat
  deriving DecidableEq, Repr

/-- A lane operation: FMT, rounding, range, the element's Sand output, operands. -/
abbrev LaneFn := Nat → Rnd → Nat → Nat → Lane → Nat × Option Conv

/-- The encoding and LEN checks of custom-0 (R144, R145, R149). -/
def bad0 (v : Nib) (i : C0) (sh : Shape0) (fmts : List Nat) : Bool :=
  let f := i.fmt.toNat
  let len := v.len.toNat
  !fmts.contains f || (!i.m && i.mr ≠ 0)
  || (match sh with
      | .bin | .cmp => !i.s && 16 ≤ i.src2.toNat
      | .merge => !i.m || (!i.s && 16 ≤ i.src2.toNat)
      | .un => i.s || i.src2 ≠ 0
      | .bcast => !i.s || i.vs1 ≠ 0
      | .iota => i.s || i.src2 ≠ 0 || i.vs1 ≠ 0)
  || (sh = .cmp && 4 ≤ i.vd.toNat)
  || capacity (fmtBits (fmtCode f)) < len || ((i.m || sh = .cmp) && 1024 < len)

/-- A scalar SRC2 as element bits (R147). Rounding to BF16 takes IEEE mode, not BCTL.RANGE (DESIGN CHOICE, log entry 26). -/
def scalarBits (v : Nib) (fmt r : Nat) : Nat :=
  match fmt with
  | 0 => (v.fr r).toNat
  | 1 => (brushOut fmtBF16 .rne 2 0 (flushIn fmtFP32 (v.fr r).toNat)).bits
  | 2 => (v.xr r).toNat
  | _ => (v.xr r).toNat % 256

/-- The results of a custom-0 instruction over its active elements. -/
def lanes0 (v : Nib) (i : C0) (sh : Shape0) (g : LaneFn) : List (Nat × Nat × Option Conv) :=
  let f := i.fmt.toNat
  let w := fmtBits (fmtCode f)
  let act := activeElems v.len.toNat (if i.m && sh ≠ .merge then some (v.mask i.mr.toNat) else none)
  let sc := if i.s then scalarBits v f i.src2.toNat else 0
  act.map fun e =>
    let b := if i.s then sc else v.velem i.src2.toNat w e
    let a := v.velem i.vs1.toNat w e
    let r := if sh = .merge then ((if bitAt (v.mask i.mr.toNat) e then a else b), none)
      else g f v.round v.range (v.sandAt e) ⟨a, b, v.velem i.vd.toNat w e, e⟩
    (e, r)

/-- Whether a source register carries a mark. -/
def srcMarked0 (v : Nib) (i : C0) (sh : Shape0) (acc : Bool) : Bool :=
  (match sh with | .bcast | .iota => false | _ => v.marked i.vs1.toNat)
  || (match sh with | .bin | .merge | .cmp => !i.s && v.marked (i.src2.toNat % 16) | _ => false)
  || (acc && v.marked i.vd.toNat)

/-- A custom-0 instruction with OP `op`: `acc` says that it reads vd, `rounds` in which FMTs it rounds
under BCTL.ROUND. -/
def run0 (s : State) (n : NibId) (op : Nat) (i : C0) (sh : Shape0) (fmts : List Nat) (acc : Bool) (rounds : Nat → Bool)
    (g : LaneFn) : State :=
  let s := fetchCheck s n
  let v := nibOf s n
  let f := i.fmt.toNat
  if !nibAtWord s n (enc0 op i) || (i.s && v.pends (fmtFp f) i.src2.toNat) then s
  else if bad0 v i sh fmts then faultAfter s s n (pcFault v 1)
  else
    let w := fmtBits (fmtCode f)
    let len := v.len.toNat
    let rs := lanes0 v i sh g
    let v' :=
      if len = 0 then v
      else if sh = .cmp then
        v.putMask i.vd.toNat (rs.foldl (fun m r => setField m r.1 r.1 r.2.1) (v.mask i.vd.toNat))
      else (v.putElems i.vd.toNat w (rs.map fun r => (r.1, r.2.1))).remark i.vd.toNat (srcMarked0 v i sh acc) rs.length w
    let v' := v'.advance (rounds f) len
    let s := gaugeAdd s (nibGauge n v) (rs.filterMap fun r => r.2.2)
    nibRetire s n v' (v.pc + 4)

/-- A lane function of an arithmetic instruction: floating point on flushed values with one rounding,
integers modulo 2^32 or 2^8 (R153). -/
def arith (fp : FNum → FNum → FNum → FNum) (int : Int → Int → Int → Int) : LaneFn := fun f m rng n l =>
  if fmtFp f then
    let ly := fmtLayout (fmtCode f)
    let c := brushOut ly m rng n (fp (flushIn ly l.a) (flushIn ly l.b) (flushIn ly l.d))
    (c.bits, some c)
  else
    let w := fmtBits (fmtCode f)
    let z := int (intOfBits w l.a) (intOfBits w l.b) (intOfBits w l.d)
    ((z % 2 ^ w).toNat, none)

/-- A lane function on bits alone. -/
def bitsFn (g : (w : Nat) → Nat → Nat → Nat) : LaneFn := fun f _ _ _ l => (g (fmtBits (fmtCode f)) l.a l.b, none)

/-- A compare (R154). -/
def cmpFn (fp : FNum → FNum → Bool) (int : Int → Int → Bool) : LaneFn := fun f _ _ _ l =>
  let r :=
    if fmtFp f then let ly := fmtLayout (fmtCode f); fp (flushIn ly l.a) (flushIn ly l.b)
    else let w := fmtBits (fmtCode f); int (intOfBits w l.a) (intOfBits w l.b)
  (if r then 1 else 0, none)

/-- Minimum or maximum of values: NaN when either is NaN, −0 below +0 (R154). -/
def numMinMax (mx : Bool) (x y : FNum) : FNum :=
  match x, y with
  | .nan, _ | _, .nan => .nan
  | _, _ => let less := x.lt y || (x.eq y && x.sgn && !y.sgn); if less = mx then y else x

/-- An approximate function (R161): FP32 keeps the FP32 result but for overflow and subnormals, BF16
rounds it under BCTL. An infinite special result saturates under BCTL.RANGE as R154 lays down, and a result beyond FP32 goes to
BF16 from its exact value (DESIGN CHOICE, log entry 26). -/
def approx (g : FNum → FNum) : LaneFn := fun f m rng n l =>
  let y := g (flushIn (fmtLayout (fmtCode f)) l.a)
  let c32 := fmtFP32.conv .rne 2 0 y
  let c :=
    if f = 0 then
      let c := fmtFP32.conv .rne rng 0 y
      if c.subn then { c with bits := 0, subn := false, zeroed := true } else c
    else if c32.ovf || !y.isFin then brushOut fmtBF16 m rng n y
    else
      let c := brushOut fmtBF16 m rng n (val32 c32.bits)
      { c with zeroed := c.zeroed || c32.zeroed }
  (c.bits, some c)

def fmtsAll : List Nat := [0, 1, 2, 3]
def fmtsFp : List Nat := [0, 1]
def fmtsInt : List Nat := [2, 3]

/-- A shift count (R150). -/
def shAmt (w b : Nat) : Nat := b % w

def sgnBit (w b : Nat) : Nat := b / 2 ^ (w - 1) % 2

/-- Magnitude of `a`, sign bit `sg`. -/
def withSign (w a sg : Nat) : Nat := a % 2 ^ (w - 1) + sg * 2 ^ (w - 1)

def execVadd (n : NibId) (i : C0) (s : State) : Out :=
  .next (run0 s n 0x00 i .bin fmtsAll false fmtFp (arith (fun a b _ => a.add false b) fun a b _ => a + b))
def execVsub (n : NibId) (i : C0) (s : State) : Out :=
  .next (run0 s n 0x01 i .bin fmtsAll false fmtFp (arith (fun a b _ => a.add false b.neg) fun a b _ => a - b))
def execVmul (n : NibId) (i : C0) (s : State) : Out :=
  .next (run0 s n 0x02 i .bin fmtsAll false fmtFp (arith (fun a b _ => a.mul b) fun a b _ => a * b))
def execVfma (n : NibId) (i : C0) (s : State) : Out :=
  .next (run0 s n 0x03 i .bin fmtsAll true fmtFp (arith (fun a b d => FNum.fma false a b d) fun a b d => a * b + d))
def execVfnms (n : NibId) (i : C0) (s : State) : Out :=
  .next (run0 s n 0x04 i .bin fmtsAll true fmtFp (arith (fun a b d => FNum.fma false a.neg b d) fun a b d => d - a * b))
def execVmin (n : NibId) (i : C0) (s : State) : Out :=
  .next (run0 s n 0x05 i .bin fmtsAll false (fun _ => false) (arith (fun a b _ => numMinMax false a b) fun a b _ => min a b))
def execVmax (n : NibId) (i : C0) (s : State) : Out :=
  .next (run0 s n 0x06 i .bin fmtsAll false (fun _ => false) (arith (fun a b _ => numMinMax true a b) fun a b _ => max a b))
def execVdiv (n : NibId) (i : C0) (s : State) : Out :=
  .next (run0 s n 0x07 i .bin fmtsFp false fmtFp (arith (fun a b _ => a.div 80 b) fun a _ _ => a))
def execVsqrt (n : NibId) (i : C0) (s : State) : Out :=
  .next (run0 s n 0x08 i .un fmtsFp false fmtFp (arith (fun a _ _ => a.sqrt 80) fun a _ _ => a))
def execVexp (n : NibId) (i : C0) (s : State) : Out :=
  .next (run0 s n 0x09 i .un fmtsFp false (fun f => f = 1) (approx brushExp))
def execVlog (n : NibId) (i : C0) (s : State) : Out :=
  .next (run0 s n 0x0A i .un fmtsFp false (fun f => f = 1) (approx brushLog))
def execVrsqrt (n : NibId) (i : C0) (s : State) : Out :=
  .next (run0 s n 0x0B i .un fmtsFp false (fun f => f = 1) (approx brushRsqrt))
def execVtanh (n : NibId) (i : C0) (s : State) : Out :=
  .next (run0 s n 0x0C i .un fmtsFp false (fun f => f = 1) (approx brushTanh))
def execVsgnj (n : NibId) (i : C0) (s : State) : Out :=
  .next (run0 s n 0x0D i .bin fmtsFp false (fun _ => false) (bitsFn fun w a b => withSign w a (sgnBit w b)))
def execVsgnjn (n : NibId) (i : C0) (s : State) : Out :=
  .next (run0 s n 0x0E i .bin fmtsFp false (fun _ => false) (bitsFn fun w a b => withSign w a (1 - sgnBit w b)))
def execVsgnjx (n : NibId) (i : C0) (s : State) : Out :=
  .next (run0 s n 0x0F i .bin fmtsFp false (fun _ => false)
    (bitsFn fun w a b => withSign w a ((sgnBit w a + sgnBit w b) % 2)))
def execVand (n : NibId) (i : C0) (s : State) : Out :=
  .next (run0 s n 0x10 i .bin fmtsInt false (fun _ => false) (bitsFn fun _ a b => a &&& b))
def execVor (n : NibId) (i : C0) (s : State) : Out :=
  .next (run0 s n 0x11 i .bin fmtsInt false (fun _ => false) (bitsFn fun _ a b => a ||| b))
def execVxor (n : NibId) (i : C0) (s : State) : Out :=
  .next (run0 s n 0x12 i .bin fmtsInt false (fun _ => false) (bitsFn fun _ a b => a ^^^ b))
def execVsll (n : NibId) (i : C0) (s : State) : Out :=
  .next (run0 s n 0x13 i .bin fmtsInt false (fun _ => false) (bitsFn fun w a b => a * 2 ^ shAmt w b % 2 ^ w))
def execVsrl (n : NibId) (i : C0) (s : State) : Out :=
  .next (run0 s n 0x14 i .bin fmtsInt false (fun _ => false) (bitsFn fun w a b => a / 2 ^ shAmt w b))
def execVsra (n : NibId) (i : C0) (s : State) : Out :=
  .next (run0 s n 0x15 i .bin fmtsInt false (fun _ => false)
    (bitsFn fun w a b => (intOfBits w a / 2 ^ shAmt w b % 2 ^ w).toNat))
def execVcmpeq (n : NibId) (i : C0) (s : State) : Out :=
  .next (run0 s n 0x16 i .cmp fmtsAll false (fun _ => false) (cmpFn FNum.eq fun a b => a = b))
def execVcmplt (n : NibId) (i : C0) (s : State) : Out :=
  .next (run0 s n 0x17 i .cmp fmtsAll false (fun _ => false) (cmpFn FNum.lt fun a b => a < b))
def execVcmple (n : NibId) (i : C0) (s : State) : Out :=
  .next (run0 s n 0x18 i .cmp fmtsAll false (fun _ => false) (cmpFn (fun a b => a.lt b || a.eq b) fun a b => a ≤ b))
def execVmerge (n : NibId) (i : C0) (s : State) : Out :=
  .next (run0 s n 0x19 i .merge fmtsAll false (fun _ => false) (bitsFn fun _ a _ => a))
def execVbcast (n : NibId) (i : C0) (s : State) : Out :=
  .next (run0 s n 0x1A i .bcast fmtsAll false (fun _ => false) (bitsFn fun _ _ b => b))
def execViota (n : NibId) (i : C0) (s : State) : Out :=
  .next (run0 s n 0x1B i .iota [2] false (fun _ => false) fun _ _ _ _ l => (l.i, none))

/-! ### Custom-1 (R148, R151) -/

/-- The word of a custom-1 instruction. -/
def enc1 (op : Nat) (i : C1) : Word :=
  BitVec.ofNat 32 (0x2B + 2 ^ 7 * i.rd.toNat + 2 ^ 12 * i.f3.toNat + 2 ^ 15 * i.rs1.toNat + 2 ^ 20 * i.rs2.toNat +
    2 ^ 25 * i.msk.toNat + 2 ^ 27 * op)

/-- A custom-1 instruction with OP `op` at the Nib's pc: it waits for its scalar sources `xs`, faults
ILLEGAL when `bad`, and otherwise runs. Each Brush instruction is performed whole before the Nib's next one, so that
no later scalar access of the local store comes before it (R152; DESIGN CHOICE, log entry 25). -/
def run1 (s : State) (n : NibId) (op : Nat) (i : C1) (xs : List Nat) (bad : Bool) (go : State → Nib → State) : State :=
  let s := fetchCheck s n
  let v := nibOf s n
  if !nibAtWord s n (enc1 op i) || xs.any (v.pends false) then s
  else if bad then faultAfter s s n (pcFault v 1)
  else go s v

/-- Retire a four-byte instruction. -/
def retire4 (s : State) (n : NibId) (v : Nib) : State := nibRetire s n v (v.pc + 4)

/-- The mask of an MK field. -/
def Nib.mk1 (v : Nib) (i : C1) : Option (BitVec 1024) := if i.msk = 0 then none else some (v.mask i.msk.toNat)

/-- LEN against a width and the mask rule (R144, R145). -/
def badLen (v : Nib) (w : Nat) (mask : Bool) : Bool := capacity w < v.len.toNat || (mask && 1024 < v.len.toNat)

/-- The width in bits of an F3 width field, 0 when reserved. -/
def f3Width (f3 : BitVec 3) : Nat := match f3.toNat with | 0 => 32 | 1 => 16 | 2 => 8 | _ => 0

/-- SETLEN (R144). -/
def execSetlen (n : NibId) (i : C1) (s : State) : Out :=
  .next (run1 s n 0x00 i [i.rs1.toNat] (f3Width i.f3 = 0 || i.rs2 ≠ 0 || i.msk ≠ 0) fun s v =>
    let l := min (v.xr i.rs1.toNat).toNat (capacity (f3Width i.f3))
    retire4 s n ({ v with len := BitVec.ofNat 13 l }.putX i.rd.toNat (BitVec.ofNat 32 l)))

/-! ### Brush memory accesses (R124 to R126, R129, R157) -/

/-- Whether a Brush access of `w` bytes has no memory behind it: the cause (R124, R125). -/
def brushBad (s : State) (n : NibId) (w a : Nat) : Option (BitVec 4) :=
  match nibAddr s n a w with
  | .bad c => some c
  | .stage _ | .mbox _ => some 2
  | .loc _ | .win _ => none

/-- Whether any of the addresses lies in a window, and all 32 entries are taken (R126): the instruction waits. -/
def brushStalls (s : State) (n : NibId) (w : Nat) (addrs : List Nat) : Bool :=
  decide (remMax ≤ (nibOf s n).rops.length) && addrs.any fun a => match nibAddr s n a w with | .win _ => true | _ => false

/-- A Brush load of a line as it is found at the home: its bytes and whether it is poisoned. -/
abbrev LineIn := Nat × List Byte × Bool

/-- A Brush load of `w` bytes: the value, whether any byte is poisoned, and the window line it read. Accesses that
follow each other on one line read it once (R126). -/
def brushRead (s : State) (n : NibId) (a w : Nat) (last : Option LineIn) : State × Except NFault ((Nat × Bool) × Option LineIn) :=
  match nibAddr s n a w with
  | .bad c => (s, .error ⟨c, BitVec.ofNat 32 a, 0⟩)
  | .stage _ | .mbox _ => (s, .error ⟨2, BitVec.ofNat 32 a, 0⟩)
  | .loc l =>
    let s := lsCheck s n l w
    (s, .ok ((leNat (bgetRange (nibOf s n).ls l w), lsPoisoned (nibOf s n) l w), none))
  | .win va =>
    match last with
    | some (l, d, p) =>
      if l = a / 128 then (s, .ok ((bget d (a % 128) w, p), last))
      else
        match nibXlate s n a va false with
        | (s, .done pa) => let r := unitRead s (pa / 128); (r.1, .ok ((bget r.2.1 (a % 128) w, r.2.2), some (a / 128, r.2)))
        | (s, .fault f) => (s, .error f)
        | (s, .stall) => (s, .error ⟨5, BitVec.ofNat 32 a, 0⟩)
    | none =>
      match nibXlate s n a va false with
      | (s, .done pa) => let r := unitRead s (pa / 128); (r.1, .ok ((bget r.2.1 (a % 128) w, r.2.2), some (a / 128, r.2)))
      | (s, .fault f) => (s, .error f)
      | (s, .stall) => (s, .error ⟨5, BitVec.ofNat 32 a, 0⟩)

/-- Loads in order: addresses with their element index; `each` says that every element takes its own access
(VGATHER, R151). -/
def brushReads (n : NibId) (w : Nat) (each : Bool) : Option LineIn → List (Nat × Nat) → State → State × Except NFault (List (Nat × Nat × Bool))
  | _, [], s => (s, .ok [])
  | last, (e, a) :: t, s =>
    match brushRead s n a w last with
    | (s, .error f) => (s, .error f)
    | (s, .ok (x, last)) =>
      match brushReads n w each (if each then none else last) t s with
      | (s, .error f) => (s, .error f)
      | (s, .ok l) => (s, .ok ((e, x) :: l))

/-- Stores that follow each other on one line, together (R126). -/
def lineGroups : List (Nat × List Byte) → List (Nat × List (Nat × List Byte))
  | [] => []
  | p :: t =>
    match lineGroups t with
    | [] => [(p.1 / 128, [p])]
    | (l, ps) :: r => if l = p.1 / 128 then (l, p :: ps) :: r else (p.1 / 128, [p]) :: (l, ps) :: r

/-- What stores leave in a line, each byte the last one written to it. -/
def lineImage (ps : List (Nat × List Byte)) : List (Option Byte) :=
  (List.range 128).map fun i =>
    (ps.reverse.find? fun p => decide (p.1 % 128 ≤ i ∧ i < p.1 % 128 + p.2.length)).map fun p => p.2.getD (i - p.1 % 128) 0

/-- A posted Brush store takes an entry. Where all are taken, the Cmp of an earlier store has come first: entries are
issued as they become free (R126; DESIGN CHOICE, log entry 25). -/
def takeEntry (v : Nib) (o : RemOp) : Nib :=
  let l := if remMax ≤ v.rops.length then
      (match findIdx? (fun p => decide (p.kind = .store)) v.rops with | none => v.rops | some i => dropAt v.rops i)
    else v.rops
  { v with rops := l ++ [o] }

/-- A Brush store of a group of pieces on one line: whether a fault was posted. -/
def brushWrite (s : State) (n : NibId) (w : Nat) (ps : List (Nat × List Byte)) (pois : Bool) : State × Bool :=
  match ps with
  | [] => (s, false)
  | (a, _) :: _ =>
    let img := lineImage ps
    let base := a / 128 * 128
    match nibAddr s n a w with
    | .win va =>
      match nibXlate s n a va true with
      | (s, .done pa) =>
        let s := unitMask s (pa / 128) img pois
        (setNib s n (takeEntry (nibOf s n) ⟨.store, BitVec.ofNat 32 a, BitVec.ofNat 48 va, pa, []⟩), false)
      | (s, .fault f) => (setNib s n { nibOf s n with storeFault := some f }, true)
      | (s, .stall) => (s, true)
    | _ => ((imageRuns 0 img).foldl (fun s r => lsStore s n (base + r.1) r.2 pois) s, false)

/-- Stores in order, line by line, up to the first that fails; `mark` says that the stored register is marked, which
writing any of it records (R157). -/
def brushLines (n : NibId) (w : Nat) (mark : Bool) : List (Nat × List (Nat × List Byte)) → State → State × Except NFault Unit
  | [], s => (s, .ok ())
  | (_, ps) :: t, s =>
    let good := ps.takeWhile fun p => (brushBad s n w p.1).isNone
    match brushWrite s n w good mark with
    | (s, true) => (s, .ok ())
    | (s, false) =>
      let s := if mark && !good.isEmpty then setNib s n { nibOf s n with bstat := (nibOf s n).bstat ||| 4 } else s
      match ps.drop good.length with
      | [] => brushLines n w mark t s
      | p :: _ => (s, .error ⟨(brushBad s n w p.1).getD 2, BitVec.ofNat 32 p.1, 0⟩)

/-- The stores of an instruction: those on one line together, or `each` element by itself (VSCATTER, R151). -/
def brushWrites (n : NibId) (w : Nat) (each mark : Bool) (pieces : List (Nat × List Byte)) (s : State) : State × Except NFault Unit :=
  brushLines n w mark (if each then pieces.map fun p => (p.1 / 128, [p]) else lineGroups pieces) s

/-- Element addresses of VLD and VST. -/
def stepAddrs (v : Nib) (i : C1) (w : Nat) (act : List Nat) : List (Nat × Nat) :=
  let base := (v.xr i.rs1.toNat).toNat
  let st := if i.rs2 = 0 then w else (v.xr i.rs2.toNat).toNat
  act.map fun e => (e, (base + e * st) % 2 ^ 32)

/-- A Brush load into a vector register. -/
def loadInto (s : State) (n : NibId) (v : Nib) (rd w : Nat) (each srcMark : Bool) (addrs : List (Nat × Nat)) : State :=
  if brushStalls s n (w / 8) (addrs.map Prod.snd) then s
  else match brushReads n (w / 8) each none addrs s with
  | (s', .error f) => faultAfter s s' n f
  | (s', .ok l) =>
    let p := srcMark || l.any fun x => x.2.2
    let v' := v.putElems rd w (l.map fun x => (x.1, x.2.1))
    let v' := if v.len = 0 then v' else v'.remark rd p l.length w
    retire4 s' n { nibOf s' n with v := v'.v, bpoison := v'.bpoison }

/-- A Brush store's pieces leave; `mark` says that the stored register is marked (R157). A store that faults at the
instruction has seen the Cmp of its earlier lines, since the Nib waits for them (R134). -/
def storeFrom (s : State) (n : NibId) (w : Nat) (each mark : Bool) (pieces : List (Nat × List Byte)) : State :=
  if brushStalls s n w (pieces.map Prod.fst) then s
  else match brushWrites n w each mark pieces s with
  | (s', .error f) => faultAfter s (setNib s' n { nibOf s' n with rops := (nibOf s n).rops }) n f
  | (s', .ok _) => retire4 s' n (nibOf s' n)

/-- VLD. -/
def execVld (n : NibId) (i : C1) (s : State) : Out :=
  let w := f3Width i.f3
  let v := nibOf s n
  .next (run1 s n 0x01 i [i.rs1.toNat, i.rs2.toNat] (w = 0 || 16 ≤ i.rd.toNat || badLen v w (i.msk ≠ 0)) fun s v =>
    loadInto s n v i.rd.toNat w false false (stepAddrs v i (w / 8) (activeElems v.len.toNat (v.mk1 i))))

/-- VST: elements that follow each other on one line leave together (R126). -/
def execVst (n : NibId) (i : C1) (s : State) : Out :=
  let w := f3Width i.f3
  let v := nibOf s n
  .next (run1 s n 0x02 i [i.rs1.toNat, i.rs2.toNat] (w = 0 || 16 ≤ i.rd.toNat || badLen v w (i.msk ≠ 0)) fun s v =>
    let act := activeElems v.len.toNat (v.mk1 i)
    let el (e : Nat) : List Byte := leBytes (w / 8) (v.velem i.rd.toNat w e)
    storeFrom s n (w / 8) false (v.marked i.rd.toNat) ((stepAddrs v i (w / 8) act).map fun x => (x.2, el x.1)))

/-- Element addresses of VGATHER and VSCATTER. -/
def gatherAddrs (v : Nib) (i : C1) (act : List Nat) : List (Nat × Nat) :=
  act.map fun e => (e, ((v.xr i.rs1.toNat).toNat + v.velem (i.rs2.toNat % 16) 32 e) % 2 ^ 32)

/-- VGATHER. -/
def execVgather (n : NibId) (i : C1) (s : State) : Out :=
  let v := nibOf s n
  .next (run1 s n 0x03 i [i.rs1.toNat] (i.f3 ≠ 0 || 16 ≤ i.rd.toNat || 16 ≤ i.rs2.toNat || badLen v 32 false) fun s v =>
    loadInto s n v i.rd.toNat 32 true (v.marked (i.rs2.toNat % 16)) (gatherAddrs v i (activeElems v.len.toNat (v.mk1 i))))

/-- VSCATTER: one remote entry for each element (R151). -/
def execVscatter (n : NibId) (i : C1) (s : State) : Out :=
  let v := nibOf s n
  .next (run1 s n 0x04 i [i.rs1.toNat] (i.f3 ≠ 0 || 16 ≤ i.rd.toNat || 16 ≤ i.rs2.toNat || badLen v 32 false) fun s v =>
    let el (e : Nat) : List Byte := leBytes 4 (v.velem i.rd.toNat 32 e)
    storeFrom s n 4 true (v.marked i.rd.toNat || v.marked (i.rs2.toNat % 16))
      ((gatherAddrs v i (activeElems v.len.toNat (v.mk1 i))).map fun x => (x.2, el x.1)))

/-! ### Conversion (R48, R49, R151) -/

/-- Whether a conversion is one of R48, which neither rounds nor counts: INT8 to any format among them. R48 calls
those exact, and an INT8 value that an FP8 or MX format does not hold goes to the value that R41 to R50 give it
(DEDUCED, log entry 42). -/
def widening (src dst : Nat) : Bool :=
  src = 0xA || ((src = 1 || src = 2) && dst = 0)
  || ((src = 3 || src = 4) && dst ≤ 2) || ((src = 7 || src = 8 || src = 9) && dst = 0)

/-- The value of element e of a vector in format `src`. -/
def srcValue (v : Nib) (src r e : Nat) : FNum :=
  let b := v.velem r (fmtBits src) e
  if src = 0 ∨ src = 1 then flushIn (fmtLayout src) b
  else elemValue src b (v.vbits (r + 1) (8 * (e / 32)) 8)

/-- A block of a conversion to an MX format: scale and elements over its active elements. -/
def mxDst (v : Nib) (src dst r : Nat) (act : List Nat) (k : Nat) : Nat × List (Nat × Conv) :=
  let es := act.filter fun e => e / 32 = k
  let b := mxBlock dst v.round (fun j => v.sandAt (es.getD j 0)) (es.map (srcValue v src r))
  (b.1, es.zip b.2)

/-- VCVT. -/
def execVcvt (n : NibId) (i : C1) (s : State) : Out :=
  let src := 8 * (i.rs2.toNat % 2) + i.f3.toNat
  let dst := i.rs2.toNat / 2
  let rd := i.rd.toNat
  let r1 := i.rs1.toNat
  let v := nibOf s n
  let bad := 0xB < src || 0xB < dst || 16 ≤ rd || 16 ≤ r1 || badLen v (fmtBits src) (i.msk ≠ 0) ||
    badLen v (fmtBits dst) false || ((fmtMx src || fmtMx dst) && v.len.toNat % 32 ≠ 0) ||
    (fmtMx src && r1 % 2 = 1) || (fmtMx dst && rd % 2 = 1)
  .next (run1 s n 0x05 i [] bad fun s v =>
    let act := activeElems v.len.toNat (v.mk1 i)
    let w := fmtBits dst
    let pm := v.marked r1 || (fmtMx src && v.marked (r1 + 1))
    let len := v.len.toNat
    if fmtMx dst then
      let ks := (List.range (len / 32)).filter fun k => act.any fun e => e / 32 = k
      let bl := ks.map fun k => (k, mxDst v src dst r1 act k)
      let v' := bl.foldl (fun v' x => (v'.putVbits (rd + 1) (8 * x.1) 8 x.2.1).putElems rd w (x.2.2.map fun y => (y.1, y.2.bits))) v
      let v' := if len = 0 then v' else (v'.remark rd pm act.length w).remark (rd + 1) pm ks.length 8
      let s := if widening src dst then s else gaugeAdd s (nibGauge n v) (bl.flatMap fun x => x.2.2.map Prod.snd)
      retire4 s n (v'.advance (!widening src dst) len)
    else
      let cs := act.map fun e =>
        let c := fmtConv dst v.round v.range (v.sandAt e) (srcValue v src r1 e)
        (e, if dst = 0 ∨ dst = 1 then flushOut (fmtLayout dst) c else c)
      let v' := v.putElems rd w (cs.map fun x => (x.1, x.2.bits))
      let v' := if len = 0 then v' else v'.remark rd pm act.length w
      let s := if widening src dst then s else gaugeAdd s (nibGauge n v) (cs.map Prod.snd)
      retire4 s n (v'.advance (!widening src dst) len))

/-! ### Compress, expand and reductions (R158 to R160) -/

/-- VCOMPRESS. -/
def execVcompress (n : NibId) (i : C1) (s : State) : Out :=
  let v := nibOf s n
  .next (run1 s n 0x06 i [] (i.f3 ≠ 0 || 16 ≤ i.rd.toNat || 16 ≤ i.rs1.toNat || badLen v 32 false) fun s v =>
    if v.len = 0 then retire4 s n v
    else
      let act := activeElems v.len.toNat (v.mk1 i)
      let v' := v.putElems i.rd.toNat 32 (act.zipIdx.map fun x => (x.2, v.velem i.rs1.toNat 32 x.1))
      let v' := v'.remark i.rd.toNat (v.marked i.rs1.toNat) act.length 32
      retire4 s n (v'.putX i.rs2.toNat (BitVec.ofNat 32 act.length)))

/-- VEXPAND: vd and vs1 must differ. -/
def execVexpand (n : NibId) (i : C1) (s : State) : Out :=
  let v := nibOf s n
  let bad := i.f3 ≠ 0 || 16 ≤ i.rd.toNat || 16 ≤ i.rs1.toNat || i.rs2 ≠ 0 || i.rd = i.rs1 || badLen v 32 false
  .next (run1 s n 0x07 i [] bad fun s v =>
    if v.len = 0 then retire4 s n v
    else
      let act := activeElems v.len.toNat (v.mk1 i)
      let v' := v.putElems i.rd.toNat 32 (act.zipIdx.map fun x => (x.1, v.velem i.rs1.toNat 32 x.2))
      retire4 s n (v'.remark i.rd.toNat (v.marked i.rs1.toNat) act.length 32))

/-- The combination tree of R160 over floating-point or integer results; `fuel` bounds its depth. -/
def redTree {α : Type} (z : α) (f : α → α → α) : Nat → List α → α
  | 0, l => l.getD 0 z
  | fuel + 1, l =>
    match l with
    | [] => z
    | [a] => a
    | _ =>
      let m := 2 ^ (Nat.log2 (l.length - 1))
      f (redTree z f fuel (l.take m)) (redTree z f fuel (l.drop m))

/-- A reduction instruction: `fp` and `int` combine, `z` and `zi` are the results of no element. -/
def runReduce (s : State) (n : NibId) (op : Nat) (i : C1) (fp : FNum → FNum → FNum) (z : FNum) (int : Int → Int → Int) (zi : Int) :
    State :=
  let v := nibOf s n
  let f := i.f3.toNat
  let w := fmtBits (fmtCode f)
  let bad := 3 < f || 16 ≤ i.rs1.toNat || i.rs2 ≠ 0 || badLen v w (i.msk ≠ 0)
  run1 s n op i [] bad fun s v =>
    if v.len = 0 then retire4 s n v
    else if v.marked i.rs1.toNat then faultAfter s s n (pcFault v 6)
    else
      let act := activeElems v.len.toNat (v.mk1 i)
      let r := i.rs1.toNat
      if fmtFp f then
        let leaf (x : FNum) : Conv := flushOut fmtFP32 (fmtFP32.conv .rne 2 0 x)
        let comb (a b : Conv) : Conv :=
          brushOut fmtFP32 .rne v.range 0 (fp (flushIn fmtFP32 a.bits) (flushIn fmtFP32 b.bits))
        let es := act.map fun e => leaf (flushIn (fmtLayout (fmtCode f)) (v.velem r w e))
        let c := redTree (leaf z) comb 11 es
        retire4 (gaugeAdd s (nibGauge n v) [c]) n (v.putF i.rd.toNat (BitVec.ofNat 32 c.bits))
      else
        let es := act.map fun e => intOfBits w (v.velem r w e)
        let wrap (x : Int) : Int := intOfBits 32 (x % 2 ^ 32).toNat
        let x := redTree zi (fun a b => wrap (int a b)) 12 es
        let c : Conv := { bits := (x % 2 ^ 32).toNat, ovf := false, zeroed := false, subn := false, nan := false }
        retire4 (gaugeAdd s (nibGauge n v) [c]) n (v.putX i.rd.toNat (BitVec.ofInt 32 x))

def execVredsum (n : NibId) (i : C1) (s : State) : Out :=
  .next (runReduce s n 0x08 i (fun a b => a.add false b) (.fin false 0 0) (fun a b => a + b) 0)
def execVredmax (n : NibId) (i : C1) (s : State) : Out :=
  .next (runReduce s n 0x09 i (numMinMax true) (.inf true) max (-(2 ^ 31)))
def execVredmin (n : NibId) (i : C1) (s : State) : Out :=
  .next (runReduce s n 0x0A i (numMinMax false) (.inf false) min (2 ^ 31 - 1))

/-! ### Masks (R151) -/

/-- The bits below LEN. -/
def lenMask (len : Nat) : BitVec 1024 := BitVec.ofNat 1024 (2 ^ len - 1)

/-- Replace the bits below LEN of a mask. -/
def Nib.putMaskLen (v : Nib) (m : Nat) (x : BitVec 1024) : Nib :=
  let k := lenMask v.len.toNat
  v.putMask m ((v.mask m &&& ~~~k) ||| (x &&& k))

/-- VMPOP. -/
def execVmpop (n : NibId) (i : C1) (s : State) : Out :=
  let v := nibOf s n
  .next (run1 s n 0x0B i [] (i.f3 ≠ 0 || 4 ≤ i.rs1.toNat || i.rs2 ≠ 0 || i.msk ≠ 0 || badLen v 32 true) fun s v =>
    if v.len = 0 then retire4 s n v
    else retire4 s n (v.putX i.rd.toNat (BitVec.ofNat 32 (activeElems v.len.toNat (some (v.mask i.rs1.toNat))).length)))

/-- VMLOGIC. -/
def execVmlogic (n : NibId) (i : C1) (s : State) : Out :=
  let v := nibOf s n
  let bad := 3 < i.f3.toNat || 4 ≤ i.rd.toNat || 4 ≤ i.rs1.toNat || 4 ≤ i.rs2.toNat || i.msk ≠ 0 || badLen v 32 true
  .next (run1 s n 0x0C i [] bad fun s v =>
    let a := v.mask i.rs1.toNat
    let b := v.mask i.rs2.toNat
    let x := match i.f3.toNat with | 0 => a &&& b | 1 => a ||| b | 2 => a ^^^ b | _ => a &&& ~~~b
    retire4 s n (v.putMaskLen i.rd.toNat x))

/-- The poison fault at a Nib address, with the window's address where it lies in one (R134). -/
def poisonFault (s : State) (n : NibId) (a : Nat) : NFault :=
  match nibAddr s n a 1 with
  | .win va => ⟨6, BitVec.ofNat 32 a, BitVec.ofNat 48 va⟩
  | _ => ⟨6, BitVec.ofNat 32 a, 0⟩

/-- VMLD: a poisoned byte faults, since a mask holds no mark (R217). A byte whose access itself faults decides the cause, poisoned
bytes before it or not (DESIGN CHOICE, log entry 43). -/
def execVmld (n : NibId) (i : C1) (s : State) : Out :=
  let v := nibOf s n
  .next (run1 s n 0x0D i [i.rs1.toNat] (i.f3 ≠ 0 || 4 ≤ i.rd.toNat || i.rs2 ≠ 0 || i.msk ≠ 0 || badLen v 32 true) fun s v =>
    let base := (v.xr i.rs1.toNat).toNat
    let addrs := (List.range (cdiv v.len.toNat 8)).map fun k => (k, (base + k) % 2 ^ 32)
    if brushStalls s n 1 (addrs.map Prod.snd) then s
    else match brushReads n 1 false none addrs s with
    | (s', .error f) => faultAfter s s' n f
    | (s', .ok l) =>
      match l.find? fun x => x.2.2 with
      | some x => faultAfter s s' n (poisonFault s n ((base + x.1) % 2 ^ 32))
      | none =>
      let v' := v.putMaskLen i.rd.toNat (BitVec.ofNat 1024 (digitsNat 8 (l.map fun x => x.2.1)))
      retire4 s' n { nibOf s' n with m := v'.m })

/-- VMST. -/
def execVmst (n : NibId) (i : C1) (s : State) : Out :=
  let v := nibOf s n
  .next (run1 s n 0x0E i [i.rs1.toNat] (i.f3 ≠ 0 || 4 ≤ i.rd.toNat || i.rs2 ≠ 0 || i.msk ≠ 0 || badLen v 32 true) fun s v =>
    let base := (v.xr i.rs1.toNat).toNat
    let b := leBytes (cdiv v.len.toNat 8) (v.mask i.rd.toNat &&& lenMask v.len.toNat).toNat
    storeFrom s n 1 false false (b.zipIdx.map fun x => ((base + x.2) % 2 ^ 32, [x.1])))

/-- VEXTRACT: a slot index above 1,023 names no slot, and the value is a free one of the register's number and the
index (DESIGN CHOICE, log entry 26). With LEN 0 it does nothing (R144). -/
def execVextract (n : NibId) (i : C1) (s : State) : Out :=
  .next (run1 s n 0x0F i [i.rs2.toNat] (i.f3 ≠ 0 || 16 ≤ i.rs1.toNat || i.msk ≠ 0) fun s v =>
    if v.len = 0 then retire4 s n v
    else if v.marked i.rs1.toNat then faultAfter s s n (pcFault v 6)
    else
      let k := (v.xr i.rs2.toNat).toNat
      retire4 s n (v.putX i.rd.toNat
        (if k < 1024 then BitVec.ofNat 32 (v.vbits i.rs1.toNat (32 * k) 32) else Config.slotBeyond i.rs1.toNat k)))

/-- VINSERT: a slot index above 1,023 names no slot (log entry 26). With LEN 0 it does nothing (R144). -/
def execVinsert (n : NibId) (i : C1) (s : State) : Out :=
  .next (run1 s n 0x10 i [i.rs1.toNat, i.rs2.toNat] (i.f3 ≠ 0 || 16 ≤ i.rd.toNat || i.msk ≠ 0) fun s v =>
    let k := (v.xr i.rs2.toNat).toNat
    retire4 s n (if v.len ≠ 0 ∧ k < 1024 then v.putVbits i.rd.toNat (32 * k) 32 (v.xr i.rs1.toNat).toNat else v))

/-! ### The Nib Well (R167, R168) -/

def execNwzero (n : NibId) (i : C1) (s : State) : Out :=
  .next (run1 s n 0x11 i [] (i.rd ≠ 0 || i.f3 ≠ 0 || i.rs1 ≠ 0 || i.rs2 ≠ 0 || i.msk ≠ 0) fun s v =>
    retire4 s n { v with well := wellZero })

/-- An element as it enters the Nib Well: no flushing, poisoned from a marked register. -/
def wellOpnd (v : Nib) (f r e : Nat) (mark : Bool) : Opnd :=
  if mark then .pois else .val (fmtValue (fmtCode f) (v.velem r (fmtBits (fmtCode f)) e))

def execNwmac (n : NibId) (i : C1) (s : State) : Out :=
  let v := nibOf s n
  let f := i.f3.toNat
  let bad := 3 < f || i.rd ≠ 0 || 16 ≤ i.rs1.toNat || 16 ≤ i.rs2.toNat || badLen v (fmtBits (fmtCode f)) (i.msk ≠ 0)
  .next (run1 s n 0x12 i [] bad fun s v =>
    let mk := v.marked i.rs1.toNat || v.marked i.rs2.toNat
    let w := (activeElems v.len.toNat (v.mk1 i)).foldl
      (fun w e => w.addProduct (wellOpnd v f i.rs1.toNat e mk) (wellOpnd v f i.rs2.toNat e mk)) v.well
    retire4 s n { v with well := w })

def execNwadd (n : NibId) (i : C1) (s : State) : Out :=
  let v := nibOf s n
  let f := i.f3.toNat
  let bad := 3 < f || i.rd ≠ 0 || 16 ≤ i.rs1.toNat || i.rs2 ≠ 0 || badLen v (fmtBits (fmtCode f)) (i.msk ≠ 0)
  .next (run1 s n 0x13 i [] bad fun s v =>
    let mk := v.marked i.rs1.toNat
    let w := (activeElems v.len.toNat (v.mk1 i)).foldl
      (fun w e => w.addProduct (wellOpnd v f i.rs1.toNat e mk) (.val (.fin false 1 0))) v.well
    retire4 s n { v with well := w })

/-- Whether NWREAD reads out to a code. -/
def nwCode (c : Nat) : Bool := c ≤ 4 || c = 0xA || c = 0xB

def execNwread (n : NibId) (i : C1) (s : State) : Out :=
  let c := i.rs2.toNat
  .next (run1 s n 0x14 i [] (!nwCode c || i.f3 ≠ 0 || i.rs1 ≠ 0 || i.msk ≠ 0) fun s v =>
    let r := v.well.readout c v.round v.range (v.sandAt 0)
    let st : Word := (if v.well.flag flOvf then 1 else 0) ||| (if v.well.flag flPoison then 2 else 0)
    let v' := { v.advance true 1 with bstat := v.bstat ||| st }
    retire4 (gaugeAdd s (nibGauge n v) [r.2]) n (v'.putX i.rd.toNat (BitVec.ofNat 32 r.2.bits)))

/-- The 32-byte pieces of a raw element. -/
def rawPieces (a : Nat) : List Nat := [a, (a + 32) % 2 ^ 32, (a + 64) % 2 ^ 32]

def execNwst (n : NibId) (i : C1) (s : State) : Out :=
  .next (run1 s n 0x15 i [i.rs1.toNat] (i.rd ≠ 0 || i.f3 ≠ 0 || i.rs2 ≠ 0 || i.msk ≠ 0) fun s v =>
    let a := (v.xr i.rs1.toNat).toNat
    let b := v.well.raw
    storeFrom s n 32 false false ((rawPieces a).zipIdx.map fun x => (x.1, bslice b (32 * x.2) 32)))

/-- NWLD: the Nib Well is preloaded under R80, although the text below the table says that NWLD leaves it unchanged, and an
address that is not 32-byte aligned faults as NWST's does (DESIGN CHOICE, log entry 43). -/
def execNwld (n : NibId) (i : C1) (s : State) : Out :=
  .next (run1 s n 0x16 i [i.rs1.toNat] (i.rd ≠ 0 || i.f3 ≠ 0 || i.rs2 ≠ 0 || i.msk ≠ 0) fun s v =>
    let ps := rawPieces (v.xr i.rs1.toNat).toNat
    if brushStalls s n 32 ps then s
    else match brushReads n 32 false none (ps.map fun a => (0, a)) s with
    | (s', .error f) => faultAfter s s' n f
    | (s', .ok l) =>
      retire4 s' n { nibOf s' n with well := wellOfRaw (l.flatMap fun x => leBytes 32 x.2.1) (l.any fun x => x.2.2) })

def execNwflags (n : NibId) (i : C1) (s : State) : Out :=
  .next (run1 s n 0x17 i [] (i.f3 ≠ 0 || i.rs1 ≠ 0 || i.rs2 ≠ 0 || i.msk ≠ 0) fun s v =>
    retire4 s n (v.putX i.rd.toNat v.well.flags))

/-! ### Mailboxes, NAMO and QDMA -/

/-- MSEND (R137): the message is read at issue and takes an entry. -/
def execMsend (n : NibId) (i : C1) (s : State) : Out :=
  .next (run1 s n 0x18 i [i.rs1.toNat, i.rs2.toNat] (i.rd ≠ 0 || i.f3 ≠ 0 || i.msk ≠ 0) fun s v =>
    let a := v.xr i.rs1.toNat
    let dst := v.xr i.rs2.toNat
    if a.toNat % 64 ≠ 0 ∨ lsSize < a.toNat + 64 then faultAfter s s n ⟨2, a, 0⟩
    else if remMax ≤ v.rops.length then s
    else
      let s' := lsCheck s n a.toNat 64
      let v := nibOf s' n
      if lsPoisoned v a.toNat 64 then faultAfter s s' n ⟨6, a, 0⟩
      else
        let v := { v with rops := v.rops ++ [⟨.msend, dst, 0, 0, []⟩] }
        let b := bgetRange v.ls a.toNat 64
        let s := linkSend { s' with mail := s'.mail ++ [⟨n.num, dst, b, false⟩] } n.h.val (field dst 16 16) 0 .mail n.num dst.toNat 0 b
        retire4 s n v)

/-- MFREE (R136). -/
def execMfree (n : NibId) (i : C1) (s : State) : Out :=
  .next (run1 s n 0x19 i [i.rs1.toNat] (i.rd ≠ 0 || i.f3 ≠ 0 || i.rs2 ≠ 0 || i.msk ≠ 0) fun s v =>
    retire4 s n { v with mfull := v.mfull &&& ~~~(1#16 <<< ((v.xr i.rs1.toNat).toNat % 16)) })

/-- MWAIT (R140). -/
def execMwait (n : NibId) (i : C1) (s : State) : Out :=
  .next (run1 s n 0x1A i [i.rs1.toNat] (i.f3 ≠ 0 || i.rs2 ≠ 0 || i.msk ≠ 0) fun s v =>
    let m : BitVec 16 := (v.xr i.rs1.toNat).setWidth 16
    if m = 0 || v.mfull &&& m ≠ 0 then retire4 s n (v.putX i.rd.toNat (v.mfull.setWidth 32))
    else setNib s n { v with st := .waiting, waitMask := m, waitRd := i.rd, rops := v.rops.map (dropLoad false i.rd.toNat) })

/-- The operation of a NAMO F3, `none` for 7 (R128). -/
def namoOp (f3 : BitVec 3) : Option AmoOp :=
  match f3.toNat with
  | 0 => some .add | 1 => some .swap | 2 => some .and | 3 => some .or | 4 => some .max | 5 => some .min | 6 => some .cas
  | _ => none

/-- NAMO: performed at the home when it is issued (R128; DESIGN CHOICE, log entry 25). -/
def execNamo (n : NibId) (i : C1) (s : State) : Out :=
  .next (run1 s n 0x1B i [i.rd.toNat, i.rs1.toNat, i.rs2.toNat] (i.f3 = 7 || i.msk ≠ 0) fun s v =>
    let a := v.xr i.rs1.toNat
    match namoOp i.f3, nibAddr s n a.toNat 4 with
    | some op, .win va =>
      if remMax ≤ v.rops.length then s
      else
        match nibXlate s n a.toNat va true with
        | (s', .done pa) =>
          match farAtomic s' pa 4 op (v.xr i.rs2.toNat).toNat (v.xr i.rd.toNat).toNat with
          | (s', none) => faultAfter s s' n ⟨6, a, BitVec.ofNat 48 va⟩
          | (s', some old) => retire4 s' n ((nibOf s' n).putX i.rd.toNat (BitVec.ofNat 32 old))
        | (s', .fault f) => faultAfter s s' n f
        | (s', .stall) => s'
    | _, .bad c => faultAfter s s n ⟨c, a, 0⟩
    | _, _ => faultAfter s s n ⟨2, a, 0⟩)

/-- QDMA (R130): the descriptor's address joins the quire's engine. -/
def execQdma (n : NibId) (i : C1) (s : State) : Out :=
  .next (run1 s n 0x1C i [i.rs1.toNat] (i.rd ≠ 0 || i.f3 ≠ 0 || i.rs2 ≠ 0 || i.msk ≠ 0) fun s v =>
    let a := v.xr i.rs1.toNat
    if a.toNat % 32 ≠ 0 ∨ lsSize < a.toNat + 32 then faultAfter s s n ⟨2, a, 0⟩
    else
      let k := n.quire.num
      retire4 { s with qdma := sset s.qdma k (sget [] s.qdma k ++ [⟨n.n, a⟩]) } n v)

/-! ### Message delivery (R127, R136, R138, R139) -/

/-- The sender's entry of its oldest message to a destination word goes. -/
def freeMsend (v : Nib) (dst : Word) : Nib :=
  match findIdx? (fun o => o.kind = .msend && o.addr = dst) v.rops with
  | none => v
  | some e => { v with rops := dropAt v.rops e }

/-- Whether a sender's earlier stores are not yet visible (R127). -/
def storesBefore (v : Nib) (dst : Word) : Bool :=
  match findIdx? (fun o => o.kind = .msend && o.addr = dst) v.rops with
  | none => false
  | some e => (v.rops.take e).any fun o => o.kind = .store

/-- Message i of those in flight reaches its mailbox. It is refused, and retried from then on, while the mailbox is full, the
Inkstone's record waits for it, or a lower Nib's message is retried there (R138). -/
def deliver (s : State) (i : Nat) : State :=
  match s.mail[i]? with
  | none => s
  | some m =>
    let src := nibIdOf m.src
    let sv := nibOf s src
    let q := field m.dst 15 8
    let dn : NibId := ⟨halfOf (field m.dst 16 16), quireFin q, ⟨field m.dst 7 4 % 16, Nat.mod_lt _ (by decide)⟩⟩
    let b := field m.dst 3 0
    let gone (s : State) : State := settleStop { s with mail := dropAt s.mail i } src
    if !alive s || storesBefore sv m.dst || (s.mail.take i).any (fun p => p.src = m.src && p.dst = m.dst) then s
    else if field m.dst 31 17 ≠ 0 || 143 < q || quireFenced s dn.quire then
      let v := freeMsend sv m.dst
      gone (setNib s src { v with bstat := v.bstat ||| 8 })
    else
      let v := nibOf s dn
      let held := (inkOf s dn.quire).held.any fun r => r.nib = dn.n && r.mbox.toNat = b
      let lower := s.mail.any fun p => p.tried && p.dst = m.dst && decide (p.src < m.src)
      if v.mailFull b || held || lower then { s with mail := s.mail.set i { m with tried := true } }
      else gone (mailTo (setNib s src (freeMsend sv m.dst)) dn b m.bytes)

def execMailboxDelivery (i : Nat) (s : State) : Out := .next (deliver s i)

/-! ### The QDMA engine (R130, R131) -/

/-- Whether a descriptor breaks a rule of R130. -/
def qdmaBad (b : List Byte) : Bool :=
  let loc := bget b 0 4
  let row := bget b 4 4
  let rows := bget b 0x10 2
  loc % 32 ≠ 0 || row % 32 ≠ 0 || row = 0 || bget b 8 8 % 32 ≠ 0 || 2 ^ 48 ≤ bget b 8 8 || rows = 0
  || bget b 0x12 2 / 2 ≠ 0 || bget b 0x14 4 % 32 ≠ 0 || bget b 0x1C 4 ≠ 0 || lsSize < loc + rows * row

/-- Move the pieces of a transfer in order: (local address, virtual address, bytes). -/
def qdmaMove (n : NibId) (toMem : Bool) : List (Nat × Nat × Nat) → Nat → State → State × Nat × BitVec 8
  | [], k, s => (s, k, stOk)
  | (l, va, c) :: t, k, s =>
    match xlate s n.h (nibOf s n).space va toMem with
    | (s, none) => (s, k, stTranslation)
    | (s, some pa) =>
      if mappedAt s pa then
        let s :=
          if toMem then
            let s := lsCheck s n l c
            let v := nibOf s n
            unitWrite s pa (bgetRange v.ls l c) (lsPoisoned v l c)
          else
            let r := unitRead s (pa / 128)
            lsStore r.1 n l (bslice r.2.1 (pa % 128) c) r.2.2
        qdmaMove n toMem t (k + c) s
      else (s, k, stBus)

/-- The pieces of a transfer, by rows and lines; addresses past 48 bits do not translate. -/
def qdmaPieces (b : List Byte) : List (Nat × Nat × Nat) :=
  let row := bget b 4 4
  (List.range (bget b 0x10 2)).flatMap fun r =>
    let va := bget b 8 8 + r * bget b 0x14 4
    (chunks va row).map fun c => (bget b 0 4 + r * row + (c.1 - va), c.1, c.2)

/-- The transfer at the head of a quire's engine is made and its STATUS written. -/
def qdmaDone (s : State) (q : QuireId) : State :=
  match sget [] s.qdma q.num with
  | [] => s
  | x :: t =>
    if !alive s || quireFenced s q then s
    else
      let n : NibId := ⟨q.h, q.q, x.nib⟩
      let d := x.desc.toNat
      let s := lsCheck s n d 32
      let v := nibOf s n
      let b := bgetRange v.ls d 32
      let r :=
        if qdmaBad b || lsPoisoned v d 32 then (s, 0, stBus)
        else qdmaMove n (bget b 0x12 1 % 2 = 1) (qdmaPieces b) 0 s
      let s := count r.1 (nibFrame n) 0x58 r.2.1
      let s := lsStore s n (d + 0x18) (leBytes 4 (r.2.2.toNat + 2 ^ 31)) false
      settleStop { s with qdma := sset s.qdma q.num t } n

def execQdmaTransferDone (q : QuireId) (s : State) : Out := .next (qdmaDone s q)

end Sys2Proof.Machine
end

