-- ==== Sys2Proof/Machine/Coherence.lean ====
section
/-! DEFINITION. The coherence protocol (11): the homes, the server-core caches and what core accesses to
memory do. Messages arrive as commands; a unit's own accesses run whole inside its commands (DESIGN CHOICE, log entry
21). Page bias is here too (R318 to R321). -/

namespace Sys2Proof.Machine
open Sys2Proof

/-! ### Names -/

/-- The home of a line: 0 and 1 the Reservoirs, 2 the Blotter. -/
def lineHome (line : Nat) : Nat := homeOf (line * 128)
/-- The key of an agent's copy of a line. -/
def copyKey (agent line : Nat) : Nat := agent * lineSpan + line
/-- An absent copy. -/
def lineNone : CLine := ⟨.i, [], false, .i, none, false, none, none, []⟩
def copyOf (s : State) (agent line : Nat) : CLine := sget lineNone s.coh.caches (copyKey agent line)
/-- Set a copy; one in I with nothing pending is not listed. -/
def setCopy (s : State) (agent line : Nat) (c : CLine) : State :=
  let k := copyKey agent line
  { s with coh := { s.coh with
    caches := if c.st = .i && c.op.isNone && c.more.isEmpty then sdel s.coh.caches k else sset s.coh.caches k c } }
/-- Set a filter entry; an empty one is freed. -/
def setFilter (s : State) (line : Nat) (e : FEnt) : State :=
  { s with coh := { s.coh with
    filter := if e.holders.isEmpty then sdel s.coh.filter line else sset s.coh.filter line e } }
def transOf (s : State) (line : Nat) : Option Trans := (s.coh.trans.find? fun p => p.1 = line).map Prod.snd
def setTrans (s : State) (line : Nat) (t : Trans) : State :=
  { s with coh := { s.coh with trans := sset s.coh.trans line t } }
/-- Where an agent or home stands (R322): 0 and 1 the halves, 2 the Blotter. -/
def agentPlace (a : Nat) : Nat :=
  if a < 96 then a / 48 else if a < 106 then a % 2 else if a = 106 then 2 else if a < 256 then a - 108 else (a - 256) / 144

/-- A coherence message leaves with the bytes it carries: on its channel of a link where its ends stand apart (R325). -/
def cohSendData (s : State) (m : CohMsg) (src dst line : Nat) (d : List Byte) : State :=
  send (linkSend s (agentPlace src) (agentPlace dst) m.chan (.coh m) src dst (line * 128) d) (.coh m src dst line)
def cohSend (s : State) (m : CohMsg) (src dst line : Nat) : State := cohSendData s m src dst line []
def homeId (line : Nat) : Nat := homeAgent (lineHome line)
/-- A message that the protocol does not provide for (R325, R340). -/
def protoError (s : State) (agent line : Nat) : State := domainDown s 1 (lineHome line) agent (line * 128)
/-- An operation on a line looks an entry up: the home's filter, bias or tracker entry under its own ID, or the L2 tag of
a core. An uncorrectable error in it takes the domain down (R340 cause 7). -/
def tagCheck (s : State) (agent line : Nat) (go : State) : State :=
  if alive s && s.coh.badTags.contains (copyKey agent line) then domainDown s 7 (lineHome line) agent (line * 128) else go
/-- A bit list as bytes. -/
def maskBytes (l : List Bool) : List Byte :=
  (List.range (l.length / 8 + 1)).map fun i => BitVec.ofNat 8 ((List.range 8).foldl (fun n j => if l.getD (8 * i + j) false then n + 2 ^ j else n) 0)
/-- The bytes that a request carries (R325): an atomic's operands, or a partial write's bytes and mask. -/
def amoBytes (wide : Bool) (value expect : BitVec 64) : List Byte :=
  leBytes (if wide then 8 else 4) value.toNat ++ leBytes (if wide then 8 else 4) expect.toNat
def partBytes (data : List (Option Byte)) : List Byte := data.map (·.getD 0) ++ maskBytes (data.map Option.isSome)
/-- A core's state changed. -/
def coreKey (n : Nat) (f : Core → Core) (s : State) : State := setCore s n (f (coreOf s n))
/-- A core loses a copy: its reservation on the line breaks (R338). -/
def breakLr (s : State) (agent line : Nat) : State :=
  { s with cores := s.cores.map fun p => if p.1 = agent ∧ p.2.lr = some line then (p.1, { p.2 with lr := none }) else p }

/-! ### Page bias (R318 to R321) -/

def biasPage (line : Nat) : Nat := line / 512
/-- Whether a line lies in a device-bias page. -/
def deviceBias (s : State) (line : Nat) : Bool := s.bias.contains (biasPage line)
/-- Whether a flip to device of the line's page is in progress. -/
def flipPending (s : State) (line : Nat) : Bool :=
  s.coh.flips.any fun f => f.device && decide (f.page ≤ biasPage line ∧ biasPage line < f.page + f.pages)
def pageMapped (s : State) (p : Nat) : Bool := mappedAt s (p * 65536)
/-- The MEM frame of an HBM page; a second-tier page has no flip counters. -/
def countFlip (s : State) (page off n : Nat) : State :=
  if page * 65536 < 2 ^ 41 then count s (.mem (halfOf (page * 65536 / 2 ^ 40))) off n else s

/-- A copy is taken for a flip to device: dirty data goes to the home first. A request on its way stays, and meets the
finished flip (R321); an upgrade loses its copy. -/
def takeCopy (s : State) (p : Nat × CLine) : State :=
  let a := p.1 / lineSpan
  let line := p.1 % lineSpan
  match p.2.st with
  | .m => setCopy (breakLr (wrLine s (line * 128) p.2.data p.2.poison) a line) a line { p.2 with st := .i, prev := .i }
  | .e | .f | .s => setCopy (breakLr s a line) a line { p.2 with st := .i, prev := .i }
  | .sma => setCopy (breakLr s a line) a line { p.2 with st := .imd, prev := .i, data := [] }
  | _ => s

/-- A flip performed (R319): pages changed and dirty lines written back are reported. -/
def doFlip (s : State) (f : Flip) : State :=
  let pages := ((List.range f.pages).map (f.page + ·)).filter fun p => pageMapped s p && s.bias.contains p != f.device
  let inFlip (line : Nat) : Bool := pages.contains (biasPage line)
  let copies := if f.device then s.coh.caches.filter fun p => inFlip (p.1 % lineSpan) else []
  let dirty := (copies.filter fun p => p.2.st = .m).length
  let s := copies.foldl takeCopy s
  let s := if f.device then { s with coh := { s.coh with filter := s.coh.filter.filter fun p => !inFlip p.1 } } else s
  let s := { s with bias := if f.device then pages.foldl ninsert s.bias else s.bias.filter fun p => !pages.contains p }
  report (countFlip s f.page 0x68 pages.length) f.out stOk pages.length dirty

/-- Whether a transaction, or a writeback on its way, holds a line of a flip's range (R319, R321). -/
def flipBusy (s : State) (f : Flip) : Bool :=
  let within (line : Nat) : Bool := decide (f.page ≤ biasPage line ∧ biasPage line < f.page + f.pages)
  s.coh.trans.any (fun p => within p.1) ||
    (f.device && s.coh.caches.any fun p => p.2.st = .mia && dirtyCopy s p && within (p.1 % lineSpan))

/-- Perform the flips that no transaction holds back, in order of arrival (R321). -/
def settleFlips : Nat → State → State
  | 0, s => s
  | fuel + 1, s =>
    match s.coh.flips with
    | [] => s
    | f :: rest =>
      if flipBusy s f then s else settleFlips fuel (doFlip { s with coh := { s.coh with flips := rest } } f)

/-- BIAS_FLIP (R319); an entry of its range that is in error takes the domain down (R340). -/
def runBiasFlip (poison : Bool) (c : JCmd) (s : State) : State :=
  let base := bget c.body 0 8
  let n := bget c.body 8 4
  let b := bget c.body 12 4
  let last := base + 65536 * n - 1
  let window := (base < 2 ^ 41 && base / 2 ^ 40 = last / 2 ^ 40) || (tier2 ≤ base && last < 2 * tier2)
  let bad := base % 65536 ≠ 0 || n = 0 || 2 ^ 24 < n || 2 ≤ b || !window
  let broken := s.coh.badTags.find? fun k =>
    k / lineSpan = homeId (k % lineSpan) && decide (base ≤ k % lineSpan * 128 ∧ k % lineSpan * 128 < base + 65536 * n)
  gate s c 0x70 poison false bad false false fun id s => match broken with
  | some k => tagCheck s (homeId (k % lineSpan)) (k % lineSpan) s
  | none =>
    let s := { s with coh := { s.coh with flips := s.coh.flips ++ [⟨id, base / 65536, n, b = 1⟩] } }
    settleFlips s.coh.flips.length s

def execBiasFlip (c : JCmd) (s : State) : Out := .next (runBiasFlip false c s)

/-! ### The home: refusals (R332 to R335) -/

/-- Transactions of the home of a line. -/
def trackerUse (s : State) (line : Nat) : Nat := (s.coh.trans.filter fun p => lineHome p.1 = lineHome line).length

/-- Whether a home refuses a request (R321, R333). -/
def homeRefuses (s : State) (agent line : Nat) : Bool :=
  shas s.coh.trans line || 4096 ≤ trackerUse s line
  || (shas s.coh.resv line && sget 0 s.coh.resv line ≠ agent)
  || (agent < 96 && flipPending s line)

/-- The lines that take an entry of a snoop filter: those listed, and those whose transaction lists them (R323). -/
def filterLines (s : State) : List Nat :=
  let listed := s.coh.filter.map Prod.fst
  listed ++ ((s.coh.trans.filter fun p =>
    (p.2.kind = .shared || p.2.kind = .own || p.2.kind = .upgrade) && !listed.contains p.1).map Prod.fst)

/-- The lines with an entry in the set of a home's snoop filter that a line falls in (R323). -/
def filterWays (s : State) (line : Nat) : List Nat :=
  let sets := if lineHome line = 2 then 65536 else 131072
  let set_ (l : Nat) : Nat := Config.filterIndex (lineHome l) l % sets
  (filterLines s).filter fun l => lineHome l = lineHome line && set_ l = set_ line

/-- Whether a new entry for a line needs another to be freed first (R323). -/
def filterFull (s : State) (line : Nat) : Bool :=
  16 ≤ ((filterLines s).filter fun l => lineHome l = lineHome line).length && 16 ≤ (filterWays s line).length

/-- The entries that may be freed: those whose line has no transaction. -/
def filterVictims (s : State) (line : Nat) : List Nat := (filterWays s line).filter fun l => !shas s.coh.trans l

/-- Whether a line needs a new entry and no entry can be freed for it now. -/
def filterStuck (s : State) (line : Nat) : Bool :=
  (filterOf s line).holders.isEmpty && filterFull s line && (filterVictims s line).isEmpty

/-- The home refuses a request, for the 8th time or later with a reservation (R333, R335), whose 2 µs begin when the line
is free. What an agent that does not cache had refused is remembered, with its data, for its retry (R334). -/
def homeNack (s : State) (m : CohMsg) (d : List Byte) (agent line : Nat) : State :=
  let k := copyKey agent line
  let n := sget 0 s.coh.nacks k + 1
  let give := 8 ≤ n && !shas s.coh.resv line && (s.coh.resv.filter fun p => lineHome p.1 = lineHome line).length < 64
  let s := count s (cohFrameOf line) 0x48 1
  let s := if give then count s (cohFrameOf line) 0x50 1 else s
  let s := { s with coh := { s.coh with
    nacks := sset s.coh.nacks k n
    asked := if 96 ≤ agent then sset s.coh.asked k (m, d) else s.coh.asked
    replies := if 96 ≤ agent then s.coh.replies ++ [(k, true)] else s.coh.replies
    resvAt := if give && !shas s.coh.trans line then sset s.coh.resvAt line s.tick.toNat else s.coh.resvAt
    resv := if give then sset s.coh.resv line agent else s.coh.resv } }
  cohSend s (.nack give) (homeId line) agent line

/-- A request is accepted: its Nack count and its reservation end, and a core's request flips a
device-bias page to shared (R320). -/
def homeAccept (s : State) (agent line : Nat) : State :=
  let s := count s (cohFrameOf line) 0x40 1
  let s := { s with coh := { s.coh with
    nacks := sdel s.coh.nacks (copyKey agent line)
    asked := sdel s.coh.asked (copyKey agent line)
    resvAt := if sget 0 s.coh.resv line = agent then sdel s.coh.resvAt line else s.coh.resvAt
    resv := if sget 0 s.coh.resv line = agent then sdel s.coh.resv line else s.coh.resv } }
  if agent < 96 && deviceBias s line then
    countFlip { s with bias := s.bias.filter fun p => p ≠ biasPage line } (biasPage line) 0x60 1
  else s

/-! ### The home: grants (R328, R329, R337) -/

/-- A transaction ends, the 2 µs of a reservation begin, and what waited for the line may go on (R335). -/
def endTrans (s : State) (line : Nat) : State :=
  settleFlips s.coh.flips.length { s with coh := { s.coh with
    trans := sdel s.coh.trans line
    resvAt := if shas s.coh.resv line then sset s.coh.resvAt line s.tick.toNat else s.coh.resvAt } }

/-- Put data in flight to a requesting cache. -/
def giveData (s : State) (agent line : Nat) (d : List Byte) (p : Bool) : State :=
  let c := copyOf s agent line
  if c.st = .isd || c.st = .imd || c.st = .sma then setCopy s agent line { c with data := d, poison := p } else s

/-- DataCmp from the home. -/
def sendDataCmp (s : State) (agent line : Nat) (g : Grant) : State :=
  let (s, d, p) := rdLine s line
  cohSendData (giveData s agent line d p) (.dataCmp g) (homeId line) agent line d

/-- Cmp with the data read or the old value of a far atomic; the transaction ends (R325, R330, R338). -/
def sendCmp (s : State) (agent line : Nat) (b : List Byte) (p : Bool) : State :=
  let c := copyOf s agent line
  let s := if agent < 96 && (c.st = .imd || c.st = .sma) then setCopy s agent line { c with old := some (b, p) }
    else if 96 ≤ agent then { s with coh := { s.coh with replies := s.coh.replies ++ [(copyKey agent line, false)] } }
    else s
  endTrans (cohSendData s (.cmp b p) (homeId line) agent line b) line

/-- Every snoop is answered and no writeback is awaited: the grant or the completion is sent. -/
def homeGrant (s : State) (line : Nat) (t : Trans) : State :=
  let e := filterOf s line
  match t.kind with
  | .shared =>
    let g : Grant := if t.fwd || e.holders ≠ [] then .f else .e
    let s := setFilter s line ⟨ninsert e.holders t.req, some (t.req, g)⟩
    let s := setTrans s line { t with granted := true }
    if t.fwd then cohSend s .grantCmp (homeId line) t.req line else sendDataCmp s t.req line g
  | .own =>
    let s := setTrans (setFilter s line ⟨[t.req], some (t.req, .m)⟩) line { t with granted := true }
    if t.fwd then cohSend s .grantCmp (homeId line) t.req line else sendDataCmp s t.req line .m
  | .upgrade =>
    let s := setTrans (setFilter s line ⟨[t.req], some (t.req, .m)⟩) line { t with granted := true }
    cohSend s .grantCmp (homeId line) t.req line
  | .cur =>
    let r := rdLine s line
    let (s, d, p) := seen r.1 line r.2
    sendCmp s t.req line d p
  | .full d p => sendCmp (setStale (wrLine s (line * 128) d p) line []) t.req line [] false
  | .partial_ a d => sendCmp (setStale (wrImage s a d false) line []) t.req line [] false
  | .atomic a wide op x expect _ =>
    let (s, d, p) := rdLine s line
    let w := if wide then 8 else 4
    let old := bget d (a % 128) w
    let new := amoVal op (8 * w) old (x.toNat % 2 ^ (8 * w)) (expect.toNat % 2 ^ (8 * w))
    let s := if p || (op = .cas && old ≠ expect.toNat % 2 ^ (8 * w)) then s else wrLine s a (leBytes w new) false
    let s := if t.req < 96 then setFilter s line ⟨[], none⟩ else s
    let s := setStale s line []
    sendCmp s t.req line (leBytes w old) p
  | .evict _ => s

/-- Every holder of an evicted line has answered: its entry is freed, and the request that needed it is
granted (R323). -/
def endEvict (s : State) (victim line : Nat) : State :=
  let s := endTrans (count (setFilter s victim ⟨[], none⟩) (cohFrameOf victim) 0x68 1) victim
  match transOf s line with
  | none => s
  | some t => homeGrant s line t

/-- Grant when nothing is awaited any more. -/
def tryGrant (s : State) (line : Nat) : State :=
  match transOf s line with
  | none => s
  | some t =>
    if t.waits.isEmpty && t.wbWait.isNone && !t.granted then
      match t.kind with
      | .evict l => endEvict s line l
      | _ => homeGrant s line t
    else s

/-- Start a transaction with its snoops. -/
def startTrans (s : State) (agent line : Nat) (kind : TKind) (snoops : List (Nat × CohMsg)) : State :=
  let s := count s (cohFrameOf line) 0x60 snoops.length
  let s := snoops.foldl (fun s x => cohSend s x.2 (homeId line) x.1 line) s
  tryGrant (setTrans s line ⟨agent, kind, snoops.map Prod.fst, none, false, false⟩) line

/-- Start the transaction of a line without an entry: in a full set an entry is freed first by an
invalidation of the home's own (R323, R328). -/
def startAlloc (s : State) (agent line : Nat) (kind : TKind) : State :=
  if filterFull s line then
    let vs := filterVictims s line
    let v := vs.getD (Config.filterVictim s.free % vs.length) 0
    let s := setTrans { s with free := s.free + 1 } line ⟨agent, kind, [], none, false, false⟩
    startTrans s (homeId v) v (.evict line) ((filterOf s v).holders.map fun x => (x, .snpInv))
  else startTrans s agent line kind []

/-- The owner a filter entry names, other than the requester. -/
def ownerOf (e : FEnt) (agent : Nat) : Option Nat :=
  match e.owner with
  | some (o, _) => if o = agent then none else some o
  | none => none

/-- A filter entry without a cache. -/
def dropHolder (e : FEnt) (a : Nat) : FEnt :=
  ⟨e.holders.filter (· ≠ a), match e.owner with | some (o, g) => if o = a then none else some (o, g) | none => none⟩

/-- RdOwn at the home: the owner forwards, and every sharer is invalidated. -/
def homeOwn (s : State) (agent line : Nat) : State :=
  let e := filterOf s line
  let o := ownerOf e agent
  if e.holders.isEmpty then startAlloc s agent line .own
  else startTrans (setFilter s line (dropHolder e agent)) agent line .own
    ((match o with | some o => [(o, CohMsg.snpFwdOwn)] | none => []) ++
      (e.holders.filter fun x => x ≠ agent && some x ≠ o).map fun x => (x, .snpInv))

/-- RdShared at the home. -/
def homeShared (s : State) (agent line : Nat) : State :=
  let e := filterOf s line
  if e.holders.isEmpty then startAlloc s agent line .shared
  else startTrans (setFilter s line (dropHolder e agent)) agent line .shared (match ownerOf e agent with | some o => [(o, CohMsg.snpFwdShared)] | none => [])

/-- Upgrade at the home. -/
def homeUpgrade (s : State) (agent line : Nat) : State :=
  let e := filterOf s line
  if e.holders.contains agent then
    startTrans s agent line .upgrade ((e.holders.filter (· ≠ agent)).map fun x => (x, .snpInv))
  else homeOwn s agent line

/-- Invalidate every holder but the requester for a write at the home, unless the page is in device
bias (R329, R331). -/
def homeInvAll (s : State) (agent line : Nat) (kind : TKind) : State :=
  let e := filterOf s line
  startTrans s agent line kind
    (if deviceBias s line then [] else (e.holders.filter (· ≠ agent)).map fun x => (x, .snpInv))

/-- Whether the home of a mapped line takes messages. -/
def homeUp (s : State) (line : Nat) : Bool := alive s && mappedAt s (line * 128)

/-- A request at its home: refused, or accepted and served. `alloc` says that it takes a filter entry, and is
refused while none can be had (DESIGN CHOICE, log entry 32). -/
def homeRequest (s : State) (m : CohMsg) (d : List Byte) (alloc : Bool) (agent line : Nat) (serve : State → State) : State :=
  if !homeUp s line then s
  else tagCheck s (homeId line) line
    (if homeRefuses s agent line || (alloc && filterStuck s line) then homeNack s m d agent line
    else serve (homeAccept s agent line))

def execRdShared (c : CoreId) (line : BitVec 41) (s : State) : Out :=
  .next (homeRequest s .rdShared [] true c.num line.toNat fun s => homeShared s c.num line.toNat)
def execRdOwn (c : CoreId) (line : BitVec 41) (s : State) : Out :=
  .next (homeRequest s .rdOwn [] true c.num line.toNat fun s => homeOwn s c.num line.toNat)
def execUpgrade (c : CoreId) (line : BitVec 41) (s : State) : Out :=
  .next (homeRequest s .upgrade [] true c.num line.toNat fun s => homeUpgrade s c.num line.toNat)

/-- Whether an agent is one that does not cache (R322). -/
def nonCaching (agent : Nat) : Bool := (96 ≤ agent && agent ≤ 106) || (256 ≤ agent && agent < 544)

/-- Whether an agent that does not cache also writes: the translation units only read (R322). -/
def writesToo (agent : Nat) : Bool := nonCaching agent && agent ≠ 104 && agent ≠ 105

/-- The holder in M of a line, or the one whose writeback is in flight (R329). -/
def dirtyHolder (s : State) (line : Nat) : Option Nat :=
  (filterOf s line).holders.find? fun a => (copyOf s a line).st = .m || (copyOf s a line).st = .mia

def execRdCur (agent : BitVec 10) (line : BitVec 41) (s : State) : Out :=
  let a := agent.toNat
  let l := line.toNat
  if nonCaching a then
    .next (homeRequest s .rdCur [] false a l fun s => startTrans s a l .cur
      (match dirtyHolder s l with | some o => if deviceBias s l then [] else [(o, CohMsg.snpCur)] | none => []))
  else .next s

def execWrFull (agent : BitVec 10) (line : BitVec 41) (data : List Byte) (poison : Bool) (s : State) : Out :=
  let a := agent.toNat
  let l := line.toNat
  if writesToo a then .next (homeRequest s .wrFull (bslice data 0 128) false a l fun s => homeInvAll s a l (.full (bslice data 0 128) poison)) else .next s

def execWrPartial (agent : BitVec 10) (addr : BitVec 48) (data : List (Option Byte)) (s : State) : Out :=
  let a := agent.toNat
  let l := addr.toNat / 128
  if writesToo a && addr.toNat % 128 + data.length ≤ 128 then
    .next (homeRequest s .wrPartial (partBytes data) false a l fun s => homeInvAll s a l (.partial_ addr.toNat data))
  else .next s

/-- Whether an atomic names a whole naturally aligned word. -/
def amoAligned (addr : BitVec 48) (wide : Bool) : Bool := addr.toNat % (if wide then 8 else 4) = 0

def execAtomicFar (agent : BitVec 10) (addr : BitVec 48) (wide : Bool) (op : AmoOp) (value expect : BitVec 64) (s : State) :
    Out :=
  let a := agent.toNat
  let l := addr.toNat / 128
  if writesToo a && amoAligned addr wide then
    .next (homeRequest s .atomicFar (amoBytes wide value expect) false a l fun s =>
      homeInvAll (count s (cohFrameOf l) 0x80 1) a l (.atomic addr.toNat wide op value expect false))
  else .next s

/-! ### AtomicReq (R338, R339) -/

/-- The predictor index of a line. -/
def predKey (line : Nat) : Nat := 4096 * (lineHome line) + ((line % 4096) ^^^ (line / 4096 % 4096))

/-- Whether the home serves an AtomicReq far. -/
def atomicFarChosen (s : State) (line : Nat) (op : AmoOp) : Bool :=
  let m := field (regWord s ((cohFrameOf line).base + 4)) 17 16
  if lineHome line = 2 || op = .lr || op = .sc then false
  else if m = 1 then false
  else if m = 2 then true
  else 2 ≤ sget 0 s.coh.pred (predKey line)

/-- The predictor after an AtomicReq has arrived (R339). -/
def predUpdate (s : State) (agent line : Nat) : State :=
  if lineHome line = 2 then s
  else
    let k := predKey line
    let v := sget 0 s.coh.pred k
    let held := match ownerOf (filterOf s line) agent with
      | some o => (copyOf s o line).st = .m || (copyOf s o line).st = .e || (copyOf s o line).st = .mia
      | none => false
    let v' := if shas s.coh.trans line || held then min 3 (v + 1) else v - 1
    { s with coh := { s.coh with pred := if v' = 0 then sdel s.coh.pred k else sset s.coh.pred k v' } }

def execAtomicReq (c : CoreId) (addr : BitVec 48) (wide : Bool) (op : AmoOp) (value expect : BitVec 64) (s : State) : Out :=
  let a := c.num
  let l := addr.toNat / 128
  if !homeUp s l || !amoAligned addr wide then .next s
  else
    let far := atomicFarChosen s l op
    .next (homeRequest (predUpdate s a l) .atomicReq (amoBytes wide value expect) (!far) a l fun s =>
      if far then
        homeInvAll (count s (cohFrameOf l) 0x80 1) a l (.atomic addr.toNat wide op value expect true)
      else homeOwn (if lineHome l = 2 then s else count s (cohFrameOf l) 0x78 1) a l)

/-! ### The home: responses, writebacks and evictions -/

/-- A snoop answer from a cache that the transaction waits for, one that its snoop allows by `ok`; any other is a
protocol error. -/
def homeAnswer (s : State) (agent line : Nat) (ok : Trans → Bool) (f : Trans → Trans) (g : FEnt → FEnt) : State :=
  if !homeUp s line then s
  else tagCheck s (homeId line) line <| match transOf s line with
  | none => protoError s agent line
  | some t =>
    if t.waits.contains agent && ok t then
      let s := setFilter s line (g (filterOf s line))
      tryGrant (setTrans s line (f { t with waits := t.waits.filter (· ≠ agent) })) line
    else protoError s agent line

/-- Whether the snoop that a transaction sent a cache is SnpInv, which alone RspI answers (R327). -/
def invSnooped (s : State) (agent line : Nat) (t : Trans) : Bool :=
  match t.kind with
  | .shared | .cur => false
  | .own => ownerOf (filterOf s line) t.req ≠ some agent
  | _ => true

def execRspI (c : CoreId) (line : BitVec 41) (s : State) : Out :=
  .next (homeAnswer s c.num line.toNat (invSnooped s c.num line.toNat) id fun e => dropHolder e c.num)
/-- Whether the snoop that a transaction sent a cache is SnpFwdShared, the one that leaves it in S (R325, R327). -/
def sharedSnooped (t : Trans) : Bool := match t.kind with | .shared => true | _ => false

/-- Whether a cache may answer with RspFwd (R327): a forwarding snoop or SnpCur, or SnpInv where it may hold the line in
M. -/
def fwdSnooped (s : State) (agent line : Nat) (t : Trans) : Bool :=
  match (filterOf s line).owner with
  | none => false
  | some (o, g) => o = agent && (match t.kind with | .shared | .own | .cur => true | _ => g ≠ .f)

def execRspS (c : CoreId) (line : BitVec 41) (s : State) : Out :=
  .next (homeAnswer s c.num line.toNat sharedSnooped id fun e => ⟨e.holders, (dropHolder e c.num).owner⟩)

/-- What a forwarding holder keeps, by the kind of the transaction (R327). -/
def afterFwd (k : TKind) (agent : Nat) (e : FEnt) : FEnt :=
  match k with
  | .shared => ⟨e.holders, (dropHolder e agent).owner⟩
  | .cur => ⟨e.holders, some (agent, .e)⟩
  | _ => dropHolder e agent

def execRspFwd (c : CoreId) (line : BitVec 41) (s : State) : Out :=
  let k := match transOf s line.toNat with | some t => t.kind | none => .own
  .next (homeAnswer s c.num line.toNat (fwdSnooped s c.num line.toNat) (fun t => { t with fwd := true }) (afterFwd k c.num))

/-- A writeback is in flight (R337): the home waits for it unless it has arrived. -/
def execRspIWbPend (c : CoreId) (line : BitVec 41) (s : State) : Out :=
  let l := line.toNat
  if !homeUp s l then .next s
  else
    let s := count s (cohFrameOf l) 0x70 1
    let owns := (filterOf s l).holders.contains c.num
    .next (homeAnswer s c.num l (fun _ => true) (fun t => if owns then { t with wbWait := some c.num } else t) id)

/-- The CBO operations of a core that wait for one of its eight writebacks (R333). -/
def cboWaits (s : State) (a : Nat) : List Nat :=
  (s.coh.caches.filter fun p => p.1 / lineSpan = a &&
    (match p.2.op with | some (.clean _) | some (.flush _) => p.2.st = .m || p.2.st = .e || p.2.st = .f | _ => false)).map fun p =>
    p.1 % lineSpan

/-- WbDirty (R333, R337): accepted whether or not the line is busy, written and acknowledged. -/
def homeWb (s : State) (a l : Nat) : State :=
  let own := match (filterOf s l).owner with | some (o, _) => o = a | none => false
  if !own then protoError s a l
  else
    let v := copyOf s a l
    if v.st ≠ .mia then s
    else
      let s := wrLine s (l * 128) v.data v.poison
      let s := cohSend (setFilter s l (dropHolder (filterOf s l) a)) .wbAck (homeId l) a l
      match transOf s l with
      | none => settleFlips s.coh.flips.length s
      | some t => if t.wbWait = some a then tryGrant (setTrans s l { t with wbWait := none }) l else s

def execWbDirty (c : CoreId) (line : BitVec 41) (s : State) : Out :=
  let l := line.toNat
  .next (if homeUp s l then tagCheck s (homeId l) l (homeWb s c.num l) else s)

/-- The key of a core's EvictClean messages to a home. -/
def evKey (a line : Nat) : Nat := 4 * a + lineHome line

/-- GrantAck ends the transaction (R328). -/
def homeAck (s : State) (a l : Nat) : State :=
  match transOf s l with
  | some t => if t.granted && t.req = a then endTrans s l else protoError s a l
  | none => protoError s a l

def execGrantAck (c : CoreId) (line : BitVec 41) (s : State) : Out :=
  let l := line.toNat
  .next (if homeUp s l then tagCheck s (homeId l) l (homeAck s c.num l) else s)

/-- A reservation lapses 2 µs after its line became free (R335). -/
def execReservationLapse (line : BitVec 41) (s : State) : Out :=
  let l := line.toNat
  if alive s && shas s.coh.resv l && !shas s.coh.trans l && decide (sget 0 s.coh.resvAt l + 2000 ≤ s.tick.toNat) then
    .next (count { s with coh := { s.coh with resv := sdel s.coh.resv l, resvAt := sdel s.coh.resvAt l } } (cohFrameOf l) 0x58 1)
  else .next s

/-- A snoop or an awaited writeback stays unanswered (R340). -/
def execSnoopTimeout (line : BitVec 41) (s : State) : Out :=
  let l := line.toNat
  match transOf s l with
  | none => .next s
  | some t =>
    match t.waits, t.wbWait with
    | a :: _, _ => .next (domainDown s 2 (lineHome l) a (l * 128))
    | [], some a => .next (domainDown s 2 (lineHome l) a (l * 128))
    | [], none => .next s

/-- A GrantAck stays out (R340). -/
def execGrantAckTimeout (line : BitVec 41) (s : State) : Out :=
  let l := line.toNat
  match transOf s l with
  | none => .next s
  | some t => if t.granted then .next (domainDown s 3 (lineHome l) t.req (l * 128)) else .next s

/-! ### Snooped caches (R327) -/

/-- A response of a cache to the home of a line, with the line where it carries one. -/
def respondData (s : State) (m : CohMsg) (agent line : Nat) (d : List Byte) : State := cohSendData s m agent (homeId line) line d
def respond (s : State) (m : CohMsg) (agent line : Nat) : State := respondData s m agent line []

/-- Forward data to a requester, and answer the home, with the line where `back` says so. -/
def forward (s : State) (agent line req : Nat) (g : Grant) (v : CLine) (back : Bool) : State :=
  respondData (cohSendData (giveData s req line v.data v.poison) (.data g) agent req line v.data) .rspFwd agent line
    (if back then v.data else [])

/-- A snoop at a cache: a writeback in flight answers for itself, and one the table does not send is
a protocol error. -/
def snoopAt (s : State) (agent line : Nat) (f : CLine → Option State) : State :=
  let v := copyOf s agent line
  if !homeUp s line then s
  else tagCheck s agent line
    (if v.st = .mia then respond s .rspIWbPend agent line
    else match f v with
    | some s => s
    | none => protoError s agent line)

def execSnpFwdShared (c : CoreId) (line : BitVec 41) (req : CoreId) (s : State) : Out :=
  let a := c.num
  let l := line.toNat
  .next (snoopAt s a l fun v =>
    match v.st with
    | .m => some (setCopy (forward (wrLine s (l * 128) v.data v.poison) a l req.num .f v true) a l { v with st := .s, prev := .s })
    | .e | .f => some (setCopy (forward s a l req.num .f v false) a l { v with st := .s, prev := .s })
    | _ => none)

def execSnpFwdOwn (c : CoreId) (line : BitVec 41) (req : CoreId) (s : State) : Out :=
  let a := c.num
  let l := line.toNat
  .next (snoopAt s a l fun v =>
    match v.st with
    | .m | .e | .f => some (breakLr (setCopy (forward s a l req.num .m v false) a l { v with st := .i, prev := .i }) a l)
    | _ => none)

def execSnpInv (c : CoreId) (line : BitVec 41) (s : State) : Out :=
  let a := c.num
  let l := line.toNat
  .next (snoopAt s a l fun v =>
    match v.st with
    | .m =>
      some (breakLr (setCopy (respondData (wrLine s (l * 128) v.data v.poison) .rspFwd a l v.data) a l { v with st := .i, prev := .i }) a l)
    | .e | .f | .s | .i => some (breakLr (setCopy (respond s .rspI a l) a l { v with st := .i, prev := .i }) a l)
    | .sma => some (breakLr (setCopy (respond s .rspI a l) a l { v with st := .imd, prev := .i, data := [] }) a l)
    | _ => none)

def execSnpCur (c : CoreId) (line : BitVec 41) (s : State) : Out :=
  let a := c.num
  let l := line.toNat
  .next (snoopAt s a l fun v =>
    match v.st with
    | .m => some (setCopy (respondData (wrLine s (l * 128) v.data v.poison) .rspFwd a l v.data) a l { v with st := .e })
    | _ => none)

/-! ### Core accesses (R322, R326, R338) -/

/-- The exceptions of server cores that memory raises (R301, R308): load and store access fault,
hardware error. -/
def excLoad : Nat := 5
def excStore : Nat := 7
def excHw : Nat := 19

def CoreOp.addr : CoreOp → Nat
  | .load a _ => a.toNat
  | .store a _ _ => a.toNat
  | .atomic a _ _ _ _ => a.toNat
  | .zero a | .clean a | .flush a => a.toNat

/-- The access fault that an operation takes. -/
def CoreOp.fault : CoreOp → Nat
  | .load _ _ => excLoad
  | .atomic _ _ .lr _ _ => excLoad
  | _ => excStore

/-- Whether an operation writes. -/
def CoreOp.writes : CoreOp → Bool
  | .load _ _ => false
  | _ => true


/-- Perform an operation on a copy in a state that allows it: E or M for a write or an atomic, which leave it in M, any valid
state for a load (R326). LR takes a reservation, and SC needs one (R338). What a core writes comes after the writes that
reached the home before it (R182). -/
def coreDo (s : State) (a line : Nat) (v : CLine) (op : CoreOp) : State :=
  let off := op.addr % 128
  let keep := { v with op := none, got := none, comp := false }
  let put (b : List Byte) (o : Nat) : CLine := { keep with st := .m, data := patch v.data o b }
  let setM (s : State) (c : CLine) : State := setStale (setCopy s a line c) line []
  if v.poison then coreExc (setCopy s a line keep) a excHw
  else match op with
  | .load _ w =>
    let r := seen (setCopy s a line keep) line (v.data, false)
    if r.2.2 then coreExc r.1 a excHw else coreResult r.1 a (bget r.2.1 off (2 ^ w.val))
  | .store _ w x => coreKey a (fun c => { c with exc := none }) (setM s (put (leBytes (2 ^ w.val) x.toNat) off))
  | .clean _ | .flush _ => setCopy s a line keep
  | .zero _ => coreKey a (fun c => { c with exc := none }) (setM s (put (List.replicate 64 0) (off / 64 * 64)))
  | .atomic _ wide .lr _ _ =>
    coreKey a (fun c => { c with lr := some line }) (coreResult (setM s { keep with st := .m }) a (bget v.data off (if wide then 8 else 4)))
  | .atomic _ wide .sc x _ =>
    if (coreOf s a).lr = some line then
      coreKey a (fun c => { c with lr := none })
        (coreResult (setM s (put (leBytes (if wide then 8 else 4) x.toNat) off)) a 0)
    else coreResult (setCopy s a line keep) a 1
  | .atomic _ wide o x e =>
    let w := if wide then 8 else 4
    let old := bget v.data off w
    coreResult (setM s (put (leBytes w (amoVal o (8 * w) old (x.toNat % 2 ^ (8 * w)) (e.toNat % 2 ^ (8 * w)))) off)) a old

/-- Whether a stable copy serves an operation at once (R326). -/
def copyServes (st : CSt) (op : CoreOp) : Bool :=
  match st with
  | .m | .e => true
  | .s | .f => !op.writes
  | _ => false

/-- A cache-block operation that gives a line back: CLEAN, or FLUSH as `true`. -/
def CoreOp.cbo : CoreOp → Option Bool
  | .clean _ => some false
  | .flush _ => some true
  | _ => none

/-- The request that a stable copy sends for an operation, and the state it enters (R326). -/
def copyRequest (st : CSt) (op : CoreOp) : CohMsg × CSt :=
  let sharer := st = .s || st = .f
  match op with
  | .load _ _ => (.rdShared, .isd)
  | .atomic .. => (.atomicReq, if sharer then .sma else .imd)
  | _ => if sharer then (.upgrade, .sma) else (.rdOwn, .imd)

/-- The operand that AtomicReq carries (R325). -/
def CoreOp.operand : CoreOp → List Byte
  | .atomic _ wide _ x e => amoBytes wide x e
  | _ => []

/-- Writebacks and EvictClean messages of a core to the home of a line that are outstanding (R333). -/
def wbOut (s : State) (a line : Nat) : Nat :=
  (s.coh.caches.filter fun p => p.1 / lineSpan = a && p.2.st = .mia && lineHome (p.1 % lineSpan) = lineHome line).length
    + sget 0 s.coh.evOut (evKey a line)

/-- A copy in a stable state leaves the cache (R326): silently, by EvictClean or by WbDirty; none where eight are
outstanding to the home. -/
def giveUp (s : State) (a line : Nat) (v : CLine) : Option State :=
  let gone : CLine := { v with st := .i, prev := .i }
  match v.st with
  | .s => some (breakLr (setCopy s a line gone) a line)
  | .e | .f =>
    if 8 ≤ wbOut s a line then none
    else
      let s := cohSend (setCopy s a line gone) .evictClean a (homeId line) line
      some (breakLr { s with coh := { s.coh with evOut := sset s.coh.evOut (evKey a line) (sget 0 s.coh.evOut (evKey a line) + 1) } } a line)
  | .m =>
    if 8 ≤ wbOut s a line then none
    else some (breakLr (cohSendData (setCopy s a line { v with st := .mia, prev := .i }) .wbDirty a (homeId line) line v.data) a line)
  | _ => some s

/-- CBO.CLEAN and CBO.FLUSH of the issuing core's line (R322; DESIGN CHOICE, log entry 32): clean writes a dirty line
back, flush gives every copy up. -/
def cboDo (s : State) (a line : Nat) (v : CLine) (op : CoreOp) (flush : Bool) : State :=
  let s := coreKey a (fun c => { c with exc := none }) s
  if flush || v.st = .m then (giveUp s a line v).getD (setCopy s a line { v with op := some op }) else s

/-- An operation of a core at its copy, which nothing waits for (R326): performed, sent on as a request, again with its
count after a Nack (R334), or kept until a writeback is acknowledged. -/
def coreStep (s : State) (a : Nat) (op : CoreOp) : State :=
  let line := op.addr / 128
  let v := copyOf s a line
  let scFails : Bool := match op with
    | .atomic _ _ .sc _ _ => (coreOf s a).lr != some line
    | _ => false
  let cbo := op.cbo
  if scFails then coreResult s a 1
  else if cbo.isNone && copyServes v.st op then coreDo s a line v op
  else if !alive s then coreExc s a op.fault
  else match v.st, cbo with
  | .isd, _ | .imd, _ | .sma, _ => setCopy s a line { v with op := some op }
  | _, some fl => cboDo s a line v op fl
  | .mia, none => setCopy s a line { v with op := some op }
  | _, none =>
    let r := copyRequest v.st op
    let n := sget 0 s.coh.nacks (copyKey a line)
    cohSendData (setCopy s a line { v with
        st := r.2, prev := v.st, op := some op, got := none, comp := false, data := if r.2 = .sma then v.data else [] })
      (if n = 0 then r.1 else .again n r.1) a (homeId line) line op.operand

/-- The operations that wait behind a copy's first go on in order, while nothing holds them (R326). -/
def coreDrain : Nat → State → Nat → Nat → State
  | 0, s, _, _ => s
  | fuel + 1, s, a, line =>
    let v := copyOf s a line
    match v.op, v.more with
    | none, op :: t => coreDrain fuel (coreStep (setCopy s a line { v with more := t }) a op) a line
    | _, _ => s

/-- The same, with fuel for all of them. -/
def coreNext (s : State) (a line : Nat) : State := coreDrain (copyOf s a line).more.length s a line

/-- An operation of a core (R326): behind another of its line it waits, unless the copy serves it where it is; after
domain-down nothing ends that wait, and it raises an access fault (R341). -/
def coreAccess (s : State) (a : Nat) (op : CoreOp) : State :=
  let line := op.addr / 128
  let v := copyOf s a line
  if !mappedAt s op.addr then coreExc s a op.fault
  else tagCheck s a line
    (if v.op.isNone then coreStep s a op
    else if op.cbo.isNone && copyServes v.st op then
      let s := coreDo s a line v op
      setCopy s a line { copyOf s a line with op := v.op }
    else if alive s then setCopy s a line { v with more := v.more ++ [op] }
    else coreExc s a op.fault)

/-- Send again what a stable copy's operation needs, or perform it. -/
def coreRetry (s : State) (a line : Nat) : State :=
  let v := copyOf s a line
  match v.op with
  | none => coreNext s a line
  | some op => coreNext (coreStep (setCopy s a line { v with op := none }) a op) a line

/-- A place among a core's eight is free again, and its CBO operations that waited go on (R333). -/
def kickCbo (s : State) (a : Nat) : State := (cboWaits s a).foldl (fun s l => coreRetry s a l) s

/-- An eviction that the cache makes of a copy nothing waits on. -/
def evict (s : State) (a line : Nat) : State :=
  let v := copyOf s a line
  if !alive s || v.op.isSome then s else tagCheck s a line ((giveUp s a line v).getD s)

def execCacheEviction (c : CoreId) (line : BitVec 41) (s : State) : Out := .next (evict s c.num line.toNat)

/-- EvictClean: the filter drops the holder. -/
def homeEvict (s : State) (a l : Nat) : State :=
  let k := evKey a l
  let n := sget 0 s.coh.evOut k
  let s := setFilter s l (dropHolder (filterOf s l) a)
  kickCbo { s with coh := { s.coh with evOut := if n ≤ 1 then sdel s.coh.evOut k else sset s.coh.evOut k (n - 1) } } a

def execEvictClean (c : CoreId) (line : BitVec 41) (s : State) : Out :=
  let l := line.toNat
  .next (if homeUp s l then tagCheck s (homeId l) l (homeEvict s c.num l) else s)

/-- Whether a server core runs (R445). -/
def coreRuns (s : State) (c : CoreId) : Bool := (coreOf s c.num).running

def execCboClean (c : CoreId) (addr : BitVec 48) (s : State) : Out :=
  .next (if coreRuns s c then coreAccess s c.num (.clean addr) else s)
def execCboFlush (c : CoreId) (addr : BitVec 48) (s : State) : Out :=
  .next (if coreRuns s c then coreAccess s c.num (.flush addr) else s)
/-- CBO.INVAL acts as CBO.FLUSH (R322). -/
def execCboInval (c : CoreId) (addr : BitVec 48) (s : State) : Out :=
  .next (if coreRuns s c then coreAccess s c.num (.flush addr) else s)
def execCboZero (c : CoreId) (addr : BitVec 48) (s : State) : Out :=
  if coreRuns s c then .next (coreAccess s c.num (.zero addr)) else .next s
def execCoreAtomic (c : CoreId) (addr : BitVec 48) (wide : Bool) (op : AmoOp) (value expect : BitVec 64) (s : State) : Out :=
  if coreRuns s c && amoAligned addr wide then .next (coreAccess s c.num (.atomic addr wide op value expect)) else .next s

/-! ### Requesters: grants and refusals (R326, R333, R334) -/

/-- Whether a copy's request is answered with data (R328): an Upgrade of a line still held is not. -/
def dataDue (v : CLine) : Bool :=
  v.st ≠ .sma || (match v.op with | some (.atomic ..) => true | _ => false)

/-- A grant may be complete: the new state is taken, GrantAck is sent and the operation performed. -/
def settleGrant (s : State) (a line : Nat) : State :=
  let v := copyOf s a line
  if v.comp && (v.got.isSome || !dataDue v) then
    let st : CSt := match v.got with | some .e => .e | some .f => .f | _ => .m
    let v' := { v with st := st, prev := st, got := none, comp := false }
    let s := respond (setCopy s a line v') .grantAck a line
    match v.op with
    | none => coreNext s a line
    | some op => coreNext (coreDo s a line v' op) a line
  else s

/-- A grant's part arrives at a cache that waits for it and whose state `ok` says it may be granted; any other is a
protocol error. -/
def grantPart (s : State) (a line : Nat) (ok : CSt → Bool) (f : CLine → CLine) : State :=
  let v := copyOf s a line
  if !alive s then s
  else tagCheck s a line
    (if (v.st = .isd || v.st = .imd || v.st = .sma) && ok v.st then settleGrant (setCopy s a line (f v)) a line
    else protoError s a line)

/-- The states that R328 grants: M for ownership, else E or F, and E only from the home. -/
def grantFits (home : Bool) (g : Grant) (st : CSt) : Bool :=
  if st = .isd then g = .f || (home && g = .e) else g = .m

def execData (c : CoreId) (line : BitVec 41) (g : Grant) (s : State) : Out :=
  .next (grantPart s c.num line.toNat (grantFits false g) fun v => { v with got := some g })
def execDataCmp (c : CoreId) (line : BitVec 41) (g : Grant) (s : State) : Out :=
  .next (grantPart s c.num line.toNat (grantFits true g) fun v => { v with got := some g, comp := true })
def execGrantCmp (c : CoreId) (line : BitVec 41) (s : State) : Out :=
  .next (grantPart s c.num line.toNat (fun _ => true) fun v => { v with comp := true })

/-- WbAck: a copy in MI_A enters I, and an operation that waited goes on (R326). -/
def execWbAck (c : CoreId) (line : BitVec 41) (s : State) : Out :=
  let l := line.toNat
  let v := copyOf s c.num l
  if !alive s then .next s
  else .next (tagCheck s c.num l
    (if v.st = .mia then kickCbo (coreRetry (setCopy s c.num l { v with st := .i, prev := .i }) c.num l) c.num
    else protoError s c.num l))

/-- The delay before the retry that follows the n-th Nack, in ticks (R334). -/
def backoff (n : Nat) : Nat := min 1024 (16 * 2 ^ (n - 1))

/-- A response to an agent that does not cache: one that answers no request of its is a protocol error (R325). -/
def replyTo (s : State) (agent line : Nat) (nack : Bool) (f : State → State) : State :=
  match findIdx? (fun x => x = (copyKey agent line, nack)) s.coh.replies with
  | some i => f { s with coh := { s.coh with replies := dropAt s.coh.replies i } }
  | none => protoError s agent line

/-- A Nack (R326, R334): the copy returns to its state, and a retry is due after the backoff. -/
def execNack (agent : BitVec 10) (line : BitVec 41) (_reserved : Bool) (s : State) : Out :=
  let a := agent.toNat
  let l := line.toNat
  let k := copyKey a l
  let due := s.tick.toNat + backoff (max 1 (sget 0 s.coh.nacks k))
  let wait (s : State) : State := { s with coh := { s.coh with retryAt := sset s.coh.retryAt k due } }
  let v := copyOf s a l
  if !alive s then .next s
  else if 96 ≤ a then .next (if nonCaching a then replyTo s a l true wait else s)
  else .next (tagCheck s a l
    (if v.st = .isd || v.st = .imd || v.st = .sma then wait (setCopy s a l { v with st := v.prev, got := none, comp := false })
    else protoError s a l))

/-- The backoff ends and the requester retries with its count (R334). -/
def execNackRetry (agent : BitVec 10) (line : BitVec 41) (s : State) : Out :=
  let a := agent.toNat
  let l := line.toNat
  let k := copyKey a l
  if alive s && shas s.coh.retryAt k && decide (sget 0 s.coh.retryAt k ≤ s.tick.toNat) then
    let s := { s with coh := { s.coh with retryAt := sdel s.coh.retryAt k } }
    if a < 96 then .next (coreRetry s a l)
    else match (s.coh.asked.find? fun p => p.1 = k) with
    | some p => .next (cohSendData s (.again (sget 0 s.coh.nacks k) p.2.1) a (homeId l) l p.2.2)
    | none => .next s
  else .next s

/-- Cmp: a far atomic of a core returns its old value, and its copy ends in I; a quire's posted store is acknowledged; any
other agent that does not cache takes what it asked for (R325, R330, R338, R126). -/
def execCmp (agent : BitVec 10) (line : BitVec 41) (s : State) : Out :=
  let a := agent.toNat
  let l := line.toNat
  let store := if 256 ≤ a && a < 544 then storeOut s ⟨halfOf ((a - 256) / 144), quireFin (a - 256)⟩ l else none
  if !alive s then .next s
  else if a < 96 then
    let v := copyOf s a l
    .next (tagCheck s a l <| match v.op, v.old with
    | some (.atomic _ wide _ _ _), some (b, p) =>
      if v.st = .imd || v.st = .sma then
        let s := breakLr (setCopy s a l { lineNone with more := v.more }) a l
        coreNext (if p then coreExc s a excHw else coreResult s a (bget b 0 (if wide then 8 else 4))) a l
      else protoError s a l
    | _, _ => protoError s a l)
  else match store with
  | some x => .next (storeAck s x.1 x.2)
  | none => .next (if nonCaching a then replyTo s a l false id else s)

/-! ### The order of messages of one cycle (R322, R336) -/

/-- A message that reaches a home: whether it is a request, its agent and its line. -/
def homeMsg : Instr → Option (Bool × Nat × Nat)
  | .rspI c l | .rspS c l | .rspFwd c l | .rspIWbPend c l | .grantAck c l | .wbDirty c l | .evictClean c l => some (false, c.num, l.toNat)
  | .rdShared c l | .rdOwn c l | .upgrade c l => some (true, c.num, l.toNat)
  | .atomicReq c a _ _ _ _ => some (true, c.num, a.toNat / 128)
  | .rdCur a l | .wrFull a l _ _ => some (true, a.toNat, l.toNat)
  | .wrPartial a d _ | .atomicFar a d _ _ _ _ => some (true, a.toNat, d.toNat / 128)
  | _ => none

/-- The place of a message among those that reach a home in one cycle: answers, GrantAck, WbDirty and EvictClean first,
then a request that holds its line's reservation, then requests by ascending agent ID (R336). -/
def arrivalKey (s : State) (i : Instr) : Nat :=
  match homeMsg i with
  | some (true, a, l) => if shas s.coh.resv l && sget 0 s.coh.resv l = a then 1 else 2 + a
  | _ => 0

/-- Put a message behind those that go before it. -/
def arrivalInsert (s : State) (i : Instr) : List Instr → List Instr
  | [] => [i]
  | j :: t => if arrivalKey s i < arrivalKey s j then i :: j :: t else j :: arrivalInsert s i t

/-- The messages that reach the homes in one Vellum cycle join the queue in the order of R336. A sender puts what one
cycle brings into the queue with this operation (log entry 13). -/
def arrive (s : State) (l : List Instr) : State :=
  { s with pending := s.pending ++ l.foldl (fun r i => arrivalInsert s i r) [] }

end Sys2Proof.Machine
end

