-- ==== Sys2Proof/Machine/Inflate.lean ====
section
/-! DEFINITION. The inflaters (R365, R367, R382): raw DEFLATE, zlib and gzip. The manual defines these
formats by RFC 1951, RFC 1950 and RFC 1952; their content stands here as those documents give it
(PRESUMED, log entry 11). -/

namespace Sys2Proof.Machine
open Sys2Proof

/-! ### Bits and prefix codes -/

/-- The bits of bytes, least significant first. -/
def lsbBits (b : List Byte) : List Bool := b.flatMap fun x => (List.range 8).map fun i => x.getLsbD i

/-- A number of `n` bits, the first the least significant. -/
def takeLsb : Nat → List Bool → Option (Nat × List Bool)
  | 0, l => some (0, l)
  | _ + 1, [] => none
  | n + 1, b :: t =>
    match takeLsb n t with
    | none => none
    | some (v, r) => some (b.toNat + 2 * v, r)

/-- A canonical prefix code: how many codes each length has, from 1 on, and the symbols in code order. -/
structure PrefixCode where
  counts : List Nat
  syms : List Nat
  deriving DecidableEq, Repr

/-- The canonical code of the lengths of symbols 0, 1, 2, and so on, up to `m` bits. -/
def prefixCode (m : Nat) (lens : List Nat) : PrefixCode where
  counts := (List.range m).map fun i => lens.countP (· = i + 1)
  syms := (List.range m).flatMap fun i => (lens.zipIdx.filter fun p => p.1 = i + 1).map (·.2)

/-- Code points left unused by a set of lengths, negative when there are too many. -/
def codeLeft (lens : List Nat) : Int :=
  (List.range 15).foldl (fun left i => 2 * left - (lens.countP (· = i + 1) : Nat)) (1 : Int)

/-- Whether lengths make a code: complete, empty, or (but for the code of the code lengths) one code of
one bit (RFC 1951, section 3.2.7). -/
def codeOk (strict : Bool) (lens : List Nat) : Bool :=
  codeLeft lens = 0 || lens.all (· = 0) || (!strict && lens.all (· ≤ 1) && lens.countP (· = 1) = 1)

/-- Read one symbol: `code` counts the code points of the length at hand, `first` is its first code and
`idx` the index of that code's symbol. -/
def readSym (syms : List Nat) : List Nat → Nat → Nat → Nat → List Bool → Option (Nat × List Bool)
  | n :: ns, code, first, idx, b :: t =>
    let c := code + b.toNat
    if c < first + n then
      match syms[idx + (c - first)]? with
      | none => none
      | some x => some (x, t)
    else readSym syms ns (2 * c) (2 * (first + n)) (idx + n) t
  | _, _, _, _, _ => none

def PrefixCode.read (c : PrefixCode) (l : List Bool) : Option (Nat × List Bool) := readSym c.syms c.counts 0 0 0 l

/-! ### DEFLATE (RFC 1951) -/

/-- Output so far, newest byte first, and how many bytes. -/
structure Inf where
  out : List Byte
  n : Nat
  deriving DecidableEq, Repr

def Inf.put (o : Inf) (b : Byte) : Inf := ⟨b :: o.out, o.n + 1⟩

/-- Copy `len` bytes from `dist` back. -/
def Inf.copy (o : Inf) (dist : Nat) : Nat → Inf
  | 0 => o
  | n + 1 => (o.put (o.out.getD (dist - 1) 0)).copy dist n

/-- Base and extra bits of the length symbols from 257 on. -/
def lenTab : List (Nat × Nat) :=
  [(3, 0), (4, 0), (5, 0), (6, 0), (7, 0), (8, 0), (9, 0), (10, 0), (11, 1), (13, 1), (15, 1), (17, 1), (19, 2), (23, 2),
    (27, 2), (31, 2), (35, 3), (43, 3), (51, 3), (59, 3), (67, 4), (83, 4), (99, 4), (115, 4), (131, 5), (163, 5),
    (195, 5), (227, 5), (258, 0)]

/-- Base and extra bits of the distance symbols. -/
def distTab : List (Nat × Nat) :=
  [(1, 0), (2, 0), (3, 0), (4, 0), (5, 1), (7, 1), (9, 2), (13, 2), (17, 3), (25, 3), (33, 4), (49, 4), (65, 5), (97, 5),
    (129, 6), (193, 6), (257, 7), (385, 7), (513, 8), (769, 8), (1025, 9), (1537, 9), (2049, 10), (3073, 10), (4097, 11),
    (6145, 11), (8193, 12), (12289, 12), (16385, 13), (24577, 13)]

/-- A value given by a table of bases and extra bits. -/
def readExtra (tab : List (Nat × Nat)) (i : Nat) (l : List Bool) : Option (Nat × List Bool) :=
  match tab[i]? with
  | none => none
  | some (b, e) =>
    match takeLsb e l with
    | none => none
    | some (v, r) => some (b + v, r)

/-- A length and a distance after the length's symbol. -/
def readMatch (dist : PrefixCode) (sym : Nat) (l : List Bool) : Option (Nat × Nat × List Bool) :=
  match readExtra lenTab (sym - 257) l with
  | none => none
  | some (len, l) =>
    match dist.read l with
    | none => none
    | some (d, l) =>
      match readExtra distTab d l with
      | none => none
      | some (d, l) => some (len, d, l)

/-- The symbols of one block, to its end or past the cap; no rest of the data when it is corrupt or the
cap is passed. -/
def infSyms (lit dist : PrefixCode) (cap : Nat) : Nat → Inf → List Bool → Inf × Option (List Bool)
  | 0, o, _ => (o, none)
  | fuel + 1, o, l =>
    if cap < o.n then (o, none)
    else match lit.read l with
    | none => (o, none)
    | some (x, l) =>
      if x = 256 then (o, some l)
      else if x < 256 then infSyms lit dist cap fuel (o.put (BitVec.ofNat 8 x)) l
      else match readMatch dist x l with
      | none => (o, none)
      | some (len, d, l) => if o.n < d then (o, none) else infSyms lit dist cap fuel (o.copy d len) l

/-- The code lengths of a dynamic block: `n` of them, newest first. -/
def readLens (c : PrefixCode) (n : Nat) : Nat → List Nat → List Bool → Option (List Nat × List Bool)
  | 0, _, _ => none
  | fuel + 1, acc, l =>
    if n = acc.length then some (acc, l)
    else if n < acc.length then none
    else match c.read l with
    | none => none
    | some (x, l) =>
      if x < 16 then readLens c n fuel (x :: acc) l
      else
        let k := if x = 16 then (3, 2) else if x = 17 then (3, 3) else (11, 7)
        match takeLsb k.2 l with
        | none => none
        | some (v, l) =>
          if x = 16 && acc = [] then none
          else readLens c n fuel (List.replicate (k.1 + v) (if x = 16 then acc.headD 0 else 0) ++ acc) l

/-- The two codes of a dynamic block. -/
def dynCodes (l : List Bool) : Option (PrefixCode × PrefixCode × List Bool) :=
  match takeLsb 14 l with
  | none => none
  | some (h, l) =>
    let nl := h % 32 + 257
    let nd := h / 32 % 32 + 1
    let nc := h / 1024 + 4
    let order := [16, 17, 18, 0, 8, 7, 9, 6, 10, 5, 11, 4, 12, 3, 13, 2, 14, 1, 15]
    let at3 (i : Nat) : Nat := (l.getD (3 * i) false).toNat + 2 * (l.getD (3 * i + 1) false).toNat + 4 * (l.getD (3 * i + 2) false).toNat
    let lens := (List.range 19).map fun s => match order.findIdx? (· = s) with | some i => if i < nc then at3 i else 0 | none => 0
    if l.length < 3 * nc || 286 < nl || 30 < nd || !codeOk true lens || lens.all (· = 0) then none
    else match readLens (prefixCode 7 lens) (nl + nd) (nl + nd + 1) [] (l.drop (3 * nc)) with
    | none => none
    | some (r, l) =>
      let a := r.reverse
      let ll := a.take nl
      let dl := a.drop nl
      if ll.getD 256 0 = 0 || !codeOk false ll || !codeOk false dl then none
      else some (prefixCode 15 ll, prefixCode 15 dl, l)

/-- The codes of a fixed block. -/
def fixedLit : PrefixCode :=
  prefixCode 9 (List.replicate 144 8 ++ List.replicate 112 9 ++ List.replicate 24 7 ++ List.replicate 8 8)
def fixedDist : PrefixCode := prefixCode 5 (List.replicate 32 5)

/-- The bytes of a stored block. -/
def storedBytes : Nat → Inf → List Bool → Inf × Option (List Bool)
  | 0, o, l => (o, some l)
  | n + 1, o, l =>
    match takeLsb 8 l with
    | none => (o, none)
    | some (v, l) => storedBytes n (o.put (BitVec.ofNat 8 v)) l

/-- A stored block. -/
def infStored (o : Inf) (l : List Bool) : Inf × Option (List Bool) :=
  match takeLsb 32 (l.drop (l.length % 8)) with
  | none => (o, none)
  | some (n, l) => if n % 65536 + n / 65536 ≠ 65535 then (o, none) else storedBytes (n % 65536) o l

/-- The blocks of a DEFLATE stream. -/
def infBlocks (cap : Nat) : Nat → Inf → List Bool → Inf × Option (List Bool)
  | 0, o, _ => (o, none)
  | fuel + 1, o, l =>
    match takeLsb 3 l with
    | none => (o, none)
    | some (h, l) =>
      let r :=
        match h / 2 with
        | 0 => infStored o l
        | 1 => infSyms fixedLit fixedDist cap (l.length + 1) o l
        | 2 =>
          match dynCodes l with
          | none => (o, none)
          | some (a, b, l) => infSyms a b cap (l.length + 1) o l
        | _ => (o, none)
      match r.2 with
      | none => r
      | some l => if cap < r.1.n then (r.1, none) else if h % 2 = 1 then (r.1, some l) else infBlocks cap fuel r.1 l

/-- A DEFLATE stream: its output, and the bytes after it unless it is corrupt or passes the cap. -/
def deflated (cap : Nat) (b : List Byte) : List Byte × Option (List Byte) :=
  let r := infBlocks cap (8 * b.length) ⟨[], 0⟩ (lsbBits b)
  (r.1.out.reverse, r.2.map fun l => b.drop (b.length - l.length / 8))

/-! ### zlib and gzip (RFC 1950, RFC 1952) -/

/-- Adler-32. -/
def adler32 (b : List Byte) : Nat :=
  let r := b.foldl (fun (p : Nat × Nat) x =>
    let a := (p.1 + x.toNat) % 65521
    (a, (p.2 + a) % 65521)) (1, 0)
  r.2 * 65536 + r.1

/-- What a decoder answers: `none` for corrupt data, else the output and whether it passed the cap. -/
abbrev Unpacked := Option (List Byte × Bool)

/-- The answer for a stream that its checks accept. -/
def unpacked (cap : Nat) (out : List Byte) (ok : Bool) : Unpacked :=
  if cap < out.length then some (out, true) else if ok then some (out, false) else none

/-- Bytes before a gzip member's data: header, extra field, name, comment and header check. -/
def gzipHead (b : List Byte) : Option Nat :=
  let f := (b.getD 3 0).toNat
  let text (a : Nat) : Nat := a + (b.drop a).findIdx (· = 0) + 1
  if b.length < 10 || bget b 0 3 ≠ 0x088B1F || 32 ≤ f then none
  else
    let a := 10
    let a := if f / 4 % 2 = 1 then a + 2 + bget b a 2 else a
    let a := if f / 8 % 2 = 1 then text a else a
    let a := if f / 16 % 2 = 1 then text a else a
    let a := if f / 2 % 2 = 1 then a + 2 else a
    if b.length < a then none else some a

/-- The members of a gzip file, one after another. -/
def gunzip (cap : Nat) : Nat → List Byte → List Byte → Unpacked
  | 0, _, _ => none
  | fuel + 1, out, b =>
    match gzipHead b with
    | none => none
    | some a =>
      let r := deflated (cap - out.length) (b.drop a)
      let all := out ++ r.1
      match r.2 with
      | none => unpacked cap all false
      | some t =>
        if t.length < 8 || bget t 0 4 ≠ (crc32 r.1).toNat || bget t 4 4 ≠ r.1.length % 2 ^ 32 then unpacked cap all false
        else if t.length = 8 then unpacked cap all true
        else gunzip cap fuel all (t.drop 8)

/-- A zlib stream without a preset dictionary. `tail` says whether bytes after it make it corrupt. -/
def unzlib (tail : Bool) (cap : Nat) (b : List Byte) : Unpacked :=
  let h := 256 * (b.getD 0 0).toNat + (b.getD 1 0).toNat
  if b.length < 2 || h / 256 % 16 ≠ 8 || 7 < h / 4096 || h % 31 ≠ 0 || h / 32 % 2 = 1 then none
  else
    let r := deflated cap (b.drop 2)
    match r.2 with
    | none => unpacked cap r.1 false
    | some t =>
      let sum := ((t.take 4).foldl (fun n x => 256 * n + x.toNat) 0)
      unpacked cap r.1 (4 ≤ t.length && sum = adler32 r.1 && !(tail && 4 < t.length))

/-- The output of an inflater by WRAP: 0 raw, 1 zlib, 2 gzip. -/
def inflate (tail : Bool) (wrap cap : Nat) (b : List Byte) : Unpacked :=
  if wrap = 1 then unzlib tail cap b
  else if wrap = 2 then gunzip cap b.length [] b
  else
    let r := deflated cap b
    unpacked cap r.1 (match r.2 with | none => false | some t => !(tail && t ≠ []))

end Sys2Proof.Machine
end

