-- ==== Sys2Proof/Machine/Jpeg.lean ====
section
/-! DEFINITION. The JPEG decoders (R365, R366, R381) and the JPEG headers that a live lane rebuilds (R386).
Entropy decoding and dequantisation are defined by ISO/IEC 10918-1, and the rebuilt headers by RFC 2435;
their content stands here as those documents give it (PRESUMED, log entry 11). -/

namespace Sys2Proof.Machine
open Sys2Proof

/-- A number of two bytes, most significant first. -/
def be16 (b : List Byte) (off : Nat) : Nat := 256 * (b.getD off 0).toNat + (b.getD (off + 1) 0).toNat
/-- A number of four bytes, most significant first. -/
def be32 (b : List Byte) (off : Nat) : Nat := 65536 * be16 b off + be16 b (off + 2)

/-! ### Frame headers (R365, R381) -/

/-- A frame header: its SOF marker, precision, sides and the sampling bytes of its components. -/
structure JpegHead where
  sof : Nat
  prec : Nat
  h : Nat
  w : Nat
  samp : List Nat
  deriving DecidableEq, Repr

/-- Whether a marker begins a frame header. -/
def isSof (m : Nat) : Bool := 0xC0 ≤ m && m ≤ 0xCF && m ≠ 0xC4 && m ≠ 0xC8 && m ≠ 0xCC

/-- The frame header before the first scan, segment by segment. A DHP marker before it, that of a hierarchical JPEG, stands
in the place of its SOF (R365). -/
def jpegScan : Nat → List Byte → Option JpegHead
  | 0, _ => none
  | fuel + 1, b =>
    match b with
    | f :: m :: rest =>
      let k := m.toNat
      if f ≠ 0xFF then none
      else if k = 0xFF then jpegScan fuel (m :: rest)
      else if k = 0x01 || (0xD0 ≤ k && k ≤ 0xD8) then jpegScan fuel rest
      else if k = 0xDA || k = 0xD9 then none
      else if isSof k then
        some ⟨k, (rest.getD 2 0).toNat, be16 rest 3, be16 rest 5,
          (List.range (rest.getD 7 0).toNat).map fun i => (rest.getD (9 + 3 * i) 0).toNat⟩
      else if be16 rest 0 < 2 then none
      else
        let r := jpegScan fuel (rest.drop (be16 rest 0))
        if k = 0xDE then r.map fun j => { j with sof := 0xDE } else r
    | _ => none

/-- The frame header of a JPEG sample. -/
def jpegHead (b : List Byte) : Option JpegHead := if be16 b 0 = 0xFFD8 then jpegScan b.length b else none

/-- Whether three components are sampled 4:4:4, 4:2:2 or 4:2:0. -/
def samplingCovered (l : List Nat) : Bool :=
  match l with
  | [a, b, c] => b = c && b / 16 ≠ 0 && b % 16 ≠ 0
      && (a = b || (a / 16 = 2 * (b / 16) && (a % 16 = b % 16 || a % 16 = 2 * (b % 16))))
  | _ => false

/-- Whether the hardware covers a JPEG (R365). -/
def JpegHead.covered (j : JpegHead) : Bool :=
  (j.sof = 0xC0 || j.sof = 0xC1) && j.prec = 8 && j.h ≤ 16384 && j.w ≤ 16384
    && (j.samp.length = 1 || samplingCovered j.samp)

/-- Whether claimed sides are implausible (R381). -/
def implausible (w h nc srcLen maxSide maxPixels maxRatio : Nat) : Bool :=
  w = 0 || h = 0 || maxSide < w || maxSide < h || maxPixels < w * h || maxRatio * srcLen < w * h * nc

/-! ### The inverse DCT (R366 step 2) -/

/-- cos(kπ/16) for k from 0 to 8 in units of 2^-600, truncated, by halving angles. -/
def cosTab : List Nat :=
  let u := 2 ^ 600
  let half (x : Nat) : Nat := isqrt (x * 2 ^ 599)
  let c4 := isqrt (2 ^ 1199)
  let c2 := half (u + c4)
  let c6 := half (u - c4)
  [u, half (u + c2), c2, half (u + c6), c4, half (u - c6), c6, half (u - c2), 0]

/-- cos(jπ/16) in the same units. -/
def cos16 (j : Nat) : Int :=
  let j := j % 32
  let j := if 16 < j then 32 - j else j
  if 8 < j then -(cosTab.getD (16 - j) 0 : Nat) else (cosTab.getD j 0 : Nat)

/-- One sample of a block, before the level shift: the inverse DCT at column `x` and row `y`, rounded to the
nearest integer with ties upward. The factor of u = 0 is cos(4π/16), and a product of two cosines is
half the sum of two, so the value is an eighth of a whole combination of the table's entries. A tie
has no irrational part left, the terms cancel, and the sum is exact; any other value lies further
from a tie than the table's error (DEDUCED, log entry 20). -/
def idctAt (coefs : List (Nat × Int)) (x y : Nat) : Int :=
  let t := coefs.foldl (fun (t : Int) c =>
    let u := c.1 % 8
    let v := c.1 / 8
    let a := if u = 0 then 4 else (2 * x + 1) * u
    let b := if v = 0 then 4 else (2 * y + 1) * v
    t + c.2 * (cos16 (a + b) + cos16 (a + 128 - b))) 0
  (t + 2 ^ 602) / 2 ^ 603

/-- A value clamped to a byte. -/
def clampByte (x : Int) : Byte := BitVec.ofInt 8 (max 0 (min 255 x))

/-- The 64 samples of a block from its nonzero coefficients, row by row. -/
def idct (coefs : List (Nat × Int)) : List Byte :=
  (List.range 64).map fun i => clampByte (idctAt coefs (i % 8) (i / 8) + 128)

/-! ### Entropy-coded data (R366 step 1) -/

/-- The bits of bytes, most significant first. -/
def msbBits (b : List Byte) : List Bool := b.flatMap fun x => (List.range 8).map fun i => x.getLsbD (7 - i)

/-- A number of `n` bits, the first the most significant. -/
def takeBits : Nat → Nat → List Bool → Option (Nat × List Bool)
  | 0, v, l => some (v, l)
  | _ + 1, _, [] => none
  | n + 1, v, b :: t => takeBits n (2 * v + b.toNat) t

/-- A difference or coefficient of `n` bits. -/
def takeSigned (n : Nat) (l : List Bool) : Option (Int × List Bool) :=
  match takeBits n 0 l with
  | none => none
  | some (v, l) => some (if n ≠ 0 && v < 2 ^ (n - 1) then (v : Int) - (2 ^ n - 1) else v, l)

/-- The place in a block, row by row, of each coefficient in zigzag order. -/
def zigzag : List Nat :=
  [0, 1, 8, 16, 9, 2, 3, 10, 17, 24, 32, 25, 18, 11, 4, 5, 12, 19, 26, 33, 40, 48, 41, 34, 27, 20, 13, 6, 7, 14, 21, 28,
    35, 42, 49, 56, 57, 50, 43, 36, 29, 22, 15, 23, 30, 37, 44, 51, 58, 59, 52, 45, 38, 31, 39, 46, 53, 60, 61, 54, 47, 55, 62, 63]

/-- The coefficients after the first, dequantised, from zigzag place `k` on. -/
def acCoefs (ac : PrefixCode) (q : List Nat) : Nat → Nat → List (Nat × Int) → List Bool → Option (List (Nat × Int) × List Bool)
  | 0, _, _, _ => none
  | fuel + 1, k, acc, l =>
    if k = 64 then some (acc, l)
    else match ac.read l with
    | none => none
    | some (rs, l) =>
      let r := rs / 16
      let n := rs % 16
      if n = 0 then
        if r = 0 then some (acc, l)
        else if r = 15 && k + 16 < 64 then acCoefs ac q fuel (k + 16) acc l
        else none
      else if 10 < n || 63 < k + r then none
      else match takeSigned n l with
      | none => none
      | some (v, l) => acCoefs ac q fuel (k + r + 1) ((zigzag.getD (k + r) 0, v * (q.getD (k + r) 0 : Nat)) :: acc) l

/-- One block: its samples and its DC value, which the next block's is a difference from. -/
def readBlock8 (dc ac : PrefixCode) (q : List Nat) (pred : Int) (l : List Bool) : Option (List Byte × Int × List Bool) :=
  match dc.read l with
  | none => none
  | some (n, l) =>
    if 11 < n then none
    else match takeSigned n l with
    | none => none
    | some (d, l) =>
      let v := pred + d
      match acCoefs ac q 64 1 [(0, v * (q.getD 0 0 : Nat))] l with
      | none => none
      | some (cs, l) => some (idct (cs.filter fun c => c.2 ≠ 0), v, l)

/-- A component of a scan: its place in the frame, its blocks in one MCU and its tables. -/
structure ScanComp where
  idx : Nat
  blocks : Nat
  dc : PrefixCode
  ac : PrefixCode
  q : List Nat
  deriving DecidableEq, Repr

/-- The blocks of one component in one MCU, newest first. -/
def mcuBlocks (c : ScanComp) : Nat → List (List Byte) → Int → List Bool → Option (List (List Byte) × Int × List Bool)
  | 0, acc, p, l => some (acc, p, l)
  | n + 1, acc, p, l =>
    match readBlock8 c.dc c.ac c.q p l with
    | none => none
    | some (b, p, l) => mcuBlocks c n (b :: acc) p l

/-- One MCU: for each component of the scan its blocks and its next prediction. -/
def readMcu : List (ScanComp × Int) → List Bool → Option (List (List (List Byte) × Int) × List Bool)
  | [], l => some ([], l)
  | (c, p) :: t, l =>
    match mcuBlocks c c.blocks [] p l with
    | none => none
    | some (bs, p, l) =>
      match readMcu t l with
      | none => none
      | some (r, l) => some ((bs.reverse, p) :: r, l)

/-- `n` MCUs: for each the blocks of each component, newest first. -/
def readMcus (cs : List ScanComp) : Nat → List (List (List (List Byte))) → List Int → List Bool →
    Option (List (List (List (List Byte))) × List Bool)
  | 0, acc, _, l => some (acc, l)
  | n + 1, acc, ps, l =>
    match readMcu (cs.zip ps) l with
    | none => none
    | some (m, l) => readMcus cs n (m.map (·.1) :: acc) (m.map (·.2)) l

/-- An entropy-coded segment without its stuffed bytes, and what follows from its marker on. -/
def ecsSplit : Nat → List Byte → List Byte → List Byte × List Byte
  | 0, acc, b => (acc.reverse, b)
  | fuel + 1, acc, b =>
    match b with
    | [] => (acc.reverse, [])
    | x :: t =>
      if x ≠ 0xFF then ecsSplit fuel (x :: acc) t
      else match t with
      | [] => (acc.reverse, b)
      | y :: t' =>
        if y = 0 then ecsSplit fuel (x :: acc) t'
        else if y = 0xFF then ecsSplit fuel acc t
        else (acc.reverse, b)

/-- The MCUs of a scan, newest first, and the data after it. `ri` MCUs stand between two restart markers,
and `k` counts these. `pad` allows undefined data after the last MCU. -/
def readScan (pad : Bool) (cs : List ScanComp) (ri : Nat) : Nat → Nat → Nat → List (List (List (List Byte))) → List Byte →
    Option (List (List (List (List Byte))) × List Byte)
  | 0, _, _, _, _ => none
  | fuel + 1, left, k, acc, b =>
    let n := if ri = 0 then left else min ri left
    let e := ecsSplit b.length [] b
    match readMcus cs n acc (cs.map fun _ => 0) (msbBits e.1) with
    | none => none
    | some (acc, l) =>
      if left ≤ n then (if pad || l.length < 8 then some (acc, e.2) else none)
      else if 8 ≤ l.length || be16 e.2 0 ≠ 0xFFD0 + k % 8 then none
      else readScan pad cs ri fuel (left - n) (k + 1) acc (e.2.drop 2)

/-! ### Segments (R365, R366) -/

/-- A component of a frame: identifier, sampling, quantisation table. -/
structure JComp where
  id : Nat
  h : Nat
  v : Nat
  q : Nat
  deriving DecidableEq, Repr

/-- What the segments so far have set: tables, restart interval, the frame, and for each component decoded
the lines of its samples. -/
structure JState where
  quant : Sparse (List Nat)
  dc : Sparse PrefixCode
  ac : Sparse PrefixCode
  ri : Nat
  frame : Option (Nat × Nat × List JComp)
  planes : Sparse (List (List Byte))
  deriving DecidableEq, Repr

/-- The quantisation tables of a DQT segment. -/
def dqt : Nat → List Byte → JState → Option JState
  | 0, b, s => if b = [] then some s else none
  | fuel + 1, b, s =>
    match b with
    | [] => some s
    | x :: t =>
      let wide := 16 ≤ x.toNat
      let n := if wide then 128 else 64
      if 32 ≤ x.toNat || 4 ≤ x.toNat % 16 || t.length < n then none
      else
        let q := (List.range 64).map fun i => if wide then be16 t (2 * i) else (t.getD i 0).toNat
        if q.any (· = 0) then none else dqt fuel (t.drop n) { s with quant := sset s.quant (x.toNat % 16) q }

/-- The Huffman tables of a DHT segment. -/
def dht : Nat → List Byte → JState → Option JState
  | 0, b, s => if b = [] then some s else none
  | fuel + 1, b, s =>
    match b with
    | [] => some s
    | x :: t =>
      let counts := (t.take 16).map BitVec.toNat
      let n := counts.sum
      let code : PrefixCode := ⟨counts, ((t.drop 16).take n).map BitVec.toNat⟩
      let room := counts.foldl (fun (r : Int) c => 2 * r - (c : Nat)) (1 : Int)
      if 32 ≤ x.toNat || 4 ≤ x.toNat % 16 || t.length < 16 + n || 256 < n || room < 0 then none
      else dht fuel (t.drop (16 + n))
        (if x.toNat < 16 then { s with dc := sset s.dc x.toNat code } else { s with ac := sset s.ac (x.toNat % 16) code })

/-- A baseline frame header. -/
def sof (b : List Byte) (s : JState) : Option JState :=
  let n := (b.getD 5 0).toNat
  let cs := (List.range n).map fun i =>
    let p (j : Nat) : Nat := (b.getD (6 + 3 * i + j) 0).toNat
    (⟨p 0, p 1 / 16, p 1 % 16, p 2⟩ : JComp)
  if s.frame.isSome || b.length ≠ 6 + 3 * n || n = 0 || (b.getD 0 0).toNat ≠ 8 || cs.any (fun c => c.h = 0 || 4 < c.h || c.v = 0 || 4 < c.v) then none
  else some { s with frame := some (be16 b 3, be16 b 1, cs) }

/-- A list cut into pieces of `n`. -/
def cutEvery {α : Type} (n : Nat) : Nat → List α → List (List α)
  | 0, _ => []
  | fuel + 1, l => if l.isEmpty then [] else l.take n :: cutEvery n fuel (l.drop n)

/-- The lines of a component: `across` MCUs in a row, each of `h` by `v` blocks. -/
def planeLines (across h v : Nat) (mcus : List (List (List Byte))) : List (List Byte) :=
  (cutEvery across mcus.length mcus).flatMap fun row => (List.range v).flatMap fun i => (List.range 8).map fun y =>
    row.flatMap fun m => ((m.drop (i * h)).take h).flatMap fun b => (b.drop (8 * y)).take 8

/-- A scan: its header and its data. -/
def sos (pad : Bool) (hd b : List Byte) (s : JState) : Option (JState × List Byte) :=
  match s.frame with
  | none => none
  | some (w, ht, comps) =>
    let n := (hd.getD 0 0).toNat
    let hm := comps.foldl (fun m c => max m c.h) 1
    let vm := comps.foldl (fun m c => max m c.v) 1
    let one := n = 1
    let comp (i : Nat) : Option (Nat × JComp × ScanComp) :=
      let id := (hd.getD (1 + 2 * i) 0).toNat
      let t := (hd.getD (2 + 2 * i) 0).toNat
      match comps.zipIdx.find? fun c => c.1.id = id with
      | none => none
      | some (c, k) =>
        let find {α : Type} (l : Sparse α) (j : Nat) : Option α := (l.find? fun p => p.1 = j).map (·.2)
        match find s.dc (t / 16), find s.ac (t % 16), find s.quant c.q with
        | some d, some a, some q => some (k, c, ⟨k, if one then 1 else c.h * c.v, d, a, q⟩)
        | _, _, _ => none
    let cs := (List.range n).filterMap comp
    if n = 0 || cs.length ≠ n || hd.length ≠ 4 + 2 * n || hd.drop (1 + 2 * n) ≠ [0, 63, 0] || !decide ((cs.map (·.1)).Nodup) then none
    else
      let across (c : JComp) : Nat := if one then cdiv (cdiv (w * c.h) hm) 8 else cdiv w (8 * hm)
      let down (c : JComp) : Nat := if one then cdiv (cdiv (ht * c.v) vm) 8 else cdiv ht (8 * vm)
      let c0 := (cs.head?.map fun c => c.2.1).getD ⟨0, 1, 1, 0⟩
      let total := across c0 * down c0
      match readScan pad (cs.map fun c => c.2.2) s.ri (total + 1) total 0 [] b with
      | none => none
      | some (mcus, rest) =>
        let ms := mcus.reverse
        some ({ s with planes := cs.zipIdx.foldl (fun ps c =>
            let c' := c.1.2.1
            sset ps c.1.1 (planeLines (across c') (if one then 1 else c'.h) (if one then 1 else c'.v) (ms.map fun m => m.getD c.2 []))) s.planes },
          rest)

/-- Samples of the components side by side, pixel by pixel. -/
def interleave : List Byte → List Byte → List Byte → List Byte
  | a :: x, b :: y, c :: z => a :: b :: c :: interleave x y z
  | _, _, _ => []

/-- The image once every component is decoded: subsampled components are repeated (R366 step 3). -/
def jpegImage (s : JState) : Option (Nat × Nat × Nat × List Byte) :=
  match s.frame with
  | none => none
  | some (w, h, comps) =>
    let hm := comps.foldl (fun m c => max m c.h) 1
    let vm := comps.foldl (fun m c => max m c.v) 1
    let full (i : Nat) : Option (List (List Byte)) :=
      match s.planes.find? fun p => p.1 = i with
      | none => none
      | some (_, ls) =>
        let c := comps.getD i ⟨0, 1, 1, 0⟩
        some (((ls.flatMap fun l => List.replicate (vm / c.v) ((l.flatMap fun x => List.replicate (hm / c.h) x).take w))).take h)
    match comps.length, full 0, full 1, full 2 with
    | 1, some a, _, _ => some (w, h, 1, a.flatMap id)
    | 3, some a, some b, some c => some (w, h, 3, ((a.zip b).zip c).flatMap fun l => interleave l.1.1 l.1.2 l.2)
    | _, _, _, _ => none

/-- The segments of a JPEG file after its start. `pad` ends the image with the last component's scan;
`tail` says whether bytes after the end of the image make it corrupt. -/
def jpegSegs (pad tail : Bool) : Nat → List Byte → JState → Option (Nat × Nat × Nat × List Byte)
  | 0, _, _ => none
  | fuel + 1, b, s =>
    let done := match s.frame with | some f => decide (s.planes.length = f.2.2.length) | none => false
    if pad && done then jpegImage s
    else
      match b with
      | f :: m :: rest =>
        let k := m.toNat
        let n := be16 rest 0
        let seg := (rest.take n).drop 2
        let next := rest.drop n
        if f ≠ 0xFF then none
        else if k = 0xFF then jpegSegs pad tail fuel (m :: rest) s
        else if k = 0x01 || (0xD0 ≤ k && k ≤ 0xD8) then jpegSegs pad tail fuel rest s
        else if k = 0xD9 then (if tail && rest ≠ [] then none else jpegImage s)
        else if n < 2 || rest.length < n then none
        else if k = 0xDA then
          match sos pad seg next s with
          | none => none
          | some (s, b) => jpegSegs pad tail fuel b s
        else
          let s' : Option JState :=
            if k = 0xDB then dqt seg.length seg s
            else if k = 0xC4 then dht seg.length seg s
            else if k = 0xDD then (if n = 4 then some { s with ri := be16 seg 0 } else none)
            else if k = 0xC0 || k = 0xC1 then sof seg s
            else if isSof k then none
            else some s
          match s' with
          | none => none
          | some s => jpegSegs pad tail fuel next s
      | _ => none

/-- The decode of a baseline JPEG: sides, components and samples before the colour conversion, `none` for
corrupt data. -/
def jpegDecode (pad tail : Bool) (b : List Byte) : Option (Nat × Nat × Nat × List Byte) :=
  if be16 b 0 = 0xFFD8 then jpegSegs pad tail b.length (b.drop 2) ⟨[], [], [], 0, none, []⟩ else none

/-! ### Colour (R366 step 4) -/

/-- One YCbCr pixel as RGB. -/
def ycc (y cb cr : Byte) : List Byte :=
  let y : Int := y.toNat
  let b : Int := cb.toNat - 128
  let r : Int := cr.toNat - 128
  [clampByte (y + (91881 * r + 32768) / 65536), clampByte (y + (-22554 * b - 46802 * r + 32768) / 65536),
    clampByte (y + (116130 * b + 32768) / 65536)]

/-- Interleaved YCbCr samples as RGB. -/
def yccAll : List Byte → List Byte
  | y :: b :: r :: t => ycc y b r ++ yccAll t
  | _ => []

/-- A JPEG decoded (R366). -/
def decodeJpeg (pad tail : Bool) (b : List Byte) : Decoded :=
  match jpegDecode pad tail b with
  | none => .bad stDecodeError
  | some (w, h, nc, px) => .image w h nc (if nc = 3 then yccAll px else px)

/-! ### JPEG over RTP (R386, RFC 2435) -/

/-- The type, Q, width and height of an RFC 2435 payload header. -/
def rtpJpegHead (b : List Byte) : Nat × Nat × Nat × Nat :=
  ((b.getD 4 0).toNat, (b.getD 5 0).toNat, 8 * (b.getD 6 0).toNat, 8 * (b.getD 7 0).toNat)

/-- The fragment offset of an RFC 2435 payload. -/
def rtpJpegOff (b : List Byte) : Nat := be32 b 0 % 2 ^ 24

/-- The tables of ISO/IEC 10918-1, K.1 and K.2, row by row. -/
def lumaQuant : List Nat :=
  [16, 11, 10, 16, 24, 40, 51, 61, 12, 12, 14, 19, 26, 58, 60, 55, 14, 13, 16, 24, 40, 57, 69, 56, 14, 17, 22, 29, 51, 87, 80, 62,
    18, 22, 37, 56, 68, 109, 103, 77, 24, 35, 55, 64, 81, 104, 113, 92, 49, 64, 78, 87, 103, 121, 120, 101, 72, 92, 95, 98, 112, 100, 103, 99]
def chromaQuant : List Nat :=
  [17, 18, 24, 47, 99, 99, 99, 99, 18, 21, 26, 66, 99, 99, 99, 99, 24, 26, 56, 99, 99, 99, 99, 99, 47, 66, 99, 99, 99, 99, 99, 99]
    ++ List.replicate 32 99

/-- The tables of a Q from 1 to 99, in zigzag order. -/
def scaledQuant (q : Nat) (t : List Nat) : List Byte :=
  let f := if q < 50 then 5000 / q else 200 - 2 * q
  zigzag.map fun i => BitVec.ofNat 8 (max 1 (min 255 ((t.getD i 0 * f + 50) / 100)))

/-- The tables of ISO/IEC 10918-1, K.3 to K.6, as DHT segments hold them. -/
def stdHuff (tc : Byte) (counts syms : List Byte) : List Byte :=
  [0xFF, 0xC4, 0, BitVec.ofNat 8 (19 + syms.length), tc] ++ counts ++ syms
def stdDcLuma : List Byte := stdHuff 0x00 [0, 1, 5, 1, 1, 1, 1, 1, 1, 0, 0, 0, 0, 0, 0, 0] [0, 1, 2, 3, 4, 5, 6, 7, 8, 9, 10, 11]
def stdDcChroma : List Byte := stdHuff 0x01 [0, 3, 1, 1, 1, 1, 1, 1, 1, 1, 1, 0, 0, 0, 0, 0] [0, 1, 2, 3, 4, 5, 6, 7, 8, 9, 10, 11]
def stdAcLuma : List Byte := stdHuff 0x10 [0, 2, 1, 3, 3, 2, 4, 3, 5, 5, 4, 4, 0, 0, 1, 0x7d]
  [0x01, 0x02, 0x03, 0x00, 0x04, 0x11, 0x05, 0x12, 0x21, 0x31, 0x41, 0x06, 0x13, 0x51, 0x61, 0x07, 0x22, 0x71, 0x14, 0x32, 0x81, 0x91, 0xa1,
    0x08, 0x23, 0x42, 0xb1, 0xc1, 0x15, 0x52, 0xd1, 0xf0, 0x24, 0x33, 0x62, 0x72, 0x82, 0x09, 0x0a, 0x16, 0x17, 0x18, 0x19, 0x1a, 0x25, 0x26,
    0x27, 0x28, 0x29, 0x2a, 0x34, 0x35, 0x36, 0x37, 0x38, 0x39, 0x3a, 0x43, 0x44, 0x45, 0x46, 0x47, 0x48, 0x49, 0x4a, 0x53, 0x54, 0x55, 0x56,
    0x57, 0x58, 0x59, 0x5a, 0x63, 0x64, 0x65, 0x66, 0x67, 0x68, 0x69, 0x6a, 0x73, 0x74, 0x75, 0x76, 0x77, 0x78, 0x79, 0x7a, 0x83, 0x84, 0x85,
    0x86, 0x87, 0x88, 0x89, 0x8a, 0x92, 0x93, 0x94, 0x95, 0x96, 0x97, 0x98, 0x99, 0x9a, 0xa2, 0xa3, 0xa4, 0xa5, 0xa6, 0xa7, 0xa8, 0xa9, 0xaa,
    0xb2, 0xb3, 0xb4, 0xb5, 0xb6, 0xb7, 0xb8, 0xb9, 0xba, 0xc2, 0xc3, 0xc4, 0xc5, 0xc6, 0xc7, 0xc8, 0xc9, 0xca, 0xd2, 0xd3, 0xd4, 0xd5, 0xd6,
    0xd7, 0xd8, 0xd9, 0xda, 0xe1, 0xe2, 0xe3, 0xe4, 0xe5, 0xe6, 0xe7, 0xe8, 0xe9, 0xea, 0xf1, 0xf2, 0xf3, 0xf4, 0xf5, 0xf6, 0xf7, 0xf8, 0xf9, 0xfa]
def stdAcChroma : List Byte := stdHuff 0x11 [0, 2, 1, 2, 4, 4, 3, 4, 7, 5, 4, 4, 0, 1, 2, 0x77]
  [0x00, 0x01, 0x02, 0x03, 0x11, 0x04, 0x05, 0x21, 0x31, 0x06, 0x12, 0x41, 0x51, 0x07, 0x61, 0x71, 0x13, 0x22, 0x32, 0x81, 0x08, 0x14, 0x42,
    0x91, 0xa1, 0xb1, 0xc1, 0x09, 0x23, 0x33, 0x52, 0xf0, 0x15, 0x62, 0x72, 0xd1, 0x0a, 0x16, 0x24, 0x34, 0xe1, 0x25, 0xf1, 0x17, 0x18, 0x19,
    0x1a, 0x26, 0x27, 0x28, 0x29, 0x2a, 0x35, 0x36, 0x37, 0x38, 0x39, 0x3a, 0x43, 0x44, 0x45, 0x46, 0x47, 0x48, 0x49, 0x4a, 0x53, 0x54, 0x55,
    0x56, 0x57, 0x58, 0x59, 0x5a, 0x63, 0x64, 0x65, 0x66, 0x67, 0x68, 0x69, 0x6a, 0x73, 0x74, 0x75, 0x76, 0x77, 0x78, 0x79, 0x7a, 0x82, 0x83,
    0x84, 0x85, 0x86, 0x87, 0x88, 0x89, 0x8a, 0x92, 0x93, 0x94, 0x95, 0x96, 0x97, 0x98, 0x99, 0x9a, 0xa2, 0xa3, 0xa4, 0xa5, 0xa6, 0xa7, 0xa8,
    0xa9, 0xaa, 0xb2, 0xb3, 0xb4, 0xb5, 0xb6, 0xb7, 0xb8, 0xb9, 0xba, 0xc2, 0xc3, 0xc4, 0xc5, 0xc6, 0xc7, 0xc8, 0xc9, 0xca, 0xd2, 0xd3, 0xd4,
    0xd5, 0xd6, 0xd7, 0xd8, 0xd9, 0xda, 0xe2, 0xe3, 0xe4, 0xe5, 0xe6, 0xe7, 0xe8, 0xe9, 0xea, 0xf2, 0xf3, 0xf4, 0xf5, 0xf6, 0xf7, 0xf8, 0xf9, 0xfa]

/-- The two quantisation tables of a frame as DQT segments hold them, each with its precision: those of Q,
those its first packet carries, or those its Q named before. -/
def rtpQuant (tabs : Sparse (List Byte)) (first : List Byte) : Option (List Byte × List Byte) :=
  let (t, q, _) := rtpJpegHead first
  let a := if 64 ≤ t then 12 else 8
  let prec := if q < 128 then 0 else (first.getD (a + 1) 0).toNat
  let n := if q < 128 then 0 else be16 first (a + 2)
  let split (prec : Nat) (d : List Byte) : Option (List Byte × List Byte) :=
    let w0 := if prec % 2 = 1 then 128 else 64
    let w1 := if prec / 2 % 2 = 1 then 128 else 64
    if d.length < w0 + w1 then none
    else some (BitVec.ofNat 8 (16 * (prec % 2)) :: d.take w0, BitVec.ofNat 8 (16 * (prec / 2 % 2) + 1) :: (d.drop w0).take w1)
  if q < 128 then some (0 :: scaledQuant q lumaQuant, 1 :: scaledQuant q chromaQuant)
  else if n = 0 then
    match tabs.find? fun p => p.1 = q with
    | some (_, p :: d) => if q = 255 then none else split p.toNat d
    | _ => none
  else if first.length < a + 4 + n then none
  else split prec ((first.drop (a + 4)).take n)

/-- The tables that later frames of a Q from 128 to 254 may leave out. -/
def rtpKeep (tabs : Sparse (List Byte)) (first : List Byte) : Sparse (List Byte) :=
  let (t, q, _) := rtpJpegHead first
  let a := if 64 ≤ t then 12 else 8
  let n := be16 first (a + 2)
  if 128 ≤ q && q < 255 && n ≠ 0 && a + 4 + n ≤ first.length then
    sset tabs q (first.getD (a + 1) 0 :: (first.drop (a + 4)).take n)
  else tabs

/-- The entropy-coded data of a frame's packets, each at the offset it names; `none` where one does not
follow the last. -/
def rtpJpegData (q : Nat) : List Byte → List (List Byte) → Option (List Byte)
  | acc, [] => some acc
  | acc, p :: t =>
    let a := if 64 ≤ (rtpJpegHead p).1 then 12 else 8
    let a := if acc = [] && 128 ≤ q then a + 4 + be16 p (a + 2) else a
    if rtpJpegOff p ≠ acc.length || p.length < a then none else rtpJpegData q (acc ++ p.drop a) t

/-- The JPEG file of a frame: the headers that its packets' own name, and their data. -/
def rtpJpeg (tabs : Sparse (List Byte)) (ps : List (List Byte)) : Option (List Byte) :=
  let first := ps.headD []
  let (t, q, w, h) := rtpJpegHead first
  let be (n : Nat) : List Byte := [BitVec.ofNat 8 (n / 256), BitVec.ofNat 8 n]
  match rtpQuant tabs first, rtpJpegData q [] ps with
  | some (q0, q1), some d =>
    let dqtSeg (x : List Byte) : List Byte := [0xFF, 0xDB] ++ be (2 + x.length) ++ x
    let dri : List Byte := if 64 ≤ t then [0xFF, 0xDD, 0, 4] ++ be (be16 first 8) else []
    some ([0xFF, 0xD8] ++ dqtSeg q0 ++ dqtSeg q1 ++ dri
      ++ [0xFF, 0xC0, 0, 17, 8] ++ be h ++ be w ++ [3, 0, if t % 2 = 0 then 0x21 else 0x22, 0, 1, 0x11, 1, 2, 0x11, 1]
      ++ stdDcLuma ++ stdAcLuma ++ stdDcChroma ++ stdAcChroma
      ++ [0xFF, 0xDA, 0, 12, 3, 0, 0, 1, 0x11, 2, 0x11, 0, 63, 0] ++ d)
  | _, _ => none

end Sys2Proof.Machine
end

