-- ==== Sys2Proof/Machine/Zstd.lean ====
section
/-! DEFINITION. The Zstandard decoders (R365, R367, R382). The manual defines the format by RFC 8878; its
content stands here as that document gives it (PRESUMED, log entry 11). -/

namespace Sys2Proof.Machine
open Sys2Proof

/-! ### Bitstreams read backwards and FSE tables (RFC 8878, section 4.1) -/

/-- The number of the highest bit set, for a number above 0. -/
def topBit (n : Nat) : Nat := Nat.log2 n

/-- A bitstream read from its last byte back: the bits after the final marker, in reading order. -/
def backBits (b : List Byte) : Option (List Bool) :=
  if b.getLastD 0 = 0 then none else some (((lsbBits b).reverse.dropWhile (· = false)).drop 1)

/-- A number of `n` bits, the first the most significant. -/
def takeMsb : Nat → Nat → List Bool → Option (Nat × List Bool)
  | 0, v, l => some (v, l)
  | _ + 1, _, [] => none
  | n + 1, v, b :: t => takeMsb n (2 * v + b.toNat) t

/-- A state of an FSE table: its symbol, the bits that the next state takes, and their base. -/
structure FseCell where
  sym : Nat
  bits : Nat
  base : Nat
  deriving DecidableEq, Repr

/-- An FSE table: its accuracy log and its states. -/
structure FseTab where
  log : Nat
  cells : List FseCell
  deriving DecidableEq, Repr

/-- The table of a distribution of probabilities, −1 for "less than 1" (section 4.1.1). -/
def fseTab (log : Nat) (probs : List Int) : FseTab :=
  let size := 2 ^ log
  let low := (probs.zipIdx.filter fun p => p.1 < 0).map (·.2)
  let high := size - low.length
  let step := size / 2 + size / 8 + 3
  let places := ((List.range size).map fun k => k * step % size).filter (· < high)
  let spread := places.zip (probs.zipIdx.flatMap fun p => List.replicate p.1.toNat p.2)
  let syms := (List.range size).map fun i =>
    if high ≤ i then low.getD (size - 1 - i) 0 else ((spread.find? fun p => p.1 = i).getD (0, 0)).2
  ⟨log, syms.zipIdx.map fun p =>
    let n := (probs.getD p.1 0).natAbs + (syms.take p.2).countP (· = p.1)
    let bits := log - topBit n
    ⟨p.1, bits, n * 2 ^ bits - size⟩⟩

/-- Zero probabilities that follow one, by flags of two bits. -/
def fseZeros : Nat → List Int → List Bool → Option (List Int × List Bool)
  | 0, _, _ => none
  | fuel + 1, acc, l =>
    match takeLsb 2 l with
    | none => none
    | some (n, l) => if n = 3 then fseZeros fuel (0 :: 0 :: 0 :: acc) l else some (List.replicate n 0 ++ acc, l)

/-- The probabilities of a table description, newest first, while `left` of the table is to be given. -/
def fseProbs (maxSym : Nat) : Nat → Nat → List Int → List Bool → Option (List Int × List Bool)
  | 0, _, _, _ => none
  | fuel + 1, left, acc, l =>
    if left = 0 then (if acc.length ≤ maxSym + 1 then some (acc, l) else none)
    else
      let bits := topBit (left + 1) + 1
      let low := 2 ^ (bits - 1)
      let lim := 2 ^ bits - 1 - (left + 1)
      match takeLsb (bits - 1) l with
      | none => none
      | some (v, l') =>
        let r : Option (Nat × List Bool) :=
          if v < lim then some (v, l')
          else match l' with
            | [] => none
            | b :: t => some (if b then v + low - lim else v, t)
        match r with
        | none => none
        | some (v, l) =>
          let p : Int := (v : Int) - 1
          if left < p.natAbs then none
          else if p = 0 then
            match fseZeros (l.length + 1) (0 :: acc) l with
            | none => none
            | some (acc, l) => fseProbs maxSym fuel left acc l
          else fseProbs maxSym fuel (left - p.natAbs) (p :: acc) l

/-- A table description at the start of bytes: the table and the bytes after it. -/
def fseRead (maxLog maxSym : Nat) (b : List Byte) : Option (FseTab × List Byte) :=
  match takeLsb 4 (lsbBits b) with
  | none => none
  | some (k, l) =>
    let log := k + 5
    if maxLog < log then none
    else match fseProbs maxSym 256 (2 ^ log) [] l with
    | none => none
    | some (r, l) => some (fseTab log r.reverse, b.drop (b.length - l.length / 8))

/-- The cell of a state. -/
def FseTab.at (t : FseTab) (st : Nat) : FseCell := t.cells.getD st ⟨0, 0, 0⟩

/-- The next state of a table. -/
def FseTab.next (t : FseTab) (st : Nat) (l : List Bool) : Option (Nat × List Bool) :=
  let c := t.at st
  match takeMsb c.bits 0 l with
  | none => none
  | some (v, l) => some (c.base + v, l)

/-! ### Huffman trees and literals (sections 3.1.1.3.1 and 4.2) -/

/-- A Huffman tree: its longest code, and for every value of that many bits the symbol and the length
of its code. -/
structure HufTab where
  log : Nat
  cells : List (Nat × Nat)
  deriving DecidableEq, Repr

/-- The tree of the weights given, the last one implied. -/
def hufTab (w : List Nat) : Option HufTab :=
  let total := (w.map fun x => if x = 0 then 0 else 2 ^ (x - 1)).sum
  if total = 0 then none
  else
    let log := topBit total + 1
    let rest := 2 ^ log - total
    if 11 < log || rest ≠ 2 ^ topBit rest || 255 < w.length then none
    else
      let all := w ++ [topBit rest + 1]
      some ⟨log, (List.range log).flatMap fun i =>
        (all.zipIdx.filter fun p => p.1 = i + 1).flatMap fun p => List.replicate (2 ^ i) (p.2, log - i)⟩

/-- Weights coded by two interleaved FSE states, newest first; the states take turns until the bits run out. -/
def fseWeights (t : FseTab) : Nat → Nat → Nat → List Nat → List Bool → Option (List Nat)
  | 0, _, _, _, _ => none
  | fuel + 1, st, other, acc, l =>
    match t.next st l with
    | none => some ((t.at other).sym :: (t.at st).sym :: acc)
    | some (st', l) => fseWeights t fuel other st' ((t.at st).sym :: acc) l

/-- A tree description at the start of bytes: the tree and the bytes after it. -/
def hufRead (b : List Byte) : Option (HufTab × List Byte) :=
  match b with
  | [] => none
  | h :: b =>
    let k := h.toNat
    if 128 ≤ k then
      let n := k - 127
      if b.length < (n + 1) / 2 then none
      else
        let w := (List.range n).map fun i =>
          let x := (b.getD (i / 2) 0).toNat
          if i % 2 = 0 then x / 16 else x % 16
        (hufTab w).map fun t => (t, b.drop ((n + 1) / 2))
    else if b.length < k then none
    else match fseRead 6 12 (b.take k) with
    | none => none
    | some (t, c) =>
      match backBits c with
      | none => none
      | some l =>
        match takeMsb t.log 0 l with
        | none => none
        | some (s1, l) =>
          match takeMsb t.log 0 l with
          | none => none
          | some (s2, l) =>
            match fseWeights t 256 s1 s2 [] l with
            | none => none
            | some w => (hufTab w.reverse).map fun t => (t, b.drop k)

/-- `n` symbols of one stream, newest first; the stream must end with them. -/
def hufSyms (t : HufTab) : Nat → List Byte → List Bool → Option (List Byte)
  | 0, acc, l => if l = [] then some acc else none
  | n + 1, acc, l =>
    let v := (List.range t.log).foldl (fun v i => 2 * v + ((l[i]?).getD false).toNat) 0
    let c := t.cells.getD v (0, 0)
    if l.length < c.2 || c.2 = 0 then none else hufSyms t n (BitVec.ofNat 8 c.1 :: acc) (l.drop c.2)

/-- One stream of `n` symbols. -/
def hufStream (t : HufTab) (n : Nat) (b : List Byte) : Option (List Byte) :=
  match backBits b with
  | none => none
  | some l => (hufSyms t n [] l).map List.reverse

/-- Four streams after their jump table. -/
def hufStreams4 (t : HufTab) (n : Nat) (b : List Byte) : Option (List Byte) :=
  let a := bget b 0 2
  let c := bget b 2 2
  let d := bget b 4 2
  let q := (n + 3) / 4
  let s := b.drop 6
  if b.length < 6 + a + c + d || n < 3 * q then none
  else match hufStream t q (s.take a), hufStream t q ((s.drop a).take c), hufStream t q ((s.drop (a + c)).take d),
      hufStream t (n - 3 * q) (s.drop (a + c + d)) with
    | some w, some x, some y, some z => some (w ++ x ++ y ++ z)
    | _, _, _, _ => none

/-! ### Blocks (section 3.1.1.2 to 3.1.1.4) -/

/-- What a frame's blocks hand on: tree, tables of literal lengths, offsets and match lengths, the three
repeated offsets, and the output of the frame, newest byte first. -/
structure ZState where
  huf : Option HufTab
  ll : Option FseTab
  off : Option FseTab
  ml : Option FseTab
  rep : List Nat
  out : List Byte
  n : Nat
  deriving DecidableEq, Repr

def zStart : ZState := ⟨none, none, none, none, [1, 4, 8], [], 0⟩

/-- The literals section: the literals, the tree that stays, and the bytes after the section. -/
def zLiterals (z : ZState) (b : List Byte) : Option (List Byte × Option HufTab × List Byte) :=
  let h := bget b 0 5
  let kind := h % 4
  let sf := h / 4 % 4
  if b = [] then none
  else if kind < 2 then
    let hl := if sf = 1 then 2 else if sf = 3 then 3 else 1
    let n := if sf = 1 then h / 16 % 2 ^ 12 else if sf = 3 then h / 16 % 2 ^ 20 else h / 8 % 32
    let d := b.drop hl
    if b.length < hl || 131072 < n then none
    else if kind = 0 then (if d.length < n then none else some (d.take n, z.huf, d.drop n))
    else match d with
      | [] => none
      | x :: d => some (List.replicate n x, z.huf, d)
  else
    let hl := if sf < 2 then 3 else sf + 2
    let w := if sf < 2 then 10 else if sf = 2 then 14 else 18
    let n := h / 16 % 2 ^ w
    let c := h / 2 ^ (4 + w) % 2 ^ w
    let d := (b.drop hl).take c
    if b.length < hl + c || 131072 < n then none
    else
      let t : Option (HufTab × List Byte) := if kind = 2 then hufRead d else z.huf.map fun t => (t, d)
      match t with
      | none => none
      | some (t, d) =>
        match (if sf = 0 then hufStream t n d else hufStreams4 t n d) with
        | none => none
        | some lit => some (lit, some t, b.drop (hl + c))

/-- Base and extra bits of literal length codes. -/
def zLenTab : List (Nat × Nat) :=
  ((List.range 16).map fun i => (i, 0)) ++ [(16, 1), (18, 1), (20, 1), (22, 1), (24, 2), (28, 2), (32, 3), (40, 3), (48, 4),
    (64, 6), (128, 7), (256, 8), (512, 9), (1024, 10), (2048, 11), (4096, 12), (8192, 13), (16384, 14), (32768, 15), (65536, 16)]

/-- Base and extra bits of match length codes. -/
def zMatchTab : List (Nat × Nat) :=
  ((List.range 32).map fun i => (i + 3, 0)) ++ [(35, 1), (37, 1), (39, 1), (41, 1), (43, 2), (47, 2), (51, 3), (59, 3), (67, 4),
    (83, 4), (99, 5), (131, 7), (259, 8), (515, 9), (1027, 10), (2051, 11), (4099, 12), (8195, 13), (16387, 14), (32771, 15), (65539, 16)]

/-- The default tables. -/
def zLenDef : FseTab := fseTab 6 [4, 3, 2, 2, 2, 2, 2, 2, 2, 2, 2, 2, 2, 1, 1, 1, 2, 2, 2, 2, 2, 2, 2, 2, 2, 3, 2, 1, 1, 1, 1, 1, -1, -1, -1, -1]
def zMatchDef : FseTab := fseTab 6 [1, 4, 3, 2, 2, 2, 2, 2, 2, 1, 1, 1, 1, 1, 1, 1, 1, 1, 1, 1, 1, 1, 1, 1, 1, 1, 1, 1, 1, 1, 1, 1, 1, 1, 1, 1,
  1, 1, 1, 1, 1, 1, 1, 1, 1, 1, -1, -1, -1, -1, -1, -1, -1]
def zOffDef : FseTab := fseTab 5 [1, 1, 1, 1, 1, 1, 2, 2, 2, 1, 1, 1, 1, 1, 1, 1, 1, 1, 1, 1, 1, 1, 1, 1, -1, -1, -1, -1, -1]

/-- One table of a sequences section by its mode: default, one symbol, described, or the last one. -/
def zTable (mode maxLog maxSym : Nat) (dflt : FseTab) (last : Option FseTab) (b : List Byte) : Option (FseTab × List Byte) :=
  match mode with
  | 0 => some (dflt, b)
  | 1 =>
    match b with
    | [] => none
    | x :: b => if maxSym < x.toNat then none else some (⟨0, [⟨x.toNat, 0, 0⟩]⟩, b)
  | 2 => fseRead maxLog maxSym b
  | _ => last.map fun t => (t, b)

/-- A sequence: literal length, offset value, match length. -/
abbrev ZSeq := Nat × Nat × Nat

/-- The sequences of the three tables; the bits must end with them. -/
def zSeqs (tl tf tm : FseTab) : Nat → Nat → Nat → Nat → List ZSeq → List Bool → Option (List ZSeq)
  | 0, _, _, _, acc, l => if l = [] then some acc.reverse else none
  | n + 1, sl, so, sm, acc, l =>
    let co := (tf.at so).sym
    let cm := zMatchTab.getD (tm.at sm).sym (0, 0)
    let cl := zLenTab.getD (tl.at sl).sym (0, 0)
    match takeMsb co 0 l with
    | none => none
    | some (vo, l) =>
      match takeMsb cm.2 0 l with
      | none => none
      | some (vm, l) =>
        match takeMsb cl.2 0 l with
        | none => none
        | some (vl, l) =>
          let acc := (cl.1 + vl, 2 ^ co + vo, cm.1 + vm) :: acc
          if n = 0 then zSeqs tl tf tm 0 sl so sm acc l
          else match tl.next sl l with
          | none => none
          | some (sl, l) =>
            match tm.next sm l with
            | none => none
            | some (sm, l) =>
              match tf.next so l with
              | none => none
              | some (so, l) => zSeqs tl tf tm n sl so sm acc l

/-- The offset that an offset value names, and the repeated offsets after it (section 3.1.1.5). -/
def zOffset (rep : List Nat) (ll ov : Nat) : Nat × List Nat :=
  let r (i : Nat) : Nat := rep.getD i 0
  if 3 < ov then (ov - 3, [ov - 3, r 0, r 1])
  else
    match ov - 1 + (if ll = 0 then 1 else 0) with
    | 0 => (r 0, rep)
    | 1 => (r 1, [r 1, r 0, r 2])
    | 2 => (r 2, [r 2, r 0, r 1])
    | _ => (r 0 - 1, [r 0 - 1, r 0, r 1])

/-- Copy `n` bytes from `off` back onto an output kept newest first. -/
def zCopy (off : Nat) : Nat → List Byte → List Byte
  | 0, o => o
  | n + 1, o => zCopy off n (o.getD (off - 1) 0 :: o)

/-- Execute the sequences of a block on its literals. -/
def zExec : List ZSeq → List Byte → ZState → Option ZState
  | [], lit, z => some { z with out := lit.reverse ++ z.out, n := z.n + lit.length }
  | (ll, ov, ml) :: t, lit, z =>
    let (off, rep) := zOffset z.rep ll ov
    if lit.length < ll || off = 0 || z.n + ll < off then none
    else zExec t (lit.drop ll) { z with rep := rep, out := zCopy off ml ((lit.take ll).reverse ++ z.out), n := z.n + ll + ml }

/-- The sequences section after the literals. -/
def zSequences (z : ZState) (lit : List Byte) (b : List Byte) : Option ZState :=
  match b with
  | [] => none
  | h :: b =>
    let k := h.toNat
    if k = 0 then (if b = [] then zExec [] lit z else none)
    else
      let hl := if k < 128 then 0 else if k < 255 then 1 else 2
      let n := if k < 128 then k else if k < 255 then (k - 128) * 256 + bget b 0 1 else bget b 0 2 + 0x7F00
      match b.drop hl with
      | [] => none
      | m :: c =>
        let m := m.toNat
        if m % 4 ≠ 0 then none
        else match zTable (m / 64) 9 35 zLenDef z.ll c with
        | none => none
        | some (tl, c) =>
          match zTable (m / 16 % 4) 8 31 zOffDef z.off c with
          | none => none
          | some (tf, c) =>
            match zTable (m / 4 % 4) 9 52 zMatchDef z.ml c with
            | none => none
            | some (tm, c) =>
              match backBits c with
              | none => none
              | some l =>
                match takeMsb tl.log 0 l with
                | none => none
                | some (sl, l) =>
                  match takeMsb tf.log 0 l with
                  | none => none
                  | some (so, l) =>
                    match takeMsb tm.log 0 l with
                    | none => none
                    | some (sm, l) =>
                      match zSeqs tl tf tm n sl so sm [] l with
                      | none => none
                      | some qs => zExec qs lit { z with ll := some tl, off := some tf, ml := some tm }

/-- A compressed block. -/
def zCompressed (z : ZState) (b : List Byte) : Option ZState :=
  match zLiterals z b with
  | none => none
  | some (lit, huf, b) => zSequences { z with huf := huf } lit b

/-! ### Frames (section 3.1.1) -/

/-- XXH64 with seed 0 (the content checksum is its low four bytes). -/
def xxh64 (b : List Byte) : BitVec 64 :=
  let p1 : BitVec 64 := 0x9E3779B185EBCA87
  let p2 : BitVec 64 := 0xC2B2AE3D27D4EB4F
  let p3 : BitVec 64 := 0x165667B19E3779F9
  let p4 : BitVec 64 := 0x85EBCA77C2B2AE63
  let p5 : BitVec 64 := 0x27D4EB2F165667C5
  let rot (x : BitVec 64) (k : Nat) : BitVec 64 := x.rotateLeft k
  let round (a x : BitVec 64) : BitVec 64 := rot (a + x * p2) 31 * p1
  let u64 (b : List Byte) : BitVec 64 := BitVec.ofNat 64 (leNat (b.take 8))
  let stripes := b.length / 32
  let acc := (List.range stripes).foldl (fun (p : List (BitVec 64) × List Byte) _ =>
    (p.1.zipIdx.map fun a => round a.1 (u64 (p.2.drop (8 * a.2))), p.2.drop 32)) ([p1 + p2, p2, 0, 0 - p1], b)
  let v (i : Nat) : BitVec 64 := acc.1.getD i 0
  let start : BitVec 64 := if stripes = 0 then p5
    else (List.range 4).foldl (fun h i => (h ^^^ round 0 (v i)) * p1 + p4) (rot (v 0) 1 + rot (v 1) 7 + rot (v 2) 12 + rot (v 3) 18)
  let t := acc.2
  let h := start + BitVec.ofNat 64 b.length
  let h := (List.range (t.length / 8)).foldl (fun h i => rot (h ^^^ round 0 (u64 (t.drop (8 * i)))) 27 * p1 + p4) h
  let t := t.drop (8 * (t.length / 8))
  let h := if 4 ≤ t.length then rot (h ^^^ BitVec.ofNat 64 (leNat (t.take 4)) * p1) 23 * p2 + p3 else h
  let h := (if 4 ≤ t.length then t.drop 4 else t).foldl (fun h x => rot (h ^^^ x.setWidth 64 * p5) 11 * p1) h
  let h := (h ^^^ (h >>> 33)) * p2
  let h := (h ^^^ (h >>> 29)) * p3
  h ^^^ (h >>> 32)

/-- A frame header: window, whether a dictionary is named, content size, whether a checksum follows. -/
structure ZHead where
  window : Nat
  dict : Bool
  size : Option Nat
  check : Bool
  deriving DecidableEq, Repr

/-- A frame header after the magic number, and the bytes after it. -/
def zHead (b : List Byte) : Option (ZHead × List Byte) :=
  match b with
  | [] => none
  | d :: b =>
    let d := d.toNat
    let single := d / 32 % 2 = 1
    let wl := if single then 0 else 1
    let dl := [0, 1, 2, 4].getD (d % 4) 0
    let fl := [if single then 1 else 0, 2, 4, 8].getD (d / 64) 0
    let w := bget b 0 1
    let base := 2 ^ (10 + w / 8)
    let fcs := bget b (wl + dl) fl + (if fl = 2 then 256 else 0)
    if d / 8 % 2 = 1 || b.length < wl + dl + fl then none
    else some (⟨if single then fcs else base + base / 8 * (w % 8), bget b wl dl ≠ 0, if fl = 0 then none else some fcs, d / 4 % 2 = 1⟩,
      b.drop (wl + dl + fl))

/-- Whether the hardware covers a frame (R365). -/
def ZHead.covered (h : ZHead) : Bool := h.window ≤ 2 ^ 23 && !h.dict

/-- The blocks of a frame; no bytes after them when they are corrupt or the cap is passed. -/
def zBlocks (limit cap : Nat) : Nat → ZState → List Byte → ZState × Option (List Byte)
  | 0, z, _ => (z, none)
  | fuel + 1, z, b =>
    let h := bget b 0 3
    let n := h / 8
    let kind := h / 2 % 4
    let len := if kind = 1 then 1 else n
    let d := b.drop 3
    if b.length < 3 || d.length < len || limit < n then (z, none)
    else
      let r : Option ZState := match kind with
        | 0 => some { z with out := (d.take n).reverse ++ z.out, n := z.n + n }
        | 1 => some { z with out := List.replicate n (d.headD 0) ++ z.out, n := z.n + n }
        | 2 => zCompressed z (d.take n)
        | _ => none
      match r with
      | none => (z, none)
      | some z' =>
        if limit < z'.n - z.n then (z, none)
        else if cap < z'.n then (z', none)
        else if h % 2 = 1 then (z', some (d.drop len))
        else zBlocks limit cap fuel z' (d.drop len)

/-- The frames of a Zstandard file, one after another; skippable frames are skipped. -/
def unzstd (cap : Nat) : Nat → List Byte → List Byte → Unpacked
  | 0, out, b => if b = [] then some (out, false) else none
  | fuel + 1, out, b =>
    if b = [] then some (out, false)
    else if b.length < 8 then none
    else if bget b 0 4 / 16 = 0x184D2A5 then
      (if b.length < 8 + bget b 4 4 then none else unzstd cap fuel out (b.drop (8 + bget b 4 4)))
    else if bget b 0 4 ≠ 0xFD2FB528 then none
    else match zHead (b.drop 4) with
    | none => none
    | some (h, d) =>
      let r := zBlocks (min h.window 131072) (cap - out.length) (d.length + 1) zStart d
      let mine := r.1.out.reverse
      let all := out ++ mine
      match r.2 with
      | none => unpacked cap all false
      | some t =>
        let sum := !h.check || (4 ≤ t.length && bget t 0 4 = (xxh64 mine).toNat % 2 ^ 32)
        if !sum || (h.size.isSome && h.size ≠ some mine.length) then unpacked cap all false
        else unzstd cap fuel all (if h.check then t.drop 4 else t)

/-- The output of the Zstandard decoder. -/
def zstd (cap : Nat) (b : List Byte) : Unpacked := unzstd cap b.length [] b

/-- The headers of the frames of a file, as far as its blocks can be walked without decoding. -/
def zWalk : Nat → List Byte → Option (List Byte)
  | 0, _ => none
  | fuel + 1, b =>
    let h := bget b 0 3
    let len := if h / 2 % 4 = 1 then 1 else h / 8
    if b.length < 3 + len then none else if h % 2 = 1 then some (b.drop (3 + len)) else zWalk fuel (b.drop (3 + len))

def zHeads : Nat → List Byte → List ZHead
  | 0, _ => []
  | fuel + 1, b =>
    if b.length < 8 then []
    else if bget b 0 4 / 16 = 0x184D2A5 then zHeads fuel (b.drop (8 + bget b 4 4))
    else if bget b 0 4 ≠ 0xFD2FB528 then []
    else match zHead (b.drop 4) with
    | none => []
    | some (h, d) =>
      h :: (match zWalk (d.length + 1) d with
        | none => []
        | some t => zHeads fuel (if h.check then t.drop 4 else t))

end Sys2Proof.Machine
end

