-- ==== Sys2Proof/Machine/FeedData.lean ====
section
/-! DEFINITION. What the Feed's other units compute (R368 to R370, R386): crop and resize, the tokenizer,
RTP packets and uncompressed frames. -/

namespace Sys2Proof.Machine
open Sys2Proof

/-! ### Crop and resize (R368) -/

/-- One output sample of channel `c` from a `cw` by `ch` crop at (cx, cy) of an image of width `w` with
`nc` channels. -/
def resizeAt (px : List Byte) (w nc cx cy cw ch ow oh c ox oy : Nat) : Byte :=
  let f (o n m : Nat) : Nat := ((max 0 (min (((n - 1) * 65536 : Nat) : Int) (((2 * o + 1) * n * 65536 / (2 * m) : Nat) - 32768 : Int)))).toNat
  let fx := f ox cw ow
  let fy := f oy ch oh
  let x0 := fx / 65536
  let ax := fx % 65536
  let x1 := min (x0 + 1) (cw - 1)
  let y0 := fy / 65536
  let ay := fy % 65536
  let y1 := min (y0 + 1) (ch - 1)
  let p (x y : Nat) : Nat := (px.getD (((cy + y) * w + cx + x) * nc + c) 0).toNat
  let top := p x0 y0 * (65536 - ax) + p x1 y0 * ax
  let bot := p x0 y1 * (65536 - ax) + p x1 y1 * ax
  BitVec.ofNat 8 ((top * (65536 - ay) + bot * ay + 2 ^ 31) / 2 ^ 32)

/-- Crop and resize an image; an empty crop is DECODE_ERROR. `crop` is x, y, width, height, and a width or
height of 0 means the whole image (R373). -/
def cropResize (w h nc : Nat) (px : List Byte) (crop : List (BitVec 16)) (ow oh : Nat) : Decoded :=
  let g (i : Nat) : Nat := (crop.getD i 0).toNat
  let whole := g 2 = 0 || g 3 = 0
  let x := if whole then 0 else g 0
  let y := if whole then 0 else g 1
  let cw := if whole then w else min (g 2) (w - x)
  let ch := if whole then h else min (g 3) (h - y)
  if cw = 0 || ch = 0 then .bad stDecodeError
  else .bytes ((List.range oh).flatMap fun oy => (List.range ow).flatMap fun ox => (List.range nc).map fun c =>
    resizeAt px w nc x y cw ch ow oh c ox oy)

/-! ### The tokenizer (R369, R370) -/

/-- Whether a byte continues a UTF-8 sequence. -/
def cont (b : Nat) : Bool := 0x80 ≤ b && b ≤ 0xBF

/-- The length of the character that a byte string begins with (RFC 3629). -/
def charLen (l : List Byte) : Nat :=
  let b (i : Nat) : Nat := (l.getD i 0).toNat
  let b0 := b 0
  let b1 := b 1
  if 0xC2 ≤ b0 && b0 ≤ 0xDF && cont b1 then 2
  else if cont (b 2) && ((b0 = 0xE0 && 0xA0 ≤ b1 && b1 ≤ 0xBF) || (b0 = 0xED && 0x80 ≤ b1 && b1 ≤ 0x9F)
      || (((0xE1 ≤ b0 && b0 ≤ 0xEC) || b0 = 0xEE || b0 = 0xEF) && cont b1)) then 3
  else if cont (b 2) && cont (b 3) && ((b0 = 0xF0 && 0x90 ≤ b1 && b1 ≤ 0xBF) || (b0 = 0xF4 && 0x80 ≤ b1 && b1 ≤ 0x8F)
      || (0xF1 ≤ b0 && b0 ≤ 0xF3 && cont b1)) then 4
  else 1

/-- The characters of a byte string. -/
def charsOf : Nat → List Byte → List (List Byte)
  | 0, _ => []
  | fuel + 1, l => if l.isEmpty then [] else l.take (charLen l) :: charsOf fuel (l.drop (charLen l))

/-- A piece: the class it was formed with and its characters. -/
abbrev Piece := Byte × List (List Byte)

/-- The class of a character. -/
def charClass (tab : List Byte) (c : List Byte) : Byte := tab.getD (c.getD 0 0).toNat 0

/-- Step 1: a boundary where the class changes, and before every character of a SINGLE class. The
current piece is kept reversed. -/
def splitPieces (tab : List Byte) : Option Piece → List (List Byte) → List Piece
  | none, [] => []
  | some (k, cs), [] => [(k, cs.reverse)]
  | none, c :: t => splitPieces tab (some (charClass tab c, [c])) t
  | some (k, cs), c :: t =>
    let k' := charClass tab c
    if k' = k && !bitAt k' 4 then splitPieces tab (some (k, c :: cs)) t
    else (k, cs.reverse) :: splitPieces tab (some (k', [c])) t

/-- Step 2: the last character of a piece of LEAD characters moves to a following piece of another
class; `carry` is what moved to the piece at hand. -/
def moveLead (tab : List Byte) : List (List Byte) → List Piece → List Piece
  | _, [] => []
  | carry, p :: t =>
    let cs := carry ++ p.2
    match t.head? with
    | none => [(p.1, cs)]
    | some q =>
      if cs.all (fun c => bitAt (charClass tab c) 5) && p.1 ≠ q.1 then
        (if cs.dropLast.isEmpty then [] else [(p.1, cs.dropLast)]) ++ moveLead tab [cs.getLastD []] t
      else (p.1, cs) :: moveLead tab [] t

/-- Step 3: characters gathered into runs of at most 1,024 bytes. -/
def cutPiece : List Byte → List (List Byte) → List (List Byte)
  | acc, [] => if acc.isEmpty then [] else [acc]
  | acc, c :: t => if 1024 < acc.length + c.length then acc :: cutPiece c t else cutPiece (acc ++ c) t

/-- The rank of a pair: its first entry in the merge table. -/
def pairRank (m : List (Nat × Nat)) (a b : Nat) : Option Nat := findIdx? (fun x => decide (x = (a, b))) m

/-- The lowest rank among the adjacent pairs. -/
def bestRank (m : List (Nat × Nat)) : List Nat → Option Nat
  | a :: b :: t =>
    match pairRank m a b, bestRank m (b :: t) with
    | none, r => r
    | some x, none => some x
    | some x, some y => some (min x y)
  | _ => none

/-- Replace the leftmost pair of rank `r`. -/
def mergeFirst (m : List (Nat × Nat)) (r : Nat) : List Nat → List Nat
  | a :: b :: t => if pairRank m a b = some r then (256 + r) :: t else a :: mergeFirst m r (b :: t)
  | l => l

/-- Merge until no adjacent pair has an entry. -/
def bpe (m : List (Nat × Nat)) : Nat → List Nat → List Nat
  | 0, l => l
  | fuel + 1, l =>
    match bestRank m l with
    | none => l
    | some r => bpe m fuel (mergeFirst m r l)

/-- The tokens of a byte string. -/
def tokenize (tab : List Byte) (m : List (Nat × Nat)) (b : List Byte) : List Nat :=
  (moveLead tab [] (splitPieces tab none (charsOf b.length b))).flatMap fun p =>
    (cutPiece [] p.2).flatMap fun l => bpe m l.length (l.map BitVec.toNat)

/-! ### RTP (R385, R386) -/

/-- An RTP packet (RFC 3550): payload type, SSRC and the rest, if it is version 2. -/
def rtpOf (stamp : BitVec 64) (b : List Byte) : Option (Nat × BitVec 32 × RtpPkt) :=
  let b0 := (b.getD 0 0).toNat
  let b1 := (b.getD 1 0).toNat
  let off := 12 + 4 * (b0 % 16)
  let off := if b0 / 16 % 2 = 1 then off + 4 + 4 * be16 b (off + 2) else off
  let pad := if b0 / 32 % 2 = 1 then (b.getLastD 0).toNat else 0
  if b0 / 64 = 2 && off + pad ≤ b.length then
    some (b1 % 128, BitVec.ofNat 32 (be32 b 8),
      { seq := BitVec.ofNat 16 (be16 b 2), ts := BitVec.ofNat 32 (be32 b 4), marker := 128 ≤ b1, stamp := stamp
        payload := (b.drop off).take (b.length - off - pad) })
  else none

/-- The packets of a frame that ends at the marker `last`, oldest first, when no number is missing
between the first of them and the marker. -/
def frameOf (ps : List RtpPkt) (last : RtpPkt) : Option (List RtpPkt) :=
  let dist (p : RtpPkt) : Nat := (last.seq - p.seq).toNat
  let mine := ps.filter fun p => p.ts = last.ts && dist p < 32768
  let far := mine.foldl (fun a p => max a (dist p)) 0
  let l := (List.range (far + 1)).map fun i => mine.find? fun p => dist p = far - i
  if l.all Option.isSome then some (l.filterMap id) else none

/-- Whether timestamp `a` precedes `b` in serial-number order. -/
def tsBefore (a b : BitVec 32) : Bool := let d := (b - a).toNat; 0 < d && d < 2 ^ 31

/-- The line headers of an RFC 4175 payload from `off` on: length, line, pixel offset; and where the
data begins. -/
def lineHeads : Nat → List Byte → Nat → List (Nat × Nat × Nat) × Nat
  | 0, _, off => ([], off)
  | fuel + 1, b, off =>
    let h := (be16 b off, be16 b (off + 2) % 32768, be16 b (off + 4) % 32768)
    if 32768 ≤ be16 b (off + 4) then
      let r := lineHeads fuel b (off + 6)
      (h :: r.1, r.2)
    else ([h], off + 6)

/-- Pixel groups of 4:2:2 samples as RGB. -/
def yuvRow : List Byte → List Byte
  | cb :: y0 :: cr :: y1 :: t => ycc y0 cb cr ++ ycc y1 cb cr ++ yuvRow t
  | _ => []

/-- The RGB runs of an RFC 4175 payload: line, pixel, bytes. -/
def lineRuns (yuv : Bool) (b : List Byte) : List (Nat × Nat × List Byte) :=
  let h := lineHeads (b.length / 6) b 2
  (h.1.foldl (fun (r : List (Nat × Nat × List Byte) × Nat) x =>
    let d := (b.drop r.2).take x.1
    (r.1 ++ [(x.2.1, x.2.2, if yuv then yuvRow d else d)], r.2 + x.1)) ([], h.2)).1

/-- The frame that RFC 4175 payloads give, bytes no packet carries free (DESIGN CHOICE, log entry 7); `none` when a run
leaves the frame. -/
def rawFrame (yuv : Bool) (w h fr : Nat) (ps : List (List Byte)) : Option (List Byte) :=
  let runs := ps.flatMap (lineRuns yuv)
  if runs.any fun r => h ≤ r.1 || 3 * w < 3 * r.2.1 + r.2.2.length then none
  else
    let at_ (r : Nat × Nat × List Byte) : Nat := 3 * (r.1 * w + r.2.1)
    some ((List.range (3 * w * h)).map fun i =>
      match runs.reverse.find? fun r => decide (at_ r ≤ i ∧ i < at_ r + r.2.2.length) with
      | some r => r.2.2.getD (i - at_ r) 0
      | none => Config.freeByte (fr + i))

end Sys2Proof.Machine
end

