-- ==== Sys2Proof/Machine/Feed.lean ====
section
/-! DEFINITION. The Feed (13): streams, samples, batches, the software ring, live lanes. Where staging
space lies and how much a sample takes is the model's choice (DESIGN CHOICE, log entry 34). -/

namespace Sys2Proof.Machine
open Sys2Proof

/-! ### Stream descriptors (R372) -/

def streamDescOf (b : List Byte) : StreamDesc where
  ctl := BitVec.ofNat 32 (bget b 0x00 4)
  slots := BitVec.ofNat 32 (bget b 0x04 4)
  slotBytes := BitVec.ofNat 32 (bget b 0x08 4)
  pad := BitVec.ofNat 32 (bget b 0x0C 4)
  ring := BitVec.ofNat 64 (bget b 0x10 8)
  log2 := BitVec.ofNat 8 (bget b 0x18 1)
  resv19 := BitVec.ofNat 8 (bget b 0x19 1)
  sem := BitVec.ofNat 16 (bget b 0x1A 2)
  budget := BitVec.ofNat 32 (bget b 0x1C 4)
  staging := BitVec.ofNat 64 (bget b 0x20 8)
  stagingBytes := BitVec.ofNat 64 (bget b 0x28 8)
  outCap := BitVec.ofNat 32 (bget b 0x30 4)
  maxRatio := BitVec.ofNat 32 (bget b 0x34 4)
  maxPixels := BitVec.ofNat 32 (bget b 0x38 4)
  maxSide := BitVec.ofNat 16 (bget b 0x3C 2)
  resv3e := BitVec.ofNat 16 (bget b 0x3E 2)
  outW := BitVec.ofNat 16 (bget b 0x40 2)
  outH := BitVec.ofNat 16 (bget b 0x42 2)
  ageLimit := BitVec.ofNat 32 (bget b 0x44 4)
  liveClose := BitVec.ofNat 32 (bget b 0x48 4)
  rtp := BitVec.ofNat 32 (bget b 0x4C 4)
  ssrc := BitVec.ofNat 32 (bget b 0x50 4)
  width := BitVec.ofNat 16 (bget b 0x54 2)
  height := BitVec.ofNat 16 (bget b 0x56 2)
  resv58 := bslice b 0x58 40

def StreamDesc.live (d : StreamDesc) : Bool := field d.ctl 1 0 = 1
def StreamDesc.pipe (d : StreamDesc) : Nat := field d.ctl 4 2
def StreamDesc.wrap (d : StreamDesc) : Nat := field d.ctl 6 5
def StreamDesc.truncate (d : StreamDesc) : Bool := bitAt d.ctl 7
def StreamDesc.swAllowed (d : StreamDesc) : Bool := bitAt d.ctl 8
def StreamDesc.lane (d : StreamDesc) : Nat := field d.ctl 11 9
def StreamDesc.b (d : StreamDesc) : Nat := d.slots.toNat
def StreamDesc.raw (d : StreamDesc) : Bool := bitAt d.rtp 7
def StreamDesc.tokens (d : StreamDesc) : Bool := !d.live && 4 ≤ d.pipe && d.pipe ≤ 6
/-- A value that stands for its default when zero. -/
def orDefault (v d : Nat) : Nat := if v = 0 then d else v
def StreamDesc.cap (d : StreamDesc) : Nat :=
  orDefault d.outCap.toNat (if d.pipe = 2 || d.pipe = 3 then d.slotBytes.toNat else 2 ^ 32 - 1)
def StreamDesc.ratio (d : StreamDesc) : Nat := orDefault d.maxRatio.toNat 400
def StreamDesc.pixels (d : StreamDesc) : Nat := orDefault d.maxPixels.toNat 67108864
def StreamDesc.side (d : StreamDesc) : Nat := orDefault d.maxSide.toNat 16384

/-- Whether a stream needs a feature that is not enabled: FEED_LIVE for a live stream, TOKENIZER for
PIPE 4 to 6, and FEED for the rest (R428). -/
def StreamDesc.off (s : State) (d : StreamDesc) : Bool :=
  let tok := decide (4 ≤ d.pipe ∧ d.pipe ≤ 6)
  (d.live && !featureOn s 5) || (tok && !featureOn s 6) || (!d.live && !tok && !featureOn s 4)

/-- Whether a stream descriptor is invalid, or needs a disabled feature (R372, R428). -/
def StreamDesc.bad (s : State) (d : StreamDesc) : Bool :=
  let image := d.live || d.pipe = 0
  field d.ctl 31 12 ≠ 0 || 2 ≤ field d.ctl 1 0 || d.wrap = 3
  || d.slots = 0 || 4096 < d.b || d.slotBytes = 0 || d.slotBytes.toNat % 128 ≠ 0
  || d.ring.toNat % 64 ≠ 0 || d.log2.toNat < 2 || 10 < d.log2.toNat || d.resv19 ≠ 0
  || (d.sem ≠ 0xFFFF && 2047 < d.sem.toNat) || d.staging.toNat % 128 ≠ 0 || d.resv3e ≠ 0
  || (image && (d.outW = 0 || d.outH = 0 || d.slotBytes.toNat < d.outW.toNat * d.outH.toNat * 3))
  || field d.rtp 31 9 ≠ 0 || !allZero d.resv58
  || d.off s

/-! ### State of a Feed -/

def feedReset : Feed := ⟨.off, [], [], [], [], [], [], 0⟩
def feedOf (s : State) (h : Half) : Feed := sget feedReset s.feeds h.val
def setFeed (s : State) (h : Half) (f : Feed) : State := { s with feeds := sset s.feeds h.val f }

def streamReset : Stream where
  st := .closed
  space := ⟨0, 0, 0⟩
  desc := none
  next := 0
  batch := 0
  firstSeq := 0
  ringPos := 0
  slots := []
  stale := []
  samples := []
  flushes := []
  closeOut := none
  owned := 0
  waitDesc := false
  pkts := []
  lastTs := none
  ssrc := none
  qtabs := []

def streamOf (s : State) (h : Half) (k : Nat) : Stream := sget streamReset (feedOf s h).streams k
def setStream (s : State) (h : Half) (k : Nat) (v : Stream) : State :=
  setFeed s h { feedOf s h with streams := sset (feedOf s h).streams k v }
/-- The descriptor of a stream that is not CLOSED. -/
def Stream.d (v : Stream) : StreamDesc := v.desc.getD (streamDescOf [])
/-- Whether the Feed accepts commands. -/
def feedOn (s : State) (h : Half) : Bool := alive s && !halfFenced s h && decide ((feedOf s h).run = .running)
/-- Whether its engines work: it runs, or was stopped by driver loss (R390). -/
def feedWorks (s : State) (h : Half) : Bool :=
  alive s && !halfFenced s h && ((feedOf s h).run = .running || (feedOf s h).run = .stopped)
def fedFrame (h : Half) : Frame := .fed h

/-- Change the sample with a sequence number. -/
def setSample (v : Stream) (seq : Nat) (f : Sample → Sample) : Stream :=
  { v with samples := v.samples.map fun x =>
      match x.st with
      | .late _ => x
      | _ => if x.seq = seq then f x else x }

/-- A sample that still has no slot. -/
def sampleAt (v : Stream) (seq : Nat) : Option Sample :=
  v.samples.find? fun x => x.seq = seq && (match x.st with | .late _ => false | _ => true)

/-- Samples that have no slot yet. -/
def Stream.open_ (v : Stream) : List Sample := v.samples.filter fun x => match x.st with | .late _ => false | _ => true

/-! ### Slots (R374, R375, R382, R383) -/

/-- The place of a Feed code in the order of R194 and R383. -/
def feedRank (c : BitVec 8) : Nat :=
  if statusRank c ≠ 9 then statusRank c
  else if c = stImplausible then 9 else if c = stOutCap then 10 else if c = stDecodeError then 11
  else if c = stLate then 12 else 13

/-- The first of the codes, OK when there is none. -/
def feedFirst (l : List (BitVec 8)) : BitVec 8 := l.foldl (fun a b => if feedRank b < feedRank a then b else a) stOk

/-- The slot that a result gives (R375, R382). -/
def slotOf (d : StreamDesc) (x : Sample) (r : Decoded) : Slot :=
  let base : Slot := { seq := x.seq, status := stOk, valid := true, sw := x.sw, trunc := false, len := 0
                       stamp := x.stamp, cookie := x.cookie, data := [] }
  let padded (st : BitVec 8) : Slot := { base with status := st, valid := false }
  let n := d.slotBytes.toNat
  match r with
  | .bad st => padded st
  | .bytes b =>
    if b.length ≤ n then { base with len := b.length, data := b }
    else if d.truncate then { base with len := n, data := b.take n, trunc := true } else padded stOutCap
  | .tokens t =>
    let m := n / 4
    let put (t : List Nat) : List Byte := t.flatMap (leBytes 4)
    if t.length ≤ m then { base with len := t.length, data := put t }
    else if d.truncate then { base with len := m, data := put (t.take m), trunc := true } else padded stOutCap
  | .image _ _ _ px => { base with len := px.length, data := px }

/-- The counters of a written slot. -/
def countSlot (s : State) (h : Half) (x : Slot) : State :=
  let f := fedFrame h
  let s := count s f 0x40 1
  let s := if x.valid then s else count s f 0x48 1
  if x.status = stLate then count s f 0x50 1
  else if x.status = stImplausible then count s f 0x60 1
  else if x.status = stOutCap then count s f 0x68 1
  else if x.status = stDecodeError then count s f 0x70 1
  else s

/-- A FEED_SUBMIT has one slot more; with its last it completes (R383). -/
def submitSlot (s : State) (h : Half) (out : Option Nat) (x : Slot) : State :=
  match out with
  | none => s
  | some id =>
    let f := feedOf s h
    match f.submits.find? fun u => u.out = id with
    | none => s
    | some u =>
      let u := { u with
        left := u.left - 1
        codes := if x.status = stOk then u.codes else if u.codes.contains x.status then u.codes else u.codes ++ [x.status]
        padded := u.padded + if x.valid then 0 else 1
        truncd := u.truncd + if x.trunc then 1 else 0 }
      if u.left = 0 then
        report (setFeed s h { f with submits := f.submits.filter fun w => w.out ≠ id }) id (feedFirst u.codes) u.first
          (u.padded + 2 ^ 32 * u.truncd)
      else setFeed s h { f with submits := f.submits.map fun w => if w.out = id then u else w }

/-- The slot of a ready sample, as a distance from the current batch's first: a file sample that of its sequence number, a
live frame the next, in order (R374, R387). -/
def slotFor (v : Stream) (x : Sample) : Option Nat :=
  if v.d.live then (if v.open_.any fun y => y.seq < x.seq then none else some v.slots.length)
  else if v.firstSeq ≤ x.seq then some (x.seq - v.firstSeq) else none

/-- How many batches lie between the one that starts at slot `f` and that of slot `n`, of `b` slots each but for those that
end early (R374, R377). -/
def batchAhead (b : Nat) : List Nat → Nat → Nat → Nat
  | [], f, n => (n - f) / b
  | c :: t, f, n => if n < c then (n - f) / b else (c - f + b - 1) / b + batchAhead b t (max f c) n

/-- The batch of a slot of a stream, counted from the current one. -/
def Stream.batchOf (v : Stream) (j : Nat) : Nat := batchAhead v.d.b (v.flushes.map Prod.snd) v.firstSeq (v.firstSeq + j)

/-- The result of a sample that waits for its slot. -/
def readyOf (x : Sample) : Option Decoded := match x.st with | .ready r => some r | _ => none

/-- The first sample whose slot lies in a batch that `p` admits. -/
def nextPlace (v : Stream) (p : Nat → Bool) : Option (Sample × Decoded × Nat) :=
  v.samples.findSome? fun x => (readyOf x).bind fun r => ((slotFor v x).filter fun j => p (v.batchOf j)).map fun j => (x, r, j)

/-- Whether a live frame is too old (R387). -/
def tooOld (s : State) (d : StreamDesc) (x : Sample) : Bool :=
  d.live && d.ageLimit ≠ 0 && d.ageLimit.toNat < s.tick.toNat - x.stamp.toNat

/-- The address of the batch descriptor `j` places after the current one. -/
def Stream.descAt (v : Stream) (j : Nat) : Nat := v.d.ring.toNat + 64 * ((v.ringPos + j) % 2 ^ v.d.log2.toNat)

/-- Look at the first batch descriptor not known to be owned; the Feed waits for it while its OWN is clear or it cannot be
read, and counts where that is the next one (R374, R376). -/
def lookAhead (s : State) (h : Half) (k : Nat) : State :=
  let v := streamOf s h k
  let wait (s : State) : State :=
    let s := setStream s h k { streamOf s h k with waitDesc := true }
    if v.owned = 0 then count s (fedFrame h) 0x80 1 else s
  match vread s h v.space (v.descAt v.owned) 64 with
  | (s, .error _) => wait s
  | (s, .ok pb) =>
    if pb.poisoned || bget pb.bytes 0 4 / 2 ^ 31 = 0 then wait s else setStream s h k { streamOf s h k with owned := v.owned + 1 }

/-- The bytes of slot `j`: its output, and padding up to SLOT_BYTES. -/
def slotBytes (d : StreamDesc) (x : Option Slot) : List Byte :=
  let b := match x with | some x => x.data | none => []
  let n := d.slotBytes.toNat
  let pad := if d.tokens then (List.range n).map fun i => BitVec.ofNat 8 (d.pad.toNat / 256 ^ (i % 4))
    else List.replicate n (d.pad.setWidth 8)
  b ++ pad.drop b.length

/-- The place within its batch of a slot, counted as `batchAhead` counts batches. -/
def batchPlace (b : Nat) : List Nat → Nat → Nat → Nat
  | [], f, n => (n - f) % b
  | c :: t, f, n => if n < c then (n - f) % b else batchPlace b t (max f c) n

/-- Put the bytes of slot `j` at their place under the DATA_ADDR of its batch's descriptor: what a stopped Feed, which emits
no batch, still writes (R390). -/
def slotStore (s : State) (h : Half) (k j : Nat) (w : Slot) : State :=
  let v := streamOf s h k
  match vread s h v.space (v.descAt (v.batchOf j)) 64 with
  | (s, .error _) => s
  | (s, .ok pb) =>
    let place := batchPlace v.d.b (v.flushes.map Prod.snd) v.firstSeq (v.firstSeq + j)
    (vwrite s h v.space (bget pb.bytes 8 8 + place * v.d.slotBytes.toNat) (slotBytes v.d (some w)) fun _ => false).1

/-- A slot is written (R374): counted, told to its FEED_SUBMIT, and held until its batch leaves; a stopped Feed puts its bytes
into memory at once (R390). -/
def writeSlot (s : State) (h : Half) (k j : Nat) (submit : Option Nat) (w : Slot) : State :=
  let v := streamOf s h k
  let s := submitSlot (countSlot (setStream s h k { v with slots := sset v.slots j w }) h w) h submit w
  if (feedOf s h).run = .stopped then slotStore s h k j w else s

/-- Write every slot that can be written: those of batches whose descriptors are owned (R374, R389). -/
def placeAll : Nat → Half → Nat → State → State
  | 0, _, _, s => s
  | fuel + 1, h, k, s =>
    let v := streamOf s h k
    match nextPlace v fun n => decide (n < v.owned) with
    | none =>
      if v.waitDesc || (nextPlace v fun n => decide (n < 2 ^ v.d.log2.toNat)).isNone then s
      else placeAll fuel h k (lookAhead s h k)
    | some (x, r, j) =>
      let n := v.batch + v.batchOf j
      let v := { v with samples := v.samples.filter fun y => y ≠ x }
      if tooOld s v.d x then
        placeAll fuel h k (count (setStream s h k { v with stale := sset v.stale n (sget 0 v.stale n + 1) }) (fedFrame h) 0x88 1)
      else
        placeAll fuel h k (writeSlot (setStream s h k v) h k j x.submit (slotOf v.d x r))

/-- The samples whose budget expired while software held them: they keep their staging space until it returns them (R384). -/
def Stream.lates (v : Stream) : List Sample := v.samples.filter fun x => match x.st with | .late _ => true | _ => false

/-- A stream is CLOSED; what software still holds of it stays (R377, R384). -/
def streamClosed (s : State) (h : Half) (k : Nat) : State :=
  let v := streamOf s h k
  if v.lates.isEmpty then setFeed s h { feedOf s h with streams := sdel (feedOf s h).streams k }
  else setStream s h k { streamReset with desc := v.desc, samples := v.lates }

/-- Complete the flushes and the close that need no batch any more (R377). -/
def settleFlush : Nat → Half → Nat → State → State
  | 0, _, _, s => s
  | fuel + 1, h, k, s =>
    let v := streamOf s h k
    match v.flushes with
    | (out, lim) :: rest =>
      if lim ≤ v.firstSeq then
        let s := setStream s h k { v with flushes := rest }
        settleFlush fuel h k (out.elim s fun id => report s id stOk 0 0)
      else s
    | [] =>
      match v.closeOut with
      | some id =>
        if v.slots.isEmpty && v.open_.isEmpty then
          report (streamClosed s h k) id stOk 0 0
        else s
      | none => s

/-- What follows a change of a stream's samples. -/
def settleStream (s : State) (h : Half) (k : Nat) : State :=
  let v := streamOf s h k
  let s := placeAll (v.samples.length + 2 ^ v.d.log2.toNat + 1) h k s
  settleFlush (v.flushes.length + 2) h k s

/-! ### Loading the tokenizer (R380) -/

/-- Whether a tokenizing sample is dispatched and unfinished. -/
def tokenizing (f : Feed) : Bool :=
  f.streams.any fun p => p.2.d.tokens && p.2.samples.any fun x =>
    match x.st with
    | .engine _ _ | .software _ => true
    | _ => false

/-- An entry of the merge table: LEFT, RIGHT. -/
def mergeEntry (e : Nat) : Nat × Nat := (e % 2 ^ 19, e / 2 ^ 19 % 2 ^ 19)

/-- Perform a load: its tables are read and checked. -/
def loadMerges (s : State) (h : Half) (l : MergeLoad) : State :=
  match vread s h l.space l.merges (8 * l.count) with
  | (s, .error e) => report s l.out e.status 0 0
  | (s, .ok mb) =>
    match vread s h l.space l.classes 256 with
    | (s, .error e) => report s l.out e.status 0 0
    | (s, .ok cb) =>
      if mb.poisoned || cb.poisoned then report s l.out stDataPoison 0 0
      else
        let es := (List.range l.count).map fun i => bget mb.bytes (8 * i) 8
        let bad := (es.zipIdx).any fun x =>
          2 ^ 38 ≤ x.1 || 256 + x.2 ≤ (mergeEntry x.1).1 || 256 + x.2 ≤ (mergeEntry x.1).2
        if bad || cb.bytes.any fun c => 64 ≤ c.toNat then report s l.out stMalformed 0 0
        else report (setFeed s h { feedOf s h with merges := es.map mergeEntry, classes := cb.bytes }) l.out stOk 0 0

/-- Perform the loads that no tokenizing sample holds back. -/
def settleLoads : Nat → Half → State → State
  | 0, _, s => s
  | fuel + 1, h, s =>
    let f := feedOf s h
    match f.loads with
    | [] => s
    | l :: rest => if tokenizing f then s else settleLoads fuel h (loadMerges (setFeed s h { f with loads := rest }) h l)

/-! ### Commands (R371) -/

/-- The half of a command's queue. -/
def jHalf (c : JCmd) : Half := queueHalf c.queue.toNat
def jSpace (s : State) (c : JCmd) : Space := queueSpace s c.queue.toNat
/-- Whether the Feed does not take commands now. -/
def feedHeld (s : State) (h : Half) : Bool := (feedOf s h).run ≠ .running

/-- What software still holds of the stream's last opening: its place is kept where the staging area is the same (R384;
DESIGN CHOICE, log entry 34). -/
def heldOver (v : Stream) (d : StreamDesc) : List Sample :=
  v.lates.map fun x => if v.d.staging = d.staging then x else { x with stage := none }

/-- FEED_STREAM_OPEN (R371, R372). -/
def runFeedStreamOpen (poison : Bool) (c : JCmd) (s : State) : State :=
  let h := jHalf c
  let k := bget c.body 0 4
  let a := bget c.body 8 8
  let sp := jSpace s c
  gate s c 0x60 poison false (32 ≤ k || bget c.body 4 4 ≠ 0 || a % 128 ≠ 0 || (streamOf s h k).st ≠ .closed) false (feedHeld s h) fun id s =>
    match vread s h sp a 128 with
    | (s, .error e) => report s id e.status 0 0
    | (s, .ok pb) =>
      let d := streamDescOf pb.bytes
      if pb.poisoned then report s id stDataPoison 0 0
      else if d.bad s then report s id stMalformed 0 0
      else report (setStream s h k { streamReset with st := .opened, space := sp, desc := some d, samples := heldOver (streamOf s h k) d }) id stOk 0 0

def execFeedStreamOpen (c : JCmd) (s : State) : Out := .next (runFeedStreamOpen false c s)

/-- A sample of a descriptor (R373). -/
def sampleOf (s : State) (id seq : Nat) (b : List Byte) : Sample where
  seq := seq
  src := BitVec.ofNat 64 (bget b 0 8)
  len := BitVec.ofNat 32 (bget b 8 4)
  budget := BitVec.ofNat 32 (bget b 12 4)
  crop := (List.range 4).map fun i => BitVec.ofNat 16 (bget b (0x10 + 2 * i) 2)
  cookie := BitVec.ofNat 64 (bget b 0x18 8)
  submit := some id
  stamp := s.tick
  bytes := []
  sw := false
  stage := none
  st := .queued

/-- FEED_SUBMIT (R371, R373, R374): the descriptors are read, and each sample takes the next sequence
number. -/
def runFeedSubmit (poison : Bool) (c : JCmd) (s : State) : State :=
  let h := jHalf c
  let k := bget c.body 0 4
  let n := bget c.body 4 4
  let a := bget c.body 8 8
  let v := streamOf s h k
  let bad := 32 ≤ k || v.st ≠ .opened || v.d.off s || v.d.live || n = 0 || 65536 < n || a % 32 ≠ 0
  gate s c 0x61 poison false bad false (feedHeld s h) fun id s =>
    match vread s h v.space a (32 * n) with
    | (s, .error e) => report s id e.status 0 0
    | (s, .ok pb) =>
      if pb.poisoned then report s id stDataPoison 0 0
      else
        let v := streamOf s h k
        let xs := (List.range n).map fun i => sampleOf s id (v.next + i) (bslice pb.bytes (32 * i) 32)
        if xs.any fun x => x.len = 0 then report s id stMalformed 0 0
        else
          let s := setFeed s h { feedOf s h with submits := (feedOf s h).submits ++ [⟨id, v.next, n, [], 0, 0⟩] }
          setStream s h k { v with next := v.next + n, samples := v.samples ++ xs }

def execFeedSubmit (c : JCmd) (s : State) : Out := .next (runFeedSubmit false c s)

/-- The slot before which a flush ends the batch: that of the next sample to come, of a live stream the next to be written
(R371, R377). -/
def Stream.flushAt (v : Stream) : Nat := if v.d.live then v.firstSeq + v.slots.length else v.next

/-- FEED_FLUSH (R371, R377). -/
def runFeedFlush (poison : Bool) (c : JCmd) (s : State) : State :=
  let h := jHalf c
  let k := bget c.body 0 4
  gate s c 0x62 poison false (32 ≤ k || (streamOf s h k).st ≠ .opened || (streamOf s h k).d.off s) false (feedHeld s h) fun id s =>
    let v := streamOf s h k
    settleStream (setStream s h k { v with flushes := v.flushes ++ [(some id, v.flushAt)] }) h k

def execFeedFlush (c : JCmd) (s : State) : Out := .next (runFeedFlush false c s)

/-- FEED_STREAM_CLOSE (R371, R377). -/
def runFeedStreamClose (poison : Bool) (c : JCmd) (s : State) : State :=
  let h := jHalf c
  let k := bget c.body 0 4
  gate s c 0x63 poison false (32 ≤ k || (streamOf s h k).st ≠ .opened || (streamOf s h k).d.off s) false (feedHeld s h) fun id s =>
    settleStream (setStream s h k { streamOf s h k with st := .closing, closeOut := some id, pkts := [] }) h k

def execFeedStreamClose (c : JCmd) (s : State) : Out := .next (runFeedStreamClose false c s)

/-- FEED_LOAD_MERGES (R371, R380). -/
def runFeedLoadMerges (poison : Bool) (c : JCmd) (s : State) : State :=
  let h := jHalf c
  let n := bget c.body 4 4
  let sp := jSpace s c
  gate s c 0x64 poison false (bget c.body 0 4 ≠ 0 || 262144 < n) false (feedHeld s h) fun id s =>
    let f := feedOf s h
    let f := { f with loads := f.loads ++ [⟨id, sp, n, bget c.body 8 8, bget c.body 16 8⟩] }
    settleLoads f.loads.length h (setFeed s h f)

def execFeedLoadMerges (c : JCmd) (s : State) : Out := .next (runFeedLoadMerges false c s)

/-! ### Dispatch of a sample (R378, R381, R382) -/

/-- Samples queued at an engine. -/
def engineLoad (f : Feed) (kind k : Nat) : Nat :=
  f.streams.foldl (fun n p => n + (p.2.samples.filter fun x => x.st = .engine kind k).length) 0

/-- Live engines of a kind. -/
def liveEngines (s : State) (h : Half) (kind : Nat) : List Nat :=
  (List.range (if kind = 3 then 4 else 8)).filter fun k => !feedEngFenced s h kind k

/-- The engine a sample goes to: the fewest queued, the lowest index on a tie, with room. -/
def pickEngine (s : State) (h : Half) (kind : Nat) : Option Nat :=
  let f := feedOf s h
  match (liveEngines s h kind).foldl (fun (b : Option (Nat × Nat)) k =>
    let n := engineLoad f kind k
    match b with | some (m, j) => if n < m then some (n, k) else some (m, j) | none => some (n, k)) none with
  | some (n, k) => if n < 4 then some k else none
  | none => none

/-- Every kind of engine that a pipe needs. -/
def pipeKinds (d : StreamDesc) : List Nat :=
  if d.live then (if d.raw then [] else [0])
  else match d.pipe with
    | 0 => [0] | 2 => [1] | 3 => [2] | 4 => [3] | 5 => [1, 3] | 6 => [2, 3] | _ => []

/-- The kind of engine that a pipe begins with; the copy pipe has none. -/
def pipeKind (d : StreamDesc) : Option Nat :=
  if d.live then (if d.raw then none else some 0)
  else match d.pipe with
    | 0 => some 0 | 2 | 5 => some 1 | 3 | 6 => some 2 | 4 => some 3 | _ => none

/-- FED_CFG.SW_DEPTH. -/
def swDepth (s : State) (h : Half) : Nat := min 4 (field (regAct s ((fedFrame h).base + 4)) 2 0)
def swrLog2 (s : State) (h : Half) : Nat := max 4 (min 12 (field (regAct s ((fedFrame h).base + 0x20)) 3 0))
def swrOn (s : State) (h : Half) : Bool := bitAt (regAct s ((fedFrame h).base + 0x20)) 4
def swrBase (s : State) (h : Half) : Nat := regAct64 s ((fedFrame h).base + 0x18) / 4096 * 4096

/-- Where a sample goes. -/
inductive Route where
  | engine (kind k : Nat)
  | software
  | now (d : Decoded)
  | wait
  deriving DecidableEq, Repr

/-- Routing (R378): what the hardware does not cover, or needs a kind without a live engine (R31), takes the software ring;
a sample may go there by load. -/
def routeSample (s : State) (h : Half) (d : StreamDesc) (bytes : List Byte) (covered : Bool) : Route :=
  if !d.live && d.pipe = 1 then .now (.bytes bytes)
  else match pipeKind d with
  | none => if d.live then .now (.image d.width.toNat d.height.toNat 3 bytes) else if swrOn s h then .software else .now (.bad stDecodeError)
  | some kind =>
    let es := liveEngines s h kind
    if !covered || (pipeKinds d).any fun n => (liveEngines s h n).isEmpty then (if swrOn s h then .software else .now (.bad stDecodeError))
    else if d.swAllowed && swDepth s h ≠ 0 && swrOn s h && es.all fun k => swDepth s h ≤ engineLoad (feedOf s h) kind k then
      .software
    else match pickEngine s h kind with
      | some k => .engine kind k
      | none => .wait

/-- The bytes that a sample's output may take in staging: of a tokenizing pipe one token more than its slot, so that an
output over the slot shows (R379, R382; DESIGN CHOICE, log entry 34). -/
def stageCap (d : StreamDesc) (x : Sample) (dims : Nat) : Nat :=
  let n := if d.live || d.pipe = 0 then dims
    else if d.pipe = 1 then x.len.toNat
    else if d.tokens then d.slotBytes.toNat + 4 else d.cap
  min n d.stagingBytes.toNat

/-- Staging that a sample takes, in lines. -/
def stageSize (d : StreamDesc) (x : Sample) (dims : Nat) : Nat := (stageCap d x dims + 127) / 128 * 128

/-- The lowest free place of `n` bytes in the staging area. -/
def stageAlloc (v : Stream) (n : Nat) : Option Nat :=
  let used := v.samples.filterMap (·.stage)
  let fits (o : Nat) : Bool := o + n ≤ (v.d.stagingBytes.toNat + 127) / 128 * 128 && used.all fun u => o + n ≤ u.1 || u.1 + u.2 ≤ o
  (((0 :: used.map fun u => u.1 + u.2).filter fits).foldl (fun (b : Option Nat) o =>
    match b with | none => some o | some m => some (min m o)) none)

/-- What the header of a sample says: a rejection, or whether the hardware covers it and the bytes of
its decoded image (R365, R381, R382). -/
def parseSample (d : StreamDesc) (b : List Byte) : Except (BitVec 8) (Bool × Nat) :=
  if d.live then .ok (true, if d.raw then 3 * d.width.toNat * d.height.toNat
    else (jpegHead b).elim 0 fun j => j.w * j.h * j.samp.length)
  else if d.pipe = 0 then
    match jpegHead b with
    | none => .error stDecodeError
    | some j =>
      if implausible j.w j.h j.samp.length b.length d.side d.pixels d.ratio then .error stImplausible
      else .ok (j.covered, j.w * j.h * j.samp.length)
  else if d.pipe = 7 then .ok (false, 0)
  else if d.pipe = 1 || d.pipe = 4 then .ok (true, 0)
  else if (d.pipe = 2 || d.pipe = 5) && d.wrap = 1 && bitAt (b.getD 1 0) 5 then .ok (false, 0)
  else if d.pipe = 3 || d.pipe = 6 then
    let hs := zHeads b.length b
    if hs.any fun z => d.cap < z.size.getD 0 then .error stOutCap else .ok (hs.all ZHead.covered, 0)
  else .ok (true, 0)

/-- Post a sample whose source lies at virtual address `src` to the software ring (R379): the descriptor, with an output
capacity of `cap` bytes, is filled, and then OWN_SW is set. `none` while the ring is full. -/
def postSoftware (s : State) (h : Half) (k : Nat) (v : Stream) (x : Sample) (src off n cap : Nat) : Option State :=
  let f := feedOf s h
  let i := f.swNext % 2 ^ swrLog2 s h
  if shas f.swr i then none
  else
    let fail (s : State) (st : BitVec 8) : State := setStream s h k (setSample (streamOf s h k) x.seq fun y => { y with st := .ready (.bad st), stage := none })
    match xlate s h v.space src false with
    | (s, none) => some (fail s stTranslation)
    | (s, some pa) =>
      match xlate s h v.space (v.d.staging.toNat + off) true with
      | (s, none) => some (fail s stTranslation)
      | (s, some po) =>
        let w0 := (if v.d.live then 0 else v.d.pipe) + 256 * k
        let desc := leBytes 8 w0 ++ leBytes 8 x.seq ++ leBytes 8 pa ++ leBytes 4 x.len.toNat ++ leBytes 4 cap ++ leBytes 8 po ++
          List.replicate 24 0
        let a := swrBase s h + 64 * i
        match pwrite s a desc with
        | (s, false) => some (fail s stBus)
        | (s, true) =>
          match pwrite s a (leBytes 4 (w0 + 2 ^ 31)) with
          | (s, false) => some (fail s stBus)
          | (s, true) =>
            let s := count s (fedFrame h) 0x78 1
            let s := setFeed s h { feedOf s h with
              swr := sset f.swr i (k, x.seq), swNext := (i + 1) % 2 ^ swrLog2 s h }
            some (setStream s h k (setSample (streamOf s h k) x.seq fun y => { y with st := .software i, sw := true, stage := some (off, n) }))

/-- A sample goes to the software ring. The data of a live frame, which lie in no memory of the program's, are put into
staging behind its output for software to read (DESIGN CHOICE, log entry 34). -/
def softwarePost (s : State) (h : Half) (k : Nat) (v : Stream) (x : Sample) (b : List Byte) (off n cap : Nat) : Option State :=
  if v.d.live then
    let src := v.d.staging.toNat + off + (cap + 127) / 128 * 128
    postSoftware (vwrite s h v.space src b fun _ => false).1 h k v { x with len := BitVec.ofNat 32 b.length } src off n cap
  else postSoftware s h k v x x.src.toNat off n cap

/-- The source bytes of a sample, or the status of a read that failed (R383). -/
def readSource (s : State) (h : Half) (v : Stream) (x : Sample) : State × Except (BitVec 8) (List Byte) :=
  if v.d.live then (s, .ok x.bytes)
  else
    match vread s h v.space x.src.toNat x.len.toNat with
    | (s, .error e) => (s, .error e.status)
    | (s, .ok pb) => if pb.poisoned then (s, .error stDataPoison) else (s, .ok pb.bytes)

/-- A sample ends with a status before any dispatch. -/
def rejectSample (s : State) (h : Half) (k seq : Nat) (st : BitVec 8) : State :=
  settleStream (setStream s h k (setSample (streamOf s h k) seq fun y => { y with st := .ready (.bad st) })) h k

/-- The first queued sample of a stream is parsed, checked, given staging space and dispatched; while
it must wait, nothing changes (R378, R389). -/
def sampleDispatch (s : State) (h : Half) (k : Nat) : State :=
  let v := streamOf s h k
  match v.samples.find? fun x => x.st = .queued with
  | none => s
  | some x =>
    let d := v.d
    if !feedOn s h || (d.tokens && (feedOf s h).loads ≠ []) then s
    else match readSource s h v x with
    | (s', .error st) => rejectSample s' h k x.seq st
    | (s', .ok b) =>
      match parseSample d b with
      | .error st => rejectSample s' h k x.seq st
      | .ok (covered, dims) =>
        let way := routeSample s' h d b covered
        let n := stageSize d x dims + if d.live && way = .software then (b.length + 127) / 128 * 128 else 0
        match stageAlloc v n with
        | none => s
        | some off =>
          match way with
          | .wait => s
          | .now r =>
            let st : SampleSt := match r with | .image .. => .decoded r | _ => .ready r
            settleStream (setStream s' h k (setSample (streamOf s' h k) x.seq fun y => { y with st := st, stage := some (off, n) })) h k
          | .engine kind j =>
            setStream s' h k (setSample (streamOf s' h k) x.seq fun y => { y with st := .engine kind j, bytes := b, stage := some (off, n) })
          | .software =>
            match softwarePost s' h k v x b off n (stageCap d x dims) with
            | none => s
            | some s => settleStream s h k

def execSampleDispatch (h : Half) (k : Fin 32) (s : State) : Out := .next (sampleDispatch s h k.val)

/-! ### Engines (R366 to R370, R382, R384) -/

/-- A decompressor's output under the cap. -/
def decompressed (r : Option (List Byte × Bool)) : Except (BitVec 8) (List Byte) :=
  match r with
  | none => .error stDecodeError
  | some (_, true) => .error stOutCap
  | some (b, false) => .ok b

/-- An engine's result: a decoded sample, or bytes that go on to a tokenizer. -/
def engineResult (f : Feed) (d : StreamDesc) (kind : Nat) (b : List Byte) : Decoded ⊕ List Byte :=
  if kind = 0 then .inl (decodeJpeg d.live (Config.tailCorrupt b) b)
  else if kind = 3 then .inl (.tokens (tokenize f.classes f.merges b))
  else
    match decompressed (if kind = 1 then inflate (Config.tailCorrupt b) d.wrap d.cap b else zstd d.cap b) with
    | .error st => .inl (.bad st)
    | .ok o => if d.tokens then .inr o else .inl (.bytes o)

/-- A decoded sample waits for crop and resize when it is an image, else for its slot. -/
def takeResult (s : State) (h : Half) (k seq : Nat) (r : Decoded) : State :=
  let st : SampleSt := match r with | .image .. => .decoded r | _ => .ready r
  let s := settleStream (setStream s h k (setSample (streamOf s h k) seq fun y => { y with st := st, bytes := [] })) h k
  settleLoads (feedOf s h).loads.length h s

/-- A hardware engine finishes a sample. What a tokenizer is to take waits for one with room, and without a live one the
sample is dispatched anew, to the software path (R31). -/
def decodeComplete (s : State) (h : Half) (k seq : Nat) : State :=
  let v := streamOf s h k
  match sampleAt v seq with
  | none => s
  | some x =>
    match x.st with
    | .engine kind _ =>
      if !feedWorks s h then s
      else match engineResult (feedOf s h) v.d kind x.bytes with
        | .inl r => takeResult s h k seq r
        | .inr b =>
          match pickEngine s h 3 with
          | none =>
            if (liveEngines s h 3).isEmpty then
              setStream s h k (setSample v seq fun y => { y with st := .queued, bytes := [], stage := none })
            else s
          | some j => setStream s h k (setSample v seq fun y => { y with st := .engine 3 j, bytes := b })
    | _ => s

def execDecodeComplete (h : Half) (k : Fin 32) (seq : Nat) (s : State) : Out := .next (decodeComplete s h k.val seq)

/-- The crop-and-resize unit finishes an image. -/
def resizeComplete (s : State) (h : Half) (k seq : Nat) : State :=
  let v := streamOf s h k
  match sampleAt v seq with
  | none => s
  | some x =>
    match x.st with
    | .decoded (.image w ht nc px) =>
      if !feedWorks s h then s
      else
        let r := cropResize w ht nc px (if v.d.live then [] else x.crop) v.d.outW.toNat v.d.outH.toNat
        settleStream (setStream s h k (setSample v seq fun y => { y with st := .ready r })) h k
    | _ => s

def execResizeComplete (h : Half) (k : Fin 32) (seq : Nat) (s : State) : Out := .next (resizeComplete s h k.val seq)

/-! ### The software ring (R379, R384) -/

/-- What a returned descriptor says of its sample (R379): an image whose length is not that of its sides is DECODE_ERROR,
and an output longer than its capacity OUTPUT_CAP, but that of tokens longer than their slot is cut where the slot's worth is there
(R382). -/
def softResult (d : StreamDesc) (b out : List Byte) : Decoded :=
  let st := b.getD 0x2C 0
  let nc := bget b 0x2D 1
  let w := bget b 0x2E 2
  let h := bget b 0x30 2
  if st = stOutCap then .bad stOutCap
  else if st ≠ stOk then .bad stDecodeError
  else if d.live || d.pipe = 0 then
    if (nc = 1 || nc = 3) && out.length = w * h * nc then .image w h nc out else .bad stDecodeError
  else
    let tooSmall := decide (bget b 0x1C 4 < bget b 0x28 4)
    if d.tokens && (!tooSmall || d.slotBytes.toNat ≤ out.length) then
      .tokens ((List.range (out.length / 4)).map (fun i => bget out (4 * i) 4) ++ if tooSmall then [0] else [])
    else if tooSmall then .bad stOutCap
  else .bytes out

/-- The output that software wrote into staging. -/
def softOutput (s : State) (b : List Byte) : State × Except (BitVec 8) (List Byte) :=
  if b.getD 0x2C 0 ≠ stOk then (s, .ok [])
  else
    match pread s (bget b 0x20 8) (min (bget b 0x28 4) (bget b 0x1C 4)) with
    | (s, none) => (s, .error stBus)
    | (s, some pb) => if pb.poisoned then (s, .error stDataPoison) else (s, .ok pb.bytes)

/-- FED_SWR_DB: software returns a descriptor. A result after its budget's expiry is discarded, and its
staging space is freed. -/
def swrDoorbell (s : State) (h : Half) (i : Nat) : State :=
  let f := feedOf s h
  match f.swr.find? fun p => p.1 = i with
  | none => s
  | some (_, k, seq) =>
    if !feedWorks s h then s
    else match pread s (swrBase s h + 64 * i) 64 with
    | (s, none) => s
    | (s, some pb) =>
      let b := pb.bytes
      if bget b 0 4 / 2 ^ 31 = 1 then s
      else
        let s := setFeed s h { feedOf s h with swr := sdel (feedOf s h).swr i }
        let v := streamOf s h k
        match (sampleAt v seq).filter fun x => x.st = .software i with
        | some _ =>
          if pb.poisoned then takeResult s h k seq (.bad stDataPoison)
          else match softOutput s b with
          | (s, .error st) => takeResult s h k seq (.bad st)
          | (s, .ok out) => takeResult s h k seq (softResult v.d b out)
        | none =>
          settleStream (count (setStream s h k { v with samples := v.samples.filter fun x => x.st ≠ .late i }) (fedFrame h) 0x58 1) h k

def execFedSwrDb (h : Half) (i : BitVec 12) (s : State) : Out := .next (swrDoorbell s h i.toNat)

/-- The budget of a sample (R372, R373). -/
def budgetOf (d : StreamDesc) (x : Sample) : Nat := if x.budget = 0 then d.budget.toNat else x.budget.toNat

/-- A sample's budget elapses (R384): its slot is padded with LATE_PADDED. What software still holds
keeps its staging space. -/
def budgetExpiry (s : State) (h : Half) (k seq : Nat) : State :=
  let v := streamOf s h k
  match sampleAt v seq with
  | none => s
  | some x =>
    if !feedWorks s h || budgetOf v.d x = 0 then s
    else
      let late (v : Stream) : State :=
        let s := settleStream (setStream s h k (setSample v seq fun y => { y with st := .ready (.bad stLate), stage := none })) h k
        settleLoads (feedOf s h).loads.length h s
      match x.st with
      | .engine _ _ | .decoded _ => late v
      | .software i => late { v with samples := v.samples ++ [{ x with st := .late i }] }
      | _ => s

def execBudgetExpiry (h : Half) (k : Fin 32) (seq : Nat) (s : State) : Out := .next (budgetExpiry s h k.val seq)

/-! ### Emission (R374 to R377, R388) -/

/-- The slots of the current batch of a stream when none is left to decide: B, or fewer where it ends early, each with a
result or padding; at a close, those there are (R374, R377). -/
def batchDue (v : Stream) : Option Nat :=
  let n := (v.flushes.find? fun f => v.firstSeq < f.2).elim v.d.b fun f => min v.d.b (f.2 - v.firstSeq)
  let m := (v.slots.filter fun p => p.1 < n).length
  if m = 0 then none else if m = n || (v.st = .closing && v.open_.isEmpty) then some m else none

/-- The slots of the current batch, `n` in number. -/
def Stream.current (v : Stream) (n : Nat) : Sparse Slot := v.slots.filter fun p => p.1 < n

/-- The record of slot `j` (R375). -/
def slotRecord (x : Option Slot) : List Byte :=
  match x with
  | none => List.replicate 8 0xFF ++ [0, 8] ++ List.replicate 22 0
  | some x =>
    leBytes 8 x.seq ++ [x.status] ++
      [BitVec.ofNat 8 ((if x.valid then 1 else 0) + (if x.sw then 2 else 0) + (if x.trunc then 4 else 0))] ++ leBytes 2 0 ++
      leBytes 4 x.len ++ leBytes 8 x.stamp.toNat ++ leBytes 8 x.cookie.toNat

/-- Slot `j` of the batch under assembly. -/
def Stream.slot (v : Stream) (j : Nat) : Option Slot := (v.slots.find? fun p => p.1 = j).map Prod.snd

/-- Slot `j` of a batch of `n` slots. -/
def Stream.slotIn (v : Stream) (n j : Nat) : Option Slot := if j < n then v.slot j else none

/-- META: the validity mask and the records. -/
def metaBytes (v : Stream) (n : Nat) : List Byte :=
  let mask := (v.current n).foldl (fun n p => if p.2.valid then n + 2 ^ p.1 else n) 0
  leBytes 512 mask ++ (List.range v.d.b).flatMap fun j => slotRecord (v.slotIn n j)

/-- Bytes 4 to 7 and 24 to 55 of a batch descriptor as written at emission (R375). -/
def batchFields (s : State) (v : Stream) (n : Nat) : List Byte × List Byte :=
  let stale := sget 0 v.stale v.batch
  let codes := (v.current n).map (fun p => p.2.status) ++ if stale = 0 then [] else [stStale]
  (leBytes 4 (feedFirst codes).toNat,
    leBytes 8 v.batch ++ leBytes 8 ((v.slot 0).elim v.firstSeq (·.seq)) ++
      leBytes 4 ((v.current n).filter fun p => p.2.valid).length ++ leBytes 4 stale ++ leBytes 8 s.tick.toNat)

/-- The shadow registers of the Batch boundary. -/
def fedShadows (h : Half) : List Nat := [4, 0x18, 0x1C, 0x20].map fun o => (fedFrame h).base + o

/-- The stream after its batch of `n` slots has left. -/
def afterEmit (v : Stream) (n : Nat) : Stream :=
  { v with
    batch := v.batch + 1, ringPos := (v.ringPos + 1) % 2 ^ v.d.log2.toNat, firstSeq := v.firstSeq + n
    slots := (v.slots.filter fun p => n ≤ p.1).map fun p => (p.1 - n, p.2)
    stale := sdel v.stale v.batch, owned := v.owned - 1, waitDesc := false }

/-- Emit the batch of `n` slots into the descriptor `b` at `a` (R376). -/
def emitInto (s : State) (h : Half) (k n : Nat) (a : Nat) (b : List Byte) : State :=
  let v := streamOf s h k
  let d := v.d
  let sp := v.space
  let w (s : State) (a : Nat) (x : List Byte) : State := (vwrite s h sp a x fun _ => false).1
  let data := bget b 8 8
  let s := (List.range d.b).foldl (fun s j => w s (data + j * d.slotBytes.toNat) (slotBytes d (v.slotIn n j))) s
  let s := visible (w s (bget b 16 8) (metaBytes v n)) (· = sp.queue.toNat)
  let fs := batchFields s v n
  let s := w (w s (a + 4) fs.1) (a + 24) fs.2
  let s := visible (w s a (leBytes 4 0)) (· = sp.queue.toNat)
  let s := if d.sem = 0xFFFF then s else semSignal s d.sem.toNat (BitVec.ofNat 32 (v.batch + 1))
  let s := applyShadow s (fedShadows h)
  settleStream (setStream s h k (afterEmit v n)) h k

/-- A batch whose slots are decided takes the next descriptor; while that is not owned, or cannot be read, the Feed waits
and counts (R376). -/
def batchEmit (s : State) (h : Half) (k : Nat) : State :=
  let v := streamOf s h k
  match batchDue v with
  | none => if feedOn s h && v.waitDesc && v.owned = 0 then count s (fedFrame h) 0x80 1 else s
  | some n =>
    if !feedOn s h then s
    else
      let a := v.descAt 0
      let stall (s : State) : State := count (setStream s h k { streamOf s h k with waitDesc := true, owned := 0 }) (fedFrame h) 0x80 1
      match vread s h v.space a 64 with
      | (s, .error _) => stall s
      | (s, .ok pb) => if pb.poisoned || bget pb.bytes 0 4 / 2 ^ 31 = 0 then stall s else emitInto s h k n a pb.bytes

def execBatchEmit (h : Half) (k : Fin 32) (s : State) : Out := .next (batchEmit s h k.val)

/-- The awaited descriptor is owned at last: the results that wait in staging take their slots, and a batch that is due is
emitted (R376, R389). -/
def batchOwned (s : State) (h : Half) (k : Nat) : State :=
  let v := streamOf s h k
  if !v.waitDesc || !feedWorks s h then s
  else batchEmit (settleStream (setStream s h k { v with waitDesc := false }) h k) h k

def execBatchDescriptorOwned (h : Half) (k : Fin 32) (s : State) : Out := .next (batchOwned s h k.val)

/-- LIVE_CLOSE ticks have passed since the first slot of a live batch, which ends with the slots it has (R388). -/
def liveClose (s : State) (h : Half) (k : Nat) : State :=
  let v := streamOf s h k
  if feedOn s h && v.d.live && v.d.liveClose ≠ 0 && !v.slots.isEmpty && (batchDue v).isNone then
    setStream s h k { v with flushes := v.flushes ++ [(none, v.flushAt)] }
  else s

def execLiveCloseExpiry (h : Half) (k : Fin 32) (s : State) : Out := .next (liveClose s h k.val)

/-! ### Live lanes (R385, R386) -/

/-- A live packet or frame is dropped and counted. -/
def liveDrop (s : State) (h : Half) : State := count s (fedFrame h) 0x98 1

/-- The state in which a complete frame starts (R386). -/
def frameStart (s : State) (d : StreamDesc) (tabs : Sparse (List Byte)) (ps : List (List Byte)) : SampleSt × List Byte :=
  if d.raw then
    match rawFrame (bitAt d.rtp 8) d.width.toNat d.height.toNat s.free ps with
    | none => (.ready (.bad stDecodeError), [])
    | some px => (.queued, px)
  else
    let (t, q, w, h) := rtpJpegHead (ps.headD [])
    let okT := t = 0 || t = 1 || t = 64 || t = 65
    let okQ := (1 ≤ q && q ≤ 99) || (128 ≤ q && q ≤ 255)
    if !okT || !okQ then (.ready (.bad stDecodeError), [])
    else if implausible w h 3 (ps.foldl (fun n p => n + p.length) 0) d.side d.pixels d.ratio then (.ready (.bad stImplausible), [])
    else match rtpJpeg tabs ps with
      | none => (.ready (.bad stDecodeError), [])
      | some b => (.queued, b)

/-- A complete live frame takes the next sequence number. -/
def takeFrame (s : State) (h : Half) (k : Nat) (v : Stream) (ps : List RtpPkt) (ts : BitVec 32) : State :=
  let d := v.d
  let st := frameStart s d v.qtabs (ps.map (·.payload))
  let x : Sample := {
    seq := v.next, src := 0, len := BitVec.ofNat 32 (ps.foldl (fun n p => n + p.payload.length) 0), budget := 0, crop := []
    cookie := 0, submit := none, stamp := BitVec.ofNat 64 (ps.foldl (fun n p => min n p.stamp.toNat) (2 ^ 64 - 1))
    bytes := st.2, sw := false, stage := none, st := st.1 }
  let s := if d.raw then { s with free := s.free + 3 * d.width.toNat * d.height.toNat } else s
  settleStream (setStream s h k { v with
    next := v.next + 1, samples := v.samples ++ [x], lastTs := some ts
    qtabs := if d.raw then v.qtabs else rtpKeep v.qtabs ((ps.map (·.payload)).headD [])
    pkts := v.pkts.filter fun p => tsBefore ts p.ts }) h k

/-- A packet of an open live stream: at its marker a frame without a gap is complete, and one with a gap
or before the last accepted timestamp is discarded (R386; DESIGN CHOICE, log entry 35). -/
def takeRtp (s : State) (h : Half) (k : Nat) (p : RtpPkt) : State :=
  let v := streamOf s h k
  let v := { v with pkts := v.pkts ++ [p] }
  if !p.marker then setStream s h k v
  else
    let old := match v.lastTs with | some t => tsBefore p.ts t | none => false
    let gone : Stream := { v with pkts := v.pkts.filter fun q => q.ts ≠ p.ts }
    let bad (_ : Unit) : State := count (setStream s h k gone) (fedFrame h) 0x90 1
    match frameOf v.pkts p with
    | none => bad ()
    | some ps =>
      if old || (!v.d.raw && rtpJpegOff ((ps.map (·.payload)).headD []) ≠ 0) then bad () else takeFrame s h k v ps p.ts

/-- A UDP payload that the flow table sends to a lane (R385, R390). -/
def livePacket (s : State) (h : Half) (lane : Nat) (stamp : BitVec 64) (b : List Byte) : State :=
  match (feedOf s h).streams.find? fun p => p.2.st = .opened && p.2.d.live && p.2.d.lane = lane with
  | none => liveDrop s h
  | some (k, v) =>
    if !feedOn s h then liveDrop s h
    else match rtpOf stamp b with
    | none => liveDrop s h
    | some (pt, ssrc, p) =>
      let want := if v.d.ssrc ≠ 0 then some v.d.ssrc else v.ssrc
      if pt ≠ field v.d.rtp 6 0 || (want.isSome && want ≠ some ssrc) then liveDrop s h
      else takeRtp (setStream s h k { v with ssrc := some ssrc }) h k p

/-! ### Driver loss (R390) -/

/-- The Feed of a half stops: a FEED_SUBMIT that has not completed ends with DRIVER_LOST, and the other commands, the streams,
staging and the software ring stay. The slots that no emission will write reach memory. -/
def feedStop (s : State) (h : Half) : State :=
  let f := feedOf s h
  let s := f.submits.foldl (fun s u => report s u.out stDriverLost u.first (u.padded + 2 ^ 32 * u.truncd)) s
  let s := setFeed s h { f with run := .stopped, submits := [] }
  f.streams.foldl (fun s p => p.2.slots.foldl (fun s x => slotStore s h p.1 x.1 x.2) s) s

end Sys2Proof.Machine
end

