-- ==== Sys2Proof/Machine/Scriptorium.lean ====
section
/-! DEFINITION. The Scriptorium (09): buckets and their tags, the exact package sums, hops, finals and
the gather, scale rounds, credits, and how a bucket ends. A message of the bucket's own leaves in
groups of the model's choosing (DESIGN CHOICE, log entry 31). -/

namespace Sys2Proof.Machine
open Sys2Proof

/-! ### The descriptor (R264, R265, R267) -/

/-- The fields of a 128-byte descriptor. -/
def bdescOf (b : List Byte) : BDesc where
  tag := BitVec.ofNat 32 (bget b 0x00 4)
  ctl := BitVec.ofNat 32 (bget b 0x04 4)
  elems := BitVec.ofNat 64 (bget b 0x08 8)
  c0 := BitVec.ofNat 64 (bget b 0x10 8)
  c1 := BitVec.ofNat 64 (bget b 0x18 8)
  out := BitVec.ofNat 64 (bget b 0x20 8)
  scale := BitVec.ofNat 64 (bget b 0x28 8)
  seed := BitVec.ofNat 64 (bget b 0x30 8)
  ranks := BitVec.ofNat 64 (bget b 0x38 8)
  firstRank := BitVec.ofNat 32 (bget b 0x40 4)
  nranks := BitVec.ofNat 32 (bget b 0x44 4)
  sumsq := BitVec.ofNat 64 (bget b 0x48 8)
  resv := bslice b 0x50 48

def BDesc.mode (d : BDesc) : Nat := field d.ctl 1 0
def BDesc.part0 (d : BDesc) : Bool := bitAt d.ctl 2
def BDesc.part1 (d : BDesc) : Bool := bitAt d.ctl 3
/-- Format code of the contributions. -/
def BDesc.cFmt (d : BDesc) : Nat := if bitAt d.ctl 4 then 0 else 1
/-- Format code of the output. -/
def BDesc.oFmt (d : BDesc) : Nat := if bitAt d.ctl 5 then 0 else 1
def BDesc.wireRound (d : BDesc) : Nat := field d.ctl 7 6
def BDesc.outRound (d : BDesc) : Nat := field d.ctl 9 8
def BDesc.outRange (d : BDesc) : Nat := field d.ctl 11 10
def BDesc.retain (d : BDesc) : Bool := bitAt d.ctl 12
def BDesc.sumsqMode (d : BDesc) : Nat := field d.ctl 14 13
/-- Blocks of the bucket (R274). -/
def BDesc.blocks (d : BDesc) : Nat := cdiv d.elems.toNat 256
/-- Elements of block `b` that exist. -/
def BDesc.inBlock (d : BDesc) (b : Nat) : Nat := min 256 (d.elems.toNat - 256 * b)
def BDesc.oBytes (d : BDesc) : Nat := fmtBits d.oFmt / 8
def BDesc.cBytes (d : BDesc) : Nat := fmtBits d.cFmt / 8

/-- An address that a bucket uses: nonzero and aligned. -/
def addrOk (a : BitVec 64) : Bool := a ≠ 0 && a.toNat % 128 = 0

/-- Whether a descriptor breaks R264, R265 or R267 by itself. A scale round uses neither OUT_ADDR nor
SUMSQ_ADDR (R283), so it checks neither address. -/
def BDesc.bad (d : BDesc) (scaleRound : Bool) : Bool :=
  field d.tag 31 20 ≠ 0 || field d.ctl 31 15 ≠ 0 || 2 ≤ d.mode || !(d.part0 || d.part1) || d.wireRound = 3
  || d.outRound = 3 || d.outRange = 3 || d.sumsqMode = 3
  || d.elems = 0 || 2 ^ 28 < d.elems.toNat
  || (d.part0 && !addrOk d.c0) || (d.part1 && !addrOk d.c1) || (!scaleRound && !addrOk d.out)
  || (if d.mode = 0 then !addrOk d.scale else d.scale ≠ 0)
  || d.ranks.toNat % 2 ≠ 0 || field d.firstRank 31 16 ≠ 0 || d.nranks = 0 || 65536 < d.nranks.toNat
  || (if d.sumsqMode = 0 then d.sumsq ≠ 0 else !scaleRound && !addrOk d.sumsq)
  || !allZero d.resv

/-! ### Tags (R263, R271) -/

/-- A FREE tag. -/
def tagReset : Tag where
  st := .free
  attempt := 0
  space := ⟨0, 0, 0⟩
  out := none
  desc := none
  ranks := []
  crc := 0
  table := []
  headroom := 0
  heldMsgs := []
  outq := []
  lastSent := []
  abandon := none
  abandonHeld := false
  outDone := []
  satSeg := []
  satBlocks := []
  poisonBlocks := []
  partials := []
  exps := []
  expDone := []
  credits := 0

def tagOf (s : State) (n : Nat) : Tag := sget tagReset s.tags n
def setTag (s : State) (n : Nat) (t : Tag) : State := { s with tags := sset s.tags n t }
/-- The half whose Scriptorium leads a tag (R263). -/
def leadHalf (s : State) (n : Nat) : Half := if halfFenced s (halfOf n) then otherHalf (halfOf n) else halfOf n
def srpFrame (s : State) (n : Nat) : Frame := .srp (leadHalf s n)
def srpOf (s : State) (h : Half) : Srp := sget ⟨.off⟩ s.srp h.val
/-- Whether a half's Scriptorium accepts commands and messages (SRP_STAT.RUNNING). -/
def srpOn (s : State) (h : Half) : Bool := alive s && !halfFenced s h && decide ((srpOf s h).run = .running)
/-- Whether a tag's state counts toward R263. -/
def Tag.live (t : Tag) : Bool := t.st = .scaling || t.st = .running || t.st = .held
/-- Whether a tag's bucket or scale round runs. -/
def Tag.active (t : Tag) : Bool := t.st = .scaling || t.st = .running
/-- Buckets that a half's Scriptorium holds. -/
def srpLive (s : State) (h : Half) : Nat := (s.tags.filter fun p => leadHalf s p.1 = h && p.2.live).length
/-- The tag's gauge set (R290). -/
def srpGauge (n : Nat) : Nat := gaugeKey 3 n

/-- N, and the package's own rank. -/
def Tag.n (t : Tag) : Nat := t.ranks.length
def Tag.rank (s : State) (t : Tag) : Nat := (findIdx? (fun p => decide (p = ownPkg s)) t.ranks).getD 0
/-- The packages of the next and the previous rank. -/
def Tag.next (s : State) (t : Tag) : BitVec 16 := t.ranks.getD ((t.rank s + 1) % max 1 t.n) 0
def Tag.prev (s : State) (t : Tag) : BitVec 16 := t.ranks.getD ((t.rank s + t.n - 1) % max 1 t.n) 0
/-- The chain position of this package in segment `j` (R275). -/
def Tag.pos (s : State) (t : Tag) (j : Nat) : Nat := (t.rank s + 2 * t.n - (j + 1)) % max 1 t.n
/-- The segment that holds block `b` of B blocks (R274). -/
def segOf (n bs b : Nat) : Nat := ((b + 1) * n - 1) / bs
/-- The first block of segment `j`. -/
def segLo (n bs j : Nat) : Nat := j * bs / n
/-- Clear a tag: its messages and its gauge set go. -/
def clearTag (s : State) (n : Nat) : State := gaugeClr { s with tags := sdel s.tags n } (srpGauge n)

/-! ### Messages on the wire (R279, R280) -/

/-- Bytes of an element in a message of a tag's bucket. -/
def srpWidth (d : BDesc) (phase : Nat) : Nat := if phase = 1 then (if d.mode = 0 then 1 else 2) else d.oBytes

/-- The bytes of a message whose elements take `w` bytes. -/
def srpBytes (w phase : Nat) (m : SrpMsg) : List Byte :=
  let n := if phase = 0 then m.exps.length else m.blocks.length
  leBytes 4 (m.tag.toNat + 2 ^ 20 * m.attempt.toNat + 2 ^ 24 * phase) ++ leBytes 4 m.crc.toNat ++ leBytes 2 m.rank.toNat ++
    leBytes 2 m.seg.toNat ++ leBytes 4 m.first.toNat ++ leBytes 2 n ++ leBytes 2 m.pos.toNat ++ leBytes 8 m.sat.toNat ++
    leBytes 4 m.word.toNat ++ m.blocks.flatMap (fun b => b.elems.flatMap (fun e => leBytes w e.toNat) ++ [b.scale, b.flags]) ++
    m.exps.flatMap (fun e => leBytes 2 e.toNat) ++ m.well

/-- The blocks that bytes spell, `w` bytes an element. -/
def srpBlocks (w : Nat) : Nat → List Byte → List SrpBlock
  | 0, _ => []
  | n + 1, b =>
    ⟨(List.range 256).map fun i => BitVec.ofNat 32 (bget b (w * i) w), b.getD (256 * w) 0, b.getD (256 * w + 1) 0⟩ ::
      srpBlocks w n (b.drop (256 * w + 2))

/-- The phase and the message that a payload from package `src` spells, if it keeps R279 and R280. -/
def srpParse (src : BitVec 16) (early : Bool) (b : List Byte) : Option (Nat × SrpMsg) :=
  let w0 := bget b 0 4
  let phase := w0 / 2 ^ 24 % 8
  let n := bget b 16 2
  let rest := b.length - 32
  let w := if phase = 1 then (if rest = n * 258 then 1 else if rest = n * 514 then 2 else 0)
    else if phase = 2 then
      (if rest = n * 514 || rest = n * 514 + 96 then 2 else if rest = n * 1026 || rest = n * 1026 + 96 then 4 else 0)
    else 0
  let ok := 32 ≤ b.length && w0 / 2 ^ 27 = 0 && phase ≤ 4 && bget b 26 2 = 0 &&
    (if 3 ≤ phase then n = 0 && rest = 0 else 1 ≤ n && n ≤ 16 && (if phase = 0 then rest = 2 * n else w ≠ 0))
  if ok then
    let p := b.drop 32
    some (phase, {
      src := src, tag := BitVec.ofNat 20 w0, attempt := BitVec.ofNat 4 (w0 / 2 ^ 20), crc := BitVec.ofNat 32 (bget b 4 4)
      rank := BitVec.ofNat 16 (bget b 8 2), seg := BitVec.ofNat 16 (bget b 10 2), first := BitVec.ofNat 32 (bget b 12 4)
      pos := BitVec.ofNat 16 (bget b 18 2), sat := BitVec.ofNat 48 (bget b 20 6), word := BitVec.ofNat 32 (bget b 28 4)
      early := early
      blocks := if phase = 1 ∨ phase = 2 then srpBlocks w n p else []
      exps := if phase = 0 then (List.range n).map fun i => BitVec.ofNat 16 (bget p (2 * i) 2) else []
      well := if phase = 2 then p.drop (n * (256 * w + 2)) else [] })
  else none

/-- A message of a tag with empty content. -/
def srpMsg (s : State) (n : Nat) (t : Tag) : SrpMsg where
  src := ownPkg s
  tag := BitVec.ofNat 20 n
  attempt := BitVec.ofNat 4 t.attempt
  crc := t.crc
  rank := BitVec.ofNat 16 (t.rank s)
  seg := 0
  first := 0
  pos := 0
  sat := 0
  word := 0
  early := false
  blocks := []
  exps := []
  well := []

/-- Give a message to the connection with a package (R355): a status that ends it at once, or none. -/
def srpTx (s : State) (n : Nat) (dst : BitVec 16) (phase : Nat) (m : SrpMsg) : State × Option (BitVec 8) :=
  let t := tagOf s n
  let w := match t.desc with | none => 0 | some d => srpWidth d phase
  let b := srpBytes w phase m
  let cls := n % 2
  match utpSend s dst.toNat cls b false 0 with
  | (s, some st) => (s, some st)
  | (s, none) =>
    let s := count (send s (.srp dst phase m)) (srpFrame s n) 0x80 b.length
    let key := ctxKey dst.toNat cls
    let t := tagOf s n
    (if shas s.tags n then setTag s n { t with lastSent := sset t.lastSent key (ctxOf s key).sentN } else s, none)

/-- The early credit of a data message that is dropped goes back to its sender, under the header of the run `t` that
dropped it; a tag that has no list yet has CRC and rank zero (R279, R293; DESIGN CHOICE, log entry 31). -/
def giveBack (s : State) (n : Nat) (t : Tag) (phase : Nat) (m : SrpMsg) : State :=
  if phase ≤ 2 && m.early then (srpTx s n m.src 4 { srpMsg s n t with word := 1, early := true }).1 else s

/-- Free a tag: its gauge set goes, and what it holds is dropped (R271). -/
def freeTag (s : State) (n : Nat) : State :=
  let t := tagOf s n
  t.heldMsgs.foldl (fun s x => giveBack s n t x.1 x.2) (clearTag s n)

/-! ### Ending a tag (R292, R295 to R297) -/

/-- Abandon messages to every other participant but `except`. -/
def srpAbandonAll (s : State) (n : Nat) (t : Tag) (cause : Nat) (except : Option (BitVec 16)) : State :=
  t.ranks.foldl (fun s p =>
    if p = ownPkg s || except = some p then s
    else count (srpTx s n p 3 { srpMsg s n t with word := BitVec.ofNat 32 cause }).1 (srpFrame s n) 0x70 1) s

/-- A SCALING or RUNNING tag ends in failure and is FREE. Details are those of R292; a SCALE_ROUND has
those of R295 alone. `cause` is that of the abandon messages, if any are sent. -/
def srpEnd (s : State) (n : Nat) (t : Tag) (st : BitVec 8) (d0 d1 : Nat) (cause : Option Nat) (except : Option (BitVec 16)) :
    State :=
  let post := decide (t.st = .running)
  let s := freeTag s n
  let s := match cause with | none => s | some c => srpAbandonAll s n t c except
  let s := if post then count s (srpFrame s n) 0x40 1 else s
  if post || st = stPeerAbandoned then reportOpt s t.out st d0 d1 else reportOpt s t.out st 0 0

/-- A local read or write of the bucket failed (R295). The abandon carries cause 1 (DESIGN CHOICE, log entry 31). -/
def srpFail (s : State) (n : Nat) (st : BitVec 8) (va : Nat) : State := srpEnd s n (tagOf s n) st va 0 (some 1) none

/-- The connection to participant `p` failed or is down, or the message says so (R295 cause 4,
R297). -/
def srpConnEnd (s : State) (n : Nat) (p : BitVec 16) (st : BitVec 8) : State :=
  let t := tagOf s n
  if st = stDomainDown then srpEnd s n t st p.toNat 0 (some 1) (some p)
  else srpEnd s n t stPeerAbandoned p.toNat 4 (some 4) none

/-! ### Credits and the next rank (R293) -/

/-- The pool units that one message takes at most: 16 FP32 blocks and a raw Well behind the header (R279, R280). -/
def poolMessage : Nat := 5

/-- The early credits of a connection at its start: four while the pool has room for them beside those of the connections
that have some already. A peer's pool is taken to be set and used as this package's own (R293; DESIGN CHOICE, log entry
31). -/
def earlyStart (s : State) (n : Nat) : Nat :=
  let h := leadHalf s n
  let others := (s.srpEarly.filter fun p => leadHalf s (p.1 % 2) = h).length
  min 4 ((256 * s.col.rubric.pools.getD h.val 0 - 4 * poolMessage * others) / poolMessage)

/-- The room that a held message takes in the pool, in 4 KiB units: that of its widest form, since the package need not
know the bucket yet (DESIGN CHOICE, log entry 31). -/
def poolUnits (phase : Nat) (m : SrpMsg) : Nat :=
  if 3 ≤ phase then 0
  else cdiv (32 + m.blocks.length * (if phase = 1 then 514 else 1026) + 2 * m.exps.length + m.well.length) 4096

/-- The pool in use of a half's Scriptorium, in 4 KiB units. -/
def poolUsed (s : State) (h : Half) : Nat :=
  (s.tags.filter fun p => leadHalf s p.1 = h).foldl (fun a p => p.2.heldMsgs.foldl (fun a x => a + poolUnits x.1 x.2) a) 0

/-- Whether the pool of the Scriptorium that leads a tag has room for a message (R293). -/
def poolRoom (s : State) (n phase : Nat) (m : SrpMsg) : Bool :=
  let h := leadHalf s n
  decide (poolUsed s h + poolUnits phase m ≤ 256 * s.col.rubric.pools.getD h.val 0)

/-- Send what waits for the next rank while live or early credit lasts. -/
def srpFlush : Nat → State → Nat → State
  | 0, s, _ => s
  | fuel + 1, s, n =>
    let t := tagOf s n
    match t.outq with
    | [] => s
    | (ph, m) :: rest =>
      let dst := t.next s
      let key := ctxKey dst.toNat (n % 2)
      let e := sget (earlyStart s n) s.srpEarly key
      let live := decide (0 < t.credits)
      if !live && e = 0 then s
      else
        let s := setTag s n { t with outq := rest, credits := t.credits - 1 }
        let s := if live then s else { s with srpEarly := sset s.srpEarly key (e - 1) }
        match srpTx s n dst ph { m with early := !live } with
        | (s, none) => srpFlush fuel s n
        | (s, some st) => srpConnEnd s n dst st

/-- Send a message to the next rank, after those that wait. -/
def srpSend (s : State) (n phase : Nat) (m : SrpMsg) : State :=
  let t := tagOf s n
  if t.active then srpFlush (t.outq.length + 1) (setTag s n { t with outq := t.outq ++ [(phase, m)] }) n else s

/-- A credit message: `k` live or early credits to a package. -/
def srpCredit (s : State) (n : Nat) (dst : BitVec 16) (early : Bool) (k : Nat) : State :=
  match srpTx s n dst 4 { srpMsg s n (tagOf s n) with word := BitVec.ofNat 32 k, early := early } with
  | (s, none) => s
  | (s, some st) => if (tagOf s n).active then srpConnEnd s n dst st else s

/-! ### Package sums (R273, R277) -/

/-- The elements of one half's contribution to a block, `none` for a poisoned one. -/
def contribVals (d : BDesc) (cnt : Nat) (pb : PBytes) : List (Option FNum) :=
  (List.range cnt).map fun i =>
    let e := (pb.drop (d.cBytes * i)).take d.cBytes
    if e.any Prod.snd then none else some (fmtValue d.cFmt (leNat (e.map Prod.fst)))

/-- Read one half's contribution to block `b`; a half outside PARTS has none. -/
def readContrib (s : State) (h : Half) (sp : Space) (d : BDesc) (part : Bool) (addr b : Nat) :
    State × Except FaultAt (List (Option FNum)) :=
  if part then
    match vread s h sp (addr + 256 * b * d.cBytes) (d.inBlock b * d.cBytes) with
    | (s, .error f) => (s, .error f)
    | (s, .ok pb) => (s, .ok (contribVals d (d.inBlock b) pb))
  else (s, .ok [])

/-- Both halves' elements of a block. -/
def readBoth (s : State) (h : Half) (sp : Space) (d : BDesc) (b : Nat) :
    State × Except FaultAt (List (Option FNum) × List (Option FNum)) :=
  match readContrib s h sp d d.part0 d.c0.toNat b with
  | (s, .error f) => (s, .error f)
  | (s, .ok x) =>
    match readContrib s h sp d d.part1 d.c1.toNat b with
    | (s, .error f) => (s, .error f)
    | (s, .ok y) => (s, .ok (x, y))

/-- An exact zero is +0 (R273). -/
def plusZero (x : FNum) : FNum := if x.isZero then .fin false 0 0 else x

/-- The package sums of a block's 256 elements, and whether a poisoned line holds one. -/
def packageSums (d : BDesc) (b : Nat) (c : List (Option FNum) × List (Option FNum)) : List FNum × Bool :=
  let z : FNum := .fin false 0 0
  let at_ (l : List (Option FNum)) (i : Nat) : FNum := ((l[i]?).getD none).getD z
  ((List.range 256).map fun i => if i < d.inBlock b then plusZero ((at_ c.1 i).add false (at_ c.2 i)) else z,
    c.1.any Option.isNone || c.2.any Option.isNone)

/-! ### Hops and finals (R275, R276) -/

/-- The Sand output of element `i` at chain position `k` (R54, R276). -/
def srpSand (d : BDesc) (n k i : Nat) : Nat :=
  (sand d.seed 0x03#8 (BitVec.ofNat 64 (n * 2 ^ 44 + k * 2 ^ 28 + i))).toNat

/-- A hop's element in MODE 0 (R276), with what the gauge counts (R290). -/
def hopE4M3 (mode : Rnd) (rnd sc : Nat) (sum : FNum) (inc : Option Nat) : Conv :=
  let isNan := match inc with | some c => c % 128 = 127 | none => false
  if isNan || !sum.isFin then
    ⟨0x7F, !isNan && (match sum with | .inf _ => true | _ => false), false, false, true⟩
  else
    let v : FNum := match inc with | some c => (fmtE4M3.decode c).scale ((sc : Int) - 127) | none => .fin false 0 0
    fmtE4M3.conv mode 1 rnd ((plusZero (sum.add false v)).scale (127 - (sc : Int)))

/-- A hop's element in MODE 1 (R276). -/
def hopBF16 (mode : Rnd) (rnd : Nat) (sum : FNum) (inc : Option Nat) : Conv :=
  let v : FNum := match inc with | some c => fmtBF16.decode c | none => .fin false 0 0
  fmtBF16.conv mode 2 rnd (plusZero (sum.add false v))

/-- The scale byte of a block. -/
def Tag.scaleOf (t : Tag) (d : BDesc) (b : Nat) : Byte := if d.mode = 0 then t.table.getD b 0 else 0

/-- Hop `k` of block `b` from its package sums and the incoming block (R275, R276, R285). -/
def hopBlock (t : Tag) (d : BDesc) (n k b : Nat) (sums : List FNum × Bool) (inc : Option SrpBlock) : SrpBlock × List Conv :=
  let sc := (t.scaleOf d b).toNat
  let cs := (sums.1.take (d.inBlock b)).mapIdx fun i x =>
    let e := inc.map fun v => (v.elems.getD i 0).toNat
    let r := srpSand d n k (256 * b + i)
    if d.mode = 0 then hopE4M3 (Rnd.ofField d.wireRound) r sc x e else hopBF16 (Rnd.ofField d.wireRound) r x e
  let sat := d.mode = 0 && cs.any fun c => c.ovf && !c.nan
  let fl := (match inc with | some v => v.flags.toNat | none => 0) ||| (if sums.2 then 1 else 0) ||| (if sat then 2 else 0)
  (⟨cs.map (fun c => BitVec.ofNat 32 c.bits) ++ List.replicate (256 - cs.length) 0, BitVec.ofNat 8 sc, BitVec.ofNat 8 fl⟩, cs)

/-- The value an incoming element stands for. -/
def incValue (d : BDesc) (sc : Nat) (e : Nat) : FNum :=
  if d.mode = 0 then (fmtE4M3.decode e).scale ((sc : Int) - 127) else fmtBF16.decode e

/-- The finals of block `b` (R275). -/
def finalBlock (t : Tag) (d : BDesc) (n b : Nat) (sums : List FNum × Bool) (inc : Option SrpBlock) : SrpBlock × List Conv :=
  let sc := (t.scaleOf d b).toNat
  let cs := (sums.1.take (d.inBlock b)).mapIdx fun i x =>
    let v : FNum := match inc with | some v => incValue d sc (v.elems.getD i 0).toNat | none => .fin false 0 0
    fmtConv d.oFmt (Rnd.ofField d.outRound) d.outRange (srpSand d n (t.n - 1) (256 * b + i)) (plusZero (x.add false v))
  let fl := (match inc with | some v => v.flags.toNat | none => 0) ||| (if sums.2 then 1 else 0)
  (⟨cs.map (fun c => BitVec.ofNat 32 c.bits) ++ List.replicate (256 - cs.length) 0, 0, BitVec.ofNat 8 fl⟩, cs)

/-- Write block `b` of the output, and record its flags (R277, R285). The fault, if any. -/
def writeFinals (s : State) (n b : Nat) (d : BDesc) (v : SrpBlock) : State × Option FaultAt :=
  let h := leadHalf s n
  let t := tagOf s n
  let p := bitAt v.flags 0
  let w := vwrite s h t.space (d.out.toNat + 256 * b * d.oBytes)
    ((v.elems.take (d.inBlock b)).flatMap fun e => leBytes d.oBytes e.toNat) fun _ => p
  (setTag w.1 n { tagOf w.1 n with
    outDone := ninsert t.outDone b
    poisonBlocks := if p then ninsert t.poisonBlocks b else t.poisonBlocks
    satBlocks := if bitAt v.flags 1 then ninsert t.satBlocks b else t.satBlocks }, w.2.fault)

/-- The sum of squares of a block's finals added to a segment's Well (R288). -/
def sumSquares (d : BDesc) (b : Nat) (v : SrpBlock) (w : Well) : Well :=
  (v.elems.take (d.inBlock b)).foldl (fun w e =>
    let x : Opnd := if bitAt v.flags 0 then .pois else .val (fmtValue d.oFmt e.toNat)
    w.addProduct x x) w

/-- Close block `b` of segment `j` at this package: the final is written, squared and sent along the
gather, the segment's Well behind its last block (R275, R288). -/
def closeBlock (s : State) (n : Nat) (d : BDesc) (j b : Nat) (sums : List FNum × Bool) (inc : Option SrpBlock) : State :=
  let t := tagOf s n
  let r := finalBlock t d n b sums inc
  match writeFinals (gaugeAdd s (srpGauge n) r.2) n b d r.1 with
  | (s, some f) => srpFail s n f.status f.va.toNat
  | (s, none) =>
    let t := tagOf s n
    let w := sumSquares d b r.1 (sget wellZero t.partials j)
    let t := { t with partials := sset t.partials j w }
    let s := setTag s n t
    if t.n = 1 then s
    else
      let lo := segLo t.n d.blocks j
      let hi := segLo t.n d.blocks (j + 1)
      let last := (List.range (hi - lo)).all fun i => t.outDone.contains (lo + i)
      srpSend s n 2 { srpMsg s n t with
        seg := BitVec.ofNat 16 j, first := BitVec.ofNat 32 b, pos := BitVec.ofNat 16 (t.pos s j)
        sat := BitVec.ofNat 48 (sget 0 t.satSeg j), blocks := [r.1], well := if last then w.raw else [] }

/-- The hops of consecutive blocks from `b` on at position `k`: the blocks to send. A local read
that fails ends the bucket. -/
def hopBlocks (n : Nat) (d : BDesc) (j k : Nat) : List (Option SrpBlock) → Nat → State → State × Option (List SrpBlock)
  | [], _, s => (s, some [])
  | inc :: rest, b, s =>
    let t := tagOf s n
    match readBoth s (leadHalf s n) t.space d b with
    | (s, .error f) => (srpFail s n f.status f.va.toNat, none)
    | (s, .ok c) =>
      let r := hopBlock t d n k b (packageSums d b c) inc
      let k' := (r.2.filter fun c => d.mode = 0 && c.ovf && !c.nan).length
      let s := count (gaugeAdd s (srpGauge n) r.2) (srpFrame s n) 0x50 k'
      let own := t.n + j
      let t := tagOf s n
      let s := setTag s n { t with satSeg := sset t.satSeg own (sget 0 t.satSeg own + k') }
      match hopBlocks n d j k rest (b + 1) s with
      | (s, none) => (s, none)
      | (s, some l) => (s, some (r.1 :: l))

/-- The blocks of a reduce message at the closing rank. -/
def closeBlocks (n : Nat) (d : BDesc) (j : Nat) : List SrpBlock → Nat → State → State
  | [], _, s => s
  | v :: rest, b, s =>
    let t := tagOf s n
    if t.st ≠ .running then s
    else
      match readBoth s (leadHalf s n) t.space d b with
      | (s, .error f) => srpFail s n f.status f.va.toNat
      | (s, .ok c) => closeBlocks n d j rest (b + 1) (closeBlock s n d j b (packageSums d b c) (some v))

/-- A reduce message of a running bucket (R275). The cumulative count that goes on is the greatest that has come, with the
own saturations (R285). -/
def takeReduce (s : State) (n : Nat) (d : BDesc) (m : SrpMsg) : State :=
  let t := tagOf s n
  let b := m.first.toNat
  let j := segOf t.n d.blocks b
  let k := t.pos s j
  let s := setTag s n { t with satSeg := sset t.satSeg j (max (sget 0 t.satSeg j) m.sat.toNat) }
  if k = t.n - 1 then closeBlocks n d j m.blocks b s
  else
    match hopBlocks n d j k (m.blocks.map some) b s with
    | (s, none) => s
    | (s, some l) =>
      let t := tagOf s n
      srpSend s n 1 { srpMsg s n t with
        seg := BitVec.ofNat 16 j, first := m.first, pos := BitVec.ofNat 16 k
        sat := BitVec.ofNat 48 (sget 0 t.satSeg j + sget 0 t.satSeg (t.n + j)), blocks := l }

/-- Write the blocks of a gather message unchanged. The fault, if any. -/
def writeAll (n : Nat) (d : BDesc) : List SrpBlock → Nat → State → State × Option FaultAt
  | [], _, s => (s, none)
  | v :: rest, b, s =>
    match writeFinals s n b d v with
    | (s, some f) => (s, some f)
    | (s, none) => writeAll n d rest (b + 1) s

/-- A gather message of a running bucket (R275, R288). -/
def takeGather (s : State) (n : Nat) (d : BDesc) (m : SrpMsg) : State :=
  match writeAll n d m.blocks m.first.toNat s with
  | (s, some f) => srpFail s n f.status f.va.toNat
  | (s, none) =>
    let t := tagOf s n
    let j := segOf t.n d.blocks m.first.toNat
    let t := { t with
      satSeg := sset t.satSeg j (max (sget 0 t.satSeg j) m.sat.toNat)
      partials := if m.well.isEmpty then t.partials else sset t.partials j (wellOfRaw m.well false) }
    let s := setTag s n t
    if (t.rank s + 1) % t.n = j then s
    else srpSend s n 2 { srpMsg s n t with
      seg := m.seg, first := m.first, pos := BitVec.ofNat 16 (t.pos s j), sat := m.sat, blocks := m.blocks, well := m.well }

/-! ### Scale rounds (R282 to R284) -/

/-- The larger of two exponents, 0x8000 standing for absent. -/
def expMax (a b : BitVec 16) : BitVec 16 := if a.slt b then b else a

/-- The package value of a block (R283). -/
def packageExp (c : List (Option FNum) × List (Option FNum)) : BitVec 16 :=
  let e (l : List (Option FNum)) : Option Int := (l.filterMap id).foldl mxLead none
  match e c.1, e c.2 with
  | none, none => 0x8000
  | some a, none | none, some a => BitVec.ofInt 16 a
  | some a, some b => BitVec.ofInt 16 (max a b + 1)

/-- The package values of `left` blocks from `b` on, or a fault. -/
def packageExps (h : Half) (sp : Space) (d : BDesc) : Nat → Nat → State → State × Except FaultAt (List (BitVec 16))
  | 0, _, s => (s, .ok [])
  | left + 1, b, s =>
    match readBoth s h sp d b with
    | (s, .error f) => (s, .error f)
    | (s, .ok c) =>
      match packageExps h sp d left (b + 1) s with
      | (s, .error f) => (s, .error f)
      | (s, .ok l) => (s, .ok (packageExp c :: l))

/-- The scale byte of an agreed exponent (R283). -/
def scaleByte (e : BitVec 16) (headroom : Nat) : Byte :=
  if e = 0x8000 then 0 else BitVec.ofInt 8 (max (-127) (min 127 (e.toInt - 7 + headroom)) + 127)

/-- When every exponent is agreed and nothing waits to be sent, the table is written and the scale
round completes (R271, R283, R291). -/
def settleScale (s : State) (n : Nat) : State :=
  let t := tagOf s n
  match t.desc with
  | none => s
  | some d =>
    if t.st = .scaling ∧ d.blocks ≤ t.expDone.length ∧ t.outq = [] then
      let tab := (List.range d.blocks).map fun b => scaleByte (sget 0x8000 t.exps b) t.headroom
      let w := vwrite s (leadHalf s n) t.space d.scale.toNat tab fun _ => false
      match w.2.fault with
      | some f => srpFail w.1 n f.status f.va.toNat
      | none =>
        let s := reportOpt w.1 t.out stOk 0 0
        let s := clearTag s n
        if t.heldMsgs.isEmpty then s else setTag s n { tagReset with st := .early, heldMsgs := t.heldMsgs }
    else s

/-- Send exponents from block `first` on, sixteen a message. -/
def sendExps (n : Nat) : Nat → Nat → List (BitVec 16) → State → State
  | 0, _, _, s => s
  | fuel + 1, first, l, s =>
    if l.isEmpty then s
    else
      let t := tagOf s n
      let s := srpSend s n 0 { srpMsg s n t with first := BitVec.ofNat 32 first, pos := BitVec.ofNat 16 (t.pos s 0), exps := l.take 16 }
      sendExps n fuel (first + 16) (l.drop 16) s

/-- A scale message of a running scale round: it is combined along the chain of segment 0, and the
result returns along the gather path (R283). -/
def takeScale (s : State) (n : Nat) (m : SrpMsg) : State :=
  let t := tagOf s n
  let r := t.rank s
  let b := m.first.toNat
  let bs := (List.range m.exps.length).map (b + ·)
  let combine := r = 0 || !t.outDone.contains b
  let vals := if combine then m.exps.mapIdx fun i e => expMax e (sget 0x8000 t.exps (b + i)) else m.exps
  let exps := (vals.zipIdx b).foldl (fun l x => sset l x.2 x.1) t.exps
  let t := { t with
    exps := exps
    outDone := if combine then bs.foldl ninsert t.outDone else t.outDone
    expDone := if combine && r ≠ 0 then t.expDone else bs.foldl ninsert t.expDone }
  let s := setTag s n t
  let s := if !combine && (r + 1) % t.n = 0 then s
    else sendExps n (vals.length + 1) b vals s
  settleScale s n

/-! ### Arrival (R271, R272, R281, R293) -/

/-- Hold a message; a data message goes to the reorder pool. One for which the pool has no room has no credit behind it
and cannot come (log entry 2); a connection does not take the packet of one (log entry 31). -/
def srpHold (s : State) (n phase : Nat) (m : SrpMsg) : State :=
  let t := tagOf s n
  if !poolRoom s n phase m then s
  else
  let s := if phase ≤ 2 then count s (srpFrame s n) 0x58 1 else s
  setTag s n { t with st := if t.st = .free then .early else t.st, heldMsgs := t.heldMsgs ++ [(phase, m)] }

/-- Whether a data message is for the run that its tag is in, or the one it keeps (R271, R272). -/
def runsNow (t : Tag) (phase : Nat) (m : SrpMsg) : Bool :=
  m.attempt.toNat = t.attempt && (t.st = .running || t.st = .held || (t.st = .scaling && phase = 0))

/-- Whether a data message is to be held and finds no room in the pool (R272, R293). -/
def poolFull (s : State) (phase : Nat) (m : SrpMsg) : Bool :=
  let n := m.tag.toNat
  let t := tagOf s n
  srpOn s (leadHalf s n) && phase ≤ 2 && !(t.live && m.attempt.toNat < t.attempt) && !runsNow t phase m && !poolRoom s n phase m

/-- Whether a data message keeps the bounds of its bucket. -/
def srpFits (d : BDesc) (phase : Nat) (m : SrpMsg) : Bool :=
  if phase = 0 then 0 < m.exps.length && m.first.toNat + m.exps.length ≤ d.blocks
  else 0 < m.blocks.length && m.first.toNat + m.blocks.length ≤ d.blocks

/-- A data message is consumed: its credit returns, and it ends the bucket or is processed (R281,
R293). -/
def srpConsume (s : State) (n phase : Nat) (m : SrpMsg) : State :=
  let s := srpCredit s n m.src m.early 1
  let t := tagOf s n
  match t.desc with
  | none => s
  | some d =>
    if !t.active || !srpFits d phase m then s
    else if m.crc ≠ t.crc then srpEnd s n t stPeerAbandoned m.src.toNat 2 (some 2) none
    else if phase = 0 then takeScale s n m
    else if phase = 1 then
      if d.mode = 0 && (m.blocks.zipIdx m.first.toNat).any fun x => x.1.scale ≠ t.scaleOf d x.2 then
        srpEnd s n t stPeerAbandoned m.src.toNat 3 (some 3) none
      else takeReduce s n d m
    else takeGather s n d m

/-- A discarded data message gives its early credit back. -/
def srpDiscard (s : State) (n phase : Nat) (m : SrpMsg) : State :=
  if phase ≤ 2 && m.early then srpCredit s n m.src true 1 else s

/-- Early credit from a peer: every tag that waits for it goes on. -/
def earlyCredit (s : State) (m : SrpMsg) : State :=
  let key := ctxKey m.src.toNat (m.tag.toNat % 2)
  let s := { s with srpEarly := sset s.srpEarly key (sget (earlyStart s m.tag.toNat) s.srpEarly key + m.word.toNat) }
  (s.tags.filter fun p => p.2.active && p.2.outq ≠ [] && p.1 % 2 = m.tag.toNat % 2 && decide (p.2.next s = m.src)).foldl
    (fun s p => settleScale (srpFlush (p.2.outq.length + 1) s p.1) p.1) s

/-- An abandon message by the tag's state (R272, R295). -/
def takeAbandon (s : State) (n : Nat) (m : SrpMsg) : State :=
  let t := tagOf s n
  match t.st with
  | .free | .early => setTag s n { t with st := .early, abandon := some m.src, abandonHeld := true }
  | .held => s
  | .scaling | .running => srpEnd s n t stPeerAbandoned m.src.toNat 1 none none

/-- A live credit message by the tag's state; credit for a later run is held (DESIGN CHOICE, log entry 31). -/
def takeLive (s : State) (n : Nat) (m : SrpMsg) : State :=
  let t := tagOf s n
  if m.attempt.toNat = t.attempt && t.st = .running then
    srpFlush (t.outq.length + 1) (setTag s n { t with credits := t.credits + m.word.toNat }) n
  else if m.attempt.toNat = t.attempt && t.st = .held then s
  else srpHold s n 4 m

/-- A data message by the tag's state (R272). -/
def takeData (s : State) (n phase : Nat) (m : SrpMsg) : State :=
  let t := tagOf s n
  if m.attempt.toNat = t.attempt && t.st = .running then
    if phase = 0 then srpDiscard s n phase m else srpConsume s n phase m
  else if m.attempt.toNat = t.attempt && t.st = .scaling && phase = 0 then srpConsume s n phase m
  else if m.attempt.toNat = t.attempt && t.st = .held then srpDiscard s n phase m
  else srpHold s n phase m

/-- A message arrives at the Scriptorium that leads its tag. -/
def srpArrive (s : State) (phase : Nat) (m : SrpMsg) : State :=
  let n := m.tag.toNat
  let t := tagOf s n
  if !srpOn s (leadHalf s n) then s
  else
    let s := if phase = 3 then count s (srpFrame s n) 0x78 1 else s
    if phase = 4 && m.early then earlyCredit s m
    else if t.live && m.attempt.toNat < t.attempt then srpDiscard (count s (srpFrame s n) 0x68 1) n phase m
    else if phase = 3 then takeAbandon s n m
    else if phase = 4 then takeLive s n m
    else takeData s n phase m

def execSrpScaleMsg (m : SrpMsg) (s : State) : Out := .next (srpArrive s 0 m)
def execSrpReduceMsg (m : SrpMsg) (s : State) : Out := .next (srpArrive s 1 m)
def execSrpGatherMsg (m : SrpMsg) (s : State) : Out := .next (srpArrive s 2 m)
def execSrpAbandonMsg (m : SrpMsg) (s : State) : Out := .next (srpArrive s 3 m)
def execSrpCreditMsg (m : SrpMsg) (s : State) : Out := .next (srpArrive s 4 m)

/-! ### Starting (R266, R267, R269, R271, R282, R287) -/

/-- Insert a held message in the order of its block index, after its equals. -/
def insByBlock (x : Nat × SrpMsg) : List (Nat × SrpMsg) → List (Nat × SrpMsg)
  | [] => [x]
  | y :: t => if x.2.first.toNat < y.2.first.toNat then x :: y :: t else y :: insByBlock x t

/-- A held message of an earlier run is discarded and counted (R272). -/
def dropStale (s : State) (n : Nat) (x : Nat × SrpMsg) : State :=
  giveBack (count s (srpFrame s n) 0x68 1) n (tagOf s n) x.1 x.2

/-- The held messages of the phase that starts are consumed in order of their block index, grants
first (R271); once one has ended the run, the rest are dropped with it (R295). -/
def srpBegin (s : State) (n : Nat) : State :=
  let t := tagOf s n
  let isNow (x : Nat × SrpMsg) : Bool := x.2.attempt.toNat = t.attempt && (t.st = .running || x.1 = 0)
  let now := t.heldMsgs.filter isNow
  let s := setTag s n { t with heldMsgs := t.heldMsgs.filter fun x => !isNow x && t.attempt ≤ x.2.attempt.toNat }
  let s := (t.heldMsgs.filter fun x => decide (x.2.attempt.toNat < t.attempt)).foldl (fun s x => dropStale s n x) s
  let grants := now.filter fun x => x.1 = 4
  let data := (now.filter fun x => x.1 ≠ 4).foldl (fun l x => insByBlock x l) []
  (grants ++ data).foldl (fun s x => if (tagOf s n).active then srpArrive s x.1 x.2 else giveBack s n t x.1 x.2) s

/-- A bucket starts running: 64 live credits to the rank before it (R293). -/
def srpRun (s : State) (n : Nat) : State :=
  let t := tagOf s n
  let s := if t.n = 1 then s else srpCredit s n (t.prev s) false 64
  srpBegin s n

/-- A scale round starts: the package values are found, and position 0 of segment 0 sends its own
(R283). -/
def scaleStart (s : State) (n : Nat) (d : BDesc) : State :=
  let t := tagOf s n
  match packageExps (leadHalf s n) t.space d d.blocks 0 s with
  | (s, .error f) => srpFail s n f.status f.va.toNat
  | (s, .ok l) =>
    let all := List.range d.blocks
    let first := t.n = 1 || t.rank s = 1
    let s := setTag s n { tagOf s n with
      exps := l.zipIdx.map fun x => (x.2, x.1)
      outDone := if first then all else []
      expDone := if t.n = 1 then all else [] }
    let s := if t.n ≠ 1 && first then sendExps n (l.length + 1) 0 l s else s
    settleScale (srpBegin s n) n

/-- The package IDs that bytes spell. -/
def ranksOf (b : List Byte) (n : Nat) : List (BitVec 16) := (List.range n).map fun i => BitVec.ofNat 16 (bget b (2 * i) 2)

/-- The first poisoned byte of a read from `va`. -/
def firstPoison (va : Nat) (pb : PBytes) : Nat := va + (findIdx? Prod.snd pb).getD 0

/-- SRP_RT_DEFAULT: the default rank list in the boot area (R266, R399). -/
def rtDefault (s : State) : Nat := 2 ^ 40 * ((s.col.hostHalf.getD 0).val) + 0x1000

/-- A read that gives what came before the fault that ended it. -/
def vreadPart (s : State) (h : Half) (sp : Space) (va n : Nat) : State × PBytes × Option FaultAt :=
  (chunks va n).foldl (fun r c =>
    match r.2.2 with
    | some _ => r
    | none =>
      match vread r.1 h sp c.1 c.2 with
      | (s, .error e) => (s, r.2.1, some e)
      | (s, .ok b) => (s, r.2.1 ++ b, none)) (s, [], none)

/-- The entries of a list that came whole and unpoisoned. -/
def ranksKnown (pb : PBytes) : List (BitVec 16) :=
  ((List.range (pb.length / 2)).filter fun i => !PBytes.poisoned ((pb.drop (2 * i)).take 2)).map fun i =>
    BitVec.ofNat 16 (leNat (PBytes.bytes ((pb.drop (2 * i)).take 2)))

/-- A rank-list read that failed: the status, the address, and the participants it gave all the same. -/
structure RanksBad where
  fault : FaultAt
  known : List (BitVec 16)
  deriving DecidableEq, Repr

/-- The participant list (R266), or how its read failed. -/
def readRanks (s : State) (h : Half) (sp : Space) (d : BDesc) : State × Except RanksBad (List (BitVec 16)) :=
  let n := d.nranks.toNat
  let f := d.firstRank.toNat
  if d.ranks = 0 then
    let pa := rtDefault s + 2 * f
    match pread s pa (2 * n) with
    | (s, none) => (s, .error ⟨⟨stBus, BitVec.ofNat 64 pa⟩, []⟩)
    | (s, some pb) =>
      if pb.poisoned then (s, .error ⟨⟨stDataPoison, BitVec.ofNat 64 (firstPoison pa pb)⟩, ranksKnown pb⟩)
      else (s, .ok (ranksOf pb.bytes n))
  else
    let va := d.ranks.toNat + 2 * f
    match vreadPart s h sp va (2 * n) with
    | (s, pb, some e) => (s, .error ⟨e, ranksKnown pb⟩)
    | (s, pb, none) =>
      if pb.poisoned then (s, .error ⟨⟨stDataPoison, BitVec.ofNat 64 (firstPoison va pb)⟩, ranksKnown pb⟩)
      else (s, .ok (ranksOf pb.bytes n))

/-- Whether the participant range runs past the default list (R267). -/
def ranksPast (s : State) (d : BDesc) : Bool :=
  d.ranks = 0 && s.col.rubric.ranks.length < d.firstRank.toNat + d.nranks.toNat

/-- Whether a list names a package twice, or the own package not once (R267). -/
def ranksBad (s : State) (l : List (BitVec 16)) : Bool := l.eraseDups.length ≠ l.length || !l.contains (ownPkg s)

/-- The scale table of a MODE 0 bucket, or the status and address of a read that failed. -/
def readTable (s : State) (h : Half) (sp : Space) (d : BDesc) : State × Except FaultAt (List Byte) :=
  if d.mode ≠ 0 then (s, .ok [])
  else
    match vread s h sp d.scale.toNat d.blocks with
    | (s, .error e) => (s, .error e)
    | (s, .ok pb) =>
      if pb.poisoned then (s, .error ⟨stDataPoison, BitVec.ofNat 64 (firstPoison d.scale.toNat pb)⟩) else (s, .ok pb.bytes)

/-- A command that ends its tag before it runs (R267, R272): the tag is FREE, and a BUCKET_POST counts as a
bucket completed. -/
def srpRefuse (s : State) (id n : Nat) (post : Bool) (st : BitVec 8) (d0 d1 : Nat) : State :=
  let s := freeTag s n
  report (if post then count s (srpFrame s n) 0x40 1 else s) id st d0 d1

/-- The read of the rank list failed (R295): the command ends, and an abandon goes to every participant that the read gave
all the same; the others are not known (DESIGN CHOICE, log entry 31). -/
def ranksFail (s : State) (id n : Nat) (post : Bool) (e : RanksBad) : State :=
  srpAbandonAll (srpRefuse s id n post e.fault.status (if post then e.fault.va.toNat else 0) 0) n
    { tagReset with ranks := e.known.eraseDups } 1 none

/-- BUCKET_POST, or SCALE_ROUND with its headroom, once dispatched (R267, R272, R281, R282). -/
def srpOpen (s : State) (id : Nat) (h : Half) (sp : Space) (addr : Nat) (headroom : Option Nat) : State :=
  match vread s h sp addr 128 with
  | (s, .error f) => report s id f.status (if headroom.isNone then f.va.toNat else 0) 0
  | (s, .ok pb) =>
    if pb.poisoned then report s id stDataPoison 0 0
    else
      let d := bdescOf pb.bytes
      let n := field d.tag 19 0
      let t := tagOf s n
      if d.bad headroom.isSome || leadHalf s n ≠ h || (headroom.isSome && d.mode = 1) || t.live || ranksPast s d then report s id stMalformed 0 0
      else if t.abandonHeld then srpRefuse s id n headroom.isNone stPeerAbandoned (t.abandon.getD 0).toNat 1
      else
        match readRanks s h sp d with
        | (s, .error e) => ranksFail s id n headroom.isNone e
        | (s, .ok l) =>
          if ranksBad s l then report s id stMalformed 0 0
          else
            let t := { tagReset with
              st := if headroom.isSome then .scaling else .running, space := sp, out := some id, desc := some d
              ranks := l, crc := crc32 (l.flatMap fun p => leBytes 2 p.toNat), headroom := headroom.getD 0
              heldMsgs := t.heldMsgs }
            match headroom with
            | some _ => scaleStart (setTag s n t) n d
            | none =>
              match readTable s h sp d with
              | (s, .error e) => srpFail (setTag s n t) n e.status e.va.toNat
              | (s, .ok tab) =>
                if tab.contains 0xFF then report s id stMalformed 0 0 else srpRun (setTag s n { t with table := tab }) n

/-- Whether a command waits for its Scriptorium: it holds 2,048 buckets, or does not run (R270). -/
def srpHeld (s : State) (q : Nat) (room : Bool) : Bool :=
  let h := queueHalf q
  (srpOf s h).run ≠ .running || (room && 2048 ≤ srpLive s h)

/-- BUCKET_POST (R269). -/
def runBucketPost (poison : Bool) (c : JCmd) (s : State) : State :=
  let q := c.queue.toNat
  let a := bget c.body 0 8
  gate s c 0x40 poison false (a % 128 ≠ 0) false (srpHeld s q true) fun id s =>
    srpOpen s id (queueHalf q) (queueSpace s q) a none

/-- SCALE_ROUND (R269). -/
def runScaleRound (poison : Bool) (c : JCmd) (s : State) : State :=
  let q := c.queue.toNat
  let a := bget c.body 0 8
  gate s c 0x41 poison false (a % 128 ≠ 0 || 16 < bget c.body 8 4) false (srpHeld s q true) fun id s =>
    srpOpen s id (queueHalf q) (queueSpace s q) a (some (bget c.body 8 4))

/-- Whether a tag field breaks its layout or names a tag that another Scriptorium leads (R263). -/
def tagFieldBad (s : State) (q : Nat) (w : Nat) : Bool := 2 ^ 20 ≤ w || leadHalf s (w % 2 ^ 20) ≠ queueHalf q

/-- The table of a reissue: raised by `step`, capped at 0xFE, for every block or for those marked SAT
(R287). -/
def raisedTable (t : Tag) (sel : Bool) (step : Nat) : List Byte :=
  t.table.mapIdx fun b x => if sel && !t.satBlocks.contains b then x else BitVec.ofNat 8 (min 0xFE (x.toNat + step))

/-- A HELD bucket reruns with the next ATTEMPT (R287). -/
def srpReissue (s : State) (id n : Nat) (sel : Bool) (step : Nat) : State :=
  let t := tagOf s n
  match t.desc with
  | none => s
  | some d =>
    let tab := raisedTable t sel step
    let s := gaugeClr s (srpGauge n)
    let s := setTag s n { t with
      st := .running, attempt := t.attempt + 1, out := some id, table := tab, outq := [], lastSent := [], outDone := []
      satSeg := [], satBlocks := [], poisonBlocks := [], partials := [], exps := [], expDone := [], credits := 0 }
    let w := vwrite s (leadHalf s n) t.space d.scale.toNat tab fun _ => false
    match w.2.fault with
    | some f => srpFail w.1 n f.status f.va.toNat
    | none => srpRun w.1 n

/-- Whether a REISSUE body breaks its rules (R269, R272). -/
def reissueBad (s : State) (q : Nat) (b : List Byte) : Bool :=
  let w := bget b 0 4
  let x := bget b 4 4
  let t := tagOf s (w % 2 ^ 20)
  tagFieldBad s q w || 32 ≤ x || x / 2 = 0 || t.st ≠ .held || 15 ≤ t.attempt
  || (match t.desc with | none => true | some d => d.mode = 1)

def runReissue (poison : Bool) (c : JCmd) (s : State) : State :=
  let q := c.queue.toNat
  let x := bget c.body 4 4
  gate s c 0x42 poison false (reissueBad s q c.body) false (srpHeld s q false) fun id s =>
    srpReissue s id (bget c.body 0 4) (x % 2 = 1) (x / 2)

/-- BUCKET_RELEASE (R271). -/
def runBucketRelease (poison : Bool) (c : JCmd) (s : State) : State :=
  let q := c.queue.toNat
  let n := bget c.body 0 4
  gate s c 0x43 poison false (tagFieldBad s q n || (tagOf s n).st ≠ .held) false (srpHeld s q false) fun id s =>
    report (freeTag s n) id stOk 0 0

/-- BUCKET_ABORT (R295). -/
def runBucketAbort (poison : Bool) (c : JCmd) (s : State) : State :=
  let q := c.queue.toNat
  let n := bget c.body 0 4
  gate s c 0x44 poison false (tagFieldBad s q n) false (srpHeld s q false) fun id s =>
    let t := tagOf s n
    let s := if t.active then srpEnd s n t stPeerAbandoned (ownPkg s).toNat 5 (some 5) none else freeTag s n
    report s id stOk 0 0

def execBucketPost (c : JCmd) (s : State) : Out := .next (runBucketPost false c s)
def execScaleRound (c : JCmd) (s : State) : Out := .next (runScaleRound false c s)
def execReissue (c : JCmd) (s : State) : Out := .next (runReissue false c s)
def execBucketRelease (c : JCmd) (s : State) : Out := .next (runBucketRelease false c s)
def execBucketAbort (c : JCmd) (s : State) : Out := .next (runBucketAbort false c s)

/-! ### Contributions and completion (R273, R275, R288 to R292) -/

/-- The reads of a block's contributions return: position 0 encodes and sends it, and with N = 1 it is
converted at once. Another position's sum is formed when its message arrives. -/
def contribDone (s : State) (n b : Nat) : State :=
  let t := tagOf s n
  match t.desc with
  | none => s
  | some d =>
    let j := segOf t.n d.blocks b
    if !srpOn s (leadHalf s n) || t.st ≠ .running || d.blocks ≤ b || t.expDone.contains b || t.pos s j ≠ 0 then s
    else
      let s := setTag s n { t with expDone := ninsert t.expDone b }
      if t.n = 1 then
        match readBoth s (leadHalf s n) t.space d b with
        | (s, .error f) => srpFail s n f.status f.va.toNat
        | (s, .ok c) => closeBlock s n d j b (packageSums d b c) none
      else
        match hopBlocks n d j 0 [none] b s with
        | (s, none) => s
        | (s, some l) =>
          let t := tagOf s n
          srpSend s n 1 { srpMsg s n t with
            seg := BitVec.ofNat 16 j, first := BitVec.ofNat 32 b
            sat := BitVec.ofNat 48 (sget 0 t.satSeg (t.n + j)), blocks := l }

def execContributionReadDone (tag : BitVec 20) (block : Nat) (s : State) : Out := .next (contribDone s tag.toNat block)

/-- The bucket's sum of squares: the partials merged in rank order (R288). -/
def sumsqWell (t : Tag) : Well := (List.range t.n).foldl (fun w j => w.merge (sget wellZero t.partials j)) wellZero

/-- The 128-byte record and whether its line is poisoned (R288). -/
def sumsqRecord (w : Well) : List Byte × Bool :=
  let r := w.readout 0 .rne 2 0
  (w.raw ++ leBytes 4 r.2.bits ++ List.replicate 28 0, r.1)

/-- Write or accumulate the sum-of-squares record (R288, R289). -/
def writeSumsq (s : State) (n : Nat) (t : Tag) (d : BDesc) : State × Option FaultAt :=
  let put (s : State) (h : Half) (w : Well) : State × Option FaultAt :=
    let r := sumsqRecord w
    let v := vwrite s h t.space d.sumsq.toNat r.1 fun _ => r.2
    (v.1, v.2.fault)
  if d.sumsqMode = 1 then put s (leadHalf s n) (sumsqWell t)
  else if d.sumsqMode = 2 then
    let h : Half := if halfFenced s 0 then 1 else 0
    match vread s h t.space d.sumsq.toNat 96 with
    | (s, .error f) => (s, some f)
    | (s, .ok pb) => put s h ((wellOfRaw pb.bytes pb.poisoned).merge (sumsqWell t))
  else (s, none)

/-- Whether every message the bucket sent is acknowledged (R291). -/
def allAcked (s : State) (t : Tag) : Bool := t.outq.isEmpty && t.lastSent.all fun p => p.2 ≤ (ctxOf s p.1).ackN

/-- The saturation count (R285). -/
def satCount (t : Tag) : Nat := (List.range t.n).foldl (fun a j => a + sget 0 t.satSeg j) 0

/-- A bucket completes (R286, R291, R292). -/
def bucketComplete (s : State) (n : Nat) : State :=
  let t := tagOf s n
  match t.desc with
  | none => s
  | some d =>
    if !srpOn s (leadHalf s n) || t.st ≠ .running || t.outDone.length < d.blocks || !allAcked s t then s
    else
      match writeSumsq s n t d with
      | (s, some f) => srpFail s n f.status f.va.toNat
      | (s, none) =>
        let sat := satCount t
        let st := if t.poisonBlocks ≠ [] then stDataPoison else if sat ≠ 0 then stClipped else stOk
        let s := count s (srpFrame s n) 0x40 1
        let s := if st = stClipped then count s (srpFrame s n) 0x48 1 else s
        let s := if d.retain then setTag s n { tagOf s n with st := .held, out := none } else freeTag s n
        reportOpt s t.out st sat (t.poisonBlocks.length + 2 ^ 32 * t.attempt)

def execBucketComplete (tag : BitVec 20) (s : State) : Out := .next (bucketComplete s tag.toNat)

/-! ### Driver loss and peers (R296, R297) -/

/-- A half's Scriptorium stops: running tags end with DRIVER_LOST, and what the pool holds for them stays. -/
def srpStop (s : State) (h : Half) : State :=
  let s := (s.tags.filter fun p => leadHalf s p.1 = h && p.2.active).foldl (fun s p =>
    let s := srpEnd (setTag s p.1 { p.2 with heldMsgs := [] }) p.1 p.2 stDriverLost 0 0 (some 1) none
    if p.2.heldMsgs.isEmpty then s else setTag s p.1 { tagReset with st := .early, heldMsgs := p.2.heldMsgs }) s
  { s with srp := sset s.srp h.val { srpOf s h with run := .stopped } }

/-- The connection of a CLASS to a peer failed, or the peer is down: running buckets that include it
end (R295 cause 4, R297). -/
def srpPeerEnd (s : State) (peer : BitVec 16) (cls : Nat) (st : BitVec 8) : State :=
  (s.tags.filter fun p => p.2.active && p.1 % 2 = cls && p.2.ranks.contains peer).foldl (fun s p =>
    if srpOn s (leadHalf s p.1) && (tagOf s p.1).active then srpConnEnd s p.1 peer st else s) s

end Sys2Proof.Machine
end

