-- ==== Sys2Proof/Machine/Colophon.lean ====
section
/-! DEFINITION. The Colophon at run time (R402 to R405, R412 to R424) and the driver (R448 to R451). -/

namespace Sys2Proof.Machine
open Sys2Proof

/-! ### Sensors and clocks (R416 to R419) -/

/-- Whether a sensor index is listed (R416). -/
def sensorListed (i : Nat) : Bool := i < 126 || (128 ≤ i && i < 152) || i = 160

/-- The value of a sensor as last sampled. -/
def sensorVal (s : State) (i : Nat) : BitVec 32 := sget 0 s.col.sensors i

/-- A temperature in 1/16 °C, none when the reading is invalid. -/
def tempVal (v : BitVec 32) : Option Int := let t := intOfBits 16 (field v 15 0); if t = -32768 then none else some t

/-- The thermal rule (R417): a step and its count of cool periods, for steps up to `top`. -/
def thermStep (r : Rubric) (t : Option Int) (top cur cool : Nat) : Nat × Nat :=
  let hot : Int := 16 * r.tThrottle
  let low : Int := 16 * (r.tThrottle - r.hyst)
  match t with
  | none => (min top (cur + 1), 0)
  | some t =>
    if hot ≤ t then (min top (cur + 1), 0)
    else if t < low then (if 10 ≤ cool + 1 then (cur - 1, 0) else (cur, cool + 1))
    else (cur, 0)

/-- Whether a stroke group has a live quire. -/
def groupLive (s : State) (g : Nat) : Bool :=
  let h := halfOf (g / 36)
  let r := g % 36 / 6
  let c := g % 6
  (List.range 4).any fun m => !quireFenced s ⟨h, quireFin (12 * (2 * r + m / 2) + 2 * c + m % 2)⟩

/-- A group's running step. -/
def runStep (c : Colo) (g : Nat) : Nat := max (sget 0 c.stepT g) (sget 0 c.stepP g)

/-- A cluster's ceiling in 0.1 GHz (R418): 3.2 GHz less its thermal drop and the package's power drop. -/
def ceiling (c : Colo) (k : Nat) : Nat := 32 - min 22 (sget 0 c.ceil k + c.ceilLow)

/-- The rate in 0.1 GHz at which a cluster runs (R418): what COL_CLUSTER_REQ asks for, up to the ceiling. -/
def clusterRate (s : State) (k : Nat) : Nat :=
  min (10 + min 22 (field (regAct s (Frame.col.base + 0x90 + 4 * k)) 4 0)) (ceiling s.col k)

/-- The thermal steps of all groups and clusters after a sample. -/
def thermalAll (s : State) (c : Colo) : Colo :=
  let gs := (List.range 72).map fun g =>
    (g, thermStep c.rubric (tempVal (sget 0 c.sensors g)) 4 (sget 0 c.stepT g) (sget 0 c.cool g))
  let ks := (List.range 12).map fun k =>
    (k, thermStep c.rubric (tempVal (sget 0 c.sensors (72 + 10 * (k / 6) + k % 6))) 22 (sget 0 c.ceil k) (sget 0 c.ceilCool k))
  { c with
    stepT := (gs.filter fun x => groupLive s x.1).map fun x => (x.1, x.2.1)
    cool := (gs.filter fun x => groupLive s x.1).map fun x => (x.1, x.2.2)
    ceil := ks.map fun x => (x.1, x.2.1)
    ceilCool := ks.map fun x => (x.1, x.2.2) }

/-- The groups with a live quire. -/
def liveGroups (s : State) : List Nat := (List.range 72).filter (groupLive s)

/-- Change the power steps of the live groups that meet a test. -/
def setPg (c : Colo) (live : List Nat) (p : Nat → Bool) (f : Nat → Nat) : Colo :=
  { c with stepP := (List.range 72).map fun g =>
      (g, if live.contains g && p g then f (sget 0 c.stepP g) else sget 0 c.stepP g) }

/-- Average input power above the limit (R417), on the running steps `old` before the sample. -/
def powerOver (live : List Nat) (old c : Colo) : Colo :=
  if live.all (fun g => runStep old g = 4) then { c with ceilLow := min 22 (c.ceilLow + 1) }
  else setPg c live (fun g => runStep old g = (live.map (runStep old)).foldl min 4) fun n => min 4 (n + 1)

/-- Input power low for ten periods (R417): ceilings rise first, then the highest power steps fall. -/
def powerUnder (live : List Nat) (c : Colo) : Colo :=
  if 0 < c.ceilLow then { c with ceilLow := c.ceilLow - 1 }
  else setPg c live (fun g => sget 0 c.stepP g = (live.map fun g => sget 0 c.stepP g).foldl max 0) fun n => n - 1

/-- The last ten readings of input power. -/
def powerHist (l : List Nat) (p : Nat) : List Nat := (l ++ [p]).drop (l.length - 9)

/-- The power rule on the running steps `old` before the sample, given the input power in units of 10 µW
(R417). -/
def powerAll (s : State) (old c : Colo) (p : Nat) : Colo :=
  let lim := c.rubric.powerLimit * 100000
  let hist := powerHist old.powHist p
  let c1 : Colo := { c with
    powHist := hist, powLow := if lim * 97 ≤ p * 100 then 0 else min 10 (old.powLow + 1) }
  let c2 : Colo := if lim * hist.length < hist.foldl (· + ·) 0 then powerOver (liveGroups s) old c1 else c1
  if p * 100 < lim * 97 ∧ 10 ≤ old.powLow + 1 then powerUnder (liveGroups s) c2 else c2

/-- Log the changes of running steps and of clusters' rates since `o` (event 0x0020), and count those of steps and ceilings. -/
def noteSteps (s o : State) : State :=
  let old := o.col
  let new := s.col
  let changed (n : Nat) (f : Colo → Nat → Nat) : List Nat := (List.range n).filter fun i => f old i ≠ f new i
  let tS := (changed 72 fun c g => sget 0 c.stepT g).length + (changed 12 ceiling).length
  let pS := (changed 72 fun c g => sget 0 c.stepP g).length
  let s := count (count s .col 0x1C0 tS) .col 0x1C8 pS
  let s := (changed 72 runStep).foldl (fun s g =>
    logPut s 0x0020 0 (logFields [(4, g), (4, runStep old g), (4, runStep new g),
      (4, if sget 0 old.stepT g ≠ sget 0 new.stepT g then 0 else 1)])) s
  ((List.range 12).filter fun k => clusterRate o k ≠ clusterRate s k).foldl (fun s k =>
    logPut s 0x0020 0 (logFields [(4, 128 + k), (4, clusterRate o k), (4, clusterRate s k),
      (4, if sget 0 old.ceil k ≠ sget 0 new.ceil k then 0 else if old.ceilLow ≠ new.ceilLow then 1 else 2)])) s

/-- Events 0x0021 and 0x0022 for the readings of a sample. -/
def noteReadings (s : State) (old : Sparse (BitVec 32)) (l : List (BitVec 8 × BitVec 32)) : State :=
  let alert : Int := 16 * s.col.rubric.tAlert
  l.foldl (fun s x =>
    let i := x.1.toNat
    if 126 ≤ i then s
    else match tempVal x.2 with
    | none => if i < 96 then logPut s 0x0022 2 (logFields [(4, i)]) else s
    | some t =>
      let before := (tempVal (sget 0 old i)).getD 0
      if before < alert ∧ alert ≤ t then logPut s 0x0021 2 (logFields [(4, i), (4, x.2.toNat)]) else s) s

/-- Whether the Colophon firmware runs. -/
def firmwareUp (s : State) : Bool := s.power.input && decide (1 ≤ s.col.stage) && !s.col.recovery

/-- A reading as its register shows it: a temperature in bits [15:0] alone, 0x8000 when it is invalid (R416). -/
def sensorWord (i : Nat) (v : BitVec 32) : BitVec 32 := if i < 126 then v &&& 0xFFFF#32 else v

/-- A sample period (R417). -/
def sample (s : State) (l : List (BitVec 8 × BitVec 32)) : State :=
  if !firmwareUp s then s
  else
    let l := l.filter fun x => sensorListed x.1.toNat
    let o := s
    let s := applyShadow s ((List.range 12).map fun i => Frame.col.base + 0x90 + 4 * i)
    let old := s.col
    let c := { old with sensors := l.foldl (fun m x => sset m x.1.toNat (sensorWord x.1.toNat x.2)) old.sensors }
    let p := sget 0 c.sensors 160
    let c := thermalAll s c
    let c := if p = 0xFFFFFFFF then c else powerAll s old c (field p 15 0 * field p 31 16)
    noteReadings (noteSteps { s with col := c } o) old.sensors l

def execColophonSample (l : List (BitVec 8 × BitVec 32)) (s : State) : Out := .next (sample s l)

/-! ### The driver (R448 to R451) -/

/-- ID_HB_LAST. -/
def hbLast (s : State) : Nat := regWord64 s (Frame.id.base + 0x110)
/-- HB_TIMEOUT in ms, 0 to 9 acting as 10. -/
def hbTimeout (s : State) : Nat := max 10 (field (regWord s (Frame.id.base + 0x10C)) 15 0)

/-- A link that waits for a tile or a credit when the driver is lost ends with DRIVER_LOST, its Wells as
they are (R87). -/
def linkLost (s : State) (k : Nat) : State :=
  let q : QuireId := ⟨halfOf (k / 144), quireFin k⟩
  match (inkOf s q).running with
  | none => s
  | some op =>
    let waits := op.ended.isNone && ((op.phase = .ductusWait && op.recv.isNone) || (op.phase = .send && op.body.action = 3 && !op.sent))
    if !waits then s
    else
      if inkBlocked s q then setRunning s q { op with ended := some stDriverLost }
      else finishRunning (linkFinish s s q op true true) q op stDriverLost 0

/-- A half's Scribe stops at a command boundary (R198). -/
def scbStop (s : State) (h : Half) : State :=
  let v := scbOf s h
  if v.run = .running then setScb s h { v with run := .stopped } else s

/-- The driver-loss sequence (R449): every unit acts at once. -/
def driverLoss (s : State) (cause : BitVec 2) : State :=
  let s := { s with drv := { s.drv with st := .stopping, cause := cause } }
  let s := logPut s 0x0050 1 (logFields [(4, cause.toNat)])
  if !alive s then s
  else
    let s := scbStop (scbStop s 0) 1
    let s := s.inks.foldl (fun s p => linkLost s p.1) s
    let s := if s.blt = .running then { bltDropEarly s with blt := .stopped } else s
    let srp (s : State) (h : Half) : State := if (srpOf s h).run = .running then srpStop s h else s
    let fed (s : State) (h : Half) : State := if (feedOf s h).run = .running then feedStop s h else s
    fed (fed (srp (srp s 0) 1) 0) 1

def execHeartbeatLapse (s : State) : Out :=
  .next (if firmwareUp s && decide (s.drv.st = .attached) && decide (hbTimeout s * 1000000 < s.tick.toNat - hbLast s) then
    driverLoss s 1 else s)

/-- DETACH while ATTACHED (R449, R450). -/
def execDetach (s : State) : Out :=
  .next (postedOp s .id fun s => if s.drv.st = .attached then driverLoss s 2 else s)

/-- Whether a unit shows STOPPED, or is absent. -/
def showsStopped (r : RunSt) : Bool := r = .stopped || r = .off

/-- Every unit shows STOPPED (R449). -/
def execDriverStopped (s : State) : Out :=
  let all := showsStopped (scbOf s 0).run && showsStopped (scbOf s 1).run && showsStopped (srpOf s 0).run &&
    showsStopped (srpOf s 1).run && showsStopped (feedOf s 0).run && showsStopped (feedOf s 1).run &&
    showsStopped s.blt && s.upds.isEmpty
  .next (if s.drv.st = .stopping && all then { s with drv := { s.drv with st := .stopped } } else s)

/-- ID_HEARTBEAT (R448, R450). -/
def heartbeat (s : State) : State :=
  if s.drv.st = .attached then setReg64 s (Frame.id.base + 0x110) s.tick.toNat
  else { s with drv := { s.drv with lateHb := true } }

def execHeartbeat (s : State) : Out := .next (postedOp s .id heartbeat)

/-- ATTACH (R451). -/
def attach (s : State) : State :=
  if (s.drv.st = .detached || s.drv.st = .stopped) && !anyQueueEnabled s then
    let go (r : RunSt) : RunSt := if r = .stopped then .running else r
    let s := setReg64 s (Frame.id.base + 0x110) s.tick.toNat
    let s := logPut s 0x0050 1 (logFields [(4, 0)])
    { s with
      drv := { s.drv with st := .attached }
      scb := s.scb.map fun p => (p.1, { p.2 with run := go p.2.run })
      srp := s.srp.map fun p => (p.1, { p.2 with run := go p.2.run })
      feeds := s.feeds.map fun p => (p.1, { p.2 with run := go p.2.run })
      blt := go s.blt }
  else { s with drv := { s.drv with attachFail := true } }

def execAttach (s : State) : Out := .next (postedOp s .id attach)

/-! ### Update (R402 to R405) -/

/-- The slot a component booted. -/
def bootedSlot (s : State) (c : Nat) : Nat := if c = 0 then s.col.bootedCol else if c = 1 then s.col.bootedScfw else s.col.bootedRub

/-- Whether the slot a component booted is PENDING. -/
def bootedPending (s : State) (c : Nat) : Bool :=
  match slotSt s.flash c (bootedSlot s c) with
  | .pending _ => true
  | _ => false

/-- The CAUSE that an image's bytes give, or 0 (R403). -/
def updCause (s : State) (c : Nat) (b : List Byte) : Nat :=
  if slotSize c < b.length then 5
  else if c = 2 then (if (rubValid b).isSome then 0 else 9)
  else if 1152 ≤ b.length ∧ !imageFits b (c + 1) then 5
  else match compCheck s c b with
    | 0 => 0 | 1 => 1 | 2 => 2 | 5 => 4 | _ => 3

/-- An update ends (event 0x0040). -/
def updLog (s : State) (c k svn cause : Nat) : State :=
  logPut s 0x0040 1 (logFields [(4, c + 1), (4, k), (4, svn), (4, cause)])

/-- The check of R393 or R411 that an image fails: a length above its slot or its target is one of the sizes of check 1. -/
def failedCheck (s : State) (c : Nat) (b : List Byte) : Nat := max 1 (compCheck s c b)

/-- The SVN of an image; a Rubric has none. -/
def imageSvn (c : Nat) (b : List Byte) : Nat := if c = 2 then 0 else bget b 8 4

/-- COL_UPD_CTL.GO (R402): the image is read and checked; when it is good, the slot not booted becomes
INVALID, and is erased, programmed and read back until UPDATE_FINISH. -/
def updateGo (s : State) : State :=
  let comp := field (regWord s (Frame.col.base + 0x54)) 1 0
  let c := comp - 1
  let k := 1 - bootedSlot s c
  let len := (regWord s (Frame.col.base + 0x50)).toNat
  let busy (s : State) (img : Option (List Byte)) (e : Nat) : State :=
    { s with col := { s.col with upd := .busy, updComp := BitVec.ofNat 2 comp, updImage := img, updCause := BitVec.ofNat 4 e, updSvn := 0 } }
  if s.col.upd = .busy || comp = 0 then s
  else if bootedPending s c then
    updLog { s with col := { s.col with upd := .failed, updCause := 7, updComp := BitVec.ofNat 2 comp } } c k 0 7
  else if slotSize c < len then rejectLog (busy s none 5) c k 1
  else if !alive s then busy s none 8
  else
    match pread s (regWord64 s (Frame.col.base + 0x48)) len with
    | (s, none) => busy s none 8
    | (s, some pb) =>
      if pb.poisoned then busy s none 8
      else
        let e := updCause s c pb.bytes
        let s' := busy s (if e = 0 then some pb.bytes else none) e
        let s' := { s' with col := { s'.col with updOld := slotSt s.flash c k, updSvn := imageSvn c pb.bytes } }
        if e = 0 then setSlot s' c k .invalid else rejectLog s' c k (failedCheck s c pb.bytes)

def execUpdateGo (s : State) : Out := .next (postedOp s .col updateGo)

/-- Erase a slot and program an image into it (R402). -/
def programSlot (s : State) (c k : Nat) (b : List Byte) : State :=
  let m := s.flash.bytes.filter fun p => decide (p.1 < slotBase c k ∨ slotBase c k + slotSize c ≤ p.1)
  { s with flash := { s.flash with bytes := flashWrite m (slotBase c k) b } }

/-- The update ends (R402, R403): DONE with the slot PENDING when the readback matches, or FAILED. Whether programming or
readback fails is the flash die's affair, and what a failed one leaves is free (DESIGN CHOICE, log entry 47). -/
def updateFinish (s : State) : State :=
  let c := s.col.updComp.toNat - 1
  let k := 1 - bootedSlot s c
  if s.col.upd ≠ .busy then s
  else match s.col.updImage with
  | none => updLog { s with col := { s.col with upd := .failed, updImage := none } } c k s.col.updSvn s.col.updCause.toNat
  | some b =>
    let n := s.free
    let fail := Config.flashFails n
    let b' := if fail then (List.range b.length).map fun i => Config.freeByte (n + 1 + i) else b
    let s := programSlot { s with free := n + 1 + (if fail then b.length else 0) } c k b'
    if fail then
      updLog { s with col := { s.col with upd := .failed, updCause := 6, updImage := none } } c k (imageSvn c b) 6
    else updLog (setSlot { s with col := { s.col with upd := .done, updImage := none } } c k (.pending 3)) c k (imageSvn c b) 0

def execUpdateFinish (s : State) : Out := .next (if firmwareUp s then updateFinish s else s)

/-- The SVN of a component's ACTIVE slot. -/
def activeSvn (s : State) (c : Nat) : Option Nat :=
  ([0, 1].find? fun k => slotSt s.flash c k = .active).map fun k => bget (flashRange s.flash.bytes (slotBase c k) 16) 8 4

/-- COL_UPD_CONFIRM (R404). -/
def updateConfirm (s : State) : State :=
  if !(List.range 3).any (bootedPending s) then s
  else
    let s := (List.range 3).foldl (fun s c =>
      if bootedPending s c then
        let k := bootedSlot s c
        let s := if slotSt s.flash c (1 - k) = .active then setSlot s c (1 - k) .fallback else s
        setSlot s c k .active
      else s) s
    let old := s.flash.svn
    let new := match activeSvn s 0, activeSvn s 1 with
      | some a, some b => min 127 (max old (min a b))
      | _, _ => old
    logPut { s with flash := { s.flash with svn := new } } 0x0041 1 (logFields [(4, old), (4, new)])

def execUpdateConfirm (s : State) : Out := .next (postedOp s .col fun s => guardOp s .col updateConfirm)

/-! ### The log (R422, R424) -/

/-- COL_LOG_COMMIT (R424). -/
def logCommit (s : State) : State :=
  if featureOn s 7 then
    logPut s 0x0F00 1 ((List.range 8).flatMap fun i => leBytes 4 (regWord s (Frame.col.base + 0x160 + 4 * i)).toNat)
  else s

def execLogCommit (s : State) : Out := .next (postedOp s .col logCommit)

/-- The entries that are due are copied to flash in sequence order (R422). -/
def execLogFlashCopy (s : State) : Out :=
  .next (if s.power.input then
    flashCopy 4096 s.col.logNext { s with col := { s.col with logFlashed := max s.col.logFlashed (s.col.logNext - 4096) } } else s)

/-- The entry of a ring slot (R413, COL_LOG_SEL). -/
def logSlot (s : State) (flash : Bool) (slot : Nat) : List Byte :=
  if flash then sget [] s.flash.log (slot % 65536) else if slot < 4096 then sget [] s.col.log slot else []

/-! ### Port M (R413) -/

/-- Whether port M answers. -/
def portM (s : State) : Bool := s.power.input && (s.col.recovery || decide (1 ≤ s.col.stage))

/-- The management address: the Rubric's, else the cached one, else in recovery 169.254.96.1. -/
def ownIp (s : State) : Option (BitVec 32) :=
  if s.col.recovery then some (s.flash.ip.getD 0xA9FE6001) else match s.col.rubric.ip with | some a => some a | none => s.flash.ip

def execArpRequest (ip : BitVec 32) (_mac : BitVec 48) (s : State) : Out :=
  .next (if portM s && ownIp s = some ip then send s (.mgmt (.arp ip)) else s)

/-- Answer an ICMP echo from `ip`. -/
def execIcmpEcho (ip : BitVec 32) (payload : List Byte) (s : State) : Out :=
  .next (if portM s && (ownIp s).isSome then send s (.mgmt (.icmp ip payload)) else s)

/-- A reply of port 29,600. -/
def answer (s : State) (who : Requester) (type : BitVec 8) (id : BitVec 16) (st : BitVec 8) (p : List Byte) : State :=
  send s (.mgmt (.reply who type id st p))

/-- A request datagram of a type whose header is looked at first (R413): a type that is none of the five is answered as
unsupported, and a payload length that is wrong as bad length. Another version is dropped (DESIGN CHOICE, log entry 47), and
a request that comes while 16 wait. -/
def portRequest (s : State) (who : Requester) (hd : ReqHead) (type : BitVec 8) (f : State → BitVec 16 → State) : State :=
  if !portM s || 16 ≤ hd.ahead || hd.version ≠ 1 then s
  else if hd.type ≠ type then (if 1 ≤ hd.type.toNat ∧ hd.type.toNat ≤ 5 then s else answer s who hd.type hd.id 1 [])
  else if !hd.lenOk then answer s who type hd.id 3 []
  else f s hd.id

def logRead (s : State) (who : Requester) (id : BitVec 16) (flash : Bool) (slot n : Nat) : State :=
  if s.col.recovery then answer s who 2 id 2 []
  else if n = 0 || 16 < n then answer s who 2 id 3 []
  else answer s who 2 id 0 ((List.range n).flatMap fun i => bslice (logSlot s flash ((slot + i) % if flash then 65536 else 4096)) 0 64)

def execLogRead (who : Requester) (hd : ReqHead) (flash : Bool) (slot : BitVec 16) (n : Nat) (s : State) : Out :=
  .next (portRequest s who hd 2 fun s id => logRead s who id flash slot.toNat n)

def sensorRead (s : State) (who : Requester) (id : BitVec 16) (first n : Nat) : State :=
  if s.col.recovery then answer s who 3 id 2 []
  else if n = 0 || 64 < n then answer s who 3 id 3 []
  else answer s who 3 id 0 ((List.range n).flatMap fun i => leBytes 4 (sensorVal s (first + i)).toNat)

def execSensorRead (who : Requester) (hd : ReqHead) (first n : Nat) (s : State) : Out :=
  .next (portRequest s who hd 3 fun s id => sensorRead s who id first n)

/-- Whether image requests for a component are taken (R397, R413). -/
def imageAllowed (s : State) (comp : Nat) : Bool :=
  if s.col.recovery then decide (comp = 1)
  else (s.col.rubric.permit || s.col.bootFailed || s.power.off) && decide (1 ≤ comp) && decide (comp ≤ 3) && !bootedPending s (comp - 1)
    && decide (s.col.upd ≠ .busy)

def imageWrite (s : State) (who : Requester) (id : BitVec 16) (comp off : Nat) (b : List Byte) : State :=
  let c := comp - 1
  let k := 1 - bootedSlot s c
  if !imageAllowed s comp then answer s who 4 id 2 []
  else if 1024 < b.length || slotSize c < off + b.length then answer s who 4 id 3 []
  else
    let s := { s with flash := { s.flash with bytes := flashWrite s.flash.bytes (slotBase c k + off) b } }
    answer (setSlot s c k .invalid) who 4 id 0 []

def execImageWrite (who : Requester) (hd : ReqHead) (comp : BitVec 8) (off : BitVec 32) (b : List Byte) (s : State) : Out :=
  .next (portRequest s who hd 4 fun s id => imageWrite s who id comp.toNat off.toNat b)

/-- IMAGE_COMMIT (R397, R413): the slot's bytes are read back and checked, a good slot becomes PENDING, and in recovery the
ROM restarts. -/
def imageCommit (s : State) (who : Requester) (id : BitVec 16) (comp len : Nat) : State :=
  let c := comp - 1
  let k := 1 - bootedSlot s c
  if !imageAllowed s comp then answer s who 5 id 2 []
  else if slotSize c < len then answer s who 5 id 3 []
  else
    let b := flashRange s.flash.bytes (slotBase c k) len
    let e := updCause s c b
    let s := updLog s c k (imageSvn c b) e
    if e ≠ 0 then answer (setSlot (rejectLog s c k (failedCheck s c b)) c k .invalid) who 5 id 2 []
    else
      let s := answer (setSlot s c k (.pending 3)) who 5 id 0 []
      if s.col.recovery then romStart { s with col := { s.col with bootedCol := k, reselect := true } } else s

def execImageCommit (who : Requester) (hd : ReqHead) (comp : BitVec 8) (len : BitVec 32) (s : State) : Out :=
  .next (portRequest s who hd 5 fun s id => imageCommit s who id comp.toNat len.toNat)

/-! ### SPDM (R414, R415) -/

def tscOf (s : State) (who : Requester) : Transcript := (s.col.spdm.find? fun t => t.who = who).getD ⟨who, [], []⟩

/-- Add a request to a requester's transcript; a fifth requester evicts the oldest (R414). -/
def tscAdd (s : State) (who : Requester) (kind : Nat) (b : List Byte) : State :=
  let t := tscOf s who
  let t := if kind = 0 then ⟨who, [], []⟩ else t
  let t := { t with done := t.done ++ [kind], bytes := t.bytes ++ b }
  let l := if s.col.spdm.any (fun x => x.who = who) then s.col.spdm.map fun x => if x.who = who then t else x
    else (s.col.spdm ++ [t]).drop (s.col.spdm.length + 1 - 4)
  { s with col := { s.col with spdm := l } }

/-- An SPDM request is served (R413): the transcript takes it, and the reply goes out with its request ID. One outside the list
of R414, and in recovery any (R397), is unsupported. -/
def spdm (s : State) (r : SpdmCall) (kind : Nat) (b : List Byte) (reply : State → ReplyTo → Mgmt) : State :=
  portRequest s r.who r.hd 1 fun s id =>
    if s.col.recovery || !r.listed then send s (.mgmt (.spdmError ⟨r.who, id⟩ .unsupportedRequest))
    else let s := tscAdd s r.who kind b; send s (.mgmt (reply s ⟨r.who, id⟩))

def execGetVersion (r : SpdmCall) (s : State) : Out := .next (spdm s r 0 [] fun _ d => .spdmVersion d [(1, 2)])
def execGetCapabilities (r : SpdmCall) (flags : BitVec 32) (s : State) : Out :=
  .next (spdm s r 1 (leBytes 4 flags.toNat) fun _ d => .spdmCaps d ⟨true, true, true, 16, 1024, 1024⟩)

/-- The algorithms of R414. -/
def spdmAlgs : SpdmAlgs := ⟨"DMTF", "TPM_ALG_RSASSA_3072", "TPM_ALG_SHA_256", "TPM_ALG_SHA_256"⟩

/-- RSASSA_3072 is bit 2 of BaseAsymAlgo, and SHA_256 bit 0 of BaseHashAlgo (PRESUMED, log entry 12). -/
def execNegotiateAlgorithms (r : SpdmCall) (asym hash : BitVec 32) (s : State) : Out :=
  .next (spdm s r 2 (leBytes 4 asym.toNat ++ leBytes 4 hash.toNat) fun _ d =>
    .spdmAlgs d (if bitAt asym 2 && bitAt hash 0 then some spdmAlgs else none))

/-- The three certificates of slot 0 in the manufacturing region: the root, of the key whose digest the boot ROM holds, the
device CA, which the root signs, and the device's, which the CA signs and which names the package serial (R412). -/
def certificates : List (List Byte) :=
  let root := Config.rootCert Config.rootKeyDigest
  let ca := Config.caCert root
  [root, ca, Config.deviceCert ca Config.serial]

/-- The certificate chain of slot 0: length, two zero bytes, the digest of the root certificate and the certificates, in the
form of the published standard (PRESUMED, log entry 12). -/
def certChain : List Byte :=
  let b := certificates.flatten
  leBytes 2 (36 + b.length) ++ leBytes 2 0 ++ sha256 (certificates.headD []) ++ b

def chainDigest : List Byte := sha256 certChain

def execGetDigests (r : SpdmCall) (s : State) : Out := .next (spdm s r 3 [] fun _ d => .spdmDigests d chainDigest)

def execGetCertificate (r : SpdmCall) (slot : BitVec 8) (off len : BitVec 16) (s : State) : Out :=
  .next (spdm s r 4 (leBytes 1 slot.toNat ++ leBytes 2 off.toNat ++ leBytes 2 len.toNat) fun _ d =>
    if slot = 0 then
      let part := (certChain.drop off.toNat).take (min 960 len.toNat)
      .spdmCert d part (certChain.length - off.toNat - part.length)
    else .spdmError d .invalidRequest)

/-- The measurement digest of an index (R415). -/
def measOf (s : State) (i : Nat) : List Byte := s.col.meas.getD (i - 1) []
def measAll (s : State) : List Byte := (List.range 3).flatMap fun i => measOf s (i + 1)

/-- CHALLENGE, with no summary, or that of the measurements for TCB and all (R414; PRESUMED, log entry 12). -/
def execChallenge (r : SpdmCall) (slot summary : BitVec 8) (nonce : BitVec 256) (s : State) : Out :=
  .next (spdm s r 5 (leBytes 1 slot.toNat ++ leBytes 1 summary.toNat ++ leBytes 32 nonce.toNat) fun s d =>
    if slot = 0 && (summary = 0 || summary = 1 || summary = 255) then
      let sum := if summary = 0 then [] else sha256 (measAll s)
      .spdmChallenge d chainDigest sum (Config.identitySign ((tscOf s r.who).bytes ++ chainDigest ++ sum))
    else .spdmError d .invalidRequest)

/-- GET_MEASUREMENTS (R414, R415): indices 1 to 3, or 0xFF for all, signed on request. -/
def execGetMeasurements (r : SpdmCall) (index : BitVec 8) (sign : Bool) (nonce : BitVec 256) (s : State) : Out :=
  .next (spdm s r 6 (leBytes 1 index.toNat ++ leBytes 1 (if sign then 1 else 0) ++ leBytes 32 nonce.toNat) fun s d =>
    let i := index.toNat
    let l := if i = 255 then [1, 2, 3] else if 1 ≤ i ∧ i ≤ 3 then [i] else []
    if l.isEmpty then .spdmError d .invalidRequest
    else
      let m : List SpdmMeas := l.map fun i => ⟨i, if i = 3 then .firmwareConfig else .mutableFirmware, measOf s i⟩
      .spdmMeas d m (if sign then some (Config.identitySign ((tscOf s r.who).bytes ++ m.flatMap (·.digest))) else none))

end Sys2Proof.Machine
end

