-- ==== Sys2Proof/Machine/Dma.lean ====
section
/-! DEFINITION. DMA channels (R188, R199 to R209). A descriptor's bytes move in destination order, one
line of the source for each LINE_RETURN. -/

namespace Sys2Proof.Machine
open Sys2Proof

/-- A channel after reset. -/
def dmaReset : Dma where
  st := .idle
  stop := 0
  ptr := 0
  desc := none
  done := 0
  reads := []
  poison := false
  fail := none
  pauseReq := false
  launch := none
  space := spaceNone
  bindSh := 0
  bindAct := 0
  processed := 0
  failed := 0
  firstFail := none
  codes := []
  errAddr := 0

def dmaOf (s : State) (d : DmaId) : Dma := sget dmaReset s.dmas d.num
def setDma (s : State) (d : DmaId) (v : Dma) : State := { s with dmas := sset s.dmas d.num v }

/-- Whether a channel can act at all. -/
def dmaLive (s : State) (d : DmaId) : Bool := alive s && !dmaFenced s d

/-! ### Descriptors (R200, R204) -/

def dmaDesc (b : List Byte) : DmaDesc where
  ctl := BitVec.ofNat 32 (bget b 0 4)
  src := BitVec.ofNat 64 (bget b 8 8)
  dst := BitVec.ofNat 64 (bget b 0x10 8)
  rowBytes := BitVec.ofNat 32 (bget b 0x18 4)
  rows := BitVec.ofNat 32 (bget b 0x1C 4)
  srcStride := BitVec.ofNat 32 (bget b 0x20 4)
  dstStride := BitVec.ofNat 32 (bget b 0x24 4)
  next := BitVec.ofNat 64 (bget b 0x28 8)
  pattern := BitVec.ofNat 64 (bget b 0x38 8)

def DmaDesc.own (d : DmaDesc) : Bool := bitAt d.ctl 0
def DmaDesc.chain (d : DmaDesc) : Bool := bitAt d.ctl 1
def DmaDesc.waitPrev (d : DmaDesc) : Bool := bitAt d.ctl 2
def DmaDesc.fill (d : DmaDesc) : Bool := field d.ctl 4 3 = 1
def DmaDesc.bad (d : DmaDesc) : Bool := 2 ≤ field d.ctl 4 3 || field d.ctl 31 5 ≠ 0 || d.rowBytes = 0 || d.rows = 0
/-- Bytes of a descriptor's destination. -/
def DmaDesc.total (d : DmaDesc) : Nat := d.rowBytes.toNat * d.rows.toNat

/-- The place of destination byte `k`: row and offset in it. -/
def DmaDesc.place (d : DmaDesc) (k : Nat) : Nat × Nat := (k / d.rowBytes.toNat, k % d.rowBytes.toNat)
def DmaDesc.dstAt (d : DmaDesc) (k : Nat) : Nat :=
  let p := d.place k; (d.dst.toNat + p.1 * d.dstStride.toNat + p.2) % 2 ^ 64
def DmaDesc.srcAt (d : DmaDesc) (k : Nat) : Nat :=
  let p := d.place k; (d.src.toNat + p.1 * d.srcStride.toNat + p.2) % 2 ^ 64
/-- Bytes moved at byte `k`: of a fill the rest of the row in the destination line (R201), of a copy the rest of the row in
the source line, which one read fetches (R199). -/
def DmaDesc.piece (d : DmaDesc) (k : Nat) : Nat :=
  min (d.rowBytes.toNat - (d.place k).2) (128 - (if d.fill then d.dstAt k else d.srcAt k) % 128)

/-- Whether an address is one of the source's bytes (R200). -/
def DmaDesc.inSrc (d : DmaDesc) (a : Nat) : Bool :=
  let st := d.srcStride.toNat
  if a < d.src.toNat then false
  else
    let off := a - d.src.toNat
    let r := if st = 0 then 0 else min (d.rows.toNat - 1) (off / st)
    off - r * st < d.rowBytes.toNat

/-- The bytes of the next piece before overlap: a read that returns, by its translation at issue (R316), or the pattern
from its row's start. -/
def dmaSource (s : State) (v : Dma) (x : DmaDesc) : State × Except (BitVec 8) PBytes :=
  if x.fill then
    let p := leBytes 8 x.pattern.toNat
    let off := (x.place v.done).2
    (s, .ok ((List.range (x.piece v.done)).map fun i => (p.getD ((off + i) % 8) 0, false)))
  else match v.reads with
    | [] => (s, .ok [])
    | r :: _ =>
      match r.pa with
      | none => (s, .error stTranslation)
      | some pa =>
        if served s pa then
          let (s, d, p) := unitRead s (pa / 128)
          (s, .ok ((bslice d (pa % 128) r.len).map fun b => (b, p)))
        else (s, .error stBus)

/-- Bytes of a copy that fall in its own source are free (R200; DESIGN CHOICE, log entry 7). -/
def dmaOverlap (s : State) (x : DmaDesc) (k : Nat) (b : PBytes) : State × PBytes :=
  let a := x.dstAt k
  if x.fill || !(List.range b.length).any (fun i => x.inSrc (a + i)) then (s, b)
  else
    ({ s with free := s.free + b.length },
      b.zipIdx.map fun y => if x.inSrc (a + y.2) then (Config.freeByte (s.free + y.2), y.1.2) else y.1)

/-- Move the next piece: the new state, the channel's progress, and the status of a fault. -/
def dmaPiece (s : State) (d : DmaId) (v : Dma) (x : DmaDesc) : State × Dma × Option (BitVec 8) :=
  match dmaSource s v x with
  | (s, .error c) => (s, v, some c)
  | (s, .ok b) =>
    let (s, b) := dmaOverlap s x v.done b
    let r := vwrite s d.h v.space (x.dstAt v.done) b.bytes fun i => (b.getD i (0, false)).2
    (r.1, { v with done := v.done + r.2.bytes, reads := v.reads.drop 1, poison := v.poison || b.poisoned },
      r.2.fault.map fun f => f.status)

/-! ### Starting, stopping and halting -/

/-- Issue reads from byte `k` on until 1,024 are outstanding (R199). -/
def dmaIssueFrom (d : DmaId) (x : DmaDesc) : Nat → State → Dma → Nat → State × Dma
  | 0, s, v, _ => (s, v)
  | fuel + 1, s, v, k =>
    if x.fill || x.total ≤ k || 1024 ≤ v.reads.length then (s, v)
    else
      let n := x.piece k
      let r := xlate s d.h v.space (x.srcAt k) false
      dmaIssueFrom d x fuel r.1 { v with reads := v.reads ++ [⟨n, x.srcAt k, r.2, []⟩] } (k + n)

/-- The channel issues what its buffer has room for. -/
def dmaIssue (s : State) (d : DmaId) (v : Dma) : State × Dma :=
  match v.desc with
  | none => (s, v)
  | some x => dmaIssueFrom d x (1024 - v.reads.length) s v (v.done + (v.reads.map (·.len)).sum)

/-- Store a channel that has issued what it can. -/
def setIssued (s : State) (d : DmaId) (v : Dma) : State := let r := dmaIssue s d v; setDma r.1 d r.2

/-- The channel begins at its descriptor pointer in a space; with PAUSE set it loads the descriptor
only (R206, R208). -/
def dmaBegin (v : Dma) (sp : Space) (launch : Option Nat) : Dma :=
  { v with
    st := if v.pauseReq then .pausing else .running
    desc := none, done := 0, reads := [], poison := false, fail := none, launch := launch, space := sp
    processed := 0, failed := 0, firstFail := none, codes := [] }

/-- The channel stops: END, state, and the DMA_START completes (R188, R192). -/
def dmaStop (s : State) (d : DmaId) (v : Dma) (st : DmaSt) (why : BitVec 2) : State :=
  let id := v.launch
  let s := setDma s d { v with st := st, stop := why, desc := none, done := v.done, reads := [], launch := none }
  reportOpt s id (statusFirst v.codes) ((v.firstFail.getD 0).toNat) (v.processed + 2 ^ 32 * v.failed)

/-- The channel halts on a status (R205). -/
def dmaHalt (s : State) (d : DmaId) (v : Dma) (code : BitVec 8) : State :=
  dmaStop s d { v with errAddr := v.ptr, codes := v.codes ++ [code] } .halted 3

/-- A descriptor has completed with a status: the counts, the boundary of DMA_BIND, and NEXT or the end
of the chain (R202, R436). -/
def dmaNext (s : State) (d : DmaId) (v : Dma) (x : DmaDesc) (code : BitVec 8) : State :=
  let v := { v with
    processed := v.processed + 1
    failed := v.failed + if code = stOk then 0 else 1
    firstFail := if code = stOk then v.firstFail else some (v.firstFail.getD v.ptr)
    codes := v.codes ++ [code], bindAct := v.bindSh }
  if x.chain then
    setDma s d { v with
      ptr := x.next, desc := none, done := 0, reads := [], poison := false, fail := none
      st := if v.st = .pausing then .paused else v.st }
  else dmaStop s d v .idle 1

/-- The two write-backs of a descriptor (R202): STATUS and DONE_BYTES in one, then OWN. -/
def dmaWriteback (s : State) (d : DmaId) (v : Dma) (x : DmaDesc) (code : BitVec 8) (done : Nat) : State × Option FaultAt :=
  let img (o : Nat) : List (Option Byte) :=
    List.replicate (o + 4) none ++ (leBytes 4 code.toNat).map some ++ List.replicate 40 none ++ (leBytes 8 done).map some
  match xlate s d.h v.space v.ptr.toNat true with
  | (s, none) => (s, some ⟨stTranslation, v.ptr⟩)
  | (s, some pa) =>
    if served s pa then
      let s := keepOld s (unitMask s (pa / 128) (img (pa % 128)) false) v.space.queue.toNat (pa / 128)
      let r := vwrite s d.h v.space v.ptr.toNat (leBytes 4 (x.ctl.toNat - 1)) fun _ => false
      (r.1, r.2.fault)
    else (s, some ⟨stBus, v.ptr⟩)

/-! ### Commands -/

/-- Whether the Colophon reads an update's image through a channel, 63 of the host half (R402). -/
def updReads (s : State) (d : DmaId) : Bool := s.col.upd = .busy && s.col.hostHalf = some d.h && d.d.val = 63

/-- DMA_START (R188, R402). -/
def runDmaStart (poison : Bool) (c : JCmd) (s : State) : State :=
  let q := c.queue.toNat
  let d : DmaId := ⟨queueHalf q, ⟨targetIndex c.hdr.target % 64, Nat.mod_lt _ (by decide)⟩⟩
  gate s c 0x30 poison false (bget c.body 0 8 % 64 ≠ 0) (dmaFenced s d) ((dmaOf s d).st ≠ .idle || updReads s d) fun id s =>
    let v := { dmaOf s d with ptr := BitVec.ofNat 64 (bget c.body 0 8), bindSh := c.queue, bindAct := c.queue }
    setDma s d (dmaBegin v (queueSpace s q) (some id))

def execDmaStart (c : JCmd) (s : State) : Out := .next (runDmaStart false c s)

/-- A write of 1 to DMA_CTL.RUN (R208); the channel that the Colophon reads an image through is not idle (R402). -/
def dmaRun (s : State) (d : DmaId) : State :=
  let v := dmaOf s d
  if dmaLive s d && v.st = .idle && !updReads s d then
    setDma s d (dmaBegin { v with bindAct := v.bindSh } (queueSpace s v.bindSh.toNat) none)
  else s

def execDmaRun (d : DmaId) (s : State) : Out := .next (dmaRun s d)

/-- DMA_CTL.PAUSE is set: lines read are still written, and a descriptor that has ended is still written
back (R206, R209). -/
def dmaPause (s : State) (d : DmaId) : State :=
  let v := dmaOf s d
  let ended := v.desc.any fun x => v.fail.isSome || x.total ≤ v.done
  if !dmaLive s d then s
  else setDma s d { v with
    pauseReq := true
    st := if v.st = .running then (if v.reads.isEmpty && !ended then .paused else .pausing) else v.st }

def execDmaPause (d : DmaId) (s : State) : Out := .next (dmaPause s d)

/-- DMA_CTL.PAUSE is cleared: the channel resumes at the first unwritten byte (R206). -/
def dmaResume (s : State) (d : DmaId) : State :=
  let v := dmaOf s d
  if !dmaLive s d then s
  else
    let v := { v with pauseReq := false }
    if v.st = .paused || v.st = .pausing then setIssued s d { v with st := .running } else setDma s d v

def execDmaResume (d : DmaId) (s : State) : Out := .next (dmaResume s d)

/-- A write of DMA_DESC_PTR (R205; a paused channel then fetches the descriptor it names, DEDUCED, log entry
27). -/
def dmaDescPtr (s : State) (d : DmaId) (p : BitVec 64) : State :=
  let v := dmaOf s d
  if dmaFenced s d || v.st = .running || v.st = .pausing then s
  else setDma s d { v with
    ptr := p, desc := none, done := if v.st = .paused then 0 else v.done, fail := none, poison := false
    st := if v.st = .halted then .idle else v.st }

def execDmaDescPtrWrite (d : DmaId) (p : BitVec 64) (s : State) : Out := .next (dmaDescPtr s d p)

/-- The outcome of fetching the current descriptor, `none` when no fetch is due (R205). -/
def dmaFetch (s : State) (d : DmaId) : Option (State × Except (BitVec 8) DmaDesc) :=
  let v := dmaOf s d
  if !dmaLive s d || v.desc.isSome || !(v.st = .running || v.st = .pausing) then none
  else if v.ptr.toNat % 64 ≠ 0 then some (s, .error stBus)
  else
    match vread s d.h v.space v.ptr.toNat 64 with
    | (s, .error f) => some (s, .error f.status)
    | (s, .ok b) => if b.poisoned then some (s, .error stDataPoison) else some (s, .ok (dmaDesc b.bytes))

/-- A descriptor is fetched and checked (R202, R204); with WAIT_PREV its reads start after the earlier writes are visible
(R200). -/
def dmaFetched (s : State) (d : DmaId) : State :=
  match dmaFetch s d with
  | some (s, .ok x) =>
    let v := dmaOf s d
    if !x.own then dmaStop s d v .idle 2
    else if x.bad then
      match dmaWriteback s d v x stMalformed 0 with
      | (s, some f) =>
        dmaHalt s d { v with
          done := 0, processed := v.processed + 1, failed := v.failed + 1
          firstFail := some (v.firstFail.getD v.ptr), codes := v.codes ++ [stMalformed] } f.status
      | (s, none) => dmaNext s d { v with done := 0 } x stMalformed
    else
      let s := if x.waitPrev then visible s (· = v.space.queue.toNat) else s
      let v := { v with desc := some x, done := 0, poison := false, fail := none }
      if v.st = .pausing then setDma s d { v with st := .paused } else setIssued s d v
  | _ => s

def execDescriptorFetch (d : DmaId) (s : State) : Out := .next (dmaFetched s d)

/-- A descriptor fetch fails and halts the channel; it counts as a failed descriptor (R192, R205), and not
among those processed (DESIGN CHOICE, log entry 51). -/
def dmaFetchFault (s : State) (d : DmaId) : State :=
  match dmaFetch s d with
  | some (s, .error code) =>
    let v := dmaOf s d
    dmaHalt s d { v with failed := v.failed + 1, firstFail := some (v.firstFail.getD v.ptr) } code
  | _ => s

def execDescriptorFetchFault (d : DmaId) (s : State) : Out := .next (dmaFetchFault s d)

/-- The descriptor in progress with a line that may move: a fill has one at any time, a copy one for each read
outstanding. -/
def dmaReady (s : State) (d : DmaId) : Option DmaDesc :=
  let v := dmaOf s d
  match v.desc with
  | none => none
  | some x =>
    let run := v.st = .running || (v.st = .pausing && !v.reads.isEmpty)
    if dmaLive s d && run && v.fail.isNone && v.done < x.total && (x.fill || !v.reads.isEmpty) then some x else none

/-- Channel k of a half, k wrapped into range. -/
def dmaNth (h : Half) (k : Nat) : DmaId := ⟨h, ⟨k % 64, Nat.mod_lt _ (by decide)⟩⟩

/-- DMA_CTL.HIGH of a channel. -/
def dmaHigh (s : State) (d : DmaId) : Bool := bitAt (regWord s ((Frame.dma d.h).base + 0x100 + 0x40 * d.d.val)) 2

/-- Whether a channel waits on a high one (R207, R209): a read outstanding counts as a line ready (DESIGN CHOICE, log
entry 51). -/
def preempted (s : State) (d : DmaId) : Bool :=
  !dmaHigh s d && (dmaReady s d).isSome &&
    (List.range 64).any fun k => dmaHigh s (dmaNth d.h k) && (dmaReady s (dmaNth d.h k)).isSome

/-- The key of a channel's priority within its half. -/
def prioKey (s : State) (d : DmaId) : Nat := 2 * d.h.val + (if dmaHigh s d then 1 else 0)

/-- How many channels of its priority a round-robin passes over from the one served last to channel `k` (R207). -/
def turnGap (s : State) (d : DmaId) (k : Nat) : Nat := (k + 63 - sget 63 s.dmaTurn (prioKey s d)) % 64

/-- Whether another channel of the same half and priority with a line comes first in the round (R207). -/
def outOfTurn (s : State) (d : DmaId) : Bool :=
  (List.range 64).any fun k => dmaHigh s (dmaNth d.h k) = dmaHigh s d && (dmaReady s (dmaNth d.h k)).isSome &&
    decide (turnGap s d k < turnGap s d d.d.val)

/-- Whether a channel with a line waits: a normal one for a high one, and any for its turn within its priority (R207). -/
def dmaWaits (s : State) (d : DmaId) : Bool := preempted s d || outOfTurn s d

/-- The descriptor whose next line takes the datapath now. -/
def dmaActive (s : State) (d : DmaId) : Option DmaDesc := if dmaWaits s d then none else dmaReady s d

/-- Count the bytes a channel has written. -/
def dmaBytes (s : State) (d : DmaId) (n : Nat) : State := count s (.dma d.h) (0x100 + 0x40 * d.d.val + 0x28) n

/-- The next line returns and is written (R199, R201), and the next read is issued; a draining channel pauses after its
last. -/
def dmaLine (s : State) (d : DmaId) : State :=
  match dmaActive s d with
  | none => s
  | some x =>
    let v := dmaOf s d
    match dmaPiece s d v x with
    | (_, _, some _) => s
    | (s, v', none) =>
      let s := dmaBytes { s with dmaTurn := sset s.dmaTurn (prioKey s d) d.d.val } d (v'.done - v.done)
      settleInvals (
        if v.st = .pausing then
          setDma s d { v' with st := if v'.reads.isEmpty ∧ v'.done < x.total then .paused else .pausing }
        else setIssued s d v')

def execDmaLineReturn (d : DmaId) (s : State) : Out := .next (dmaLine s d)

/-- The next line cannot be completed: the descriptor stops there (R203). -/
def dmaReadFail (s : State) (d : DmaId) : State :=
  match dmaActive s d with
  | none => s
  | some x =>
    let v := dmaOf s d
    match dmaPiece s d v x with
    | (s', v', some c) => settleInvals (setDma (dmaBytes s' d (v'.done - v.done)) d { v' with fail := some c, reads := [] })
    | (_, _, none) => s

def execDmaReadFail (d : DmaId) (s : State) : Out := .next (dmaReadFail s d)

/-- A descriptor that is to be written back, with its status. -/
def dmaEnds (s : State) (d : DmaId) : Option (DmaDesc × BitVec 8) :=
  let v := dmaOf s d
  match v.desc with
  | none => none
  | some x =>
    if !dmaLive s d || !(v.st = .running || v.st = .pausing) then none
    else match v.fail with
    | some c => some (x, c)
    | none => if v.done < x.total then none else some (x, if v.poison then stDataPoison else stOk)

/-- The descriptor is written back and the channel goes on (R202). -/
def dmaComplete (s : State) (d : DmaId) : State :=
  match dmaEnds s d with
  | none => s
  | some (x, code) =>
    let v := dmaOf s d
    match dmaWriteback s d v x code v.done with
    | (s, none) => dmaNext s d v x code
    | (_, some _) => s

def execDescriptorComplete (d : DmaId) (s : State) : Out := .next (dmaComplete s d)

/-- A write-back fails and halts the channel (R205). -/
def dmaWbFail (s : State) (d : DmaId) : State :=
  match dmaEnds s d with
  | none => s
  | some (x, code) =>
    let v := dmaOf s d
    match dmaWriteback s d v x code v.done with
    | (_, none) => s
    | (s, some f) =>
      let v := { v with
        processed := v.processed + 1
        failed := v.failed + if code = stOk then 0 else 1
        firstFail := if code = stOk then v.firstFail else some (v.firstFail.getD v.ptr)
        codes := v.codes ++ [code] }
      dmaHalt s d v f.status

def execDmaWritebackFail (d : DmaId) (s : State) : Out := .next (dmaWbFail s d)

end Sys2Proof.Machine
end

