-- ==== Sys2Proof/Machine/Lig.lean ====
section
/-! DEFINITION. What arrives on the Ligature and the Blotter links, and their failure (R16 to R23). The sending
side stands in Flits.lean. -/

namespace Sys2Proof.Machine
open Sys2Proof

/-- The replay limit (R22): LIG_CFG for the Ligature, 0 acting as 1, and 16 for a Blotter link. -/
def replayLimit (s : State) : LinkEnd → Nat
  | .lig h => max 1 (field (regWord s ((Frame.lig h).base + 4)) 4 0)
  | _ => 16

/-- A head or body flit in order: its message gathers, and a head closes the message before it. -/
def takeFlit (l : Link) (vc kind : Nat) (payload : List Byte) : Link :=
  let old := sget [] l.partials vc
  let l := { l with rxExp := (l.rxExp + 1) % 1024, freed := sset l.freed vc (sget 0 l.freed vc + 1) }
  if kind = 0 then
    { l with rx := if old.isEmpty then l.rx else l.rx ++ [(vc, old)], partials := sset l.partials vc payload }
  else { l with partials := sset l.partials vc (old ++ payload) }

/-- A flit arrives (R16 to R21). A CRC failure discards it and asks for a replay, and what comes after is
discarded too until a flit carries the expected SEQ again. An intact one gives its ACK and its credit report, a
head or body flit in order is taken, and what now may leave leaves; an idle flit answers a taken flit when
nothing else does (DESIGN CHOICE, log entry 29). -/
def flitReceive (s : State) (e : LinkEnd) (flit : List Byte) : State :=
  if !linkLive s e then s
  else
    let b := bslice flit 0 64
    let l := linkOf s e
    if bget b 62 2 ≠ (crc16 (b.take 62)).toNat then
      ligCount (setLink s e { flitRetryOut l with discard := true }) e 0x18
    else
      let cw := bget b 0 4
      let kind := fieldN cw 3 2
      let seq := fieldN cw 13 4
      if l.discard && seq ≠ l.rxExp then s
      else
        let l := { takeCredit (takeAck l (fieldN cw 23 14)) (fieldN cw 25 24) (fieldN cw 31 26) 8 64 with discard := false }
        let data := decide (kind < 2 ∧ seq = l.rxExp)
        let l := if data then takeFlit l (fieldN cw 1 0) kind (bslice b 4 58) else l
        let s := flitPump (l.txq.length + 1) (setLink s e l) e
        let t := linkOf s e
        if data && t.nextSeq = l.nextSeq then setLink s e (flitIdle t) else s

def execLigFlitReceive (e : LinkEnd) (flit : List Byte) (s : State) : Out := .next (flitReceive s e flit)

/-- A RETRY names a sequence number: the sender counts the request and resends from it, each flit with a fresh
control word and without a credit (R21, R22). -/
def flitRetry (s : State) (e : LinkEnd) (seq : Nat) : State :=
  if !linkLive s e then s
  else
    let l := linkOf s e
    let l := { l with lastReq := some seq, reqCount := if l.lastReq = some seq then l.reqCount + 1 else 1 }
    let s := setLink s e l
    if replayLimit s e ≤ l.reqCount then s
    else
      match findIdx? (fun x => x.1 = seq) l.replay with
      | none => ligCount s e 0x20
      | some i => ligCount (setLink s e ((l.replay.drop i).foldl (fun l x => flitPut l x.1 x.2.1 x.2.2) l)) e 0x20

def execLigRetry (e : LinkEnd) (seq : BitVec 10) (s : State) : Out := .next (flitRetry s e seq.toNat)

/-- A link fails and takes the domain down (R22, R23). -/
def linkFail (s : State) (e : LinkEnd) (cause : BitVec 2) : State :=
  let s := setLink s e { linkOf s e with failed := true, cause := cause }
  match e with
  | .lig h =>
    let s := regSetBits s ((Frame.lig h).base) 2
    domainDown (logLinkFail s 0 cause.toNat) 4 (endHome e) (homeAgent (endHome e)) 0
  | .blVellum h | .blBlotter h =>
    domainDown (logLinkFail s (1 + h.val) cause.toNat) 5 (endHome e) (homeAgent (endHome e)) 0

/-- One sequence number was requested REPLAY_LIMIT times in a row (R22). -/
def execLigReplayLimit (e : LinkEnd) (s : State) : Out :=
  .next (if linkLive s e && replayLimit s e ≤ (linkOf s e).reqCount then linkFail s e 1 else s)

/-- No ACK advanced for the timeout while flits were outstanding (R22). -/
def execLigAckTimeout (e : LinkEnd) (s : State) : Out :=
  .next (if linkLive s e && !(linkOf s e).replay.isEmpty then linkFail s e 2 else s)

end Sys2Proof.Machine
end

