-- ==== Sys2Proof/Machine/Rings.lean ====
section
/-! DEFINITION. The software and Ethernet rings (R360), and Ethernet ingest (R362, R363). -/

namespace Sys2Proof.Machine
open Sys2Proof

def ringReset : Ring := ⟨0, 0, 0, 0, [], []⟩
def ringKey (h : Half) (b : Nat) : Nat := 8 * h.val + b
def ringOf (s : State) (h : Half) (b : Nat) : Ring := sget ringReset s.rings (ringKey h b)
def setRing (s : State) (h : Half) (b : Nat) (v : Ring) : State := { s with rings := sset s.rings (ringKey h b) v }

/-- The address of a ring's register block (12, *Registers*). -/
def ringBlock (h : Half) (b : Nat) : Nat := (Frame.utp h).base + 0x800 + 0x40 * b
def ringCfg (s : State) (h : Half) (b : Nat) : Word := regAct s (ringBlock h b + 0x10)
def ringOn (s : State) (h : Half) (b : Nat) : Bool := bitAt (ringCfg s h b) 8
/-- Log2 of the descriptors, held to 4 to 15. -/
def txLog2 (s : State) (h : Half) (b : Nat) : Nat := max 4 (field (ringCfg s h b) 3 0)
def rxLog2 (s : State) (h : Half) (b : Nat) : Nat := max 4 (field (ringCfg s h b) 7 4)
/-- The shadows of a ring become active at a descriptor (R436). -/
def ringApply (s : State) (h : Half) (b : Nat) : State :=
  applyShadow s ([0, 4, 8, 0xC, 0x10].map fun o => ringBlock h b + o)
/-- The addresses of descriptor `i`. -/
def txDesc (s : State) (h : Half) (b i : Nat) : Nat := regAct64 s (ringBlock h b) / 4096 * 4096 + 32 * i
def rxDesc (s : State) (h : Half) (b i : Nat) : Nat := regAct64 s (ringBlock h b + 8) / 4096 * 4096 + 32 * i

/-- A descriptor whose OWN is set, as its 32 bytes. One that cannot be read is not owned. -/
def ownedDesc (s : State) (a : Nat) : State × Option (List Byte) :=
  match pread s a 32 with
  | (s, none) => (s, none)
  | (s, some pb) => (s, if pb.poisoned || bget pb.bytes 0 4 / 2 ^ 31 = 0 then none else some pb.bytes)

/-- Whether the driver-loss sequence keeps the rings from starting a descriptor (R360). -/
def ringsStopped (s : State) : Bool := s.drv.st = .stopping || s.drv.st = .stopped

/-! ### Transmit -/

/-- Write the status of a transmit descriptor, then clear its OWN (R202, R360). -/
def txDone (s : State) (a : Nat) (st : BitVec 8) : State :=
  let w := (pread s a 4)
  let word := match w.2 with | some pb => bget pb.bytes 0 4 % 2 ^ 31 | none => 0
  (pwrite (pwrite w.1 (a + 0x10) (leBytes 4 st.toNat)).1 a (leBytes 4 word)).1

/-- The Ethernet ports of a half, in port order (R344, R362). -/
def ethPorts (s : State) (h : Half) : List Nat :=
  ((List.range 14).map fun i => 14 * h.val + i).filter fun p => (portOf s p).role = 2

/-- Send a frame, FCS added, from the half's Ethernet port that the destination field numbers
(R362; DESIGN CHOICE, log entry 33). -/
def ethSend (s : State) (h : Half) (n : Nat) (b : List Byte) : State × BitVec 8 :=
  match (ethPorts s h)[n]? with
  | none => (s, stBus)
  | some p => if (portOf s p).st = .up then (send s (.block p (b ++ leBytes 4 (crc32 b).toNat) 0), stOk) else (s, stBus)

/-- The 128-byte lines of a piece of a message that are poisoned, one bit each (R306). -/
def poisonMask : List PBytes → BitVec 32
  | [] => 0
  | l :: t => (poisonMask t <<< 1) ||| (if l.poisoned then 1 else 0)

/-- Give the pieces of a message to a context, the last with LAST, poisoned lines marked (R306): a status that ends it,
or none. -/
def sendPieces (peer cls : Nat) : List PBytes → State → State × Option (BitVec 8)
  | [], s => (s, none)
  | p :: t, s =>
    match utpSend s peer cls p.bytes t.isEmpty (poisonMask (pieces 128 32 p)) with
    | (s, some st) => (s, some st)
    | (s, none) => sendPieces peer cls t s

/-- Send the message of an owned transmit descriptor at `a` (R360). A poisoned message keeps its poison on Uttupel
(R306); a poisoned frame for an Ethernet port, which has no place for it, ends with BUS_ERROR (DESIGN CHOICE, log entry
45). -/
def txSend (s : State) (h : Half) (b a : Nat) (d : List Byte) : State :=
  let dst := bget d 0 2
  match pread s (bget d 8 8) (bget d 4 4) with
  | (s, none) => txDone s a stBus
  | (s, some pb) =>
    if b = 6 then
      let r := if pb.poisoned then (s, stBus) else ethSend s h dst pb.bytes
      txDone r.1 a r.2
    else
      let cls := 4 + 2 * b + h.val
      let key := ctxKey dst cls
      let ps := if pb.isEmpty then [[]] else pieces 4096 (pb.length / 4096 + 1) pb
      match sendPieces dst cls ps s with
      | (s, some st) => txDone s a st
      | (s, none) =>
        let v := ringOf s h b
        setRing s h b { v with fly := v.fly ++ [(a, key, (ctxOf s key).sentN)] }

/-- Send every owned transmit descriptor up to the tail, in ring order (R360). -/
def ringTx (h : Half) (b : Nat) : Nat → State → State
  | 0, s => s
  | fuel + 1, s =>
    let s := ringApply s h b
    let v := ringOf s h b
    let n := 2 ^ txLog2 s h b
    let i := v.txHead.toNat % n
    if !alive s || !ringOn s h b || ringsStopped s || v.txTail.toNat % n = i then s
    else
      match ownedDesc s (txDesc s h b i) with
      | (s, none) => s
      | (s, some d) =>
        let a := txDesc s h b i
        ringTx h b fuel (txSend (setRing s h b { v with txHead := BitVec.ofNat 16 ((i + 1) % n) }) h b a d)

/-- A context's acknowledgements reach its ring: descriptors all of whose packets are acknowledged end
with OK (R360). -/
def ringAcked (s : State) (key : Nat) : State :=
  let cls := key % 16
  if cls < 4 then s
  else
    let h := halfOf cls
    let b := (cls - 4) / 2
    let v := ringOf s h b
    let n := (ctxOf s key).ackN
    let hit (f : Nat × Nat × Nat) : Bool := f.2.1 = key && f.2.2 ≤ n
    let s := setRing s h b { v with fly := v.fly.filter fun f => !hit f }
    (v.fly.filter hit).foldl (fun s f => txDone s f.1 stOk) s

/-! ### Receive -/

/-- Whether a descriptor is posted at a ring's receive head, with its address and bytes. -/
def rxPosted (s : State) (h : Half) (b : Nat) : State × Option (Nat × List Byte) :=
  let s := ringApply s h b
  let v := ringOf s h b
  let n := 2 ^ rxLog2 s h b
  let i := v.rxHead.toNat % n
  if halfFenced s h || !ringOn s h b || v.rxTail.toNat % n = i then (s, none)
  else
    let r := ownedDesc s (rxDesc s h b i)
    (r.1, r.2.map fun d => (rxDesc s h b i, d))

/-- Take the descriptor at the receive head. -/
def rxTake (s : State) (h : Half) (b : Nat) : State :=
  let v := ringOf s h b
  setRing s h b { v with rxHead := BitVec.ofNat 16 ((v.rxHead.toNat + 1) % 2 ^ rxLog2 s h b) }

/-- Write bytes of a message from place `got` on, as far as the buffer goes (R360). -/
def rxStore (s : State) (d : List Byte) (got : Nat) (b : List Byte) (pois : BitVec 32) : State :=
  pwriteMarked s (bget d 8 8 + got) (b.take (bget d 4 4 - got)) pois

/-- Write back a receive descriptor and clear its OWN: the bytes received are those stored; a buffer
write that failed gives BUS_ERROR. -/
def rxDone (s : State) (a : Nat) (d : List Byte) (got src : Nat) (st : BitVec 8) : State :=
  let size := bget d 4 4
  let n := min got size
  let okMem := (chunks (bget d 8 8) n).all fun c => mappedAt s c.1
  let st := if st = stOk && !okMem then stBus else st
  let s := (pwrite s (a + 0x10) (leBytes 4 (st.toNat + 2 ^ 8 * src + if size < got then 2 ^ 31 else 0) ++ leBytes 4 n ++
    leBytes 8 s.tick.toNat)).1
  (pwrite s a (leBytes 4 (bget d 0 4 % 2 ^ 31))).1

/-- The receive descriptor that a context's message is going into. -/
def rxOpenOf (s : State) (key : Nat) : Option (Nat × Nat × Nat) :=
  (ringOf s (halfOf key) ((key % 16 - 4) / 2)).rxOpen.find? fun x => x.1 = key

/-- Whether a ring takes a packet of a context: its message is under way, or a descriptor is posted. -/
def ringReady (s : State) (key : Nat) : State × Bool :=
  if (rxOpenOf s key).isSome then (s, true)
  else
    let r := rxPosted s (halfOf key) ((key % 16 - 4) / 2)
    (r.1, r.2.isSome)

/-- A packet of a software message (R360). -/
def ringDeliver (s : State) (key : Nat) (b : List Byte) (last : Bool) (pois : BitVec 32) : State :=
  let h := halfOf key
  let k := (key % 16 - 4) / 2
  let go (s : State) (a got : Nat) (d : List Byte) : State :=
    let s := rxStore s d got b pois
    let v := ringOf s h k
    let rest := v.rxOpen.filter fun x => x.1 ≠ key
    if last then rxDone (setRing s h k { v with rxOpen := rest }) a d (got + b.length) (key / 16) stOk
    else setRing s h k { v with rxOpen := rest ++ [(key, a, got + b.length)] }
  match rxOpenOf s key with
  | some (_, a, got) =>
    match pread s a 32 with
    | (s, none) => s
    | (s, some pb) => go s a got pb.bytes
  | none =>
    match rxPosted s h k with
    | (s, none) => s
    | (s, some (a, d)) => go (rxTake s h k) a 0 d

/-- A context enters FAILED, DOWN or CLOSED: its ring's messages in both directions end with a status
(R356, R360). -/
def ringEnd (s : State) (key : Nat) (st : BitVec 8) : State :=
  let h := halfOf key
  let k := (key % 16 - 4) / 2
  if key % 16 < 4 then s
  else
    let v := ringOf s h k
    let s := setRing s h k { v with fly := v.fly.filter fun f => f.2.1 ≠ key, rxOpen := v.rxOpen.filter fun x => x.1 ≠ key }
    let s := (v.fly.filter fun f => f.2.1 = key).foldl (fun s f => txDone s f.1 st) s
    (v.rxOpen.filter fun x => x.1 = key).foldl (fun s x =>
      match pread s x.2.1 32 with
      | (s, none) => s
      | (s, some pb) => rxDone s x.2.1 pb.bytes x.2.2 (key / 16) st) s

/-- UTP_RING_DB.TX_TAIL. -/
def txDoorbell (s : State) (h : Half) (b : Nat) (tail : BitVec 16) : State :=
  if halfFenced s h then s else ringTx h b 32768 (setRing s h b { ringOf s h b with txTail := tail })

/-- UTP_RING_DB.RX_TAIL. -/
def rxDoorbell (s : State) (h : Half) (b : Nat) (tail : BitVec 16) : State :=
  if halfFenced s h then s else ringApply (setRing s h b { ringOf s h b with rxTail := tail }) h b

def execTxRingDoorbell (h : Half) (b : Fin 7) (tail : BitVec 16) (s : State) : Out := .next (txDoorbell s h b.val tail)
def execRxRingDoorbell (h : Half) (b : Fin 7) (tail : BitVec 16) (s : State) : Out := .next (rxDoorbell s h b.val tail)

/-! ### Ethernet ingest (R362, R363) -/

def beget (b : List Byte) (off n : Nat) : Nat := beNat (bslice b off n)

/-- The ones' complement sum of 16-bit words, a last odd byte padded with zero. -/
def onesSum : List Byte → Nat
  | [] => 0
  | [a] => a.toNat * 256
  | a :: b :: t => a.toNat * 256 + b.toNat + onesSum t

/-- The sum folded to 16 bits. -/
def onesFold (n : Nat) : Nat := if n = 0 then 0 else (n - 1) % 65535 + 1

/-- Where a frame goes. -/
inductive EthTo where
  | drop | ring
  | udp (v6 : Bool) (dst : Nat) (port : Nat) (payload : List Byte)
  deriving DecidableEq, Repr

/-- The MAC address filter (R362). -/
def macAccepts (s : State) (p : Nat) (a : BitVec 48) : Bool :=
  a = 0xFFFFFFFFFFFF || (if a.toNat / 2 ^ 40 % 2 = 1 then bitAt (sget 0 s.macHash p) (Config.macBin a % 256)
    else decide (a = s.col.rubric.macs.getD p 0) || (sget [] s.macUni p).contains a)

/-- A UDP datagram: `pseudo` is the sum of its pseudo-header but for the length. -/
def udpTo (v6 : Bool) (dst pseudo : Nat) (b : List Byte) : EthTo :=
  let len := beget b 4 2
  if b.length < 8 || len < 8 || b.length < len then .drop
  else
    let d := b.take len
    let sum := beget d 6 2
    if sum = 0 then (if v6 then .drop else .udp v6 dst (beget d 2 2) (d.drop 8))
    else if onesFold (pseudo + 17 + len + onesSum d) = 65535 then .udp v6 dst (beget d 2 2) (d.drop 8)
    else .drop

/-- An IPv4 packet. -/
def ip4To (b : List Byte) : EthTo :=
  let hl := 4 * ((b.getD 0 0).toNat % 16)
  let tot := beget b 2 2
  if b.length < 20 || (b.getD 0 0).toNat / 16 ≠ 4 || hl < 20 || tot < hl || b.length < tot then .drop
  else if onesFold (onesSum (b.take hl)) ≠ 65535 then .drop
  else if beget b 6 2 % 2 ^ 14 ≠ 0 then .ring
  else if b.getD 9 0 = 17 then udpTo false (beget b 16 4) (onesSum (bslice b 12 8)) ((b.take tot).drop hl)
  else .ring

/-- An IPv6 packet. -/
def ip6To (b : List Byte) : EthTo :=
  let len := beget b 4 2
  if b.length < 40 || (b.getD 0 0).toNat / 16 ≠ 6 || b.length < 40 + len then .drop
  else if b.getD 6 0 = 17 then udpTo true (beget b 24 16) (onesSum (bslice b 8 32)) ((b.drop 40).take len)
  else .ring

/-- The place of a frame without FCS whose address and checks are good (R362). -/
def etherTo (b : List Byte) : EthTo :=
  let t := beget b 12 2
  if t = 0x0800 then ip4To (b.drop 14) else if t = 0x86DD then ip6To (b.drop 14) else .ring

/-- Whether an EtherType is that of an 802.1Q or 802.1ad tag. -/
def isTag (t : Nat) : Bool := t = 0x8100 || t = 0x88A8

/-- A frame into the Ethernet receive ring, source zero; it is lost when no descriptor is posted. -/
def ethToRing (s : State) (h : Half) (b : List Byte) : State :=
  match rxPosted s h 6 with
  | (s, none) => s
  | (s, some (a, d)) => rxDone (rxStore (rxTake s h 6) d 0 b 0) a d b.length 0 stOk

/-- The first matching entry of a port's flow table (R363). -/
def flowMatch (s : State) (p : Nat) (v6 : Bool) (dst port : Nat) : Option Flow :=
  (s.flows.find? fun f => f.1 / 4096 = p && f.2.valid && f.2.v6 = v6 && f.2.addr.toNat = dst && f.2.port.toNat = port).map Prod.snd

/-- A frame at a port is dropped and counted; no register holds the two counts (R362; log entry 45). -/
def ethBadFrame (s : State) (p : Nat) : State := { s with ethBad := sset s.ethBad p (sget 0 s.ethBad p + 1) }
def ethPauseFrame (s : State) (p : Nat) : State := { s with ethPause := sset s.ethPause p (sget 0 s.ethPause p + 1) }

/-- The tag of a frame was stripped: its 16 bits of tag control are reported at the port (R362; the form of the report is
DESIGN CHOICE, log entry 45). -/
def ethStripped (s : State) (p : Nat) (tci : Nat) : State := { s with ethTag := sset s.ethTag p (BitVec.ofNat 16 tci) }

/-- An Ethernet frame arrives, FCS included (R362, R363). -/
def ethFrame (s : State) (p : Nat) (f : List Byte) : State :=
  let h : Half := if p < 14 then 0 else 1
  let v := portOf s p
  let b := f.take (f.length - 4)
  let ok := 64 ≤ f.length && f.length ≤ 9216 && bget f (f.length - 4) 4 = (crc32 b).toNat
  if !alive s || v.role ≠ 2 || v.st ≠ .up || engineFenced s (p / 2) then s
  else if !ok then ethBadFrame s p
  else if beget b 12 2 = 0x8808 then ethPauseFrame s p
  else if !macAccepts s p (BitVec.ofNat 48 (beget b 0 6)) then s
  else
    let tagged := beget b 12 2 = 0x8100
    let b' := if tagged then b.take 12 ++ b.drop 16 else b
    if beget b 12 2 = 0x88A8 || (tagged && isTag (beget b' 12 2)) then ethToRing s h b
    else
      let s := if tagged then ethStripped s p (beget b 14 2) else s
      match etherTo b' with
      | .drop => s
      | .ring => ethToRing s h b'
      | .udp v6 dst port payload =>
        match flowMatch s p v6 dst port with
        | none => ethToRing s h b'
        | some e =>
          match e.lane with
          | some l => livePacket s h l.val s.tick payload
          | none => if e.drop then s else ethToRing s h b'

def execEthFrameRx (p : Fin 28) (f : List Byte) (s : State) : Out := .next (ethFrame s p.val f)

end Sys2Proof.Machine
end

