-- ==== Sys2Proof/Machine/Streams.lean ====
section
/-! DEFINITION. The commands of the Scribe itself (R183 to R186). `poison` says that the slot was read
poisoned (R308). -/

namespace Sys2Proof.Machine
open Sys2Proof

/-- NOP (R183). -/
def runNop (poison : Bool) (c : JCmd) (s : State) : State :=
  gate s c 0x00 poison false false false false fun id s => report s id stOk 0 0

/-- INLINE_WRITE (R184): whole lines in ascending order; a failing line is named in DETAIL0. -/
def runInlineWrite (poison : Bool) (c : JCmd) (s : State) : State :=
  gate s c 0x01 poison false false false false fun id s =>
    let q := c.queue.toNat
    let r := vwrite s (queueHalf q) (queueSpace s q) c.hdr.aux.toNat (bslice c.body 0 c.hdr.length.toNat) fun _ => false
    match r.2.fault with
    | none => report r.1 id stOk 0 0
    | some f => report r.1 id f.status f.va.toNat 0

/-- FENCE_VISIBLE (R185): it implies ORDER and completes when its scope has completed. -/
def runFenceVisible (poison : Bool) (c : JCmd) (s : State) : State :=
  gate s c 0x02 poison true (2 < bget c.body 0 4) false false fun _ s => settleFences s

/-! ### GAUGE_SNAPSHOT -/

/-- The owner kind, CLEAR, FIRST and COUNT of a snapshot body (R186). -/
def snapKind (b : List Byte) : Nat := bget b 8 4 % 16
def snapClear (b : List Byte) : Bool := bget b 8 4 / 16 % 2 = 1

/-- The gauge sets of an owner kind that a half may name: first and count (R186). -/
def snapRange (s : State) (h : Half) (kind : Nat) : Nat × Nat :=
  match kind with
  | 1 => (1152 * h.val, 1152)
  | 2 => (9216 * h.val, 9216)
  | 3 => (0, 2 ^ 20)
  | 4 => (0, field (regAct s (Frame.blt.base + 0x20)) 16 0)
  | _ => (0, 0)

/-- Whether a snapshot body breaks its rules (R186). -/
def snapBad (s : State) (h : Half) (b : List Byte) : Bool :=
  let kind := snapKind b
  let first := bget b 12 4
  let n := bget b 16 4
  let r := snapRange s h kind
  bget b 0 8 % 64 ≠ 0 || bget b 8 4 / 32 ≠ 0 || kind = 0 || 4 < kind
  || (!(kind = 4 && bltFenced s) && (n = 0 || 65536 < n || first < r.1 || r.1 + r.2 < first + n))

/-- Whether the owner of a set is fenced, so that its record holds zero (R186). -/
def setFenced (s : State) (kind idx : Nat) : Bool :=
  let q := if kind = 1 then idx / 8 else idx / 64
  (kind = 1 || kind = 2) && quireFenced s ⟨halfOf (q / 144), quireFin q⟩

/-- A record of R62. -/
def snapRecord (s : State) (kind idx : Nat) (clear : Bool) : List Byte :=
  let g := if setFenced s kind idx then gaugeZero else gaugeOf s (gaugeKey kind idx)
  leBytes 4 (kind * 2 ^ 28 + idx) ++ leBytes 4 (g.sat.toNat + if clear then 256 else 0) ++
    leBytes 8 g.converted ++ leBytes 8 g.overflow ++ leBytes 8 g.zeroed ++ leBytes 8 g.subnormal ++
    leBytes 8 g.nanOut ++ leBytes 8 s.tick.toNat ++ leBytes 8 0

/-- Write `left` records from set `idx` on: each set is cleared after its record is written, and the
first record that fails ends the snapshot (R186). -/
def snapGo (h : Half) (sp : Space) (dest kind : Nat) (clear : Bool) (id : Nat) : Nat → Nat → Nat → State → State
  | 0, _, done, s => report s id stOk done 0
  | left + 1, idx, done, s =>
    let r := vwrite s h sp (dest + 64 * done) (snapRecord s kind idx clear) fun _ => false
    match r.2.fault with
    | some f => report r.1 id f.status done 0
    | none => snapGo h sp dest kind clear id left (idx + 1) (done + 1)
        (if clear then gaugeClr r.1 (gaugeKey kind idx) else r.1)

/-- GAUGE_SNAPSHOT (R186): it implies ORDER. -/
def runGaugeSnapshot (poison : Bool) (c : JCmd) (s : State) : State :=
  let q := c.queue.toNat
  let b := c.body
  gate s c 0x03 poison true (snapBad s (queueHalf q) b) (snapKind b = 4 && bltFenced s) false fun id s =>
    snapGo (queueHalf q) (queueSpace s q) (bget b 0 8) (snapKind b) (snapClear b) id (bget b 16 4) (bget b 12 4) 0 s

def execNop (c : JCmd) (s : State) : Out := .next (runNop false c s)
def execInlineWrite (c : JCmd) (s : State) : Out := .next (runInlineWrite false c s)
def execFenceVisible (c : JCmd) (s : State) : Out := .next (runFenceVisible false c s)
def execGaugeSnapshot (c : JCmd) (s : State) : Out := .next (runGaugeSnapshot false c s)

/-- The gauge set that a write of GAUGE_CTL reaches (R58, and the select registers of SRP and BLT). -/
def gaugeSelKey (s : State) : GaugeSel → Nat
  | .ink q g => gaugeKey 1 (q.num * 8 + g.val)
  | .nib n g => gaugeKey 2 (n.num * 4 + g.val)
  | .srp h => gaugeKey 3 (field (regWord s ((Frame.srp h).base + 0x20)) 19 0)
  | .blt => gaugeKey 4 (field (regWord s (Frame.blt.base + 0x88)) 15 0)

/-- Whether the unit that owns a selected gauge set is fenced (R437). -/
def gaugeSelFenced (s : State) : GaugeSel → Bool
  | .ink q _ => quireFenced s q
  | .nib n _ => quireFenced s n.quire
  | .srp h => halfFenced s h
  | .blt => bltFenced s

/-- GAUGE_CTL.CLEAR (R61); the BLT frame takes it as a posted write (R435). -/
def clearGauge (s : State) (g : GaugeSel) : State :=
  if gaugeSelFenced s g then s
  else match g with
  | .blt => postedOp s .blt fun s => gaugeClr s (gaugeSelKey s g)
  | _ => gaugeClr s (gaugeSelKey s g)

def execGaugeClear (g : GaugeSel) (s : State) : Out := .next (clearGauge s g)

end Sys2Proof.Machine
end

