-- ==== Sys2Proof/Machine/Tiers.lean ====
section
/-! DEFINITION. Scrubbing, the second tier's failures and XLT_INVALIDATE (R309, R313, R316). -/

namespace Sys2Proof.Machine
open Sys2Proof

/-! ### Scrubbing (R309) -/

/-- Lines of a stack (R302). -/
def stackLines : Nat := 1000000000

/-- The place of an HBM line in its stack: stack page times 32 plus line. -/
def stackLine (s : State) (line : Nat) : Nat :=
  let st := liveStacks s (halfOf (line * 128 / 2 ^ 40))
  line * 128 % 2 ^ 40 / 4096 / max 1 st.length * 32 + line % 32

/-- Whether a line is mapped HBM of a half. -/
def hbmLine (s : State) (h : Half) (line : Nat) : Bool :=
  line * 128 / 2 ^ 40 = h.val && mappedAt s (line * 128)

/-- The key of a line's stack, 6h + k (R302). -/
def stackKey (line : Nat) (s : State) : Nat := 6 * (line * 128 / 2 ^ 40) + (stackOf s (line * 128)).1

/-- A scrub read of the line that its stack's pass has come to, with the symbols found in error in its codewords: one
is corrected, more poison and log the line. A pass starts with MEM_SCRUB_CFG as written, and its last line counts it.
What HBM holds of a line that is dirty in the Reservoir changes no data (R309, R310). -/
def hbmScrub (s : State) (h : Half) (line : Nat) (upset : List Nat) : State :=
  let f := Frame.mem h
  let pos := stackLine s line
  let k := stackKey line s
  if !alive s || !hbmLine s h line || sget 0 s.scrubPos k ≠ pos then s
  else
    let s := if pos = 0 then applyShadow s [f.base + 4] else s
    if !bitAt (regAct s (f.base + 4)) 16 then s
    else
      let l := ((List.range 8).map fun c => (8 * line + c, max (upset.getD c 0) (sget 0 s.ecc (8 * line + c)))).filter fun p => p.2 ≠ 0
      let m := s.mem
      let s := if l.isEmpty || linePoisoned s line then s else hbmWrite (decodeWords s l 1) line
      let s := if sget false s.res line then { s with mem := m } else s
      if pos + 1 = stackLines then count { s with scrubPos := sdel s.scrubPos k } f 0x58 1
      else { s with scrubPos := sset s.scrubPos k (pos + 1) }

def execHbmScrubRead (h : Half) (line : Nat) (upset : List Nat) (s : State) : Out := .next (hbmScrub s h line upset)

/-- A scrub of the words of a line that the Reservoir holds: an uncorrectable one marks its line poisoned in place
(R305, R309). -/
def reservoirScrub (s : State) (h : Half) (line : Nat) (upset : List Nat) : State :=
  if !alive s || !hbmLine s h line || linePoisoned s line || !shas s.res line then s
  else
    resRead ((upset.take 8).zipIdx.foldl (fun s x =>
      let w := 8 * line + x.2
      let n := max x.1 (sget 0 s.resEcc w)
      { s with resEcc := if n = 0 then s.resEcc else sset s.resEcc w n }) s) line

def execReservoirScrub (h : Half) (line : Nat) (upset : List Nat) (s : State) : Out := .next (reservoirScrub s h line upset)

/-! ### Upsets (R305, R340) -/

/-- A word's symbols in error after `n` more of its 36 (R304). -/
def upsetWord (l : Sparse Nat) (w n : Nat) : Sparse Nat :=
  let k := min 36 (sget 0 l w + n)
  if k = 0 then l else sset l w k

/-- The upset of a tick, if one happens: symbols of a stored word, or an entry of the coherent domain, are in error from
then on, and what reads them finds it (R98, R129, R305, R340; DESIGN CHOICE, log entry 57). -/
def upset (s : State) : State :=
  match Config.upset s.flash.cycles.toNat s.tick.toNat with
  | none => s
  | some (kind, unit, w, n) =>
    if kind = 0 then { s with nibs := s.nibs.map fun p =>
      if p.1 = unit && w < lsSize / 16 then (p.1, { p.2 with lsEcc := upsetWord p.2.lsEcc w n }) else p }
    else if kind = 1 then { s with inks := s.inks.map fun p =>
      if p.1 = unit then (p.1, { p.2 with palEcc := upsetWord p.2.palEcc w n }) else p }
    else if kind = 2 then (if w < 2 ^ 37 then { s with ecc := upsetWord s.ecc w n } else s)
    else if kind = 3 then (if shas s.res (w / 8) then { s with resEcc := upsetWord s.resEcc w n } else s)
    else { s with coh := { s.coh with badTags := ninsert s.coh.badTags (unit * lineSpan + w) } }

/-! ### The second tier (R313) -/

/-- Where a second-tier address lies (R312): the link and the device address. -/
def cxlPlace (s : State) (a : Nat) : Option (Nat × Nat) :=
  match s.cxl.find? fun c => decide (tier2 + c.base ≤ a ∧ a < tier2 + c.base + c.bytes) with
  | none => none
  | some c =>
    let p := (a - tier2 - c.base) / 4096
    some (c.links.getD (p % c.links.length) 0, p / c.links.length * 4096 + a % 4096)

/-- A second-tier failure: MEM_CXL_STAT.FAILED is set and the domain goes down. -/
def cxlFail (s : State) (l : Fin 6) (addr : Nat) : State :=
  if alive s && !bltFenced s && s.cxlUp.contains l.val then
    let s := regSetBits s (Frame.memB.base + 0x100 + 4 * l.val) 2
    domainDown s 6 2 (homeAgent 2) addr
  else s

/-- The link itself is lost: its port leaves UP, which counts, and the failure is logged (R349, R423). -/
def execCxlLinkDown (l : Fin 6) (s : State) : Out :=
  if alive s && !bltFenced s && s.cxlUp.contains l.val then
    .next { cxlFail (logLinkFail (portCount s (28 + l.val) 0x28 1) (8 + l.val) 0) l 0 with cxlUp := s.cxlUp.filter (· ≠ l.val) }
  else .next s

/-- A request of an address that another link serves is none of this link's. -/
def execCxlResponseTimeout (l : Fin 6) (addr : BitVec 48) (s : State) : Out :=
  .next (if (cxlPlace s addr.toNat).map Prod.fst = some l.val then cxlFail s l (addr.toNat / 128 * 128) else s)
def execCxlFatalError (l : Fin 6) (s : State) : Out := .next (cxlFail s l 0)

/-! ### XLT_INVALIDATE (R316) -/

/-- Whether an ASID is one the command names. -/
def asidHit (ictl : Nat) (a : BitVec 16) : Bool := ictl / 65536 % 2 = 1 || a.toNat = ictl % 65536

/-- Whether pages from `v` on, `n` of them, meet the command's range; PAGES 0 covers every address. -/
def rangeHit (va pages v n : Nat) : Bool := pages = 0 || decide (v < va / 4096 + pages ∧ va / 4096 < v + n)

/-- Remove every matching entry of both halves' translation units. -/
def xltDrop (s : State) (va pages ictl : Nat) : State :=
  { s with
    xlt := s.xlt.filter fun e => !(asidHit ictl e.asid && rangeHit va pages e.vpn e.pages)
    xltNodes := s.xltNodes.filter fun e =>
      !(asidHit ictl e.asid && rangeHit va pages (e.pre * 512 ^ (e.level + 1)) (512 ^ (e.level + 1))) }

/-- Whether an access of a page by a half's unit, under an ASID, was translated with an entry that the command names: one of
its own page, or the superpage that covers it (R316). -/
def xltUsed (s : State) (h : Nat) (asid : BitVec 16) (va pages page : Nat) : Bool :=
  rangeHit va pages page 1 ||
    s.xlt.any fun e => e.h.val = h && e.asid = asid && decide (e.vpn ≤ page ∧ page < e.vpn + e.pages) && rangeHit va pages e.vpn e.pages

/-- XLT_INVALIDATE (R316, R321): it completes when the matching entries are gone and the remote operations of Nibs and the
DMA reads that were translated with them are done. A unit's other accesses end within the command that makes them (log entry 21). -/
def runXltInvalidate (poison : Bool) (c : JCmd) (s : State) : State :=
  let va := bget c.body 0 8
  let pages := bget c.body 8 4
  let ictl := bget c.body 12 4
  let bad := va % 4096 ≠ 0 || 2 ^ 48 ≤ va || 2 ^ 24 < pages || 2 ^ 17 ≤ ictl
  let mark (s : State) (id h : Nat) (asid : BitVec 16) (o : RemOp) : RemOp :=
    if o.kind ≠ .msend && asidHit ictl asid && xltUsed s h asid va pages (o.va.toNat / 4096) then { o with inv := o.inv ++ [id] } else o
  let markRead (s : State) (id h : Nat) (asid : BitVec 16) (r : DmaRead) : DmaRead :=
    if r.pa.isSome && asidHit ictl asid && xltUsed s h asid va pages (r.va / 4096) then { r with inv := r.inv ++ [id] } else r
  gate s c 0x71 poison false bad false false fun id s =>
    let s0 := s
    let s := xltDrop s va pages ictl
    let s := if halfFenced s 0 then s else count s (.xlt 0) 0x50 1
    let s := if halfFenced s 1 then s else count s (.xlt 1) 0x50 1
    settleInvals { s with
      invals := s.invals ++ [id]
      dmas := s.dmas.map fun p => (p.1, { p.2 with reads := p.2.reads.map (markRead s0 id (p.1 / 64) p.2.space.asid) })
      nibs := s.nibs.map fun p => (p.1, { p.2 with rops := p.2.rops.map (mark s0 id (p.1 / 2304) p.2.space.asid) }) }

def execXltInvalidate (c : JCmd) (s : State) : Out := .next (runXltInvalidate false c s)

end Sys2Proof.Machine
end

