-- ==== Sys2Proof/Machine/RegRead.lean ====
section
/-! DEFINITION. What each register reads (R428 to R440 and the register tables of every chapter). A
register that software writes, and every counter, is stored; the status fields here follow from the
state of the unit. -/

namespace Sys2Proof.Machine
open Sys2Proof

/-- A register's fields, each its lowest bit and its value, put together. -/
def pack (l : List (Nat × Nat)) : Nat := l.foldl (fun a x => a + x.2 * 2 ^ x.1) 0

/-- A bit as a number. -/
def bn (b : Bool) : Nat := if b then 1 else 0

/-- A stored register. -/
def storedReg (s : State) (f : Frame) (r : Reg) : Nat :=
  if r.wide then regWord64 s (f.base + r.off) else (regWord s (f.base + r.off)).toNat

/-- The active copy of a shadowed register. -/
def activeReg (s : State) (f : Frame) (off : Nat) : Nat := (regAct s (f.base + off)).toNat
def activeReg64 (s : State) (f : Frame) (off : Nat) : Nat := regAct64 s (f.base + off)

/-! ### The common tail (R434) -/

/-- Whether an address holds a word with a shadow copy. -/
def isShadow (addr : Nat) : Bool :=
  match frameAt addr with
  | none => false
  | some f => (regAt f (addr - f.base)).any fun r => r.sh

/-- Whether some shadow copy of a frame differs from its active copy (R434, R436). -/
def framePending (s : State) (f : Frame) : Bool :=
  (s.regs ++ s.act).any (fun p => p.1 / 65536 = frameKey f && isShadow p.1 && regWord s p.1 ≠ regAct s p.1)
  || (match f with
    | .rul => s.ruls.any fun p => p.2.sh ≠ p.2.ac
    | .dma h => s.dmas.any fun p => p.1 / 64 = h.val && p.2.bindSh ≠ p.2.bindAct
    | .utp h => s.routesSh.any fun p => p.1 / 65536 = h.val && p.2 ≠ sget 0 s.routes p.1
    | _ => false)

/-- Whether a discard of R435 is recorded for a frame, and a refusal of R433. -/
def frameWdrop (s : State) (f : Frame) : Bool := s.frames.wdrop.contains (frameKey f)
def frameGviol (s : State) (f : Frame) : Bool := s.frames.gviol.contains (frameKey f)
def frameOpen (s : State) (f : Frame) : Bool := s.frames.lock.contains (frameKey f)

def tailValue (s : State) (f : Frame) (off : Nat) : Nat :=
  match off with
  | 0x3FF0 => pack [(0, f.kind), (8, f.instance_)]
  | 0x3FF4 => pack [(0, bn (frameBusy s f)), (1, bn (frameWdrop s f)), (2, bn (frameGviol s f)), (3, bn (framePending s f))]
  | 0x3FFC => bn (frameOpen s f)
  | _ => 0

/-! ### Gauges -/

/-- A register of a gauge set, by its offset in the set. -/
def gaugeValue (s : State) (key off : Nat) : Nat :=
  let g := gaugeOf s key
  match off with
  | 0x00 => g.converted | 0x08 => g.overflow | 0x10 => g.zeroed | 0x18 => g.subnormal | 0x20 => g.nanOut
  | 0x28 => g.sat.toNat
  | _ => 0

/-! ### The Colophon domain -/

def drvCode : DrvSt → Nat
  | .detached => 0 | .attached => 1 | .stopping => 2 | .stopped => 3

/-- Bit i of pool word w: Inkstone 32w + i is Upstroke (R14). -/
def poolWord (w : Nat) : Nat := pack ((List.range 32).map fun i => (i, bn (decide (48 ≤ (32 * w + i) % 144))))

/-- The core whose block of the ID frame holds an offset. -/
def coreAt (off : Nat) : Nat := (off - 0x200) / 16

def idValue (s : State) (r : Reg) : Nat :=
  let off := r.off
  if 0x40 ≤ off ∧ off < 0x64 then poolWord ((off - 0x40) / 4)
  else if 0x200 ≤ off then
    if off % 16 = 8 then (let run := bn (coreOf s (coreAt off)).running; pack [(0, run), (1, run)]) else storedReg s .id r
  else match off with
  | 0x0000 => 0x5A56
  | 0x0004 => pack [(0, 0x9600), (16, 1)]
  | 0x0008 => pack [(0, max 1 Config.stepping.toNat), (8, 1)]
  | 0x0010 => Config.serial.toNat
  | 0x0018 => pack [(0, s.col.service.toNat), (4, (s.col.hostHalf.getD 0).val)]
  | 0x001C => s.col.fences.length
  | 0x0024 => (s.col.fences[field (regWord s (Frame.id.base + 0x20)) 9 0]?).elim 0 fenceWord
  | 0x0104 => pack [(0, drvCode s.drv.st), (2, bn s.drv.attachFail), (3, bn s.drv.lateHb), (4, s.drv.cause.toNat)]
  | 0x0120 => 0
  | 0x0128 => s.col.lastReset.toNat
  | _ => storedReg s .id r

/-- The attempts left on a component's PENDING slot, 0 when none is (COL_SLOTS). -/
def attemptsOf (s : State) (c : Nat) : Nat :=
  match slotSt s.flash c 0, slotSt s.flash c 1 with
  | .pending n, _ => n
  | _, .pending n => n
  | _, _ => 0

/-- The entry that COL_LOG_SEL selects. -/
def logShown (s : State) : List Byte :=
  let v := regWord s (Frame.col.base + 0x100)
  logSlot s (bitAt v 0) (field v 16 1)

def updCode : UpdSt → Nat
  | .idle => 0 | .busy => 1 | .done => 2 | .failed => 3

def colValue (s : State) (r : Reg) : Nat :=
  let f := Frame.col
  let g := field (regWord s (f.base + 0x88)) 6 0
  if 0x110 ≤ r.off ∧ r.off < 0x150 then bget (logShown s) (r.off - 0x110) 4
  else match r.off with
  | 0x0000 => pack [(0, bn (frameBusy s f)), (1, bn (frameWdrop s f)), (2, s.col.stage)]
  | 0x0008 => s.tick.toNat
  | 0x0010 => s.flash.cycles.toNat
  | 0x0018 => 0
  | 0x001C => bget (flashRange s.flash.bytes (slotBase 0 s.col.bootedCol) 16) 12 4
  | 0x0020 => fwFeatures s
  | 0x0038 => bn s.col.featPend
  | 0x003C => s.flash.svn
  | 0x0040 => pack [(0, s.col.bootedCol), (2, attemptsOf s 0), (4, s.col.bootedScfw), (6, attemptsOf s 1),
      (8, s.col.bootedRub), (10, attemptsOf s 2)]
  | 0x0058 => pack [(0, updCode s.col.upd), (2, s.col.updCause.toNat)]
  | 0x005C => 0
  | 0x0060 => pack [(0, s.col.rubric.tThrottle), (8, s.col.rubric.hyst), (16, s.col.rubric.powerLimit)]
  | 0x0084 => (sensorVal s (field (regWord s (f.base + 0x80)) 7 0)).toNat
  | 0x008C => pack [(0, runStep s.col g), (3, sget 0 s.col.stepT g), (6, sget 0 s.col.stepP g)]
  | 0x0104 =>
    let e := logShown s
    pack [(0, bn (!e.isEmpty)), (1, bn (!e.isEmpty && bget e 60 4 ≠ (crc32 (bslice e 0 60)).toNat))]
  | 0x0108 => s.col.logNext
  | 0x010C => s.flash.logHead.toNat
  | _ => storedReg s f r

/-! ### The Blotter's frames -/

def bltValue (s : State) (r : Reg) : Nat :=
  let f := Frame.blt
  if 0x100 ≤ r.off then gaugeValue s (gaugeSelKey s .blt) (r.off - 0x100)
  else match r.off with
  | 0x0000 => pack [(0, bn (frameBusy s f)), (1, bn (frameWdrop s f)), (2, s.upds.length),
      (6, bn (s.blt = .stopped && s.upds.isEmpty))]
  | 0x0008 => activeReg s f 4
  | 0x000C => bn (framePending s f)
  | 0x0010 => regWord64 s (f.base + 0x10) / 4096 * 4096
  | 0x0018 => activeReg64 s f 0x10 / 4096 * 4096
  | 0x0024 => activeReg s f 0x20
  | 0x0084 => let p := pinsOf s (field (regWord s (f.base + 0x80)) 15 0); pack [(0, p.1), (16, p.2)]
  | _ => storedReg s f r

/-- A setting of a Ruler group by its offset from 0x10. -/
def rulField (v : RulSet) (off : Nat) : Nat :=
  match off with
  | 0x00 => v.ctl.toNat | 0x04 => v.peak.toNat | 0x08 => v.minRatio.toNat | 0x0C => v.gamma.toNat | 0x10 => v.warmup.toNat
  | 0x18 => v.decay.toNat | 0x20 => v.period.toNat
  | _ => 0

def rulValue (s : State) (r : Reg) : Nat :=
  let f := Frame.rul
  let v := rulOf s (rulSel s)
  if 0x10 ≤ r.off ∧ r.off < 0x38 then rulField v.sh (r.off - 0x10)
  else if 0x110 ≤ r.off ∧ r.off < 0x138 then rulField v.ac (r.off - 0x110)
  else match r.off with
  | 0x0004 => bn (v.sh ≠ v.ac)
  | 0x0008 => pack [(0, bn (frameBusy s f)), (1, bn (frameWdrop s f)), (2, bn s.badval), (3, bn s.probeDone)]
  | _ => storedReg s f r

/-- The Blotter's MEM frame: the CXL links (R312, R313). -/
def memBValue (s : State) (r : Reg) : Nat :=
  let f := Frame.memB
  let l := (r.off - 0x100) / 4
  let k := (r.off - 0x120) / 8
  if 0x100 ≤ r.off ∧ r.off < 0x118 then
    pack [(0, bn (s.cxlUp.contains l)), (1, field (regWord s (f.base + r.off)) 1 1),
      (2, bn (s.cxl.any fun c => c.links.contains l)), (8, sget 0 s.cxlBytes l / 2 ^ 28)]
  else if 0x120 ≤ r.off ∧ r.off < 0x150 then
    match s.cxl.find? fun c => c.links.contains k, s.col.rubric.cxl.find? fun c => c.2.contains k with
    | some c, _ => tier2 + c.base
    | none, some c => tier2 + c.1
    | none, none => 0
  else storedReg s f r

/-! ### Homes and ports -/

/-- The COH frame of home 0, 1 (the Reservoirs) or 2 (the Blotter), in which PRED_MODE and COH_NEAR_ATOMICS read zero (11). -/
def cohValue (s : State) (f : Frame) (home : Nat) (r : Reg) : Nat :=
  let c := s.coh
  let mine := c.down && c.downHome = home + 1
  let blt := decide (home = 2)
  match r.off with
  | 0x0000 => pack [(0, bn c.running), (1, bn c.down), (2, c.cause.toNat), (6, bn (blt && frameBusy s f)),
      (7, bn (blt && frameWdrop s f))]
  | 0x0008 => if mine then pack [(0, c.downAgent.toNat), (10, c.cause.toNat), (31, 1)] else 0
  | 0x0010 => if mine then c.downAddr.toNat else 0
  | 0x0004 => if blt then storedReg s f r % 2 ^ 16 else storedReg s f r
  | 0x0078 => if blt then 0 else storedReg s f r
  | _ => storedReg s f r

def portCode : PortSt → Nat
  | .disabled => 0 | .signal => 1 | .aligned => 2 | .init => 3 | .up => 4

/-- A port's block; `p` is its code, from 28 on a CXL port of the Blotter. -/
def portValue (s : State) (f : Frame) (p : Nat) (r : Reg) : Nat :=
  let v := portOf s p
  match r.off % 0x40 with
  | 0x00 =>
    let st := if v.role = 3 && v.st ≠ .disabled then (if s.cxlUp.contains (p - 28) then 4 else 1) else portCode v.st
    pack [(0, v.role.toNat), (2, st), (5, v.lock.toNat), (13, bn v.loop)]
  | 0x04 => pack [(0, v.nbrPkg.toNat), (16, v.nbrPort.toNat)]
  | 0x08 | 0x0C | 0x10 | 0x14 => if v.st = .disabled then 0 else (Config.rxPower (f.base + r.off) s.tick.toNat).toNat
  | _ => storedReg s f r

/-! ### Frames of a Vellum -/

def runCode (r : RunSt) (on : Bool) : Nat := pack [(0, bn (on && r = .running)), (1, bn (r = .stopped)), (2, bn (r = .halted))]

def scbValue (s : State) (h : Half) (r : Reg) : Nat :=
  let f := Frame.scb h
  match r.off with
  | 0x0000 => runCode (scbOf s h).run true
  | 0x0028 => pack [(0, bn (frameBusy s f)), (1, field (regWord s (f.base + 0x28)) 1 1)]
  | 0x0034 =>
    let q := queueOf s (field (regWord s (f.base + 0x30)) 11 0)
    if queueHalf (field (regWord s (f.base + 0x30)) 11 0) = h then
      pack [(0, bn q.enabled), (1, bn q.halted), (2, bn q.cqFault), (3, bn q.waiting), (4, bn q.fetchFault), (5, bn q.wbFault),
        (16, q.head.toNat)]
    else 0
  | 0x003C => (semOf s (1024 * h.val + field (regWord s (f.base + 0x38)) 9 0)).toNat
  | 0x005C =>
    let c := cqOf s h (field (regWord s (f.base + 0x58)) 11 0)
    pack [(0, bn c.enabled), (1, bn c.fault), (2, bn c.msiFault), (16, c.head.toNat)]
  | _ => storedReg s f r

def dmaStCode : DmaSt → Nat
  | .idle => 0 | .running => 1 | .pausing => 2 | .paused => 3 | .halted => 4

/-- The channel whose block holds an offset of the DMA frame. -/
def dmaAt (h : Half) (off : Nat) : DmaId := dmaNth h ((off - 0x100) / 0x40)

/-- A channel's registers. Channel 63 of the host half shows RUNNING and RUN while an update reads its image (DESIGN CHOICE,
log entry 51). -/
def dmaValue (s : State) (h : Half) (r : Reg) : Nat :=
  let d := dmaAt h r.off
  let v := dmaOf s d
  let st : DmaSt := if v.st = .idle && updReads s d then .running else v.st
  if dmaFenced s d then 0
  else match r.off % 0x40 with
  | 0x00 => pack [(0, bn (st ≠ .idle)), (1, bn v.pauseReq), (2, bn (dmaHigh s d))]
  | 0x04 => pack [(0, dmaStCode st), (3, v.stop.toNat), (5, bn (preempted s d)), (6, bn (v.bindSh ≠ v.bindAct))]
  | 0x08 => v.ptr.toNat
  | 0x10 => v.done
  | 0x18 => v.errAddr.toNat
  | 0x20 => v.bindSh.toNat
  | 0x24 => v.bindAct.toNat
  | _ => storedReg s (.dma h) r

def tagCode : TagSt → Nat
  | .free => 0 | .early => 1 | .scaling => 2 | .running => 3 | .held => 4

/-- The tags that a half's Scriptorium leads. -/
def ledTags (s : State) (h : Half) : List (Nat × Tag) := s.tags.filter fun p => leadHalf s p.1 = h

def srpValue (s : State) (h : Half) (r : Reg) : Nat :=
  let f := Frame.srp h
  let n := field (regWord s (f.base + 0x20)) 19 0
  let led := leadHalf s n = h
  if 0x100 ≤ r.off then gaugeValue s (gaugeKey 3 n) (r.off - 0x100)
  else match r.off with
  | 0x0000 => runCode (srpOf s h).run true + 8 * ((ledTags s h).filter fun p => p.2.live).length
  | 0x0004 => s.col.rubric.pools.getD h.val 0
  | 0x0008 => poolUsed s h
  | 0x0010 => if s.col.hostHalf.isNone then 0 else rtDefault s
  | 0x0018 => s.col.rubric.ranks.length
  | 0x0024 => if led then pack [(0, tagCode (tagOf s n).st), (3, (tagOf s n).attempt), (7, 1)] else 0
  | _ => storedReg s f r

/-- FED_ENGINES: bit k of a kind's byte is its engine k (R409). -/
def engineBits (s : State) (h : Half) : Nat :=
  let bits (t n : Nat) : Nat := pack ((List.range n).map fun k => (k, bn (!feedEngFenced s h t k)))
  pack [(0, bits 0 8), (8, bits 1 8), (16, bits 2 8), (24, bits 3 4)]

def streamCode : StreamSt → Nat
  | .closed => 0 | .opened => 1 | .closing => 2

def fedValue (s : State) (h : Half) (r : Reg) : Nat :=
  let f := Frame.fed h
  let v := streamOf s h (field (regWord s (f.base + 0x28)) 4 0)
  match r.off with
  | 0x0000 => runCode (feedOf s h).run true
  | 0x0008 => activeReg s f 4
  | 0x000C => bn (framePending s f)
  | 0x0010 => engineBits s h
  | 0x002C => pack [(0, streamCode v.st), (2, v.space.queue.toNat)]
  | 0x0030 => v.next
  | 0x0038 => (feedOf s h).merges.length
  | _ => storedReg s f r

/-- The Ligature's registers in a half's frame. With the Ligature fenced only LIG_STAT reads nonzero (R437;
DEDUCED, log entry 36). -/
def ligValue (s : State) (h : Half) (r : Reg) : Nat :=
  let f := Frame.lig h
  let l := linkOf s (.lig h)
  if ligFenced s then
    if r.off = 0 then
      pack [(2, if s.col.fences.any (fun p => p.1 = unitOf 7 0 && p.2 = 2) then 3 else 0), (4, 1)]
    else 0
  else match r.off with
  | 0x0000 =>
    pack [(0, bn (linkLive s (.lig h))), (1, field (regWord s f.base) 1 1), (2, l.cause.toNat)]
  | _ => storedReg s f r

def ctxCode : CtxSt → Nat
  | .closed => 0 | .opening => 1 | .opened => 2 | .failed => 3 | .down => 4

/-- The routing entry that UTP_ROUTE_SEL selects: its key. -/
def routeKey (s : State) (h : Half) : Nat := 65536 * h.val + field (regWord s ((Frame.utp h).base + 0x10)) 15 0

/-- A routing entry as UTP_ROUTE_DATA shows it: the value last written (R436). -/
def routeShown (s : State) (key : Nat) : Word := sget (sget 0 s.routes key) s.routesSh key

def utpValue (s : State) (h : Half) (r : Reg) : Nat :=
  let f := Frame.utp h
  let key := field (regWord s (f.base + 0x18)) 19 0
  match r.off with
  | 0x0000 => (ownPkg s).toNat
  | 0x0004 => (incarnation s).toNat
  | 0x0014 => (routeShown s (routeKey s h)).toNat
  | 0x001C =>
    if ctxHalf s (key % 16) = h then pack [(0, ctxCode (ctxOf s key).st), (3, (ctxOf s key).unacked.length)] else 0
  | _ => storedReg s f r

/-- Whether a scrub pass has begun on a live stack of a half and goes on (R309). -/
def scrubbing (s : State) (h : Half) : Bool :=
  alive s && bitAt (regAct s ((Frame.mem h).base + 4)) 16 && (liveStacks s h).any fun k => sget 0 s.scrubPos (6 * h.val + k) ≠ 0

def memValue (s : State) (h : Half) (r : Reg) : Nat :=
  let f := Frame.mem h
  match r.off with
  | 0x0000 => pack ((List.range 6).map (fun k => (k, bn (!stackFenced s h k))) ++ [(6, bn (scrubbing s h))])
  | _ => storedReg s f r

/-! ### Frames of a quire -/

/-- FENCE_SRC of a quire: the source that fenced it or its half (R29, R31). -/
def fenceSrc (s : State) (q : QuireId) : Nat :=
  match s.col.fences.find? (fun p => p.1 = unitOf 1 q.num), s.col.fences.find? (fun p => p.1 = unitOf 8 q.h.val) with
  | some p, _ => p.2.toNat
  | none, some p => p.2.toNat
  | none, none => 0

def inkId (s : State) (q : QuireId) : Nat :=
  pack [(0, q.q.val), (8, q.h.val), (9, bn (decide (48 ≤ q.q.val))), (10, groupOf q % 36), (16, memberOf q),
    (18, bn (quireFenced s q)), (19, fenceSrc s q)]

def phaseCode : Phase → Nat
  | .idle => 0 | .fill => 1 | .streaming => 2 | .ductusWait => 3 | .merge => 4 | .resolve => 5 | .drain => 6 | .send => 7
  | .released => 0

/-- INK_STAT. A member of a set waits in its fill until all are dispatched, and in its streaming until all stream (R118). -/
def inkStat (s : State) (q : QuireId) : Nat :=
  let v := inkOf s q
  let run (p : InkOp → Bool) : Bool := v.running.any p
  pack [(0, bn v.running.isSome), (1, bn v.waiting.isSome), (2, v.running.elim 0 fun o => phaseCode o.phase),
    (5, v.grants.length), (8, bn (run fun o => !o.skip && ((o.phase = .fill && !mcReady s q o.body) || (o.phase = .streaming && !mcTogether s q o.body)))),
    (9, bn (run fun o => o.phase = .send && o.body.action = 3 && !o.credit && !o.sent))]

def inkValue (s : State) (q : QuireId) (r : Reg) : Nat :=
  let f := inkFrame q
  if 0x100 ≤ r.off then
    let g := (r.off - 0x100) / 0x30
    gaugeValue s (gaugeKey 1 (q.num * 8 + g)) ((r.off - 0x100) % 0x30)
  else match r.off with
  | 0x0000 => inkId s q
  | 0x0004 => inkStat s q
  | 0x000C => activeReg s f 8
  | 0x0010 => bn (framePending s f)
  | _ => storedReg s f r

def nibStCode : NibSt → Nat
  | .halted => 0 | .running => 1 | .waiting => 2 | .faulted => 3

/-- The word that NIB_PC shows of a Nib that neither is halted nor faulted: undefined (DESIGN CHOICE, log entry 37). -/
def livePc (s : State) : Nat := leNat ((List.range 4).map fun i => Config.freeByte (s.free + i))

/-- A register of a Nib's block. -/
def nibBlockValue (s : State) (n : NibId) (r : Reg) : Nat :=
  let v := nibOf s n
  match r.off % 0x40 with
  | 0x00 => pack [(0, nibStCode v.st), (2, v.cause.toNat)]
  | 0x04 => if v.st = .halted || v.st = .faulted then v.pc.toNat else livePc s
  | 0x08 => v.faultAddr.toNat
  | 0x10 => v.faultVa.toNat
  | 0x1C => v.mfull.toNat
  | 0x20 => v.space.queue.toNat
  | 0x28 => v.instret.toNat
  | _ => 0

/-- Nib k of a quire, k wrapped into range. -/
def nibNth (q : QuireId) (k : Nat) : NibId := ⟨q.h, q.q, ⟨k % 16, Nat.mod_lt _ (by decide)⟩⟩

def nibValue (s : State) (q : QuireId) (r : Reg) : Nat :=
  let f := Frame.nib q.h q.q
  let off := r.off
  if off = 0 then pack [(0, q.q.val), (8, q.h.val), (9, bn (quireFenced s q)), (10, fenceSrc s q)]
  else if 0x100 ≤ off ∧ off < 0x500 then nibBlockValue s (nibNth q ((off - 0x100) / 0x40)) r
  else if 0x700 ≤ off ∧ off < 0x740 then bn (shadowPending s (winAddrs (nibNth q ((off - 0x700) / 4))))
  else if 0xC00 ≤ off ∧ off < 0x1000 then activeReg64 s f (off - 0x400)
  else if 0x1000 ≤ off then
    let k := (off - 0x1000) / 0x30
    gaugeValue s (gaugeKey 2 (q.num * 64 + k)) ((off - 0x1000) % 0x30)
  else storedReg s f r

/-! ### Reading -/

/-- What a register of an unfenced frame reads. -/
def regValue (s : State) (f : Frame) (r : Reg) : Nat :=
  if 0x3FF0 ≤ r.off then tailValue s f r.off
  else match f with
  | .id => idValue s r
  | .col => colValue s r
  | .blt => bltValue s r
  | .rul => rulValue s r
  | .memB => memBValue s r
  | .cohB => cohValue s f 2 r
  | .lfpB => portValue s f (28 + (r.off - 0x100) / 0x40) r
  | .scb h => scbValue s h r
  | .dma h => dmaValue s h r
  | .srp h => srpValue s h r
  | .fed h => fedValue s h r
  | .lig h => ligValue s h r
  | .lfp h => portValue s f (14 * h.val + (r.off - 0x100) / 0x40) r
  | .utp h => utpValue s h r
  | .mem h => memValue s h r
  | .coh h => cohValue s f h.val r
  | .xlt _ => storedReg s f r
  | .ink h q => inkValue s ⟨h, q⟩ r
  | .nib h q => nibValue s ⟨h, q⟩ r

/-- The identity register of a frame whose unit is fenced (R437): INK_ID, NIB_QID and, with a live half,
LIG_STAT. -/
def fencedReads (s : State) (f : Frame) (r : Reg) : Bool :=
  match f with
  | .ink .. | .nib .. => decide (r.off = 0)
  | .lig h => decide (r.off = 0) && !halfFenced s h
  | _ => false

/-- The bits of a register that read: those of its fields that are not write-only. UNLOCK reads too
(R434). -/
def readMask (r : Reg) : Nat :=
  if r.off = 0x3FFC then 1
  else r.flds.foldl (fun a f => if f.acc = .wo then a else a + (2 ^ (f.hi + 1) - 2 ^ f.lo)) 0

/-- The word that one register of a frame shows at an offset of the normal window (R431, R437). -/
def readWord (s : State) (f : Frame) (off : Nat) : Word :=
  match regAt f off with
  | none => 0
  | some r =>
    if frameFenced s f && !fencedReads s f r then 0
    else
      let v := regValue s f r &&& readMask r
      BitVec.ofNat 32 (if off = r.off then v else v / 2 ^ 32)

end Sys2Proof.Machine
end

