-- ==== Sys2Proof/Machine/Uttupel.lean ====
section
/-! DEFINITION. The receiving side of Uttupel (R346 to R361): link blocks, bring-up, transit, contexts
and delivery. -/

namespace Sys2Proof.Machine
open Sys2Proof

/-! ### Contexts that end (R356) -/

/-- Ductus links of this package whose context with `key` ended (R87): a link whose predecessor sends on
it, and a link whose successor receives on it, while in `s0` its tile had not left. A link of an Inkstone that holds a
record completes after that (R142). -/
def linksEnd (s0 s : State) (key : Nat) (st : BitVec 8) : State :=
  let peer := key / 16
  let half := key % 16 - 2
  let own (k : Nat) : QuireId := ⟨halfOf (k / 144), quireFin k⟩
  let partner (q : QuireId) (op : InkOp) : Option (BitVec 32) :=
    let t := op.body
    if op.skip then none
    else if t.hasPred && wordPkg t.pred = peer && q.h.val = half && op.recv.isNone then some t.pred
    else if t.hasSucc && wordPkg t.succ = peer && field t.succ 16 16 = half && !tileLeft s0 q op then some t.succ
    else none
  let stop (q : QuireId) (op : InkOp) : InkOp :=
    if (partner q op).isSome && op.ended.isNone then { op with ended := some st } else op
  s.inks.foldl (fun s p =>
    let q := own p.1
    if inkBlocked s q then
      setInk s q { inkOf s q with running := p.2.running.map (stop q), waiting := p.2.waiting.map (stop q) }
    else
      let one (s : State) (op : Option InkOp) : State :=
        match op, op.bind (partner q) with
        | some op, some w => endLink s0 s q w op.body.tag st
        | _, _ => s
      one (one s p.2.waiting) p.2.running) s

/-- What its users wait for on a context ends with a status (R356: R87 and R117 for the Ductus, R295 and R297 for
the Scriptorium, R360 for the rings). -/
def usersEnd (s0 s : State) (key : Nat) (code : BitVec 8) : State :=
  let cls := key % 16
  if cls < 2 then srpPeerEnd s (BitVec.ofNat 16 (key / 16)) cls code
  else if cls < 4 then linksEnd s0 s key code
  else ringEnd s key code

/-- A context enters a state without traffic: what waits on it ends with a status, its payloads go and free the
store for others (R356, R357). -/
def ctxEnd (s : State) (key : Nat) (st : CtxSt) (code : BitVec 8) : State :=
  let s0 := s
  let c := ctxOf s key
  let h := ctxHalf s (key % 16)
  let s := setCtx s key { c with
    st := st, unacked := [], waiting := [], rnrWait := false, goback := none, nakSent := false, sinceAck := 0, retries := 0, stalled := 0
    dtile := [], dlink := none, announced := [], ackN := c.sentN }
  let s := if st = .failed then count s (.utp h) 0x70 1 else s
  usersEnd s0 (storeKick s h) key code

/-- A context fails (R356, R357). -/
def ctxFail (s : State) (key : Nat) : State := ctxEnd s key .failed stPeerAbandoned

/-- A Scriptorium connection that starts anew holds its early credits again, and what it holds of the old one gives none
back (R293). -/
def earlyRenew (s : State) (key : Nat) : State :=
  if key % 16 < 2 then
    let old (n : Nat) (x : Nat × SrpMsg) : Nat × SrpMsg :=
      if x.2.src.toNat = key / 16 && n % 2 = key % 16 then (x.1, { x.2 with early := false }) else x
    { s with srpEarly := sdel s.srpEarly key
             tags := s.tags.map fun p => (p.1, { p.2 with heldMsgs := p.2.heldMsgs.map (old p.1) }) }
  else s

/-- A context becomes OPEN with a peer's incarnation and sends what waits. -/
def ctxOpen (s : State) (key : Nat) (inc : BitVec 32) : State :=
  let c := ctxOf s key
  let s := if c.inc.any (· ≠ inc) then earlyRenew s key else s
  setCtx s key { c with
    st := .opened, inc := some inc, psn := 0, expPsn := 0, retries := 0, rto := initRto s (ctxHalf s (key % 16))
    timer := s.tick.toNat, sinceAck := 0, nakSent := false, rnrWait := false }

/-- Resend every unacknowledged packet from the oldest, go-back-N (R357). -/
def ctxResend (s : State) (key : Nat) : State :=
  let h := ctxHalf s (key % 16)
  let c := ctxOf s key
  let l := c.unacked
  let s := setCtx s key { c with goback := l.head?.map fun k => k.psn.toNat }
  let s := count (count s (.utp h) 0x40 l.length) (.utp h) 0x48 l.length
  l.foldl (fun s k => routePktAs s h (256 + key) k) s

/-- Whether a go-back-N of a context that began at a PSN still runs: packets of it wait at a port (R358). -/
def gobackRuns (s : State) (key psn : Nat) : Bool :=
  decide ((ctxOf s key).goback = some psn) && s.ports.any fun p => p.2.link.txq.any fun x => x.1 = 256 + key

/-! ### Delivery (R355, R360, R361) -/

/-- The Ductus control message that 32 payload bytes spell (DESIGN CHOICE, log entry 23). -/
def ductOfBytes (b : List Byte) : Option DuctMsg :=
  let m (k : DKind) : DuctMsg := ⟨k, BitVec.ofNat 32 (bget b 8 4), BitVec.ofNat 32 (bget b 12 4), BitVec.ofNat 16 (bget b 4 4), []⟩
  match bget b 0 4 with
  | 0 => some (m .credit)
  | 2 => some (m .abandon)
  | 3 => some (m .fenced)
  | 4 => some (m .announce)
  | _ => none

/-- The FENCED reply to the sender of a Ductus message (R361). -/
def fencedReply (s : State) (m : DuctMsg) : State := (ductSend s ⟨.fenced, m.src, m.dst, m.tag, []⟩).1

/-- A Ductus control message from another package (R361). One that comes between the packets of a tile shows that its
sender stopped sending it (R87; DESIGN CHOICE, log entry 23). -/
def ductControl (s : State) (key : Nat) (m : DuctMsg) : State :=
  let q := wordQuire m.dst
  let s := setCtx s key { ctxOf s key with dtile := [], dlink := none }
  let drop (s : State) : State :=
    let c := ctxOf s key
    setCtx s key { c with announced := c.announced.filter fun a => a ≠ (m.dst, m.src, m.tag) }
  if quireFenced s q then (if m.kind = .fenced then s else fencedReply s m)
  else match m.kind with
  | .announce =>
    let c := ctxOf s key
    setCtx s key { c with announced := c.announced ++ [(m.dst, m.src, m.tag)] }
  | .abandon => let s := drop s; { s with duct := s.duct ++ [m] }
  | _ => { s with duct := s.duct ++ [m] }

/-- A piece of a tile from another package (R361): the first fixes the announced link whose credit is granted, each is
written into the receive segments of that link as it comes, and the 96th completes the tile (DESIGN CHOICE, log entry
23). -/
def ductPiece (s : State) (key : Nat) (b : List Byte) : State :=
  let c := ctxOf s key
  let granted (a : BitVec 32 × BitVec 32 × BitVec 16) : Bool := (inkOf s (wordQuire a.1)).grants.contains (a.2.1, a.2.2)
  let c : Ctx :=
    if c.dtile.isEmpty then
      match findIdx? granted c.announced with
      | none => { c with dlink := none }
      | some i => { c with dlink := c.announced[i]?, announced := dropAt c.announced i }
    else c
  let d := c.dtile ++ b
  let s : State := match c.dlink with
    | none => s
    | some a =>
      let q := wordQuire a.1
      let v := inkOf s q
      match tileWanter v a.2.1 a.2.2 with
      | none => s
      | some (op, _) =>
        if recvHeld v a.2.1 a.2.2 then s
        else setInk s q (palWrite v (op.body.recvSeg * 65536 + c.dtile.length) (b.map fun x => (x, false)))
  if d.length < 96 * 4096 then setCtx s key { c with dtile := d }
  else
    let s := setCtx s key { c with dtile := [], dlink := none }
    match c.dlink with
    | none => s
    | some a =>
      let wells : Sparse Well := (List.range 4096).map fun i => (i, wellOfRaw (bslice d (96 * i) 96) false)
      { s with duct := s.duct ++ [⟨.tile, a.1, a.2.1, a.2.2, wells⟩] }

/-- Whether a DATA packet brings a Scriptorium message that the pool has no room for: it is not taken, and comes again
(R293, R357; DESIGN CHOICE, log entry 31). -/
def packetFull (s : State) (key : Nat) (k : UtpPkt) : Bool :=
  key % 16 < 2 && (match srpParse k.src false k.payload with | some (ph, m) => poolFull s ph m | none => false)

/-- Deliver a payload to the user of its CLASS (R355). -/
def ctxDeliver (s : State) (key : Nat) (k : UtpPkt) : State :=
  let cls := key % 16
  if cls < 2 then
    let w := bget k.payload 0 4
    let fresh := freshBit s
    let e : State × Bool := if w / 2 ^ 24 % 8 = 4 then fresh else (s, decide ((tagOf s (w % 2 ^ 20)).st ≠ .running))
    match srpParse k.src e.2 k.payload with
    | none => e.1
    | some (ph, m) => srpArrive e.1 ph m
  else if cls < 4 then
    if k.payload.length = 32 then
      match ductOfBytes k.payload with
      | none => s
      | some m => ductControl s key m
    else if k.payload.length = 4096 then ductPiece s key k.payload
    else s
  else ringDeliver s key k.payload (bitAt k.flags 0) k.poison

/-! ### Packets at their destination (R354 to R359) -/

/-- Whether a packet reaches this package whole; what fails its checks is counted (R354). -/
def pktGood (k : UtpPkt) : Bool := pktHeadOk k && pktPayOk k
def pktBad (s : State) (k : UtpPkt) : State := count s (.utp (ctxHalf s (pktClass k))) 0x50 1

/-- The context a packet belongs to. -/
def pktKey (k : UtpPkt) : Nat := ctxKey k.src.toNat (pktClass k)

/-- Take a cumulative acknowledgement (R357): what it covers leaves the store, the timer starts anew,
and users learn of it. -/
def takeApsn (s : State) (key : Nat) (k : UtpPkt) : State :=
  let c := ctxOf s key
  if !bitAt k.apsn 31 then s
  else
    match findIdx? (fun u => decide (u.psn = k.apsn &&& 0xFFFFFF#32)) c.unacked with
    | none => s
    | some i =>
      let s := setCtx s key { c with
        unacked := c.unacked.drop (i + 1), ackN := c.ackN + i + 1, retries := 0, rto := initRto s (ctxHalf s (key % 16))
        timer := s.tick.toNat }
      ringAcked (storeKick (ctxKick s key) (ctxHalf s (key % 16))) key

/-- A DATA packet in an OPEN context (R357, R360). -/
def dataIn (s : State) (key : Nat) (k : UtpPkt) : State :=
  let h := ctxHalf s (key % 16)
  let s := takeApsn s key k
  let c := ctxOf s key
  let d := (k.psn.toNat + 2 ^ 24 - c.expPsn % 2 ^ 24) % 2 ^ 24
  let ack (s : State) : State :=
    let c := ctxOf s key
    if 16 ≤ c.sinceAck + 1 then sendCtl (setCtx s key { c with sinceAck := 0 }) key 1 0
    else setCtx s key { c with sinceAck := c.sinceAck + 1 }
  if d = 0 && packetFull s key k then s
  else if d = 0 then
    let r := if 4 ≤ key % 16 then ringReady s key else (s, true)
    if r.2 then
      let s := r.1
      let c := ctxOf s key
      ack (ctxDeliver (setCtx s key { c with expPsn := c.expPsn + 1, nakSent := false }) key k)
    else sendCtl (count r.1 (.utp h) 0x80 1) key 3 0
  else if d < 2 ^ 23 then
    if c.nakSent then s else sendCtl (setCtx s key { c with nakSent := true }) key 2 c.expPsn
  else ack s

/-- What becomes of a packet of an incarnation other than the one recorded (R356). -/
def otherInc (c : Ctx) (k : UtpPkt) : Bool := c.inc ≠ some k.inc

def dataPacket (s : State) (k : UtpPkt) : State :=
  let key := pktKey k
  let c := ctxOf s key
  if c.st ≠ .opened then s else if otherInc c k then ctxFail s key else dataIn s key k

def ackPacket (s : State) (k : UtpPkt) : State :=
  let key := pktKey k
  let c := ctxOf s key
  if c.st ≠ .opened then s else if otherInc c k then ctxFail s key else takeApsn s key k

/-- NAK (R357): everything unacknowledged is resent, unless a go-back-N from the same PSN still runs (R358). -/
def nakPacket (s : State) (k : UtpPkt) : State :=
  let key := pktKey k
  let c := ctxOf s key
  if c.st ≠ .opened || otherInc c k then s
  else
    let s := takeApsn s key k
    if gobackRuns s key k.psn.toNat then s else ctxResend s key

/-- RNR (R357, R360): the sender waits RNR_DELAY. -/
def rnrPacket (s : State) (k : UtpPkt) : State :=
  let key := pktKey k
  let c := ctxOf s key
  if c.st ≠ .opened || otherInc c k then s
  else
    let s := takeApsn (count s (.utp (ctxHalf s (pktClass k))) 0x80 1) key k
    setCtx s key { ctxOf s key with rnrWait := true, timer := s.tick.toNat }

/-- OPEN (R356): answered in CLOSED, and in FAILED or DOWN under another incarnation; of two that cross,
that of the lower package ID is answered. -/
def openPacket (s : State) (k : UtpPkt) : State :=
  let key := pktKey k
  let c := ctxOf s key
  let answer (s : State) : State := ctxKick (sendCtl (ctxOpen s key k.inc) key 5 0) key
  match c.st with
  | .closed => answer s
  | .opening => if k.src.toNat < (ownPkg s).toNat then answer s else s
  | .opened => if otherInc c k then answer (ctxFail s key) else sendCtl s key 5 0
  | .failed | .down => if otherInc c k then answer s else s

/-- OPEN_ACK (R356). -/
def openAckPacket (s : State) (k : UtpPkt) : State :=
  let key := pktKey k
  if (ctxOf s key).st = .opening then ctxKick (ctxOpen s key k.inc) key else s

/-- DOMAIN_DOWN (R359): every context to the peer that is not in FAILED or DOWN goes DOWN; one in FAILED stays
(R356), and what its users still have with the peer ends all the same, buckets also where it was DOWN already (R297). -/
def downPacket (s : State) (k : UtpPkt) : State :=
  let s := count s (.utp (ctxHalf s (pktClass k))) 0x78 1
  let s := logPut s 0x0031 3 (logFields [(4, k.src.toNat)])
  (List.range 16).foldl (fun s cls =>
    let key := ctxKey k.src.toNat cls
    let c := ctxOf s key
    if c.st = .failed then usersEnd s s key stDomainDown
    else if c.st = .down then (if cls < 2 then usersEnd s s key stDomainDown else s)
    else ctxEnd (setCtx s key { c with inc := some (c.inc.getD k.inc) }) key .down stDomainDown) s

/-- A packet of some opcode at its destination, once its checks are passed (R354). -/
def pktTo (op : Nat) (f : State → UtpPkt → State) (s : State) (k : UtpPkt) : State :=
  if !alive s || k.dst ≠ ownPkg s || k.opcode.toNat ≠ op then s
  else
    let s := utpBoundary s (ctxHalf s (pktClass k))
    if pktGood k then f s k else pktBad s k

/-- The way of a packet for another package from a half: what fails its checks, its hops or its route is counted
and has none (R351, R354). -/
def transitWay (s : State) (h : Half) (k : UtpPkt) : State × Option Nat :=
  let s := utpBoundary s h
  if !pktHeadOk k then (count s (.utp h) 0x50 1, none)
  else if k.hops = 0 then (count s (.utp h) 0x60 1, none)
  else match routePort s h k with
    | none => (count s (.utp h) 0x58 1, none)
    | some p => (s, some p)

/-- Forward a whole packet for another package (R351 to R353). -/
def transit (s : State) (h : Half) (k : UtpPkt) : State :=
  if !alive s || halfFenced s h || k.dst = ownPkg s then s
  else match transitWay s h k with
    | (s, none) => s
    | (s, some p) => emitPkt s h { k with hops := k.hops - 1 } p 0

/-- A packet that has come in whole at a port of a half. -/
def packetIn (s : State) (h : Half) (k : UtpPkt) : State :=
  if k.dst ≠ ownPkg s then transit s h k
  else if alive s && 6 < k.opcode.toNat then count s (.utp h) 0x50 1
  else
    match k.opcode.toNat with
    | 0 => pktTo 0 dataPacket s k
    | 1 => pktTo 1 ackPacket s k
    | 2 => pktTo 2 nakPacket s k
    | 3 => pktTo 3 rnrPacket s k
    | 4 => pktTo 4 openPacket s k
    | 5 => pktTo 5 openAckPacket s k
    | _ => pktTo 6 downPacket s k

def execTransitForward (h : Half) (k : UtpPkt) (s : State) : Out := .next (transit s h k)
def execDataPacket (k : UtpPkt) (s : State) : Out := .next (pktTo 0 dataPacket s k)
def execAckPacket (k : UtpPkt) (s : State) : Out := .next (pktTo 1 ackPacket s k)
def execNakPacket (k : UtpPkt) (s : State) : Out := .next (pktTo 2 nakPacket s k)
def execRnrPacket (k : UtpPkt) (s : State) : Out := .next (pktTo 3 rnrPacket s k)
def execOpenPacket (k : UtpPkt) (s : State) : Out := .next (pktTo 4 openPacket s k)
def execOpenAckPacket (k : UtpPkt) (s : State) : Out := .next (pktTo 5 openAckPacket s k)
def execDomainDownPacket (k : UtpPkt) (s : State) : Out := .next (pktTo 6 downPacket s k)

/-! ### Timers of a context (R357) -/

/-- RETRY_LIMIT, 0 acting as 1. -/
def retryLimit (s : State) (h : Half) : Nat := max 1 (field (utpCfg s h) 13 10)

/-- The retransmit timer ends. -/
def rtoExpiry (s : State) (key : Nat) : State :=
  let c := ctxOf s key
  let h := ctxHalf s (key % 16)
  let due := decide (c.st = .opening) || (decide (c.st = .opened) && !c.unacked.isEmpty && !c.rnrWait)
  if !alive s || !due then s
  else if retryLimit s h ≤ c.retries + 1 then ctxFail s key
  else
    let s := setCtx s key { c with retries := c.retries + 1, rto := 2 * c.rto, timer := s.tick.toNat }
    if c.st = .opening then sendCtl s key 4 0 else ctxResend s key

/-- ACK_DELAY ends. -/
def ackDelayExpiry (s : State) (key : Nat) : State :=
  let c := ctxOf s key
  if alive s && c.st = .opened && decide (0 < c.sinceAck) then sendCtl (setCtx s key { c with sinceAck := 0 }) key 1 0 else s

/-- RNR_DELAY ends: the sender resends. -/
def rnrDelayExpiry (s : State) (key : Nat) : State :=
  let c := ctxOf s key
  if alive s && c.st = .opened && c.rnrWait then
    ctxKick (ctxResend (setCtx s key { c with rnrWait := false, timer := s.tick.toNat }) key) key
  else s

def execRtoExpiry (ctx : BitVec 20) (s : State) : Out := .next (rtoExpiry s ctx.toNat)
def execAckDelayExpiry (ctx : BitVec 20) (s : State) : Out := .next (ackDelayExpiry s ctx.toNat)
def execRnrDelayExpiry (ctx : BitVec 20) (s : State) : Out := .next (rnrDelayExpiry s ctx.toNat)

/-- UTP_CTX_CTL.RESET: the selected context, if this half's engine holds it, is CLOSED again (R356). -/
def ctxCtlReset (s : State) (h : Half) : State :=
  let key := field (regWord s ((Frame.utp h).base + 0x18)) 19 0
  if ctxHalf s (key % 16) ≠ h then s
  else
    let s := earlyRenew (ctxEnd s key .closed stPeerAbandoned) key
    setCtx s key { ctxOf s key with inc := none, psn := 0, expPsn := 0 }

def execUtpCtxReset (h : Half) (s : State) : Out :=
  .next (if halfFenced s h then s else guardOp s (.utp h) fun s => ctxCtlReset s h)

/-! ### Links (R346 to R349) -/

/-- Another port when port `p` goes down: a packet in transit from `p` has no further blocks, and one toward `p` is
dropped from here on (R348, R353; DESIGN CHOICE, log entry 46). -/
def portCut (p : Nat) (v : Port) : Port :=
  let own (src : Nat) : Bool := decide (1 + 8 * p ≤ src ∧ src < 9 + 8 * p)
  { v with link := { v.link with
    txq := v.link.txq.filter fun x => !own x.1
    owner := v.link.owner.filter fun x => !own x.2
    cut := v.link.cut.map fun x => if x.2.1 = p then (x.1, (63, 0)) else x } }

/-- A port goes back to SIGNAL; a departure from UP is counted, and the link's buffers are dropped, with what they held of
other ports' packets in transit. -/
def portSignal (s : State) (p : Nat) : State :=
  let v := portOf s p
  let s := if v.st = .up then
      portCount (v.link.txq.foldl (fun s x => transitFreed s x.1) { s with ports := s.ports.map fun x => (x.1, portCut p x.2) }) p 0x28 1
    else s
  setPort s p { v with st := .signal, lock := 0, loop := false, link := linkReset }

/-- A link fails: it trains again, and the failure is logged (R348). -/
def portFail (s : State) (p cause : Nat) : State := logLinkFail (portSignal s p) (16 + p) cause

/-- Whether a port has a role and is not fenced (R349). -/
def portLive (s : State) (p : Nat) : Bool := decide ((portOf s p).st ≠ .disabled) && !engineFenced s (p / 2)

/-- UTP_LINK_CFG.REPLAY_LIMIT of a port's half, 0 acting as 1. -/
def portReplayLimit (s : State) (p : Nat) : Nat :=
  max 1 (field (regAct s ((Frame.utp (if p < 14 then 0 else 1)).base + 0x0C)) 4 0)

/-- A control block (R346). -/
def sendControl (s : State) (p : Nat) (payload : List Byte) : State :=
  let l := (portOf s p).link
  blockPut s p l l.nextSeq 64 payload

/-- Whether an Uttupel port is UP and the domain lets it send (R341, R359). -/
def portSends (s : State) (p : Nat) : Bool :=
  portLive s p && decide ((portOf s p).role = 1) && decide ((portOf s p).st = .up) && alive s

/-- A RETRY: the sender counts the request and resends from it (R348). -/
def blockRetry (s : State) (p seq : Nat) : State :=
  let v := portOf s p
  if !portSends s p then s
  else
    let l := v.link
    let l := { l with lastReq := some seq, reqCount := if l.lastReq = some seq then l.reqCount + 1 else 1 }
    let s := setPort s p { v with link := l }
    if portReplayLimit s p ≤ l.reqCount then s
    else
      let s := portCount s p 0x38 1
      match findIdx? (fun x => x.1 = seq) l.replay with
      | none => s
      | some i => (l.replay.drop i).foldl (fun s x => blockPut s p (portOf s p).link x.1 x.2.1 x.2.2) s

/-- An INIT arrives (R349). -/
def portInit (s : State) (p : Nat) (pkg : BitVec 16) (port : BitVec 6) : State :=
  let v := portOf s p
  if !portLive s p || v.role ≠ 1 || v.st ≠ .init then s
  else
    let v := { v with nbrPkg := pkg, nbrPort := port }
    if pkg = ownPkg s then setPort s p { v with loop := true }
    else setPort s p { v with loop := false, st := .up, link := linkReset }

/-- The way of a packet in transit ends at a port and lane: its lane at the port it leaves on is free for others. -/
def cutEnd (s : State) (p vl : Nat) : State :=
  let v := portOf s p
  let q := (sget (63, 0) v.link.cut vl).1
  let s := setPort s p { v with link := { v.link with cut := sdel v.link.cut vl } }
  if q < 28 then
    let w := portOf s q
    setPort s q { w with link := { w.link with owner := w.link.owner.filter fun x => x.2 ≠ 1 + 8 * p + vl } }
  else s

/-- A block of a packet in transit goes on at once, on the way its first block fixed (R353): lane `lane` of port
`q`, or nowhere when the packet is dropped or the port is down. It takes up its receive block until it leaves (R347). -/
def cutOn (s : State) (p vl q lane : Nat) (sop eop : Bool) (payload : List Byte) (pois : BitVec 32) : State :=
  let s := if portUp s q then
      blockTo s (portHalf p) q (1 + 8 * p + vl)
        (lane + (if sop then 8 else 0) + (if eop then 16 else 0) + 128 * pois.toNat) payload
    else blockFreed s p vl
  if eop then setPort s p { portOf s p with link := { (portOf s p).link with cut := sdel (portOf s p).link.cut vl } } else s

/-- The first block of a packet in transit: its header, with HOPS one less and its LEVEL, leaves in it, and the
routing entry of this moment fixes the way of the whole packet (R350 to R353). -/
def cutStart (s : State) (p vl : Nat) (eop : Bool) (k : UtpPkt) (payload : List Byte) (pois : BitVec 32) : State :=
  let h := portHalf p
  let way (s : State) (q lane : Nat) : State :=
    setPort s p { portOf s p with link := { (portOf s p).link with cut := sset (portOf s p).link.cut vl (q, lane) } }
  if halfFenced s h then blockFreed s p vl
  else match transitWay s h k with
    | (s, none) => let s := blockFreed s p vl; if eop then s else way s 63 0
    | (s, some q) =>
      let k := atLevel s h { k with hops := k.hops - 1 }
      cutOn (way s q (pktLane k)) p vl q (pktLane k) true eop ((payload.set 4 k.ctl).set 5 k.hops) pois

/-- A data block in order: a packet in transit goes on block by block, and one for this package gathers on its
lane with its poison and is taken when its last block is here (R306, R346). -/
def takeBlock (s : State) (p hdr : Nat) (payload : List Byte) (pois : BitVec 32) : State :=
  let v := portOf s p
  let l := v.link
  let vl := fieldN hdr 26 24
  let sop := decide (fieldN hdr 29 29 = 1)
  let eop := decide (fieldN hdr 30 30 = 1)
  let gather (s : State) (got : List Byte) (pois : BitVec 32) : State :=
    let s := blockFreed s p vl
    let v := portOf s p
    let put (b : List Byte) (m : BitVec 32) : State :=
      setPort s p { v with link := { v.link with partials := sset v.link.partials vl b, marks := sset v.link.marks vl m } }
    if eop then packetIn (put [] 0) (portHalf p) { pktOfBytes got with poison := pois } else put got pois
  let s := setPort s p { v with link := { l with rxExp := (l.rxExp + 1) % 4096 } }
  if sop then
    let s := if shas l.cut vl then cutEnd s p vl else s
    let k := pktOfBytes payload
    if k.dst = ownPkg s then gather s payload pois else cutStart s p vl eop k payload pois
  else if shas l.cut vl then cutOn s p vl (sget (63, 0) l.cut vl).1 (sget (63, 0) l.cut vl).2 false eop payload pois
  else gather s (sget [] l.partials vl ++ payload) (sget 0 l.marks vl ||| pois)

/-- The codewords corrected and not correctable count (R347). -/
def fecCount (s : State) (p : Nat) (b : RxBlock) : State :=
  let s := if b.corr = 0 then s else portCount s p 0x18 b.corr.toNat
  if b.unc = 0 then s else portCount s p 0x20 b.unc.toNat

/-- A link block arrives (R346 to R348). Codewords corrected and not correctable count; a block that one of the
latter touched, or whose CRC fails, is discarded with what comes after it until a block carries the expected SEQ
again, and RETRY is sent. An idle block answers a data block when no data block does (DESIGN CHOICE, log entry
46). While the domain is down, only the credits for DOMAIN_DOWN count (R359). -/
def blockReceive (s : State) (p : Nat) (block : RxBlock) : State :=
  let v := portOf s p
  let b := bslice block.bytes 0 256
  let hdr := bget b 0 8
  let good := !block.bad && decide (bget b 252 4 = (crc32 (b.take 252)).toNat)
  if !portLive s p || v.role ≠ 1 then s
  else
    let s := fecCount s p block
    if v.st = .init then
      if good && decide (fieldN hdr 28 27 = 2) && decide (bget b 8 1 = 2) then
        portInit s p (BitVec.ofNat 16 (bget b 10 2)) (BitVec.ofNat 6 (bget b 12 1))
      else s
    else if v.st ≠ .up then s
    else if s.coh.down then
      let l := takeCredit (takeAck v.link (fieldN hdr 23 12)) (fieldN hdr 34 32) (fieldN hdr 46 35) 1 4096
      if good then linkPump (l.txq.length + 1) (setPort s p { v with link := l }) p else s
    else if !alive s then s
    else if !good then
      sendControl (setPort s p { v with link := { v.link with discard := true } }) p ([1, 0] ++ leBytes 2 v.link.rxExp)
    else if v.link.discard && decide (fieldN hdr 11 0 ≠ v.link.rxExp) then s
    else
      let l := { takeCredit (takeAck v.link (fieldN hdr 23 12)) (fieldN hdr 34 32) (fieldN hdr 46 35) 1 4096 with discard := false }
      let s := linkPump (l.txq.length + 1) (setPort s p { v with link := l }) p
      let kind := fieldN hdr 28 27
      if kind = 0 ∧ fieldN hdr 11 0 = l.rxExp then
        let s := takeBlock s p hdr (bslice b 8 244) block.poison
        if portSends s p && decide ((portOf s p).link.nextSeq = l.nextSeq) then blockIdle s p else s
      else if kind = 2 ∧ bget b 8 1 = 1 then blockRetry s p (bget b 10 2 % 4096)
      else s

def execLinkBlockReceive (p : Fin 28) (block : RxBlock) (s : State) : Out := .next (blockReceive s p.val block)
def execLinkRetry (p : Fin 28) (seq : BitVec 12) (s : State) : Out := .next (blockRetry s p.val seq.toNat)

/-- One SEQ was requested REPLAY_LIMIT times in a row (R348). -/
def execLinkReplayLimit (p : Fin 28) (s : State) : Out :=
  let v := portOf s p.val
  .next (if portLive s p.val && v.role = 1 && v.st = .up && portReplayLimit s p.val ≤ v.link.reqCount then portFail s p.val 1 else s)

/-- The ACK did not advance while blocks were outstanding (R348). -/
def execLinkAckTimeout (p : Fin 28) (s : State) : Out :=
  let v := portOf s p.val
  .next (if portLive s p.val && v.role = 1 && v.st = .up && !v.link.replay.isEmpty then portFail s p.val 2 else s)

/-- Power and lock on all eight wavelengths (R349). -/
def execWavelengthLock (p : Fin 28) (s : State) : Out :=
  let v := portOf s p.val
  .next (if portLive s p.val && v.st = .signal then setPort s p.val { v with st := .aligned, lock := 0xFF } else s)

/-- Deskew and codeword lock held for 1 ms (R349): an Uttupel port sends INIT, unless the domain is down (R359),
and an Ethernet port is up. -/
def execAlignHoldDone (p : Fin 28) (s : State) : Out :=
  let v := portOf s p.val
  if !portLive s p.val || v.st ≠ .aligned then .next s
  else if v.role = 1 then
    let s := setPort s p.val { v with st := .init }
    .next (if s.coh.down then s
      else sendControl s p.val
        ([2, 0] ++ leBytes 2 (ownPkg s).toNat ++ [BitVec.ofNat 8 p.val, 0, 0, 0] ++ leBytes 4 (incarnation s).toNat))
  else .next (setPort s p.val { v with st := .up })

def execInitBlock (p : Fin 28) (pkg : BitVec 16) (port : BitVec 6) (_inc : BitVec 32) (s : State) : Out :=
  .next (portInit s p.val pkg port)

/-- A port that is not UP retries from SIGNAL (R349). -/
def execTrainingRetry (p : Fin 28) (s : State) : Out :=
  .next (if portLive s p.val && (portOf s p.val).st ≠ .up then portSignal s p.val else s)

/-- Power or lock is lost (R349). -/
def execOpticalLockLoss (p : Fin 28) (s : State) : Out :=
  let v := portOf s p.val
  .next (if portLive s p.val && v.st ≠ .signal then portSignal s p.val else s)

end Sys2Proof.Machine
end

