-- ==== Sys2Proof/Machine/Registers.lean ====
section
/-! DEFINITION. Register writes and reads by server cores: windows, latches, guards, posted writes and
shadow copies (R429 to R439), what a write of each register does, and the loads and stores of server
cores (R301, R326). -/

namespace Sys2Proof.Machine
open Sys2Proof

/-! ### Values -/

/-- A write to a register, its words already put together: the window, the bits it carries as a mask,
and their value. -/
structure RegWr where
  win : Nat
  mask : Nat
  val : Nat
  deriving DecidableEq, Repr

/-- The bits of a register's fields of some accesses. -/
def accMask (r : Reg) (p : Acc → Bool) : Nat :=
  r.flds.foldl (fun a f => if p f.acc then a + (2 ^ (f.hi + 1) - 2 ^ f.lo) else a) 0

/-- Bits of `a` that are not in `b`. -/
def nandN (a b : Nat) : Nat := a - (a &&& b)

/-- The value that the bits of `m` take in a window (R432). -/
def windowVal (w : RegWr) (m old : Nat) : Nat :=
  let m := m &&& w.mask
  let x := w.val &&& m
  match w.win with
  | 0 => nandN old m ||| x
  | 1 => old ||| x
  | 2 => nandN old x
  | _ => old ^^^ x

/-- The bits of sticky fields that a write clears: those written 1 through the clear alias. -/
def clearVal (w : RegWr) (r : Reg) : Nat := if w.win = 2 then w.val &&& w.mask &&& accMask r (· = .rs) else 0

/-- The value that write-only fields take, in the normal window and the set alias. -/
def actVal (w : RegWr) (r : Reg) : Nat := if w.win < 2 then w.val &&& w.mask &&& accMask r (· = .wo) else 0

/-! ### What a write of each register does -/

/-- Store a register's new value. -/
def storeReg (s : State) (f : Frame) (r : Reg) (v : Nat) : State :=
  if r.wide then setReg64 s (f.base + r.off) v else setReg s (f.base + r.off) (BitVec.ofNat 32 v)

/-- A register whose fields are all stored: RW and RW-G bits take their new value, sticky bits are
cleared. `m` is the mask of the bits that the guard lets through. -/
def writeStored (s : State) (f : Frame) (r : Reg) (w : RegWr) (m : Nat) : State :=
  let old := storedReg s f r
  let new := nandN (windowVal w m old) (clearVal w r)
  if new = old then s else storeReg s f r new

/-- Clear a frame's WDROP. -/
def clearWdrop (s : State) (f : Frame) (b : Bool) : State :=
  if b then { s with frames := { s.frames with wdrop := s.frames.wdrop.filter fun k => k ≠ frameKey f } } else s

/-- FRAME_STAT and UNLOCK (R433, R434). -/
def unlock (s : State) (f : Frame) (key : Nat) : State :=
  { s with frames := { s.frames with
    lock := if key = 0xC3A5 then ninsert s.frames.lock (frameKey f) else s.frames.lock.filter fun k => k ≠ frameKey f } }

def writeTail (s : State) (f : Frame) (r : Reg) (w : RegWr) : State :=
  if r.off = 0x3FFC then (if w.win < 2 then unlock s f w.val else s)
  else
    let c := clearVal w r
    let s := clearWdrop s f (c.testBit 1)
    if c.testBit 2 then { s with frames := { s.frames with gviol := s.frames.gviol.filter fun k => k ≠ frameKey f } } else s

/-- A gauge set: CLEAR, and sticky SAT bits. -/
def writeGauge (s : State) (key off : Nat) (r : Reg) (w : RegWr) : State :=
  if off = 0x2C then (if (actVal w r).testBit 0 then gaugeClr s key else s)
  else if off = 0x28 then
    let g := gaugeOf s key
    { s with gauges := sset s.gauges key { g with sat := BitVec.ofNat 5 (nandN g.sat.toNat (clearVal w r)) } }
  else s

def writeId (s : State) (r : Reg) (w : RegWr) (m : Nat) : State :=
  if 0x200 ≤ r.off ∧ r.off % 16 = 8 then
    let k := coreAt r.off
    if (windowVal w m (bn (coreOf s k).running)).testBit 0 then
      coreRun s ⟨halfOf (k / 48), ⟨k % 48, Nat.mod_lt _ (by decide)⟩⟩
    else s
  else match r.off with
  | 0x0100 =>
    let v := actVal w r
    let s := if v.testBit 0 then attach s else s
    if v.testBit 1 && decide (s.drv.st = .attached) then driverLoss s 2 else s
  | 0x0104 =>
    let c := clearVal w r
    { s with drv := { s.drv with attachFail := s.drv.attachFail && !c.testBit 2, lateHb := s.drv.lateHb && !c.testBit 3 } }
  | 0x0108 => if w.win < 2 then heartbeat s else s
  | 0x0120 => if (windowVal w m 0).testBit 0 && canReset s then packageReset s 1 else s
  | _ => writeStored s .id r w m

def writeCol (s : State) (r : Reg) (w : RegWr) (m : Nat) : State :=
  let f := Frame.col
  match r.off with
  | 0x0000 => clearWdrop s f ((clearVal w r).testBit 1)
  | 0x0028 =>
    let s := writeStored s f r w m
    if anyQueueEnabled s then { s with col := { s.col with featPend := true } } else applyFeatures s
  | 0x0054 =>
    let s := writeStored s f r w m
    if (actVal w r).testBit 2 then updateGo s else s
  | 0x005C => if (windowVal w m 0).testBit 0 then updateConfirm s else s
  | 0x0180 => if (actVal w r).testBit 0 then logCommit s else s
  | _ => writeStored s f r w m

def writeBlt (s : State) (r : Reg) (w : RegWr) (m : Nat) : State :=
  if 0x100 ≤ r.off then writeGauge s (gaugeSelKey s .blt) (r.off - 0x100) r w
  else if r.off = 0 then clearWdrop s .blt ((clearVal w r).testBit 1)
  else writeStored s .blt r w m

/-- A setting of a Ruler group changed, by its offset from 0x10. -/
def rulWith (v : RulSet) (off x : Nat) : RulSet :=
  match off with
  | 0x00 => { v with ctl := BitVec.ofNat 32 x }
  | 0x04 => { v with peak := BitVec.ofNat 32 x }
  | 0x08 => { v with minRatio := BitVec.ofNat 32 x }
  | 0x0C => { v with gamma := BitVec.ofNat 32 x }
  | 0x10 => { v with warmup := BitVec.ofNat 32 x }
  | 0x18 => { v with decay := BitVec.ofNat 48 x }
  | 0x20 => { v with period := BitVec.ofNat 48 x }
  | _ => v

/-- What a write of an FP32 setting stores: −0 as +0, and nothing for a negative, infinite or NaN value
(R256). -/
def rulFloat (x : Nat) : Option Nat :=
  if x = 0x80000000 then some 0 else if x < 0x7F800000 then some x else none

def writeRul (s : State) (r : Reg) (w : RegWr) (m : Nat) : State :=
  let f := Frame.rul
  let g := rulSel s
  let v := rulOf s g
  if 0x10 ≤ r.off ∧ r.off < 0x38 then
    let off := r.off - 0x10
    let x := windowVal w m (rulField v.sh off)
    let put (x : Nat) : State := setRul s g { v with sh := rulWith v.sh off x }
    if 4 ≤ off ∧ off ≤ 0x0C then
      match rulFloat x with
      | some x => put x
      | none => { s with badval := true }
    else put x
  else match r.off with
  | 0x0008 =>
    let c := clearVal w r
    let s := clearWdrop s f (c.testBit 1)
    if c.testBit 2 then { s with badval := false } else s
  | 0x000C => if (actVal w r).testBit 0 then rulApply s else s
  | 0x0200 =>
    let s := writeStored s f r w m
    rulProbe s (storedReg s f r)
  | _ => writeStored s f r w m

/-- SCB_QCTL and SCB_CQCTL: 1 enable, 2 disable, 3 reset. -/
def writeQctl (s : State) (h : Half) (v : Nat) : State :=
  let q := v % 4096
  match v / 4096 % 4 with
  | 1 => qctlEnable s h q
  | 2 => qctlDisable s h q
  | 3 => qctlReset s h q
  | _ => s

def writeCqctl (s : State) (h : Half) (v : Nat) : State :=
  let n := v % 4096
  match v / 4096 % 4 with
  | 1 => cqctlEnable s h n
  | 2 => cqctlDisable s h n
  | 3 => cqctlReset s h n
  | _ => s

def writeScb (s : State) (h : Half) (r : Reg) (w : RegWr) (m : Nat) : State :=
  let f := Frame.scb h
  let v := actVal w r
  let acts := decide (w.win < 2)
  match r.off with
  | 0x0008 => if acts then doorbell s h (v % 4096) (v / 4096) else s
  | 0x000C => if acts then cqDoorbell s h (v % 4096) (v / 4096) else s
  | 0x0020 => if acts then writeQctl s h v else s
  | 0x0024 => if acts then writeCqctl s h v else s
  | 0x003C =>
    let i := 1024 * h.val + field (regWord s (f.base + 0x38)) 9 0
    { s with sems := sset s.sems i (BitVec.ofNat 32 (windowVal w m (semOf s i).toNat)) }
  | 0x005C =>
    let n := field (regWord s (f.base + 0x58)) 11 0
    if (clearVal w r).testBit 2 then setCq s h n { cqOf s h n with msiFault := false } else s
  | _ => writeStored s f r w m

/-- DMA_CTL: HIGH, then PAUSE, then RUN (R206 to R209). -/
def writeDmaCtl (s : State) (d : DmaId) (r : Reg) (w : RegWr) (m : Nat) : State :=
  let v := dmaOf s d
  let old := pack [(0, bn (v.st ≠ .idle)), (1, bn v.pauseReq), (2, bn (dmaHigh s d))]
  let new := windowVal w m old
  let s := setReg s ((Frame.dma d.h).base + r.off) (BitVec.ofNat 32 (new &&& 4))
  let s := if new.testBit 1 = v.pauseReq then s else if new.testBit 1 then dmaPause s d else dmaResume s d
  if new.testBit 0 then dmaRun s d else s

def writeDma (s : State) (h : Half) (r : Reg) (w : RegWr) (m : Nat) : State :=
  let d := dmaAt h r.off
  let v := dmaOf s d
  if dmaFenced s d then s
  else match r.off % 0x40 with
  | 0x00 => writeDmaCtl s d r w m
  | 0x08 => dmaDescPtr s d (BitVec.ofNat 64 (windowVal w m v.ptr.toNat))
  | 0x20 => setDma s d { v with bindSh := BitVec.ofNat 12 (windowVal w m v.bindSh.toNat) }
  | _ => s

def writeSrp (s : State) (h : Half) (r : Reg) (w : RegWr) (m : Nat) : State :=
  if 0x100 ≤ r.off then writeGauge s (gaugeSelKey s (.srp h)) (r.off - 0x100) r w
  else writeStored s (.srp h) r w m

def writeFed (s : State) (h : Half) (r : Reg) (w : RegWr) (m : Nat) : State :=
  if r.off = 0x24 then (if w.win < 2 then swrDoorbell s h (actVal w r) else s) else writeStored s (.fed h) r w m

/-- LIG_CFG takes a REPLAY_LIMIT of 0 as 1. -/
def writeLig (s : State) (h : Half) (r : Reg) (w : RegWr) (m : Nat) : State :=
  let s := writeStored s (.lig h) r w m
  let a := (Frame.lig h).base + 4
  if r.off = 4 ∧ field (regWord s a) 4 0 = 0 then setReg s a (setField (regWord s a) 4 0 1) else s

def writeUtp (s : State) (h : Half) (r : Reg) (w : RegWr) (m : Nat) : State :=
  let f := Frame.utp h
  if 0x800 ≤ r.off ∧ (r.off - 0x800) % 0x40 = 0x14 then
    let b := (r.off - 0x800) / 0x40
    let v := actVal w r
    if w.win < 2 then rxDoorbell (txDoorbell s h b (BitVec.ofNat 16 v)) h b (BitVec.ofNat 16 (v / 65536)) else s
  else match r.off with
  | 0x0014 =>
    let k := routeKey s h
    { s with routesSh := sset s.routesSh k (BitVec.ofNat 32 (windowVal w m (routeShown s k).toNat)) }
  | 0x0020 =>
    let s := writeStored s f r w m
    if (windowVal w m 0).testBit 0 then ctxCtlReset s h else s
  | _ => writeStored s f r w m

/-- INK_CFG is active at once when no operation runs (04, *Registers*). -/
def writeInk (s : State) (q : QuireId) (r : Reg) (w : RegWr) (m : Nat) : State :=
  if 0x100 ≤ r.off then
    writeGauge s (gaugeKey 1 (q.num * 8 + (r.off - 0x100) / 0x30)) ((r.off - 0x100) % 0x30) r w
  else
    let s := writeStored s (inkFrame q) r w m
    if (inkOf s q).running.isNone then inkBoundary s q else s

def writeNib (s : State) (q : QuireId) (r : Reg) (w : RegWr) (m : Nat) : State :=
  let off := r.off
  if 0x100 ≤ off ∧ off < 0x500 then
    if off % 0x40 = 0x18 ∧ (actVal w r).testBit 0 then nibStop s (nibNth q ((off - 0x100) / 0x40)) else s
  else if 0x1000 ≤ off then
    writeGauge s (gaugeKey 2 (q.num * 64 + (off - 0x1000) / 0x30)) ((off - 0x1000) % 0x30) r w
  else writeStored s (.nib q.h q.q) r w m

/-- A write that the guard has passed, to a register of an unfenced frame; `m` holds the RW bits and, when
the guard lets them through, the RW-G bits. -/
def writeReg (s : State) (f : Frame) (r : Reg) (w : RegWr) (m : Nat) : State :=
  if 0x3FF0 ≤ r.off then writeTail s f r w
  else match f with
  | .id => writeId s r w m
  | .col => writeCol s r w m
  | .blt => writeBlt s r w m
  | .rul => writeRul s r w m
  | .cohB => if r.off = 0 then clearWdrop s f ((clearVal w r).testBit 7) else writeStored s f r w m
  | .memB | .lfpB | .lfp _ | .mem _ | .coh _ | .xlt _ => writeStored s f r w m
  | .scb h => writeScb s h r w m
  | .dma h => writeDma s h r w m
  | .srp h => writeSrp s h r w m
  | .fed h => writeFed s h r w m
  | .lig h => writeLig s h r w m
  | .utp h => writeUtp s h r w m
  | .ink h q => writeInk s ⟨h, q⟩ r w m
  | .nib h q => writeNib s ⟨h, q⟩ r w m

/-! ### Guard, latches and posting -/

/-- A committed write through the guard (R433). -/
def guardedWrite (s : State) (f : Frame) (r : Reg) (w : RegWr) : State :=
  let rw := accMask r (· = .rw)
  let g := accMask r (· = .rwg)
  if g = 0 then writeReg s f r w rw
  else if frameOpen s f then
    writeReg { s with frames := { s.frames with lock := s.frames.lock.filter fun k => k ≠ frameKey f } } f r w (rw ||| g)
  else writeReg { s with frames := { s.frames with gviol := ninsert s.frames.gviol (frameKey f) } } f r w rw

/-- The write that a word at an offset makes, with the low word staged before a high word. With none staged
the low word keeps its value (R431). -/
def regWr (r : Reg) (win off : Nat) (v : Word) (low : Option Word) : RegWr :=
  if off = r.off then ⟨win, 2 ^ 32 - 1, v.toNat⟩
  else match low with
  | some l => ⟨win, 2 ^ 64 - 1, v.toNat * 2 ^ 32 + l.toNat⟩
  | none => ⟨win, 2 ^ 64 - 2 ^ 32, v.toNat * 2 ^ 32⟩

/-- A write takes effect, at an address of register space. -/
def commitWrite (s : State) (addr : Nat) (v : Word) (low : Option Word) : State :=
  match frameAt addr with
  | none => s
  | some f =>
    let o := addr - f.base
    match regAt f (o % 0x4000) with
    | none => s
    | some r => if frameFenced s f then s else guardedWrite s f r (regWr r (o / 0x4000) (o % 0x4000) v low)

/-- Whether a register takes posted writes (R435). -/
def regPosted (f : Frame) (r : Reg) : Bool :=
  f.posted || match f with
    | .scb _ => r.off = 0x20 || r.off = 0x24 || r.off = 0x3C
    | _ => false

/-- The key of a core's latch in a frame. -/
def latchKey (f : Frame) (core : Nat) : Nat := frameKey f * 96 + core
def latchOf (s : State) (f : Frame) (core : Nat) : Latch := sget ⟨none, none⟩ s.frames.latches (latchKey f core)
def setLatch (s : State) (f : Frame) (core : Nat) (l : Latch) : State :=
  { s with frames := { s.frames with
    latches := if l = ⟨none, none⟩ then sdel s.frames.latches (latchKey f core) else sset s.frames.latches (latchKey f core) l } }

/-- The staged low word that a write at an address commits: that of the same register in the same
window. -/
def stagedFor (l : Latch) (addr : Nat) : Option Word :=
  match l.wr with
  | some (a, v) => if a + 4 = addr then some v else none
  | none => none

/-- A core's word write to a register frame (R431, R435). -/
def frameWrite (s : State) (c : CoreId) (f : Frame) (addr : Nat) (v : Word) : State :=
  let o := addr - f.base
  let l := latchOf s f c.num
  let s := setLatch s f c.num ⟨none, none⟩
  if frameFenced s f then s
  else match regAt f (o % 0x4000) with
  | none => s
  | some r =>
    if r.wide && o % 0x4000 = r.off then setLatch s f c.num ⟨none, some (addr, v)⟩
    else
      let low := stagedFor l addr
      if !regPosted f r then commitWrite s addr v low
      else if frameBusy s f then { s with frames := { s.frames with wdrop := ninsert s.frames.wdrop (frameKey f) } }
      else { s with frames := { s.frames with posted := sset s.frames.posted (frameKey f) (.write c addr v low) } }

/-- A posted write takes effect and BUSY clears (R435); a RUL_APPLY that must wait keeps it set (R258). -/
def postedDone (s : State) (f : Frame) : State :=
  match s.frames.posted.find? fun p => p.1 = frameKey f with
  | none => s
  | some (_, p) =>
    if rulWaits s f then s
    else
    let s := { s with frames := { s.frames with posted := sdel s.frames.posted (frameKey f) } }
    let s := match p with
      | .taken => s
      | .write _ addr v low => commitWrite s addr v low
    if rulWaits s f then { s with frames := { s.frames with posted := sset s.frames.posted (frameKey f) .taken } } else s

/-- A core's word read of a register frame, with the latch (R431). A read that shows an undefined NIB_PC
uses up its free bytes. -/
def frameRead (s : State) (c : CoreId) (f : Frame) (addr : Nat) : State × Word :=
  let o := (addr - f.base) % 0x4000
  let l := latchOf s f c.num
  match regAt f o with
  | none => (setLatch s f c.num { l with rd := none }, 0)
  | some r =>
    let v := readWord s f o
    let s := if f.kind = 2 ∧ 0x100 ≤ o ∧ o < 0x500 ∧ o % 0x40 = 4 then { s with free := s.free + 4 } else s
    if r.wide && o = r.off then (setLatch s f c.num { l with rd := some (f.base + o, readWord s f (o + 4)) }, v)
    else
      let s := setLatch s f c.num { l with rd := none }
      match l.rd with
      | some (a, x) => (s, if r.wide && a + 4 = f.base + o then x else v)
      | none => (s, v)

/-! ### Apertures and the commands -/

/-- The base of the local-store apertures (R438). -/
def apertureBase : Nat := 0xF00100000000

/-- The Nib and offset that an aperture address names. -/
def apertureAt (addr : Nat) : Option (NibId × Nat) :=
  let k := (addr - apertureBase) / 0x40000
  if apertureBase ≤ addr ∧ k < 4608 then some (nibIdOf k, (addr - apertureBase) % 0x40000) else none

/-- The exception of a core's register access of another width or alignment (R429). -/
def regMisfit (addr log2w : Nat) : Bool := log2w ≠ 2 || addr % 4 ≠ 0

/-- A core's store to register space. -/
def regStore (s : State) (c : CoreId) (addr log2w x : Nat) : State :=
  match apertureAt addr with
  | some (n, off) => apertureAccess s c n off log2w (some x)
  | none =>
    if regMisfit addr log2w then coreExc s c.num excStore
    else
      let s := coreKey c.num (fun c => { c with exc := none }) s
      match frameAt addr with
      | none => s
      | some f => frameWrite s c f addr (BitVec.ofNat 32 x)

/-- A core's load from register space; an offset that no chapter defines reads zero (R437). -/
def regLoad (s : State) (c : CoreId) (addr log2w : Nat) : State :=
  match apertureAt addr with
  | some (n, off) => apertureAccess s c n off log2w none
  | none =>
    if regMisfit addr log2w then coreExc s c.num excLoad
    else match frameAt addr with
    | none => coreResult s c.num 0
    | some f => let r := frameRead s c f addr; coreResult r.1 c.num r.2.toNat

/-- Whether an address lies in register space (R301). -/
def inRegs (addr : Nat) : Bool := decide (regSpace ≤ addr ∧ addr < regSpace + 2 ^ 44)

/-- Whether an access of 2^log2w bytes lies in one line. -/
def inLine (addr log2w : Nat) : Bool := decide (addr % 128 + 2 ^ log2w ≤ 128)

/-- CORE_LOAD (R301, R326): memory, or register space. A load that crosses a line is two loads of the
core, and so two commands. -/
def execCoreLoad (c : CoreId) (addr : BitVec 48) (log2w : Fin 4) (s : State) : Out :=
  .next (if !coreRuns s c then s
    else if inRegs addr.toNat then regLoad s c addr.toNat log2w.val
    else if inLine addr.toNat log2w.val then coreAccess s c.num (.load addr log2w)
    else s)

/-- CORE_STORE (R301, R326). -/
def execCoreStore (c : CoreId) (addr : BitVec 48) (log2w : Fin 4) (value : BitVec 64) (s : State) : Out :=
  .next (if !coreRuns s c then s
    else if inRegs addr.toNat then regStore s c addr.toNat log2w.val value.toNat
    else if inLine addr.toNat log2w.val then coreAccess s c.num (.store addr log2w value)
    else s)

/-- REGISTER_WRITE (R429 to R436): a core's 32-bit store to register space. -/
def execRegisterWrite (c : CoreId) (addr : BitVec 48) (value : BitVec 32) (s : State) : Out :=
  .next (if coreRuns s c && inRegs addr.toNat then regStore s c addr.toNat 2 value.toNat else s)

/-- UNLOCK (R433). -/
def unlockWrite (s : State) (f : Frame) (key : Nat) : State :=
  if frameFenced s f then s else if f.posted then postedOp s f fun s => unlock s f key else unlock s f key

def execUnlock (frame : BitVec 48) (key : BitVec 32) (s : State) : Out :=
  .next (match frameAt frame.toNat with
    | none => s
    | some f => unlockWrite s f key.toNat)

/-- POSTED_WRITE_DONE (R435). -/
def execPostedWriteDone (frame : BitVec 48) (s : State) : Out :=
  .next (match frameAt frame.toNat with
    | none => s
    | some f => postedDone s f)

end Sys2Proof.Machine
end

