-- ==== Sys2Proof/Machine/Gather.lean ====
section
/-! DEFINITION. The Scribe's choice of a head command (R171, R173): the slots are read, and the first
command that is ready runs. -/

namespace Sys2Proof.Machine
open Sys2Proof

/-- The command in a slot's 256 bytes (R174). -/
def cmdOfSlot (q : Nat) (b : List Byte) : JCmd where
  queue := BitVec.ofNat 12 q
  hdr :=
    { length := BitVec.ofNat 8 (bget b 2 1)
      flags := BitVec.ofNat 8 (bget b 3 1)
      fence := BitVec.ofNat 16 (bget b 4 2)
      cq := BitVec.ofNat 16 (bget b 6 2)
      target := BitVec.ofNat 32 (bget b 8 4)
      waitSem := BitVec.ofNat 16 (bget b 0x0C 2)
      signalSem := BitVec.ofNat 16 (bget b 0x0E 2)
      waitValue := BitVec.ofNat 32 (bget b 0x10 4)
      signalValue := BitVec.ofNat 32 (bget b 0x14 4)
      aux := BitVec.ofNat 64 (bget b 0x18 8) }
  body := bslice b 0x20 224

/-- A head command of an opcode (R183); an unknown opcode is malformed (R195). -/
def runHead (op : Nat) (poison : Bool) (c : JCmd) (s : State) : State :=
  match op with
  | 0x00 => runNop poison c s
  | 0x01 => runInlineWrite poison c s
  | 0x02 => runFenceVisible poison c s
  | 0x03 => runGaugeSnapshot poison c s
  | 0x10 => runTile poison c s
  | 0x20 => runNibLaunch poison c s
  | 0x30 => runDmaStart poison c s
  | 0x40 => runBucketPost poison c s
  | 0x41 => runScaleRound poison c s
  | 0x42 => runReissue poison c s
  | 0x43 => runBucketRelease poison c s
  | 0x44 => runBucketAbort poison c s
  | 0x50 => runRegionUpdate poison c s
  | 0x51 => runPinEpoch poison c s
  | 0x52 => runRegionInit poison c s
  | 0x60 => runFeedStreamOpen poison c s
  | 0x61 => runFeedSubmit poison c s
  | 0x62 => runFeedFlush poison c s
  | 0x63 => runFeedStreamClose poison c s
  | 0x64 => runFeedLoadMerges poison c s
  | 0x70 => runBiasFlip poison c s
  | 0x71 => runXltInvalidate poison c s
  | op => gate s c op poison false true false false fun _ s => s

/-- One queue's turn: its head slot is read, and its command is dispatched, held, or halts the queue. -/
def tryQueue (s : State) (q : Nat) : State :=
  let v := queueOf s q
  match pread s (v.base.toNat + 256 * v.head.toNat) 256 with
  | (s, none) => slotFail s q
  | (s, some pb) => runHead (bget pb.bytes 0 2) pb.poisoned (cmdOfSlot q pb.bytes) s

/-- The queues of a half at a priority whose ring holds a command, in turn after the one served last. -/
def turnOrder (s : State) (h : Half) (prio : Nat) : List Nat :=
  let l := (s.queues.filter fun p => queueHalf p.1 = h && p.2.prio.toNat = prio && queueLive s p.1).map Prod.fst
  let last := sget 0 (scbOf s h).rr prio
  (l.filter fun q => last < q) ++ l.filter fun q => q ≤ last

/-- The queues in the order the Scribe looks at them: lowest PRIO first (R173). -/
def dispatchOrder (s : State) (h : Half) : List Nat := (List.range 8).flatMap (turnOrder s h)

/-- Go through the queues until one dispatches or halts. -/
def dispatchGo : List Nat → State → State
  | [], s => s
  | q :: rest, s =>
    let r := tryQueue s q
    if r.nextId ≠ s.nextId || (queueOf r q).halted then r else dispatchGo rest r

/-- COMMAND_DISPATCH (R173). -/
def execCommandDispatch (h : Half) (s : State) : Out :=
  .next (if alive s && !halfFenced s h then dispatchGo (dispatchOrder s h) s else s)

end Sys2Proof.Machine
end

