-- ==== Sys2Proof/Machine/Dispatch.lean ====
section
/-! DEFINITION. One arm per command: each is one call of its meaning. -/

namespace Sys2Proof.Machine
open Sys2Proof

/-- The effect of a command on everything but the queue of commands that wait. -/
def exec (i : Instr) (s : State) : Host.Outcome State Fault Refusal :=
  match i with
  | .nop c => Sys2Proof.Machine.execNop c s
  | .inlineWrite c => Sys2Proof.Machine.execInlineWrite c s
  | .fenceVisible c => Sys2Proof.Machine.execFenceVisible c s
  | .gaugeSnapshot c => Sys2Proof.Machine.execGaugeSnapshot c s
  | .tileOp c => Sys2Proof.Machine.execTileOp c s
  | .nibLaunch c => Sys2Proof.Machine.execNibLaunch c s
  | .dmaStart c => Sys2Proof.Machine.execDmaStart c s
  | .bucketPost c => Sys2Proof.Machine.execBucketPost c s
  | .scaleRound c => Sys2Proof.Machine.execScaleRound c s
  | .reissue c => Sys2Proof.Machine.execReissue c s
  | .bucketRelease c => Sys2Proof.Machine.execBucketRelease c s
  | .bucketAbort c => Sys2Proof.Machine.execBucketAbort c s
  | .regionUpdate c => Sys2Proof.Machine.execRegionUpdate c s
  | .pinEpoch c => Sys2Proof.Machine.execPinEpoch c s
  | .regionInit c => Sys2Proof.Machine.execRegionInit c s
  | .feedStreamOpen c => Sys2Proof.Machine.execFeedStreamOpen c s
  | .feedSubmit c => Sys2Proof.Machine.execFeedSubmit c s
  | .feedFlush c => Sys2Proof.Machine.execFeedFlush c s
  | .feedStreamClose c => Sys2Proof.Machine.execFeedStreamClose c s
  | .feedLoadMerges c => Sys2Proof.Machine.execFeedLoadMerges c s
  | .biasFlip c => Sys2Proof.Machine.execBiasFlip c s
  | .xltInvalidate c => Sys2Proof.Machine.execXltInvalidate c s
  | .scbDoorbell h queue tail => Sys2Proof.Machine.execScbDoorbell h queue tail s
  | .scbCqDoorbell h cq head => Sys2Proof.Machine.execScbCqDoorbell h cq head s
  | .queueEnable h queue => Sys2Proof.Machine.execQueueEnable h queue s
  | .queueDisable h queue => Sys2Proof.Machine.execQueueDisable h queue s
  | .queueReset h queue => Sys2Proof.Machine.execQueueReset h queue s
  | .cqEnable h cq => Sys2Proof.Machine.execCqEnable h cq s
  | .cqDisable h cq => Sys2Proof.Machine.execCqDisable h cq s
  | .cqReset h cq => Sys2Proof.Machine.execCqReset h cq s
  | .scbSemValueWrite h value => Sys2Proof.Machine.execScbSemValueWrite h value s
  | .commandDispatch h => Sys2Proof.Machine.execCommandDispatch h s
  | .slotFetchFail queue => Sys2Proof.Machine.execSlotFetchFail queue s
  | .commandCompletion h => Sys2Proof.Machine.execCommandCompletion h s
  | .semaphoreSignal h => Sys2Proof.Machine.execSemaphoreSignal h s
  | .headWbFail queue => Sys2Proof.Machine.execHeadWbFail queue s
  | .cqEntryWriteFail h cq => Sys2Proof.Machine.execCqEntryWriteFail h cq s
  | .msiWriteFail h cq => Sys2Proof.Machine.execMsiWriteFail h cq s
  | .commandPortSubmit n => Sys2Proof.Machine.execCommandPortSubmit n s
  | .tileOpStart q => Sys2Proof.Machine.execTileOpStart q s
  | .noWgradSkipRetire q => Sys2Proof.Machine.execNoWgradSkipRetire q s
  | .operandFetchFault q => Sys2Proof.Machine.execOperandFetchFault q s
  | .outputWriteFault q => Sys2Proof.Machine.execOutputWriteFault q s
  | .streamingEnd q => Sys2Proof.Machine.execStreamingEnd q s
  | .tileOpComplete q => Sys2Proof.Machine.execTileOpComplete q s
  | .completionRecordWrite q => Sys2Proof.Machine.execCompletionRecordWrite q s
  | .ductusCredit q tag => Sys2Proof.Machine.execDuctusCredit q tag s
  | .ductusTileArrival q => Sys2Proof.Machine.execDuctusTileArrival q s
  | .ductusMergeDone q => Sys2Proof.Machine.execDuctusMergeDone q s
  | .ductusAbandon q => Sys2Proof.Machine.execDuctusAbandon q s
  | .ductusFencedReply q => Sys2Proof.Machine.execDuctusFencedReply q s
  | .paletteScrub q word upset => Sys2Proof.Machine.execPaletteScrub q word upset s
  | .gaugeClear g => Sys2Proof.Machine.execGaugeClear g s
  | .nibScalarInstruction n => Sys2Proof.Machine.execNibScalarInstruction n s
  | .csrAccess n f3 csr rd rs1 => Sys2Proof.Machine.execCsrAccess n f3 csr rd rs1 s
  | .fence n => Sys2Proof.Machine.execFence n s
  | .ecall n => Sys2Proof.Machine.execEcall n s
  | .ebreak n => Sys2Proof.Machine.execEbreak n s
  | .remoteLoadReturn n entry => Sys2Proof.Machine.execRemoteLoadReturn n entry s
  | .postedStoreFault n => Sys2Proof.Machine.execPostedStoreFault n s
  | .nibStop n => Sys2Proof.Machine.execNibStop n s
  | .apertureAccess core n off log2w wr => Sys2Proof.Machine.execApertureAccess core n off log2w wr s
  | .vadd n z => Sys2Proof.Machine.execVadd n z s
  | .vsub n z => Sys2Proof.Machine.execVsub n z s
  | .vmul n z => Sys2Proof.Machine.execVmul n z s
  | .vfma n z => Sys2Proof.Machine.execVfma n z s
  | .vfnms n z => Sys2Proof.Machine.execVfnms n z s
  | .vmin n z => Sys2Proof.Machine.execVmin n z s
  | .vmax n z => Sys2Proof.Machine.execVmax n z s
  | .vdiv n z => Sys2Proof.Machine.execVdiv n z s
  | .vsqrt n z => Sys2Proof.Machine.execVsqrt n z s
  | .vexp n z => Sys2Proof.Machine.execVexp n z s
  | .vlog n z => Sys2Proof.Machine.execVlog n z s
  | .vrsqrt n z => Sys2Proof.Machine.execVrsqrt n z s
  | .vtanh n z => Sys2Proof.Machine.execVtanh n z s
  | .vsgnj n z => Sys2Proof.Machine.execVsgnj n z s
  | .vsgnjn n z => Sys2Proof.Machine.execVsgnjn n z s
  | .vsgnjx n z => Sys2Proof.Machine.execVsgnjx n z s
  | .vand n z => Sys2Proof.Machine.execVand n z s
  | .vor n z => Sys2Proof.Machine.execVor n z s
  | .vxor n z => Sys2Proof.Machine.execVxor n z s
  | .vsll n z => Sys2Proof.Machine.execVsll n z s
  | .vsrl n z => Sys2Proof.Machine.execVsrl n z s
  | .vsra n z => Sys2Proof.Machine.execVsra n z s
  | .vcmpeq n z => Sys2Proof.Machine.execVcmpeq n z s
  | .vcmplt n z => Sys2Proof.Machine.execVcmplt n z s
  | .vcmple n z => Sys2Proof.Machine.execVcmple n z s
  | .vmerge n z => Sys2Proof.Machine.execVmerge n z s
  | .vbcast n z => Sys2Proof.Machine.execVbcast n z s
  | .viota n z => Sys2Proof.Machine.execViota n z s
  | .setlen n z => Sys2Proof.Machine.execSetlen n z s
  | .vld n z => Sys2Proof.Machine.execVld n z s
  | .vst n z => Sys2Proof.Machine.execVst n z s
  | .vgather n z => Sys2Proof.Machine.execVgather n z s
  | .vscatter n z => Sys2Proof.Machine.execVscatter n z s
  | .vcvt n z => Sys2Proof.Machine.execVcvt n z s
  | .vcompress n z => Sys2Proof.Machine.execVcompress n z s
  | .vexpand n z => Sys2Proof.Machine.execVexpand n z s
  | .vredsum n z => Sys2Proof.Machine.execVredsum n z s
  | .vredmax n z => Sys2Proof.Machine.execVredmax n z s
  | .vredmin n z => Sys2Proof.Machine.execVredmin n z s
  | .vmpop n z => Sys2Proof.Machine.execVmpop n z s
  | .vmlogic n z => Sys2Proof.Machine.execVmlogic n z s
  | .vmld n z => Sys2Proof.Machine.execVmld n z s
  | .vmst n z => Sys2Proof.Machine.execVmst n z s
  | .vextract n z => Sys2Proof.Machine.execVextract n z s
  | .vinsert n z => Sys2Proof.Machine.execVinsert n z s
  | .nwzero n z => Sys2Proof.Machine.execNwzero n z s
  | .nwmac n z => Sys2Proof.Machine.execNwmac n z s
  | .nwadd n z => Sys2Proof.Machine.execNwadd n z s
  | .nwread n z => Sys2Proof.Machine.execNwread n z s
  | .nwst n z => Sys2Proof.Machine.execNwst n z s
  | .nwld n z => Sys2Proof.Machine.execNwld n z s
  | .nwflags n z => Sys2Proof.Machine.execNwflags n z s
  | .msend n z => Sys2Proof.Machine.execMsend n z s
  | .mfree n z => Sys2Proof.Machine.execMfree n z s
  | .mwait n z => Sys2Proof.Machine.execMwait n z s
  | .namo n z => Sys2Proof.Machine.execNamo n z s
  | .qdma n z => Sys2Proof.Machine.execQdma n z s
  | .mailboxDelivery z => Sys2Proof.Machine.execMailboxDelivery z s
  | .qdmaTransferDone q => Sys2Proof.Machine.execQdmaTransferDone q s
  | .dmaRun d => Sys2Proof.Machine.execDmaRun d s
  | .dmaPause d => Sys2Proof.Machine.execDmaPause d s
  | .dmaResume d => Sys2Proof.Machine.execDmaResume d s
  | .dmaDescPtrWrite d ptr => Sys2Proof.Machine.execDmaDescPtrWrite d ptr s
  | .descriptorFetch d => Sys2Proof.Machine.execDescriptorFetch d s
  | .descriptorFetchFault d => Sys2Proof.Machine.execDescriptorFetchFault d s
  | .dmaLineReturn d => Sys2Proof.Machine.execDmaLineReturn d s
  | .dmaReadFail d => Sys2Proof.Machine.execDmaReadFail d s
  | .descriptorComplete d => Sys2Proof.Machine.execDescriptorComplete d s
  | .dmaWritebackFail d => Sys2Proof.Machine.execDmaWritebackFail d s
  | .ligFlitReceive e flit => Sys2Proof.Machine.execLigFlitReceive e flit s
  | .ligRetry e seq => Sys2Proof.Machine.execLigRetry e seq s
  | .ligReplayLimit e => Sys2Proof.Machine.execLigReplayLimit e s
  | .ligAckTimeout e => Sys2Proof.Machine.execLigAckTimeout e s
  | .srpScaleMsg m => Sys2Proof.Machine.execSrpScaleMsg m s
  | .srpReduceMsg m => Sys2Proof.Machine.execSrpReduceMsg m s
  | .srpGatherMsg m => Sys2Proof.Machine.execSrpGatherMsg m s
  | .srpAbandonMsg m => Sys2Proof.Machine.execSrpAbandonMsg m s
  | .srpCreditMsg m => Sys2Proof.Machine.execSrpCreditMsg m s
  | .bucketComplete tag => Sys2Proof.Machine.execBucketComplete tag s
  | .pinWaitTimeout slot => Sys2Proof.Machine.execPinWaitTimeout slot s
  | .updateStageDone slot => Sys2Proof.Machine.execUpdateStageDone slot s
  | .updateStreamDone slot => Sys2Proof.Machine.execUpdateStreamDone slot s
  | .descriptorWriteback slot => Sys2Proof.Machine.execDescriptorWriteback slot s
  | .rulProbe t => Sys2Proof.Machine.execRulProbe t s
  | .hbmScrubRead h line upset => Sys2Proof.Machine.execHbmScrubRead h line upset s
  | .reservoirScrub h line upset => Sys2Proof.Machine.execReservoirScrub h line upset s
  | .cxlLinkDown l => Sys2Proof.Machine.execCxlLinkDown l s
  | .cxlResponseTimeout l addr => Sys2Proof.Machine.execCxlResponseTimeout l addr s
  | .cxlFatalError l => Sys2Proof.Machine.execCxlFatalError l s
  | .coreLoad c addr log2w => Sys2Proof.Machine.execCoreLoad c addr log2w s
  | .coreStore c addr log2w value => Sys2Proof.Machine.execCoreStore c addr log2w value s
  | .coreAtomic c addr wide op value expect => Sys2Proof.Machine.execCoreAtomic c addr wide op value expect s
  | .cacheEviction c line => Sys2Proof.Machine.execCacheEviction c line s
  | .cboClean c addr => Sys2Proof.Machine.execCboClean c addr s
  | .cboFlush c addr => Sys2Proof.Machine.execCboFlush c addr s
  | .cboInval c addr => Sys2Proof.Machine.execCboInval c addr s
  | .cboZero c addr => Sys2Proof.Machine.execCboZero c addr s
  | .rdShared c line => Sys2Proof.Machine.execRdShared c line s
  | .rdOwn c line => Sys2Proof.Machine.execRdOwn c line s
  | .upgrade c line => Sys2Proof.Machine.execUpgrade c line s
  | .atomicReq c addr wide op value expect => Sys2Proof.Machine.execAtomicReq c addr wide op value expect s
  | .wbDirty c line => Sys2Proof.Machine.execWbDirty c line s
  | .evictClean c line => Sys2Proof.Machine.execEvictClean c line s
  | .rdCur agent line => Sys2Proof.Machine.execRdCur agent line s
  | .wrFull agent line data poison => Sys2Proof.Machine.execWrFull agent line data poison s
  | .wrPartial agent addr data => Sys2Proof.Machine.execWrPartial agent addr data s
  | .atomicFar agent addr wide op value expect => Sys2Proof.Machine.execAtomicFar agent addr wide op value expect s
  | .snpFwdShared c line req => Sys2Proof.Machine.execSnpFwdShared c line req s
  | .snpFwdOwn c line req => Sys2Proof.Machine.execSnpFwdOwn c line req s
  | .snpInv c line => Sys2Proof.Machine.execSnpInv c line s
  | .snpCur c line => Sys2Proof.Machine.execSnpCur c line s
  | .data c line g => Sys2Proof.Machine.execData c line g s
  | .dataCmp c line g => Sys2Proof.Machine.execDataCmp c line g s
  | .grantCmp c line => Sys2Proof.Machine.execGrantCmp c line s
  | .grantAck c line => Sys2Proof.Machine.execGrantAck c line s
  | .rspI c line => Sys2Proof.Machine.execRspI c line s
  | .rspS c line => Sys2Proof.Machine.execRspS c line s
  | .rspFwd c line => Sys2Proof.Machine.execRspFwd c line s
  | .rspIWbPend c line => Sys2Proof.Machine.execRspIWbPend c line s
  | .wbAck c line => Sys2Proof.Machine.execWbAck c line s
  | .cmp agent line => Sys2Proof.Machine.execCmp agent line s
  | .nack agent line reserved => Sys2Proof.Machine.execNack agent line reserved s
  | .nackRetry agent line => Sys2Proof.Machine.execNackRetry agent line s
  | .reservationLapse line => Sys2Proof.Machine.execReservationLapse line s
  | .snoopTimeout line => Sys2Proof.Machine.execSnoopTimeout line s
  | .grantAckTimeout line => Sys2Proof.Machine.execGrantAckTimeout line s
  | .linkBlockReceive p block => Sys2Proof.Machine.execLinkBlockReceive p block s
  | .linkRetry p seq => Sys2Proof.Machine.execLinkRetry p seq s
  | .linkReplayLimit p => Sys2Proof.Machine.execLinkReplayLimit p s
  | .linkAckTimeout p => Sys2Proof.Machine.execLinkAckTimeout p s
  | .wavelengthLock p => Sys2Proof.Machine.execWavelengthLock p s
  | .alignHoldDone p => Sys2Proof.Machine.execAlignHoldDone p s
  | .initBlock p pkg port inc => Sys2Proof.Machine.execInitBlock p pkg port inc s
  | .trainingRetry p => Sys2Proof.Machine.execTrainingRetry p s
  | .transitForward h k => Sys2Proof.Machine.execTransitForward h k s
  | .dataPacket k => Sys2Proof.Machine.execDataPacket k s
  | .ackPacket k => Sys2Proof.Machine.execAckPacket k s
  | .nakPacket k => Sys2Proof.Machine.execNakPacket k s
  | .rnrPacket k => Sys2Proof.Machine.execRnrPacket k s
  | .openPacket k => Sys2Proof.Machine.execOpenPacket k s
  | .openAckPacket k => Sys2Proof.Machine.execOpenAckPacket k s
  | .domainDownPacket k => Sys2Proof.Machine.execDomainDownPacket k s
  | .rtoExpiry ctx => Sys2Proof.Machine.execRtoExpiry ctx s
  | .ackDelayExpiry ctx => Sys2Proof.Machine.execAckDelayExpiry ctx s
  | .rnrDelayExpiry ctx => Sys2Proof.Machine.execRnrDelayExpiry ctx s
  | .utpCtxReset h => Sys2Proof.Machine.execUtpCtxReset h s
  | .txRingDoorbell h b tail => Sys2Proof.Machine.execTxRingDoorbell h b tail s
  | .rxRingDoorbell h b tail => Sys2Proof.Machine.execRxRingDoorbell h b tail s
  | .ethFrameRx p frame => Sys2Proof.Machine.execEthFrameRx p frame s
  | .sampleDispatch h stream => Sys2Proof.Machine.execSampleDispatch h stream s
  | .decodeComplete h stream seq => Sys2Proof.Machine.execDecodeComplete h stream seq s
  | .resizeComplete h stream seq => Sys2Proof.Machine.execResizeComplete h stream seq s
  | .fedSwrDb h index => Sys2Proof.Machine.execFedSwrDb h index s
  | .budgetExpiry h stream seq => Sys2Proof.Machine.execBudgetExpiry h stream seq s
  | .liveCloseExpiry h stream => Sys2Proof.Machine.execLiveCloseExpiry h stream s
  | .batchEmit h stream => Sys2Proof.Machine.execBatchEmit h stream s
  | .railFault rail => Sys2Proof.Machine.execRailFault rail s
  | .thermalTrip sensor reading => Sys2Proof.Machine.execThermalTrip sensor reading s
  | .railTimeout rail => Sys2Proof.Machine.execRailTimeout rail s
  | .bootStageAdvance r => Sys2Proof.Machine.execBootStageAdvance r s
  | .stageTimeout r => Sys2Proof.Machine.execStageTimeout r s
  | .colophonSample readings => Sys2Proof.Machine.execColophonSample readings s
  | .coreRun c => Sys2Proof.Machine.execCoreRun c s
  | .arpRequest ip mac => Sys2Proof.Machine.execArpRequest ip mac s
  | .icmpEcho ip payload => Sys2Proof.Machine.execIcmpEcho ip payload s
  | .logRead who hd flash slot count => Sys2Proof.Machine.execLogRead who hd flash slot count s
  | .sensorRead who hd first count => Sys2Proof.Machine.execSensorRead who hd first count s
  | .imageWrite who hd comp off bytes => Sys2Proof.Machine.execImageWrite who hd comp off bytes s
  | .imageCommit who hd comp len => Sys2Proof.Machine.execImageCommit who hd comp len s
  | .getVersion who => Sys2Proof.Machine.execGetVersion who s
  | .getCapabilities who flags => Sys2Proof.Machine.execGetCapabilities who flags s
  | .negotiateAlgorithms who asym hash => Sys2Proof.Machine.execNegotiateAlgorithms who asym hash s
  | .getDigests who => Sys2Proof.Machine.execGetDigests who s
  | .getCertificate who slot off len => Sys2Proof.Machine.execGetCertificate who slot off len s
  | .challenge who slot summary nonce => Sys2Proof.Machine.execChallenge who slot summary nonce s
  | .getMeasurements who index sign nonce => Sys2Proof.Machine.execGetMeasurements who index sign nonce s
  | .unlock frame key => Sys2Proof.Machine.execUnlock frame key s
  | .postedWriteDone frame => Sys2Proof.Machine.execPostedWriteDone frame s
  | .registerWrite c addr value => Sys2Proof.Machine.execRegisterWrite c addr value s
  | .opticalLockLoss p => Sys2Proof.Machine.execOpticalLockLoss p s
  | .clockLoss u => Sys2Proof.Machine.execClockLoss u s
  | .contributionReadDone tag block => Sys2Proof.Machine.execContributionReadDone tag block s
  | .batchDescriptorOwned h stream => Sys2Proof.Machine.execBatchDescriptorOwned h stream s
  | .rulApply => Sys2Proof.Machine.execRulApply s
  | .powerOn => Sys2Proof.Machine.execPowerOn s
  | .inputBelow34V => Sys2Proof.Machine.execInputBelow34V s
  | .inputTrip => Sys2Proof.Machine.execInputTrip s
  | .railSequenceStep => Sys2Proof.Machine.execRailSequenceStep s
  | .colophonStartWatchdog => Sys2Proof.Machine.execColophonStartWatchdog s
  | .heartbeatLapse => Sys2Proof.Machine.execHeartbeatLapse s
  | .driverStopped => Sys2Proof.Machine.execDriverStopped s
  | .heartbeat => Sys2Proof.Machine.execHeartbeat s
  | .attach => Sys2Proof.Machine.execAttach s
  | .detach => Sys2Proof.Machine.execDetach s
  | .packageReset => Sys2Proof.Machine.execPackageReset s
  | .downAutoReset => Sys2Proof.Machine.execDownAutoReset s
  | .updateGo => Sys2Proof.Machine.execUpdateGo s
  | .updateFinish => Sys2Proof.Machine.execUpdateFinish s
  | .updateConfirm => Sys2Proof.Machine.execUpdateConfirm s
  | .logCommit => Sys2Proof.Machine.execLogCommit s
  | .logFlashCopy => Sys2Proof.Machine.execLogFlashCopy s

end Sys2Proof.Machine
end

