-- ==== Sys2Proof/Machine/Step.lean ====
section
/-! DEFINITION. One step: the command at the front of the queue, or one tick of device time. -/

namespace Sys2Proof.Machine
open Sys2Proof

/-- The state with a queue of waiting commands. -/
def State.withPending (s : State) (l : List Instr) : State := { s with pending := l }

/-- One tick of device time passes, with its upset if it has one (R425; DESIGN CHOICE, log entries 1 and 57). TICK stands
still while the Colophon domain has no power (R456). -/
def State.idle (s : State) : State := if s.power.input then { upset s with tick := s.tick + 1 } else s

/-- Take the command at the front of the queue and run it with the rest; on an empty queue one tick
passes. -/
def step (s : State) : Host.Outcome State Fault Refusal :=
  match s.pending with
  | [] => .next s.idle
  | c :: rest => exec c (s.withPending rest)

/-- The state with the command that a table word spells put in front of its queue; the table spells
none (DESIGN CHOICE, log entry 17). -/
def State.withFetchWord (s : State) (nbits w : Nat) : State :=
  match decodeTableWord nbits w with
  | none => s
  | some c => s.withPending (c :: s.pending)

end Sys2Proof.Machine
end

