-- ==== Sys2Proof/Safety.lean ====
section
/-! DEFINITION. What the statements mean by a safe run: a step that answers a next state, the
invariants of the state, and what a step must leave alone. -/

namespace Sys2Proof.Machine
open Sys2Proof

/-- A step from `s` answers a next state. -/
def Completes (s : State) : Prop := ∃ t, step s = .next t

/-- Memory stands in its canonical form. -/
def State.memWf (s : State) : Prop := Memory.wf s.mem = true

/-- The byte that memory holds at an address. -/
def State.byteAt (s : State) (a : Nat) : Byte := mget s.mem.cells a

/-- What every command but a start or a loss of power does to five things at once: the queue of commands
and TICK stand as they were, the fused security version does not fall and stays in its field (R394), and
memory stays in its canonical form. -/
structure Keeps (s t : State) : Prop where
  pending : t.pending = s.pending
  tick : t.tick = s.tick
  svn : s.flash.svn ≤ t.flash.svn
  cap : s.flash.svn ≤ 127 → t.flash.svn ≤ 127
  mem : s.memWf → t.memWf

/-- The head command of a queue is dispatched now and starts (R171 to R177, R190, R191, R195): its Scribe
runs, its queue is live, its completion queue is enabled and has a free entry, its fences hold it no
longer, and its header keeps the layout. `order` says that its opcode implies ORDER. -/
structure Starts (s : State) (c : JCmd) (op : Nat) (order : Bool) : Prop where
  live : queueLive s c.queue.toNat = true
  cq : (cqOf s (queueHalf c.queue.toNat) (field c.hdr.cq 11 0)).enabled = true
  header : headerBad s op c.hdr = false
  ready : gateHeld s c order false = false

/-- Command `id` has been reported complete with a status and the two details, and waits to be posted. -/
def Reported (s : State) (id : Nat) (st : BitVec 8) (d0 d1 : Nat) : Prop :=
  ∃ o ∈ s.outs, o.id = id ∧ o.done = some ⟨st, BitVec.ofNat 64 d0, BitVec.ofNat 64 d1, s.tick⟩

/-- Command `id` is outstanding. -/
def Outstanding (s : State) (id : Nat) : Prop := ∃ o ∈ s.outs, o.id = id ∧ o.done = none

/-- No outstanding command has the id that the next one takes. -/
def State.freshIds (s : State) : Prop := ∀ o ∈ s.outs, o.id < s.nextId

/-- Every byte of memory outside `n` bytes from `a` on stands as it was. -/
def SameOutside (s t : State) (a n : Nat) : Prop := ∀ x, x < a ∨ a + n ≤ x → t.byteAt x = s.byteAt x

/-- Memory in canonical form, no server-core copy of any line, no more than two symbols in error in any codeword and every
write visible: a read gives what memory holds, and a write changes the bytes it stores and no others (R182, R305,
R329). -/
def Quiet (s : State) : Prop := s.memWf ∧ s.coh.caches = [] ∧ (∀ p ∈ s.ecc, p.2 ≤ 2) ∧ (∀ p ∈ s.resEcc, p.2 ≤ 2) ∧ s.stale = []

/-- The physical address that a cached leaf gives for a virtual address, when one permits the access
(R315, R316). -/
def cachedPa (s : State) (h : Half) (sp : Space) (va : Nat) (write : Bool) : Option Nat :=
  if 2 ^ 48 ≤ va then none
  else match s.xlt.find? fun e =>
      e.h = h && e.asid = sp.asid && decide (e.vpn ≤ va / 4096 ∧ va / 4096 < e.vpn + e.pages) with
    | none => none
    | some e => if leafCause e.flags.toNat write = 0 then some ((e.ppn + (va / 4096 - e.vpn)) * 4096 + va % 4096) else none

/-- `n` bytes from a virtual address on lie in a row at a served physical address, by cached leaves that
permit the access. -/
def Reaches (s : State) (h : Half) (sp : Space) (va n pa : Nat) (write : Bool) : Prop :=
  ∀ i, i < n → cachedPa s h sp (va + i) write = some (pa + i) ∧ served s (pa + i) = true

/-- The bytes that memory holds from an address on. -/
def Holds (s : State) (a : Nat) (b : List Byte) : Prop := ∀ i, i < b.length → s.byteAt (a + i) = b.getD i 0

/-- The state in which a frame's posted write has just been taken (R435). -/
def State.taken (s : State) (f : Frame) : State :=
  { s with frames := { s.frames with posted := sset s.frames.posted (frameKey f) .taken } }

/-- The posted write that a POSTED_WRITE_DONE of the frame at `f` ends is one of COL_UPD_CONFIRM (R404, R435). -/
def ConfirmPosted (s : State) (f : BitVec 48) : Prop :=
  ∃ g c addr v low, frameAt f.toNat = some g ∧
    s.frames.posted.find? (fun p => p.1 = frameKey g) = some (frameKey g, .write c addr v low) ∧
    frameAt addr = some .col ∧ (addr - Frame.col.base) % 0x4000 = 0x5C

/-- A mailbox of a Nib is full and holds 64 bytes. -/
def MailHolds (t : State) (n : NibId) (b : Nat) (bytes : List Byte) : Prop :=
  (nibOf t n).mailFull b = true ∧ ∀ i, i < 64 → sget 0 (nibOf t n).mbox (64 * b + i) = bytes.getD i 0

/-- The running operation `op` of an Inkstone ends with a status and DETAIL1 (R111, R116, R192): the waiting
operation runs next, the Wells and memory stay, a Scribe command is reported with the term count of Well
(0, 0), and an empty mailbox of a Nib receives the record. -/
structure EndsTile (s t : State) (q : QuireId) (op : InkOp) (st : BitVec 8) (va : Nat) : Prop where
  running : (inkOf t q).running = (inkOf s q).waiting.map InkOp.head
  waiting : (inkOf t q).waiting = none
  wells : (inkOf t q).wells = (inkOf s q).wells
  scribe : ∀ id, op.origin = .scribe id → Outstanding s id → Reported t id st (opCount s q op) va
  port : ∀ n, op.origin = .port n → (nibOf s (nibIn q n)).mailFull (field op.body.portCtl 3 0) = false →
    MailHolds t (nibIn q n) (field op.body.portCtl 3 0) (portRecord s op st (opCount s q op))
  mem : t.mem = s.mem

/-- An Inkstone with an operation added to its queue of two (R110). -/
def Ink.push (v : Ink) (op : InkOp) : Ink :=
  if v.running.isNone then { v with running := some op } else { v with waiting := some { op with phase := .idle } }

/-! ### Nibs and the Brush -/

/-- A Nib goes from its contents in `s` to `v` with pc `npc`, one instruction more retired and some cycles
more, and nothing outside the Nib and the counters of its frame changes (R123). -/
structure NibStep (s t : State) (n : NibId) (v : Nib) (npc : Word) : Prop where
  nib : nibOf t n = { v with pc := npc, instret := v.instret + 1, cycle := (nibOf t n).cycle }
  others : ∀ p, p ≠ n → nibOf t p = nibOf s p
  rest : t = { s with nibs := t.nibs, regs := t.regs }

/-- Elements of `w` bits of vector register `r` are replaced as listed, and every other element and
register stays (R143, R144). -/
structure VecPut (v v' : Nib) (r w : Nat) (l : List (Nat × Nat)) : Prop where
  hit : ∀ x ∈ l, v'.velem r w x.1 = x.2 % 2 ^ w
  keep : ∀ e, e < 32768 / w → (∀ x ∈ l, x.1 ≠ e) → v'.velem r w e = v.velem r w e
  others : ∀ r', r' < 16 → r' ≠ r → ∀ k, k < 1024 → sget 0 v'.v (1024 * r' + k) = sget 0 v.v (1024 * r' + k)

/-- The Nib, whose local store has no word in error, executes the custom-0 instruction `i` with OP `op`, its scalar is there, and its fields and LEN
are legal (R144, R145, R147, R149). -/
structure Ready0 (s : State) (n : NibId) (op : Nat) (i : C0) (sh : Shape0) (fmts : List Nat) : Prop where
  words : (nibOf s n).lsEcc = []
  atPc : nibAtWord s n (enc0 op i) = true
  scalar : i.s = true → (nibOf s n).pends (fmtFp i.fmt.toNat) i.src2.toNat = false
  legal : bad0 (nibOf s n) i sh fmts = false

/-- The width of an element of a custom-0 instruction. -/
def width0 (i : C0) : Nat := fmtBits (fmtCode i.fmt.toNat)

/-- The second operand of element e. -/
def second0 (v : Nib) (i : C0) (e : Nat) : Nat :=
  if i.s then scalarBits v i.fmt.toNat i.src2.toNat else v.velem i.src2.toNat (width0 i) e

/-- The active elements of a custom-0 instruction. -/
def active0 (v : Nib) (i : C0) : List Nat :=
  activeElems v.len.toNat (if i.m then some (v.mask i.mr.toNat) else none)

/-- What a custom-0 instruction that writes a vector register does (R144, R145, R153 to R157): `g` gives a
lane's bits and what its gauge counts from vs1, SRC2, vd and the element number, `act` the elements it
writes, `src` whether a source is marked poisoned, `rounds` whether it advances BCNT under SR. -/
structure Vec0 (s t : State) (n : NibId) (i : C0) (act : List Nat) (src rounds : Bool)
    (g : Nat → Nat → Nat → Nat → Nat × Option Conv) : Prop where
  put : VecPut (nibOf s n) (nibOf t n) i.vd.toNat (width0 i) (act.map fun e =>
    (e, (g ((nibOf s n).velem i.vs1.toNat (width0 i) e) (second0 (nibOf s n) i e) ((nibOf s n).velem i.vd.toNat (width0 i) e) e).1))
  gauge : ∀ k, gaugeOf t k = if k = nibGauge n (nibOf s n) then (gaugeOf s k).countAll (act.filterMap fun e =>
    (g ((nibOf s n).velem i.vs1.toNat (width0 i) e) (second0 (nibOf s n) i e) ((nibOf s n).velem i.vd.toNat (width0 i) e) e).2)
    else gaugeOf s k
  bcnt : (nibOf t n).bcnt =
    if rounds = true ∧ (nibOf s n).round = .sr then (nibOf s n).bcnt + (nibOf s n).len.setWidth 64 else (nibOf s n).bcnt
  mark : (nibOf t n).bpoison = if (nibOf s n).len = 0 then (nibOf s n).bpoison
    else ((nibOf s n).remark i.vd.toNat src act.length (width0 i)).bpoison
  nib : nibOf t n = { nibOf s n with
    v := (nibOf t n).v, bpoison := (nibOf t n).bpoison, bcnt := (nibOf t n).bcnt, pc := (nibOf s n).pc + 4
    instret := (nibOf s n).instret + 1, cycle := (nibOf t n).cycle }
  others : ∀ p, p ≠ n → nibOf t p = nibOf s p
  rest : t = { s with nibs := t.nibs, regs := t.regs, gauges := t.gauges }

/-- What a compare does (R154): bit e of mask vd is the comparison of element e, for active elements. -/
structure Cmp0 (s t : State) (n : NibId) (i : C0) (g : Nat → Nat → Bool) : Prop where
  hit : ∀ e, e ∈ active0 (nibOf s n) i → bitAt ((nibOf t n).mask i.vd.toNat) e =
    g ((nibOf s n).velem i.vs1.toNat (width0 i) e) (second0 (nibOf s n) i e)
  keep : ∀ e, e < 1024 → e ∉ active0 (nibOf s n) i →
    bitAt ((nibOf t n).mask i.vd.toNat) e = bitAt ((nibOf s n).mask i.vd.toNat) e
  masks : ∀ r, r ≠ i.vd.toNat → (nibOf t n).mask r = (nibOf s n).mask r
  step : NibStep s t n { nibOf s n with m := (nibOf t n).m } ((nibOf s n).pc + 4)

/-- The Nib, whose local store has no word in error, executes the custom-1 instruction `i` with OP `op`, and its scalar sources `xs` are there. -/
structure Ready1 (s : State) (n : NibId) (op : Nat) (i : C1) (xs : List Nat) : Prop where
  words : (nibOf s n).lsEcc = []
  atPc : nibAtWord s n (enc1 op i) = true
  scalars : ∀ r ∈ xs, (nibOf s n).pends false r = false

/-! ### Links, the fabric and the domain -/

/-- The run state of a unit that halts when the domain goes down: a unit that was never started stays off
(R341). -/
def haltRun (r : RunSt) : RunSt := if r = .off then .off else .halted

/-- No update streams its region, so that the end of the domain cuts none off (R262). -/
def State.noStream (s : State) : Prop := ∀ p ∈ s.upds, p.2.stage ≠ 8

/-- The coherent domain goes down with a cause, detected at a home (R340, R341): COH_STAT's fields say so,
every running core has an NMI with mncause 1 in machine mode, the Scribes, Scriptoria and Feeds and the Blotter halt, no update
goes on, and memory, caches and reservations stay unless a stream is cut off (R262). -/
structure GoesDown (s t : State) (cause home agent addr : Nat) : Prop where
  down : t.coh = { t.coh with
    running := false, down := true, cause := BitVec.ofNat 4 cause, downHome := home + 1, downAgent := BitVec.ofNat 10 agent
    downAddr := BitVec.ofNat 48 addr, downTick := s.tick.toNat }
  coh : s.noStream → t.coh = { s.coh with
    running := false, down := true, cause := BitVec.ofNat 4 cause, downHome := home + 1, downAgent := BitVec.ofNat 10 agent
    downAddr := BitVec.ofNat 48 addr, downTick := s.tick.toNat }
  cores : ∀ k, coreOf t k =
    if (coreOf s k).running then { coreOf s k with nmi := true, mncause := 1, machine := true, lr := (coreOf t k).lr }
    else { coreOf s k with lr := (coreOf t k).lr }
  lrs : s.noStream → ∀ k, (coreOf t k).lr = (coreOf s k).lr
  upds : t.upds = s.upds
  scribes : ∀ h, (scbOf t h).run = haltRun (scbOf s h).run
  scriptoria : ∀ h, (srpOf t h).run = haltRun (srpOf s h).run
  feeds : ∀ h, (feedOf t h).run = haltRun (feedOf s h).run
  blotter : t.blt = haltRun s.blt
  mem : s.noStream → t.mem = s.mem

/-- A port goes back to SIGNAL from UP (R348, R349): its link is dropped, LFP_LINK_DOWNS counts, and memory
and the domain stay. A packet in transit to or from it is cut off, and the blocks of others that waited in it free the receive
blocks they took up at the ports they came in by (R347, R353). -/
structure LeavesUp (s t : State) (p : Fin 28) : Prop where
  port : portOf t p.val = { portOf s p.val with st := .signal, lock := 0, loop := false, link := linkReset }
  ports : ∀ q, q ≠ p.val → portOf t q = { portCut p.val (portOf s q) with
    link := { (portCut p.val (portOf s q)).link with freed := (portOf t q).link.freed } }
  freed : ∀ q vl, q ≠ p.val → q < 28 → vl < 8 → sget 0 (portOf t q).link.freed vl =
    sget 0 (portOf s q).link.freed vl + ((portOf s p.val).link.txq.filter fun x => x.1 = 1 + 8 * q + vl).length
  downs : regWord64 t (portBase p.val + 0x28) = (regWord64 s (portBase p.val + 0x28) + 1) % 2 ^ 64
  mem : t.mem = s.mem
  coh : t.coh = s.coh

/-- A packet of an opcode that is whole and meant for this package (R354). -/
structure ForUs (s : State) (k : UtpPkt) (op : Nat) : Prop where
  alive : alive s = true
  dst : k.dst = ownPkg s
  opcode : k.opcode.toNat = op
  good : pktGood k = true

/-- The context of a packet is OPEN with the incarnation the packet carries (R356). -/
structure InOpen (s : State) (k : UtpPkt) : Prop where
  st : (ctxOf s (pktKey k)).st = .opened
  inc : (ctxOf s (pktKey k)).inc = some k.inc

/-- A packet leaves when a port of its route set is UP (R351): it is among the messages sent, at LEVEL 1
when its entry has DATELINE (R352). -/
def Leaves (s t : State) (h : Half) (k : UtpPkt) : Prop :=
  (routePort (routeBoundary s h) h k).isSome = true → Sent.utp (atLevel (routeBoundary s h) h k) ∈ t.sent

/-- No bucket, no tile operation and no ring message is under way, so that the end of a context ends no
work. -/
def State.noWork (s : State) : Prop := s.tags = [] ∧ s.inks = [] ∧ s.rings = []

/-- A context right after it became OPEN (R356, R357). -/
def Ctx.open_ (c : Ctx) (inc : BitVec 32) (rto now : Nat) : Ctx :=
  { c with st := .opened, inc := some inc, psn := 0, expPsn := 0, retries := 0, rto := rto, timer := now, sinceAck := 0
           nakSent := false, rnrWait := false }

/-- A context without traffic in a state of R356. -/
def Ctx.ended (c : Ctx) (st : CtxSt) : Ctx :=
  { c with st := st, unacked := [], waiting := [], rnrWait := false, nakSent := false, sinceAck := 0, retries := 0, goback := none, stalled := 0
           dtile := [], dlink := none, announced := [], ackN := c.sentN }

/-- An update leaves its slot with a status and the two details (R234): it is reported, the other slots
stay, and, when no pin or init waits, memory stays. -/
structure EndsUpd (s t : State) (k : Nat) (u : Upd) (st : BitVec 8) (d0 d1 : Nat) : Prop where
  slot : updAt t k = none
  others : ∀ j, j ≠ k → updAt t j = updAt s j
  done : Outstanding s u.out → Reported t u.out st d0 d1
  mem : s.bltWaits = [] → t.mem = s.mem

end Sys2Proof.Machine
end

