-- ==== Sys2Proof/Certificates/Slice0/Obligations.lean ====
section
/-! DEFINITION. The statements about the model, for the provers. -/

open Sys2Proof Sys2Proof.Machine

/-- A step runs the command at the front of the queue on the state with the rest of the queue; on an empty queue one tick passes. That the empty queue is where device time passes is the model's choice, log entry 1, and so is an upset that a tick may bring, log entry 57. -/
def Obligations.StepRunsFront : Prop :=
  (∀ (c : Instr) (rest : List Instr) (s : State), s.pending = c :: rest →
    step s = exec c (s.withPending rest) ∧ (s.withPending rest).pending = rest ∧
      (s.withPending rest).withPending s.pending = s) ∧
  ∀ s : State, s.pending = [] →
    step s = .next (if s.power.input then { upset s with tick := s.tick + 1 } else s) ∧
      upset s = { s with
        nibs := (upset s).nibs, inks := (upset s).inks, ecc := (upset s).ecc, resEcc := (upset s).resEcc
        coh := { s.coh with badTags := (upset s).coh.badTags } } ∧
      (Config.upset s.flash.cycles.toNat s.tick.toNat = none → upset s = s)

/-- What reset leaves: TICK zero, every queue, context, stream and tag in its reset state, the registers at the reset values of their tables. POWER_CYCLES 1 and the slots A ACTIVE at reset are the model's choice, log entry 4, and so is it that memory lists nothing in the second tier, log entries 6 and 54. -/
def Obligations.ResetValues : Prop :=
  State.reset.tick = 0 ∧ State.reset.pending = [] ∧ State.reset.mem = ⟨[], []⟩ ∧ State.reset.drv.st = .detached ∧
  State.reset.cores = [] ∧ (∀ k, (ctxOf State.reset k).st = .closed) ∧ (∀ i, semOf State.reset i = 0) ∧
  (∀ q, (queueOf State.reset q).enabled = false) ∧ (∀ h k, (streamOf State.reset h k).st = .closed) ∧
  (∀ n, (tagOf State.reset n).st = .free) ∧ State.reset.flash.cycles = 1 ∧
  (∀ c, c < 3 → slotSt State.reset.flash c 0 = .active ∧ slotSt State.reset.flash c 1 = .invalid) ∧
  (∀ a w, (a, w) ∈ [((inkFrame ⟨0, 0⟩).base + 8, 0xFFFF8#32), (Frame.blt.base + 4, 1000), ((Frame.utp 0).base + 8, 0x0A005C14),
      ((Frame.utp 0).base + 0xC, 0x0004E210), ((Frame.lig 1).base + 4, 0xFA10), ((Frame.coh 0).base + 4, 20),
      (Frame.id.base + 0x10C, 500), (Frame.id.base + 0x124, 2000), ((Frame.fed 1).base + 4, 4),
      ((Frame.mem 0).base + 4, 0x10018), (Frame.col.base + 0x90, 22), (Frame.col.base + 0x184, 2)] →
    regWord State.reset a = w ∧ regAct State.reset a = w)

/-- The reset state has the invariants: memory in canonical form, the fused security version in its field. -/
def Obligations.ResetIsSound : Prop :=
  State.reset.memWf ∧ State.reset.flash.svn ≤ 127

/-- Every step keeps memory in its canonical form: addresses rising and no zero byte listed. -/
def Obligations.MemoryStaysCanonical : Prop :=
  ∀ s t : State, s.memWf → step s = .next t → t.memWf

/-- The fused security version stays a count from 0 to 127, never decreases, and is burned only by COL_UPD_CONFIRM. A confirm reaches the machine as UPDATE_CONFIRM, or as a posted write of the register, which takes effect at the POSTED_WRITE_DONE of its frame; that the row acts at its own step is the model's choice, log entry 8. -/
def Obligations.FusedVersionNeverFalls : Prop :=
  ∀ s t : State, s.flash.svn ≤ 127 → step s = .next t →
    t.flash.svn ≤ 127 ∧ s.flash.svn ≤ t.flash.svn ∧
      (s.pending.head? ≠ some .updateConfirm → (∀ f, s.pending.head? = some (.postedWriteDone f) → ¬ ConfirmPosted s f) → t.flash.svn = s.flash.svn)

/-- Every step completes, takes exactly the front command off the queue, and no command changes what waits behind it. That a command whose event cannot happen in a state answers that state, and so every command a next state, is the model's choice, log entry 2. -/
def Obligations.QueueIsFirstInFirstOut : Prop :=
  (∀ s : State, Completes s ∧ ∀ t, step s = .next t → t.pending = s.pending.tail) ∧
  ∀ (c : Instr) (s : State), ∃ t, exec c s = .next t

/-- No command but a loss or a start of input power touches TICK. That a command takes no device time, so that TICK stands while commands wait, is the model's choice and unsafe for a comparison of TICK before and after, log entry 1. -/
def Obligations.TickIsKeptByCommands : Prop :=
  ∀ (s t : State) (c : Instr) (rest : List Instr), s.pending = c :: rest → c ≠ .powerOn → c ≠ .inputBelow34V →
    step s = .next t → t.tick = s.tick

/-- A dispatch takes the head slot: the head moves on one slot round the ring, one completion entry is reserved, and the command is outstanding under a fresh number. -/
def Obligations.DispatchTakesTheHead : Prop :=
  ∀ (s : State) (c : JCmd) (op : Nat),
    (let q := c.queue.toNat
     let v := queueOf s q
     let h := queueHalf q
     let n := field c.hdr.cq 11 0
     let t := takeHead s c op
     t.nextId = s.nextId + 1 ∧ t.outs = s.outs ++ [outCmd s c op] ∧
     (queueOf t q).head = ringIdx v.log2 (v.head.toNat + 1) ∧ (queueOf t q).waiting = false ∧
     (∀ p, p ≠ q → queueOf t p = queueOf s p) ∧
     cqOf t h n = { cqOf s h n with used := (cqOf s h n).used + 1 } ∧
     (∀ h' n', n < 4096 → n' < 4096 → (h', n') ≠ (h, n) → cqOf t h' n' = cqOf s h' n') ∧
     sget 0 (scbOf t h).rr v.prio.toNat = q ∧
     t.sems = s.sems ∧ t.sigs = s.sigs ∧ t.reported = s.reported ∧ t.inks = s.inks ∧ t.nibs = s.nibs ∧
     t.dmas = s.dmas ∧ t.tags = s.tags ∧ t.upds = s.upds ∧ t.feeds = s.feeds ∧ t.gauges = s.gauges ∧ t.xlt = s.xlt ∧
     (v.headWb = 0 → t.mem = s.mem ∧ (queueOf t q).halted = v.halted) ∧
     (Quiet s → v.headWb ≠ 0 → v.headWb.toNat % 4 = 0 → served s v.headWb.toNat = true →
       Holds t v.headWb.toNat (leBytes 4 (ringIdx v.log2 (v.head.toNat + 1)).toNat) ∧ SameOutside s t v.headWb.toNat 4))

/-- NOP completes OK at its dispatch; FENCE_VISIBLE is reported OK exactly when nothing in its scope is outstanding. That a command reported and not yet posted still counts as outstanding, and when writes become visible, is the model's choice, log entries 9 and 3. -/
def Obligations.NopAndFenceVisible : Prop :=
  (∀ (s : State) (c : JCmd), Starts s c 0 false →
    exec (.nop c) s = .next (report (takeHead s c 0) s.nextId stOk 0 0) ∧
    Reported (report (takeHead s c 0) s.nextId stOk 0 0) s.nextId stOk 0 0) ∧
  (∀ (s : State) (c : JCmd), Starts s c 2 true → s.freshIds → bget c.body 0 4 ≤ 2 →
    ∃ t, exec (.fenceVisible c) s = .next t ∧
      t.mem = (takeHead s c 2).mem ∧ t.queues = (takeHead s c 2).queues ∧ t.sems = s.sems ∧
      (let covers (o : OutCmd) : Prop := match bget c.body 0 4 with
         | 0 => o.queue = c.queue
         | 1 => queueHalf o.queue.toNat = queueHalf c.queue.toNat
         | _ => True
       ((∀ o ∈ s.outs, ¬ covers o) → Reported t s.nextId stOk 0 0 ∧
         ∀ p ∈ t.stale, ∀ e ∈ p.2, fenceCovers (outCmd s c 2) e.1 = false) ∧
       ((∃ o ∈ s.outs, covers o) → Outstanding t s.nextId)))

/-- INLINE_WRITE stores its payload at the physical address of AUX and nothing else, and is reported OK. -/
def Obligations.InlineWriteStores : Prop :=
  ∀ (s : State) (c : JCmd) (pa : Nat), Starts s c 1 false →
    Quiet (takeHead s c 1) →
    Reaches s (queueHalf c.queue.toNat) (queueSpace s c.queue.toNat) c.hdr.aux.toNat c.hdr.length.toNat pa true →
    ∃ t, exec (.inlineWrite c) s = .next t ∧ Reported t s.nextId stOk 0 0 ∧
      Holds t pa (bslice c.body 0 c.hdr.length.toNat) ∧ SameOutside (takeHead s c 1) t pa c.hdr.length.toNat ∧
      t.queues = (takeHead s c 1).queues ∧ t.sems = s.sems ∧ t.gauges = s.gauges ∧ t.xlt = s.xlt

/-- GAUGE_SNAPSHOT writes one record per set in index order, clears the sets it recorded when CLEAR is set, and reports how many it wrote. -/
def Obligations.GaugeSnapshotWritesAndClears : Prop :=
  ∀ (s : State) (c : JCmd) (pa : Nat), Starts s c 3 true →
    Quiet (takeHead s c 3) → snapBad s (queueHalf c.queue.toNat) c.body = false →
    ¬ (snapKind c.body = 4 ∧ bltFenced s = true) →
    Reaches s (queueHalf c.queue.toNat) (queueSpace s c.queue.toNat) (bget c.body 0 8) (64 * bget c.body 16 4) pa true →
    (let kind := snapKind c.body
     let first := bget c.body 12 4
     let n := bget c.body 16 4
     ∃ t, exec (.gaugeSnapshot c) s = .next t ∧ Reported t s.nextId stOk n 0 ∧
       (∀ i, i < n → Holds t (pa + 64 * i) (snapRecord s kind (first + i) (snapClear c.body))) ∧
       SameOutside (takeHead s c 3) t pa (64 * n) ∧
       (∀ i, i < n → gaugeOf t (gaugeKey kind (first + i)) =
         if snapClear c.body = true then gaugeZero else gaugeOf s (gaugeKey kind (first + i))) ∧
       (∀ k, (∀ i, i < n → k ≠ gaugeKey kind (first + i)) → gaugeOf t k = gaugeOf s k))

/-- The Scribe's doorbells and control registers do what their rules say, and take effect on the one queue, completion queue or semaphore they name. That a row of a posted register takes effect at its own step and leaves the frame BUSY is the model's choice, log entry 8, and so is it that both table bases become active together, log entry 48. -/
def Obligations.ScribeRegisters : Prop :=
  (∀ (s : State) (h : Half) (q : BitVec 12) (tail : BitVec 16), halfFenced s h = false →
    exec (.scbDoorbell h q tail) s = .next
      (if queueHalf q.toNat = h ∧ (queueOf s q.toNat).enabled = true then
        setQueue s q.toNat { queueOf s q.toNat with
          tail := BitVec.ofNat 16 (tail.toNat % 2 ^ (queueOf s q.toNat).log2.toNat) }
      else count s (.scb h) 0x50 1)) ∧
  (∀ (s : State) (h : Half) (n : BitVec 12) (head : BitVec 16), halfFenced s h = false →
    (cqOf s h n.toNat).enabled = true → (cqOf s h n.toNat).head.toNat < 2 ^ (cqOf s h n.toNat).log2.toNat →
    (cqOf s h n.toNat).log2.toNat ≤ 16 →
    (let v := cqOf s h n.toNat
     let size := 2 ^ v.log2.toNat
     let back := (head.toNat % size + size - v.head.toNat) % size
     back + cqReserved s h n.toNat ≤ v.used →
     exec (.scbCqDoorbell h n head) s = .next
       (setCq s h n.toNat { v with head := BitVec.ofNat 16 (head.toNat % size), used := v.used - back }))) ∧
  (∀ (s s' : State) (h : Half) (q : BitVec 12) (b : PBytes), halfFenced s h = false → frameBusy s (.scb h) = false →
    s.drv.st = .attached → alive s = true → queueHalf q.toNat = h → (queueOf s q.toNat).enabled = false →
    pread (scbBoundary (s.taken (.scb h)) h) (regAct64 (scbBoundary (s.taken (.scb h)) h) ((Frame.scb h).base + 0x10) +
      64 * (q.toNat % 2048)) 64 = (s', some b) →
    b.poisoned = false → queueEntryOk b.bytes = true →
    exec (.queueEnable h q) s = .next (setQueue s' q.toNat { queueOf s q.toNat with
      enabled := true, base := BitVec.ofNat 64 (bget b.bytes 0 8), log2 := BitVec.ofNat 8 (bget b.bytes 8 1)
      prio := BitVec.ofNat 8 (bget b.bytes 9 1), asid := BitVec.ofNat 16 (bget b.bytes 0x0A 2)
      root := BitVec.ofNat 64 (bget b.bytes 0x10 8), headWb := BitVec.ofNat 64 (bget b.bytes 0x18 8) })) ∧
  (∀ (s : State) (h : Half) (q : BitVec 12), halfFenced s h = false → frameBusy s (.scb h) = false →
    queueHalf q.toNat = h → s.col.featPend = false →
    exec (.queueDisable h q) s = .next
      (setQueue (s.taken (.scb h)) q.toNat { queueOf s q.toNat with enabled := false, waiting := false }) ∧
    exec (.queueReset h q) s = .next
      (setQueue (s.taken (.scb h)) q.toNat { queueOf s q.toNat with
        enabled := false, waiting := false, halted := false, cqFault := false, fetchFault := false, wbFault := false
        head := 0, tail := 0 })) ∧
  (∀ (s s' : State) (h : Half) (n : BitVec 12) (b : PBytes), halfFenced s h = false → frameBusy s (.scb h) = false →
    alive s = true → (cqOf s h n.toNat).enabled = false →
    pread (scbBoundary (s.taken (.scb h)) h) (regAct64 (scbBoundary (s.taken (.scb h)) h) ((Frame.scb h).base + 0x18) +
      32 * n.toNat) 32 = (s', some b) →
    b.poisoned = false → cqEntryOk b.bytes = true →
    exec (.cqEnable h n) s = .next (setCq s' h n.toNat { cqOf s h n.toNat with
      enabled := true, fault := false, base := BitVec.ofNat 64 (bget b.bytes 0 8)
      log2 := BitVec.ofNat 8 (bget b.bytes 8 1), msiAddr := BitVec.ofNat 64 (bget b.bytes 0x10 8)
      msiData := BitVec.ofNat 32 (bget b.bytes 0x18 4) })) ∧
  (∀ (s : State) (h : Half) (n : BitVec 12), halfFenced s h = false → frameBusy s (.scb h) = false →
    ((cqOf s h n.toNat).enabled = true → exec (.cqDisable h n) s = .next
      (setCq (s.taken (.scb h)) h n.toNat { cqOf s h n.toNat with
        enabled := false, used := (cqOf s h n.toNat).used - cqReserved s h n.toNat
        epoch := (cqOf s h n.toNat).epoch + 1 })) ∧
    exec (.cqReset h n) s = .next
      (setCq (s.taken (.scb h)) h n.toNat { cqOf s h n.toNat with
        enabled := false, fault := false, msiFault := false, head := 0, wr := 0, phase := true, used := 0
        epoch := (cqOf s h n.toNat).epoch + 1 })) ∧
  (∀ (s : State) (h : Half) (v : BitVec 32), halfFenced s h = false → frameBusy s (.scb h) = false →
    exec (.scbSemValueWrite h v) s = .next
      { s.taken (.scb h) with sems := sset s.sems (1024 * h.val + field (regWord s ((Frame.scb h).base + 0x38)) 9 0) v })

/-- A signal sets the value only when it lies 1 to 2^31 - 1 ahead, so signals only move a semaphore forward. -/
def Obligations.SemaphoresMoveForward : Prop :=
  ∀ (s : State) (h : Half) (g : Sig) (rest : List Sig), alive s = true → s.sigs = g :: rest → g.h = h →
    (let i := g.sem.toNat
     let moves := 1 ≤ (g.value - semOf s i).toNat ∧ (g.value - semOf s i).toNat < 2 ^ 31
     ∃ t, exec (.semaphoreSignal h) s = .next t ∧ t = { visible s (· = g.queue.toNat) with sigs := rest, sems := t.sems } ∧
       (moves → semOf t i = g.value ∧ semSatisfies (semOf t i) g.value = true) ∧ (¬ moves → semOf t i = semOf s i) ∧
       (∀ j, j ≠ i → semOf t j = semOf s j))

/-- COMMAND_DISPATCH runs the head of the first ready queue; a failed slot read and a failed head write-back halt the queue. That held heads are looked at again in the turn order, up to the first that dispatches or halts, is the model's choice, log entry 48. -/
def Obligations.ScribeChoosesAndHalts : Prop :=
  (∀ (s s' : State) (h : Half) (q : Nat) (b : PBytes), alive s = true → halfFenced s h = false →
    (∃ rest, dispatchOrder s h = q :: rest) → pread s ((queueOf s q).base.toNat + 256 * (queueOf s q).head.toNat) 256 = (s', some b) →
    b.poisoned = false → bget b.bytes 0 2 = 0 → Starts s' (cmdOfSlot q b.bytes) 0 false →
    exec (.commandDispatch h) s = exec (.nop (cmdOfSlot q b.bytes)) s' ∧
    exec (.commandDispatch h) s =
      .next (report (takeHead s' (cmdOfSlot q b.bytes) 0) s'.nextId stOk 0 0)) ∧
  (∀ (s s1 s2 : State) (h : Half) (p q : Nat) (rest : List Nat) (a b : PBytes), alive s = true → halfFenced s h = false →
    dispatchOrder s h = p :: q :: rest → p < 4096 → q < 4096 →
    pread s ((queueOf s p).base.toNat + 256 * (queueOf s p).head.toNat) 256 = (s1, some a) → a.poisoned = false → bget a.bytes 0 2 = 0 →
    (cqOf s1 h (field (cmdOfSlot p a.bytes).hdr.cq 11 0)).enabled = true → gateHeld s1 (cmdOfSlot p a.bytes) false false = true →
    (let w := setQueue s1 p { queueOf s1 p with waiting := true }
     pread w ((queueOf w q).base.toNat + 256 * (queueOf w q).head.toNat) 256 = (s2, some b) → b.poisoned = false → bget b.bytes 0 2 = 0 →
     Starts s2 (cmdOfSlot q b.bytes) 0 false →
     exec (.commandDispatch h) s = .next (report (takeHead s2 (cmdOfSlot q b.bytes) 0) s2.nextId stOk 0 0))) ∧
  (∀ (s : State) (h : Half) (p q : Nat), (s.queues.map Prod.fst).Pairwise (· < ·) → queueLive s p = true → queueLive s q = true →
    queueHalf p = h → queueHalf q = h → (queueOf s p).prio.toNat < 8 → (queueOf s q).prio.toNat < 8 →
    (let a := (queueOf s p).prio.toNat
     let b := (queueOf s q).prio.toNat
     let last := sget 0 (scbOf s h).rr a
     a < b ∨ a = b ∧ (last < p ∧ q ≤ last ∨ p < q ∧ (last < p ∨ q ≤ last)) →
     ∃ l1 l2 l3, dispatchOrder s h = l1 ++ p :: l2 ++ q :: l3)) ∧
  (∀ (s : State) (q : BitVec 12), queueLive s q.toNat = true →
    exec (.slotFetchFail q) s = .next (setQueue s q.toNat
      { queueOf s q.toNat with halted := true, fetchFault := true, waiting := false })) ∧
  (∀ (s : State) (q : BitVec 12), alive s = true → (queueOf s q.toNat).enabled = true → (queueOf s q.toNat).headWb ≠ 0 →
    exec (.headWbFail q) s = .next (setQueue s q.toNat { queueOf s q.toNat with halted := true, wbFault := true }))

/-- The completion reported first is posted first: with CQE or a status other than OK one 32-byte entry, otherwise the reservation is released. -/
def Obligations.CompletionsPostInOrder : Prop :=
  ∀ (s : State) (h : Half) (o : OutCmd) (d : Done), scbPosts s h = true → nextDone s h = some (o, d) →
    (let cq := cqOf s h o.cq.toNat
     cq.enabled = true → cq.epoch = o.cqEpoch → queueHalf o.queue.toNat = h →
     (∃ t, exec (.commandCompletion h) s = .next t ∧
       (∀ p ∈ t.outs, p.id ≠ o.id) ∧
       (bitAt o.flags 2 = true → statusIsError d.status = true → (queueOf t o.queue.toNat).halted = true) ∧
       (fenceVisibleBit o.fence = true → ∀ p ∈ t.stale, ∀ e ∈ p.2, e.1 ≠ o.queue.toNat) ∧
       t.sigs = s.sigs ++ (if fenceSignal o.fence = true ∧ o.sem.toNat ≤ 2047 then [⟨h, o.queue, o.sem, o.value⟩] else []) ∧
       (postsEntry o d = false → (cqOf t h o.cq.toNat).used = cq.used - 1 ∧ t.mem = s.mem) ∧
       (postsEntry o d = true → bitAt o.flags 1 = false → Quiet s →
         (∀ i, i < 32 → served s (cq.base.toNat + 32 * cq.wr.toNat + i) = true) →
         Holds t (cq.base.toNat + 32 * cq.wr.toNat) (cqEntry o d cq.phase) ∧
         SameOutside s t (cq.base.toNat + 32 * cq.wr.toNat) 32 ∧
         (cqOf t h o.cq.toNat).used = cq.used ∧
         (cqOf t h o.cq.toNat).wr = ringIdx cq.log2 (cq.wr.toNat + 1) ∧
         (cqOf t h o.cq.toNat).phase = (if ringIdx cq.log2 (cq.wr.toNat + 1) = 0 then !cq.phase else cq.phase))) ∧
     (postsEntry o d = true → ∃ t, exec (.cqEntryWriteFail h o.cq) s = .next t ∧
       (cqOf t h o.cq.toNat).enabled = false ∧ (cqOf t h o.cq.toNat).fault = true ∧ t.mem = s.mem) ∧
     (postsEntry o d = true → bitAt o.flags 1 = true → cq.msiAddr ≠ 0 →
       (∀ i, i < 32 → served s (cq.base.toNat + 32 * cq.wr.toNat + i) = true) →
       ∃ t, exec (.msiWriteFail h o.cq) s = .next t ∧ (cqOf t h o.cq.toNat).msiFault = true ∧
         (cqOf t h o.cq.toNat).enabled = true))

/-- A command that breaks its layout completes MALFORMED_COMMAND, a held one stays at the head, and one without its completion queue enabled halts its queue. That the completion queue is checked before the fences is the model's choice, log entry 48, and that ORDER holds until a reported command is posted, log entry 9. -/
def Obligations.MalformedFencedAndHeldCommands : Prop :=
  ∀ (s : State) (c : JCmd), queueLive s c.queue.toNat = true →
    (let q := c.queue.toNat
     let cq := cqOf s (queueHalf q) (field c.hdr.cq 11 0)
     (cq.enabled = false → exec (.nop c) s = .next (setQueue s q { queueOf s q with
        halted := true, cqFault := true, waiting := false })) ∧
     (cq.enabled = true →
       ((fenceOrder c.hdr.fence = true ∧ ∃ o ∈ s.outs, o.queue = c.queue) ∨
        (fenceWait c.hdr.fence = true ∧ c.hdr.waitSem.toNat ≤ 2047 ∧
          2 ^ 31 ≤ (semOf s c.hdr.waitSem.toNat - c.hdr.waitValue).toNat) ∨ 2 ^ cq.log2.toNat ≤ cq.used) →
       exec (.nop c) s = .next (setQueue s q { queueOf s q with waiting := true })) ∧
     (cq.enabled = true → gateHeld s c false false = false → headerBad s 0 c.hdr = true →
       exec (.nop c) s = .next (report (takeHead s c 0) s.nextId stMalformed 0 0)))

/-- GAUGE_CTL.CLEAR sets the five counters and SAT of the selected set to zero and leaves every other set. -/
def Obligations.GaugeClearClearsOneSet : Prop :=
  ∀ (s : State) (g : GaugeSel), gaugeSelFenced s g = false → (g = .blt → frameBusy s .blt = false) →
    ∃ t, exec (.gaugeClear g) s = .next t ∧ gaugeOf t (gaugeSelKey s g) = gaugeZero ∧
      (∀ k, k ≠ gaugeSelKey s g → gaugeOf t k = gaugeOf s k) ∧
      t = { s with gauges := t.gauges, frames := t.frames } ∧ (g ≠ .blt → t.frames = s.frames)

/-- A legal tile operation enters the Inkstone's queue of two, from a Scribe or from a Nib's command port; a link sends its credit, a multicast member joins its set. -/
def Obligations.TileOpsEnterTheQueueOfTwo : Prop :=
  (∀ (s : State) (c : JCmd), Starts s c 0x10 false →
    (let q := targetQuire c
     let b := tileOfBody c.body
     let s1 := takeHead s c 0x10
     let op := newOp b (.scribe s.nextId) (queueSpace s1 c.queue.toNat) (skipped s q b)
     cmdSrc s q ≠ 1 → inkRoom s q b (skipped s q b) = true → tileBad q b = false →
     quireFenced s q = false → noTraining s = false → b.hasSucc = false →
     (b.hasPred = false → b.isMcast = false →
       exec (.tileOp c) s = .next (setInk s1 q ((inkOf s q).push op))) ∧
     (b.hasPred = true → b.isMcast = false → skipped s q b = false → wordLocal s b.pred = true → partnerFenced s b.pred = false →
       ∃ t, exec (.tileOp c) s = .next t ∧ t.duct = s.duct ++ [⟨.credit, b.pred, linkWord s q, b.tag, []⟩] ∧
         inkOf t q = ({ inkOf s q with grants := (inkOf s q).grants ++ [(b.pred, b.tag)] } : Ink).push op ∧ t.mem = s1.mem) ∧
     (b.hasPred = false → b.isMcast = true → skipped s q b = false → mcFind s q b = none →
       ∃ t, exec (.tileOp c) s = .next t ∧
         t.mcast = s.mcast ++ [⟨groupOf q, b.members, liveMembers s q b.members, b.mcTag, memberBit q, b, 0, false, []⟩] ∧
         inkOf t q = (inkOf s q).push op ∧ t.mem = s1.mem))) ∧
  (∀ (s : State) (n : NibId),
    (let q := n.quire
     let v := nibOf s n
     let b := tileOfBody (bgetRange v.stage 0x20 224)
     alive s = true → v.portWait = true → portFirst s n = true → v.storeFault = none → quireFenced s q = false → cmdSrc s q ≠ 0 →
     bitAt (inkCfg s q) (4 + n.n.val) = true → tileBad q b = false → b.isMcast = false → b.hasPred = false →
     b.hasSucc = false → inkRoom s q b (skipped s q b) = true → inkBlocked s q = false →
     exec (.commandPortSubmit n) s = .next
       (setNib (setInk s q ((inkOf s q).push (newOp b (.port n.n) v.space (skipped s q b)))) n { v with portWait := false })))

/-- Streaming adds to each of the 4,096 Wells exactly the products of its row of A and its column of B, in order of k. -/
def Obligations.TileOpStreamsExactProducts : Prop :=
  ∀ (s s1 s2 : State) (q : QuireId) (op : InkOp) (fa fb : Fetched), alive s = true →
    ((op.phase = .fill ∧ (inkOf s q).running = some op) ∨
      (op.phase = .idle ∧ (inkOf s q).waiting = some op ∧ ∃ r, (inkOf s q).running = some r ∧ wellsFree s q r = true)) →
    op.skip = false → op.ended = none → inkBlocked s q = false →
    mcReady s q op.body = true → op.body.init ≠ 1 →
    inkOperandA s q op = (s1, fa) → inkOperandB s1 q op = (s2, fb) →
    fa.stop op.body.opA op.body.kLen = none → fb.stop op.body.opB op.body.kLen = none →
    ∃ t, exec (.tileOpStart q) s = .next t ∧
      (∀ r c, r < 64 → c < 64 → wellAt (inkOf t q) (64 * r + c) =
        (List.range op.body.kLen).foldl
          (fun w k => w.addProduct (operandFn op.body.opA op.body.kLen fa r k) (operandFn op.body.opB op.body.kLen fb c k))
          (if op.body.init = 0 then wellZero else wellAt (inkOf s q) (64 * r + c))) ∧
      (let op' := { op with phase := .streaming, fetchFault := none, preA := [], preB := [] }
       (op.phase = .fill → (inkOf t q).running = some op' ∧ (inkOf t q).waiting = (inkOf s q).waiting) ∧
       (∀ r, op.phase = .idle → (inkOf s q).running = some r → (inkOf t q).waiting = some op' ∧ (inkOf t q).running =
         some { r with latch := some (tileStatus (inkOf s q), (wellAt (inkOf s q) 0).cnt.toNat) })) ∧
      t.mem = s2.mem ∧ t.gauges = s.gauges ∧ t.nibs = s.nibs ∧
      (∀ p : QuireId, p ≠ q → inkOf t p = inkOf s2 p ∧ (op.body.isMcast = false → inkOf t p = inkOf s p))

/-- When streaming ends a link waits, ACTION 0 releases the tile, ACTION 1 stores every Well raw and ACTION 2 stores every row rounded and counts. -/
def Obligations.TileOutputActions : Prop :=
  ∀ (s : State) (q : QuireId) (op : InkOp), alive s = true → (inkOf s q).running = some op → op.phase = .streaming →
    op.fetchFault = none → op.ended = none → mcTogether s q op.body = true →
    (op.body.hasPred = true → exec (.streamingEnd q) s = .next (setRunning (leaveSet s q op.body false) q
      { op with phase := if op.recv.isSome then .merge else .ductusWait })) ∧
    (op.body.hasPred = false → op.body.action = 0 →
      exec (.streamingEnd q) s = .next (setRunning (leaveSet s q op.body false) q { op with phase := .released })) ∧
    (∀ pa, op.body.hasPred = false → op.body.action = 1 → Quiet s →
      Reaches s q.h op.space op.body.outAddr.toNat 393216 pa true →
      ∃ t, exec (.streamingEnd q) s = .next t ∧ (∀ i, i < 4096 → Holds t (pa + 96 * i) (wellAt (inkOf s q) i).raw) ∧
        SameOutside s t pa 393216 ∧ t.gauges = s.gauges ∧
        inkOf t q = { inkOf s q with running := some { op with phase := .send, outFault := none } }) ∧
    (∀ pa : Nat → Nat, op.body.hasPred = false → op.body.action = 2 → op.body.outFmt ∈ [0, 1, 2, 3, 4, 0xA, 0xB] → Quiet s →
      (let n := 8 * fmtBits op.body.outFmt
       (∀ i, i < 64 → Reaches s q.h op.space (rowAddr op i) n (pa i) true) →
       (∀ i j, i < 64 → j < 64 → i ≠ j → pa i + n ≤ pa j ∨ pa j + n ≤ pa i) →
       ∃ t, exec (.streamingEnd q) s = .next t ∧
         (∀ i, i < 64 → Holds t (pa i) (rowBytes op (roundedRow s q op i))) ∧
         (∀ x, (∀ i, i < 64 → x < pa i ∨ pa i + n ≤ x) → t.byteAt x = s.byteAt x) ∧
         gaugeOf t (gaugeKey 1 (q.num * 8 + op.body.gauge)) =
           (List.range 64).foldl (fun g i => g.countAll ((roundedRow s q op i).map Prod.snd))
             (gaugeOf s (gaugeKey 1 (q.num * 8 + op.body.gauge))) ∧
         inkOf t q = { inkOf s q with running := some { op with phase := .drain, outFault := none } }))

/-- An operation ends with the status its rules give, is reported to the Scribe or to its mailbox, and lets the waiting one run. -/
def Obligations.TileOpsEndAndReport : Prop :=
  ∀ (s : State) (q : QuireId) (op : InkOp), alive s = true → (inkOf s q).running = some op → inkBlocked s q = false →
    (opDone s q op = true → ∃ t, exec (.tileOpComplete q) s = .next t ∧
      EndsTile s t q op (op.ended.getD (opStatus s q op)) 0) ∧
    (∀ w st, opDone s q op = false → (inkOf s q).waiting = some w → w.ended = some st →
      ∃ t, exec (.tileOpComplete q) s = .next t ∧ (inkOf t q).running = some op ∧ (inkOf t q).waiting = none ∧
        (inkOf t q).wells = (inkOf s q).wells ∧ t.mem = s.mem ∧
        (∀ id, w.origin = .scribe id → Outstanding s id → Reported t id st (opCount s q w) 0)) ∧
    (op.skip = true → ∃ t, exec (.noWgradSkipRetire q) s = .next t ∧ EndsTile s t q op stOk 0 ∧ t.duct = s.duct) ∧
    (∀ f, op.fetchFault = some f → op.phase = .streaming → op.ended = none → op.sent = false →
      (op.body.hasSucc = true → wordLocal s op.body.succ = true ∧ partnerFenced s op.body.succ = false) →
      ∃ t, exec (.operandFetchFault q) s = .next t ∧ EndsTile s t q op f.status f.va.toNat ∧
        t.duct = s.duct ++ (if op.body.hasSucc = true then [⟨.abandon, op.body.succ, linkWord s q, op.body.tag, []⟩] else [])) ∧
    (∀ f, op.outFault = some f → ∃ t, exec (.outputWriteFault q) s = .next t ∧ EndsTile s t q op f.status f.va.toNat)

/-- A held record is written once its mailbox is free, and the palette scrub corrects one symbol and poisons a word with two, or leaves them where it is off. -/
def Obligations.HeldRecordsAndPaletteScrub : Prop :=
  (∀ (s : State) (q : QuireId) (r : HeldRec), alive s = true → (inkOf s q).held = some r →
    (nibOf s (nibIn q r.nib)).mailFull r.mbox.toNat = false → r.bytes.length = 64 →
    ∃ t, exec (.completionRecordWrite q) s = .next t ∧ inkOf t q = { inkOf s q with held := none } ∧
      MailHolds t (nibIn q r.nib) r.mbox.toNat r.bytes ∧ t.mem = s.mem) ∧
  (∀ (s : State) (q : QuireId) (word : Nat), alive s = true → quireFenced s q = false → word < 98304 →
    (inkOf s q).palPoison.contains word = false →
    (let v := inkOf s q
     (bitAt (inkCfg s q) 3 = true → sget 0 v.palEcc word = 0 →
       exec (.paletteScrub q word 1) s = .next (count (setInk s q (palMark v word 0)) (inkFrame q) 0x40 1) ∧
       exec (.paletteScrub q word 2) s = .next
         (count (setInk s q (palMark { v with palPoison := ninsert v.palPoison word } word 0)) (inkFrame q) 0x48 1)) ∧
     (∀ n, bitAt (inkCfg s q) 3 = false →
       exec (.paletteScrub q word n) s = .next (setInk s q (palMark v word (sget 0 v.palEcc word + n))))))

/-- A Ductus credit lets a finished link send its tile, a tile that arrives is merged Well by Well, and an abandon or a fenced reply ends the link with its status. -/
def Obligations.DuctusLinks : Prop :=
  ∀ (s : State) (q : QuireId) (m : DuctMsg) (rest : List DuctMsg), alive s = true → s.duct = m :: rest → m.dst = linkWord s q →
    (m.kind = .credit → (inkOf s q).running = none →
      exec (.ductusCredit q m.tag) s = .next (setInk { s with duct := rest } q
        { inkOf s q with credits := (inkOf s q).credits ++ [(m.src, m.tag)] })) ∧
    (∀ op, m.kind = .credit → (inkOf s q).running = some op → op.phase = .send → op.body.action = 3 → op.sent = false →
      op.ended = none → op.body.tag = m.tag → op.body.succ = m.src → (inkOf s q).credits = [] → wordLocal s op.body.succ = true →
      ∃ t, exec (.ductusCredit q m.tag) s = .next t ∧
        t.duct = rest ++ [⟨.tile, op.body.succ, linkWord s q, m.tag, (inkOf s q).wells⟩] ∧
        inkOf t q = { inkOf s q with running := some { op with credit := true, sent := true, mark := none } } ∧ t.mem = s.mem) ∧
    (∀ op, m.kind = .tile → (inkOf s q).running = some op → op.skip = false → op.body.hasPred = true →
      op.body.pred = m.src → op.body.tag = m.tag → op.recv = none → op.ended = none →
      (wordLocal s m.src && tileOnLig s (wordQuire m.src)) = false →
      ∃ t, exec (.ductusTileArrival q) s = .next t ∧ t.duct = rest ∧
        (inkOf t q).running = some { op with recv := some m.wells
                                             phase := if op.phase = .ductusWait then .merge else op.phase } ∧
        (inkOf t q).grants = (inkOf s q).grants.erase (m.src, m.tag) ∧ (inkOf t q).wells = (inkOf s q).wells ∧ t.mem = s.mem) ∧
    (∀ op r, (inkOf s q).running = some op → op.recv = some r → op.phase = .merge → op.ended = none → op.body.action = 0 →
      (inkOf s q).palEcc = [] → (inkOf s q).palPoison = [] → (inkOf s q).palFree = [] →
      ∃ t, exec (.ductusMergeDone q) s = .next t ∧
        (∀ i, i < 4096 → wellAt (inkOf t q) i = (wellAt (inkOf s q) i).merge (sget wellZero r i)) ∧
        (inkOf t q).running = some { op with phase := .released } ∧ t.mem = s.mem) ∧
    (∀ op, (inkOf s q).running = some op → op.skip = false → op.sent = false → op.ended = none → inkBlocked s q = false → op.body.tag = m.tag →
      op.body.hasPred = false → op.body.hasSucc = true → op.body.succ = m.src →
      (m.kind = .abandon → ∃ t, exec (.ductusAbandon q) s = .next t ∧ t.duct = rest ∧ EndsTile s t q op stPeerAbandoned 0) ∧
      (m.kind = .fenced → ∃ t, exec (.ductusFencedReply q) s = .next t ∧ t.duct = rest ∧ EndsTile s t q op stFenced 0))

/-- A Nib's scalar instruction writes its result register and moves the pc as RV32IMFC says, x0 discards writes, and nothing outside the Nib changes. -/
def Obligations.NibScalarInstructions : Prop :=
  (∀ (s : State) (n : NibId) (w : Word) (len : Nat), nibReady s n = true → (nibOf s n).lsEcc = [] →
    nibFetch (nibOf s n) = .ok (w, len) → otherRow w = false → (nibOf s n).waits (rvSources w) = false →
    (let v := nibOf s n
     let npc := v.pc + BitVec.ofNat 32 len
     let rd := rvRd w
     let a := v.xr (rvRs1 w)
     let b := v.xr (rvRs2 w)
     let op := field w 6 0
     let goes (v' : Nib) (pc : Word) : Prop := ∃ t, exec (.nibScalarInstruction n) s = .next t ∧ NibStep s t n v' pc
     (op = 0x37 → goes (v.putX rd (w &&& 0xFFFFF000)) npc) ∧
     (op = 0x17 → goes (v.putX rd (v.pc + (w &&& 0xFFFFF000))) npc) ∧
     (∀ x, op = 0x13 → aluExec w a (immI w) = some x → goes (v.putX rd x) npc) ∧
     (∀ x, op = 0x33 → aluExec w a b = some x → goes (v.putX rd x) npc) ∧
     (op = 0x6F → goes (v.putX rd npc) (v.pc + immJ w)) ∧
     (op = 0x67 → rvF3 w = 0 → goes (v.putX rd npc) ((a + immI w) &&& 0xFFFFFFFE)) ∧
     (∀ taken, op = 0x63 → branchTaken (rvF3 w) a b = some taken → goes v (if taken then v.pc + immB w else npc)) ∧
     (∀ x, op ∈ [0x43, 0x47, 0x4B, 0x4F, 0x53] → fpExec v w = some (true, x) → goes (v.putF rd x) npc) ∧
     (∀ x, op ∈ [0x43, 0x47, 0x4B, 0x4F, 0x53] → fpExec v w = some (false, x) → goes (v.putX rd x) npc) ∧
     (op = 0x0F → rvF3 w = 1 → goes v npc) ∧
     (let la := (a + immI w).toNat
      let lw := 2 ^ (rvF3 w % 4)
      op = 0x03 → rvF3 w ∈ [0, 1, 2, 4, 5] → la % lw = 0 → la + lw ≤ lsSize → lsPoisoned v la lw = false →
        goes (v.putX rd (loadValue (rvF3 w) (leNat (bgetRange v.ls la lw)))) npc) ∧
     (let sa := (a + immS w).toNat
      let sw := 2 ^ rvF3 w
      op = 0x23 → rvF3 w ≤ 2 → sa % sw = 0 → sa + sw ≤ lsSize →
        goes (lsWrite v sa (leBytes sw (b.toNat % 2 ^ (8 * sw))) false) npc))) ∧
  (∀ (v : Nib) (w : Word) (r : Nat), (v.putX 0 w).xr r = v.xr r ∧ (0 < r → r < 32 → (v.putX r w).xr r = w))

/-- CSR instructions, FENCE, ECALL and EBREAK of a Nib read and write a CSR, wait for what is outstanding, end the program and fault. That a QDMA transfer counts as outstanding here, and that a command on a Nib that waits changes nothing, is the model's choice, log entry 43. -/
def Obligations.NibSystemInstructions : Prop :=
  (∀ (s : State) (n : NibId) (f3 : BitVec 3) (csr : BitVec 12) (rd rs1 : BitVec 5) (old : Word),
    (let v := nibOf s n
     let src : Word := if 4 ≤ f3.toNat then rs1.setWidth 32 else v.xr rs1.toNat
     f3.toNat % 4 ≠ 0 → v.lsEcc = [] → nibAtWord s n (csrWord f3.toNat csr.toNat rd.toNat rs1.toNat) = true →
     (f3.toNat < 4 → v.pends false rs1.toNat = false) → csrRead s v csr.toNat = some old →
     (f3.toNat % 4 = 1 → csr.toNat < 0xC00 → ∃ t, exec (.csrAccess n f3 csr rd rs1) s = .next t ∧
       NibStep s t n ((csrWrite v csr.toNat src 0).putX rd.toNat old) (v.pc + 4)) ∧
     (f3.toNat % 4 = 2 → rs1 ≠ 0 → csr.toNat < 0xC00 → ∃ t, exec (.csrAccess n f3 csr rd rs1) s = .next t ∧
       NibStep s t n ((csrWrite v csr.toNat (old ||| src) 0).putX rd.toNat old) (v.pc + 4)) ∧
     (f3.toNat % 4 = 3 → rs1 ≠ 0 → csr.toNat < 0xC00 → ∃ t, exec (.csrAccess n f3 csr rd rs1) s = .next t ∧
       NibStep s t n ((csrWrite v csr.toNat (old &&& ~~~src) src).putX rd.toNat old) (v.pc + 4)) ∧
     (f3.toNat % 4 ≠ 1 → rs1 = 0 → ∃ t, exec (.csrAccess n f3 csr rd rs1) s = .next t ∧
       NibStep s t n (v.putX rd.toNat old) (v.pc + 4)))) ∧
  (∀ (s : State) (n : NibId) (w : Word) (len : Nat), nibReady s n = true → (nibOf s n).lsEcc = [] →
    nibFetch (nibOf s n) = .ok (w, len) → nibQuiet s n = true →
    (field w 6 0 = 0x0F → rvF3 w = 0 → ∃ t, exec (.fence n) s = .next t ∧
      NibStep s t n (nibOf s n) ((nibOf s n).pc + BitVec.ofNat 32 len)) ∧
    (w = 0x73 → (nibOf s n).xr 17 = 0 → ∃ t, exec (.ecall n) s = .next t ∧ (nibOf t n).st = .halted ∧ (nibOf t n).cause = 0 ∧
      (nibOf t n).launch = none ∧ (nibOf t n).x = (nibOf s n).x ∧ (nibOf t n).ls = (nibOf s n).ls ∧ t.mem = s.mem ∧
      (∀ id, (nibOf s n).launch = some id → Outstanding s id →
        Reported t id stOk ((nibOf s n).xr 10).toNat (nibOf s n).bstat.toNat)) ∧
    (w = 0x00100073 → ∃ t, exec (.ebreak n) s = .next t ∧ (nibOf t n).st = .faulted ∧ (nibOf t n).cause = 7 ∧
      (nibOf t n).pc = (nibOf s n).pc ∧ (nibOf t n).faultAddr = (nibOf s n).pc ∧ (nibOf t n).x = (nibOf s n).x ∧ t.mem = s.mem ∧
      (∀ id, (nibOf s n).launch = some id → Outstanding s id →
        Reported t id stBus ((nibOf s n).xr 10).toNat ((nibOf s n).bstat.toNat + 2 ^ 32 * 7)))) ∧
  (∀ (s : State) (n : NibId) (w : Word) (len : Nat), nibReady s n = true → (nibOf s n).lsEcc = [] →
    nibFetch (nibOf s n) = .ok (w, len) → (nibOf s n).rops ≠ [] ∨ qdmaBusy s n = true →
    (field w 6 0 = 0x0F → rvF3 w = 0 → exec (.fence n) s = .next s) ∧
    (w = 0x73 → (nibOf s n).xr 17 = 0 → exec (.ecall n) s = .next s) ∧
    (w = 0x00100073 → exec (.ebreak n) s = .next s))

/-- A launch starts a halted Nib, a remote load returns, a store fault and a stop halt the Nib, and the aperture reaches a halted local store. -/
def Obligations.NibLaunchReturnsAndStops : Prop :=
  (∀ (s : State) (c : JCmd), Starts s c 0x20 false →
    (let n := targetNib c
     let v := nibOf s n
     let b := c.body
     (v.st = .halted ∨ v.st = .faulted) → bget b 0 4 % 2 = 0 → bget b 0x14 4 = 0 → quireFenced s n.quire = false → noTraining s = false →
     ∃ t, exec (.nibLaunch c) s = .next t ∧
       (let u := nibOf t n
        u.st = .running ∧ u.pc = BitVec.ofNat 32 (bget b 0 4) ∧ u.launch = some s.nextId ∧
        (∀ i, i < 4 → u.xr (10 + i) = BitVec.ofNat 32 (bget b (4 + 4 * i) 4)) ∧
        (∀ r, r < 32 → r < 10 ∨ 13 < r → u.xr r = 0) ∧ (∀ r, r < 32 → u.fr r = 0) ∧
        u.bseed = BitVec.ofNat 64 (bget b 0x18 8) ∧ u.bcnt = BitVec.ofNat 64 (bget b 0x20 8) ∧ u.bctl = 0 ∧ u.bstat = 0 ∧
        u.space = queueSpace s c.queue.toNat ∧ u.v = v.v ∧ u.m = v.m ∧ u.len = v.len ∧ u.ls = v.ls ∧ u.mbox = v.mbox ∧
        u.mfull = v.mfull ∧ u.well = v.well) ∧
       (∀ a ∈ winAddrs n, regAct t a = regWord s a) ∧ t.mem = (takeHead s c 0x20).mem)) ∧
  (∀ (s : State) (n : NibId) (rd : BitVec 5) (fp : Bool) (x : Word) (a : BitVec 32) (va : BitVec 48) (pa : Nat) (inv : List Nat) (rest : List RemOp),
    alive s = true → quireFenced s n.quire = false → (nibOf s n).rops = ⟨.load rd fp x, a, va, pa, inv⟩ :: rest → (nibOf s n).storeFault = none →
    s.invals = [] →
    exec (.remoteLoadReturn n 0) s = .next (setNib s n
      (if fp then { nibOf s n with rops := rest, f := sset (nibOf s n).f rd.toNat x }
       else ({ nibOf s n with rops := rest } : Nib).setX rd.toNat x))) ∧
  (∀ (s : State) (n : NibId) (f : NFault), alive s = true → nibQuiet s n = true → (nibOf s n).portWait = false →
    (nibOf s n).storeFault = some f → ∃ t, exec (.postedStoreFault n) s = .next t ∧
      nibOf t n = { nibOf s n with st := .faulted, cause := f.cause, faultAddr := f.addr, faultVa := f.va, storeFault := none
                                   waitMask := 0, launch := none } ∧ t.mem = s.mem ∧
      (∀ id, (nibOf s n).launch = some id → Outstanding s id →
        Reported t id (nibStatus f.cause) ((nibOf s n).xr 10).toNat ((nibOf s n).bstat.toNat + 2 ^ 32 * f.cause.toNat))) ∧
  (∀ (s : State) (n : NibId), alive s = true → quireFenced s n.quire = false → (nibOf s n).st = .running ∨ (nibOf s n).st = .waiting →
    (nibOf s n).storeFault = none → nibQuiet s n = true → (nibOf s n).portWait = false →
    ∃ t, exec (.nibStop n) s = .next t ∧ (nibOf t n).st = .faulted ∧ (nibOf t n).cause = 8 ∧ (nibOf t n).pc = (nibOf s n).pc ∧
      (nibOf t n).x = (nibOf s n).x ∧ (nibOf t n).ls = (nibOf s n).ls ∧ t.mem = s.mem) ∧
  (∀ (s : State) (c : CoreId) (n : NibId) (off : BitVec 18) (l : Fin 4) (x : BitVec 64),
    (let w := 2 ^ l.val
     let v := nibOf s n
     (coreOf s c.num).running = true → off.toNat % w = 0 → off.toNat < lsSize → v.st = .halted ∨ v.st = .faulted →
     quireFenced s n.quire = false → v.lsEcc = [] → lsPoisoned v off.toNat w = false →
     exec (.apertureAccess c n off l none) s = .next (setCore s c.num
       { coreOf s c.num with result := BitVec.ofNat 64 (leNat (bgetRange v.ls off.toNat w)), exc := none }) ∧
     exec (.apertureAccess c n off l (some x)) s = .next (setCore (setNib s n (lsWrite v off.toNat (leBytes w x.toNat) false)) c.num
       { coreOf s c.num with exc := none })))

/-- VADD, VSUB, VMUL, VFMA, VFNMS, VDIV and VSQRT round each active element once, or wrap it, and touch no other element. -/
def Obligations.BrushArithmetic : Prop :=
  ∀ (s : State) (n : NibId) (i : C0),
    (let v := nibOf s n
     let f := i.fmt.toNat
     let ly := fmtLayout (fmtCode f)
     let w := width0 i
     let one (e : Nat) (x : FNum) : Nat × Option Conv :=
       ((brushOut ly v.round v.range (v.sandAt e) x).bits, some (brushOut ly v.round v.range (v.sandAt e) x))
     let fl := flushIn ly
     let act := active0 v i
     let src2 : Bool := v.marked i.vs1.toNat || (!i.s && v.marked (i.src2.toNat % 16))
     let srcD : Bool := src2 || v.marked i.vd.toNat
     (Ready0 s n 0x00 i .bin [0, 1, 2, 3] → ∃ t, exec (.vadd n i) s = .next t ∧ Vec0 s t n i act src2 (fmtFp f) fun a b _ e =>
       if fmtFp f then one e ((fl a).add false (fl b)) else ((a + b) % 2 ^ w, none)) ∧
     (Ready0 s n 0x01 i .bin [0, 1, 2, 3] → ∃ t, exec (.vsub n i) s = .next t ∧ Vec0 s t n i act src2 (fmtFp f) fun a b _ e =>
       if fmtFp f then one e ((fl a).add false (fl b).neg) else ((a + 2 ^ w - b) % 2 ^ w, none)) ∧
     (Ready0 s n 0x02 i .bin [0, 1, 2, 3] → ∃ t, exec (.vmul n i) s = .next t ∧ Vec0 s t n i act src2 (fmtFp f) fun a b _ e =>
       if fmtFp f then one e ((fl a).mul (fl b)) else (a * b % 2 ^ w, none)) ∧
     (Ready0 s n 0x03 i .bin [0, 1, 2, 3] → ∃ t, exec (.vfma n i) s = .next t ∧ Vec0 s t n i act srcD (fmtFp f) fun a b d e =>
       if fmtFp f then one e (FNum.fma false (fl a) (fl b) (fl d)) else ((a * b + d) % 2 ^ w, none)) ∧
     (Ready0 s n 0x04 i .bin [0, 1, 2, 3] → ∃ t, exec (.vfnms n i) s = .next t ∧ Vec0 s t n i act srcD (fmtFp f) fun a b d e =>
       if fmtFp f then one e (FNum.fma false (fl a).neg (fl b) (fl d)) else ((d + 2 ^ (2 * w) - a * b) % 2 ^ w, none)) ∧
     (Ready0 s n 0x07 i .bin [0, 1] → ∃ t, exec (.vdiv n i) s = .next t ∧ Vec0 s t n i act src2 true fun a b _ e =>
       one e ((fl a).div 80 (fl b))) ∧
     (Ready0 s n 0x08 i .un [0, 1] → ∃ t, exec (.vsqrt n i) s = .next t ∧ Vec0 s t n i act (v.marked i.vs1.toNat) true fun a _ _ e =>
       one e ((fl a).sqrt 80)))

/-- VMIN, VMAX, the sign injections, the bitwise and shift instructions, VMERGE, VBCAST and VIOTA write the bits their rules name and never advance BCNT. That the sign injections, VMERGE and VBCAST count in no gauge, and that VMIN and VMAX never advance BCNT, is the model's choice, log entry 41. -/
def Obligations.BrushSelectsAndBits : Prop :=
  ∀ (s : State) (n : NibId) (i : C0),
    (let v := nibOf s n
     let f := i.fmt.toNat
     let ly := fmtLayout (fmtCode f)
     let w := width0 i
     let act := active0 v i
     let src2 : Bool := v.marked i.vs1.toNat || (!i.s && v.marked (i.src2.toNat % 16))
     let mm (mx : Bool) (a b e : Nat) : Nat × Option Conv :=
       if fmtFp f then
         ((brushOut ly v.round v.range (v.sandAt e) (numMinMax mx (flushIn ly a) (flushIn ly b))).bits,
           some (brushOut ly v.round v.range (v.sandAt e) (numMinMax mx (flushIn ly a) (flushIn ly b))))
       else (if decide (intOfBits w a ≤ intOfBits w b) != mx then a else b, none)
     let top (a : Nat) : Nat := a / 2 ^ (w - 1) % 2
     (Ready0 s n 0x05 i .bin [0, 1, 2, 3] → ∃ t, exec (.vmin n i) s = .next t ∧ Vec0 s t n i act src2 false fun a b _ e => mm false a b e) ∧
     (Ready0 s n 0x06 i .bin [0, 1, 2, 3] → ∃ t, exec (.vmax n i) s = .next t ∧ Vec0 s t n i act src2 false fun a b _ e => mm true a b e) ∧
     (Ready0 s n 0x0D i .bin [0, 1] → ∃ t, exec (.vsgnj n i) s = .next t ∧ Vec0 s t n i act src2 false fun a b _ _ =>
       (a % 2 ^ (w - 1) + 2 ^ (w - 1) * top b, none)) ∧
     (Ready0 s n 0x0E i .bin [0, 1] → ∃ t, exec (.vsgnjn n i) s = .next t ∧ Vec0 s t n i act src2 false fun a b _ _ =>
       (a % 2 ^ (w - 1) + 2 ^ (w - 1) * (1 - top b), none)) ∧
     (Ready0 s n 0x0F i .bin [0, 1] → ∃ t, exec (.vsgnjx n i) s = .next t ∧ Vec0 s t n i act src2 false fun a b _ _ =>
       (a % 2 ^ (w - 1) + 2 ^ (w - 1) * ((top a + top b) % 2), none)) ∧
     (Ready0 s n 0x10 i .bin [2, 3] → ∃ t, exec (.vand n i) s = .next t ∧ Vec0 s t n i act src2 false fun a b _ _ => (a &&& b, none)) ∧
     (Ready0 s n 0x11 i .bin [2, 3] → ∃ t, exec (.vor n i) s = .next t ∧ Vec0 s t n i act src2 false fun a b _ _ => (a ||| b, none)) ∧
     (Ready0 s n 0x12 i .bin [2, 3] → ∃ t, exec (.vxor n i) s = .next t ∧ Vec0 s t n i act src2 false fun a b _ _ => (a ^^^ b, none)) ∧
     (Ready0 s n 0x13 i .bin [2, 3] → ∃ t, exec (.vsll n i) s = .next t ∧ Vec0 s t n i act src2 false fun a b _ _ =>
       (a * 2 ^ (b % w) % 2 ^ w, none)) ∧
     (Ready0 s n 0x14 i .bin [2, 3] → ∃ t, exec (.vsrl n i) s = .next t ∧ Vec0 s t n i act src2 false fun a b _ _ =>
       (a / 2 ^ (b % w), none)) ∧
     (Ready0 s n 0x15 i .bin [2, 3] → ∃ t, exec (.vsra n i) s = .next t ∧ Vec0 s t n i act src2 false fun a b _ _ =>
       (a / 2 ^ (b % w) + (if top a = 1 then 2 ^ w - 2 ^ (w - b % w) else 0), none)) ∧
     (Ready0 s n 0x19 i .merge [0, 1, 2, 3] → ∃ t, exec (.vmerge n i) s = .next t ∧ Vec0 s t n i (List.range v.len.toNat) src2 false fun a b _ e =>
       (if bitAt (v.mask i.mr.toNat) e then a else b, none)) ∧
     (Ready0 s n 0x1A i .bcast [0, 1, 2, 3] → ∃ t, exec (.vbcast n i) s = .next t ∧ Vec0 s t n i act false false fun _ b _ _ => (b, none)) ∧
     (Ready0 s n 0x1B i .iota [2] → ∃ t, exec (.viota n i) s = .next t ∧ Vec0 s t n i act false false fun _ _ _ e => (e, none)))

/-- VEXP, VLOG, VRSQRT and VTANH give in every active element the bits of their defined approximation, and round under BCTL only in BF16. -/
def Obligations.BrushApproximations : Prop :=
  ∀ (s : State) (n : NibId) (i : C0),
    (let v := nibOf s n
     let f := i.fmt.toNat
     let act := active0 v i
     let m := v.marked i.vs1.toNat
     let bf : Bool := f = 1
     let g (h : FNum → FNum) (a b d e : Nat) : Nat × Option Conv := approx h f v.round v.range (v.sandAt e) ⟨a, b, d, e⟩
     (Ready0 s n 0x09 i .un [0, 1] → ∃ t, exec (.vexp n i) s = .next t ∧ Vec0 s t n i act m bf (g brushExp)) ∧
     (Ready0 s n 0x0A i .un [0, 1] → ∃ t, exec (.vlog n i) s = .next t ∧ Vec0 s t n i act m bf (g brushLog)) ∧
     (Ready0 s n 0x0B i .un [0, 1] → ∃ t, exec (.vrsqrt n i) s = .next t ∧ Vec0 s t n i act m bf (g brushRsqrt)) ∧
     (Ready0 s n 0x0C i .un [0, 1] → ∃ t, exec (.vtanh n i) s = .next t ∧ Vec0 s t n i act m bf (g brushTanh)))

/-- VCMPEQ, VCMPLT and VCMPLE set bit e of mask vd to the comparison of element e and keep the bits of inactive elements. -/
def Obligations.BrushCompares : Prop :=
  ∀ (s : State) (n : NibId) (i : C0),
    (let f := i.fmt.toNat
     let fl := flushIn (fmtLayout (fmtCode f))
     let int := intOfBits (width0 i)
     (Ready0 s n 0x16 i .cmp [0, 1, 2, 3] → ∃ t, exec (.vcmpeq n i) s = .next t ∧ Cmp0 s t n i fun a b =>
       if fmtFp f then (fl a).eq (fl b) else decide (int a = int b)) ∧
     (Ready0 s n 0x17 i .cmp [0, 1, 2, 3] → ∃ t, exec (.vcmplt n i) s = .next t ∧ Cmp0 s t n i fun a b =>
       if fmtFp f then (fl a).lt (fl b) else decide (int a < int b)) ∧
     (Ready0 s n 0x18 i .cmp [0, 1, 2, 3] → ∃ t, exec (.vcmple n i) s = .next t ∧ Cmp0 s t n i fun a b =>
       if fmtFp f then (fl a).lt (fl b) || (fl a).eq (fl b) else decide (int a ≤ int b)))

/-- SETLEN, the reductions, VMPOP, VMLOGIC, VEXTRACT and VINSERT clip a length, reduce exactly, count and combine masks and move single slots. That VEXTRACT and VINSERT with LEN 0 and the moving instructions count in no gauge, and that an integer reduction counts its result, is the model's choice, log entry 41. -/
def Obligations.BrushScalarsAndMasks : Prop :=
  ∀ (s : State) (n : NibId) (i : C1),
    (let v := nibOf s n
     let len := v.len.toNat
     let f := i.f3.toNat
     let w := fmtBits (fmtCode f)
     let act := activeElems len (v.mk1 i)
     let rd := i.rd.toNat
     let x1 := (v.xr i.rs1.toNat).toNat
     let k := (v.xr i.rs2.toNat).toNat
     let ints := act.map fun e => intOfBits w (v.velem i.rs1.toNat w e)
     let goes (c : Instr) (v' : Nib) : Prop := ∃ t, exec c s = .next t ∧ NibStep s t n v' (v.pc + 4)
     let goesI (c : Instr) (x : Int) : Prop := ∃ t, exec c s = .next t ∧
       NibStep { s with gauges := t.gauges } t n (v.putX rd (BitVec.ofInt 32 x)) (v.pc + 4) ∧
       (∀ k, gaugeOf t k = if k = nibGauge n v then
         (gaugeOf s k).countAll [{ bits := (x % 2 ^ 32).toNat, ovf := false, zeroed := false, subn := false, nan := false }] else gaugeOf s k)
     let red : Prop := 2 ≤ f ∧ f ≤ 3 ∧ i.rs1.toNat < 16 ∧ i.rs2 = 0 ∧ badLen v w (i.msk ≠ 0) = false ∧
       v.marked i.rs1.toNat = false ∧ 0 < len
     let redF : Prop := f ≤ 1 ∧ i.rs1.toNat < 16 ∧ i.rs2 = 0 ∧ badLen v w (i.msk ≠ 0) = false ∧
       v.marked i.rs1.toNat = false ∧ 0 < len
     let leaf (x : FNum) : Conv := flushOut fmtFP32 (fmtFP32.conv .rne 2 0 x)
     let goesF (c : Instr) (z : FNum) (g : FNum → FNum → FNum) : Prop :=
       (let r := redTree (leaf z)
          (fun a b => brushOut fmtFP32 .rne v.range 0 (g (flushIn fmtFP32 a.bits) (flushIn fmtFP32 b.bits))) 11
          (act.map fun e => leaf (flushIn (fmtLayout (fmtCode f)) (v.velem i.rs1.toNat w e)))
        ∃ t, exec c s = .next t ∧ NibStep { s with gauges := t.gauges } t n (v.putF rd (BitVec.ofNat 32 r.bits)) (v.pc + 4) ∧
          (nibOf t n).fr rd = BitVec.ofNat 32 r.bits ∧
          (∀ k, gaugeOf t k = if k = nibGauge n v then (gaugeOf s k).countAll [r] else gaugeOf s k))
     (Ready1 s n 0x00 i [i.rs1.toNat] → f ≤ 2 → i.rs2 = 0 → i.msk = 0 →
       (let l := min x1 (32768 / f3Width i.f3)
        goes (.setlen n i) ({ v with len := BitVec.ofNat 13 l }.putX rd (BitVec.ofNat 32 l)))) ∧
     (Ready1 s n 0x08 i [] → red → goesI (.vredsum n i) ints.sum) ∧
     (Ready1 s n 0x09 i [] → red → goesI (.vredmax n i) (ints.foldl max (-(2 ^ 31)))) ∧
     (Ready1 s n 0x0A i [] → red → goesI (.vredmin n i) (ints.foldl min (2 ^ 31 - 1))) ∧
     (Ready1 s n 0x08 i [] → redF → goesF (.vredsum n i) (.fin false 0 0) fun a b => a.add false b) ∧
     (Ready1 s n 0x09 i [] → redF → goesF (.vredmax n i) (.inf true) (numMinMax true)) ∧
     (Ready1 s n 0x0A i [] → redF → goesF (.vredmin n i) (.inf false) (numMinMax false)) ∧
     (Ready1 s n 0x0B i [] → i.f3 = 0 → i.rs1.toNat < 4 → i.rs2 = 0 → i.msk = 0 → 0 < len → len ≤ 1024 →
       goes (.vmpop n i) (v.putX rd (BitVec.ofNat 32 ((List.range len).countP fun e => bitAt (v.mask i.rs1.toNat) e)))) ∧
     (Ready1 s n 0x0C i [] → f ≤ 3 → rd < 4 → i.rs1.toNat < 4 → i.rs2.toNat < 4 → i.msk = 0 → len ≤ 1024 →
       ∃ t, exec (.vmlogic n i) s = .next t ∧ NibStep s t n { v with m := (nibOf t n).m } (v.pc + 4) ∧
         (∀ r, r ≠ rd → (nibOf t n).mask r = v.mask r) ∧
         (∀ e, e < 1024 → bitAt ((nibOf t n).mask rd) e =
           (let a := bitAt (v.mask i.rs1.toNat) e
            let b := bitAt (v.mask i.rs2.toNat) e
            if len ≤ e then bitAt (v.mask rd) e
            else match f with | 0 => a && b | 1 => a || b | 2 => a != b | _ => a && !b))) ∧
     (Ready1 s n 0x0F i [i.rs2.toNat] → i.f3 = 0 → i.rs1.toNat < 16 → i.msk = 0 → v.marked i.rs1.toNat = false → 0 < len → k < 1024 →
       goes (.vextract n i) (v.putX rd (sget 0 v.v (1024 * i.rs1.toNat + k)))) ∧
     (Ready1 s n 0x10 i [i.rs1.toNat, i.rs2.toNat] → i.f3 = 0 → rd < 16 → i.msk = 0 → 0 < len → k < 1024 →
       ∃ t, exec (.vinsert n i) s = .next t ∧ NibStep s t n { v with v := (nibOf t n).v } (v.pc + 4) ∧
         ∀ j, sget 0 (nibOf t n).v j = if j = 1024 * rd + k then v.xr i.rs1.toNat else sget 0 v.v j) ∧
     (Ready1 s n 0x0F i [i.rs2.toNat] → i.f3 = 0 → i.rs1.toNat < 16 → i.msk = 0 → len = 0 → goes (.vextract n i) v) ∧
     (Ready1 s n 0x10 i [i.rs1.toNat, i.rs2.toNat] → i.f3 = 0 → rd < 16 → i.msk = 0 → len = 0 → goes (.vinsert n i) v))

/-- VLD, VGATHER and VMLD bring the bytes at each active element's address, VST, VSCATTER and VMST write them, and nothing else changes. -/
def Obligations.BrushLoadsAndStores : Prop :=
  (∀ (s s' : State) (n : NibId) (i : C1) (l : List (Nat × Nat × Bool)),
    (let v := nibOf s n
     let act := activeElems v.len.toNat (v.mk1 i)
     let w := f3Width i.f3
     let rd := i.rd.toNat
     let loads (c : Instr) (w : Nat) : Prop := ∃ t, exec c s = .next t ∧
       VecPut v (nibOf t n) rd w (l.map fun x => (x.1, x.2.1)) ∧
       (nibOf t n).pc = v.pc + 4 ∧ (nibOf t n).x = v.x ∧ (nibOf t n).m = v.m ∧ (nibOf t n).ls = (nibOf s' n).ls ∧ t.mem = s'.mem
     let stores (c : Instr) : Prop := ∃ t, exec c s = .next t ∧ NibStep s' t n (nibOf s' n) (v.pc + 4) ∧
       (nibOf t n).x = v.x ∧ (nibOf t n).v = v.v ∧ (nibOf t n).m = v.m
     let el (w e : Nat) : List Byte := leBytes (w / 8) (v.velem rd w e)
     let vec : List (Nat × Nat) := stepAddrs v i (w / 8) act
     let gat : List (Nat × Nat) := gatherAddrs v i act
     (Ready1 s n 0x01 i [i.rs1.toNat, i.rs2.toNat] → w ≠ 0 → rd < 16 → badLen v w (i.msk ≠ 0) = false →
       brushStalls s n (w / 8) (vec.map Prod.snd) = false → brushReads n (w / 8) false none vec s = (s', .ok l) → loads (.vld n i) w) ∧
     (Ready1 s n 0x03 i [i.rs1.toNat] → i.f3 = 0 → rd < 16 → i.rs2.toNat < 16 → badLen v 32 false = false →
       brushStalls s n 4 (gat.map Prod.snd) = false → brushReads n 4 true none gat s = (s', .ok l) → loads (.vgather n i) 32) ∧
     (Ready1 s n 0x02 i [i.rs1.toNat, i.rs2.toNat] → w ≠ 0 → rd < 16 → badLen v w (i.msk ≠ 0) = false →
       brushStalls s n (w / 8) (vec.map Prod.snd) = false →
       brushWrites n (w / 8) false (v.marked rd) (vec.map fun x => (x.2, el w x.1)) s = (s', .ok ()) → stores (.vst n i)) ∧
     (Ready1 s n 0x04 i [i.rs1.toNat] → i.f3 = 0 → rd < 16 → i.rs2.toNat < 16 → badLen v 32 false = false →
       brushStalls s n 4 (gat.map Prod.snd) = false →
       brushWrites n 4 true (v.marked rd || v.marked i.rs2.toNat) (gat.map fun x => (x.2, el 32 x.1)) s = (s', .ok ()) → stores (.vscatter n i)))) ∧
  (∀ (s : State) (n : NibId) (i : C1),
    (let v := nibOf s n
     let len := v.len.toNat
     let w := f3Width i.f3
     let rd := i.rd.toNat
     let base := (v.xr i.rs1.toNat).toNat
     (Ready1 s n 0x01 i [i.rs1.toNat, i.rs2.toNat] → w ≠ 0 → rd < 16 → badLen v w (i.msk ≠ 0) = false →
       (∀ x ∈ stepAddrs v i (w / 8) (activeElems len (v.mk1 i)), x.2 % (w / 8) = 0 ∧ x.2 + w / 8 ≤ lsSize) →
       ∃ t, exec (.vld n i) s = .next t ∧ t = { s with nibs := t.nibs, regs := t.regs } ∧
         VecPut v (nibOf t n) rd w ((stepAddrs v i (w / 8) (activeElems len (v.mk1 i))).map fun x => (x.1, leNat (bgetRange v.ls x.2 (w / 8))))) ∧
     (Ready1 s n 0x02 i [i.rs1.toNat, i.rs2.toNat] → w ≠ 0 → rd < 16 → badLen v w (i.msk ≠ 0) = false →
       i.msk = 0 → i.rs2 = 0 → base % (w / 8) = 0 → base + len * (w / 8) ≤ lsSize →
       ∃ t, exec (.vst n i) s = .next t ∧ t = { s with nibs := t.nibs, regs := t.regs } ∧
         (nibOf t n).v = v.v ∧ (nibOf t n).x = v.x ∧ (nibOf t n).pc = v.pc + 4 ∧
         (nibOf t n).bstat = (if v.marked rd ∧ 0 < len then v.bstat ||| 4 else v.bstat) ∧
         (∀ e j, e < len → j < w / 8 → sget 0 (nibOf t n).ls (base + e * (w / 8) + j) = BitVec.ofNat 8 (v.velem rd w e / 256 ^ j)) ∧
         (∀ a, a < base ∨ base + len * (w / 8) ≤ a → sget 0 (nibOf t n).ls a = sget 0 v.ls a)) ∧
     (Ready1 s n 0x0D i [i.rs1.toNat] → i.f3 = 0 → rd < 4 → i.rs2 = 0 → i.msk = 0 → len ≤ 1024 → base + 128 ≤ lsSize →
       lsPoisoned v base (max 1 (cdiv len 8)) = false →
       ∃ t, exec (.vmld n i) s = .next t ∧ NibStep s t n { v with m := (nibOf t n).m } (v.pc + 4) ∧
         (∀ r, r ≠ rd → (nibOf t n).mask r = v.mask r) ∧
         (∀ e, e < 1024 → bitAt ((nibOf t n).mask rd) e =
           if e < len then bitAt ((bgetRange v.ls (base + e / 8) 1).headD 0) (e % 8) else bitAt (v.mask rd) e)) ∧
     (Ready1 s n 0x0E i [i.rs1.toNat] → i.f3 = 0 → rd < 4 → i.rs2 = 0 → i.msk = 0 → len ≤ 1024 → base + 128 ≤ lsSize →
       ∃ t, exec (.vmst n i) s = .next t ∧ t = { s with nibs := t.nibs, regs := t.regs } ∧
         (nibOf t n).m = v.m ∧ (nibOf t n).x = v.x ∧ (nibOf t n).pc = v.pc + 4 ∧
         (∀ e, e < 8 * cdiv len 8 → bitAt (sget 0 (nibOf t n).ls (base + e / 8)) (e % 8) = (decide (e < len) && bitAt (v.mask rd) e)) ∧
         (∀ a, a < base ∨ base + cdiv len 8 ≤ a → sget 0 (nibOf t n).ls a = sget 0 v.ls a))))

/-- VCVT converts each active element once, VCOMPRESS packs the active elements and counts them, VEXPAND spreads packed elements over the active places. That an INT8 source widens uncounted, and that a block's scale is taken from its active elements alone, is the model's choice, log entry 42. -/
def Obligations.BrushConvertsCompressesExpands : Prop :=
  ∀ (s : State) (n : NibId) (i : C1),
    (let v := nibOf s n
     let len := v.len.toNat
     let act := activeElems len (v.mk1 i)
     let rd := i.rd.toNat
     let r1 := i.rs1.toNat
     let src := 8 * (i.rs2.toNat % 2) + i.f3.toNat
     let dst := i.rs2.toNat / 2
     let conv (e : Nat) : Conv := fmtConv dst v.round v.range (v.sandAt e) (srcValue v src r1 e)
     let out (e : Nat) : Conv := if dst ≤ 1 then flushOut (fmtLayout dst) (conv e) else conv e
     let legal : Prop := src ≤ 0xB ∧ dst ≤ 0xB ∧ rd < 16 ∧ r1 < 16 ∧ badLen v (fmtBits src) (i.msk ≠ 0) = false ∧
       badLen v (fmtBits dst) false = false ∧ (fmtMx src = true → r1 % 2 = 0 ∧ len % 32 = 0)
     (Ready1 s n 0x05 i [] → legal → fmtMx dst = false →
       ∃ t, exec (.vcvt n i) s = .next t ∧ VecPut v (nibOf t n) rd (fmtBits dst) (act.map fun e => (e, (out e).bits)) ∧
         (∀ k, gaugeOf t k = if k = nibGauge n v ∧ widening src dst = false then (gaugeOf s k).countAll (act.map out) else gaugeOf s k) ∧
         (nibOf t n).bcnt = (if widening src dst = false ∧ v.round = .sr then v.bcnt + v.len.setWidth 64 else v.bcnt) ∧
         (nibOf t n).x = v.x ∧ (nibOf t n).m = v.m ∧ (nibOf t n).pc = v.pc + 4 ∧
         t = { s with nibs := t.nibs, regs := t.regs, gauges := t.gauges }) ∧
     (Ready1 s n 0x05 i [] → legal → fmtMx dst = true → rd % 2 = 0 → len % 32 = 0 →
       ∃ t, exec (.vcvt n i) s = .next t ∧
         (∀ k, k < len / 32 → (∃ e ∈ act, e / 32 = k) → (nibOf t n).velem (rd + 1) 8 k = (mxDst v src dst r1 act k).1 % 256 ∧
           ∀ y ∈ (mxDst v src dst r1 act k).2, (nibOf t n).velem rd (fmtBits dst) y.1 = y.2.bits % 2 ^ fmtBits dst) ∧
         (∀ r, r < 16 → r ≠ rd → r ≠ rd + 1 → ∀ j, j < 1024 → sget 0 (nibOf t n).v (1024 * r + j) = sget 0 v.v (1024 * r + j)) ∧
         (nibOf t n).x = v.x ∧ (nibOf t n).m = v.m ∧ (nibOf t n).pc = v.pc + 4 ∧
         t = { s with nibs := t.nibs, regs := t.regs, gauges := t.gauges }) ∧
     (Ready1 s n 0x06 i [] → i.f3 = 0 → rd < 16 → r1 < 16 → badLen v 32 false = false → 0 < len →
       ∃ t, exec (.vcompress n i) s = .next t ∧
         VecPut v (nibOf t n) rd 32 (act.zipIdx.map fun x => (x.2, v.velem r1 32 x.1)) ∧
         (∀ r, (nibOf t n).xr r = if r % 32 = i.rs2.toNat ∧ r % 32 ≠ 0 then BitVec.ofNat 32 act.length else v.xr r) ∧
         (nibOf t n).m = v.m ∧ (nibOf t n).pc = v.pc + 4 ∧ t = { s with nibs := t.nibs, regs := t.regs }) ∧
     (Ready1 s n 0x07 i [] → i.f3 = 0 → rd < 16 → r1 < 16 → i.rs2 = 0 → i.rd ≠ i.rs1 → badLen v 32 false = false → 0 < len →
       ∃ t, exec (.vexpand n i) s = .next t ∧
         VecPut v (nibOf t n) rd 32 (act.zipIdx.map fun x => (x.1, v.velem r1 32 x.2)) ∧
         (nibOf t n).x = v.x ∧ (nibOf t n).m = v.m ∧ (nibOf t n).pc = v.pc + 4 ∧ t = { s with nibs := t.nibs, regs := t.regs }))

/-- NWZERO, NWMAC, NWADD, NWREAD, NWST, NWLD and NWFLAGS clear the Nib Well, add to it exactly, round it, move its raw form and read its flags. -/
def Obligations.NibWellInstructions : Prop :=
  ∀ (s : State) (n : NibId) (i : C1),
    (let v := nibOf s n
     let f := i.f3.toNat
     let rd := i.rd.toNat
     let r1 := i.rs1.toNat
     let r2 := i.rs2.toNat
     let act := activeElems v.len.toNat (v.mk1 i)
     let el (r e : Nat) (mk : Bool) : Opnd := if mk then .pois else .val (fmtValue (fmtCode f) (v.velem r (fmtBits (fmtCode f)) e))
     let goes (c : Instr) (v' : Nib) : Prop := ∃ t, exec c s = .next t ∧ NibStep s t n v' (v.pc + 4)
     let a := (v.xr r1).toNat
     (Ready1 s n 0x11 i [] → rd = 0 → f = 0 → r1 = 0 → r2 = 0 → i.msk = 0 → goes (.nwzero n i) { v with well := wellZero }) ∧
     (Ready1 s n 0x12 i [] → f ≤ 3 → rd = 0 → r1 < 16 → r2 < 16 → badLen v (fmtBits (fmtCode f)) (i.msk ≠ 0) = false →
       (let mk := v.marked r1 || v.marked r2
        goes (.nwmac n i) { v with well := act.foldl (fun w e => w.addProduct (el r1 e mk) (el r2 e mk)) v.well })) ∧
     (Ready1 s n 0x13 i [] → f ≤ 3 → rd = 0 → r1 < 16 → r2 = 0 → badLen v (fmtBits (fmtCode f)) (i.msk ≠ 0) = false →
       goes (.nwadd n i) { v with well := act.foldl (fun w e => w.addProduct (el r1 e (v.marked r1)) (.val (.fin false 1 0))) v.well }) ∧
     (Ready1 s n 0x14 i [] → nwCode r2 = true → f = 0 → r1 = 0 → i.msk = 0 →
       (let c := v.well.readout r2 v.round v.range (v.sandAt 0)
        ∃ t, exec (.nwread n i) s = .next t ∧
          (∀ r, (nibOf t n).xr r = if r % 32 = rd ∧ rd ≠ 0 then BitVec.ofNat 32 c.2.bits else v.xr r) ∧
          gaugeOf t (nibGauge n v) = (gaugeOf s (nibGauge n v)).countAll [c.2] ∧
          (nibOf t n).bstat = v.bstat ||| (if v.well.flag flOvf then 1 else 0) ||| (if v.well.flag flPoison then 2 else 0) ∧
          (nibOf t n).bcnt = (if v.round = .sr then v.bcnt + 1 else v.bcnt) ∧
          (nibOf t n).well = v.well ∧ (nibOf t n).v = v.v ∧ (nibOf t n).pc = v.pc + 4 ∧
          t = { s with nibs := t.nibs, regs := t.regs, gauges := t.gauges })) ∧
     (Ready1 s n 0x15 i [r1] → rd = 0 → f = 0 → r2 = 0 → i.msk = 0 → a % 32 = 0 → a + 96 ≤ lsSize →
       ∃ t, exec (.nwst n i) s = .next t ∧ t = { s with nibs := t.nibs, regs := t.regs } ∧
         (∀ j, sget 0 (nibOf t n).ls j = if a ≤ j ∧ j < a + 96 then v.well.raw.getD (j - a) 0 else sget 0 v.ls j) ∧
         (nibOf t n).well = v.well ∧ (nibOf t n).x = v.x ∧ (nibOf t n).pc = v.pc + 4) ∧
     (Ready1 s n 0x16 i [r1] → rd = 0 → f = 0 → r2 = 0 → i.msk = 0 → a % 32 = 0 → a + 96 ≤ lsSize → lsPoisoned v a 96 = false →
       (v.ls.map Prod.fst).Pairwise (· < ·) →
       goes (.nwld n i) { v with well := wellOfRaw (bgetRange v.ls a 96) false }) ∧
     (Ready1 s n 0x17 i [] → f = 0 → r1 = 0 → r2 = 0 → i.msk = 0 → goes (.nwflags n i) (v.putX rd v.well.flags)))

/-- MSEND sends 64 bytes, delivery fills an empty mailbox, MFREE empties it, MWAIT waits, NAMO acts once at the home and QDMA transfers. That the sender names which message the home tries, log entry 13, that a QDMA descriptor is read when it is served, log entry 43, and that NAMO is whole within its command, log entry 25, are the model's choices. -/
def Obligations.MailboxesAtomicsAndQdma : Prop :=
  (∀ (s : State) (n : NibId) (i : C1),
    (let v := nibOf s n
     let rd := i.rd.toNat
     let a := v.xr i.rs1.toNat
     let b := v.xr i.rs2.toNat
     let m : BitVec 16 := a.setWidth 16
     (Ready1 s n 0x18 i [i.rs1.toNat, i.rs2.toNat] → i.rd = 0 → i.f3 = 0 → i.msk = 0 → a.toNat % 64 = 0 → a.toNat + 64 ≤ lsSize →
       lsPoisoned v a.toNat 64 = false → v.rops.length < 32 →
       ∃ t, exec (.msend n i) s = .next t ∧ t.mail = s.mail ++ [⟨n.num, b, bgetRange v.ls a.toNat 64, false⟩] ∧
         NibStep { s with mail := t.mail, links := t.links } t n { v with rops := v.rops ++ [⟨.msend, b, 0, 0, []⟩] } (v.pc + 4)) ∧
     (Ready1 s n 0x19 i [i.rs1.toNat] → i.rd = 0 → i.f3 = 0 → i.rs2 = 0 → i.msk = 0 →
       ∃ t, exec (.mfree n i) s = .next t ∧ NibStep s t n { v with mfull := (nibOf t n).mfull } (v.pc + 4) ∧
         (∀ k, k < 16 → (nibOf t n).mailFull k = (v.mailFull k && decide (k ≠ a.toNat % 16)))) ∧
     (Ready1 s n 0x1A i [i.rs1.toNat] → i.f3 = 0 → i.rs2 = 0 → i.msk = 0 →
       (m = 0 ∨ v.mfull &&& m ≠ 0 → ∃ t, exec (.mwait n i) s = .next t ∧ NibStep s t n (v.putX rd (v.mfull.setWidth 32)) (v.pc + 4)) ∧
       (m ≠ 0 → v.mfull &&& m = 0 → ∃ t, exec (.mwait n i) s = .next t ∧ (nibOf t n).st = .waiting ∧ (nibOf t n).pc = v.pc ∧
         (nibOf t n).waitMask = m ∧ (nibOf t n).x = v.x ∧ t.mem = s.mem)) ∧
     (∀ va pa op, Ready1 s n 0x1B i [rd, i.rs1.toNat, i.rs2.toNat] → i.msk = 0 → namoOp i.f3 = some op → v.rops.length < 32 →
       nibAddr s n a.toNat 4 = .win va → cachedPa s n.h v.space va true = some pa → mappedAt s pa = true → Quiet s →
       linePoisoned s (pa / 128) = false → lineEcc s (pa / 128) = [] →
       (let old := leNat (mgets s.mem.cells pa 4)
        ∃ t, exec (.namo n i) s = .next t ∧
          Holds t pa (leBytes 4 (amoVal op 32 old b.toNat (v.xr rd).toNat)) ∧ SameOutside s t pa 4 ∧
          nibOf t n = { v.putX rd (BitVec.ofNat 32 old) with pc := v.pc + 4, instret := v.instret + 1, cycle := (nibOf t n).cycle })) ∧
     (Ready1 s n 0x1C i [i.rs1.toNat] → i.rd = 0 → i.f3 = 0 → i.rs2 = 0 → i.msk = 0 → a.toNat % 32 = 0 → a.toNat + 32 ≤ lsSize →
       ∃ t, exec (.qdma n i) s = .next t ∧ sget [] t.qdma n.quire.num = sget [] s.qdma n.quire.num ++ [⟨n.n, a⟩] ∧
         NibStep { s with qdma := t.qdma } t n v (v.pc + 4)))) ∧
  (∀ (s : State) (n : NibId) (b : Fin 16) (src : NibId) (bytes : List Byte) (rest : List Mail),
    (let dst : Word := BitVec.ofNat 32 (b.val + 16 * n.n.val + 256 * n.q.val + 65536 * n.h.val)
     ∀ w, alive s = true → s.mail = ⟨src.num, dst, bytes, w⟩ :: rest → bytes.length = 64 → src ≠ n → quireFenced s n.quire = false →
     (nibOf s src).rops = [⟨.msend, dst, 0, 0, []⟩] → (nibOf s src).storeFault = none →
     ((nibOf s n).mailFull b.val = true ∨ (∃ p ∈ rest, p.tried = true ∧ p.dst = dst ∧ p.src < src.num) →
       exec (.mailboxDelivery 0) s = .next { s with mail := ⟨src.num, dst, bytes, true⟩ :: rest }) ∧
     ((inkOf s n.quire).held = none → (∀ p ∈ rest, p.tried = true → p.dst = dst → src.num ≤ p.src) →
     (nibOf s n).mailFull b.val = false → (nibOf s n).st ≠ .waiting →
     ∃ t, exec (.mailboxDelivery 0) s = .next t ∧ t.mail = rest ∧ MailHolds t n b.val bytes ∧
       nibOf t src = { nibOf s src with rops := [] } ∧ (∀ p, p ≠ n → p ≠ src → nibOf t p = nibOf s p) ∧ t.mem = s.mem))) ∧
  (∀ (s : State) (q : QuireId) (x : QXfer) (rest : List QXfer), alive s = true → quireFenced s q = false →
    sget [] s.qdma q.num = x :: rest → x.desc.toNat % 32 = 0 → x.desc.toNat + 32 ≤ lsSize → (nibOf s (nibIn q x.nib)).storeFault = none → (nibOf s (nibIn q x.nib)).lsEcc = [] →
    ∃ t, exec (.qdmaTransferDone q) s = .next t ∧ sget [] t.qdma q.num = rest ∧
      bitAt (sget 0 (nibOf t (nibIn q x.nib)).ls (x.desc.toNat + 0x1B)) 7 = true ∧
      (let n := nibIn q x.nib
       let v := nibOf s n
       let d := x.desc.toNat
       let b := bgetRange v.ls d 32
       let l := bget b 0 4
       let row := bget b 4 4
       let va := bget b 8 8
       let toMem := bget b 0x12 1 % 2
       ∀ pa, qdmaBad b = false → lsPoisoned v d 32 = false → bget b 0x10 2 = 1 → va % 128 + row ≤ 128 →
         cachedPa s q.h v.space va (toMem = 1) = some pa → mappedAt s pa = true → Quiet s →
         sget 0 (nibOf t n).ls (d + 0x18) = 0 ∧
         (toMem = 1 → Holds t pa (bgetRange v.ls l row)) ∧
         (toMem = 0 → linePoisoned s (pa / 128) = false → lineEcc s (pa / 128) = [] →
           ∀ j, j < row → (l + j < d + 0x18 ∨ d + 0x1C ≤ l + j) → sget 0 (nibOf t n).ls (l + j) = s.byteAt (pa + j))))

/-- A DMA channel starts from a command or from RUN, pauses between lines, resumes at the first unwritten byte, and leaves a halt by its descriptor pointer. -/
def Obligations.DmaStartsPausesAndResumes : Prop :=
  (∀ (s : State) (c : JCmd), Starts s c 0x30 false → bget c.body 0 8 % 64 = 0 →
    (let d : DmaId := ⟨queueHalf c.queue.toNat, ⟨targetIndex c.hdr.target % 64, Nat.mod_lt _ (by decide)⟩⟩
     dmaFenced s d = false → (dmaOf s d).st = .idle → (dmaOf s d).pauseReq = false → updReads s d = false →
     exec (.dmaStart c) s = .next (setDma (takeHead s c 0x30) d { dmaOf s d with
       ptr := BitVec.ofNat 64 (bget c.body 0 8), bindSh := c.queue, bindAct := c.queue, st := .running, desc := none, done := 0
       reads := [], poison := false, fail := none, launch := some s.nextId, space := queueSpace s c.queue.toNat
       processed := 0, failed := 0, firstFail := none, codes := [] }))) ∧
  (∀ (s : State) (d : DmaId), alive s = true → dmaFenced s d = false →
    (let v := dmaOf s d
     (v.st = .idle → v.pauseReq = false → updReads s d = false → exec (.dmaRun d) s = .next (setDma s d { v with
       bindAct := v.bindSh, st := .running, desc := none, done := 0, reads := [], poison := false, fail := none, launch := none
       space := queueSpace s v.bindSh.toNat, processed := 0, failed := 0, firstFail := none, codes := [] })) ∧
     (v.st = .running → v.reads = [] → v.desc = none →
       exec (.dmaPause d) s = .next (setDma s d { v with pauseReq := true, st := .paused })) ∧
     (v.st = .running → v.reads ≠ [] → exec (.dmaPause d) s = .next (setDma s d { v with pauseReq := true, st := .pausing })) ∧
     (v.st = .paused → exec (.dmaResume d) s = .next (setIssued s d { v with pauseReq := false, st := .running })) ∧
     (∀ p, v.st = .halted → exec (.dmaDescPtrWrite d p) s = .next (setDma s d { v with
       ptr := p, desc := none, fail := none, poison := false, st := .idle }))))

/-- A fetched descriptor starts, ends the chain when OWN is clear or halts the channel when unreadable; a completed one is written back and NEXT follows. That a failing write-back counts as processed and a failing fetch as failed alone is the model's choice, log entry 51; that an address at or above 2^48 does not translate is log entry 22. -/
def Obligations.DmaDescriptorsRunInOrder : Prop :=
  (∀ (s s' : State) (d : DmaId) (b : PBytes), alive s = true → dmaFenced s d = false → (dmaOf s d).st = .running →
    (dmaOf s d).desc = none → (dmaOf s d).ptr.toNat % 64 = 0 →
    vread s d.h (dmaOf s d).space (dmaOf s d).ptr.toNat 64 = (s', .ok b) → b.poisoned = false →
    (let v := dmaOf s d
     let x := dmaDesc b.bytes
     (x.own = true → x.bad = false → exec (.descriptorFetch d) s = .next
       (setIssued (if x.waitPrev then visible s' (· = v.space.queue.toNat) else s') d
         { v with desc := some x, done := 0, poison := false, fail := none })) ∧
     (x.own = false → ∃ t, exec (.descriptorFetch d) s = .next t ∧ (dmaOf t d).st = .idle ∧ (dmaOf t d).stop = 2 ∧
       (dmaOf t d).launch = none ∧ (dmaOf t d).ptr = v.ptr ∧ t.mem = s'.mem ∧
       ∀ id, v.launch = some id → Outstanding s' id →
         Reported t id (statusFirst v.codes) ((v.firstFail.getD 0).toNat) (v.processed + 2 ^ 32 * v.failed)))) ∧
  (∀ (s : State) (d : DmaId), alive s = true → dmaFenced s d = false → (dmaOf s d).st = .running → (dmaOf s d).desc = none →
    (dmaOf s d).ptr.toNat % 64 ≠ 0 →
    ∃ t, exec (.descriptorFetchFault d) s = .next t ∧ (dmaOf t d).st = .halted ∧ (dmaOf t d).stop = 3 ∧
      (dmaOf t d).errAddr = (dmaOf s d).ptr ∧ (dmaOf t d).failed = (dmaOf s d).failed + 1 ∧ t.mem = s.mem ∧
      (dmaOf t d).codes = (dmaOf s d).codes ++ [stBus] ∧
      ∀ id, (dmaOf s d).launch = some id → Outstanding s id → Reported t id (statusFirst ((dmaOf s d).codes ++ [stBus]))
        (((dmaOf s d).firstFail.getD (dmaOf s d).ptr).toNat) ((dmaOf s d).processed + 2 ^ 32 * ((dmaOf s d).failed + 1))) ∧
  (∀ (s : State) (d : DmaId) (x : DmaDesc) (pa : Nat), alive s = true → dmaFenced s d = false → (dmaOf s d).st = .running →
    (dmaOf s d).desc = some x → x.own = true → (dmaOf s d).fail = none → (dmaOf s d).poison = false → x.total ≤ (dmaOf s d).done →
    Quiet s → Reaches s d.h (dmaOf s d).space (dmaOf s d).ptr.toNat 64 pa true →
    ∃ t, exec (.descriptorComplete d) s = .next t ∧ Holds t (pa + 4) (leBytes 4 0) ∧
      Holds t (pa + 0x30) (leBytes 8 (dmaOf s d).done) ∧ Holds t pa (leBytes 4 (x.ctl.toNat - 1)) ∧
      (∀ a, (a < pa ∨ pa + 8 ≤ a) → (a < pa + 0x30 ∨ pa + 0x38 ≤ a) → t.byteAt a = s.byteAt a) ∧
      (dmaOf t d).processed = (dmaOf s d).processed + 1 ∧ (dmaOf t d).failed = (dmaOf s d).failed ∧ (dmaOf t d).desc = none ∧
      (x.chain = true → (dmaOf t d).st = .running ∧ (dmaOf t d).ptr = x.next) ∧
      (x.chain = false → (dmaOf t d).st = .idle ∧ (dmaOf t d).stop = 1)) ∧
  (∀ (s : State) (d : DmaId) (x : DmaDesc), alive s = true → dmaFenced s d = false → (dmaOf s d).st = .running →
    (dmaOf s d).desc = some x → (dmaOf s d).fail = none → x.total ≤ (dmaOf s d).done → 2 ^ 48 ≤ (dmaOf s d).ptr.toNat →
    ∃ t, exec (.dmaWritebackFail d) s = .next t ∧ (dmaOf t d).st = .halted ∧ (dmaOf t d).stop = 3 ∧
      (dmaOf t d).errAddr = (dmaOf s d).ptr ∧ (dmaOf t d).processed = (dmaOf s d).processed + 1 ∧ t.mem = s.mem)

/-- Each line writes the next piece with the source's bytes or the pattern, unless another channel's turn comes first; a failed read stops the descriptor. That a line is ready while a read is outstanding, that each line return writes one piece, and which channel is served first is the model's choice, log entry 51. -/
def Obligations.DmaMovesBytes : Prop :=
  ∀ (s : State) (d : DmaId) (x : DmaDesc), alive s = true → dmaFenced s d = false → (dmaOf s d).st = .running →
    (dmaOf s d).desc = some x → x.bad = false → (dmaOf s d).fail = none → (dmaOf s d).done < x.total →
    (let v := dmaOf s d
     let n := x.piece v.done
     let f := Frame.dma d.h
     (dmaWaits s d = true → exec (.dmaLineReturn d) s = .next s) ∧
     (∀ pa, dmaWaits s d = false → Quiet s → Reaches s d.h v.space (x.dstAt v.done) n pa true →
       (x.fill = true → v.reads = [] → ∃ t, exec (.dmaLineReturn d) s = .next t ∧
         (∀ i, i < n → t.byteAt (pa + i) = (leBytes 8 x.pattern.toNat).getD (((x.place v.done).2 + i) % 8) 0) ∧
         SameOutside s t pa n ∧ (dmaOf t d).done = v.done + n ∧
         regWord64 t (f.base + (0x100 + 0x40 * d.d.val + 0x28)) = (regWord64 s (f.base + (0x100 + 0x40 * d.d.val + 0x28)) + n) % 2 ^ 64 ∧
         sget 63 t.dmaTurn (prioKey s d) = d.d.val) ∧
       (∀ pb va inv rest, x.fill = false → v.reads = ⟨n, va, some pb, inv⟩ :: rest → served s pb = true → pb % 128 + n ≤ 128 →
         (∀ i, i < n → x.inSrc (x.dstAt v.done + i) = false) →
         ∃ t, exec (.dmaLineReturn d) s = .next t ∧ (∀ i, i < n → t.byteAt (pa + i) = s.byteAt (pb + i)) ∧
           SameOutside s t pa n ∧ (dmaOf t d).done = v.done + n ∧
           regWord64 t (f.base + (0x100 + 0x40 * d.d.val + 0x28)) = (regWord64 s (f.base + (0x100 + 0x40 * d.d.val + 0x28)) + n) % 2 ^ 64 ∧
           sget 63 t.dmaTurn (prioKey s d) = d.d.val)) ∧
     (∀ va inv rest, dmaWaits s d = false → x.fill = false → v.reads = ⟨n, va, none, inv⟩ :: rest → s.invals = [] →
       ∃ t, exec (.dmaReadFail d) s = .next t ∧
       dmaOf t d = { v with fail := some stTranslation, reads := [] } ∧ t.mem = s.mem))

/-- A flit link takes flits in order, asks for a replay after a CRC failure, resends from the number a RETRY names, and takes the domain down when it fails. The bytes of the RETRY payload, the rotation of CVC from 0, that a slot is freed at once and that the ACK timeout comes as a command are the model's choices, log entry 29. -/
def Obligations.FlitLinksDeliverRetryAndFail : Prop :=
  ∀ (s : State) (e : LinkEnd), linkLive s e = true →
    (let l := linkOf s e
     (∀ flit : List Byte, flit.length = 64 → bget flit 62 2 = (crc16 (flit.take 62)).toNat →
       (let cw := bget flit 0 4
        let vc := fieldN cw 1 0
        (l.discard = true → fieldN cw 13 4 ≠ l.rxExp → exec (.ligFlitReceive e flit) s = .next s) ∧
        (l.discard = false ∨ fieldN cw 13 4 = l.rxExp →
         ∃ t, exec (.ligFlitReceive e flit) s = .next t ∧ t = { s with links := t.links, regs := t.regs } ∧
         (linkOf t e).discard = false ∧
         (∀ pre x post, l.txq = [] → l.replay = pre ++ x :: post → x.1 = fieldN cw 23 14 → (∀ y ∈ pre, y.1 ≠ fieldN cw 23 14) →
           (linkOf t e).replay = post) ∧
         sget 0 (linkOf t e).credited (fieldN cw 25 24) / 8 % 64 = fieldN cw 31 26 ∧
         (fieldN cw 3 2 < 2 → fieldN cw 13 4 = l.rxExp →
           (linkOf t e).rxExp = (l.rxExp + 1) % 1024 ∧ sget 0 (linkOf t e).freed vc = sget 0 l.freed vc + 1 ∧
           sget [] (linkOf t e).partials vc =
             (if fieldN cw 3 2 = 0 then [] else sget [] l.partials vc) ++ (flit.drop 4).take 58 ∧
           (∀ c, c ≠ vc → sget [] (linkOf t e).partials c = sget [] l.partials c ∧
             sget 0 (linkOf t e).freed c = sget 0 l.freed c)) ∧
         (fieldN cw 13 4 ≠ l.rxExp ∨ 2 ≤ fieldN cw 3 2 →
           (linkOf t e).rxExp = l.rxExp ∧ (linkOf t e).freed = l.freed ∧ (linkOf t e).partials = l.partials ∧
           (linkOf t e).rx = l.rx) ∧
         (∀ src vck pay, l.txq = [(src, vck, pay)] → l.replay.length < 256 → flitCredit l e (vck % 4) = true →
           ∃ l', l'.rxExp = (linkOf t e).rxExp ∧ (linkOf t e).out = l.out ++ [buildFlit l' l.nextSeq vck pay] ∧ (linkOf t e).txq = [] ∧
             (linkOf t e).nextSeq = (l.nextSeq + 1) % 1024 ∧ (linkOf t e).replay.getLast? = some (l.nextSeq, vck, pay) ∧
             sget 0 (linkOf t e).spent (vck % 4) = sget 0 l.spent (vck % 4) + 1)))) ∧
     (∀ flit : List Byte, flit.length = 64 → bget flit 62 2 ≠ (crc16 (flit.take 62)).toNat →
       ∃ t f, exec (.ligFlitReceive e flit) s = .next t ∧ t = { s with links := t.links, regs := t.regs } ∧
         linkOf t e = { l with discard := true, cvc := (l.cvc + 1) % 4, out := l.out ++ [f] } ∧ fieldN (bget f 0 4) 3 2 = 2 ∧
         fieldN (bget f 0 4) 13 4 = l.nextSeq % 1024 ∧ bget f 6 2 = l.rxExp % 2 ^ 16 ∧
         ∀ h, e = .lig h → regWord64 t ((Frame.lig h).base + 0x18) = (regWord64 s ((Frame.lig h).base + 0x18) + 1) % 2 ^ 64) ∧
     (∀ (seq : BitVec 10) (n : Nat), n = (if l.lastReq = some seq.toNat then l.reqCount + 1 else 1) → n < replayLimit s e →
       ∃ t, exec (.ligRetry e seq) s = .next t ∧
         linkOf t e = { l with lastReq := some seq.toNat, reqCount := n, cvc := (linkOf t e).cvc, out := (linkOf t e).out } ∧
         t = { s with links := t.links, regs := t.regs } ∧
         ∀ pre x post, l.replay = pre ++ x :: post → x.1 = seq.toNat → (∀ y ∈ pre, y.1 ≠ seq.toNat) →
           (linkOf t e).out = l.out ++ ((x :: post).zipIdx).map fun y =>
             buildFlit { l with cvc := l.cvc + y.2 } y.1.1 y.1.2.1 y.1.2.2) ∧
     (replayLimit s e ≤ l.reqCount → ∃ t, exec (.ligReplayLimit e) s = .next t ∧
       linkOf t e = { l with failed := true, cause := 1 } ∧
       GoesDown s t (match e with | .lig _ => 4 | _ => 5) (endHome e) (homeAgent (endHome e)) 0 ∧
       ∀ h, e = .lig h → bitAt (regWord t (Frame.lig h).base) 1 = true) ∧
     (l.replay = [] → exec (.ligAckTimeout e) s = .next s) ∧
     (l.replay ≠ [] → ∃ t, exec (.ligAckTimeout e) s = .next t ∧ linkOf t e = { l with failed := true, cause := 2 } ∧
       GoesDown s t (match e with | .lig _ => 4 | _ => 5) (endHome e) (homeAgent (endHome e)) 0 ∧
       ∀ h, e = .lig h → bitAt (regWord t (Frame.lig h).base) 1 = true))

/-- A port trains from SIGNAL to UP state by state, falls back to SIGNAL and counts when it fails, resends on RETRY, and a transit packet leaves with one hop less. The rotation of CVL from 0, the idle answer to a data block and the way of a packet in transit block by block are the model's choices, log entry 46; the poison of a block as an attribute beside its bytes is log entry 45. -/
def Obligations.VellumPortsTrainFailAndForward : Prop :=
  (∀ (s : State) (p : Fin 28), portLive s p.val = true →
    (let v := portOf s p.val
     (v.st = .signal → exec (.wavelengthLock p) s = .next (setPort s p.val { v with st := .aligned, lock := 0xFF })) ∧
     (v.st = .aligned → v.role = 2 → exec (.alignHoldDone p) s = .next (setPort s p.val { v with st := .up })) ∧
     (v.st = .aligned → v.role = 1 → s.coh.down = true → exec (.alignHoldDone p) s = .next (setPort s p.val { v with st := .init })) ∧
     (v.st = .aligned → v.role = 1 → s.coh.down = false → ∃ t b, exec (.alignHoldDone p) s = .next t ∧
       portOf t p.val = { v with st := .init, link := { v.link with cvc := (v.link.cvc + 1) % 8 } } ∧
       t.sent = s.sent ++ [.block p.val b 0] ∧ b.length = 256 ∧ fieldN (bget b 0 8) 28 27 = 2 ∧ bget b 8 1 = 2 ∧
       bget b 10 2 = (ownPkg s).toNat ∧ bget b 12 1 = p.val ∧ bget b 16 4 = (incarnation s).toNat ∧
       bget b 252 4 = (crc32 (b.take 252)).toNat) ∧
     (∀ pkg port inc, v.st = .init → v.role = 1 →
       exec (.initBlock p pkg port inc) s = .next (setPort s p.val
         (if pkg = ownPkg s then { v with nbrPkg := pkg, nbrPort := port, loop := true }
          else { v with nbrPkg := pkg, nbrPort := port, loop := false, st := .up, link := linkReset }))) ∧
     (v.st ≠ .up → exec (.trainingRetry p) s = .next (setPort s p.val { v with st := .signal, lock := 0, loop := false, link := linkReset })) ∧
     (v.st = .up → ∃ t, exec (.opticalLockLoss p) s = .next t ∧ LeavesUp s t p) ∧
     (v.st = .up → v.role = 1 → portReplayLimit s p.val ≤ v.link.reqCount →
       ∃ t, exec (.linkReplayLimit p) s = .next t ∧ LeavesUp s t p) ∧
     (v.st = .up → v.role = 1 → v.link.replay ≠ [] → ∃ t, exec (.linkAckTimeout p) s = .next t ∧ LeavesUp s t p) ∧
     (∀ (seq : BitVec 12) (n : Nat), v.st = .up → v.role = 1 → alive s = true →
       n = (if v.link.lastReq = some seq.toNat then v.link.reqCount + 1 else 1) → n < portReplayLimit s p.val →
       ∃ t, exec (.linkRetry p seq) s = .next t ∧
         portOf t p.val = { v with link := { v.link with lastReq := some seq.toNat, reqCount := n, cvc := (portOf t p.val).link.cvc } } ∧
         t.mem = s.mem ∧
         ∀ pre x post, v.link.replay = pre ++ x :: post → x.1 = seq.toNat → (∀ y ∈ pre, y.1 ≠ seq.toNat) →
           t.sent = s.sent ++ ((x :: post).zipIdx).map fun y =>
             .block p.val (buildBlock { v.link with cvc := v.link.cvc + y.2 } y.1.1 y.1.2.1 y.1.2.2) (vlfMarks y.1.2.1)) ∧
     (∀ block : RxBlock, v.st = .up → v.role = 1 → alive s = true → block.bytes.length = 256 →
       (let c := fecCount s p.val block
        let hdr := bget block.bytes 0 8
        let vl := fieldN hdr 26 24
        let good := block.bad = false ∧ bget block.bytes 252 4 = (crc32 (block.bytes.take 252)).toNat
        (¬ good → ∃ t b, exec (.linkBlockReceive p block) s = .next t ∧
          t = { c with sent := s.sent ++ [.block p.val b 0], ports := t.ports } ∧
          portOf t p.val = { v with link := { v.link with discard := true, cvc := (v.link.cvc + 1) % 8 } } ∧
          fieldN (bget b 0 8) 28 27 = 2 ∧ bget b 8 1 = 1 ∧ bget b 10 2 = v.link.rxExp % 2 ^ 16) ∧
        (good → v.link.discard = true → fieldN hdr 11 0 ≠ v.link.rxExp → exec (.linkBlockReceive p block) s = .next c) ∧
        (∀ l, good → v.link.txq = [] → v.link.cut = [] → fieldN hdr 28 27 = 0 → fieldN hdr 11 0 = v.link.rxExp →
          l = { takeCredit (takeAck v.link (fieldN hdr 23 12)) (fieldN hdr 34 32) (fieldN hdr 46 35) 1 4096 with discard := false } →
          (let pay := (block.bytes.drop 8).take 244
           let got := (if fieldN hdr 29 29 = 1 then [] else sget [] v.link.partials vl) ++ pay
           let mark := if fieldN hdr 29 29 = 1 then block.poison else sget 0 v.link.marks vl ||| block.poison
           let pkt : UtpPkt := { pktOfBytes got with poison := mark }
           let next (rest : List Byte) (m : BitVec 32) := setPort c p.val { v with link := { l with
             rxExp := (l.rxExp + 1) % 4096, freed := sset l.freed vl (sget 0 l.freed vl + 1)
             partials := sset l.partials vl rest, marks := sset l.marks vl m } }
           ((fieldN hdr 29 29 = 1 → (pktOfBytes pay).dst = ownPkg s) →
             (fieldN hdr 30 30 = 0 → exec (.linkBlockReceive p block) s = .next (blockIdle (next got mark) p.val)) ∧
             (fieldN hdr 30 30 = 1 → pkt.dst = ownPkg s → pkt.opcode = 0 →
               ∃ t, exec (.dataPacket pkt) (next [] 0) = .next t ∧ exec (.linkBlockReceive p block) s = .next
                 (if portSends t p.val = true ∧ (portOf t p.val).link.nextSeq = l.nextSeq then blockIdle t p.val else t))) ∧
           (∀ k q, fieldN hdr 29 29 = 1 → k = pktOfBytes pay → k.dst ≠ ownPkg s → halfFenced s (portHalf p.val) = false →
             pktHeadOk k = true → k.hops ≠ 0 → s.routesSh = [] → routePort s (portHalf p.val) k = some q → q ≠ p.val → q < 28 →
             (portOf s q).link.txq = [] → (portOf s q).link.owner = [] →
             (let k' := atLevel s (portHalf p.val) { k with hops := k.hops - 1 }
              blockFree (portOf s q).link (pktLane k') = true →
              ∃ t b, exec (.linkBlockReceive p block) s = .next t ∧ t.mem = s.mem ∧ t.ctxs = s.ctxs ∧
                t.sent = s.sent ++ [.block q (buildBlock (portOf s q).link (portOf s q).link.nextSeq
                  (pktLane k' + 8 + 16 * fieldN hdr 30 30) ((pay.set 4 k'.ctl).set 5 k'.hops)) block.poison, .block p.val b 0] ∧
                sget 0 (portOf t p.val).link.freed vl = sget 0 v.link.freed vl + 1 ∧
                fieldN (bget b 0 8) 28 27 = 1 ∧ fieldN (bget b 0 8) 11 0 = l.nextSeq % 4096 ∧
                (portOf t q).link.nextSeq = ((portOf s q).link.nextSeq + 1) % 4096)))))))) ∧
  (∀ (s : State) (h : Half) (k : UtpPkt), alive s = true → halfFenced s h = false → k.dst ≠ ownPkg s → pktHeadOk k = true →
    (k.hops = 0 → exec (.transitForward h k) s = .next (count (utpBoundary s h) (.utp h) 0x60 1)) ∧
    (∀ w n x c lv vl k', w = routeOf s h k.dst.toNat → bitAt w 26 = true → n = field w 25 24 + 1 →
      x = (k.src.toNat ^^^ k.dst.toNat ^^^ pktClass k) % n → c = field w (6 * x + 5) (6 * x) → portUp s c = true → k.hops ≠ 0 → s.routesSh = [] →
      lv = (bitAt w 27 || bitAt k.ctl 6) → vl = 2 * pktLtc k + (if lv = true then 1 else 0) →
      k' = { k with hops := k.hops - 1, ctl := if lv = true then k.ctl ||| 0x40 else k.ctl } →
      k.payload.length ≤ 212 → (portOf s c).link.txq = [] → (portOf s c).link.owner = [] → blockFree (portOf s c).link vl = true →
      ∃ t, exec (.transitForward h k) s = .next t ∧ t.mem = s.mem ∧ t.ctxs = s.ctxs ∧
        t.sent = s.sent ++ [.utp k', .block c (buildBlock (portOf s c).link (portOf s c).link.nextSeq (vl + 24) (pktBytes k'))
          (BitVec.ofNat 32 (pieceMarks k'.poison 0))] ∧
        (portOf t c).link.nextSeq = ((portOf s c).link.nextSeq + 1) % 4096))

/-- An open context delivers DATA in PSN order, names a gap with one NAK, acknowledges the sixteenth packet, drops what an ACK covers and resends on NAK. That a duplicate is acknowledged again is the model's choice, log entry 46, and so is the layout of a Ductus control message, log entry 23. -/
def Obligations.ContextsDeliverInOrder : Prop :=
  ∀ (s : State) (k : UtpPkt) (s0 : State) (h : Half) (key : Nat) (c : Ctx), s0 = utpBoundary s h → h = ctxHalf s (pktClass k) →
    key = pktKey k → c = ctxOf s key →
    (ForUs s k 0 → InOpen s k → bitAt k.apsn 31 = false →
      (let d := (k.psn.toNat + 2 ^ 24 - c.expPsn % 2 ^ 24) % 2 ^ 24
       (∀ m, d = 0 → pktClass k = 2 ∨ pktClass k = 3 → k.payload.length = 32 → ductOfBytes k.payload = some m → m.kind = .credit →
         quireFenced s (wordQuire m.dst) = false →
         ∃ t, exec (.dataPacket k) s = .next t ∧ t.duct = s.duct ++ [m] ∧ t.mem = s.mem ∧
           ctxOf t key = { c with expPsn := c.expPsn + 1, nakSent := false, sinceAck := if 16 ≤ c.sinceAck + 1 then 0 else c.sinceAck + 1 }) ∧
       (0 < d → d < 2 ^ 23 → ∃ t, exec (.dataPacket k) s = .next t ∧ ctxOf t key = { c with nakSent := true } ∧ t.duct = s.duct ∧
         t.mem = s.mem ∧ (c.nakSent = true → t.sent = s.sent) ∧
         (c.nakSent = false → Leaves s t h (mkPkt s k.src (pktClass k) 2 false c.expPsn (ctxApsn c) []))) ∧
       (2 ^ 23 ≤ d → ∃ t, exec (.dataPacket k) s = .next t ∧ t.duct = s.duct ∧ t.mem = s.mem ∧
         ctxOf t key = { c with sinceAck := if 16 ≤ c.sinceAck + 1 then 0 else c.sinceAck + 1 } ∧
         (c.sinceAck + 1 < 16 → t.sent = s.sent) ∧
         (16 ≤ c.sinceAck + 1 → Leaves s t h (mkPkt s k.src (pktClass k) 1 false 0 (ctxApsn c) []))))) ∧
    (∀ pre x post, ForUs s k 1 → InOpen s k → bitAt k.apsn 31 = true → c.unacked = pre ++ x :: post → x.psn.toNat = field k.apsn 23 0 →
      (∀ y ∈ pre, y.psn ≠ x.psn) → (∀ p ∈ s.ctxs, p.2.waiting = []) → pktClass k < 4 →
      exec (.ackPacket k) s = .next (setCtx s0 key { c with
        unacked := post, ackN := c.ackN + pre.length + 1, retries := 0, rto := initRto s0 h, timer := s.tick.toNat })) ∧
    (ForUs s k 2 → InOpen s k → bitAt k.apsn 31 = false → gobackRuns s key k.psn.toNat = true →
      exec (.nakPacket k) s = .next s0) ∧
    (ForUs s k 2 → InOpen s k → bitAt k.apsn 31 = false → gobackRuns s key k.psn.toNat = false →
      ∃ t, exec (.nakPacket k) s = .next t ∧ t.mem = s.mem ∧
      ctxOf t key = { c with goback := c.unacked.head?.map fun x => x.psn.toNat } ∧ (∀ j, j ≠ key → ctxOf t j = ctxOf s j) ∧
      (∀ x ∈ c.unacked, Leaves s t h x) ∧
      regWord64 t ((Frame.utp h).base + 0x48) = (regWord64 s ((Frame.utp h).base + 0x48) + c.unacked.length) % 2 ^ 64) ∧
    (ForUs s k 3 → InOpen s k → bitAt k.apsn 31 = false → exec (.rnrPacket k) s =
      .next (setCtx (count s0 (.utp h) 0x80 1) key { c with rnrWait := true, timer := s.tick.toNat })) ∧
    (∀ inc, ForUs s k 0 → c.st = .opened → c.inc = some inc → inc ≠ k.inc → s.noWork →
      ∃ t, exec (.dataPacket k) s = .next t ∧ ctxOf t key = c.ended .failed ∧ t.mem = s.mem)

/-- A context opens, retries up to the limit, acknowledges late, resumes after RNR, and goes DOWN, FAILED or CLOSED as the fabric says. The second answer to an OPEN of the same incarnation, DOMAIN_DOWN over all sixteen classes and packet numbers from 0 are the model's choices, log entry 46. -/
def Obligations.ContextsOpenRetryAndReset : Prop :=
  (∀ (s : State) (k : UtpPkt) (s0 : State) (h : Half) (key : Nat) (c : Ctx), s0 = utpBoundary s h → h = ctxHalf s (pktClass k) →
    key = pktKey k → c = ctxOf s key →
    (ForUs s k 4 → c.waiting = [] → (c.st = .closed ∨ ((c.st = .failed ∨ c.st = .down) ∧ c.inc ≠ some k.inc) ∨
        (c.st = .opening ∧ k.src.toNat < (ownPkg s).toNat)) →
      ∃ t, exec (.openPacket k) s = .next t ∧ ctxOf t key = c.open_ k.inc (initRto s0 h) s.tick.toNat ∧ t.mem = s.mem ∧
        Leaves s t h (mkPkt s k.src (pktClass k) 5 false 0 none [])) ∧
    (ForUs s k 4 → (c.st = .failed ∨ c.st = .down) → c.inc = some k.inc → exec (.openPacket k) s = .next s0) ∧
    (ForUs s k 4 → c.st = .opened → c.inc = some k.inc → ∃ t, exec (.openPacket k) s = .next t ∧ t.ctxs = s.ctxs ∧ t.mem = s.mem ∧
      Leaves s t h (mkPkt s k.src (pktClass k) 5 false 0 (ctxApsn c) [])) ∧
    (ForUs s k 5 → c.st = .opening → c.waiting = [] → (∀ x, c.inc = some x → x = k.inc) →
      exec (.openAckPacket k) s = .next (setCtx s0 key (c.open_ k.inc (initRto s0 h) s.tick.toNat))) ∧
    (ForUs s k 6 → s.noWork → (∀ p ∈ s.ctxs, p.2.waiting = []) → ∃ t, exec (.domainDownPacket k) s = .next t ∧ t.mem = s.mem ∧ t.coh = s.coh ∧
      t.col.logNext = s.col.logNext + 1 ∧
      regWord64 t ((Frame.utp h).base + 0x78) = (regWord64 s ((Frame.utp h).base + 0x78) + 1) % 2 ^ 64 ∧
      (∀ cls, cls < 16 → (let key' := ctxKey k.src.toNat cls
        ctxOf t key' = if (ctxOf s key').st = .failed ∨ (ctxOf s key').st = .down then ctxOf s key'
          else { (ctxOf s key').ended .down with inc := some ((ctxOf s key').inc.getD k.inc) })) ∧
      (∀ j, j / 16 ≠ k.src.toNat → ctxOf t j = ctxOf s j))) ∧
  (∀ (s : State) (x : BitVec 20) (h : Half) (c : Ctx), alive s = true → h = ctxHalf s (x.toNat % 16) → c = ctxOf s x.toNat →
    (c.st = .opened → c.unacked ≠ [] → c.rnrWait = false → c.retries + 1 < retryLimit s h →
      ∃ t, exec (.rtoExpiry x) s = .next t ∧ t.mem = s.mem ∧ (∀ p ∈ c.unacked, Leaves s t h p) ∧
        ctxOf t x.toNat = { c with retries := c.retries + 1, rto := 2 * c.rto, timer := s.tick.toNat, goback := c.unacked.head?.map fun p => p.psn.toNat }) ∧
    (c.st = .opening → c.retries + 1 < retryLimit s h →
      ∃ t, exec (.rtoExpiry x) s = .next t ∧ t.mem = s.mem ∧
        Leaves s t h (mkPkt s (BitVec.ofNat 16 (x.toNat / 16)) (x.toNat % 16) 4 false 0 (ctxApsn c) []) ∧
        ctxOf t x.toNat = { c with retries := c.retries + 1, rto := 2 * c.rto, timer := s.tick.toNat }) ∧
    ((c.st = .opening ∨ (c.st = .opened ∧ c.unacked ≠ [] ∧ c.rnrWait = false)) → retryLimit s h ≤ c.retries + 1 → s.noWork →
      ∃ t, exec (.rtoExpiry x) s = .next t ∧ t.mem = s.mem ∧ ctxOf t x.toNat = c.ended .failed ∧
        regWord64 t ((Frame.utp h).base + 0x70) = (regWord64 s ((Frame.utp h).base + 0x70) + 1) % 2 ^ 64) ∧
    (c.st = .opened → 0 < c.sinceAck → ∃ t, exec (.ackDelayExpiry x) s = .next t ∧ t.mem = s.mem ∧
      ctxOf t x.toNat = { c with sinceAck := 0 } ∧
      Leaves s t h (mkPkt s (BitVec.ofNat 16 (x.toNat / 16)) (x.toNat % 16) 1 false 0 (ctxApsn c) [])) ∧
    (c.st = .opened → c.rnrWait = true → c.waiting = [] → ∃ t, exec (.rnrDelayExpiry x) s = .next t ∧ t.mem = s.mem ∧
      ctxOf t x.toNat = { c with rnrWait := false, timer := s.tick.toNat, goback := c.unacked.head?.map fun p => p.psn.toNat } ∧ ∀ p ∈ c.unacked, Leaves s t h p)) ∧
  (∀ (s : State) (h : Half) (key : Nat), halfFenced s h = false → key = field (regWord s ((Frame.utp h).base + 0x18)) 19 0 →
    ctxHalf s (key % 16) = h →
    (s.frames.lock.contains (frameKey (.utp h)) = true → s.noWork → ∃ t, exec (.utpCtxReset h) s = .next t ∧ t.mem = s.mem ∧
      ctxOf t key = { (ctxOf s key).ended .closed with inc := none, psn := 0, expPsn := 0 } ∧
      t.frames.lock = s.frames.lock.filter fun k => k ≠ frameKey (.utp h)) ∧
    (s.frames.lock.contains (frameKey (.utp h)) = false → exec (.utpCtxReset h) s =
      .next { s with frames := { s.frames with gviol := ninsert s.frames.gviol (frameKey (.utp h)) } }))

/-- A ring doorbell applies the shadows and sends the owned Ethernet descriptor; a frame that passes its checks lands in the posted buffer. The port by its number in the descriptor is the model's choice, log entry 33, and so are the counts of bad and pause frames, the place of a stripped tag and the FCS as the frame's last four bytes, log entry 45. -/
def Obligations.RingsAndEthernetFrames : Prop :=
  (∀ (s : State) (h : Half) (b : Fin 7) (tail : BitVec 16), halfFenced s h = false →
    ∃ t, exec (.rxRingDoorbell h b tail) s = .next t ∧ ringOf t h b.val = { ringOf s h b.val with rxTail := tail } ∧
      (∀ o ∈ [0, 4, 8, 0xC, 0x10], regAct t (ringBlock h b.val + o) = regWord s (ringBlock h b.val + o)) ∧
      t = { s with rings := t.rings, act := t.act }) ∧
  (∀ (s s0 s1 s2 : State) (h : Half) (tail : BitVec 16) (n a p : Nat) (d : List Byte) (pb : PBytes), alive s = true →
    halfFenced s h = false → ringsStopped s = false →
    s0 = ringApply (setRing s h 6 { ringOf s h 6 with txTail := tail }) h 6 → ringOn s0 h 6 = true → n = 2 ^ txLog2 s0 h 6 →
    (ringOf s h 6).txHead.toNat < n → tail.toNat = ((ringOf s h 6).txHead.toNat + 1) % n →
    a = txDesc s0 h 6 (ringOf s h 6).txHead.toNat → ownedDesc s0 a = (s1, some d) →
    pread s1 (bget d 8 8) (bget d 4 4) = (s2, some pb) → pb.poisoned = false → Quiet s2 → (∀ i, i < 32 → served s2 (a + i) = true) →
    (ethPorts s h)[bget d 0 2]? = some p → (portOf s p).st = .up →
    ∃ t, exec (.txRingDoorbell h 6 tail) s = .next t ∧
      t.sent = s.sent ++ [.block p (pb.bytes ++ leBytes 4 (crc32 pb.bytes).toNat) 0] ∧
      (ringOf t h 6).txHead.toNat = tail.toNat ∧ Holds t (a + 0x10) (leBytes 4 0) ∧
      Holds t a (leBytes 4 (bget (mgets s2.mem.cells a 4) 0 4 % 2 ^ 31)) ∧
      ∀ x, (x < a ∨ a + 4 ≤ x) → (x < a + 0x10 ∨ a + 0x14 ≤ x) → t.byteAt x = s2.byteAt x) ∧
  (∀ (s : State) (p : Fin 28) (f : List Byte) (h : Half), alive s = true → (portOf s p.val).role = 2 → (portOf s p.val).st = .up →
    engineFenced s (p.val / 2) = false → 64 ≤ f.length → f.length ≤ 9216 → h = (if p.val < 14 then 0 else 1) →
    (let b := f.take (f.length - 4)
     (bget f (f.length - 4) 4 ≠ (crc32 b).toNat → exec (.ethFrameRx p f) s =
       .next { s with ethBad := sset s.ethBad p.val (sget 0 s.ethBad p.val + 1) }) ∧
     (bget f (f.length - 4) 4 = (crc32 b).toNat → beget b 12 2 = 0x8808 → exec (.ethFrameRx p f) s =
       .next { s with ethPause := sset s.ethPause p.val (sget 0 s.ethPause p.val + 1) }) ∧
     (bget f (f.length - 4) 4 = (crc32 b).toNat → macAccepts s p.val (BitVec.ofNat 48 (beget b 0 6)) = true →
       beget b 12 2 = 0x8100 → isTag (beget b 16 2) = false → etherTo (b.take 12 ++ b.drop 16) = .drop →
       exec (.ethFrameRx p f) s = .next { s with ethTag := sset s.ethTag p.val (BitVec.ofNat 16 (beget b 14 2)) }) ∧
     (bget f (f.length - 4) 4 = (crc32 b).toNat → macAccepts s p.val (BitVec.ofNat 48 (beget b 0 6)) = true →
       beget b 12 2 ≠ 0x8808 → isTag (beget b 12 2) = false →
       (∀ v6 dst port pl e, etherTo b = .udp v6 dst port pl → flowMatch s p.val v6 dst port = some e → e.lane = none → e.drop = true →
         exec (.ethFrameRx p f) s = .next s) ∧
       (∀ s1 a d, (etherTo b = .ring ∨ ∃ v6 dst port pl, etherTo b = .udp v6 dst port pl ∧ flowMatch s p.val v6 dst port = none) →
         rxPosted s h 6 = (s1, some (a, d)) → Quiet s1 → b.length ≤ bget d 4 4 → (∀ i, i < 32 → served s1 (a + i) = true) →
         (∀ i, i < b.length → served s1 (bget d 8 8 + i) = true) → (bget d 8 8 + b.length ≤ a ∨ a + 32 ≤ bget d 8 8) →
         ∃ t, exec (.ethFrameRx p f) s = .next t ∧ Holds t (bget d 8 8) b ∧
           Holds t (a + 0x10) (leBytes 4 0 ++ leBytes 4 b.length ++ leBytes 8 s.tick.toNat) ∧
           Holds t a (leBytes 4 (bget d 0 4 % 2 ^ 31)) ∧
           (∀ x, (x < a ∨ a + 0x20 ≤ x) → (x < bget d 8 8 ∨ bget d 8 8 + b.length ≤ x) → t.byteAt x = s1.byteAt x) ∧
           (ringOf t h 6).rxHead.toNat = ((ringOf s h 6).rxHead.toNat + 1) % 2 ^ rxLog2 s1 h 6))))

/-- A bucket starts with 64 credits to the rank before it, writes the finals of its exact sums, reruns with raised scales, and completes, is released or is aborted. That REISSUE runs in the space of its BUCKET_POST and how blocks are grouped into messages is the model's choice, log entry 31. -/
def Obligations.BucketsStartSumAndComplete : Prop :=
  (∀ (s s1 s2 s3 : State) (c : JCmd) (pb : PBytes) (d : BDesc) (l : List (BitVec 16)) (h : Half) (sp : Space) (n op : Nat),
    h = queueHalf c.queue.toNat → sp = queueSpace s c.queue.toNat → srpHeld s c.queue.toNat true = false → bget c.body 0 8 % 128 = 0 →
    vread (takeHead s c op) h sp (bget c.body 0 8) 128 = (s1, .ok pb) → pb.poisoned = false → d = bdescOf pb.bytes → d.bad (op = 0x41) = false →
    n = field d.tag 19 0 → leadHalf s n = h → (tagOf s n).live = false → (tagOf s n).abandonHeld = false → (tagOf s n).heldMsgs = [] →
    ranksPast s d = false → readRanks s1 h sp d = (s2, .ok l) → ranksBad s l = false →
    (let T : Tag := { tagReset with
       st := .running, space := sp, out := some s.nextId, desc := some d, ranks := l, crc := crc32 (l.flatMap fun p => leBytes 2 p.toNat) }
     (∀ tab, op = 0x40 → Starts s c 0x40 false → readTable s2 h sp d = (s3, .ok tab) → tab.contains 0xFF = false →
       (l.length = 1 → exec (.bucketPost c) s = .next (setTag s3 n { T with table := tab })) ∧
       (l.length ≠ 1 → (ctxOf s (ctxKey (T.prev s).toNat (n % 2))).st ≠ .failed → (ctxOf s (ctxKey (T.prev s).toNat (n % 2))).st ≠ .down →
         ∃ t, exec (.bucketPost c) s = .next t ∧ (tagOf t n).st = .running ∧ (tagOf t n).table = tab ∧ t.mem = s3.mem ∧
           Sent.srp (T.prev s) 4 { srpMsg s n T with word := 64 } ∈ t.sent)) ∧
     (∀ el pa, op = 0x41 → Starts s c 0x41 false → d.mode = 0 → bget c.body 8 4 ≤ 16 → l.length = 1 →
       packageExps h sp d d.blocks 0 (setTag s2 n { T with st := .scaling, headroom := bget c.body 8 4 }) = (s3, .ok el) →
       Quiet s3 → Reaches s3 h sp d.scale.toNat d.blocks pa true →
       ∃ t, exec (.scaleRound c) s = .next t ∧ Holds t pa (el.map fun e => scaleByte e (bget c.body 8 4)) ∧
         SameOutside s3 t pa d.blocks ∧ tagOf t n = tagReset ∧ Reported t s.nextId stOk 0 0))) ∧
  (∀ (s s1 : State) (c : JCmd) (n : Nat) (t : Tag), n = bget c.body 0 4 → n < 2 ^ 20 → leadHalf s n = queueHalf c.queue.toNat →
    srpHeld s c.queue.toNat false = false → t = tagOf s n →
    (∀ d pa x, t.st = .held → Starts s c 0x42 false → s1 = takeHead s c 0x42 → t.attempt < 15 → t.desc = some d → d.mode = 0 →
      x = bget c.body 4 4 → x < 32 → x / 2 ≠ 0 → t.ranks.length = 1 → t.heldMsgs = [] → Quiet s1 →
      Reaches s1 (queueHalf c.queue.toNat) t.space d.scale.toNat t.table.length pa true →
      ∃ t', exec (.reissue c) s = .next t' ∧ (tagOf t' n).st = .running ∧ (tagOf t' n).attempt = t.attempt + 1 ∧
        (tagOf t' n).out = some s.nextId ∧ (tagOf t' n).outDone = [] ∧ (tagOf t' n).satBlocks = [] ∧ Holds t' pa (tagOf t' n).table ∧
        gaugeOf t' (srpGauge n) = gaugeZero ∧ SameOutside s1 t' pa t.table.length ∧
        (tagOf t' n).table = t.table.mapIdx fun b v =>
          if x % 2 = 1 ∧ b ∉ t.satBlocks then v else BitVec.ofNat 8 (min 0xFE (v.toNat + x / 2))) ∧
    (t.st = .held → Starts s c 0x43 false → ∃ t', exec (.bucketRelease c) s = .next t' ∧ tagOf t' n = tagReset ∧
      gaugeOf t' (srpGauge n) = gaugeZero ∧ Reported t' s.nextId stOk 0 0 ∧ t'.mem = (takeHead s c 0x43).mem ∧
      ∀ m, m ≠ n → tagOf t' m = tagOf s m) ∧
    (∀ id, t.st = .running → t.out = some id → Outstanding s id → s.freshIds → Starts s c 0x44 false →
      ∃ t', exec (.bucketAbort c) s = .next t' ∧ tagOf t' n = tagReset ∧ Reported t' s.nextId stOk 0 0 ∧
        Reported t' id stPeerAbandoned (ownPkg s).toNat 5 ∧ t'.mem = (takeHead s c 0x44).mem ∧
        ∀ p ∈ t.ranks, p ≠ ownPkg s → (ctxOf s (ctxKey p.toNat (n % 2))).st ≠ .failed → (ctxOf s (ctxKey p.toNat (n % 2))).st ≠ .down →
          Sent.srp p 3 { srpMsg s n t with word := 5 } ∈ t'.sent)) ∧
  (∀ (s : State) (tag : BitVec 20) (n : Nat) (t : Tag) (d : BDesc), n = tag.toNat → t = tagOf s n → srpOn s (leadHalf s n) = true →
    t.st = .running → t.desc = some d →
    (∀ b s2 cv pa, b < d.blocks → b ∉ t.expDone →
      readBoth (setTag s n { t with expDone := ninsert t.expDone b }) (leadHalf s n) t.space d b = (s2, .ok cv) →
      (t.ranks.length = 1 → Quiet s2 →
        Reaches s2 (leadHalf s n) t.space (d.out.toNat + 256 * b * d.oBytes) (d.inBlock b * d.oBytes) pa true →
        ∃ t', exec (.contributionReadDone tag b) s = .next t' ∧ b ∈ (tagOf t' n).outDone ∧
          SameOutside s2 t' pa (d.inBlock b * d.oBytes) ∧
          Holds t' pa ((List.range (d.inBlock b)).flatMap fun i => leBytes d.oBytes
            (fmtConv d.oFmt (Rnd.ofField d.outRound) d.outRange (sand d.seed 0x03 (BitVec.ofNat 64 (n * 2 ^ 44 + 256 * b + i))).toNat
              (plusZero (((packageSums d b cv).1.getD i (.fin false 0 0)).add false (.fin false 0 0)))).bits)) ∧
      (2 ≤ t.ranks.length → t.pos s (segOf t.n d.blocks b) = 0 → 0 < t.credits → t.outq = [] →
        (ctxOf s (ctxKey (t.next s).toNat (n % 2))).st ≠ .failed → (ctxOf s (ctxKey (t.next s).toNat (n % 2))).st ≠ .down →
        ∃ t' m, exec (.contributionReadDone tag b) s = .next t' ∧ t'.mem = s2.mem ∧ Sent.srp (t.next s) 1 m ∈ t'.sent ∧
          m.blocks = [(hopBlock t d n 0 b (packageSums d b cv) none).1] ∧ m.first = BitVec.ofNat 32 b ∧ m.pos = 0 ∧
          (tagOf t' n).credits = t.credits - 1)) ∧
    (∀ id, t.out = some id → Outstanding s id → d.blocks ≤ t.outDone.length → allAcked s t = true → d.sumsqMode = 0 →
      ∃ t', exec (.bucketComplete tag) s = .next t' ∧ t'.mem = s.mem ∧
        Reported t' id (if t.poisonBlocks ≠ [] then stDataPoison else if satCount t ≠ 0 then stClipped else stOk) (satCount t)
          (t.poisonBlocks.length + 2 ^ 32 * t.attempt) ∧
        tagOf t' n = (if d.retain = true then { t with st := .held, out := none } else tagReset) ∧
        regWord64 t' ((srpFrame s n).base + 0x40) = (regWord64 s ((srpFrame s n).base + 0x40) + 1) % 2 ^ 64))

/-- A Scriptorium message combines scales, adds its hop or closes its block, writes a final, grants credit or ends the bucket; one for a free tag waits. Whether the operand counts as early or live is the command's, log entry 30; the pool's units are log entry 31. -/
def Obligations.ScriptoriumMessages : Prop :=
  ∀ (s : State) (m : SrpMsg) (n : Nat) (t : Tag), n = m.tag.toNat → t = tagOf s n → srpOn s (leadHalf s n) = true →
    (t.st = .free → poolRoom s n 1 m = true → exec (.srpReduceMsg m) s = .next (setTag (count s (srpFrame s n) 0x58 1) n
      { t with st := .early, heldMsgs := t.heldMsgs ++ [(1, m)] })) ∧
    (t.live = true → m.attempt.toNat < t.attempt → m.early = false →
      exec (.srpGatherMsg m) s = .next (count s (srpFrame s n) 0x68 1)) ∧
    (m.attempt.toNat = t.attempt → t.st = .running → t.outq = [] → m.early = false →
      exec (.srpCreditMsg m) s = .next (setTag s n { t with credits := t.credits + m.word.toNat })) ∧
    (∀ id, m.attempt.toNat = t.attempt → t.st = .running → t.out = some id → t.heldMsgs = [] → Outstanding s id →
      ∃ t', exec (.srpAbandonMsg m) s = .next t' ∧ tagOf t' n = tagReset ∧ Reported t' id stPeerAbandoned m.src.toNat 1 ∧
        t'.sent = s.sent ∧ t'.mem = s.mem) ∧
    ((ctxOf s (ctxKey m.src.toNat (n % 2))).st ≠ .failed → (ctxOf s (ctxKey m.src.toNat (n % 2))).st ≠ .down →
      m.attempt.toNat = t.attempt → ∀ d, t.desc = some d →
      (∀ id, t.st = .running → t.out = some id → Outstanding s id → srpFits d 1 m = true → m.crc ≠ t.crc →
        ∃ t', exec (.srpReduceMsg m) s = .next t' ∧ tagOf t' n = tagReset ∧ Reported t' id stPeerAbandoned m.src.toNat 2 ∧ t'.mem = s.mem) ∧
      (t.st = .scaling → t.rank s = 0 → m.crc = t.crc → srpFits d 0 m = true → t.expDone.length + m.exps.length < d.blocks →
        (ctxOf s (ctxKey (t.next s).toNat (n % 2))).st ≠ .failed → (ctxOf s (ctxKey (t.next s).toNat (n % 2))).st ≠ .down →
        ∃ t', exec (.srpScaleMsg m) s = .next t' ∧ t'.mem = s.mem ∧ (tagOf t' n).st = .scaling ∧
          ∀ i, i < m.exps.length → m.first.toNat + i ∈ (tagOf t' n).expDone ∧
            sget 0x8000 (tagOf t' n).exps (m.first.toNat + i) =
              (if (m.exps.getD i 0).toInt < (sget 0x8000 t.exps (m.first.toNat + i)).toInt
               then sget 0x8000 t.exps (m.first.toNat + i) else m.exps.getD i 0)) ∧
      (∀ v j b s1 s2 cv pa, t.st = .running → m.crc = t.crc → srpFits d 1 m = true → m.blocks = [v] → b = m.first.toNat →
        (d.mode = 0 → v.scale = t.table.getD b 0) → 2 ≤ t.ranks.length → j = segOf t.n d.blocks b → t.pos s j = t.n - 1 →
        (ctxOf s (ctxKey (t.next s).toNat (n % 2))).st ≠ .failed → (ctxOf s (ctxKey (t.next s).toNat (n % 2))).st ≠ .down →
        s1 = srpCredit s n m.src m.early 1 →
        readBoth (setTag s1 n { tagOf s1 n with satSeg := sset t.satSeg j (max (sget 0 t.satSeg j) m.sat.toNat) })
          (leadHalf s n) t.space d b = (s2, .ok cv) → Quiet s2 →
        Reaches s2 (leadHalf s n) t.space (d.out.toNat + 256 * b * d.oBytes) (d.inBlock b * d.oBytes) pa true →
        ∃ t', exec (.srpReduceMsg m) s = .next t' ∧ b ∈ (tagOf t' n).outDone ∧ SameOutside s2 t' pa (d.inBlock b * d.oBytes) ∧
          Holds t' pa (((finalBlock t d n b (packageSums d b cv) (some v)).1.elems.take (d.inBlock b)).flatMap fun e =>
            leBytes d.oBytes e.toNat)) ∧
      (∀ v b s1 pa, t.st = .running → m.crc = t.crc → srpFits d 2 m = true → m.blocks = [v] → v.elems.length = 256 → b = m.first.toNat →
        (t.rank s + 1) % t.n = segOf t.n d.blocks b → s1 = srpCredit s n m.src m.early 1 → Quiet s1 →
        Reaches s1 (leadHalf s n) t.space (d.out.toNat + 256 * b * d.oBytes) (d.inBlock b * d.oBytes) pa true →
        ∃ t', exec (.srpGatherMsg m) s = .next t' ∧ b ∈ (tagOf t' n).outDone ∧ SameOutside s1 t' pa (d.inBlock b * d.oBytes) ∧
          Holds t' pa ((v.elems.take (d.inBlock b)).flatMap fun e => leBytes d.oBytes e.toNat)))

/-- An update takes the lowest free slot and passes the stages one by one, each with its own check and status, and the descriptor's new step and selector commit it. That the Ruler's shadow takes effect at the end of stage 2, that the wait for a pin counts from the end of stage 5 and that a waiting update stays at its stage is the model's choice, log entry 52. -/
def Obligations.RegionUpdatesRunStageByStage : Prop :=
  (∀ (s : State) (c : JCmd) (k : Nat), Starts s c 0x50 false → rulerOff s c = false → bltFenced s = false → k < 8 → updAt s k = none →
    (∀ j, j < k → updAt s j ≠ none) →
    exec (.regionUpdate c) s = .next { setUpd (takeHead s c 0x50) k
      { newUpd s s.nextId (queueSpace s c.queue.toNat) c.body with stage := 1 } with updOrder := s.updOrder + 1 }) ∧
  (∀ (s : State) (k : Fin 8) (u : Upd), bltLive s = true → updAt s k.val = some u →
    (let R := Frame.blt.base
     let tab := regWord64 s (R + 0x10) / 4096 * 4096
     let waits (s : State) (d : Region) : Option Nat := if d.versioned = true ∧ (pinsOf s u.region).2 ≠ 0 then some s.tick.toNat else none
     let next (s : State) (v : Upd) := exec (.updateStageDone k) s = .next (setUpd s k.val v)
     (∀ s1 d, u.stage = 1 → updWaits s u = false → u.region < 65536 → u.region < field (regWord s (R + 0x20)) 16 0 →
       readRegion (regionBoundary s) (tab % 2 ^ 64 + 256 * u.region) = (s1, .ok d) →
       exec (.updateStageDone k) s = .next (setUpd s1 k.val { u with
         rtable := BitVec.ofNat 64 tab, nregions := field (regWord s (R + 0x20)) 16 0, pinWait := field (regWord s (R + 4)) 19 0
         desc := some d, stage := 2 })) ∧
     (u.stage = 1 → updWaits s u = true → exec (.updateStageDone k) s = .next s) ∧
     (∀ d, u.desc = some d →
       (u.stage = 2 → d.bad = false → u.bad = false → bitAt u.uctl 0 = true → next s { u with stage := 3 }) ∧
       (u.stage = 2 → d.bad = false → u.bad = false → bitAt u.uctl 0 = false →
         (let r := rulOf s d.group
          let t := u.expect.toNat + 1
          ((∀ x, r.lastT = some x → x < t) → next (setRul s d.group { r with ac := r.sh, lastT := some t }) { u with stage := 3 }) ∧
          (∀ x, r.lastT = some x → t ≤ x → next s { u with stage := 3 }))) ∧
       (u.stage = 2 → (d.bad = true ∨ u.bad = true) → ∃ t, exec (.updateStageDone k) s = .next t ∧ EndsUpd s t k.val u stMalformed 0 0) ∧
       (u.stage = 3 → d.frozen = false → next s { u with stage := 4 }) ∧
       (u.stage = 3 → d.frozen = true →
         ∃ t, exec (.updateStageDone k) s = .next t ∧ EndsUpd s t k.val u stFrozen d.step.toNat 0) ∧
       (u.stage = 4 → d.step = u.expect → next s { u with stage := 5 }) ∧
       (u.stage = 4 → d.step ≠ u.expect →
         ∃ t, exec (.updateStageDone k) s = .next t ∧ EndsUpd s t k.val u stStepMismatch d.step.toNat u.expect.toNat) ∧
       (u.stage = 5 → field u.uctl 2 1 = 0 → next s { u with stage := 6, c := 0x3F800000, waitFrom := waits s d }) ∧
       (u.stage = 5 → field u.uctl 2 1 = 1 → next s { u with stage := 6, c := u.clip, waitFrom := waits s d }) ∧
       (∀ s1 b, u.stage = 5 → field u.uctl 2 1 = 2 → b.poisoned = false →
         vread s (queueHalf u.space.queue.toNat) u.space u.clipAddr.toNat 4 = (s1, .ok b) →
         exec (.updateStageDone k) s = .next (setUpd s1 k.val { u with stage := 6, c := BitVec.ofNat 32 (leNat b.bytes), waitFrom := waits s1 d })) ∧
       (u.stage = 6 → (d.versioned = false ∨ (pinsOf s u.region).2 = 0) → u.waitFrom = none → bitAt u.uctl 0 = true →
         next s { u with stage := 7, lr := u.lrReg }) ∧
       (u.stage = 6 → (d.versioned = false ∨ (pinsOf s u.region).2 = 0) → u.waitFrom = none → bitAt u.uctl 0 = false →
         next s { u with stage := 7, lr := BitVec.ofNat 32 (ruler (rulOf s d.group).ac (u.expect.toNat + 1)) }) ∧
       (∀ t0, u.stage = 6 → (d.versioned = false ∨ (pinsOf s u.region).2 = 0) → u.waitFrom = some t0 → bitAt u.uctl 0 = true →
         next (count s .blt 0x70 (s.tick.toNat - t0)) { u with stage := 7, lr := u.lrReg, waitFrom := none }) ∧
       (u.stage = 6 → d.versioned = true → (pinsOf s u.region).2 ≠ 0 →
         (u.pinWait ≠ 0 → exec (.updateStageDone k) s = .next s) ∧
         (∃ t, exec (.pinWaitTimeout k) s = .next t ∧ EndsUpd s t k.val u stHeldTimeout (d.step.toNat - 1) (pinsOf s u.region).2 ∧
           regWord64 t (R + 0x60) = (regWord64 s (R + 0x60) + 1) % 2 ^ 64)) ∧
       (∀ s1, u.stage = 7 → xlateTensors s (queueHalf u.space.queue.toNat) u.space d.n d.tensors = (s1, none) →
         exec (.updateStageDone k) s = .next (setUpd s1 k.val { u with stage := 8 })) ∧
       (∀ s1 va, u.stage = 7 → xlateTensors s (queueHalf u.space.queue.toNat) u.space d.n d.tensors = (s1, some va) →
         ∃ t, exec (.updateStageDone k) s = .next t ∧ EndsUpd s1 t k.val u stTranslation va 0) ∧
       (∀ a, u.stage = 9 → a = u.rtable.toNat + 256 * u.region → Quiet s → (∀ i, i < 16 → served s (a + i) = true) → s.bltWaits = [] →
         ∃ t, exec (.descriptorWriteback k) s = .next t ∧ updAt t k.val = none ∧
           Holds t a (leBytes 4 (if d.versioned = true then d.ctl ^^^ 0x40 else d.ctl).toNat ++ leBytes 4 d.resv4.toNat ++
             leBytes 8 (u.expect.toNat + 1)) ∧
           SameOutside s t a 16 ∧
           pinsOf t u.region = (if d.versioned = true then (0, (pinsOf s u.region).1) else pinsOf s u.region) ∧
           (Outstanding s u.out → u.anyFail = false → u.anyPoison = false →
             Reported t u.out stOk (u.expect.toNat + 1) (u.lr.toNat + 2 ^ 32 * u.c.toNat))))))

/-- Streamed elements are stepped in FP32 and stored, pins and inits move the counts, and the Ruler's shadow takes effect on RUL_APPLY and shows in a probe. That RUL_APPLY acts at its own step with the frame BUSY is the model's choice, log entry 8; that a waiting one keeps BUSY by its posted write, and that the whole stream is one step, is log entry 52. -/
def Obligations.RegionStreamsPinsAndTheRuler : Prop :=
  (∀ (s s0 s1 s2 s3 s4 : State) (k : Fin 8) (u : Upd) (d : Region) (h : Half) (xw xg xm xv : PBytes) (pd pm pv n : Nat),
    bltLive s = true → updAt s k.val = some u → u.desc = some d → u.stage = 8 → d.bad = false → d.n = n → n ≤ 32 → d.adapter = false →
    h = queueHalf u.space.queue.toNat → s0 = count (count s .blt 0x40 1) .blt 0x48 n →
    vread s0 h u.space d.recto 128 = (s1, .ok xw) → vread s1 h u.space d.g.toNat 128 = (s2, .ok xg) →
    vread s2 h u.space d.m.toNat 128 = (s3, .ok xm) →
    (d.algo = 1 → vread s3 h u.space d.v.toNat 128 = (s4, .ok xv)) → (d.algo ≠ 1 → s4 = s3 ∧ xv = []) →
    xw.poisoned = false → xg.poisoned = false → xm.poisoned = false → xv.poisoned = false → Quiet s4 →
    (let sb := fmtBits d.sFmt / 8
     let wide (f : Nat) (b : PBytes) (i : Nat) := bget b.bytes (fmtBits f / 8 * i) (fmtBits f / 8) * (if f = 0 then 1 else 65536)
     let e (i : Nat) := updElem d (scalars d u) (u.expect.toNat + 1) ⟨wide 1 xw i, wide d.gFmt xg i, wide d.sFmt xm i, wide d.sFmt xv i⟩
     let put (f stream : Nat) (x : Elem → Nat) := (List.range n).flatMap fun i =>
       leBytes (fmtBits f / 8) (storeElem d f stream (u.expect.toNat + 1) i (x (e i))).1
     Reaches s4 h u.space d.dest (2 * n) pd true → Reaches s4 h u.space d.m.toNat (sb * n) pm true →
     (d.algo = 1 → Reaches s4 h u.space d.v.toNat (sb * n) pv true) →
     (pd + 2 * n ≤ pm ∨ pm + sb * n ≤ pd) →
     (d.algo = 1 → (pd + 2 * n ≤ pv ∨ pv + sb * n ≤ pd) ∧ (pm + sb * n ≤ pv ∨ pv + sb * n ≤ pm)) →
     ∃ t, exec (.updateStreamDone k) s = .next t ∧ Holds t pd (put 1 4 Elem.w) ∧ Holds t pm (put d.sFmt 5 Elem.m) ∧
       (d.algo = 1 → Holds t pv (put d.sFmt 6 Elem.v)) ∧
       (∀ x, (x < pd ∨ pd + 2 * n ≤ x) → (x < pm ∨ pm + sb * n ≤ x) → (d.algo = 1 → x < pv ∨ pv + sb * n ≤ x) → t.byteAt x = s4.byteAt x) ∧
       updAt t k.val = some { u with stage := 9, badLines := 0, anyFail := false, anyPoison := false })) ∧
  (∀ (s : State) (c : JCmd) (r : Nat), r = bget c.body 0 2 → bltFenced s = false →
    bget c.body 2 2 = 0 → r < field (regWord s (Frame.blt.base + 0x20)) 16 0 → s.bltWaits = [] →
    (inStream s r = true → Starts s c 0x51 false → bget c.body 4 4 = 0 → bget c.body 8 8 = 0 →
      exec (.pinEpoch c) s = .next { takeHead s c 0x51 with bltWaits := [⟨s.nextId, false, r⟩] }) ∧
    (∀ s1 d op, readRegion (regionBoundary (takeHead s c op)) (regWord64 s (Frame.blt.base + 0x10) / 4096 * 4096 + 256 * r) = (s1, .ok d) →
      d.bad = false →
      (let p := pinsOf s r
       let pin (x : Nat × Nat) (d0 d1 : Nat) := exec (.pinEpoch c) s = .next (report (setPins s1 r x) s.nextId stOk d0 d1)
       (op = 0x51 → Starts s c 0x51 false → d.versioned = true →
         (inStream s r = false → bget c.body 4 4 = 0 → bget c.body 8 8 = 0 → p.1 < 65535 → pin (p.1 + 1, p.2) d.step.toNat d.recto) ∧
         (bget c.body 4 4 = 1 → bget c.body 8 8 = d.step.toNat → bget c.body 8 8 < 2 ^ 48 → 0 < p.1 → pin (p.1 - 1, p.2) (p.1 - 1) 0) ∧
         (bget c.body 4 4 = 1 → bget c.body 8 8 + 1 = d.step.toNat → bget c.body 8 8 < 2 ^ 48 → 0 < p.2 → pin (p.1, p.2 - 1) (p.2 - 1) 0) ∧
         (bget c.body 4 4 = 1 → bget c.body 8 8 < 2 ^ 48 → ¬ (bget c.body 8 8 = d.step.toNat ∧ 0 < p.1) →
           ¬ (bget c.body 8 8 + 1 = d.step.toNat ∧ 0 < p.2) →
           exec (.pinEpoch c) s = .next (report (count s1 .blt 0x68 1) s.nextId stOk 0 1))) ∧
       (op = 0x52 → Starts s c 0x52 false → inStream s r = false → bget c.body 4 4 = 0 →
         exec (.regionInit c) s = .next (report (setPins s1 r (0, 0)) s.nextId stOk d.step.toNat 0))))) ∧
  (∀ (s : State), (∃ p ∈ s.ruls, p.2.applyWait = true) → exec (.postedWriteDone (BitVec.ofNat 48 Frame.rul.base)) s = .next s) ∧
  (∀ (s : State), bltFenced s = false → frameBusy s .rul = false →
    (let g := rulSel s
     (rulBusy s g = false → exec .rulApply s = .next (setRul (s.taken .rul) g { rulOf s g with ac := (rulOf s g).sh })) ∧
     (rulBusy s g = true → exec .rulApply s = .next (setRul (s.taken .rul) g { rulOf s g with applyWait := true })) ∧
     (∀ t : BitVec 48, ∃ s', exec (.rulProbe t) s = .next s' ∧ s'.probeDone = true ∧ s'.ruls = s.ruls ∧ s'.mem = s.mem ∧
       regWord s' (Frame.rul.base + 0x208) = BitVec.ofNat 32 (ruler (rulOf s g).ac t.toNat) ∧
       regWord64 s' (Frame.rul.base + 0x200) = t.toNat)))

/-- A scrub corrects one symbol and poisons with two, a second-tier failure takes the domain down, and bias flips and XLT_INVALIDATE act on their pages. That a Reservoir's scrub decodes the errors its own words hold and leaves the symbols of HBM as they were is the model's choice, log entry 16. -/
def Obligations.ScrubsFailuresBiasAndInvalidation : Prop :=
  (∀ (s : State) (h : Half) (line : Nat), alive s = true → hbmLine s h line = true → linePoisoned s line = false →
    lineEcc s line = [] → lineResEcc s line = [] →
    (let b := (Frame.mem h).base
     let bad (t : State) (src : Nat) : Prop := linePoisoned t line = true ∧ t.mem.cells = s.mem.cells ∧
       regWord64 t (b + 0x48) = (regWord64 s (b + 0x48) + 1) % 2 ^ 64 ∧ regWord64 t (b + 0x18) = line * 128 ∧
       field (regWord t (b + 0x20)) 1 0 = src ∧ bitAt (regWord t (b + 0x20)) 31 = true
     let on : Bool := bitAt (if stackLine s line = 0 then regWord s (b + 4) else regAct s (b + 4)) 16
     (sget 0 s.scrubPos (stackKey line s) = stackLine s line → sget false s.res line = false → on = true →
       (∃ t, exec (.hbmScrubRead h line [1]) s = .next t ∧ t.mem.cells = s.mem.cells ∧ t.mem.poison = s.mem.poison ∧
         regWord64 t (b + 0x40) = (regWord64 s (b + 0x40) + 1) % 2 ^ 64) ∧
       (∃ t, exec (.hbmScrubRead h line [2]) s = .next t ∧ bad t 1)) ∧
     (on = false → 0 < stackLine s line → ∀ l, exec (.hbmScrubRead h line l) s = .next s) ∧
     (sget 0 s.scrubPos (stackKey line s) ≠ stackLine s line → ∀ l, exec (.hbmScrubRead h line l) s = .next s) ∧
     (shas s.res line = true → ∃ t, exec (.reservoirScrub h line [1]) s = .next t ∧ t.mem.cells = s.mem.cells ∧ t.mem.poison = s.mem.poison ∧
       regWord64 t (b + 0x40) = (regWord64 s (b + 0x40) + 1) % 2 ^ 64 ∧ t.ecc = s.ecc) ∧
     (shas s.res line = true → ∃ t, exec (.reservoirScrub h line [2]) s = .next t ∧ bad t 2 ∧ t.ecc = s.ecc))) ∧
  (∀ (s : State) (l : Fin 6) (addr : BitVec 48), alive s = true → bltFenced s = false → l.val ∈ s.cxlUp →
    (let marked (t : State) := bitAt (regWord t (Frame.memB.base + 0x100 + 4 * l.val)) 1 = true
     (∃ t, exec (.cxlLinkDown l) s = .next t ∧ GoesDown s t 6 2 (homeAgent 2) 0 ∧ marked t ∧ l.val ∉ t.cxlUp) ∧
     (∃ t, exec (.cxlFatalError l) s = .next t ∧ GoesDown s t 6 2 (homeAgent 2) 0 ∧ marked t) ∧
     ((cxlPlace s addr.toNat).map Prod.fst = some l.val →
       ∃ t, exec (.cxlResponseTimeout l addr) s = .next t ∧ GoesDown s t 6 2 (homeAgent 2) (addr.toNat / 128 * 128) ∧ marked t))) ∧
  (∀ (s : State) (c : JCmd) (base n first : Nat), Starts s c 0x70 false → base = bget c.body 0 8 → n = bget c.body 8 4 → base % 65536 = 0 →
    0 < n → n ≤ 2 ^ 24 → first = base / 65536 →
    ((base < 2 ^ 41 ∧ base / 2 ^ 40 = (base + 65536 * n - 1) / 2 ^ 40) ∨ (tier2 ≤ base ∧ base + 65536 * n ≤ 2 * tier2)) →
    s.coh.flips = [] → s.coh.trans = [] → s.coh.badTags = [] →
    (let mapped (p : Nat) : Bool := mappedAt s (p * 65536)
     let changed (dev : Bool) := (((List.range n).map (first + ·)).filter fun p => mapped p && s.bias.contains p != dev).length
     (bget c.body 12 4 = 0 → ∃ t, exec (.biasFlip c) s = .next t ∧ Reported t s.nextId stOk (changed false) 0 ∧
       t.mem = (takeHead s c 0x70).mem ∧
       (∀ p, p ∈ t.bias ↔ p ∈ s.bias ∧ ¬ (first ≤ p ∧ p < first + n ∧ mapped p = true))) ∧
     (bget c.body 12 4 = 1 → s.coh.caches = [] → ∃ t, exec (.biasFlip c) s = .next t ∧ Reported t s.nextId stOk (changed true) 0 ∧
       t.mem = (takeHead s c 0x70).mem ∧
       (∀ p, p ∈ t.bias ↔ p ∈ s.bias ∨ (first ≤ p ∧ p < first + n ∧ mapped p = true))) ∧
     (∀ a line v, bget c.body 12 4 = 1 → line < lineSpan → a < 96 → s.coh.caches = [(copyKey a line, v)] → v.st = .m → v.op = none → v.more = [] → v.data.length = 128 →
       (takeHead s c 0x70).memWf → (takeHead s c 0x70).coh.caches = s.coh.caches →
       first ≤ biasPage line → biasPage line < first + n → mapped (biasPage line) = true → biasPage line ∉ s.bias →
       ∃ t, exec (.biasFlip c) s = .next t ∧ Reported t s.nextId stOk (changed true) 1 ∧ t.coh.caches = [] ∧
         Holds t (line * 128) v.data ∧ SameOutside (takeHead s c 0x70) t (line * 128) 128 ∧
         biasPage line ∈ t.bias))) ∧
  (∀ (s : State) (c : JCmd) (va pages ictl : Nat), Starts s c 0x71 false → va = bget c.body 0 8 → pages = bget c.body 8 4 →
    ictl = bget c.body 12 4 → va % 4096 = 0 → va < 2 ^ 48 → pages ≤ 2 ^ 24 → ictl < 2 ^ 17 →
    (let names (a : BitVec 16) : Prop := ictl / 65536 = 1 ∨ a.toNat = ictl % 65536
     let meets (v n : Nat) : Prop := pages = 0 ∨ (v < va / 4096 + pages ∧ va / 4096 < v + n)
     let used (h : Nat) (asid : BitVec 16) (page : Nat) : Prop := names asid ∧ (meets page 1 ∨
       ∃ e ∈ (takeHead s c 0x71).xlt, e.h.val = h ∧ e.asid = asid ∧ e.vpn ≤ page ∧ page < e.vpn + e.pages ∧ meets e.vpn e.pages)
     let waits : Prop :=
       (∃ p ∈ (takeHead s c 0x71).nibs, ∃ o ∈ p.2.rops, o.kind ≠ .msend ∧ used (p.1 / 2304) p.2.space.asid (o.va.toNat / 4096)) ∨
       (∃ p ∈ (takeHead s c 0x71).dmas, ∃ r ∈ p.2.reads, r.pa.isSome = true ∧ used (p.1 / 64) p.2.space.asid (r.va / 4096))
     (∀ p ∈ (takeHead s c 0x71).nibs, ∀ o ∈ p.2.rops, s.nextId ∉ o.inv) → (∀ p ∈ (takeHead s c 0x71).dmas, ∀ r ∈ p.2.reads, s.nextId ∉ r.inv) →
     ∃ t, exec (.xltInvalidate c) s = .next t ∧ (¬ waits → Reported t s.nextId stOk 0 0) ∧ (waits → Outstanding t s.nextId) ∧
       (∀ e, e ∈ t.xlt ↔ e ∈ (takeHead s c 0x71).xlt ∧ ¬ (names e.asid ∧ meets e.vpn e.pages)) ∧
       (∀ e, e ∈ t.xltNodes ↔ e ∈ (takeHead s c 0x71).xltNodes ∧
         ¬ (names e.asid ∧ meets (e.pre * 512 ^ (e.level + 1)) (512 ^ (e.level + 1))))))

/-- A snooped cache gives its data, answers and changes state as the table lays down, and a snoop not sent is a protocol error. R327. -/
def Obligations.SnoopedCachesAnswer : Prop :=
  ∀ (s : State) (c req : CoreId) (line : BitVec 41) (a l : Nat) (v : CLine), homeUp s line.toNat = true → a = c.num → l = line.toNat →
    v = copyOf s a l → s.memWf → s.coh.badTags = [] → (∀ p ∈ s.resEcc, p.2 ≤ 2) →
    (let shared := exec (.snpFwdShared c line req) s
     let own := exec (.snpFwdOwn c line req) s
     let inv := exec (.snpInv c line) s
     let cur := exec (.snpCur c line) s
     let rsp (m : CohMsg) : Sent := .coh m a (homeId l) l
     let becomes (t : State) (st : CSt) (l' : List Sent) : Prop := (copyOf t a l).st = st ∧ t.sent = s.sent ++ l' ∧
       ∀ b k, (b, k) ≠ (a, l) → k < lineSpan → (copyOf t b k).st = (copyOf s b k).st
     let given (t : State) : Prop := req ≠ c → (copyOf s req.num l).st ∈ [.isd, .imd, .sma] →
       (copyOf t req.num l).data = v.data ∧ (copyOf t req.num l).poison = v.poison
     let error (r : Host.Outcome State Fault Refusal) : Prop := ∃ t, r = .next t ∧ GoesDown s t 1 (lineHome l) a (l * 128)
     (v.st = .m →
       (∃ t, shared = .next t ∧ becomes t .s [.coh (.data .f) a req.num l, rsp .rspFwd] ∧ given t ∧ Holds t (l * 128) v.data) ∧
       (∃ t, own = .next t ∧ becomes t .i [.coh (.data .m) a req.num l, rsp .rspFwd] ∧ given t ∧ t.mem = s.mem) ∧
       (∃ t, inv = .next t ∧ becomes t .i [rsp .rspFwd] ∧ Holds t (l * 128) v.data) ∧
       (∃ t, cur = .next t ∧ becomes t .e [rsp .rspFwd] ∧ Holds t (l * 128) v.data)) ∧
     ((v.st = .e ∨ v.st = .f) →
       (∃ t, shared = .next t ∧ becomes t .s [.coh (.data .f) a req.num l, rsp .rspFwd] ∧ given t ∧ t.mem = s.mem) ∧
       (∃ t, own = .next t ∧ becomes t .i [.coh (.data .m) a req.num l, rsp .rspFwd] ∧ given t ∧ t.mem = s.mem) ∧
       (∃ t, inv = .next t ∧ becomes t .i [rsp .rspI] ∧ t.mem = s.mem) ∧ error cur) ∧
     ((v.st = .s ∨ v.st = .i) → (∃ t, inv = .next t ∧ becomes t .i [rsp .rspI] ∧ t.mem = s.mem) ∧ error shared ∧ error own ∧ error cur) ∧
     (v.st = .sma → (∃ t, inv = .next t ∧ becomes t .imd [rsp .rspI] ∧ t.mem = s.mem) ∧ error shared ∧ error own ∧ error cur) ∧
     (v.st = .mia → ∀ r ∈ [shared, own, inv, cur], ∃ t, r = .next t ∧ becomes t .mia [rsp .rspIWbPend] ∧ t.mem = s.mem) ∧
     ((v.st = .isd ∨ v.st = .imd) → error shared ∧ error own ∧ error inv ∧ error cur))

/-- A server core's access is served by its copy or sent to the home by the copy's state, and the answer completes it. A cache-block operation acts on the issuing core's own copy and waits with it, and a retry is a command at its due tick that carries its count: the model's choices, log entry 32. -/
def Obligations.CoreAccessesByState : Prop :=
  (∀ (s : State) (c : CoreId) (addr : BitVec 48) (w : Fin 4) (x e : BitVec 64) (wide : Bool) (op : AmoOp) (a l off : Nat) (v : CLine),
    coreRuns s c = true → alive s = true → mappedAt s addr.toNat = true → inLine addr.toNat w.val = true → a = c.num →
    l = addr.toNat / 128 → off = addr.toNat % 128 → v = copyOf s a l → v.op = none → v.more = [] → v.poison = false →
    s.coh.badTags = [] →
    (let load := exec (.coreLoad c addr w) s
     let store := exec (.coreStore c addr w x) s
     let amo := exec (.coreAtomic c addr wide op x e) s
     let n := if wide = true then 8 else 4
     let gives (t : State) (r : Nat) : Prop := (coreOf t a).result = BitVec.ofNat 64 r ∧ (coreOf t a).exc = none
     let tries := sget 0 s.coh.nacks (copyKey a l)
     let counted (m : CohMsg) : CohMsg := if tries = 0 then m else .again tries m
     let asks (r : Host.Outcome State Fault Refusal) (m : CohMsg) (st : CSt) (o : CoreOp) : Prop := ∃ t, r = .next t ∧
       t.sent = s.sent ++ [.coh (counted m) a (homeId l) l] ∧ copyOf t a l = { v with
         st := st, prev := v.st, op := some o, got := none, comp := false, data := if st = .sma then v.data else [] } ∧
       t.mem = s.mem
     let wrote (t : State) (o : Nat) (b : List Byte) : Prop := (copyOf t a l).st = .m ∧
       ∀ i, i < 128 → (copyOf t a l).data.getD i 0 = if o ≤ i ∧ i < o + b.length then b.getD (i - o) 0 else v.data.getD i 0
     (v.st ∈ [CSt.s, .e, .f, .m] → shas s.stale l = false → ∃ t, load = .next t ∧ gives t (bget v.data off (2 ^ w.val)) ∧ t.mem = s.mem ∧ t.sent = s.sent ∧
       (copyOf t a l).st = v.st ∧ (copyOf t a l).data = v.data) ∧
     (v.st = .i → asks load .rdShared .isd (.load addr w) ∧ asks store .rdOwn .imd (.store addr w x)) ∧
     (v.st = .s ∨ v.st = .f → asks store .upgrade .sma (.store addr w x)) ∧
     (v.st = .e ∨ v.st = .m → ∃ t, store = .next t ∧ wrote t off (leBytes (2 ^ w.val) x.toNat) ∧ t.mem = s.mem ∧ t.sent = s.sent) ∧
     (amoAligned addr wide = true → op ≠ .lr → op ≠ .sc →
       (v.st = .e ∨ v.st = .m → ∃ t, amo = .next t ∧ gives t (bget v.data off n) ∧ t.sent = s.sent ∧
         wrote t off (leBytes n (amoVal op (8 * n) (bget v.data off n) (x.toNat % 2 ^ (8 * n)) (e.toNat % 2 ^ (8 * n))))) ∧
       (v.st = .i → asks amo .atomicReq .imd (.atomic addr wide op x e)) ∧
       (v.st = .s ∨ v.st = .f → asks amo .atomicReq .sma (.atomic addr wide op x e))) ∧
     (v.st = .e ∨ v.st = .m → ∃ t, exec (.cboZero c addr) s = .next t ∧ wrote t (off / 64 * 64) (List.replicate 64 0) ∧ t.sent = s.sent) ∧
     (v.st = .s → ∃ t, exec (.cacheEviction c (BitVec.ofNat 41 l)) s = .next t ∧ (copyOf t a l).st = .i ∧ t.sent = s.sent ∧ t.mem = s.mem) ∧
     (v.st = .e ∨ v.st = .f → wbOut s a l < 8 → ∀ r ∈ [exec (.cacheEviction c (BitVec.ofNat 41 l)) s, exec (.cboFlush c addr) s, exec (.cboInval c addr) s],
       ∃ t, r = .next t ∧ (copyOf t a l).st = .i ∧ t.sent = s.sent ++ [.coh .evictClean a (homeId l) l] ∧ t.mem = s.mem) ∧
     (v.st ∈ [CSt.isd, .imd, .sma] → load = .next (setCopy s a l { v with op := some (.load addr w) })) ∧
     (v.st = .m → wbOut s a l < 8 →
       ∀ r ∈ [exec (.cacheEviction c (BitVec.ofNat 41 l)) s, exec (.cboClean c addr) s, exec (.cboFlush c addr) s, exec (.cboInval c addr) s],
       ∃ t, r = .next t ∧ (copyOf t a l).st = .mia ∧ (copyOf t a l).data = v.data ∧
         t.sent = s.sent ++ [.coh .wbDirty a (homeId l) l] ∧ t.mem = s.mem))) ∧
  (∀ (s : State) (c : CoreId) (addr : BitVec 48) (w : Fin 4) (l : Nat) (v : CLine), coreRuns s c = true → mappedAt s addr.toNat = true →
    inLine addr.toNat w.val = true → l = addr.toNat / 128 → v = copyOf s c.num l → v.op ≠ none → s.coh.badTags = [] →
    (copyServes v.st (.load addr w) = true → v.poison = false → shas s.stale l = false → ∃ t, exec (.coreLoad c addr w) s = .next t ∧
      (coreOf t c.num).result = BitVec.ofNat 64 (bget v.data (addr.toNat % 128) (2 ^ w.val)) ∧ (coreOf t c.num).exc = none ∧
      (copyOf t c.num l).op = v.op ∧ (copyOf t c.num l).more = v.more ∧ (copyOf t c.num l).st = v.st ∧
      (copyOf t c.num l).data = v.data ∧ t.mem = s.mem ∧ t.sent = s.sent) ∧
    (copyServes v.st (.load addr w) = false → alive s = true → exec (.coreLoad c addr w) s = .next (setCopy s c.num l { v with more := v.more ++ [.load addr w] })) ∧
    (copyServes v.st (.load addr w) = false → alive s = false → exec (.coreLoad c addr w) s = .next (setCore s c.num { coreOf s c.num with exc := some 5 }))) ∧
  (∀ (s : State) (c : CoreId) (addr : BitVec 48) (w : Fin 4) (x : BitVec 64), coreRuns s c = true → mappedAt s addr.toNat = false →
    inRegs addr.toNat = false → inLine addr.toNat w.val = true →
    exec (.coreLoad c addr w) s = .next (setCore s c.num { coreOf s c.num with exc := some 5 }) ∧
    exec (.coreStore c addr w x) s = .next (setCore s c.num { coreOf s c.num with exc := some 7 })) ∧
  (∀ (s : State) (c : CoreId) (line : BitVec 41) (a l : Nat) (v : CLine), alive s = true → a = c.num → l = line.toNat → v = copyOf s a l →
    v.more = [] → s.coh.badTags = [] → cboWaits s a = [] →
    (let acked (t : State) : Prop := t.sent = s.sent ++ [.coh .grantAck a (homeId l) l] ∧ t.mem = s.mem
     let tries := sget 0 s.coh.nacks (copyKey a l)
     let state (g : Grant) : CSt := match g with | .m => .m | .e => .e | .f => .f
     (∀ g addr w, v.st = .isd → v.op = some (.load addr w) → v.poison = false → shas s.stale l = false →
       (g ≠ .m → ∃ t, exec (.dataCmp c line g) s = .next t ∧ acked t ∧ (copyOf t a l).st = state g ∧ (copyOf t a l).data = v.data ∧
         (copyOf t a l).op = none ∧ (coreOf t a).result = BitVec.ofNat 64 (bget v.data (addr.toNat % 128) (2 ^ w.val))) ∧
       (v.comp = false → exec (.data c line .f) s = .next (setCopy s a l { v with got := some .f })) ∧
       (∃ t, exec (.dataCmp c line .m) s = .next t ∧ GoesDown s t 1 (lineHome l) a (l * 128)) ∧
       (v.got = some g → ∃ t, exec (.grantCmp c line) s = .next t ∧ acked t ∧ (copyOf t a l).st = state g ∧
         (coreOf t a).result = BitVec.ofNat 64 (bget v.data (addr.toNat % 128) (2 ^ w.val)))) ∧
     (∀ addr wide op x e b, v.op = some (.atomic addr wide op x e) → v.st = .imd ∨ v.st = .sma → v.old = some (b, false) →
       ∃ t, exec (.cmp (BitVec.ofNat 10 a) line) s = .next t ∧ copyOf t a l = lineNone ∧ t.mem = s.mem ∧
         (coreOf t a).result = BitVec.ofNat 64 (bget b 0 (if wide = true then 8 else 4))) ∧
     (v.st = .mia → v.op = none → ∃ t, exec (.wbAck c line) s = .next t ∧ copyOf t a l = lineNone ∧ t.sent = s.sent ∧ t.mem = s.mem) ∧
     (∀ r, v.st ∈ [CSt.isd, .imd, .sma] → v.op ≠ none → ∃ t, exec (.nack (BitVec.ofNat 10 a) line r) s = .next t ∧
       copyOf t a l = { v with st := v.prev, got := none, comp := false } ∧ t.sent = s.sent ∧
       sget 0 t.coh.retryAt (copyKey a l) = s.tick.toNat + min 1024 (16 * 2 ^ (max 1 (sget 0 s.coh.nacks (copyKey a l)) - 1))) ∧
     (∀ addr w, shas s.coh.retryAt (copyKey a l) = true → sget 0 s.coh.retryAt (copyKey a l) ≤ s.tick.toNat → v.st = .i → v.op = some (.load addr w) → addr.toNat / 128 = l →
       mappedAt s addr.toNat = true → ∃ t, exec (.nackRetry (BitVec.ofNat 10 a) line) s = .next t ∧
         t.sent = s.sent ++ [.coh (if tries = 0 then .rdShared else .again tries .rdShared) a (homeId l) l] ∧ (copyOf t a l).st = .isd ∧
         (copyOf t a l).op = some (.load addr w) ∧ shas t.coh.retryAt (copyKey a l) = false) ∧
     (s.tick.toNat < sget 0 s.coh.retryAt (copyKey a l) → exec (.nackRetry (BitVec.ofNat 10 a) line) s = .next s))) ∧
  (∀ (s : State) (g : BitVec 10) (line : BitVec 41) (k : Nat) (m : CohMsg) (d : List Byte), alive s = true → 96 ≤ g.toNat → k = copyKey g.toNat line.toNat →
    shas s.coh.retryAt k = true → sget 0 s.coh.retryAt k ≤ s.tick.toNat → s.coh.asked.find? (fun p => p.1 = k) = some (k, (m, d)) →
    ∃ t, exec (.nackRetry g line) s = .next t ∧ shas t.coh.retryAt k = false ∧ t.mem = s.mem ∧
      t.sent = s.sent ++ [.coh (.again (sget 0 s.coh.nacks k) m) g.toNat (homeId line.toNat) line.toNat]) ∧
  (∀ (s : State) (g : BitVec 10) (line : BitVec 41) (k l : Nat), alive s = true → nonCaching g.toNat = true → g.toNat < 256 →
    l = line.toNat → k = copyKey g.toNat l →
    (∀ x, (k, true) ∉ s.coh.replies → ∃ t, exec (.nack g line x) s = .next t ∧ GoesDown s t 1 (lineHome l) g.toNat (l * 128)) ∧
    ((k, false) ∉ s.coh.replies → ∃ t, exec (.cmp g line) s = .next t ∧ GoesDown s t 1 (lineHome l) g.toNat (l * 128)))

/-- A home grants, snoops or refuses by what its filter lists, serves non-caching agents, takes writebacks, and goes down on a silent cache. How an entry is freed for another and when a lapse counts is the model's choice, log entry 32; that a sender orders one cycle's messages when it queues them is log entry 13. -/
def Obligations.HomesServeRequests : Prop :=
  (∀ (s : State) (c : CoreId) (g : BitVec 10) (line : BitVec 41) (a l : Nat) (e : FEnt), homeUp s line.toNat = true → a = c.num →
    l = line.toNat → e = filterOf s l → s.coh.badTags = [] → (∀ p ∈ s.resEcc, p.2 ≤ 2) →
    (let msg (m : CohMsg) (dst : Nat) : Sent := .coh m (homeId l) dst l
     let granted (r : Host.Outcome State Fault Refusal) (m : CohMsg) (f : FEnt) : Prop := ∃ t, r = .next t ∧
       t.sent = s.sent ++ [msg m a] ∧ filterOf t l = f ∧ t.mem.cells = s.mem.cells ∧
       ∃ k fw, transOf t l = some ⟨a, k, [], none, fw, true⟩
     let snoops (r : Host.Outcome State Fault Refusal) (l' : List (Nat × CohMsg)) : Prop := ∃ t k, r = .next t ∧
       t.sent = s.sent ++ l'.map (fun x => msg x.2 x.1) ∧ t.mem = s.mem ∧ transOf t l = some ⟨a, k, l'.map Prod.fst, none, false, false⟩
     (homeRefuses s a l = false → lineEcc s l = [] → filterFull s l = false →
       (e.holders = [] → e.owner = none → granted (exec (.rdShared c line) s) (.dataCmp .e) ⟨[a], some (a, .e)⟩ ∧
         granted (exec (.rdOwn c line) s) (.dataCmp .m) ⟨[a], some (a, .m)⟩ ∧
         granted (exec (.upgrade c line) s) (.dataCmp .m) ⟨[a], some (a, .m)⟩) ∧
       (e.holders ≠ [] → a ∉ e.holders → e.owner = none →
         granted (exec (.rdShared c line) s) (.dataCmp .f) ⟨ninsert e.holders a, some (a, .f)⟩ ∧
         snoops (exec (.rdOwn c line) s) (e.holders.map fun b => (b, .snpInv))) ∧
       (a ∈ e.holders → (e.holders.filter (· ≠ a) = [] → granted (exec (.upgrade c line) s) .grantCmp ⟨[a], some (a, .m)⟩) ∧
         (e.holders.filter (· ≠ a) ≠ [] → snoops (exec (.upgrade c line) s) ((e.holders.filter (· ≠ a)).map fun b => (b, .snpInv)))) ∧
       (∀ b q, b ≠ a → e.holders ≠ [] → e.owner = some (b, q) → snoops (exec (.rdShared c line) s) [(b, .snpFwdShared)] ∧
         snoops (exec (.rdOwn c line) s) ((b, .snpFwdOwn) :: (e.holders.filter fun x => x ≠ a && x ≠ b).map fun x => (x, .snpInv)))) ∧
     (shas s.coh.trans l = true → shas s.coh.resv l = false → sget 0 s.coh.nacks (copyKey a l) < 7 →
       ∀ r ∈ [exec (.rdShared c line) s, exec (.rdOwn c line) s, exec (.upgrade c line) s],
       ∃ t, r = .next t ∧ t.sent = s.sent ++ [msg (.nack false) a] ∧ t.mem = s.mem ∧ filterOf t l = e ∧ t.coh.trans = s.coh.trans) ∧
     (shas s.coh.resv l = true → sget 0 s.coh.resv l ≠ a →
       ∀ r ∈ [exec (.rdShared c line) s, exec (.rdOwn c line) s, exec (.upgrade c line) s],
       ∃ t, r = .next t ∧ t.sent = s.sent ++ [msg (.nack false) a] ∧ t.mem = s.mem ∧ t.coh.resv = s.coh.resv ∧ t.coh.trans = s.coh.trans) ∧
     (shas s.coh.trans l = true → shas s.coh.resv l = false → 7 ≤ sget 0 s.coh.nacks (copyKey a l) →
       (s.coh.resv.filter fun p => lineHome p.1 = lineHome l).length < 64 →
       ∀ r ∈ [exec (.rdShared c line) s, exec (.rdOwn c line) s, exec (.upgrade c line) s],
       ∃ t, r = .next t ∧ t.sent = s.sent ++ [msg (.nack true) a] ∧ t.mem = s.mem ∧ t.coh.resv = sset s.coh.resv l a ∧
         regWord64 t ((cohFrameOf l).base + 0x50) = (regWord64 s ((cohFrameOf l).base + 0x50) + 1) % 2 ^ 64) ∧
     (∀ (addr : BitVec 48) (wide : Bool) (op : AmoOp) (x y : BitVec 64) (d : List Byte) (dm : List (Option Byte)) (p : Bool) (pos : Nat),
       addr.toNat / 128 = l → amoAligned addr wide = true → e.holders = [] → s.memWf → s.coh.flips = [] →
       lineEcc s l = [] → lineResEcc s l = [] → shas s.stale l = false → linePoisoned s l = false → pos = addr.toNat →
       (let n := if wide = true then 8 else 4
        let bytes := mgets s.mem.cells (l * 128) 128
        let old := bget bytes (pos % 128) n
        let new := leBytes n (amoVal op (8 * n) old (x.toNat % 2 ^ (8 * n)) (y.toNat % 2 ^ (8 * n)))
        let done (r : Host.Outcome State Fault Refusal) (dst : Nat) (got : List Byte) (at_ : Nat) (b : List Byte) : Prop := ∃ t, r = .next t ∧
          t.sent = s.sent ++ [msg (.cmp got false) dst] ∧ transOf t l = none ∧ Holds t at_ b ∧ SameOutside s t at_ b.length
        (homeRefuses s g.toNat l = false →
          (nonCaching g.toNat = true → done (exec (.rdCur g line) s) g.toNat bytes pos []) ∧
          (writesToo g.toNat = true → d.length = 128 → done (exec (.wrFull g line d p) s) g.toNat [] (l * 128) d) ∧
          (writesToo g.toNat = true → pos % 128 + dm.length ≤ 128 → ∃ t, exec (.wrPartial g addr dm) s = .next t ∧
            t.sent = s.sent ++ [msg (.cmp [] false) g.toNat] ∧ transOf t l = none ∧ SameOutside s t pos dm.length ∧
            ∀ i, i < dm.length → t.byteAt (pos + i) = (dm.getD i none).getD (s.byteAt (pos + i))) ∧
          (writesToo g.toNat = true → done (exec (.atomicFar g addr wide op x y) s) g.toNat (leBytes n old) pos new)) ∧
        (homeRefuses s a l = false → e.owner = none → filterFull s l = false →
          (atomicFarChosen s l op = true → done (exec (.atomicReq c addr wide op x y) s) a (leBytes n old) pos new) ∧
          (atomicFarChosen s l op = false → granted (exec (.atomicReq c addr wide op x y) s) (.dataCmp .m) ⟨[a], some (a, .m)⟩)))))) ∧
  (∀ (s : State) (l : List Instr), ∃ r, arrive s l = { s with pending := s.pending ++ r } ∧ List.Perm r l ∧
    List.Pairwise (fun i j => arrivalKey s i ≤ arrivalKey s j) r) ∧
  (∀ (s : State) (c : CoreId) (line : BitVec 41) (l : Nat), homeUp s line.toNat = true → l = line.toNat →
    copyKey (homeId l) l ∈ s.coh.badTags →
    ∀ r ∈ [exec (.rdShared c line) s, exec (.rdOwn c line) s, exec (.upgrade c line) s, exec (.rspI c line) s, exec (.grantAck c line) s,
      exec (.wbDirty c line) s, exec (.evictClean c line) s], ∃ t, r = .next t ∧ GoesDown s t 7 (lineHome l) (homeId l) (l * 128)) ∧
  (∀ (s : State) (c : CoreId) (line : BitVec 41) (a l : Nat), homeUp s line.toNat = true → a = c.num → l = line.toNat →
    s.coh.badTags = [] → (∀ p ∈ s.resEcc, p.2 ≤ 2) →
    (∀ q v, (filterOf s l).owner = some (a, q) → v = copyOf s a l → v.st = .mia → v.data.length = 128 → s.memWf → transOf s l = none →
      s.coh.flips = [] →
      ∃ t, exec (.wbDirty c line) s = .next t ∧ Holds t (l * 128) v.data ∧ SameOutside s t (l * 128) 128 ∧
        t.sent = s.sent ++ [.coh .wbAck (homeId l) a l] ∧ a ∉ (filterOf t l).holders) ∧
    (cboWaits s a = [] → ∃ t, exec (.evictClean c line) s = .next t ∧ t.mem = s.mem ∧ t.sent = s.sent ∧
      ∀ b, b ∈ (filterOf t l).holders ↔ b ∈ (filterOf s l).holders ∧ b ≠ a) ∧
    (∀ t, transOf s l = some t →
      (∀ b, a ∈ t.waits → b ∈ t.waits → b ≠ a →
        (let left := t.waits.filter (· ≠ a)
         let left_ (r : Host.Outcome State Fault Refusal) : Prop :=
           ∃ t', r = .next t' ∧ transOf t' l = some { t with waits := left } ∧ t'.sent = s.sent ∧ t'.mem = s.mem
         let error (r : Host.Outcome State Fault Refusal) : Prop := ∃ t', r = .next t' ∧ GoesDown s t' 1 (lineHome l) a (l * 128)
         (invSnooped s a l t = true → left_ (exec (.rspI c line) s)) ∧ (invSnooped s a l t = false → error (exec (.rspI c line) s)) ∧
         (t.kind = .shared → left_ (exec (.rspS c line) s)) ∧ (t.kind ≠ .shared → error (exec (.rspS c line) s)) ∧
         (fwdSnooped s a l t = true →
           ∃ t', exec (.rspFwd c line) s = .next t' ∧ transOf t' l = some { t with waits := left, fwd := true } ∧ t'.sent = s.sent) ∧
         (fwdSnooped s a l t = false → error (exec (.rspFwd c line) s)) ∧
         (a ∈ (filterOf s l).holders → ∃ t', exec (.rspIWbPend c line) s = .next t' ∧
           transOf t' l = some { t with waits := left, wbWait := some a } ∧ t'.sent = s.sent))) ∧
      (t.waits = [a] → t.wbWait = none → t.granted = false → t.kind = .own → fwdSnooped s a l t = true →
        ∃ t', exec (.rspFwd c line) s = .next t' ∧ t'.sent = s.sent ++ [.coh .grantCmp (homeId l) t.req l] ∧
          filterOf t' l = ⟨[t.req], some (t.req, .m)⟩ ∧ t'.mem = s.mem) ∧
      (∀ r l', t.waits = [a] → t.wbWait = none → t.granted = false → t.kind = .evict l' → l' ≠ l → s.coh.flips = [] →
        transOf s l' = some ⟨r, .shared, [], none, false, false⟩ → (filterOf s l').holders = [] → lineEcc s l' = [] →
        ∃ t', exec (.rspI c line) s = .next t' ∧ (filterOf t' l).holders = [] ∧ filterOf t' l' = ⟨[r], some (r, .e)⟩ ∧
          t'.sent = s.sent ++ [.coh (.dataCmp .e) (homeId l') r l'] ∧ transOf t' l = none ∧
          regWord64 t' ((cohFrameOf l).base + 0x68) = (regWord64 s ((cohFrameOf l).base + 0x68) + 1) % 2 ^ 64) ∧
      (t.granted = true → t.req = a → s.coh.flips = [] → shas s.coh.resv l = false →
        exec (.grantAck c line) s = .next { s with coh := { s.coh with trans := sdel s.coh.trans l } }) ∧
      (∀ b rest, t.waits = b :: rest →
        ∃ t', exec (.snoopTimeout line) s = .next t' ∧ GoesDown s t' 2 (lineHome l) b (l * 128)) ∧
      (t.granted = true → ∃ t', exec (.grantAckTimeout line) s = .next t' ∧ GoesDown s t' 3 (lineHome l) t.req (l * 128))) ∧
    (shas s.coh.resv l = true → transOf s l = none →
      (sget 0 s.coh.resvAt l + 2000 ≤ s.tick.toNat → ∃ t, exec (.reservationLapse line) s = .next t ∧ shas t.coh.resv l = false ∧ t.mem = s.mem ∧
        regWord64 t ((cohFrameOf l).base + 0x58) = (regWord64 s ((cohFrameOf l).base + 0x58) + 1) % 2 ^ 64) ∧
      (s.tick.toNat < sget 0 s.coh.resvAt l + 2000 → exec (.reservationLapse line) s = .next s)))

/-- The Feed's commands open a stream, number its samples, flush and close it when nothing is left, and load the tokenizer's tables. -/
def Obligations.FeedCommandsOpenFillAndLoad : Prop :=
  ∀ (s : State) (c : JCmd) (h : Half) (k : Nat) (v : Stream), h = queueHalf c.queue.toNat → (feedOf s h).run = .running →
    k = bget c.body 0 4 → v = streamOf s h k →
    (∀ s1 pb d, Starts s c 0x60 false → k < 32 → bget c.body 4 4 = 0 → bget c.body 8 8 % 128 = 0 → v.st = .closed →
      vread (takeHead s c 0x60) h (queueSpace s c.queue.toNat) (bget c.body 8 8) 128 = (s1, .ok pb) → pb.poisoned = false → v.samples = [] →
      d = streamDescOf pb.bytes → d.bad s1 = false →
      ∃ t, exec (.feedStreamOpen c) s = .next t ∧ Reported t s.nextId stOk 0 0 ∧ t.mem = s1.mem ∧
        streamOf t h k = { streamReset with st := .opened, space := queueSpace s c.queue.toNat, desc := some d }) ∧
    (∀ s1 pb n, Starts s c 0x61 false → k < 32 → v.st = .opened → v.d.off s = false → v.d.live = false → n = bget c.body 4 4 → 0 < n → n ≤ 65536 →
      bget c.body 8 8 % 32 = 0 → vread (takeHead s c 0x61) h v.space (bget c.body 8 8) (32 * n) = (s1, .ok pb) → pb.poisoned = false →
      (∀ i, i < n → bget pb.bytes (32 * i + 8) 4 ≠ 0) →
      ∃ t xs, exec (.feedSubmit c) s = .next t ∧ Outstanding t s.nextId ∧ t.mem = s1.mem ∧ xs.length = n ∧
        streamOf t h k = { v with next := v.next + n, samples := v.samples ++ xs } ∧
        (feedOf t h).submits = (feedOf s h).submits ++ [⟨s.nextId, v.next, n, [], 0, 0⟩] ∧
        ∀ i x, xs[i]? = some x → x.seq = v.next + i ∧ x.st = .queued ∧ x.submit = some s.nextId ∧ x.stamp = s.tick ∧
          x.src = BitVec.ofNat 64 (bget pb.bytes (32 * i) 8) ∧ x.len = BitVec.ofNat 32 (bget pb.bytes (32 * i + 8) 4) ∧
          x.budget = BitVec.ofNat 32 (bget pb.bytes (32 * i + 12) 4) ∧ x.cookie = BitVec.ofNat 64 (bget pb.bytes (32 * i + 24) 8)) ∧
    (Starts s c 0x62 false → k < 32 → v.st = .opened → v.d.off s = false → v.d.live = false → v.slots = [] → v.flushes = [] →
      (v.samples = [] → v.next ≤ v.firstSeq → v.closeOut = none →
        ∃ t, exec (.feedFlush c) s = .next t ∧ Reported t s.nextId stOk 0 0 ∧ streamOf t h k = v ∧ t.mem = (takeHead s c 0x62).mem) ∧
      ((∀ x ∈ v.samples, x.st = .queued) → v.firstSeq < v.next → s.freshIds →
        ∃ t, exec (.feedFlush c) s = .next t ∧ Outstanding t s.nextId ∧ streamOf t h k = { v with flushes := [(some s.nextId, v.next)] })) ∧
    (Starts s c 0x63 false → k < 32 → v.st = .opened → v.d.off s = false → v.slots = [] → v.flushes = [] → v.samples = [] →
      ∃ t, exec (.feedStreamClose c) s = .next t ∧ Reported t s.nextId stOk 0 0 ∧ streamOf t h k = streamReset ∧
        t.mem = (takeHead s c 0x63).mem ∧ ∀ j, j ≠ k → streamOf t h j = streamOf s h j) ∧
    (∀ s1 s2 mb cb n, Starts s c 0x64 false → k = 0 → n = bget c.body 4 4 → n ≤ 262144 → (feedOf s h).loads = [] →
      tokenizing (feedOf s h) = false →
      vread (setFeed (takeHead s c 0x64) h (feedOf s h)) h (queueSpace s c.queue.toNat) (bget c.body 8 8) (8 * n) = (s1, .ok mb) →
      vread s1 h (queueSpace s c.queue.toNat) (bget c.body 16 8) 256 = (s2, .ok cb) → mb.poisoned = false → cb.poisoned = false →
      (let e (i : Nat) := bget mb.bytes (8 * i) 8
       (∀ i, i < n → e i < 2 ^ 38 ∧ e i % 2 ^ 19 < 256 + i ∧ e i / 2 ^ 19 % 2 ^ 19 < 256 + i) → (∀ b ∈ cb.bytes, b.toNat < 64) →
       ∃ t, exec (.feedLoadMerges c) s = .next t ∧ Reported t s.nextId stOk 0 0 ∧ t.mem = s2.mem ∧
         (feedOf t h).merges = (List.range n).map (fun i => (e i % 2 ^ 19, e i / 2 ^ 19 % 2 ^ 19)) ∧
         (feedOf t h).classes = cb.bytes ∧ (feedOf t h).streams = (feedOf s h).streams))

/-- A sample goes to its engine, its result to its slot, a late one is padded, and a full batch is written with its META and descriptor. Staging and the look ahead to later descriptors are the model's choices, log entry 34; the text of the JPEG decoder is log entry 11, and what a corrupt tail decodes to is log entry 56. -/
def Obligations.FeedSamplesBecomeSlotsAndBatches : Prop :=
  (∀ (s : State) (h : Half) (k : Fin 32) (v : Stream) (x : Sample), feedOn s h = true → v = streamOf s h k.val → v.samples = [x] →
    v.slots = [] → v.flushes = [] → v.firstSeq = x.seq → v.d.live = false → 0 < v.d.b → 0 < v.owned → (feedOf s h).loads = [] → (∀ i, x.st ≠ .late i) →
    (let slot (t : State) (st : BitVec 8) (b : List Byte) : Prop := ∃ w, (streamOf t h k.val).slot 0 = some w ∧ w.seq = x.seq ∧
       w.status = st ∧ w.valid = decide (st = stOk) ∧ w.cookie = x.cookie ∧ w.stamp = x.stamp ∧ w.data = b ∧ w.len = b.length ∧
       (streamOf t h k.val).samples = []
     (∀ s1 pb off, x.st = .queued → stageAlloc v (stageSize v.d x 0) = some off → pb.poisoned = false → v.d.pipe = 1 →
       vread s h v.space x.src.toNat x.len.toNat = (s1, .ok pb) → pb.length ≤ v.d.slotBytes.toNat →
       ∃ t, exec (.sampleDispatch h k) s = .next t ∧ slot t stOk pb.bytes ∧ t.mem = s1.mem) ∧
     (∀ s1 pb off j e, x.st = .queued → v.d.pipe = 0 → v.d.swAllowed = false → pb.poisoned = false →
       vread s h v.space x.src.toNat x.len.toNat = (s1, .ok pb) → jpegHead pb.bytes = some j → j.covered = true →
       implausible j.w j.h j.samp.length pb.length v.d.side v.d.pixels v.d.ratio = false →
       stageAlloc v (stageSize v.d x (j.w * j.h * j.samp.length)) = some off → pickEngine s1 h 0 = some e →
       ∃ t, exec (.sampleDispatch h k) s = .next t ∧ t.mem = s1.mem ∧ ∃ n, streamOf t h k.val = { v with
         samples := [{ x with st := .engine 0 e, bytes := pb.bytes, stage := some (off, n) }] }) ∧
     (∀ e, x.st = .engine 0 e → v.closeOut = none → ∃ t, exec (.decodeComplete h k x.seq) s = .next t ∧ t.mem = s.mem ∧
       match jpegDecode false (Config.tailCorrupt x.bytes) x.bytes with
       | some (w, ht, nc, px) => streamOf t h k.val = { v with
           samples := [{ x with st := .decoded (.image w ht nc (if nc = 3 then yccAll px else px)), bytes := [] }] }
       | none => slot t stDecodeError []) ∧
     (∀ w ht nc px b, x.st = .decoded (.image w ht nc px) → cropResize w ht nc px x.crop v.d.outW.toNat v.d.outH.toNat = .bytes b →
       b.length ≤ v.d.slotBytes.toNat → ∃ t, exec (.resizeComplete h k x.seq) s = .next t ∧ slot t stOk b ∧ t.mem = s.mem) ∧
     (∀ (i : BitVec 12) s1 s2 pb out, x.st = .software i.toNat → (feedOf s h).swr.find? (fun p => p.1 = i.toNat) = some (i.toNat, k.val, x.seq) →
       pread s (swrBase s h + 64 * i.toNat) 64 = (s1, some pb) → bget pb.bytes 0 4 < 2 ^ 31 → pb.poisoned = false →
       pb.bytes.getD 0x2C 0 = stOk → (v.d.pipe = 2 ∨ v.d.pipe = 3) →
       bget pb.bytes 0x28 4 ≤ bget pb.bytes 0x1C 4 → pread s1 (bget pb.bytes 0x20 8) (bget pb.bytes 0x28 4) = (s2, some out) → out.poisoned = false →
       out.length ≤ v.d.slotBytes.toNat → ∃ t, exec (.fedSwrDb h i) s = .next t ∧ slot t stOk out.bytes ∧ t.mem = s2.mem ∧
         shas (feedOf t h).swr i.toNat = false) ∧
     ((∃ a e, x.st = .engine a e) ∨ (∃ r, x.st = .decoded r) → budgetOf v.d x ≠ 0 →
       ∃ t, exec (.budgetExpiry h k x.seq) s = .next t ∧ slot t stLate [] ∧ t.mem = s.mem ∧
         regWord64 t ((Frame.fed h).base + 0x50) = (regWord64 s ((Frame.fed h).base + 0x50) + 1) % 2 ^ 64))) ∧
  (∀ (s s1 : State) (h : Half) (k : Nat) (i : BitVec 12) (seq : Nat) (pb : PBytes), feedOn s h = true →
    (feedOf s h).swr.find? (fun p => p.1 = i.toNat) = some (i.toNat, k, seq) → sampleAt (streamOf s h k) seq = none →
    (∀ x ∈ (streamOf s h k).samples, readyOf x = none) →
    pread s (swrBase s h + 64 * i.toNat) 64 = (s1, some pb) → bget pb.bytes 0 4 < 2 ^ 31 →
    ∃ t, exec (.fedSwrDb h i) s = .next t ∧ shas (feedOf t h).swr i.toNat = false ∧ t.mem = s1.mem ∧
      regWord64 t ((Frame.fed h).base + 0x58) = (regWord64 s ((Frame.fed h).base + 0x58) + 1) % 2 ^ 64) ∧
  (∀ (s : State) (h : Half) (k : Fin 32) (v : Stream), feedOn s h = true → v = streamOf s h k.val →
    (v.d.live = true → v.d.liveClose ≠ 0 → v.slots ≠ [] → batchDue v = none → exec (.liveCloseExpiry h k) s =
      .next (setStream s h k.val { v with flushes := v.flushes ++ [(none, v.firstSeq + v.slots.length)] })) ∧
    (∀ s1 pb n, batchDue v = some n → vread s h v.space (v.descAt 0) 64 = (s1, .ok pb) → bget pb.bytes 0 4 < 2 ^ 31 →
      exec (.batchEmit h k) s = .next (count (setStream s1 h k.val { v with waitDesc := true, owned := 0 }) (.fed h) 0x80 1)) ∧
    (batchDue v = none → v.waitDesc = true → v.owned = 0 → exec (.batchEmit h k) s = .next (count s (.fed h) 0x80 1)) ∧
    (v.waitDesc = false → exec (.batchDescriptorOwned h k) s = .next s) ∧
    (∀ i s0 s1 pb x pa pd pm, (i = .batchEmit h k ∧ s0 = s ∨
        i = .batchDescriptorOwned h k ∧ v.waitDesc = true ∧ v.flushes = [] ∧ s0 = setStream s h k.val { v with waitDesc := false }) →
      v.slots = [(0, x)] → v.d.b = 1 → v.closeOut = none → v.d.sem = 0xFFFF → (∀ y ∈ v.samples, readyOf y = none) →
      vread s0 h v.space (v.descAt 0) 64 = (s1, .ok pb) → pb.poisoned = false → 2 ^ 31 ≤ bget pb.bytes 0 4 → Quiet s1 →
      (let data := slotBytes v.d (some x)
       let stale := sget 0 v.stale v.batch
       Reaches s1 h v.space (bget pb.bytes 8 8) data.length pd true → Reaches s1 h v.space (bget pb.bytes 16 8) 544 pm true →
       Reaches s1 h v.space (v.descAt 0) 64 pa true →
       (pd + data.length ≤ pm ∨ pm + 544 ≤ pd) → (pd + data.length ≤ pa ∨ pa + 64 ≤ pd) → (pm + 544 ≤ pa ∨ pa + 64 ≤ pm) →
       ∃ t, exec i s = .next t ∧ Holds t pd data ∧
         Holds t pm (leBytes 512 (if x.valid = true then 1 else 0) ++ slotRecord (some x)) ∧
         Holds t pa (leBytes 4 0 ++ leBytes 4 (feedFirst ([x.status] ++ if stale = 0 then [] else [stStale])).toNat) ∧
         Holds t (pa + 24) (leBytes 8 v.batch ++ leBytes 8 x.seq ++ leBytes 4 (if x.valid = true then 1 else 0) ++
           leBytes 4 stale ++ leBytes 8 s.tick.toNat) ∧
         (∀ a, (a < pd ∨ pd + data.length ≤ a) → (a < pm ∨ pm + 544 ≤ a) → (a < pa ∨ pa + 64 ≤ a) → t.byteAt a = s1.byteAt a) ∧
         (streamOf t h k.val).batch = v.batch + 1 ∧ (streamOf t h k.val).ringPos = (v.ringPos + 1) % 2 ^ v.d.log2.toNat ∧
         (streamOf t h k.val).firstSeq = v.firstSeq + 1)))

/-- Power resets all but flash and fuses, rails come up in order, a failed rail fences its units, and a trip or lost clock takes the domain down. That the second tier keeps its bytes over the loss of power is what its devices do, log entry 6; fields without a reset value are log entry 5, the payload of event 0x0023 is log entry 28, the loss during a BUSY update is log entry 47, and which byte of a log entry the loss cuts is log entry 7. -/
def Obligations.PowerComesUpTripsAndGoes : Prop :=
  ∀ s : State,
    (s.power.input = false → ∃ t e, exec .powerOn s = .next t ∧
      t = { State.reset with
        pending := s.pending, free := s.free, sent := s.sent, mem := tier2Mem s.mem
        flash := s.flash.put fun r => { r with cycles := r.cycles + 1 }
        col := { State.reset.col with log := [(0, e)], logNext := 1 } } ∧
      bget e 16 2 = 1 ∧ bget e 20 4 = 0) ∧
    (s.power.input = true → ∃ t, exec .inputBelow34V s = .next t ∧
      t = { State.reset with
        pending := s.pending, free := t.free, sent := s.sent, flash := t.flash, mem := tier2Mem s.mem
        power := { input := false, step := 0, rails := [], off := false } } ∧
      t.flash = { s.flash with log := t.flash.log, logHead := t.flash.logHead } ∧
      (logDue s = [] → t.flash = s.flash) ∧
      ∀ e rest, logDue s = e :: rest → t.flash = s.flash ∨
        ∃ n, n < 64 ∧ t.flash = (flashPut s (e.take n ++ List.replicate (64 - n) 0xFF)).flash) ∧
    (∀ c, c ∈ (tier2Mem s.mem).cells ↔ c ∈ s.mem.cells ∧ tier2 ≤ c.1) ∧
    (booting s = true → s.col.stage = 1 → s.power.step < 9 →
      ∃ t, exec .railSequenceStep s = .next t ∧ t.power.step = s.power.step + 1 ∧ t = { s with power := t.power } ∧
        (∀ r ∈ s.power.rails, r ∈ t.power.rails) ∧
        (s.power.step = 3 → 148 ∈ t.power.rails ∧ 149 ∈ t.power.rails) ∧
        ∀ h : Half, railsBarred s h = false →
          ∀ x ∈ [(0, 7), (1, 5), (2, 3), (2, 2), (4, 6), (5, 1), (5, 0), (6, 4), (7, 9), (7, 8)],
            s.power.step = x.1 → 128 + 10 * h.val + x.2 ∈ t.power.rails) ∧
    (∀ rail : BitVec 8, booting s = true → s.col.stage = 1 → rail.toNat ∈ stepRails s s.power.step → rail.toNat ∈ s.power.rails →
      ∃ t, exec (.railTimeout rail) s = .next t ∧ rail.toNat ∉ t.power.rails ∧ t.mem = s.mem ∧
        (∀ r ∈ s.power.rails, r ≠ rail.toNat → r ∈ t.power.rails) ∧
        (s.col.lastReset = 0 → ∀ c ∈ railUnits rail.toNat, unitCode c = true → t.col.fences.any (fun p => p.1 = c) = true) ∧
        (s.col.lastReset ≠ 0 → t.col.bootFailed = true ∧ t.col.service = 0 ∧ t.col.fences = s.col.fences)) ∧
    (let home := if halfFenced s 0 then 1 else 0
     let trips (t : State) : Prop :=
       t.coh = { s.coh with
         running := false, down := true, cause := 8, downHome := home + 1, downAgent := BitVec.ofNat 10 (homeAgent home)
         downAddr := 0, downTick := s.tick.toNat } ∧
       t.power = { s.power with rails := [150, 151], off := true } ∧ t.cores = [] ∧ t.ports = [] ∧ t.cxlUp = [] ∧ t.mem = s.mem ∧ t.blt = haltRun s.blt ∧
       ∀ h, (scbOf t h).run = haltRun (scbOf s h).run ∧ (srpOf t h).run = haltRun (srpOf s h).run ∧
         (feedOf t h).run = haltRun (feedOf s h).run
     s.power.input = true → s.power.off = false → alive s = true → s.noStream →
     (∃ t, exec .inputTrip s = .next t ∧ trips t) ∧
     (∀ rail : BitVec 8, 2 ≤ s.col.stage → rail.toNat ∈ s.power.rails → ∃ t, exec (.railFault rail) s = .next t ∧ trips t) ∧
     (∀ (i : BitVec 8) (v : BitVec 32), (v.setWidth 16).toInt ≠ -32768 →
       (i.toNat < 96 ∧ 110 * 16 ≤ (v.setWidth 16).toInt ∨ 96 ≤ i.toNat ∧ i.toNat < 108 ∧ 105 * 16 ≤ (v.setWidth 16).toInt ∨
         108 ≤ i.toNat ∧ i.toNat < 126 ∧ 90 * 16 ≤ (v.setWidth 16).toInt) →
       ∃ t, exec (.thermalTrip i v) s = .next t ∧ trips t ∧
         (s.col.logFlashed ≤ s.col.logNext → s.col.logNext + 2 < 2 ^ 32 →
           let e := sget [] t.flash.log (t.flash.logHead - 1).toNat
           bget e 16 2 = 0x23 ∧ bget e 18 1 = 4 ∧ bget e 20 4 = i.toNat ∧ bget e 24 4 = v.toNat))) ∧
    (alive s = true →
      (∀ h k, clusterFenced s h k.val = false → ∃ t, exec (.clockLoss (.cluster h k)) s = .next t ∧ GoesDown s t 8 h.val (homeAgent h.val) 0) ∧
      (∀ h, halfFenced s h = false → ∃ t, exec (.clockLoss (.reservoir h)) s = .next t ∧ GoesDown s t 8 h.val (homeAgent h.val) 0) ∧
      (bltFenced s = false → ∃ t, exec (.clockLoss .blotter) s = .next t ∧ GoesDown s t 8 2 (homeAgent 2) 0))

/-- Boot selects slots, fences what fails, maps the CXL links, loads the firmware and starts the boot hart; a reset keeps memory and the Colophon's state. The start mark, FALLBACK, the units that run at the end of stage 3 and that an early DOWN_AUTO does nothing are the model's choices, log entry 47; effects made with the frame BUSY are log entry 8, and that the second tier keeps its bytes is log entry 6. -/
def Obligations.BootSelectsFencesAndStarts : Prop :=
  (∀ (s : State) (r : BootReport), booting s = true →
    (let fenced (t : State) (c : BitVec 24) : Prop := t.col.fences.any (fun p => p.1 = c) = true
     let toMgmt (t : State) : Prop := t.col.bootFailed = true ∧ t.col.service = 0
     (s.col.stage = 0 → s.col.lastReset = 0 →
       (∃ t, exec (.bootStageAdvance r) s = .next t ∧ t.mem = s.mem ∧
         match chooseSlot s 0 with
         | (_, some k) => t.col.stage = 1 ∧ t.col.bootedCol = k ∧ compCheck s 0 (slotImage s 0 k) = 0 ∧
             t.col.meas.getD 0 [] = sha256 (slotImage s 0 k) ∧
             (toMgmt t ∨ ∃ l, rubValid (slotImage s 2 t.col.bootedRub) = some l ∧
               t.col.rubric = (rubricOf (bget (slotImage s 2 t.col.bootedRub) 8 4) l).1)
         | (_, none) => t.col.recovery = true ∧ toMgmt t ∧ t.col.stage = 0) ∧
       (let good (k : Nat) : Prop := compCheck s 0 (slotImage s 0 k) = 0
        let boots (g : Prop) (booted k : Nat) (st : SlotSt) : Prop := ∃ t, exec (.bootStageAdvance r) s = .next t ∧
          (g → t.col.stage = 1 ∧ t.col.bootedCol = booted ∧ slotSt t.flash 0 k = st)
        ∀ k, k < 2 →
          (slotSt s.flash 0 k = .active → slotSt s.flash 0 (1 - k) ∈ [SlotSt.invalid, .fallback, .pending 0] → boots (good k) k k .active) ∧
          (∀ n, slotSt s.flash 0 k = .pending (n + 1) → slotSt s.flash 0 (1 - k) ∈ [SlotSt.active, .invalid, .fallback] →
            boots (good k) k k (.pending n)) ∧
          (slotSt s.flash 0 k = .active → slotSt s.flash 0 (1 - k) = .fallback →
            boots (¬ good k ∧ good (1 - k)) (1 - k) k .invalid)) ∧
       (slotSt s.flash 0 0 = .invalid → slotSt s.flash 0 1 = .invalid →
         ∃ t, exec (.bootStageAdvance r) s = .next t ∧ t.col.recovery = true ∧ toMgmt t ∧ t.col.stage = 0)) ∧
     (s.col.stage = 1 → 9 ≤ s.power.step →
       (s.col.lastReset = 0 → ∃ t, exec (.bootStageAdvance r) s = .next t ∧ t.col.stage = 2 ∧ t.col.started = true ∧
         (∀ c ∈ r.failed, unitCode c = true → fenced t c) ∧ t.mem = s.mem) ∧
       (s.col.lastReset ≠ 0 → (∃ c ∈ r.failed, unitCode c = true ∧ ¬ fenced s c) → ∃ t, exec (.bootStageAdvance r) s = .next t ∧ toMgmt t)) ∧
     (s.col.stage = 2 → (s.col.lastReset = 0 ∨ ∀ c ∈ r.failed, unitCode c = true → fenced s c) →
       ∃ t, exec (.bootStageAdvance r) s = .next t ∧ t.col.stage = 3 ∧ t.mem = s.mem ∧ (∀ c ∈ r.failed, unitCode c = true → fenced t c) ∧
         (∀ l n, l < 6 → r.cxlBytes.filter (fun p => p.1 = l) = [(l, n)] → s.col.rubric.roles.getD (28 + l) 0 = 3 →
           bltFenced t = false → engineFenced t (14 + l / 2) = false →
           l ∈ t.cxlUp ∧ sget 0 t.cxlBytes l = min (2 ^ 41) ((n / 2 ^ 28 - 1) * 2 ^ 28) ∧ (portOf t (28 + l)).st = .up) ∧
         ∀ p, p < 28 → (portOf t p).st =
           if s.col.rubric.roles.getD p 0 = 0 ∨ engineFenced t (p / 2) = true then .disabled else .signal) ∧
     (s.col.stage = 3 →
       (hostCapable s 0 = false → hostCapable s 1 = false → ∃ t, exec (.bootStageAdvance r) s = .next t ∧ toMgmt t ∧ t.mem = s.mem) ∧
       (∀ (h : Half) j, h = (if hostCapable s 0 then 0 else 1) → hostCapable s h = true → s.col.lastReset = 0 → s.memWf →
         j < 6 → clusterFenced s h j = false → (∀ i, i < j → clusterFenced s h i = true) →
         ∃ t, exec (.bootStageAdvance r) s = .next t ∧
           match chooseSlot { s with col := { s.col with hostHalf := some h } } 1 with
           | (_, none) => toMgmt t ∧ t.mem = s.mem
           | (_, some k) =>
             let img := slotImage s 1 k
             t.col.stage = 4 ∧ t.col.hostHalf = some h ∧ t.col.bootedScfw = k ∧
             t.col.meas.getD 1 [] = sha256 img ∧ t.coh.running = true ∧ t.coh.down = false ∧
             coreOf t (48 * h.val + 8 * j) = { coreReset with
               running := true, machine := true, pc := BitVec.ofNat 64 (2 ^ 40 * h.val + bget img 0x20 8), a0 := BitVec.ofNat 64 (48 * h.val + 8 * j),
               a1 := BitVec.ofNat 64 (2 ^ 40 * h.val) } ∧
             Holds t (2 ^ 40 * h.val + bget img 0x18 8) ((img.drop 1152).take (bget img 0x10 8)) ∧
             (∀ g : Half, halfFenced s g = false → (scbOf t g).run = .running ∧ (srpOf t g).run = .running ∧ (feedOf t g).run = .running) ∧
             t.blt = if bltFenced s then .off else .running)) ∧
     (s.col.stage = 4 → ∃ t, exec (.bootStageAdvance r) s = .next t ∧ t.col.stage = 5 ∧ t.coh = s.coh ∧ t.mem = s.mem) ∧
     (s.col.lastReset ≠ 0 → s.col.stage = 1 → s.power.step = 2 → ∃ t, exec (.stageTimeout r) s = .next t ∧ toMgmt t ∧ t.power = s.power) ∧
     (s.col.lastReset = 0 →
       (s.col.stage = 1 → s.power.step = 0 → ∃ t, exec (.stageTimeout r) s = .next t ∧ toMgmt t ∧ t.power = s.power) ∧
       ((s.col.stage = 1 ∧ s.power.step ≠ 0) ∨ s.col.stage = 2 → ∃ t, exec (.stageTimeout r) s = .next t ∧
         t.col.stage = s.col.stage + 1 ∧ ∀ c ∈ r.failed, unitCode c = true → fenced t c)) ∧
     ((s.col.stage = 1 ∨ s.col.stage = 2) → s.col.started = false → s.col.lastReset = 0 → ∃ t, exec .colophonStartWatchdog s = .next t ∧ t.col.stage = 0 ∧
       slotSt t.flash 0 s.col.bootedCol = .invalid ∧ t.flash.cycles = s.flash.cycles + 1 ∧ t.power.rails = [150, 151] ∧ t.mem = s.mem))) ∧
  (∀ s : State,
    (let resets (t : State) (why : BitVec 2) : Prop :=
       t.pending = s.pending ∧ t.mem = s.mem ∧ t.tick = s.tick ∧ (s.col.updImage = none → t.flash = s.flash.put fun r => { r with cycles := r.cycles + 1 }) ∧
       t.flash.cycles = s.flash.cycles + 1 ∧ t.flash.svn = s.flash.svn ∧ t.flash.log = s.flash.log ∧ t.col.fences = s.col.fences ∧ t.col.rubric = s.col.rubric ∧ t.col.meas = s.col.meas ∧ t.col.lastReset = why ∧ t.col.stage = 0 ∧
       t.coh = State.reset.coh ∧ t.cores = [] ∧ t.queues = [] ∧ t.cqs = [] ∧ t.inks = [] ∧ t.nibs = [] ∧ t.ctxs = [] ∧ t.drv = State.reset.drv ∧
       (∀ a, regWord t a = if survives a then regWord s a else regReset a) ∧ ∀ r ∈ t.power.rails, r ∈ s.power.rails ∧ (r % 10 = 3 ∨ r % 10 = 5 ∨ 150 ≤ r)
     (frameBusy s .id = false → s.frames.lock.contains (frameKey .id) = true → canReset s = true → s.noStream → s.resEcc = [] →
       ∃ t, exec .packageReset s = .next t ∧ resets t 1) ∧
     (frameBusy s .id = false → s.frames.lock.contains (frameKey .id) = false →
       ∃ t, exec .packageReset s = .next t ∧ t = { s with frames := t.frames } ∧ t.frames.gviol.contains (frameKey .id) = true) ∧
     (canReset s = true → s.coh.down = true → bitAt (regWord s (Frame.id.base + 0x124)) 0 = true →
       (let due := s.coh.downTick + max 1 (field (regWord s (Frame.id.base + 0x124)) 16 1) * 1000000
        (due ≤ s.tick.toNat → s.resEcc = [] → ∃ t, exec .downAutoReset s = .next t ∧ resets t 2) ∧
        (s.tick.toNat < due → exec .downAutoReset s = .next s)))) ∧
    ∀ c : CoreId, frameBusy s .id = false →
      (4 ≤ s.col.stage → s.col.bootFailed = false → s.power.off = false → clusterFenced s c.h (c.c.val / 8) = false → (coreOf s c.num).running = false →
        ∃ t, exec (.coreRun c) s = .next t ∧ coreOf t c.num = { coreReset with
            running := true, machine := true, pc := BitVec.ofNat 64 (regWord64 s (Frame.id.base + 0x200 + 16 * c.num)), a0 := BitVec.ofNat 64 c.num,
            a1 := BitVec.ofNat 64 (bootBase s) } ∧
          (∀ k, k ≠ c.num → coreOf t k = coreOf s k) ∧ t = { s.taken .id with cores := t.cores }) ∧
      ((coreOf s c.num).running = true → exec (.coreRun c) s = .next (s.taken .id)))

/-- ATTACH starts the stopped units, a lapse or DETACH stops every unit and ends early updates with DRIVER_LOST, and STATE follows. That ATTACH, HEARTBEAT and DETACH act with the ID frame BUSY is the model's choice, log entry 8; that an early lapse does nothing is log entry 47, and STOPPED when no update is left is log entry 52. That no other update waits and no slot is unwritten keeps the statement to what the stop does itself. -/
def Obligations.DriverAttachesBeatsAndStops : Prop :=
  ∀ s : State,
    (let last := Frame.id.base + 0x110
     let go (r : RunSt) : RunSt := if r = .stopped then .running else r
     let halt (r : RunSt) : RunSt := if r = .running then .stopped else r
     let lost (t : State) (id : Nat) : Prop := ∃ o ∈ t.outs, o.id = id ∧ ∃ d, o.done = some d ∧ d.status = stDriverLost
     let stops (t : State) (cause : BitVec 2) : Prop :=
       t.drv = { s.drv with st := .stopping, cause := cause } ∧ t.blt = halt s.blt ∧ t.mem = s.mem ∧
       (∀ h, (scbOf t h).run = halt (scbOf s h).run ∧ (srpOf t h).run = halt (srpOf s h).run ∧
         (feedOf t h).run = halt (feedOf s h).run) ∧
       (s.blt = .running → (∀ p ∈ s.upds, p.2.stage ≤ 6 → Outstanding s p.2.out → lost t p.2.out) ∧
         ∀ k, (∀ p ∈ s.upds, p.1 = k → 6 < p.2.stage) → updAt t k = updAt s k) ∧
       ∀ h, (feedOf s h).run = .running → ∀ u ∈ (feedOf s h).submits, Outstanding s u.out → lost t u.out
     let plain : Prop := alive s = true ∧ s.inks = [] ∧ s.tags = [] ∧ s.bltWaits = [] ∧ ∀ p ∈ s.feeds, ∀ q ∈ p.2.streams, q.2.slots = []
     (frameBusy s .id = false →
       ((s.drv.st = .detached ∨ s.drv.st = .stopped) → anyQueueEnabled s = false →
         ∃ t, exec .attach s = .next t ∧ t.drv = { s.drv with st := .attached } ∧ regWord64 t last = s.tick.toNat ∧
           t.blt = go s.blt ∧ t.mem = s.mem ∧ t.queues = s.queues ∧
           ∀ h, (scbOf t h).run = go (scbOf s h).run ∧ (srpOf t h).run = go (srpOf s h).run ∧ (feedOf t h).run = go (feedOf s h).run) ∧
       (¬ ((s.drv.st = .detached ∨ s.drv.st = .stopped) ∧ anyQueueEnabled s = false) →
         exec .attach s = .next { s.taken .id with drv := { s.drv with attachFail := true } }) ∧
       (s.drv.st = .attached → ∃ t, exec .heartbeat s = .next t ∧ regWord64 t last = s.tick.toNat ∧ t.drv = s.drv ∧
         t = { s.taken .id with regs := t.regs } ∧ ∀ a, a ≠ last → a ≠ last + 4 → regWord t a = regWord s a) ∧
       (s.drv.st ≠ .attached → exec .heartbeat s = .next { s.taken .id with drv := { s.drv with lateHb := true } }) ∧
       (s.drv.st = .attached → plain → ∃ t, exec .detach s = .next t ∧ stops t 2) ∧
       (s.drv.st ≠ .attached → exec .detach s = .next (s.taken .id))) ∧
     (firmwareUp s = true → s.drv.st = .attached →
       (let limit := max 10 (field (regWord s (Frame.id.base + 0x10C)) 15 0) * 1000000
        (limit < s.tick.toNat - regWord64 s last → plain → ∃ t, exec .heartbeatLapse s = .next t ∧ stops t 1) ∧
        (s.tick.toNat - regWord64 s last ≤ limit → exec .heartbeatLapse s = .next s))) ∧
     (s.drv.st = .stopping →
       (let done : Prop := (∀ h, (scbOf s h).run ∈ [RunSt.stopped, .off] ∧ (srpOf s h).run ∈ [RunSt.stopped, .off] ∧
          (feedOf s h).run ∈ [RunSt.stopped, .off]) ∧ s.blt ∈ [RunSt.stopped, .off] ∧ s.upds = []
        (done → exec .driverStopped s = .next { s with drv := { s.drv with st := .stopped } }) ∧
        (¬ done → exec .driverStopped s = .next s))))

/-- A sample raises a hot group's or cluster's step, lowers it after ten cool periods, and slows the fastest groups when power is over the limit. The average over the readings there are while there are fewer than ten is the model's choice, log entry 47. -/
def Obligations.SamplesDriveClocksAndPower : Prop :=
  ∀ (s : State) (l : List (BitVec 8 × BitVec 32)), firmwareUp s = true →
    ∃ t, exec (.colophonSample l) s = .next t ∧ t.mem = s.mem ∧ t.coh = s.coh ∧ t.drv = s.drv ∧
      (let rule (v : BitVec 32) (top cur cool cur' cool' : Nat) : Prop :=
         let x := (v.setWidth 16).toInt
         let hot : Int := 16 * (s.col.rubric.tThrottle : Int)
         let low : Int := 16 * ((s.col.rubric.tThrottle : Int) - (s.col.rubric.hyst : Int))
         (x = -32768 ∨ hot ≤ x → cur' = min top (cur + 1) ∧ cool' = 0) ∧
         (x ≠ -32768 → x < hot → low ≤ x → cur' = cur ∧ cool' = 0) ∧
         (x ≠ -32768 → x < hot → x < low → (cool < 9 → cur' = cur ∧ cool' = cool + 1) ∧ (9 ≤ cool → cur' = cur - 1 ∧ cool' = 0))
       let only (i : Nat) (v : BitVec 32) : Prop := (l.filter fun p => p.1.toNat = i).map Prod.snd = [v]
       (∀ g v, g < 72 → groupLive s g = true → only g v →
         rule v 4 (sget 0 s.col.stepT g) (sget 0 s.col.cool g) (sget 0 t.col.stepT g) (sget 0 t.col.cool g)) ∧
       (∀ k v, k < 12 → only (72 + 10 * (k / 6) + k % 6) v →
         rule v 22 (sget 0 s.col.ceil k) (sget 0 s.col.ceilCool k) (sget 0 t.col.ceil k) (sget 0 t.col.ceilCool k)) ∧
       (∀ v hist, only 160 v → v ≠ 0xFFFFFFFF →
         hist = (s.col.powHist ++ [field v 15 0 * field v 31 16]).drop (s.col.powHist.length - 9) →
         s.col.rubric.powerLimit * 100000 * 97 ≤ field v 15 0 * field v 31 16 * 100 →
         s.col.rubric.powerLimit * 100000 * hist.length < hist.sum →
         ∀ g ∈ liveGroups s, runStep s.col g < 4 →
           ((∀ g' ∈ liveGroups s, runStep s.col g ≤ runStep s.col g') → sget 0 t.col.stepP g = min 4 (sget 0 s.col.stepP g + 1)) ∧
           ((∃ g' ∈ liveGroups s, runStep s.col g' < runStep s.col g) → sget 0 t.col.stepP g = sget 0 s.col.stepP g)) ∧
       (∀ v hist lim, only 160 v → v ≠ 0xFFFFFFFF → lim = s.col.rubric.powerLimit * 100000 →
         hist = (s.col.powHist ++ [field v 15 0 * field v 31 16]).drop (s.col.powHist.length - 9) →
         (lim * 97 ≤ field v 15 0 * field v 31 16 * 100 → lim * hist.length < hist.sum → (∀ g ∈ liveGroups s, runStep s.col g = 4) →
           t.col.ceilLow = min 22 (s.col.ceilLow + 1) ∧ ∀ g, sget 0 t.col.stepP g = sget 0 s.col.stepP g) ∧
         (field v 15 0 * field v 31 16 * 100 < lim * 97 → 9 ≤ s.col.powLow → hist.sum ≤ lim * hist.length → 0 < s.col.ceilLow →
           t.col.ceilLow = s.col.ceilLow - 1 ∧ ∀ g, sget 0 t.col.stepP g = sget 0 s.col.stepP g)))

/-- An update goes from GO to PENDING and to ACTIVE on a confirm, log entries reach flash, and register writes follow windows, guard, latch and posting. That GO, a confirm and UNLOCK act with the frame BUSY is the model's choice, log entry 8. Whether the flash die fails is free, log entry 47; the state of a window's high and low words is the model's choice where R431 is silent, log entry 38; no clause here rests on it. -/
def Obligations.UpdatesAndRegisterWritesTakeEffect : Prop :=
  (∀ (s : State) (c k comp len : Nat), frameBusy s .col = false → comp = field (regWord s (Frame.col.base + 0x54)) 1 0 → comp = c + 1 →
    s.col.upd ≠ .busy → k = 1 - bootedSlot s c → len = (regWord s (Frame.col.base + 0x50)).toNat →
    (bootedPending s c = true → ∃ t, exec .updateGo s = .next t ∧ t.col.upd = .failed ∧ t.col.updCause = 7 ∧ t.flash = s.flash ∧ t.mem = s.mem) ∧
    (bootedPending s c = false →
      (slotSize c < len → ∃ t, exec .updateGo s = .next t ∧ t.col.upd = .busy ∧ t.col.updCause = 5 ∧ t.col.updImage = none ∧ t.flash = s.flash) ∧
      (len ≤ slotSize c → alive s = true → ∀ s1 r, pread (s.taken .col) (regWord64 s (Frame.col.base + 0x48)) len = (s1, r) →
        (r = none → ∃ t, exec .updateGo s = .next t ∧ t.col.upd = .busy ∧ t.col.updCause = 8 ∧ t.col.updImage = none ∧ t.mem = s1.mem) ∧
        (∀ pb, r = some pb → pb.poisoned = false → ∃ t, exec .updateGo s = .next t ∧ t.col.upd = .busy ∧ t.mem = s1.mem ∧
          t.col.updComp.toNat = comp ∧
          (updCause s1 c pb.bytes = 0 → t.col.updImage = some pb.bytes ∧ slotSt t.flash c k = .invalid ∧
            t.flash = s1.flash.put fun r => { r with slots := sset r.slots (2 * c + k) .invalid }) ∧
          (updCause s1 c pb.bytes ≠ 0 → t.col.updImage = none ∧ t.col.updCause = BitVec.ofNat 4 (updCause s1 c pb.bytes) ∧ t.flash = s1.flash))))) ∧
  (∀ (s : State) (c k : Nat), firmwareUp s = true → s.col.upd = .busy → s.col.updComp.toNat = c + 1 → k = 1 - bootedSlot s c →
    (s.col.updImage = none → ∃ t, exec .updateFinish s = .next t ∧ t.col.upd = .failed ∧ t.col.updCause = s.col.updCause ∧ t.flash = s.flash) ∧
    (∀ b, s.col.updImage = some b → b.length ≤ slotSize c → ∃ t, exec .updateFinish s = .next t ∧ t.col.updImage = none ∧ t.mem = s.mem ∧
      (if Config.flashFails s.free then t.col.upd = .failed ∧ t.col.updCause = 6 ∧ ∀ d j, slotSt t.flash d j = slotSt s.flash d j
       else t.col.upd = .done ∧ slotSt t.flash c k = .pending 3 ∧
         (∀ d j, 2 * d + j ≠ 2 * c + k → slotSt t.flash d j = slotSt s.flash d j) ∧
         ∀ a, slotBase c k ≤ a → a < slotBase c k + slotSize c →
           sget 0xFF t.flash.bytes a = if a < slotBase c k + b.length then b.getD (a - slotBase c k) 0 else 0xFF) ∧
      ∀ a, (a < slotBase c k ∨ slotBase c k + slotSize c ≤ a) → sget 0xFF t.flash.bytes a = sget 0xFF s.flash.bytes a)) ∧
  (∀ s : State, frameBusy s .col = false → s.frames.lock.contains (frameKey .col) = true → (∀ c, bootedSlot s c < 2) →
    ((∃ c, c < 3 ∧ bootedPending s c = true) → ∃ t, exec .updateConfirm s = .next t ∧ t.mem = s.mem ∧ t.flash.bytes = s.flash.bytes ∧
      (∀ c, c < 3 → bootedPending s c = true → slotSt t.flash c (bootedSlot s c) = .active ∧
        slotSt t.flash c (1 - bootedSlot s c) =
          if slotSt s.flash c (1 - bootedSlot s c) = .active then .fallback else slotSt s.flash c (1 - bootedSlot s c)) ∧
      (∀ c, c < 3 → bootedPending s c = false → ∀ j, j < 2 → slotSt t.flash c j = slotSt s.flash c j) ∧
      (∀ a b, activeSvn t 0 = some a → activeSvn t 1 = some b → t.flash.svn = min 127 (max s.flash.svn (min a b)))) ∧
    ((∀ c, c < 3 → bootedPending s c = false) → ∃ t, exec .updateConfirm s = .next t ∧ t = { s with frames := t.frames })) ∧
  (∀ (s : State) (n : Nat) (e : List Byte), s.power.input = true → s.col.logFlashed = n → s.col.logNext = n + 1 →
    e = sget [] s.col.log (n % 4096) → bget e 12 4 = n →
    ∃ t, exec .logFlashCopy s = .next t ∧ t.col.logFlashed = n + 1 ∧ t.mem = s.mem ∧
      (flashMin s ≤ bget e 18 1 → t.flash.logHead = s.flash.logHead + 1 ∧ sget [] t.flash.log s.flash.logHead.toNat = e ∧
        ∀ p, p ≠ s.flash.logHead.toNat → sget [] t.flash.log p =
          if s.flash.logHead.toNat % 1024 = 0 ∧ p / 1024 = s.flash.logHead.toNat / 1024 then [] else sget [] s.flash.log p) ∧
      (bget e 18 1 < flashMin s → t.flash = s.flash)) ∧
  (∀ (s : State) (a : BitVec 48) (key : Word) (f : Frame), frameAt a.toNat = some f → frameFenced s f = false →
    (f.posted = true → frameBusy s f = false) → ∃ t, exec (.unlock a key) s = .next t ∧ t = { s with frames := t.frames } ∧
      t.frames.lock.contains (frameKey f) = decide (key = 0xC3A5) ∧ frameBusy t f = (f.posted || frameBusy s f) ∧
      ∀ g, g ≠ frameKey f → t.frames.lock.contains g = s.frames.lock.contains g) ∧
  (∀ (s : State) (c : CoreId) (v : Word) (w : Fin 4), coreRuns s c = true →
    (let windowed (m old : Word) : Word :=
       if w = 0 then (old &&& ~~~m) ||| (v &&& m) else if w = 1 then old ||| (v &&& m)
       else if w = 2 then old &&& ~~~(v &&& m) else old ^^^ (v &&& m)
     let at_ (f : Frame) (off : Nat) : BitVec 48 := BitVec.ofNat 48 (f.base + 0x4000 * w.val + off)
     let hb := Frame.id.base + 0x10C
     (∀ q : QuireId, quireFenced s q = false → ∃ t, exec (.registerWrite c (at_ (inkFrame q) 8) v) s = .next t ∧
       regWord t ((inkFrame q).base + 8) = windowed 0xFFFFF (regWord s ((inkFrame q).base + 8)) ∧
       regAct t ((inkFrame q).base + 8) =
         (if (inkOf s q).running.isNone then regWord t ((inkFrame q).base + 8) else regAct s ((inkFrame q).base + 8)) ∧
       (∀ a, a ≠ (inkFrame q).base + 8 → regWord t a = regWord s a) ∧ t.mem = s.mem ∧ t.inks = s.inks) ∧
     (frameBusy s .id = true → ∃ t, exec (.registerWrite c (at_ .id 0x10C) v) s = .next t ∧
       t.frames.wdrop.contains (frameKey .id) = true ∧ t.frames.posted = s.frames.posted ∧ t = { s with frames := t.frames, cores := t.cores }) ∧
     (frameBusy s .id = false → ∃ t u, exec (.registerWrite c (at_ .id 0x10C) v) s = .next t ∧
       t = { s with frames := t.frames, cores := t.cores } ∧ frameBusy t .id = true ∧
       exec (.postedWriteDone (BitVec.ofNat 48 Frame.id.base)) t = .next u ∧ frameBusy u .id = false ∧
       regWord u hb = windowed 0xFFFF (regWord s hb) ∧ (∀ a, a ≠ hb → regWord u a = regWord s a) ∧ u.mem = s.mem) ∧
     (∀ hi : Word, frameBusy s .col = false → regWord64 s (Frame.col.base + 0x48) < 2 ^ 48 →
       ∃ t u x, exec (.registerWrite c (BitVec.ofNat 48 (Frame.col.base + 0x48)) v) s = .next t ∧ frameBusy t .col = false ∧ t.regs = s.regs ∧
         exec (.registerWrite c (BitVec.ofNat 48 (Frame.col.base + 0x4C)) hi) t = .next u ∧ frameBusy u .col = true ∧ u.regs = s.regs ∧
         exec (.postedWriteDone (BitVec.ofNat 48 Frame.col.base)) u = .next x ∧
         regWord64 x (Frame.col.base + 0x48) = (hi.toNat * 2 ^ 32 + v.toNat) % 2 ^ 48) ∧
     (let rst := Frame.id.base + 0x124
      s.frames.posted = [(frameKey .id, .write c rst v none)] →
      ∃ t, exec (.postedWriteDone (BitVec.ofNat 48 Frame.id.base)) s = .next t ∧ frameBusy t .id = false ∧
       (s.frames.lock.contains (frameKey .id) = true → t.frames.lock.contains (frameKey .id) = false ∧
         regWord t rst = (regWord s rst &&& ~~~0x1FFFF) ||| (v &&& 0x1FFFF)) ∧
       (s.frames.lock.contains (frameKey .id) = false → t.frames.gviol.contains (frameKey .id) = true ∧ t.regs = s.regs)) ∧
     (∀ a : BitVec 48, inRegs a.toNat = true → apertureAt a.toNat = none →
       (a.toNat % 4 ≠ 0 → ∃ t, exec (.registerWrite c a v) s = .next t ∧ (coreOf t c.num).exc = some 7 ∧ t = { s with cores := t.cores }) ∧
       (a.toNat % 4 = 0 → frameAt a.toNat = none → ∃ t, exec (.registerWrite c a v) s = .next t ∧ t = { s with cores := t.cores } ∧
         (coreOf t c.num).exc = none))))

/-- A commit with LOG_ANNOTATE on makes one entry with code 0x0F00 that holds the 32 bytes, and one with the feature off is ignored. That the entry is made at the command's own step with the frame BUSY is the model's choice, log entry 8; its slot in the ring is R422's. -/
def Obligations.LogCommitMakesOneEntry : Prop :=
  ∀ s : State, frameBusy s .col = false →
    (featureOn s 7 = true → ∃ e, exec .logCommit s = .next { s.taken .col with col := { s.col with
        log := sset s.col.log (s.col.logNext % 4096) e, logNext := s.col.logNext + 1 } } ∧
      e.length = 64 ∧ bget e 16 2 = 0x0F00 ∧
      ∀ i, i < 8 → bget e (20 + 4 * i) 4 = (regWord s (Frame.col.base + 0x160 + 4 * i)).toNat) ∧
    (featureOn s 7 = false → exec .logCommit s = .next (s.taken .col))

/-- Port M answers ARP and echo for its address, log and sensor reads, image writes and commits, and the SPDM subset with its transcripts. The bits that name the SPDM algorithms and the content of transcripts are the model's choice, log entry 12; an image request while the booted slot is PENDING or an update runs is refused, log entry 47. -/
def Obligations.PortMAnswersRequests : Prop :=
  ∀ s : State, portM s = true →
    (let replies (c : Instr) (m : Mgmt) : Prop := exec c s = .next { s with sent := s.sent ++ [.mgmt m] }
     (∀ ip mac, ownIp s = some ip → replies (.arpRequest ip mac) (.arp ip)) ∧
     (∀ ip mac, ownIp s ≠ some ip → exec (.arpRequest ip mac) s = .next s) ∧
     (s.col.recovery = true → s.flash.ip = none → ∀ mac, replies (.arpRequest 0xA9FE6001 mac) (.arp 0xA9FE6001)) ∧
     (∀ ip p, (ownIp s).isSome = true → replies (.icmpEcho ip p) (.icmp ip p)) ∧
     (∀ (who : Requester) (id : BitVec 16) (ahead : Nat), ahead < 16 →
       (let hd (type : BitVec 8) : ReqHead := ⟨1, type, id, true, ahead⟩
       (∀ (flash : Bool) (slot : BitVec 16) (n : Nat),
         (s.col.recovery = true → replies (.logRead who (hd 2) flash slot n) (.reply who 2 id 2 [])) ∧
         (s.col.recovery = false → (n = 0 ∨ 16 < n) → replies (.logRead who (hd 2) flash slot n) (.reply who 2 id 3 [])) ∧
         (s.col.recovery = false → 0 < n → n ≤ 16 → ∃ p, replies (.logRead who (hd 2) flash slot n) (.reply who 2 id 0 p) ∧ p.length = 64 * n ∧
           ∀ i, i < n → (p.drop (64 * i)).take 64 = bslice (if flash then sget [] s.flash.log ((slot.toNat + i) % 65536)
             else sget [] s.col.log ((slot.toNat + i) % 4096)) 0 64)) ∧
       (∀ first n : Nat,
         (s.col.recovery = true → replies (.sensorRead who (hd 3) first n) (.reply who 3 id 2 [])) ∧
         (s.col.recovery = false → (n = 0 ∨ 64 < n) → replies (.sensorRead who (hd 3) first n) (.reply who 3 id 3 [])) ∧
         (s.col.recovery = false → 0 < n → n ≤ 64 → ∃ p, replies (.sensorRead who (hd 3) first n) (.reply who 3 id 0 p) ∧ p.length = 4 * n ∧
           ∀ i, i < n → bget p (4 * i) 4 = (sget 0 s.col.sensors (first + i)).toNat)) ∧
       (∀ (comp : BitVec 8) (c k : Nat), c = comp.toNat - 1 → k = 1 - bootedSlot s c →
         (∀ (off : BitVec 32) (b : List Byte),
           (imageAllowed s comp.toNat = false → replies (.imageWrite who (hd 4) comp off b) (.reply who 4 id 2 [])) ∧
           (imageAllowed s comp.toNat = true → (1024 < b.length ∨ slotSize c < off.toNat + b.length) →
             replies (.imageWrite who (hd 4) comp off b) (.reply who 4 id 3 [])) ∧
           (imageAllowed s comp.toNat = true → b.length ≤ 1024 → off.toNat + b.length ≤ slotSize c →
             ∃ t, exec (.imageWrite who (hd 4) comp off b) s = .next t ∧ t.sent = s.sent ++ [.mgmt (.reply who 4 id 0 [])] ∧
               slotSt t.flash c k = .invalid ∧ t = { s with flash := t.flash, sent := t.sent } ∧
               ∀ a, sget 0xFF t.flash.bytes a = if slotBase c k + off.toNat ≤ a ∧ a < slotBase c k + off.toNat + b.length then
                 b.getD (a - (slotBase c k + off.toNat)) 0 else sget 0xFF s.flash.bytes a)) ∧
         (∀ len : BitVec 32,
           (imageAllowed s comp.toNat = false → replies (.imageCommit who (hd 5) comp len) (.reply who 5 id 2 [])) ∧
           (imageAllowed s comp.toNat = true → slotSize c < len.toNat → replies (.imageCommit who (hd 5) comp len) (.reply who 5 id 3 [])) ∧
           (imageAllowed s comp.toNat = true → len.toNat ≤ slotSize c →
             (updCause s c (flashRange s.flash.bytes (slotBase c k) len.toNat) = 0 →
               ∃ t, exec (.imageCommit who (hd 5) comp len) s = .next t ∧ t.sent = s.sent ++ [.mgmt (.reply who 5 id 0 [])] ∧
                 slotSt t.flash c k = .pending 3 ∧ t.flash.bytes = s.flash.bytes ∧
                 (s.col.recovery = true → t.col.recovery = false ∧ t.col.stage = 0 ∧ t.flash.cycles = s.flash.cycles + 1)) ∧
             (updCause s c (flashRange s.flash.bytes (slotBase c k) len.toNat) ≠ 0 →
               ∃ t, exec (.imageCommit who (hd 5) comp len) s = .next t ∧ t.sent = s.sent ++ [.mgmt (.reply who 5 id 2 [])] ∧
                 slotSt t.flash c k = .invalid ∧ t.flash.bytes = s.flash.bytes))))) ∧
       (∀ (ty : BitVec 8) (ok : Bool) (flash : Bool) (slot : BitVec 16) (n : Nat) (comp : BitVec 8) (off len : BitVec 32) (b : List Byte),
         (∀ c ∈ [Instr.logRead who ⟨1, ty, id, ok, ahead⟩ flash slot n, .sensorRead who ⟨1, ty, id, ok, ahead⟩ slot.toNat n,
             .imageWrite who ⟨1, ty, id, ok, ahead⟩ comp off b, .imageCommit who ⟨1, ty, id, ok, ahead⟩ comp len],
           (ty = 0 ∨ 5 < ty) → replies c (.reply who ty id 1 [])) ∧
         replies (.logRead who ⟨1, 2, id, false, ahead⟩ flash slot n) (.reply who 2 id 3 []) ∧
         replies (.sensorRead who ⟨1, 3, id, false, ahead⟩ slot.toNat n) (.reply who 3 id 3 []) ∧
         replies (.imageWrite who ⟨1, 4, id, false, ahead⟩ comp off b) (.reply who 4 id 3 []) ∧
         replies (.imageCommit who ⟨1, 5, id, false, ahead⟩ comp len) (.reply who 5 id 3 []))) ∧
     (∀ r : SpdmCall, r.hd.version = 1 → r.hd.ahead < 16 → r.hd.type = 1 → r.hd.lenOk = true →
       (let dst : ReplyTo := ⟨r.who, r.hd.id⟩
        let serves (c : Instr) (kind : Nat) (m : Mgmt) : Prop :=
          (s.col.recovery = true ∨ r.listed = false → replies c (.spdmError dst .unsupportedRequest)) ∧
          (s.col.recovery = false → r.listed = true → ∃ t b, exec c s = .next t ∧ t.sent = s.sent ++ [.mgmt m] ∧
            t = { s with sent := t.sent, col := { s.col with spdm := t.col.spdm } } ∧
            tscOf t r.who = (if kind = 0 then ⟨r.who, [0], b⟩ else ⟨r.who, (tscOf s r.who).done ++ [kind], (tscOf s r.who).bytes ++ b⟩) ∧
            (s.col.spdm.any (fun x => x.who = r.who) = false → s.col.spdm.length = 4 →
              t.col.spdm = s.col.spdm.drop 1 ++ [tscOf t r.who]))
        serves (.getVersion r) 0 (.spdmVersion dst [(1, 2)]) ∧
        (∀ fl, serves (.getCapabilities r fl) 1 (.spdmCaps dst ⟨true, true, true, 16, 1024, 1024⟩)) ∧
        (∀ a h, serves (.negotiateAlgorithms r a h) 2 (.spdmAlgs dst (if bitAt a 2 && bitAt h 0 then
          some ⟨"DMTF", "TPM_ALG_RSASSA_3072", "TPM_ALG_SHA_256", "TPM_ALG_SHA_256"⟩ else none))) ∧
        serves (.getDigests r) 3 (.spdmDigests dst (sha256 certChain)) ∧
        (∀ off len : BitVec 16, serves (.getCertificate r 0 off len) 4 (.spdmCert dst
          ((certChain.drop off.toNat).take (min 960 len.toNat))
          (certChain.length - off.toNat - ((certChain.drop off.toNat).take (min 960 len.toNat)).length))) ∧
        (∀ slot off len, slot ≠ 0 → serves (.getCertificate r slot off len) 4 (.spdmError dst .invalidRequest)) ∧
        (∀ (slot sum : BitVec 8) (nonce : BitVec 256),
          ((slot ≠ 0 ∨ (sum ≠ 0 ∧ sum ≠ 1 ∧ sum ≠ 255)) → serves (.challenge r slot sum nonce) 5 (.spdmError dst .invalidRequest)) ∧
          (slot = 0 → sum = 0 → ∃ sig, serves (.challenge r slot sum nonce) 5 (.spdmChallenge dst (sha256 certChain) [] sig)) ∧
          (slot = 0 → (sum = 1 ∨ sum = 255) → ∃ sig, serves (.challenge r slot sum nonce) 5 (.spdmChallenge dst (sha256 certChain)
            (sha256 (s.col.meas.getD 0 [] ++ s.col.meas.getD 1 [] ++ s.col.meas.getD 2 [])) sig))) ∧
        (∀ (i : BitVec 8) (sign : Bool) (nonce : BitVec 256),
          ((i = 0 ∨ (3 < i ∧ i ≠ 255)) → serves (.getMeasurements r i sign nonce) 6 (.spdmError dst .invalidRequest)) ∧
          (∀ l, (i = 255 ∧ l = [1, 2, 3]) ∨ (1 ≤ i ∧ i ≤ 3 ∧ l = [i.toNat]) → ∃ sig, sig.isSome = sign ∧
            serves (.getMeasurements r i sign nonce) 6
              (.spdmMeas dst (l.map fun j => ⟨j, if j = 3 then .firmwareConfig else .mutableFirmware, s.col.meas.getD (j - 1) []⟩) sig))))) ∧
     (∀ (r : SpdmCall) (who : Requester) (hd : ReqHead) (flash sign : Bool) (slot : BitVec 16) (n : Nat) (comp sum : BitVec 8)
         (off len : BitVec 32) (o l : BitVec 16) (nonce : BitVec 256) (b : List Byte), r.hd = hd →
       (let all := [Instr.logRead who hd flash slot n, .sensorRead who hd slot.toNat n, .imageWrite who hd comp off b,
          .imageCommit who hd comp len, .getVersion r, .getCapabilities r off, .negotiateAlgorithms r off len, .getDigests r,
          .getCertificate r comp o l, .challenge r comp sum nonce, .getMeasurements r comp sign nonce]
        16 ≤ hd.ahead ∨ hd.version ≠ 1 → ∀ c ∈ all, exec c s = .next s)))
end

