-- ==== Sys2Proof/Laws/Memory.lean ====
section
/-! SUPPORT. Laws of sparse tables and of memory bytes: a read after a write, and the canonical form
that every memory operation keeps. -/

namespace Sys2Proof.Machine
open Sys2Proof

/-! ### Sparse tables -/

@[simp] theorem sget_sset_same {α : Type} (d : α) (m : Sparse α) (k : Nat) (v : α) : sget d (sset m k v) k = v := by
  induction m with
  | nil => simp [sset, sget]
  | cons p t ih =>
    obtain ⟨k', v'⟩ := p
    simp only [sset]
    split
    · simp [sget]
    · split
      · simp [sget]
      · rename_i h
        simp [sget, Ne.symm h, ih]

theorem sget_sset_ne {α : Type} (d : α) (m : Sparse α) {k j : Nat} (v : α) (h : j ≠ k) :
    sget d (sset m k v) j = sget d m j := by
  induction m with
  | nil => simp [sset, sget, Ne.symm h]
  | cons p t ih =>
    obtain ⟨k', v'⟩ := p
    simp only [sset]
    split
    · simp [sget, Ne.symm h]
    · split
      · rename_i h2
        subst h2
        simp [sget, Ne.symm h]
      · simp only [sget, ih]

theorem sget_sset {α : Type} (d : α) (m : Sparse α) (k j : Nat) (v : α) :
    sget d (sset m k v) j = if j = k then v else sget d m j := by
  split
  · subst_vars; simp
  · exact sget_sset_ne d m v ‹_›

@[simp] theorem sget_sdel_same {α : Type} (d : α) (m : Sparse α) (k : Nat) : sget d (sdel m k) k = d := by
  induction m with
  | nil => rfl
  | cons p t ih =>
    obtain ⟨k', v'⟩ := p
    by_cases h : k' = k
    · simpa [sdel, h] using ih
    · simpa [sdel, h, sget] using ih

theorem sget_sdel_ne {α : Type} (d : α) (m : Sparse α) {k j : Nat} (h : j ≠ k) : sget d (sdel m k) j = sget d m j := by
  induction m with
  | nil => rfl
  | cons p t ih =>
    obtain ⟨k', v'⟩ := p
    by_cases h2 : k' = k
    · subst h2
      simpa [sdel, sget, Ne.symm h] using ih
    · simp only [sdel] at ih ⊢
      rw [List.filter_cons_of_pos (by simpa using h2)]
      simp only [sget, ih]

@[simp] theorem shas_sset {α : Type} (m : Sparse α) (k : Nat) (v : α) : shas (sset m k v) k = true := by
  induction m with
  | nil => simp [shas, sset]
  | cons p t ih =>
    obtain ⟨k', v'⟩ := p
    simp only [sset]
    split
    · simp [shas]
    · split
      · simp [shas]
      · simp only [shas, List.any_cons, Bool.or_eq_true] at ih ⊢
        exact .inr ih

@[simp] theorem shas_sdel {α : Type} (m : Sparse α) (k : Nat) : shas (sdel m k) k = false := by
  simp [shas, sdel]

/-! ### Bytes of memory -/

theorem mget_mput_ne (c : List Host.Cell) {a j : Nat} (b : Byte) (h : j ≠ a) : mget (mput c a b) j = mget c j := by
  induction c with
  | nil =>
    simp only [mput]
    split <;> simp [mget, sget, Ne.symm h]
  | cons p t ih =>
    obtain ⟨k, v⟩ := p
    simp only [mget] at ih
    simp only [mput]
    split
    · split <;> simp [mget, sget, Ne.symm h]
    · split
      · rename_i h2
        subst h2
        split <;> simp [mget, sget, Ne.symm h]
      · simp only [mget, sget, ih]

/-- The canonical form from a lower bound on. -/
theorem wfFrom_mono {lo lo' : Nat} (h : lo' ≤ lo) : ∀ {c : List Host.Cell}, Memory.wfFrom lo c = true → Memory.wfFrom lo' c = true
  | [], _ => rfl
  | (k, v) :: t, hw => by
    simp only [Memory.wfFrom, Bool.and_eq_true, decide_eq_true_eq] at hw ⊢
    exact ⟨⟨by omega, hw.1.2⟩, hw.2⟩

theorem mput_wfFrom (b : Byte) : ∀ (c : List Host.Cell) (lo a : Nat), lo ≤ a → Memory.wfFrom lo c = true →
    Memory.wfFrom lo (mput c a b) = true
  | [], lo, a, h, _ => by
    simp only [mput]
    split <;> simp_all [Memory.wfFrom]
  | (k, v) :: t, lo, a, h, hw => by
    simp only [Memory.wfFrom, Bool.and_eq_true, decide_eq_true_eq] at hw
    obtain ⟨⟨h1, h2⟩, h3⟩ := hw
    simp only [mput]
    split
    · split
      · simp_all [Memory.wfFrom]
      · rename_i h5 h6
        have : Memory.wfFrom (k + 1) t = true := h3
        simp_all [Memory.wfFrom]
        try omega
    · split
      · rename_i h4 h5
        subst h5
        split
        · exact wfFrom_mono (by omega) h3
        · simp_all [Memory.wfFrom]
      · have := mput_wfFrom b t (k + 1) a (by omega) h3
        simp_all [Memory.wfFrom]

theorem mget_of_wfFrom : ∀ (c : List Host.Cell) (lo a : Nat), Memory.wfFrom lo c = true → a < lo → mget c a = 0
  | [], _, _, _, _ => rfl
  | (k, v) :: t, lo, a, hw, h => by
    simp only [Memory.wfFrom, Bool.and_eq_true, decide_eq_true_eq] at hw
    have := mget_of_wfFrom t (k + 1) a hw.2 (by omega)
    have hk : k ≠ a := by omega
    simpa [mget, sget, hk] using this

/-- A read after a write to the same place gives the value written. -/
theorem mget_mput_same (b : Byte) : ∀ (c : List Host.Cell) (lo a : Nat), Memory.wfFrom lo c = true → mget (mput c a b) a = b
  | [], _, _, _ => by
    simp only [mput]
    split <;> simp_all [mget, sget]
  | (k, v) :: t, lo, a, hw => by
    simp only [Memory.wfFrom, Bool.and_eq_true, decide_eq_true_eq] at hw
    simp only [mput]
    split
    · rename_i h1
      split
      · rename_i h2
        have h3 := mget_of_wfFrom t (k + 1) a hw.2 (by omega)
        have hk : k ≠ a := by omega
        simpa [mget, sget, hk, h2] using h3
      · simp [mget, sget]
    · split
      · rename_i h1 h2
        subst h2
        split
        · rename_i h3
          rw [h3]
          exact mget_of_wfFrom t (a + 1) a hw.2 (by omega)
        · simp [mget, sget]
      · rename_i h1 h2
        have ih := mget_mput_same b t (k + 1) a hw.2
        simpa [mget, sget, Ne.symm h2] using ih

/-- A memory write keeps the canonical form. -/
theorem mput_wf {c : List Host.Cell} (a : Nat) (b : Byte) (h : Memory.wfFrom 0 c = true) : Memory.wfFrom 0 (mput c a b) = true :=
  mput_wfFrom b c 0 a (Nat.zero_le a) h

theorem mputs_wf : ∀ (l : List Byte) {c : List Host.Cell} (a : Nat), Memory.wfFrom 0 c = true →
    Memory.wfFrom 0 (mputs c a l) = true
  | [], _, _, h => h
  | b :: t, _, a, h => mputs_wf t (a + 1) (mput_wf a b h)

/-- A write of bytes leaves every other place alone. -/
theorem mget_mputs_out : ∀ (l : List Byte) (c : List Host.Cell) (a j : Nat), (j < a ∨ a + l.length ≤ j) →
    mget (mputs c a l) j = mget c j
  | [], _, _, _, _ => rfl
  | b :: t, c, a, j, h => by
    simp only [List.length_cons] at h
    simp only [mputs]
    rw [mget_mputs_out t (mput c a b) (a + 1) j (by omega), mget_mput_ne c b (by omega)]

/-- Bytes written read back. -/
theorem mget_mputs_in : ∀ (l : List Byte) {c : List Host.Cell} (a i : Nat), Memory.wfFrom 0 c = true → (h : i < l.length) →
    mget (mputs c a l) (a + i) = l[i]
  | b :: t, c, a, 0, hw, _ => by
    simp only [mputs, Nat.add_zero, List.getElem_cons_zero]
    rw [mget_mputs_out t (mput c a b) (a + 1) a (by omega)]
    exact mget_mput_same b c 0 a hw
  | b :: t, c, a, i + 1, hw, h => by
    have := mget_mputs_in t (a + 1) i (mput_wf a b hw) (by simpa using h)
    simpa [mputs, Nat.add_assoc, Nat.add_comm 1 i] using this

end Sys2Proof.Machine
end

