-- ==== Sys2Proof/Laws/State.lean ====
section
/-! SUPPORT. What each setter of the state does to each field, every lemma true by `rfl`. -/

namespace Sys2Proof.Machine
open Sys2Proof

variable (s : State)

/-! ### `setReg` -/

@[simp] theorem setReg_pending (addr : Nat) (v : Word) : (setReg s addr v).pending = s.pending := rfl
@[simp] theorem setReg_tick (addr : Nat) (v : Word) : (setReg s addr v).tick = s.tick := rfl
@[simp] theorem setReg_free (addr : Nat) (v : Word) : (setReg s addr v).free = s.free := rfl
@[simp] theorem setReg_power (addr : Nat) (v : Word) : (setReg s addr v).power = s.power := rfl
@[simp] theorem setReg_flash (addr : Nat) (v : Word) : (setReg s addr v).flash = s.flash := rfl
@[simp] theorem setReg_col (addr : Nat) (v : Word) : (setReg s addr v).col = s.col := rfl
@[simp] theorem setReg_drv (addr : Nat) (v : Word) : (setReg s addr v).drv = s.drv := rfl
@[simp] theorem setReg_frames (addr : Nat) (v : Word) : (setReg s addr v).frames = s.frames := rfl
@[simp] theorem setReg_regs (addr : Nat) (v : Word) : (setReg s addr v).regs = sset s.regs addr v := rfl
@[simp] theorem setReg_act (addr : Nat) (v : Word) : (setReg s addr v).act = s.act := rfl
@[simp] theorem setReg_mem (addr : Nat) (v : Word) : (setReg s addr v).mem = s.mem := rfl
@[simp] theorem setReg_ecc (addr : Nat) (v : Word) : (setReg s addr v).ecc = s.ecc := rfl
@[simp] theorem setReg_res (addr : Nat) (v : Word) : (setReg s addr v).res = s.res := rfl
@[simp] theorem setReg_resEcc (addr : Nat) (v : Word) : (setReg s addr v).resEcc = s.resEcc := rfl
@[simp] theorem setReg_stale (addr : Nat) (v : Word) : (setReg s addr v).stale = s.stale := rfl
@[simp] theorem setReg_scrubPos (addr : Nat) (v : Word) : (setReg s addr v).scrubPos = s.scrubPos := rfl
@[simp] theorem setReg_bias (addr : Nat) (v : Word) : (setReg s addr v).bias = s.bias := rfl
@[simp] theorem setReg_xlt (addr : Nat) (v : Word) : (setReg s addr v).xlt = s.xlt := rfl
@[simp] theorem setReg_xltNodes (addr : Nat) (v : Word) : (setReg s addr v).xltNodes = s.xltNodes := rfl
@[simp] theorem setReg_invals (addr : Nat) (v : Word) : (setReg s addr v).invals = s.invals := rfl
@[simp] theorem setReg_cxl (addr : Nat) (v : Word) : (setReg s addr v).cxl = s.cxl := rfl
@[simp] theorem setReg_cxlUp (addr : Nat) (v : Word) : (setReg s addr v).cxlUp = s.cxlUp := rfl
@[simp] theorem setReg_cxlBytes (addr : Nat) (v : Word) : (setReg s addr v).cxlBytes = s.cxlBytes := rfl
@[simp] theorem setReg_scb (addr : Nat) (v : Word) : (setReg s addr v).scb = s.scb := rfl
@[simp] theorem setReg_queues (addr : Nat) (v : Word) : (setReg s addr v).queues = s.queues := rfl
@[simp] theorem setReg_cqs (addr : Nat) (v : Word) : (setReg s addr v).cqs = s.cqs := rfl
@[simp] theorem setReg_sems (addr : Nat) (v : Word) : (setReg s addr v).sems = s.sems := rfl
@[simp] theorem setReg_outs (addr : Nat) (v : Word) : (setReg s addr v).outs = s.outs := rfl
@[simp] theorem setReg_nextId (addr : Nat) (v : Word) : (setReg s addr v).nextId = s.nextId := rfl
@[simp] theorem setReg_reported (addr : Nat) (v : Word) : (setReg s addr v).reported = s.reported := rfl
@[simp] theorem setReg_sigs (addr : Nat) (v : Word) : (setReg s addr v).sigs = s.sigs := rfl
@[simp] theorem setReg_inks (addr : Nat) (v : Word) : (setReg s addr v).inks = s.inks := rfl
@[simp] theorem setReg_mcast (addr : Nat) (v : Word) : (setReg s addr v).mcast = s.mcast := rfl
@[simp] theorem setReg_duct (addr : Nat) (v : Word) : (setReg s addr v).duct = s.duct := rfl
@[simp] theorem setReg_nibs (addr : Nat) (v : Word) : (setReg s addr v).nibs = s.nibs := rfl
@[simp] theorem setReg_qdma (addr : Nat) (v : Word) : (setReg s addr v).qdma = s.qdma := rfl
@[simp] theorem setReg_mail (addr : Nat) (v : Word) : (setReg s addr v).mail = s.mail := rfl
@[simp] theorem setReg_dmas (addr : Nat) (v : Word) : (setReg s addr v).dmas = s.dmas := rfl
@[simp] theorem setReg_dmaTurn (addr : Nat) (v : Word) : (setReg s addr v).dmaTurn = s.dmaTurn := rfl
@[simp] theorem setReg_links (addr : Nat) (v : Word) : (setReg s addr v).links = s.links := rfl
@[simp] theorem setReg_blt (addr : Nat) (v : Word) : (setReg s addr v).blt = s.blt := rfl
@[simp] theorem setReg_upds (addr : Nat) (v : Word) : (setReg s addr v).upds = s.upds := rfl
@[simp] theorem setReg_updOrder (addr : Nat) (v : Word) : (setReg s addr v).updOrder = s.updOrder := rfl
@[simp] theorem setReg_pins (addr : Nat) (v : Word) : (setReg s addr v).pins = s.pins := rfl
@[simp] theorem setReg_bltWaits (addr : Nat) (v : Word) : (setReg s addr v).bltWaits = s.bltWaits := rfl
@[simp] theorem setReg_ruls (addr : Nat) (v : Word) : (setReg s addr v).ruls = s.ruls := rfl
@[simp] theorem setReg_badval (addr : Nat) (v : Word) : (setReg s addr v).badval = s.badval := rfl
@[simp] theorem setReg_probeDone (addr : Nat) (v : Word) : (setReg s addr v).probeDone = s.probeDone := rfl
@[simp] theorem setReg_srp (addr : Nat) (v : Word) : (setReg s addr v).srp = s.srp := rfl
@[simp] theorem setReg_tags (addr : Nat) (v : Word) : (setReg s addr v).tags = s.tags := rfl
@[simp] theorem setReg_srpEarly (addr : Nat) (v : Word) : (setReg s addr v).srpEarly = s.srpEarly := rfl
@[simp] theorem setReg_coh (addr : Nat) (v : Word) : (setReg s addr v).coh = s.coh := rfl
@[simp] theorem setReg_ports (addr : Nat) (v : Word) : (setReg s addr v).ports = s.ports := rfl
@[simp] theorem setReg_ctxs (addr : Nat) (v : Word) : (setReg s addr v).ctxs = s.ctxs := rfl
@[simp] theorem setReg_routes (addr : Nat) (v : Word) : (setReg s addr v).routes = s.routes := rfl
@[simp] theorem setReg_routesSh (addr : Nat) (v : Word) : (setReg s addr v).routesSh = s.routesSh := rfl
@[simp] theorem setReg_rings (addr : Nat) (v : Word) : (setReg s addr v).rings = s.rings := rfl
@[simp] theorem setReg_flows (addr : Nat) (v : Word) : (setReg s addr v).flows = s.flows := rfl
@[simp] theorem setReg_macUni (addr : Nat) (v : Word) : (setReg s addr v).macUni = s.macUni := rfl
@[simp] theorem setReg_macHash (addr : Nat) (v : Word) : (setReg s addr v).macHash = s.macHash := rfl
@[simp] theorem setReg_ethBad (addr : Nat) (v : Word) : (setReg s addr v).ethBad = s.ethBad := rfl
@[simp] theorem setReg_ethPause (addr : Nat) (v : Word) : (setReg s addr v).ethPause = s.ethPause := rfl
@[simp] theorem setReg_ethTag (addr : Nat) (v : Word) : (setReg s addr v).ethTag = s.ethTag := rfl
@[simp] theorem setReg_feeds (addr : Nat) (v : Word) : (setReg s addr v).feeds = s.feeds := rfl
@[simp] theorem setReg_gauges (addr : Nat) (v : Word) : (setReg s addr v).gauges = s.gauges := rfl
@[simp] theorem setReg_cores (addr : Nat) (v : Word) : (setReg s addr v).cores = s.cores := rfl
@[simp] theorem setReg_sent (addr : Nat) (v : Word) : (setReg s addr v).sent = s.sent := rfl

/-! ### `applyShadow` -/

@[simp] theorem applyShadow_pending (l : List Nat) : (applyShadow s l).pending = s.pending := rfl
@[simp] theorem applyShadow_tick (l : List Nat) : (applyShadow s l).tick = s.tick := rfl
@[simp] theorem applyShadow_free (l : List Nat) : (applyShadow s l).free = s.free := rfl
@[simp] theorem applyShadow_power (l : List Nat) : (applyShadow s l).power = s.power := rfl
@[simp] theorem applyShadow_flash (l : List Nat) : (applyShadow s l).flash = s.flash := rfl
@[simp] theorem applyShadow_col (l : List Nat) : (applyShadow s l).col = s.col := rfl
@[simp] theorem applyShadow_drv (l : List Nat) : (applyShadow s l).drv = s.drv := rfl
@[simp] theorem applyShadow_frames (l : List Nat) : (applyShadow s l).frames = s.frames := rfl
@[simp] theorem applyShadow_regs (l : List Nat) : (applyShadow s l).regs = s.regs := rfl
@[simp] theorem applyShadow_mem (l : List Nat) : (applyShadow s l).mem = s.mem := rfl
@[simp] theorem applyShadow_ecc (l : List Nat) : (applyShadow s l).ecc = s.ecc := rfl
@[simp] theorem applyShadow_res (l : List Nat) : (applyShadow s l).res = s.res := rfl
@[simp] theorem applyShadow_resEcc (l : List Nat) : (applyShadow s l).resEcc = s.resEcc := rfl
@[simp] theorem applyShadow_stale (l : List Nat) : (applyShadow s l).stale = s.stale := rfl
@[simp] theorem applyShadow_scrubPos (l : List Nat) : (applyShadow s l).scrubPos = s.scrubPos := rfl
@[simp] theorem applyShadow_bias (l : List Nat) : (applyShadow s l).bias = s.bias := rfl
@[simp] theorem applyShadow_xlt (l : List Nat) : (applyShadow s l).xlt = s.xlt := rfl
@[simp] theorem applyShadow_xltNodes (l : List Nat) : (applyShadow s l).xltNodes = s.xltNodes := rfl
@[simp] theorem applyShadow_invals (l : List Nat) : (applyShadow s l).invals = s.invals := rfl
@[simp] theorem applyShadow_cxl (l : List Nat) : (applyShadow s l).cxl = s.cxl := rfl
@[simp] theorem applyShadow_cxlUp (l : List Nat) : (applyShadow s l).cxlUp = s.cxlUp := rfl
@[simp] theorem applyShadow_cxlBytes (l : List Nat) : (applyShadow s l).cxlBytes = s.cxlBytes := rfl
@[simp] theorem applyShadow_scb (l : List Nat) : (applyShadow s l).scb = s.scb := rfl
@[simp] theorem applyShadow_queues (l : List Nat) : (applyShadow s l).queues = s.queues := rfl
@[simp] theorem applyShadow_cqs (l : List Nat) : (applyShadow s l).cqs = s.cqs := rfl
@[simp] theorem applyShadow_sems (l : List Nat) : (applyShadow s l).sems = s.sems := rfl
@[simp] theorem applyShadow_outs (l : List Nat) : (applyShadow s l).outs = s.outs := rfl
@[simp] theorem applyShadow_nextId (l : List Nat) : (applyShadow s l).nextId = s.nextId := rfl
@[simp] theorem applyShadow_reported (l : List Nat) : (applyShadow s l).reported = s.reported := rfl
@[simp] theorem applyShadow_sigs (l : List Nat) : (applyShadow s l).sigs = s.sigs := rfl
@[simp] theorem applyShadow_inks (l : List Nat) : (applyShadow s l).inks = s.inks := rfl
@[simp] theorem applyShadow_mcast (l : List Nat) : (applyShadow s l).mcast = s.mcast := rfl
@[simp] theorem applyShadow_duct (l : List Nat) : (applyShadow s l).duct = s.duct := rfl
@[simp] theorem applyShadow_nibs (l : List Nat) : (applyShadow s l).nibs = s.nibs := rfl
@[simp] theorem applyShadow_qdma (l : List Nat) : (applyShadow s l).qdma = s.qdma := rfl
@[simp] theorem applyShadow_mail (l : List Nat) : (applyShadow s l).mail = s.mail := rfl
@[simp] theorem applyShadow_dmas (l : List Nat) : (applyShadow s l).dmas = s.dmas := rfl
@[simp] theorem applyShadow_dmaTurn (l : List Nat) : (applyShadow s l).dmaTurn = s.dmaTurn := rfl
@[simp] theorem applyShadow_links (l : List Nat) : (applyShadow s l).links = s.links := rfl
@[simp] theorem applyShadow_blt (l : List Nat) : (applyShadow s l).blt = s.blt := rfl
@[simp] theorem applyShadow_upds (l : List Nat) : (applyShadow s l).upds = s.upds := rfl
@[simp] theorem applyShadow_updOrder (l : List Nat) : (applyShadow s l).updOrder = s.updOrder := rfl
@[simp] theorem applyShadow_pins (l : List Nat) : (applyShadow s l).pins = s.pins := rfl
@[simp] theorem applyShadow_bltWaits (l : List Nat) : (applyShadow s l).bltWaits = s.bltWaits := rfl
@[simp] theorem applyShadow_ruls (l : List Nat) : (applyShadow s l).ruls = s.ruls := rfl
@[simp] theorem applyShadow_badval (l : List Nat) : (applyShadow s l).badval = s.badval := rfl
@[simp] theorem applyShadow_probeDone (l : List Nat) : (applyShadow s l).probeDone = s.probeDone := rfl
@[simp] theorem applyShadow_srp (l : List Nat) : (applyShadow s l).srp = s.srp := rfl
@[simp] theorem applyShadow_tags (l : List Nat) : (applyShadow s l).tags = s.tags := rfl
@[simp] theorem applyShadow_srpEarly (l : List Nat) : (applyShadow s l).srpEarly = s.srpEarly := rfl
@[simp] theorem applyShadow_coh (l : List Nat) : (applyShadow s l).coh = s.coh := rfl
@[simp] theorem applyShadow_ports (l : List Nat) : (applyShadow s l).ports = s.ports := rfl
@[simp] theorem applyShadow_ctxs (l : List Nat) : (applyShadow s l).ctxs = s.ctxs := rfl
@[simp] theorem applyShadow_routes (l : List Nat) : (applyShadow s l).routes = s.routes := rfl
@[simp] theorem applyShadow_routesSh (l : List Nat) : (applyShadow s l).routesSh = s.routesSh := rfl
@[simp] theorem applyShadow_rings (l : List Nat) : (applyShadow s l).rings = s.rings := rfl
@[simp] theorem applyShadow_flows (l : List Nat) : (applyShadow s l).flows = s.flows := rfl
@[simp] theorem applyShadow_macUni (l : List Nat) : (applyShadow s l).macUni = s.macUni := rfl
@[simp] theorem applyShadow_macHash (l : List Nat) : (applyShadow s l).macHash = s.macHash := rfl
@[simp] theorem applyShadow_ethBad (l : List Nat) : (applyShadow s l).ethBad = s.ethBad := rfl
@[simp] theorem applyShadow_ethPause (l : List Nat) : (applyShadow s l).ethPause = s.ethPause := rfl
@[simp] theorem applyShadow_ethTag (l : List Nat) : (applyShadow s l).ethTag = s.ethTag := rfl
@[simp] theorem applyShadow_feeds (l : List Nat) : (applyShadow s l).feeds = s.feeds := rfl
@[simp] theorem applyShadow_gauges (l : List Nat) : (applyShadow s l).gauges = s.gauges := rfl
@[simp] theorem applyShadow_cores (l : List Nat) : (applyShadow s l).cores = s.cores := rfl
@[simp] theorem applyShadow_sent (l : List Nat) : (applyShadow s l).sent = s.sent := rfl

/-! ### `setQueue` -/

@[simp] theorem setQueue_pending (q : Nat) (v : Queue) : (setQueue s q v).pending = s.pending := rfl
@[simp] theorem setQueue_tick (q : Nat) (v : Queue) : (setQueue s q v).tick = s.tick := rfl
@[simp] theorem setQueue_free (q : Nat) (v : Queue) : (setQueue s q v).free = s.free := rfl
@[simp] theorem setQueue_power (q : Nat) (v : Queue) : (setQueue s q v).power = s.power := rfl
@[simp] theorem setQueue_flash (q : Nat) (v : Queue) : (setQueue s q v).flash = s.flash := rfl
@[simp] theorem setQueue_col (q : Nat) (v : Queue) : (setQueue s q v).col = s.col := rfl
@[simp] theorem setQueue_drv (q : Nat) (v : Queue) : (setQueue s q v).drv = s.drv := rfl
@[simp] theorem setQueue_frames (q : Nat) (v : Queue) : (setQueue s q v).frames = s.frames := rfl
@[simp] theorem setQueue_regs (q : Nat) (v : Queue) : (setQueue s q v).regs = s.regs := rfl
@[simp] theorem setQueue_act (q : Nat) (v : Queue) : (setQueue s q v).act = s.act := rfl
@[simp] theorem setQueue_mem (q : Nat) (v : Queue) : (setQueue s q v).mem = s.mem := rfl
@[simp] theorem setQueue_ecc (q : Nat) (v : Queue) : (setQueue s q v).ecc = s.ecc := rfl
@[simp] theorem setQueue_res (q : Nat) (v : Queue) : (setQueue s q v).res = s.res := rfl
@[simp] theorem setQueue_resEcc (q : Nat) (v : Queue) : (setQueue s q v).resEcc = s.resEcc := rfl
@[simp] theorem setQueue_stale (q : Nat) (v : Queue) : (setQueue s q v).stale = s.stale := rfl
@[simp] theorem setQueue_scrubPos (q : Nat) (v : Queue) : (setQueue s q v).scrubPos = s.scrubPos := rfl
@[simp] theorem setQueue_bias (q : Nat) (v : Queue) : (setQueue s q v).bias = s.bias := rfl
@[simp] theorem setQueue_xlt (q : Nat) (v : Queue) : (setQueue s q v).xlt = s.xlt := rfl
@[simp] theorem setQueue_xltNodes (q : Nat) (v : Queue) : (setQueue s q v).xltNodes = s.xltNodes := rfl
@[simp] theorem setQueue_invals (q : Nat) (v : Queue) : (setQueue s q v).invals = s.invals := rfl
@[simp] theorem setQueue_cxl (q : Nat) (v : Queue) : (setQueue s q v).cxl = s.cxl := rfl
@[simp] theorem setQueue_cxlUp (q : Nat) (v : Queue) : (setQueue s q v).cxlUp = s.cxlUp := rfl
@[simp] theorem setQueue_cxlBytes (q : Nat) (v : Queue) : (setQueue s q v).cxlBytes = s.cxlBytes := rfl
@[simp] theorem setQueue_scb (q : Nat) (v : Queue) : (setQueue s q v).scb = s.scb := rfl
@[simp] theorem setQueue_queues (q : Nat) (v : Queue) : (setQueue s q v).queues = sset s.queues q v := rfl
@[simp] theorem setQueue_cqs (q : Nat) (v : Queue) : (setQueue s q v).cqs = s.cqs := rfl
@[simp] theorem setQueue_sems (q : Nat) (v : Queue) : (setQueue s q v).sems = s.sems := rfl
@[simp] theorem setQueue_outs (q : Nat) (v : Queue) : (setQueue s q v).outs = s.outs := rfl
@[simp] theorem setQueue_nextId (q : Nat) (v : Queue) : (setQueue s q v).nextId = s.nextId := rfl
@[simp] theorem setQueue_reported (q : Nat) (v : Queue) : (setQueue s q v).reported = s.reported := rfl
@[simp] theorem setQueue_sigs (q : Nat) (v : Queue) : (setQueue s q v).sigs = s.sigs := rfl
@[simp] theorem setQueue_inks (q : Nat) (v : Queue) : (setQueue s q v).inks = s.inks := rfl
@[simp] theorem setQueue_mcast (q : Nat) (v : Queue) : (setQueue s q v).mcast = s.mcast := rfl
@[simp] theorem setQueue_duct (q : Nat) (v : Queue) : (setQueue s q v).duct = s.duct := rfl
@[simp] theorem setQueue_nibs (q : Nat) (v : Queue) : (setQueue s q v).nibs = s.nibs := rfl
@[simp] theorem setQueue_qdma (q : Nat) (v : Queue) : (setQueue s q v).qdma = s.qdma := rfl
@[simp] theorem setQueue_mail (q : Nat) (v : Queue) : (setQueue s q v).mail = s.mail := rfl
@[simp] theorem setQueue_dmas (q : Nat) (v : Queue) : (setQueue s q v).dmas = s.dmas := rfl
@[simp] theorem setQueue_dmaTurn (q : Nat) (v : Queue) : (setQueue s q v).dmaTurn = s.dmaTurn := rfl
@[simp] theorem setQueue_links (q : Nat) (v : Queue) : (setQueue s q v).links = s.links := rfl
@[simp] theorem setQueue_blt (q : Nat) (v : Queue) : (setQueue s q v).blt = s.blt := rfl
@[simp] theorem setQueue_upds (q : Nat) (v : Queue) : (setQueue s q v).upds = s.upds := rfl
@[simp] theorem setQueue_updOrder (q : Nat) (v : Queue) : (setQueue s q v).updOrder = s.updOrder := rfl
@[simp] theorem setQueue_pins (q : Nat) (v : Queue) : (setQueue s q v).pins = s.pins := rfl
@[simp] theorem setQueue_bltWaits (q : Nat) (v : Queue) : (setQueue s q v).bltWaits = s.bltWaits := rfl
@[simp] theorem setQueue_ruls (q : Nat) (v : Queue) : (setQueue s q v).ruls = s.ruls := rfl
@[simp] theorem setQueue_badval (q : Nat) (v : Queue) : (setQueue s q v).badval = s.badval := rfl
@[simp] theorem setQueue_probeDone (q : Nat) (v : Queue) : (setQueue s q v).probeDone = s.probeDone := rfl
@[simp] theorem setQueue_srp (q : Nat) (v : Queue) : (setQueue s q v).srp = s.srp := rfl
@[simp] theorem setQueue_tags (q : Nat) (v : Queue) : (setQueue s q v).tags = s.tags := rfl
@[simp] theorem setQueue_srpEarly (q : Nat) (v : Queue) : (setQueue s q v).srpEarly = s.srpEarly := rfl
@[simp] theorem setQueue_coh (q : Nat) (v : Queue) : (setQueue s q v).coh = s.coh := rfl
@[simp] theorem setQueue_ports (q : Nat) (v : Queue) : (setQueue s q v).ports = s.ports := rfl
@[simp] theorem setQueue_ctxs (q : Nat) (v : Queue) : (setQueue s q v).ctxs = s.ctxs := rfl
@[simp] theorem setQueue_routes (q : Nat) (v : Queue) : (setQueue s q v).routes = s.routes := rfl
@[simp] theorem setQueue_routesSh (q : Nat) (v : Queue) : (setQueue s q v).routesSh = s.routesSh := rfl
@[simp] theorem setQueue_rings (q : Nat) (v : Queue) : (setQueue s q v).rings = s.rings := rfl
@[simp] theorem setQueue_flows (q : Nat) (v : Queue) : (setQueue s q v).flows = s.flows := rfl
@[simp] theorem setQueue_macUni (q : Nat) (v : Queue) : (setQueue s q v).macUni = s.macUni := rfl
@[simp] theorem setQueue_macHash (q : Nat) (v : Queue) : (setQueue s q v).macHash = s.macHash := rfl
@[simp] theorem setQueue_ethBad (q : Nat) (v : Queue) : (setQueue s q v).ethBad = s.ethBad := rfl
@[simp] theorem setQueue_ethPause (q : Nat) (v : Queue) : (setQueue s q v).ethPause = s.ethPause := rfl
@[simp] theorem setQueue_ethTag (q : Nat) (v : Queue) : (setQueue s q v).ethTag = s.ethTag := rfl
@[simp] theorem setQueue_feeds (q : Nat) (v : Queue) : (setQueue s q v).feeds = s.feeds := rfl
@[simp] theorem setQueue_gauges (q : Nat) (v : Queue) : (setQueue s q v).gauges = s.gauges := rfl
@[simp] theorem setQueue_cores (q : Nat) (v : Queue) : (setQueue s q v).cores = s.cores := rfl
@[simp] theorem setQueue_sent (q : Nat) (v : Queue) : (setQueue s q v).sent = s.sent := rfl

/-! ### `setCq` -/

@[simp] theorem setCq_pending (h : Half) (n : Nat) (v : Cq) : (setCq s h n v).pending = s.pending := rfl
@[simp] theorem setCq_tick (h : Half) (n : Nat) (v : Cq) : (setCq s h n v).tick = s.tick := rfl
@[simp] theorem setCq_free (h : Half) (n : Nat) (v : Cq) : (setCq s h n v).free = s.free := rfl
@[simp] theorem setCq_power (h : Half) (n : Nat) (v : Cq) : (setCq s h n v).power = s.power := rfl
@[simp] theorem setCq_flash (h : Half) (n : Nat) (v : Cq) : (setCq s h n v).flash = s.flash := rfl
@[simp] theorem setCq_col (h : Half) (n : Nat) (v : Cq) : (setCq s h n v).col = s.col := rfl
@[simp] theorem setCq_drv (h : Half) (n : Nat) (v : Cq) : (setCq s h n v).drv = s.drv := rfl
@[simp] theorem setCq_frames (h : Half) (n : Nat) (v : Cq) : (setCq s h n v).frames = s.frames := rfl
@[simp] theorem setCq_regs (h : Half) (n : Nat) (v : Cq) : (setCq s h n v).regs = s.regs := rfl
@[simp] theorem setCq_act (h : Half) (n : Nat) (v : Cq) : (setCq s h n v).act = s.act := rfl
@[simp] theorem setCq_mem (h : Half) (n : Nat) (v : Cq) : (setCq s h n v).mem = s.mem := rfl
@[simp] theorem setCq_ecc (h : Half) (n : Nat) (v : Cq) : (setCq s h n v).ecc = s.ecc := rfl
@[simp] theorem setCq_res (h : Half) (n : Nat) (v : Cq) : (setCq s h n v).res = s.res := rfl
@[simp] theorem setCq_resEcc (h : Half) (n : Nat) (v : Cq) : (setCq s h n v).resEcc = s.resEcc := rfl
@[simp] theorem setCq_stale (h : Half) (n : Nat) (v : Cq) : (setCq s h n v).stale = s.stale := rfl
@[simp] theorem setCq_scrubPos (h : Half) (n : Nat) (v : Cq) : (setCq s h n v).scrubPos = s.scrubPos := rfl
@[simp] theorem setCq_bias (h : Half) (n : Nat) (v : Cq) : (setCq s h n v).bias = s.bias := rfl
@[simp] theorem setCq_xlt (h : Half) (n : Nat) (v : Cq) : (setCq s h n v).xlt = s.xlt := rfl
@[simp] theorem setCq_xltNodes (h : Half) (n : Nat) (v : Cq) : (setCq s h n v).xltNodes = s.xltNodes := rfl
@[simp] theorem setCq_invals (h : Half) (n : Nat) (v : Cq) : (setCq s h n v).invals = s.invals := rfl
@[simp] theorem setCq_cxl (h : Half) (n : Nat) (v : Cq) : (setCq s h n v).cxl = s.cxl := rfl
@[simp] theorem setCq_cxlUp (h : Half) (n : Nat) (v : Cq) : (setCq s h n v).cxlUp = s.cxlUp := rfl
@[simp] theorem setCq_cxlBytes (h : Half) (n : Nat) (v : Cq) : (setCq s h n v).cxlBytes = s.cxlBytes := rfl
@[simp] theorem setCq_scb (h : Half) (n : Nat) (v : Cq) : (setCq s h n v).scb = s.scb := rfl
@[simp] theorem setCq_queues (h : Half) (n : Nat) (v : Cq) : (setCq s h n v).queues = s.queues := rfl
@[simp] theorem setCq_cqs (h : Half) (n : Nat) (v : Cq) : (setCq s h n v).cqs = sset s.cqs (cqKey h n) v := rfl
@[simp] theorem setCq_sems (h : Half) (n : Nat) (v : Cq) : (setCq s h n v).sems = s.sems := rfl
@[simp] theorem setCq_outs (h : Half) (n : Nat) (v : Cq) : (setCq s h n v).outs = s.outs := rfl
@[simp] theorem setCq_nextId (h : Half) (n : Nat) (v : Cq) : (setCq s h n v).nextId = s.nextId := rfl
@[simp] theorem setCq_reported (h : Half) (n : Nat) (v : Cq) : (setCq s h n v).reported = s.reported := rfl
@[simp] theorem setCq_sigs (h : Half) (n : Nat) (v : Cq) : (setCq s h n v).sigs = s.sigs := rfl
@[simp] theorem setCq_inks (h : Half) (n : Nat) (v : Cq) : (setCq s h n v).inks = s.inks := rfl
@[simp] theorem setCq_mcast (h : Half) (n : Nat) (v : Cq) : (setCq s h n v).mcast = s.mcast := rfl
@[simp] theorem setCq_duct (h : Half) (n : Nat) (v : Cq) : (setCq s h n v).duct = s.duct := rfl
@[simp] theorem setCq_nibs (h : Half) (n : Nat) (v : Cq) : (setCq s h n v).nibs = s.nibs := rfl
@[simp] theorem setCq_qdma (h : Half) (n : Nat) (v : Cq) : (setCq s h n v).qdma = s.qdma := rfl
@[simp] theorem setCq_mail (h : Half) (n : Nat) (v : Cq) : (setCq s h n v).mail = s.mail := rfl
@[simp] theorem setCq_dmas (h : Half) (n : Nat) (v : Cq) : (setCq s h n v).dmas = s.dmas := rfl
@[simp] theorem setCq_dmaTurn (h : Half) (n : Nat) (v : Cq) : (setCq s h n v).dmaTurn = s.dmaTurn := rfl
@[simp] theorem setCq_links (h : Half) (n : Nat) (v : Cq) : (setCq s h n v).links = s.links := rfl
@[simp] theorem setCq_blt (h : Half) (n : Nat) (v : Cq) : (setCq s h n v).blt = s.blt := rfl
@[simp] theorem setCq_upds (h : Half) (n : Nat) (v : Cq) : (setCq s h n v).upds = s.upds := rfl
@[simp] theorem setCq_updOrder (h : Half) (n : Nat) (v : Cq) : (setCq s h n v).updOrder = s.updOrder := rfl
@[simp] theorem setCq_pins (h : Half) (n : Nat) (v : Cq) : (setCq s h n v).pins = s.pins := rfl
@[simp] theorem setCq_bltWaits (h : Half) (n : Nat) (v : Cq) : (setCq s h n v).bltWaits = s.bltWaits := rfl
@[simp] theorem setCq_ruls (h : Half) (n : Nat) (v : Cq) : (setCq s h n v).ruls = s.ruls := rfl
@[simp] theorem setCq_badval (h : Half) (n : Nat) (v : Cq) : (setCq s h n v).badval = s.badval := rfl
@[simp] theorem setCq_probeDone (h : Half) (n : Nat) (v : Cq) : (setCq s h n v).probeDone = s.probeDone := rfl
@[simp] theorem setCq_srp (h : Half) (n : Nat) (v : Cq) : (setCq s h n v).srp = s.srp := rfl
@[simp] theorem setCq_tags (h : Half) (n : Nat) (v : Cq) : (setCq s h n v).tags = s.tags := rfl
@[simp] theorem setCq_srpEarly (h : Half) (n : Nat) (v : Cq) : (setCq s h n v).srpEarly = s.srpEarly := rfl
@[simp] theorem setCq_coh (h : Half) (n : Nat) (v : Cq) : (setCq s h n v).coh = s.coh := rfl
@[simp] theorem setCq_ports (h : Half) (n : Nat) (v : Cq) : (setCq s h n v).ports = s.ports := rfl
@[simp] theorem setCq_ctxs (h : Half) (n : Nat) (v : Cq) : (setCq s h n v).ctxs = s.ctxs := rfl
@[simp] theorem setCq_routes (h : Half) (n : Nat) (v : Cq) : (setCq s h n v).routes = s.routes := rfl
@[simp] theorem setCq_routesSh (h : Half) (n : Nat) (v : Cq) : (setCq s h n v).routesSh = s.routesSh := rfl
@[simp] theorem setCq_rings (h : Half) (n : Nat) (v : Cq) : (setCq s h n v).rings = s.rings := rfl
@[simp] theorem setCq_flows (h : Half) (n : Nat) (v : Cq) : (setCq s h n v).flows = s.flows := rfl
@[simp] theorem setCq_macUni (h : Half) (n : Nat) (v : Cq) : (setCq s h n v).macUni = s.macUni := rfl
@[simp] theorem setCq_macHash (h : Half) (n : Nat) (v : Cq) : (setCq s h n v).macHash = s.macHash := rfl
@[simp] theorem setCq_ethBad (h : Half) (n : Nat) (v : Cq) : (setCq s h n v).ethBad = s.ethBad := rfl
@[simp] theorem setCq_ethPause (h : Half) (n : Nat) (v : Cq) : (setCq s h n v).ethPause = s.ethPause := rfl
@[simp] theorem setCq_ethTag (h : Half) (n : Nat) (v : Cq) : (setCq s h n v).ethTag = s.ethTag := rfl
@[simp] theorem setCq_feeds (h : Half) (n : Nat) (v : Cq) : (setCq s h n v).feeds = s.feeds := rfl
@[simp] theorem setCq_gauges (h : Half) (n : Nat) (v : Cq) : (setCq s h n v).gauges = s.gauges := rfl
@[simp] theorem setCq_cores (h : Half) (n : Nat) (v : Cq) : (setCq s h n v).cores = s.cores := rfl
@[simp] theorem setCq_sent (h : Half) (n : Nat) (v : Cq) : (setCq s h n v).sent = s.sent := rfl

/-! ### `setScb` -/

@[simp] theorem setScb_pending (h : Half) (v : Scb) : (setScb s h v).pending = s.pending := rfl
@[simp] theorem setScb_tick (h : Half) (v : Scb) : (setScb s h v).tick = s.tick := rfl
@[simp] theorem setScb_free (h : Half) (v : Scb) : (setScb s h v).free = s.free := rfl
@[simp] theorem setScb_power (h : Half) (v : Scb) : (setScb s h v).power = s.power := rfl
@[simp] theorem setScb_flash (h : Half) (v : Scb) : (setScb s h v).flash = s.flash := rfl
@[simp] theorem setScb_col (h : Half) (v : Scb) : (setScb s h v).col = s.col := rfl
@[simp] theorem setScb_drv (h : Half) (v : Scb) : (setScb s h v).drv = s.drv := rfl
@[simp] theorem setScb_frames (h : Half) (v : Scb) : (setScb s h v).frames = s.frames := rfl
@[simp] theorem setScb_regs (h : Half) (v : Scb) : (setScb s h v).regs = s.regs := rfl
@[simp] theorem setScb_act (h : Half) (v : Scb) : (setScb s h v).act = s.act := rfl
@[simp] theorem setScb_mem (h : Half) (v : Scb) : (setScb s h v).mem = s.mem := rfl
@[simp] theorem setScb_ecc (h : Half) (v : Scb) : (setScb s h v).ecc = s.ecc := rfl
@[simp] theorem setScb_res (h : Half) (v : Scb) : (setScb s h v).res = s.res := rfl
@[simp] theorem setScb_resEcc (h : Half) (v : Scb) : (setScb s h v).resEcc = s.resEcc := rfl
@[simp] theorem setScb_stale (h : Half) (v : Scb) : (setScb s h v).stale = s.stale := rfl
@[simp] theorem setScb_scrubPos (h : Half) (v : Scb) : (setScb s h v).scrubPos = s.scrubPos := rfl
@[simp] theorem setScb_bias (h : Half) (v : Scb) : (setScb s h v).bias = s.bias := rfl
@[simp] theorem setScb_xlt (h : Half) (v : Scb) : (setScb s h v).xlt = s.xlt := rfl
@[simp] theorem setScb_xltNodes (h : Half) (v : Scb) : (setScb s h v).xltNodes = s.xltNodes := rfl
@[simp] theorem setScb_invals (h : Half) (v : Scb) : (setScb s h v).invals = s.invals := rfl
@[simp] theorem setScb_cxl (h : Half) (v : Scb) : (setScb s h v).cxl = s.cxl := rfl
@[simp] theorem setScb_cxlUp (h : Half) (v : Scb) : (setScb s h v).cxlUp = s.cxlUp := rfl
@[simp] theorem setScb_cxlBytes (h : Half) (v : Scb) : (setScb s h v).cxlBytes = s.cxlBytes := rfl
@[simp] theorem setScb_scb (h : Half) (v : Scb) : (setScb s h v).scb = sset s.scb h.val v := rfl
@[simp] theorem setScb_queues (h : Half) (v : Scb) : (setScb s h v).queues = s.queues := rfl
@[simp] theorem setScb_cqs (h : Half) (v : Scb) : (setScb s h v).cqs = s.cqs := rfl
@[simp] theorem setScb_sems (h : Half) (v : Scb) : (setScb s h v).sems = s.sems := rfl
@[simp] theorem setScb_outs (h : Half) (v : Scb) : (setScb s h v).outs = s.outs := rfl
@[simp] theorem setScb_nextId (h : Half) (v : Scb) : (setScb s h v).nextId = s.nextId := rfl
@[simp] theorem setScb_reported (h : Half) (v : Scb) : (setScb s h v).reported = s.reported := rfl
@[simp] theorem setScb_sigs (h : Half) (v : Scb) : (setScb s h v).sigs = s.sigs := rfl
@[simp] theorem setScb_inks (h : Half) (v : Scb) : (setScb s h v).inks = s.inks := rfl
@[simp] theorem setScb_mcast (h : Half) (v : Scb) : (setScb s h v).mcast = s.mcast := rfl
@[simp] theorem setScb_duct (h : Half) (v : Scb) : (setScb s h v).duct = s.duct := rfl
@[simp] theorem setScb_nibs (h : Half) (v : Scb) : (setScb s h v).nibs = s.nibs := rfl
@[simp] theorem setScb_qdma (h : Half) (v : Scb) : (setScb s h v).qdma = s.qdma := rfl
@[simp] theorem setScb_mail (h : Half) (v : Scb) : (setScb s h v).mail = s.mail := rfl
@[simp] theorem setScb_dmas (h : Half) (v : Scb) : (setScb s h v).dmas = s.dmas := rfl
@[simp] theorem setScb_dmaTurn (h : Half) (v : Scb) : (setScb s h v).dmaTurn = s.dmaTurn := rfl
@[simp] theorem setScb_links (h : Half) (v : Scb) : (setScb s h v).links = s.links := rfl
@[simp] theorem setScb_blt (h : Half) (v : Scb) : (setScb s h v).blt = s.blt := rfl
@[simp] theorem setScb_upds (h : Half) (v : Scb) : (setScb s h v).upds = s.upds := rfl
@[simp] theorem setScb_updOrder (h : Half) (v : Scb) : (setScb s h v).updOrder = s.updOrder := rfl
@[simp] theorem setScb_pins (h : Half) (v : Scb) : (setScb s h v).pins = s.pins := rfl
@[simp] theorem setScb_bltWaits (h : Half) (v : Scb) : (setScb s h v).bltWaits = s.bltWaits := rfl
@[simp] theorem setScb_ruls (h : Half) (v : Scb) : (setScb s h v).ruls = s.ruls := rfl
@[simp] theorem setScb_badval (h : Half) (v : Scb) : (setScb s h v).badval = s.badval := rfl
@[simp] theorem setScb_probeDone (h : Half) (v : Scb) : (setScb s h v).probeDone = s.probeDone := rfl
@[simp] theorem setScb_srp (h : Half) (v : Scb) : (setScb s h v).srp = s.srp := rfl
@[simp] theorem setScb_tags (h : Half) (v : Scb) : (setScb s h v).tags = s.tags := rfl
@[simp] theorem setScb_srpEarly (h : Half) (v : Scb) : (setScb s h v).srpEarly = s.srpEarly := rfl
@[simp] theorem setScb_coh (h : Half) (v : Scb) : (setScb s h v).coh = s.coh := rfl
@[simp] theorem setScb_ports (h : Half) (v : Scb) : (setScb s h v).ports = s.ports := rfl
@[simp] theorem setScb_ctxs (h : Half) (v : Scb) : (setScb s h v).ctxs = s.ctxs := rfl
@[simp] theorem setScb_routes (h : Half) (v : Scb) : (setScb s h v).routes = s.routes := rfl
@[simp] theorem setScb_routesSh (h : Half) (v : Scb) : (setScb s h v).routesSh = s.routesSh := rfl
@[simp] theorem setScb_rings (h : Half) (v : Scb) : (setScb s h v).rings = s.rings := rfl
@[simp] theorem setScb_flows (h : Half) (v : Scb) : (setScb s h v).flows = s.flows := rfl
@[simp] theorem setScb_macUni (h : Half) (v : Scb) : (setScb s h v).macUni = s.macUni := rfl
@[simp] theorem setScb_macHash (h : Half) (v : Scb) : (setScb s h v).macHash = s.macHash := rfl
@[simp] theorem setScb_ethBad (h : Half) (v : Scb) : (setScb s h v).ethBad = s.ethBad := rfl
@[simp] theorem setScb_ethPause (h : Half) (v : Scb) : (setScb s h v).ethPause = s.ethPause := rfl
@[simp] theorem setScb_ethTag (h : Half) (v : Scb) : (setScb s h v).ethTag = s.ethTag := rfl
@[simp] theorem setScb_feeds (h : Half) (v : Scb) : (setScb s h v).feeds = s.feeds := rfl
@[simp] theorem setScb_gauges (h : Half) (v : Scb) : (setScb s h v).gauges = s.gauges := rfl
@[simp] theorem setScb_cores (h : Half) (v : Scb) : (setScb s h v).cores = s.cores := rfl
@[simp] theorem setScb_sent (h : Half) (v : Scb) : (setScb s h v).sent = s.sent := rfl

/-! ### `setNibAt` -/

@[simp] theorem setNibAt_pending (k : Nat) (v : Nib) : (setNibAt s k v).pending = s.pending := rfl
@[simp] theorem setNibAt_tick (k : Nat) (v : Nib) : (setNibAt s k v).tick = s.tick := rfl
@[simp] theorem setNibAt_free (k : Nat) (v : Nib) : (setNibAt s k v).free = s.free := rfl
@[simp] theorem setNibAt_power (k : Nat) (v : Nib) : (setNibAt s k v).power = s.power := rfl
@[simp] theorem setNibAt_flash (k : Nat) (v : Nib) : (setNibAt s k v).flash = s.flash := rfl
@[simp] theorem setNibAt_col (k : Nat) (v : Nib) : (setNibAt s k v).col = s.col := rfl
@[simp] theorem setNibAt_drv (k : Nat) (v : Nib) : (setNibAt s k v).drv = s.drv := rfl
@[simp] theorem setNibAt_frames (k : Nat) (v : Nib) : (setNibAt s k v).frames = s.frames := rfl
@[simp] theorem setNibAt_regs (k : Nat) (v : Nib) : (setNibAt s k v).regs = s.regs := rfl
@[simp] theorem setNibAt_act (k : Nat) (v : Nib) : (setNibAt s k v).act = s.act := rfl
@[simp] theorem setNibAt_mem (k : Nat) (v : Nib) : (setNibAt s k v).mem = s.mem := rfl
@[simp] theorem setNibAt_ecc (k : Nat) (v : Nib) : (setNibAt s k v).ecc = s.ecc := rfl
@[simp] theorem setNibAt_res (k : Nat) (v : Nib) : (setNibAt s k v).res = s.res := rfl
@[simp] theorem setNibAt_resEcc (k : Nat) (v : Nib) : (setNibAt s k v).resEcc = s.resEcc := rfl
@[simp] theorem setNibAt_stale (k : Nat) (v : Nib) : (setNibAt s k v).stale = s.stale := rfl
@[simp] theorem setNibAt_scrubPos (k : Nat) (v : Nib) : (setNibAt s k v).scrubPos = s.scrubPos := rfl
@[simp] theorem setNibAt_bias (k : Nat) (v : Nib) : (setNibAt s k v).bias = s.bias := rfl
@[simp] theorem setNibAt_xlt (k : Nat) (v : Nib) : (setNibAt s k v).xlt = s.xlt := rfl
@[simp] theorem setNibAt_xltNodes (k : Nat) (v : Nib) : (setNibAt s k v).xltNodes = s.xltNodes := rfl
@[simp] theorem setNibAt_invals (k : Nat) (v : Nib) : (setNibAt s k v).invals = s.invals := rfl
@[simp] theorem setNibAt_cxl (k : Nat) (v : Nib) : (setNibAt s k v).cxl = s.cxl := rfl
@[simp] theorem setNibAt_cxlUp (k : Nat) (v : Nib) : (setNibAt s k v).cxlUp = s.cxlUp := rfl
@[simp] theorem setNibAt_cxlBytes (k : Nat) (v : Nib) : (setNibAt s k v).cxlBytes = s.cxlBytes := rfl
@[simp] theorem setNibAt_scb (k : Nat) (v : Nib) : (setNibAt s k v).scb = s.scb := rfl
@[simp] theorem setNibAt_queues (k : Nat) (v : Nib) : (setNibAt s k v).queues = s.queues := rfl
@[simp] theorem setNibAt_cqs (k : Nat) (v : Nib) : (setNibAt s k v).cqs = s.cqs := rfl
@[simp] theorem setNibAt_sems (k : Nat) (v : Nib) : (setNibAt s k v).sems = s.sems := rfl
@[simp] theorem setNibAt_outs (k : Nat) (v : Nib) : (setNibAt s k v).outs = s.outs := rfl
@[simp] theorem setNibAt_nextId (k : Nat) (v : Nib) : (setNibAt s k v).nextId = s.nextId := rfl
@[simp] theorem setNibAt_reported (k : Nat) (v : Nib) : (setNibAt s k v).reported = s.reported := rfl
@[simp] theorem setNibAt_sigs (k : Nat) (v : Nib) : (setNibAt s k v).sigs = s.sigs := rfl
@[simp] theorem setNibAt_inks (k : Nat) (v : Nib) : (setNibAt s k v).inks = s.inks := rfl
@[simp] theorem setNibAt_mcast (k : Nat) (v : Nib) : (setNibAt s k v).mcast = s.mcast := rfl
@[simp] theorem setNibAt_duct (k : Nat) (v : Nib) : (setNibAt s k v).duct = s.duct := rfl
@[simp] theorem setNibAt_nibs (k : Nat) (v : Nib) : (setNibAt s k v).nibs = sset s.nibs k v := rfl
@[simp] theorem setNibAt_qdma (k : Nat) (v : Nib) : (setNibAt s k v).qdma = s.qdma := rfl
@[simp] theorem setNibAt_mail (k : Nat) (v : Nib) : (setNibAt s k v).mail = s.mail := rfl
@[simp] theorem setNibAt_dmas (k : Nat) (v : Nib) : (setNibAt s k v).dmas = s.dmas := rfl
@[simp] theorem setNibAt_dmaTurn (k : Nat) (v : Nib) : (setNibAt s k v).dmaTurn = s.dmaTurn := rfl
@[simp] theorem setNibAt_links (k : Nat) (v : Nib) : (setNibAt s k v).links = s.links := rfl
@[simp] theorem setNibAt_blt (k : Nat) (v : Nib) : (setNibAt s k v).blt = s.blt := rfl
@[simp] theorem setNibAt_upds (k : Nat) (v : Nib) : (setNibAt s k v).upds = s.upds := rfl
@[simp] theorem setNibAt_updOrder (k : Nat) (v : Nib) : (setNibAt s k v).updOrder = s.updOrder := rfl
@[simp] theorem setNibAt_pins (k : Nat) (v : Nib) : (setNibAt s k v).pins = s.pins := rfl
@[simp] theorem setNibAt_bltWaits (k : Nat) (v : Nib) : (setNibAt s k v).bltWaits = s.bltWaits := rfl
@[simp] theorem setNibAt_ruls (k : Nat) (v : Nib) : (setNibAt s k v).ruls = s.ruls := rfl
@[simp] theorem setNibAt_badval (k : Nat) (v : Nib) : (setNibAt s k v).badval = s.badval := rfl
@[simp] theorem setNibAt_probeDone (k : Nat) (v : Nib) : (setNibAt s k v).probeDone = s.probeDone := rfl
@[simp] theorem setNibAt_srp (k : Nat) (v : Nib) : (setNibAt s k v).srp = s.srp := rfl
@[simp] theorem setNibAt_tags (k : Nat) (v : Nib) : (setNibAt s k v).tags = s.tags := rfl
@[simp] theorem setNibAt_srpEarly (k : Nat) (v : Nib) : (setNibAt s k v).srpEarly = s.srpEarly := rfl
@[simp] theorem setNibAt_coh (k : Nat) (v : Nib) : (setNibAt s k v).coh = s.coh := rfl
@[simp] theorem setNibAt_ports (k : Nat) (v : Nib) : (setNibAt s k v).ports = s.ports := rfl
@[simp] theorem setNibAt_ctxs (k : Nat) (v : Nib) : (setNibAt s k v).ctxs = s.ctxs := rfl
@[simp] theorem setNibAt_routes (k : Nat) (v : Nib) : (setNibAt s k v).routes = s.routes := rfl
@[simp] theorem setNibAt_routesSh (k : Nat) (v : Nib) : (setNibAt s k v).routesSh = s.routesSh := rfl
@[simp] theorem setNibAt_rings (k : Nat) (v : Nib) : (setNibAt s k v).rings = s.rings := rfl
@[simp] theorem setNibAt_flows (k : Nat) (v : Nib) : (setNibAt s k v).flows = s.flows := rfl
@[simp] theorem setNibAt_macUni (k : Nat) (v : Nib) : (setNibAt s k v).macUni = s.macUni := rfl
@[simp] theorem setNibAt_macHash (k : Nat) (v : Nib) : (setNibAt s k v).macHash = s.macHash := rfl
@[simp] theorem setNibAt_ethBad (k : Nat) (v : Nib) : (setNibAt s k v).ethBad = s.ethBad := rfl
@[simp] theorem setNibAt_ethPause (k : Nat) (v : Nib) : (setNibAt s k v).ethPause = s.ethPause := rfl
@[simp] theorem setNibAt_ethTag (k : Nat) (v : Nib) : (setNibAt s k v).ethTag = s.ethTag := rfl
@[simp] theorem setNibAt_feeds (k : Nat) (v : Nib) : (setNibAt s k v).feeds = s.feeds := rfl
@[simp] theorem setNibAt_gauges (k : Nat) (v : Nib) : (setNibAt s k v).gauges = s.gauges := rfl
@[simp] theorem setNibAt_cores (k : Nat) (v : Nib) : (setNibAt s k v).cores = s.cores := rfl
@[simp] theorem setNibAt_sent (k : Nat) (v : Nib) : (setNibAt s k v).sent = s.sent := rfl

/-! ### `setInk` -/

@[simp] theorem setInk_pending (q : QuireId) (v : Ink) : (setInk s q v).pending = s.pending := rfl
@[simp] theorem setInk_tick (q : QuireId) (v : Ink) : (setInk s q v).tick = s.tick := rfl
@[simp] theorem setInk_free (q : QuireId) (v : Ink) : (setInk s q v).free = s.free := rfl
@[simp] theorem setInk_power (q : QuireId) (v : Ink) : (setInk s q v).power = s.power := rfl
@[simp] theorem setInk_flash (q : QuireId) (v : Ink) : (setInk s q v).flash = s.flash := rfl
@[simp] theorem setInk_col (q : QuireId) (v : Ink) : (setInk s q v).col = s.col := rfl
@[simp] theorem setInk_drv (q : QuireId) (v : Ink) : (setInk s q v).drv = s.drv := rfl
@[simp] theorem setInk_frames (q : QuireId) (v : Ink) : (setInk s q v).frames = s.frames := rfl
@[simp] theorem setInk_regs (q : QuireId) (v : Ink) : (setInk s q v).regs = s.regs := rfl
@[simp] theorem setInk_act (q : QuireId) (v : Ink) : (setInk s q v).act = s.act := rfl
@[simp] theorem setInk_mem (q : QuireId) (v : Ink) : (setInk s q v).mem = s.mem := rfl
@[simp] theorem setInk_ecc (q : QuireId) (v : Ink) : (setInk s q v).ecc = s.ecc := rfl
@[simp] theorem setInk_res (q : QuireId) (v : Ink) : (setInk s q v).res = s.res := rfl
@[simp] theorem setInk_resEcc (q : QuireId) (v : Ink) : (setInk s q v).resEcc = s.resEcc := rfl
@[simp] theorem setInk_stale (q : QuireId) (v : Ink) : (setInk s q v).stale = s.stale := rfl
@[simp] theorem setInk_scrubPos (q : QuireId) (v : Ink) : (setInk s q v).scrubPos = s.scrubPos := rfl
@[simp] theorem setInk_bias (q : QuireId) (v : Ink) : (setInk s q v).bias = s.bias := rfl
@[simp] theorem setInk_xlt (q : QuireId) (v : Ink) : (setInk s q v).xlt = s.xlt := rfl
@[simp] theorem setInk_xltNodes (q : QuireId) (v : Ink) : (setInk s q v).xltNodes = s.xltNodes := rfl
@[simp] theorem setInk_invals (q : QuireId) (v : Ink) : (setInk s q v).invals = s.invals := rfl
@[simp] theorem setInk_cxl (q : QuireId) (v : Ink) : (setInk s q v).cxl = s.cxl := rfl
@[simp] theorem setInk_cxlUp (q : QuireId) (v : Ink) : (setInk s q v).cxlUp = s.cxlUp := rfl
@[simp] theorem setInk_cxlBytes (q : QuireId) (v : Ink) : (setInk s q v).cxlBytes = s.cxlBytes := rfl
@[simp] theorem setInk_scb (q : QuireId) (v : Ink) : (setInk s q v).scb = s.scb := rfl
@[simp] theorem setInk_queues (q : QuireId) (v : Ink) : (setInk s q v).queues = s.queues := rfl
@[simp] theorem setInk_cqs (q : QuireId) (v : Ink) : (setInk s q v).cqs = s.cqs := rfl
@[simp] theorem setInk_sems (q : QuireId) (v : Ink) : (setInk s q v).sems = s.sems := rfl
@[simp] theorem setInk_outs (q : QuireId) (v : Ink) : (setInk s q v).outs = s.outs := rfl
@[simp] theorem setInk_nextId (q : QuireId) (v : Ink) : (setInk s q v).nextId = s.nextId := rfl
@[simp] theorem setInk_reported (q : QuireId) (v : Ink) : (setInk s q v).reported = s.reported := rfl
@[simp] theorem setInk_sigs (q : QuireId) (v : Ink) : (setInk s q v).sigs = s.sigs := rfl
@[simp] theorem setInk_inks (q : QuireId) (v : Ink) : (setInk s q v).inks = sset s.inks q.num v := rfl
@[simp] theorem setInk_mcast (q : QuireId) (v : Ink) : (setInk s q v).mcast = s.mcast := rfl
@[simp] theorem setInk_duct (q : QuireId) (v : Ink) : (setInk s q v).duct = s.duct := rfl
@[simp] theorem setInk_nibs (q : QuireId) (v : Ink) : (setInk s q v).nibs = s.nibs := rfl
@[simp] theorem setInk_qdma (q : QuireId) (v : Ink) : (setInk s q v).qdma = s.qdma := rfl
@[simp] theorem setInk_mail (q : QuireId) (v : Ink) : (setInk s q v).mail = s.mail := rfl
@[simp] theorem setInk_dmas (q : QuireId) (v : Ink) : (setInk s q v).dmas = s.dmas := rfl
@[simp] theorem setInk_dmaTurn (q : QuireId) (v : Ink) : (setInk s q v).dmaTurn = s.dmaTurn := rfl
@[simp] theorem setInk_links (q : QuireId) (v : Ink) : (setInk s q v).links = s.links := rfl
@[simp] theorem setInk_blt (q : QuireId) (v : Ink) : (setInk s q v).blt = s.blt := rfl
@[simp] theorem setInk_upds (q : QuireId) (v : Ink) : (setInk s q v).upds = s.upds := rfl
@[simp] theorem setInk_updOrder (q : QuireId) (v : Ink) : (setInk s q v).updOrder = s.updOrder := rfl
@[simp] theorem setInk_pins (q : QuireId) (v : Ink) : (setInk s q v).pins = s.pins := rfl
@[simp] theorem setInk_bltWaits (q : QuireId) (v : Ink) : (setInk s q v).bltWaits = s.bltWaits := rfl
@[simp] theorem setInk_ruls (q : QuireId) (v : Ink) : (setInk s q v).ruls = s.ruls := rfl
@[simp] theorem setInk_badval (q : QuireId) (v : Ink) : (setInk s q v).badval = s.badval := rfl
@[simp] theorem setInk_probeDone (q : QuireId) (v : Ink) : (setInk s q v).probeDone = s.probeDone := rfl
@[simp] theorem setInk_srp (q : QuireId) (v : Ink) : (setInk s q v).srp = s.srp := rfl
@[simp] theorem setInk_tags (q : QuireId) (v : Ink) : (setInk s q v).tags = s.tags := rfl
@[simp] theorem setInk_srpEarly (q : QuireId) (v : Ink) : (setInk s q v).srpEarly = s.srpEarly := rfl
@[simp] theorem setInk_coh (q : QuireId) (v : Ink) : (setInk s q v).coh = s.coh := rfl
@[simp] theorem setInk_ports (q : QuireId) (v : Ink) : (setInk s q v).ports = s.ports := rfl
@[simp] theorem setInk_ctxs (q : QuireId) (v : Ink) : (setInk s q v).ctxs = s.ctxs := rfl
@[simp] theorem setInk_routes (q : QuireId) (v : Ink) : (setInk s q v).routes = s.routes := rfl
@[simp] theorem setInk_routesSh (q : QuireId) (v : Ink) : (setInk s q v).routesSh = s.routesSh := rfl
@[simp] theorem setInk_rings (q : QuireId) (v : Ink) : (setInk s q v).rings = s.rings := rfl
@[simp] theorem setInk_flows (q : QuireId) (v : Ink) : (setInk s q v).flows = s.flows := rfl
@[simp] theorem setInk_macUni (q : QuireId) (v : Ink) : (setInk s q v).macUni = s.macUni := rfl
@[simp] theorem setInk_macHash (q : QuireId) (v : Ink) : (setInk s q v).macHash = s.macHash := rfl
@[simp] theorem setInk_ethBad (q : QuireId) (v : Ink) : (setInk s q v).ethBad = s.ethBad := rfl
@[simp] theorem setInk_ethPause (q : QuireId) (v : Ink) : (setInk s q v).ethPause = s.ethPause := rfl
@[simp] theorem setInk_ethTag (q : QuireId) (v : Ink) : (setInk s q v).ethTag = s.ethTag := rfl
@[simp] theorem setInk_feeds (q : QuireId) (v : Ink) : (setInk s q v).feeds = s.feeds := rfl
@[simp] theorem setInk_gauges (q : QuireId) (v : Ink) : (setInk s q v).gauges = s.gauges := rfl
@[simp] theorem setInk_cores (q : QuireId) (v : Ink) : (setInk s q v).cores = s.cores := rfl
@[simp] theorem setInk_sent (q : QuireId) (v : Ink) : (setInk s q v).sent = s.sent := rfl

/-! ### `setDma` -/

@[simp] theorem setDma_pending (d : DmaId) (v : Dma) : (setDma s d v).pending = s.pending := rfl
@[simp] theorem setDma_tick (d : DmaId) (v : Dma) : (setDma s d v).tick = s.tick := rfl
@[simp] theorem setDma_free (d : DmaId) (v : Dma) : (setDma s d v).free = s.free := rfl
@[simp] theorem setDma_power (d : DmaId) (v : Dma) : (setDma s d v).power = s.power := rfl
@[simp] theorem setDma_flash (d : DmaId) (v : Dma) : (setDma s d v).flash = s.flash := rfl
@[simp] theorem setDma_col (d : DmaId) (v : Dma) : (setDma s d v).col = s.col := rfl
@[simp] theorem setDma_drv (d : DmaId) (v : Dma) : (setDma s d v).drv = s.drv := rfl
@[simp] theorem setDma_frames (d : DmaId) (v : Dma) : (setDma s d v).frames = s.frames := rfl
@[simp] theorem setDma_regs (d : DmaId) (v : Dma) : (setDma s d v).regs = s.regs := rfl
@[simp] theorem setDma_act (d : DmaId) (v : Dma) : (setDma s d v).act = s.act := rfl
@[simp] theorem setDma_mem (d : DmaId) (v : Dma) : (setDma s d v).mem = s.mem := rfl
@[simp] theorem setDma_ecc (d : DmaId) (v : Dma) : (setDma s d v).ecc = s.ecc := rfl
@[simp] theorem setDma_res (d : DmaId) (v : Dma) : (setDma s d v).res = s.res := rfl
@[simp] theorem setDma_resEcc (d : DmaId) (v : Dma) : (setDma s d v).resEcc = s.resEcc := rfl
@[simp] theorem setDma_stale (d : DmaId) (v : Dma) : (setDma s d v).stale = s.stale := rfl
@[simp] theorem setDma_scrubPos (d : DmaId) (v : Dma) : (setDma s d v).scrubPos = s.scrubPos := rfl
@[simp] theorem setDma_bias (d : DmaId) (v : Dma) : (setDma s d v).bias = s.bias := rfl
@[simp] theorem setDma_xlt (d : DmaId) (v : Dma) : (setDma s d v).xlt = s.xlt := rfl
@[simp] theorem setDma_xltNodes (d : DmaId) (v : Dma) : (setDma s d v).xltNodes = s.xltNodes := rfl
@[simp] theorem setDma_invals (d : DmaId) (v : Dma) : (setDma s d v).invals = s.invals := rfl
@[simp] theorem setDma_cxl (d : DmaId) (v : Dma) : (setDma s d v).cxl = s.cxl := rfl
@[simp] theorem setDma_cxlUp (d : DmaId) (v : Dma) : (setDma s d v).cxlUp = s.cxlUp := rfl
@[simp] theorem setDma_cxlBytes (d : DmaId) (v : Dma) : (setDma s d v).cxlBytes = s.cxlBytes := rfl
@[simp] theorem setDma_scb (d : DmaId) (v : Dma) : (setDma s d v).scb = s.scb := rfl
@[simp] theorem setDma_queues (d : DmaId) (v : Dma) : (setDma s d v).queues = s.queues := rfl
@[simp] theorem setDma_cqs (d : DmaId) (v : Dma) : (setDma s d v).cqs = s.cqs := rfl
@[simp] theorem setDma_sems (d : DmaId) (v : Dma) : (setDma s d v).sems = s.sems := rfl
@[simp] theorem setDma_outs (d : DmaId) (v : Dma) : (setDma s d v).outs = s.outs := rfl
@[simp] theorem setDma_nextId (d : DmaId) (v : Dma) : (setDma s d v).nextId = s.nextId := rfl
@[simp] theorem setDma_reported (d : DmaId) (v : Dma) : (setDma s d v).reported = s.reported := rfl
@[simp] theorem setDma_sigs (d : DmaId) (v : Dma) : (setDma s d v).sigs = s.sigs := rfl
@[simp] theorem setDma_inks (d : DmaId) (v : Dma) : (setDma s d v).inks = s.inks := rfl
@[simp] theorem setDma_mcast (d : DmaId) (v : Dma) : (setDma s d v).mcast = s.mcast := rfl
@[simp] theorem setDma_duct (d : DmaId) (v : Dma) : (setDma s d v).duct = s.duct := rfl
@[simp] theorem setDma_nibs (d : DmaId) (v : Dma) : (setDma s d v).nibs = s.nibs := rfl
@[simp] theorem setDma_qdma (d : DmaId) (v : Dma) : (setDma s d v).qdma = s.qdma := rfl
@[simp] theorem setDma_mail (d : DmaId) (v : Dma) : (setDma s d v).mail = s.mail := rfl
@[simp] theorem setDma_dmas (d : DmaId) (v : Dma) : (setDma s d v).dmas = sset s.dmas d.num v := rfl
@[simp] theorem setDma_dmaTurn (d : DmaId) (v : Dma) : (setDma s d v).dmaTurn = s.dmaTurn := rfl
@[simp] theorem setDma_links (d : DmaId) (v : Dma) : (setDma s d v).links = s.links := rfl
@[simp] theorem setDma_blt (d : DmaId) (v : Dma) : (setDma s d v).blt = s.blt := rfl
@[simp] theorem setDma_upds (d : DmaId) (v : Dma) : (setDma s d v).upds = s.upds := rfl
@[simp] theorem setDma_updOrder (d : DmaId) (v : Dma) : (setDma s d v).updOrder = s.updOrder := rfl
@[simp] theorem setDma_pins (d : DmaId) (v : Dma) : (setDma s d v).pins = s.pins := rfl
@[simp] theorem setDma_bltWaits (d : DmaId) (v : Dma) : (setDma s d v).bltWaits = s.bltWaits := rfl
@[simp] theorem setDma_ruls (d : DmaId) (v : Dma) : (setDma s d v).ruls = s.ruls := rfl
@[simp] theorem setDma_badval (d : DmaId) (v : Dma) : (setDma s d v).badval = s.badval := rfl
@[simp] theorem setDma_probeDone (d : DmaId) (v : Dma) : (setDma s d v).probeDone = s.probeDone := rfl
@[simp] theorem setDma_srp (d : DmaId) (v : Dma) : (setDma s d v).srp = s.srp := rfl
@[simp] theorem setDma_tags (d : DmaId) (v : Dma) : (setDma s d v).tags = s.tags := rfl
@[simp] theorem setDma_srpEarly (d : DmaId) (v : Dma) : (setDma s d v).srpEarly = s.srpEarly := rfl
@[simp] theorem setDma_coh (d : DmaId) (v : Dma) : (setDma s d v).coh = s.coh := rfl
@[simp] theorem setDma_ports (d : DmaId) (v : Dma) : (setDma s d v).ports = s.ports := rfl
@[simp] theorem setDma_ctxs (d : DmaId) (v : Dma) : (setDma s d v).ctxs = s.ctxs := rfl
@[simp] theorem setDma_routes (d : DmaId) (v : Dma) : (setDma s d v).routes = s.routes := rfl
@[simp] theorem setDma_routesSh (d : DmaId) (v : Dma) : (setDma s d v).routesSh = s.routesSh := rfl
@[simp] theorem setDma_rings (d : DmaId) (v : Dma) : (setDma s d v).rings = s.rings := rfl
@[simp] theorem setDma_flows (d : DmaId) (v : Dma) : (setDma s d v).flows = s.flows := rfl
@[simp] theorem setDma_macUni (d : DmaId) (v : Dma) : (setDma s d v).macUni = s.macUni := rfl
@[simp] theorem setDma_macHash (d : DmaId) (v : Dma) : (setDma s d v).macHash = s.macHash := rfl
@[simp] theorem setDma_ethBad (d : DmaId) (v : Dma) : (setDma s d v).ethBad = s.ethBad := rfl
@[simp] theorem setDma_ethPause (d : DmaId) (v : Dma) : (setDma s d v).ethPause = s.ethPause := rfl
@[simp] theorem setDma_ethTag (d : DmaId) (v : Dma) : (setDma s d v).ethTag = s.ethTag := rfl
@[simp] theorem setDma_feeds (d : DmaId) (v : Dma) : (setDma s d v).feeds = s.feeds := rfl
@[simp] theorem setDma_gauges (d : DmaId) (v : Dma) : (setDma s d v).gauges = s.gauges := rfl
@[simp] theorem setDma_cores (d : DmaId) (v : Dma) : (setDma s d v).cores = s.cores := rfl
@[simp] theorem setDma_sent (d : DmaId) (v : Dma) : (setDma s d v).sent = s.sent := rfl

/-! ### `setFeed` -/

@[simp] theorem setFeed_pending (h : Half) (f : Feed) : (setFeed s h f).pending = s.pending := rfl
@[simp] theorem setFeed_tick (h : Half) (f : Feed) : (setFeed s h f).tick = s.tick := rfl
@[simp] theorem setFeed_free (h : Half) (f : Feed) : (setFeed s h f).free = s.free := rfl
@[simp] theorem setFeed_power (h : Half) (f : Feed) : (setFeed s h f).power = s.power := rfl
@[simp] theorem setFeed_flash (h : Half) (f : Feed) : (setFeed s h f).flash = s.flash := rfl
@[simp] theorem setFeed_col (h : Half) (f : Feed) : (setFeed s h f).col = s.col := rfl
@[simp] theorem setFeed_drv (h : Half) (f : Feed) : (setFeed s h f).drv = s.drv := rfl
@[simp] theorem setFeed_frames (h : Half) (f : Feed) : (setFeed s h f).frames = s.frames := rfl
@[simp] theorem setFeed_regs (h : Half) (f : Feed) : (setFeed s h f).regs = s.regs := rfl
@[simp] theorem setFeed_act (h : Half) (f : Feed) : (setFeed s h f).act = s.act := rfl
@[simp] theorem setFeed_mem (h : Half) (f : Feed) : (setFeed s h f).mem = s.mem := rfl
@[simp] theorem setFeed_ecc (h : Half) (f : Feed) : (setFeed s h f).ecc = s.ecc := rfl
@[simp] theorem setFeed_res (h : Half) (f : Feed) : (setFeed s h f).res = s.res := rfl
@[simp] theorem setFeed_resEcc (h : Half) (f : Feed) : (setFeed s h f).resEcc = s.resEcc := rfl
@[simp] theorem setFeed_stale (h : Half) (f : Feed) : (setFeed s h f).stale = s.stale := rfl
@[simp] theorem setFeed_scrubPos (h : Half) (f : Feed) : (setFeed s h f).scrubPos = s.scrubPos := rfl
@[simp] theorem setFeed_bias (h : Half) (f : Feed) : (setFeed s h f).bias = s.bias := rfl
@[simp] theorem setFeed_xlt (h : Half) (f : Feed) : (setFeed s h f).xlt = s.xlt := rfl
@[simp] theorem setFeed_xltNodes (h : Half) (f : Feed) : (setFeed s h f).xltNodes = s.xltNodes := rfl
@[simp] theorem setFeed_invals (h : Half) (f : Feed) : (setFeed s h f).invals = s.invals := rfl
@[simp] theorem setFeed_cxl (h : Half) (f : Feed) : (setFeed s h f).cxl = s.cxl := rfl
@[simp] theorem setFeed_cxlUp (h : Half) (f : Feed) : (setFeed s h f).cxlUp = s.cxlUp := rfl
@[simp] theorem setFeed_cxlBytes (h : Half) (f : Feed) : (setFeed s h f).cxlBytes = s.cxlBytes := rfl
@[simp] theorem setFeed_scb (h : Half) (f : Feed) : (setFeed s h f).scb = s.scb := rfl
@[simp] theorem setFeed_queues (h : Half) (f : Feed) : (setFeed s h f).queues = s.queues := rfl
@[simp] theorem setFeed_cqs (h : Half) (f : Feed) : (setFeed s h f).cqs = s.cqs := rfl
@[simp] theorem setFeed_sems (h : Half) (f : Feed) : (setFeed s h f).sems = s.sems := rfl
@[simp] theorem setFeed_outs (h : Half) (f : Feed) : (setFeed s h f).outs = s.outs := rfl
@[simp] theorem setFeed_nextId (h : Half) (f : Feed) : (setFeed s h f).nextId = s.nextId := rfl
@[simp] theorem setFeed_reported (h : Half) (f : Feed) : (setFeed s h f).reported = s.reported := rfl
@[simp] theorem setFeed_sigs (h : Half) (f : Feed) : (setFeed s h f).sigs = s.sigs := rfl
@[simp] theorem setFeed_inks (h : Half) (f : Feed) : (setFeed s h f).inks = s.inks := rfl
@[simp] theorem setFeed_mcast (h : Half) (f : Feed) : (setFeed s h f).mcast = s.mcast := rfl
@[simp] theorem setFeed_duct (h : Half) (f : Feed) : (setFeed s h f).duct = s.duct := rfl
@[simp] theorem setFeed_nibs (h : Half) (f : Feed) : (setFeed s h f).nibs = s.nibs := rfl
@[simp] theorem setFeed_qdma (h : Half) (f : Feed) : (setFeed s h f).qdma = s.qdma := rfl
@[simp] theorem setFeed_mail (h : Half) (f : Feed) : (setFeed s h f).mail = s.mail := rfl
@[simp] theorem setFeed_dmas (h : Half) (f : Feed) : (setFeed s h f).dmas = s.dmas := rfl
@[simp] theorem setFeed_dmaTurn (h : Half) (f : Feed) : (setFeed s h f).dmaTurn = s.dmaTurn := rfl
@[simp] theorem setFeed_links (h : Half) (f : Feed) : (setFeed s h f).links = s.links := rfl
@[simp] theorem setFeed_blt (h : Half) (f : Feed) : (setFeed s h f).blt = s.blt := rfl
@[simp] theorem setFeed_upds (h : Half) (f : Feed) : (setFeed s h f).upds = s.upds := rfl
@[simp] theorem setFeed_updOrder (h : Half) (f : Feed) : (setFeed s h f).updOrder = s.updOrder := rfl
@[simp] theorem setFeed_pins (h : Half) (f : Feed) : (setFeed s h f).pins = s.pins := rfl
@[simp] theorem setFeed_bltWaits (h : Half) (f : Feed) : (setFeed s h f).bltWaits = s.bltWaits := rfl
@[simp] theorem setFeed_ruls (h : Half) (f : Feed) : (setFeed s h f).ruls = s.ruls := rfl
@[simp] theorem setFeed_badval (h : Half) (f : Feed) : (setFeed s h f).badval = s.badval := rfl
@[simp] theorem setFeed_probeDone (h : Half) (f : Feed) : (setFeed s h f).probeDone = s.probeDone := rfl
@[simp] theorem setFeed_srp (h : Half) (f : Feed) : (setFeed s h f).srp = s.srp := rfl
@[simp] theorem setFeed_tags (h : Half) (f : Feed) : (setFeed s h f).tags = s.tags := rfl
@[simp] theorem setFeed_srpEarly (h : Half) (f : Feed) : (setFeed s h f).srpEarly = s.srpEarly := rfl
@[simp] theorem setFeed_coh (h : Half) (f : Feed) : (setFeed s h f).coh = s.coh := rfl
@[simp] theorem setFeed_ports (h : Half) (f : Feed) : (setFeed s h f).ports = s.ports := rfl
@[simp] theorem setFeed_ctxs (h : Half) (f : Feed) : (setFeed s h f).ctxs = s.ctxs := rfl
@[simp] theorem setFeed_routes (h : Half) (f : Feed) : (setFeed s h f).routes = s.routes := rfl
@[simp] theorem setFeed_routesSh (h : Half) (f : Feed) : (setFeed s h f).routesSh = s.routesSh := rfl
@[simp] theorem setFeed_rings (h : Half) (f : Feed) : (setFeed s h f).rings = s.rings := rfl
@[simp] theorem setFeed_flows (h : Half) (f : Feed) : (setFeed s h f).flows = s.flows := rfl
@[simp] theorem setFeed_macUni (h : Half) (f : Feed) : (setFeed s h f).macUni = s.macUni := rfl
@[simp] theorem setFeed_macHash (h : Half) (f : Feed) : (setFeed s h f).macHash = s.macHash := rfl
@[simp] theorem setFeed_ethBad (h : Half) (f : Feed) : (setFeed s h f).ethBad = s.ethBad := rfl
@[simp] theorem setFeed_ethPause (h : Half) (f : Feed) : (setFeed s h f).ethPause = s.ethPause := rfl
@[simp] theorem setFeed_ethTag (h : Half) (f : Feed) : (setFeed s h f).ethTag = s.ethTag := rfl
@[simp] theorem setFeed_feeds (h : Half) (f : Feed) : (setFeed s h f).feeds = sset s.feeds h.val f := rfl
@[simp] theorem setFeed_gauges (h : Half) (f : Feed) : (setFeed s h f).gauges = s.gauges := rfl
@[simp] theorem setFeed_cores (h : Half) (f : Feed) : (setFeed s h f).cores = s.cores := rfl
@[simp] theorem setFeed_sent (h : Half) (f : Feed) : (setFeed s h f).sent = s.sent := rfl

/-! ### `setLink` -/

@[simp] theorem setLink_pending (e : LinkEnd) (l : Link) : (setLink s e l).pending = s.pending := rfl
@[simp] theorem setLink_tick (e : LinkEnd) (l : Link) : (setLink s e l).tick = s.tick := rfl
@[simp] theorem setLink_free (e : LinkEnd) (l : Link) : (setLink s e l).free = s.free := rfl
@[simp] theorem setLink_power (e : LinkEnd) (l : Link) : (setLink s e l).power = s.power := rfl
@[simp] theorem setLink_flash (e : LinkEnd) (l : Link) : (setLink s e l).flash = s.flash := rfl
@[simp] theorem setLink_col (e : LinkEnd) (l : Link) : (setLink s e l).col = s.col := rfl
@[simp] theorem setLink_drv (e : LinkEnd) (l : Link) : (setLink s e l).drv = s.drv := rfl
@[simp] theorem setLink_frames (e : LinkEnd) (l : Link) : (setLink s e l).frames = s.frames := rfl
@[simp] theorem setLink_regs (e : LinkEnd) (l : Link) : (setLink s e l).regs = s.regs := rfl
@[simp] theorem setLink_act (e : LinkEnd) (l : Link) : (setLink s e l).act = s.act := rfl
@[simp] theorem setLink_mem (e : LinkEnd) (l : Link) : (setLink s e l).mem = s.mem := rfl
@[simp] theorem setLink_ecc (e : LinkEnd) (l : Link) : (setLink s e l).ecc = s.ecc := rfl
@[simp] theorem setLink_res (e : LinkEnd) (l : Link) : (setLink s e l).res = s.res := rfl
@[simp] theorem setLink_resEcc (e : LinkEnd) (l : Link) : (setLink s e l).resEcc = s.resEcc := rfl
@[simp] theorem setLink_stale (e : LinkEnd) (l : Link) : (setLink s e l).stale = s.stale := rfl
@[simp] theorem setLink_scrubPos (e : LinkEnd) (l : Link) : (setLink s e l).scrubPos = s.scrubPos := rfl
@[simp] theorem setLink_bias (e : LinkEnd) (l : Link) : (setLink s e l).bias = s.bias := rfl
@[simp] theorem setLink_xlt (e : LinkEnd) (l : Link) : (setLink s e l).xlt = s.xlt := rfl
@[simp] theorem setLink_xltNodes (e : LinkEnd) (l : Link) : (setLink s e l).xltNodes = s.xltNodes := rfl
@[simp] theorem setLink_invals (e : LinkEnd) (l : Link) : (setLink s e l).invals = s.invals := rfl
@[simp] theorem setLink_cxl (e : LinkEnd) (l : Link) : (setLink s e l).cxl = s.cxl := rfl
@[simp] theorem setLink_cxlUp (e : LinkEnd) (l : Link) : (setLink s e l).cxlUp = s.cxlUp := rfl
@[simp] theorem setLink_cxlBytes (e : LinkEnd) (l : Link) : (setLink s e l).cxlBytes = s.cxlBytes := rfl
@[simp] theorem setLink_scb (e : LinkEnd) (l : Link) : (setLink s e l).scb = s.scb := rfl
@[simp] theorem setLink_queues (e : LinkEnd) (l : Link) : (setLink s e l).queues = s.queues := rfl
@[simp] theorem setLink_cqs (e : LinkEnd) (l : Link) : (setLink s e l).cqs = s.cqs := rfl
@[simp] theorem setLink_sems (e : LinkEnd) (l : Link) : (setLink s e l).sems = s.sems := rfl
@[simp] theorem setLink_outs (e : LinkEnd) (l : Link) : (setLink s e l).outs = s.outs := rfl
@[simp] theorem setLink_nextId (e : LinkEnd) (l : Link) : (setLink s e l).nextId = s.nextId := rfl
@[simp] theorem setLink_reported (e : LinkEnd) (l : Link) : (setLink s e l).reported = s.reported := rfl
@[simp] theorem setLink_sigs (e : LinkEnd) (l : Link) : (setLink s e l).sigs = s.sigs := rfl
@[simp] theorem setLink_inks (e : LinkEnd) (l : Link) : (setLink s e l).inks = s.inks := rfl
@[simp] theorem setLink_mcast (e : LinkEnd) (l : Link) : (setLink s e l).mcast = s.mcast := rfl
@[simp] theorem setLink_duct (e : LinkEnd) (l : Link) : (setLink s e l).duct = s.duct := rfl
@[simp] theorem setLink_nibs (e : LinkEnd) (l : Link) : (setLink s e l).nibs = s.nibs := rfl
@[simp] theorem setLink_qdma (e : LinkEnd) (l : Link) : (setLink s e l).qdma = s.qdma := rfl
@[simp] theorem setLink_mail (e : LinkEnd) (l : Link) : (setLink s e l).mail = s.mail := rfl
@[simp] theorem setLink_dmas (e : LinkEnd) (l : Link) : (setLink s e l).dmas = s.dmas := rfl
@[simp] theorem setLink_dmaTurn (e : LinkEnd) (l : Link) : (setLink s e l).dmaTurn = s.dmaTurn := rfl
@[simp] theorem setLink_links (e : LinkEnd) (l : Link) : (setLink s e l).links = sset s.links (linkIdx e) l := rfl
@[simp] theorem setLink_blt (e : LinkEnd) (l : Link) : (setLink s e l).blt = s.blt := rfl
@[simp] theorem setLink_upds (e : LinkEnd) (l : Link) : (setLink s e l).upds = s.upds := rfl
@[simp] theorem setLink_updOrder (e : LinkEnd) (l : Link) : (setLink s e l).updOrder = s.updOrder := rfl
@[simp] theorem setLink_pins (e : LinkEnd) (l : Link) : (setLink s e l).pins = s.pins := rfl
@[simp] theorem setLink_bltWaits (e : LinkEnd) (l : Link) : (setLink s e l).bltWaits = s.bltWaits := rfl
@[simp] theorem setLink_ruls (e : LinkEnd) (l : Link) : (setLink s e l).ruls = s.ruls := rfl
@[simp] theorem setLink_badval (e : LinkEnd) (l : Link) : (setLink s e l).badval = s.badval := rfl
@[simp] theorem setLink_probeDone (e : LinkEnd) (l : Link) : (setLink s e l).probeDone = s.probeDone := rfl
@[simp] theorem setLink_srp (e : LinkEnd) (l : Link) : (setLink s e l).srp = s.srp := rfl
@[simp] theorem setLink_tags (e : LinkEnd) (l : Link) : (setLink s e l).tags = s.tags := rfl
@[simp] theorem setLink_srpEarly (e : LinkEnd) (l : Link) : (setLink s e l).srpEarly = s.srpEarly := rfl
@[simp] theorem setLink_coh (e : LinkEnd) (l : Link) : (setLink s e l).coh = s.coh := rfl
@[simp] theorem setLink_ports (e : LinkEnd) (l : Link) : (setLink s e l).ports = s.ports := rfl
@[simp] theorem setLink_ctxs (e : LinkEnd) (l : Link) : (setLink s e l).ctxs = s.ctxs := rfl
@[simp] theorem setLink_routes (e : LinkEnd) (l : Link) : (setLink s e l).routes = s.routes := rfl
@[simp] theorem setLink_routesSh (e : LinkEnd) (l : Link) : (setLink s e l).routesSh = s.routesSh := rfl
@[simp] theorem setLink_rings (e : LinkEnd) (l : Link) : (setLink s e l).rings = s.rings := rfl
@[simp] theorem setLink_flows (e : LinkEnd) (l : Link) : (setLink s e l).flows = s.flows := rfl
@[simp] theorem setLink_macUni (e : LinkEnd) (l : Link) : (setLink s e l).macUni = s.macUni := rfl
@[simp] theorem setLink_macHash (e : LinkEnd) (l : Link) : (setLink s e l).macHash = s.macHash := rfl
@[simp] theorem setLink_ethBad (e : LinkEnd) (l : Link) : (setLink s e l).ethBad = s.ethBad := rfl
@[simp] theorem setLink_ethPause (e : LinkEnd) (l : Link) : (setLink s e l).ethPause = s.ethPause := rfl
@[simp] theorem setLink_ethTag (e : LinkEnd) (l : Link) : (setLink s e l).ethTag = s.ethTag := rfl
@[simp] theorem setLink_feeds (e : LinkEnd) (l : Link) : (setLink s e l).feeds = s.feeds := rfl
@[simp] theorem setLink_gauges (e : LinkEnd) (l : Link) : (setLink s e l).gauges = s.gauges := rfl
@[simp] theorem setLink_cores (e : LinkEnd) (l : Link) : (setLink s e l).cores = s.cores := rfl
@[simp] theorem setLink_sent (e : LinkEnd) (l : Link) : (setLink s e l).sent = s.sent := rfl

/-! ### `setPort` -/

@[simp] theorem setPort_pending (p : Nat) (v : Port) : (setPort s p v).pending = s.pending := rfl
@[simp] theorem setPort_tick (p : Nat) (v : Port) : (setPort s p v).tick = s.tick := rfl
@[simp] theorem setPort_free (p : Nat) (v : Port) : (setPort s p v).free = s.free := rfl
@[simp] theorem setPort_power (p : Nat) (v : Port) : (setPort s p v).power = s.power := rfl
@[simp] theorem setPort_flash (p : Nat) (v : Port) : (setPort s p v).flash = s.flash := rfl
@[simp] theorem setPort_col (p : Nat) (v : Port) : (setPort s p v).col = s.col := rfl
@[simp] theorem setPort_drv (p : Nat) (v : Port) : (setPort s p v).drv = s.drv := rfl
@[simp] theorem setPort_frames (p : Nat) (v : Port) : (setPort s p v).frames = s.frames := rfl
@[simp] theorem setPort_regs (p : Nat) (v : Port) : (setPort s p v).regs = s.regs := rfl
@[simp] theorem setPort_act (p : Nat) (v : Port) : (setPort s p v).act = s.act := rfl
@[simp] theorem setPort_mem (p : Nat) (v : Port) : (setPort s p v).mem = s.mem := rfl
@[simp] theorem setPort_ecc (p : Nat) (v : Port) : (setPort s p v).ecc = s.ecc := rfl
@[simp] theorem setPort_res (p : Nat) (v : Port) : (setPort s p v).res = s.res := rfl
@[simp] theorem setPort_resEcc (p : Nat) (v : Port) : (setPort s p v).resEcc = s.resEcc := rfl
@[simp] theorem setPort_stale (p : Nat) (v : Port) : (setPort s p v).stale = s.stale := rfl
@[simp] theorem setPort_scrubPos (p : Nat) (v : Port) : (setPort s p v).scrubPos = s.scrubPos := rfl
@[simp] theorem setPort_bias (p : Nat) (v : Port) : (setPort s p v).bias = s.bias := rfl
@[simp] theorem setPort_xlt (p : Nat) (v : Port) : (setPort s p v).xlt = s.xlt := rfl
@[simp] theorem setPort_xltNodes (p : Nat) (v : Port) : (setPort s p v).xltNodes = s.xltNodes := rfl
@[simp] theorem setPort_invals (p : Nat) (v : Port) : (setPort s p v).invals = s.invals := rfl
@[simp] theorem setPort_cxl (p : Nat) (v : Port) : (setPort s p v).cxl = s.cxl := rfl
@[simp] theorem setPort_cxlUp (p : Nat) (v : Port) : (setPort s p v).cxlUp = s.cxlUp := rfl
@[simp] theorem setPort_cxlBytes (p : Nat) (v : Port) : (setPort s p v).cxlBytes = s.cxlBytes := rfl
@[simp] theorem setPort_scb (p : Nat) (v : Port) : (setPort s p v).scb = s.scb := rfl
@[simp] theorem setPort_queues (p : Nat) (v : Port) : (setPort s p v).queues = s.queues := rfl
@[simp] theorem setPort_cqs (p : Nat) (v : Port) : (setPort s p v).cqs = s.cqs := rfl
@[simp] theorem setPort_sems (p : Nat) (v : Port) : (setPort s p v).sems = s.sems := rfl
@[simp] theorem setPort_outs (p : Nat) (v : Port) : (setPort s p v).outs = s.outs := rfl
@[simp] theorem setPort_nextId (p : Nat) (v : Port) : (setPort s p v).nextId = s.nextId := rfl
@[simp] theorem setPort_reported (p : Nat) (v : Port) : (setPort s p v).reported = s.reported := rfl
@[simp] theorem setPort_sigs (p : Nat) (v : Port) : (setPort s p v).sigs = s.sigs := rfl
@[simp] theorem setPort_inks (p : Nat) (v : Port) : (setPort s p v).inks = s.inks := rfl
@[simp] theorem setPort_mcast (p : Nat) (v : Port) : (setPort s p v).mcast = s.mcast := rfl
@[simp] theorem setPort_duct (p : Nat) (v : Port) : (setPort s p v).duct = s.duct := rfl
@[simp] theorem setPort_nibs (p : Nat) (v : Port) : (setPort s p v).nibs = s.nibs := rfl
@[simp] theorem setPort_qdma (p : Nat) (v : Port) : (setPort s p v).qdma = s.qdma := rfl
@[simp] theorem setPort_mail (p : Nat) (v : Port) : (setPort s p v).mail = s.mail := rfl
@[simp] theorem setPort_dmas (p : Nat) (v : Port) : (setPort s p v).dmas = s.dmas := rfl
@[simp] theorem setPort_dmaTurn (p : Nat) (v : Port) : (setPort s p v).dmaTurn = s.dmaTurn := rfl
@[simp] theorem setPort_links (p : Nat) (v : Port) : (setPort s p v).links = s.links := rfl
@[simp] theorem setPort_blt (p : Nat) (v : Port) : (setPort s p v).blt = s.blt := rfl
@[simp] theorem setPort_upds (p : Nat) (v : Port) : (setPort s p v).upds = s.upds := rfl
@[simp] theorem setPort_updOrder (p : Nat) (v : Port) : (setPort s p v).updOrder = s.updOrder := rfl
@[simp] theorem setPort_pins (p : Nat) (v : Port) : (setPort s p v).pins = s.pins := rfl
@[simp] theorem setPort_bltWaits (p : Nat) (v : Port) : (setPort s p v).bltWaits = s.bltWaits := rfl
@[simp] theorem setPort_ruls (p : Nat) (v : Port) : (setPort s p v).ruls = s.ruls := rfl
@[simp] theorem setPort_badval (p : Nat) (v : Port) : (setPort s p v).badval = s.badval := rfl
@[simp] theorem setPort_probeDone (p : Nat) (v : Port) : (setPort s p v).probeDone = s.probeDone := rfl
@[simp] theorem setPort_srp (p : Nat) (v : Port) : (setPort s p v).srp = s.srp := rfl
@[simp] theorem setPort_tags (p : Nat) (v : Port) : (setPort s p v).tags = s.tags := rfl
@[simp] theorem setPort_srpEarly (p : Nat) (v : Port) : (setPort s p v).srpEarly = s.srpEarly := rfl
@[simp] theorem setPort_coh (p : Nat) (v : Port) : (setPort s p v).coh = s.coh := rfl
@[simp] theorem setPort_ports (p : Nat) (v : Port) : (setPort s p v).ports = sset s.ports p v := rfl
@[simp] theorem setPort_ctxs (p : Nat) (v : Port) : (setPort s p v).ctxs = s.ctxs := rfl
@[simp] theorem setPort_routes (p : Nat) (v : Port) : (setPort s p v).routes = s.routes := rfl
@[simp] theorem setPort_routesSh (p : Nat) (v : Port) : (setPort s p v).routesSh = s.routesSh := rfl
@[simp] theorem setPort_rings (p : Nat) (v : Port) : (setPort s p v).rings = s.rings := rfl
@[simp] theorem setPort_flows (p : Nat) (v : Port) : (setPort s p v).flows = s.flows := rfl
@[simp] theorem setPort_macUni (p : Nat) (v : Port) : (setPort s p v).macUni = s.macUni := rfl
@[simp] theorem setPort_macHash (p : Nat) (v : Port) : (setPort s p v).macHash = s.macHash := rfl
@[simp] theorem setPort_ethBad (p : Nat) (v : Port) : (setPort s p v).ethBad = s.ethBad := rfl
@[simp] theorem setPort_ethPause (p : Nat) (v : Port) : (setPort s p v).ethPause = s.ethPause := rfl
@[simp] theorem setPort_ethTag (p : Nat) (v : Port) : (setPort s p v).ethTag = s.ethTag := rfl
@[simp] theorem setPort_feeds (p : Nat) (v : Port) : (setPort s p v).feeds = s.feeds := rfl
@[simp] theorem setPort_gauges (p : Nat) (v : Port) : (setPort s p v).gauges = s.gauges := rfl
@[simp] theorem setPort_cores (p : Nat) (v : Port) : (setPort s p v).cores = s.cores := rfl
@[simp] theorem setPort_sent (p : Nat) (v : Port) : (setPort s p v).sent = s.sent := rfl

/-! ### `setCtx` -/

@[simp] theorem setCtx_pending (key : Nat) (c : Ctx) : (setCtx s key c).pending = s.pending := rfl
@[simp] theorem setCtx_tick (key : Nat) (c : Ctx) : (setCtx s key c).tick = s.tick := rfl
@[simp] theorem setCtx_free (key : Nat) (c : Ctx) : (setCtx s key c).free = s.free := rfl
@[simp] theorem setCtx_power (key : Nat) (c : Ctx) : (setCtx s key c).power = s.power := rfl
@[simp] theorem setCtx_flash (key : Nat) (c : Ctx) : (setCtx s key c).flash = s.flash := rfl
@[simp] theorem setCtx_col (key : Nat) (c : Ctx) : (setCtx s key c).col = s.col := rfl
@[simp] theorem setCtx_drv (key : Nat) (c : Ctx) : (setCtx s key c).drv = s.drv := rfl
@[simp] theorem setCtx_frames (key : Nat) (c : Ctx) : (setCtx s key c).frames = s.frames := rfl
@[simp] theorem setCtx_regs (key : Nat) (c : Ctx) : (setCtx s key c).regs = s.regs := rfl
@[simp] theorem setCtx_act (key : Nat) (c : Ctx) : (setCtx s key c).act = s.act := rfl
@[simp] theorem setCtx_mem (key : Nat) (c : Ctx) : (setCtx s key c).mem = s.mem := rfl
@[simp] theorem setCtx_ecc (key : Nat) (c : Ctx) : (setCtx s key c).ecc = s.ecc := rfl
@[simp] theorem setCtx_res (key : Nat) (c : Ctx) : (setCtx s key c).res = s.res := rfl
@[simp] theorem setCtx_resEcc (key : Nat) (c : Ctx) : (setCtx s key c).resEcc = s.resEcc := rfl
@[simp] theorem setCtx_stale (key : Nat) (c : Ctx) : (setCtx s key c).stale = s.stale := rfl
@[simp] theorem setCtx_scrubPos (key : Nat) (c : Ctx) : (setCtx s key c).scrubPos = s.scrubPos := rfl
@[simp] theorem setCtx_bias (key : Nat) (c : Ctx) : (setCtx s key c).bias = s.bias := rfl
@[simp] theorem setCtx_xlt (key : Nat) (c : Ctx) : (setCtx s key c).xlt = s.xlt := rfl
@[simp] theorem setCtx_xltNodes (key : Nat) (c : Ctx) : (setCtx s key c).xltNodes = s.xltNodes := rfl
@[simp] theorem setCtx_invals (key : Nat) (c : Ctx) : (setCtx s key c).invals = s.invals := rfl
@[simp] theorem setCtx_cxl (key : Nat) (c : Ctx) : (setCtx s key c).cxl = s.cxl := rfl
@[simp] theorem setCtx_cxlUp (key : Nat) (c : Ctx) : (setCtx s key c).cxlUp = s.cxlUp := rfl
@[simp] theorem setCtx_cxlBytes (key : Nat) (c : Ctx) : (setCtx s key c).cxlBytes = s.cxlBytes := rfl
@[simp] theorem setCtx_scb (key : Nat) (c : Ctx) : (setCtx s key c).scb = s.scb := rfl
@[simp] theorem setCtx_queues (key : Nat) (c : Ctx) : (setCtx s key c).queues = s.queues := rfl
@[simp] theorem setCtx_cqs (key : Nat) (c : Ctx) : (setCtx s key c).cqs = s.cqs := rfl
@[simp] theorem setCtx_sems (key : Nat) (c : Ctx) : (setCtx s key c).sems = s.sems := rfl
@[simp] theorem setCtx_outs (key : Nat) (c : Ctx) : (setCtx s key c).outs = s.outs := rfl
@[simp] theorem setCtx_nextId (key : Nat) (c : Ctx) : (setCtx s key c).nextId = s.nextId := rfl
@[simp] theorem setCtx_reported (key : Nat) (c : Ctx) : (setCtx s key c).reported = s.reported := rfl
@[simp] theorem setCtx_sigs (key : Nat) (c : Ctx) : (setCtx s key c).sigs = s.sigs := rfl
@[simp] theorem setCtx_inks (key : Nat) (c : Ctx) : (setCtx s key c).inks = s.inks := rfl
@[simp] theorem setCtx_mcast (key : Nat) (c : Ctx) : (setCtx s key c).mcast = s.mcast := rfl
@[simp] theorem setCtx_duct (key : Nat) (c : Ctx) : (setCtx s key c).duct = s.duct := rfl
@[simp] theorem setCtx_nibs (key : Nat) (c : Ctx) : (setCtx s key c).nibs = s.nibs := rfl
@[simp] theorem setCtx_qdma (key : Nat) (c : Ctx) : (setCtx s key c).qdma = s.qdma := rfl
@[simp] theorem setCtx_mail (key : Nat) (c : Ctx) : (setCtx s key c).mail = s.mail := rfl
@[simp] theorem setCtx_dmas (key : Nat) (c : Ctx) : (setCtx s key c).dmas = s.dmas := rfl
@[simp] theorem setCtx_dmaTurn (key : Nat) (c : Ctx) : (setCtx s key c).dmaTurn = s.dmaTurn := rfl
@[simp] theorem setCtx_links (key : Nat) (c : Ctx) : (setCtx s key c).links = s.links := rfl
@[simp] theorem setCtx_blt (key : Nat) (c : Ctx) : (setCtx s key c).blt = s.blt := rfl
@[simp] theorem setCtx_upds (key : Nat) (c : Ctx) : (setCtx s key c).upds = s.upds := rfl
@[simp] theorem setCtx_updOrder (key : Nat) (c : Ctx) : (setCtx s key c).updOrder = s.updOrder := rfl
@[simp] theorem setCtx_pins (key : Nat) (c : Ctx) : (setCtx s key c).pins = s.pins := rfl
@[simp] theorem setCtx_bltWaits (key : Nat) (c : Ctx) : (setCtx s key c).bltWaits = s.bltWaits := rfl
@[simp] theorem setCtx_ruls (key : Nat) (c : Ctx) : (setCtx s key c).ruls = s.ruls := rfl
@[simp] theorem setCtx_badval (key : Nat) (c : Ctx) : (setCtx s key c).badval = s.badval := rfl
@[simp] theorem setCtx_probeDone (key : Nat) (c : Ctx) : (setCtx s key c).probeDone = s.probeDone := rfl
@[simp] theorem setCtx_srp (key : Nat) (c : Ctx) : (setCtx s key c).srp = s.srp := rfl
@[simp] theorem setCtx_tags (key : Nat) (c : Ctx) : (setCtx s key c).tags = s.tags := rfl
@[simp] theorem setCtx_srpEarly (key : Nat) (c : Ctx) : (setCtx s key c).srpEarly = s.srpEarly := rfl
@[simp] theorem setCtx_coh (key : Nat) (c : Ctx) : (setCtx s key c).coh = s.coh := rfl
@[simp] theorem setCtx_ports (key : Nat) (c : Ctx) : (setCtx s key c).ports = s.ports := rfl
@[simp] theorem setCtx_ctxs (key : Nat) (c : Ctx) : (setCtx s key c).ctxs = sset s.ctxs key c := rfl
@[simp] theorem setCtx_routes (key : Nat) (c : Ctx) : (setCtx s key c).routes = s.routes := rfl
@[simp] theorem setCtx_routesSh (key : Nat) (c : Ctx) : (setCtx s key c).routesSh = s.routesSh := rfl
@[simp] theorem setCtx_rings (key : Nat) (c : Ctx) : (setCtx s key c).rings = s.rings := rfl
@[simp] theorem setCtx_flows (key : Nat) (c : Ctx) : (setCtx s key c).flows = s.flows := rfl
@[simp] theorem setCtx_macUni (key : Nat) (c : Ctx) : (setCtx s key c).macUni = s.macUni := rfl
@[simp] theorem setCtx_macHash (key : Nat) (c : Ctx) : (setCtx s key c).macHash = s.macHash := rfl
@[simp] theorem setCtx_ethBad (key : Nat) (c : Ctx) : (setCtx s key c).ethBad = s.ethBad := rfl
@[simp] theorem setCtx_ethPause (key : Nat) (c : Ctx) : (setCtx s key c).ethPause = s.ethPause := rfl
@[simp] theorem setCtx_ethTag (key : Nat) (c : Ctx) : (setCtx s key c).ethTag = s.ethTag := rfl
@[simp] theorem setCtx_feeds (key : Nat) (c : Ctx) : (setCtx s key c).feeds = s.feeds := rfl
@[simp] theorem setCtx_gauges (key : Nat) (c : Ctx) : (setCtx s key c).gauges = s.gauges := rfl
@[simp] theorem setCtx_cores (key : Nat) (c : Ctx) : (setCtx s key c).cores = s.cores := rfl
@[simp] theorem setCtx_sent (key : Nat) (c : Ctx) : (setCtx s key c).sent = s.sent := rfl

/-! ### `setRing` -/

@[simp] theorem setRing_pending (h : Half) (b : Nat) (v : Ring) : (setRing s h b v).pending = s.pending := rfl
@[simp] theorem setRing_tick (h : Half) (b : Nat) (v : Ring) : (setRing s h b v).tick = s.tick := rfl
@[simp] theorem setRing_free (h : Half) (b : Nat) (v : Ring) : (setRing s h b v).free = s.free := rfl
@[simp] theorem setRing_power (h : Half) (b : Nat) (v : Ring) : (setRing s h b v).power = s.power := rfl
@[simp] theorem setRing_flash (h : Half) (b : Nat) (v : Ring) : (setRing s h b v).flash = s.flash := rfl
@[simp] theorem setRing_col (h : Half) (b : Nat) (v : Ring) : (setRing s h b v).col = s.col := rfl
@[simp] theorem setRing_drv (h : Half) (b : Nat) (v : Ring) : (setRing s h b v).drv = s.drv := rfl
@[simp] theorem setRing_frames (h : Half) (b : Nat) (v : Ring) : (setRing s h b v).frames = s.frames := rfl
@[simp] theorem setRing_regs (h : Half) (b : Nat) (v : Ring) : (setRing s h b v).regs = s.regs := rfl
@[simp] theorem setRing_act (h : Half) (b : Nat) (v : Ring) : (setRing s h b v).act = s.act := rfl
@[simp] theorem setRing_mem (h : Half) (b : Nat) (v : Ring) : (setRing s h b v).mem = s.mem := rfl
@[simp] theorem setRing_ecc (h : Half) (b : Nat) (v : Ring) : (setRing s h b v).ecc = s.ecc := rfl
@[simp] theorem setRing_res (h : Half) (b : Nat) (v : Ring) : (setRing s h b v).res = s.res := rfl
@[simp] theorem setRing_resEcc (h : Half) (b : Nat) (v : Ring) : (setRing s h b v).resEcc = s.resEcc := rfl
@[simp] theorem setRing_stale (h : Half) (b : Nat) (v : Ring) : (setRing s h b v).stale = s.stale := rfl
@[simp] theorem setRing_scrubPos (h : Half) (b : Nat) (v : Ring) : (setRing s h b v).scrubPos = s.scrubPos := rfl
@[simp] theorem setRing_bias (h : Half) (b : Nat) (v : Ring) : (setRing s h b v).bias = s.bias := rfl
@[simp] theorem setRing_xlt (h : Half) (b : Nat) (v : Ring) : (setRing s h b v).xlt = s.xlt := rfl
@[simp] theorem setRing_xltNodes (h : Half) (b : Nat) (v : Ring) : (setRing s h b v).xltNodes = s.xltNodes := rfl
@[simp] theorem setRing_invals (h : Half) (b : Nat) (v : Ring) : (setRing s h b v).invals = s.invals := rfl
@[simp] theorem setRing_cxl (h : Half) (b : Nat) (v : Ring) : (setRing s h b v).cxl = s.cxl := rfl
@[simp] theorem setRing_cxlUp (h : Half) (b : Nat) (v : Ring) : (setRing s h b v).cxlUp = s.cxlUp := rfl
@[simp] theorem setRing_cxlBytes (h : Half) (b : Nat) (v : Ring) : (setRing s h b v).cxlBytes = s.cxlBytes := rfl
@[simp] theorem setRing_scb (h : Half) (b : Nat) (v : Ring) : (setRing s h b v).scb = s.scb := rfl
@[simp] theorem setRing_queues (h : Half) (b : Nat) (v : Ring) : (setRing s h b v).queues = s.queues := rfl
@[simp] theorem setRing_cqs (h : Half) (b : Nat) (v : Ring) : (setRing s h b v).cqs = s.cqs := rfl
@[simp] theorem setRing_sems (h : Half) (b : Nat) (v : Ring) : (setRing s h b v).sems = s.sems := rfl
@[simp] theorem setRing_outs (h : Half) (b : Nat) (v : Ring) : (setRing s h b v).outs = s.outs := rfl
@[simp] theorem setRing_nextId (h : Half) (b : Nat) (v : Ring) : (setRing s h b v).nextId = s.nextId := rfl
@[simp] theorem setRing_reported (h : Half) (b : Nat) (v : Ring) : (setRing s h b v).reported = s.reported := rfl
@[simp] theorem setRing_sigs (h : Half) (b : Nat) (v : Ring) : (setRing s h b v).sigs = s.sigs := rfl
@[simp] theorem setRing_inks (h : Half) (b : Nat) (v : Ring) : (setRing s h b v).inks = s.inks := rfl
@[simp] theorem setRing_mcast (h : Half) (b : Nat) (v : Ring) : (setRing s h b v).mcast = s.mcast := rfl
@[simp] theorem setRing_duct (h : Half) (b : Nat) (v : Ring) : (setRing s h b v).duct = s.duct := rfl
@[simp] theorem setRing_nibs (h : Half) (b : Nat) (v : Ring) : (setRing s h b v).nibs = s.nibs := rfl
@[simp] theorem setRing_qdma (h : Half) (b : Nat) (v : Ring) : (setRing s h b v).qdma = s.qdma := rfl
@[simp] theorem setRing_mail (h : Half) (b : Nat) (v : Ring) : (setRing s h b v).mail = s.mail := rfl
@[simp] theorem setRing_dmas (h : Half) (b : Nat) (v : Ring) : (setRing s h b v).dmas = s.dmas := rfl
@[simp] theorem setRing_dmaTurn (h : Half) (b : Nat) (v : Ring) : (setRing s h b v).dmaTurn = s.dmaTurn := rfl
@[simp] theorem setRing_links (h : Half) (b : Nat) (v : Ring) : (setRing s h b v).links = s.links := rfl
@[simp] theorem setRing_blt (h : Half) (b : Nat) (v : Ring) : (setRing s h b v).blt = s.blt := rfl
@[simp] theorem setRing_upds (h : Half) (b : Nat) (v : Ring) : (setRing s h b v).upds = s.upds := rfl
@[simp] theorem setRing_updOrder (h : Half) (b : Nat) (v : Ring) : (setRing s h b v).updOrder = s.updOrder := rfl
@[simp] theorem setRing_pins (h : Half) (b : Nat) (v : Ring) : (setRing s h b v).pins = s.pins := rfl
@[simp] theorem setRing_bltWaits (h : Half) (b : Nat) (v : Ring) : (setRing s h b v).bltWaits = s.bltWaits := rfl
@[simp] theorem setRing_ruls (h : Half) (b : Nat) (v : Ring) : (setRing s h b v).ruls = s.ruls := rfl
@[simp] theorem setRing_badval (h : Half) (b : Nat) (v : Ring) : (setRing s h b v).badval = s.badval := rfl
@[simp] theorem setRing_probeDone (h : Half) (b : Nat) (v : Ring) : (setRing s h b v).probeDone = s.probeDone := rfl
@[simp] theorem setRing_srp (h : Half) (b : Nat) (v : Ring) : (setRing s h b v).srp = s.srp := rfl
@[simp] theorem setRing_tags (h : Half) (b : Nat) (v : Ring) : (setRing s h b v).tags = s.tags := rfl
@[simp] theorem setRing_srpEarly (h : Half) (b : Nat) (v : Ring) : (setRing s h b v).srpEarly = s.srpEarly := rfl
@[simp] theorem setRing_coh (h : Half) (b : Nat) (v : Ring) : (setRing s h b v).coh = s.coh := rfl
@[simp] theorem setRing_ports (h : Half) (b : Nat) (v : Ring) : (setRing s h b v).ports = s.ports := rfl
@[simp] theorem setRing_ctxs (h : Half) (b : Nat) (v : Ring) : (setRing s h b v).ctxs = s.ctxs := rfl
@[simp] theorem setRing_routes (h : Half) (b : Nat) (v : Ring) : (setRing s h b v).routes = s.routes := rfl
@[simp] theorem setRing_routesSh (h : Half) (b : Nat) (v : Ring) : (setRing s h b v).routesSh = s.routesSh := rfl
@[simp] theorem setRing_rings (h : Half) (b : Nat) (v : Ring) : (setRing s h b v).rings = sset s.rings (ringKey h b) v := rfl
@[simp] theorem setRing_flows (h : Half) (b : Nat) (v : Ring) : (setRing s h b v).flows = s.flows := rfl
@[simp] theorem setRing_macUni (h : Half) (b : Nat) (v : Ring) : (setRing s h b v).macUni = s.macUni := rfl
@[simp] theorem setRing_macHash (h : Half) (b : Nat) (v : Ring) : (setRing s h b v).macHash = s.macHash := rfl
@[simp] theorem setRing_ethBad (h : Half) (b : Nat) (v : Ring) : (setRing s h b v).ethBad = s.ethBad := rfl
@[simp] theorem setRing_ethPause (h : Half) (b : Nat) (v : Ring) : (setRing s h b v).ethPause = s.ethPause := rfl
@[simp] theorem setRing_ethTag (h : Half) (b : Nat) (v : Ring) : (setRing s h b v).ethTag = s.ethTag := rfl
@[simp] theorem setRing_feeds (h : Half) (b : Nat) (v : Ring) : (setRing s h b v).feeds = s.feeds := rfl
@[simp] theorem setRing_gauges (h : Half) (b : Nat) (v : Ring) : (setRing s h b v).gauges = s.gauges := rfl
@[simp] theorem setRing_cores (h : Half) (b : Nat) (v : Ring) : (setRing s h b v).cores = s.cores := rfl
@[simp] theorem setRing_sent (h : Half) (b : Nat) (v : Ring) : (setRing s h b v).sent = s.sent := rfl

/-! ### `setUpd` -/

@[simp] theorem setUpd_pending (k : Nat) (u : Upd) : (setUpd s k u).pending = s.pending := rfl
@[simp] theorem setUpd_tick (k : Nat) (u : Upd) : (setUpd s k u).tick = s.tick := rfl
@[simp] theorem setUpd_free (k : Nat) (u : Upd) : (setUpd s k u).free = s.free := rfl
@[simp] theorem setUpd_power (k : Nat) (u : Upd) : (setUpd s k u).power = s.power := rfl
@[simp] theorem setUpd_flash (k : Nat) (u : Upd) : (setUpd s k u).flash = s.flash := rfl
@[simp] theorem setUpd_col (k : Nat) (u : Upd) : (setUpd s k u).col = s.col := rfl
@[simp] theorem setUpd_drv (k : Nat) (u : Upd) : (setUpd s k u).drv = s.drv := rfl
@[simp] theorem setUpd_frames (k : Nat) (u : Upd) : (setUpd s k u).frames = s.frames := rfl
@[simp] theorem setUpd_regs (k : Nat) (u : Upd) : (setUpd s k u).regs = s.regs := rfl
@[simp] theorem setUpd_act (k : Nat) (u : Upd) : (setUpd s k u).act = s.act := rfl
@[simp] theorem setUpd_mem (k : Nat) (u : Upd) : (setUpd s k u).mem = s.mem := rfl
@[simp] theorem setUpd_ecc (k : Nat) (u : Upd) : (setUpd s k u).ecc = s.ecc := rfl
@[simp] theorem setUpd_res (k : Nat) (u : Upd) : (setUpd s k u).res = s.res := rfl
@[simp] theorem setUpd_resEcc (k : Nat) (u : Upd) : (setUpd s k u).resEcc = s.resEcc := rfl
@[simp] theorem setUpd_stale (k : Nat) (u : Upd) : (setUpd s k u).stale = s.stale := rfl
@[simp] theorem setUpd_scrubPos (k : Nat) (u : Upd) : (setUpd s k u).scrubPos = s.scrubPos := rfl
@[simp] theorem setUpd_bias (k : Nat) (u : Upd) : (setUpd s k u).bias = s.bias := rfl
@[simp] theorem setUpd_xlt (k : Nat) (u : Upd) : (setUpd s k u).xlt = s.xlt := rfl
@[simp] theorem setUpd_xltNodes (k : Nat) (u : Upd) : (setUpd s k u).xltNodes = s.xltNodes := rfl
@[simp] theorem setUpd_invals (k : Nat) (u : Upd) : (setUpd s k u).invals = s.invals := rfl
@[simp] theorem setUpd_cxl (k : Nat) (u : Upd) : (setUpd s k u).cxl = s.cxl := rfl
@[simp] theorem setUpd_cxlUp (k : Nat) (u : Upd) : (setUpd s k u).cxlUp = s.cxlUp := rfl
@[simp] theorem setUpd_cxlBytes (k : Nat) (u : Upd) : (setUpd s k u).cxlBytes = s.cxlBytes := rfl
@[simp] theorem setUpd_scb (k : Nat) (u : Upd) : (setUpd s k u).scb = s.scb := rfl
@[simp] theorem setUpd_queues (k : Nat) (u : Upd) : (setUpd s k u).queues = s.queues := rfl
@[simp] theorem setUpd_cqs (k : Nat) (u : Upd) : (setUpd s k u).cqs = s.cqs := rfl
@[simp] theorem setUpd_sems (k : Nat) (u : Upd) : (setUpd s k u).sems = s.sems := rfl
@[simp] theorem setUpd_outs (k : Nat) (u : Upd) : (setUpd s k u).outs = s.outs := rfl
@[simp] theorem setUpd_nextId (k : Nat) (u : Upd) : (setUpd s k u).nextId = s.nextId := rfl
@[simp] theorem setUpd_reported (k : Nat) (u : Upd) : (setUpd s k u).reported = s.reported := rfl
@[simp] theorem setUpd_sigs (k : Nat) (u : Upd) : (setUpd s k u).sigs = s.sigs := rfl
@[simp] theorem setUpd_inks (k : Nat) (u : Upd) : (setUpd s k u).inks = s.inks := rfl
@[simp] theorem setUpd_mcast (k : Nat) (u : Upd) : (setUpd s k u).mcast = s.mcast := rfl
@[simp] theorem setUpd_duct (k : Nat) (u : Upd) : (setUpd s k u).duct = s.duct := rfl
@[simp] theorem setUpd_nibs (k : Nat) (u : Upd) : (setUpd s k u).nibs = s.nibs := rfl
@[simp] theorem setUpd_qdma (k : Nat) (u : Upd) : (setUpd s k u).qdma = s.qdma := rfl
@[simp] theorem setUpd_mail (k : Nat) (u : Upd) : (setUpd s k u).mail = s.mail := rfl
@[simp] theorem setUpd_dmas (k : Nat) (u : Upd) : (setUpd s k u).dmas = s.dmas := rfl
@[simp] theorem setUpd_dmaTurn (k : Nat) (u : Upd) : (setUpd s k u).dmaTurn = s.dmaTurn := rfl
@[simp] theorem setUpd_links (k : Nat) (u : Upd) : (setUpd s k u).links = s.links := rfl
@[simp] theorem setUpd_blt (k : Nat) (u : Upd) : (setUpd s k u).blt = s.blt := rfl
@[simp] theorem setUpd_upds (k : Nat) (u : Upd) : (setUpd s k u).upds = sset s.upds k u := rfl
@[simp] theorem setUpd_updOrder (k : Nat) (u : Upd) : (setUpd s k u).updOrder = s.updOrder := rfl
@[simp] theorem setUpd_pins (k : Nat) (u : Upd) : (setUpd s k u).pins = s.pins := rfl
@[simp] theorem setUpd_bltWaits (k : Nat) (u : Upd) : (setUpd s k u).bltWaits = s.bltWaits := rfl
@[simp] theorem setUpd_ruls (k : Nat) (u : Upd) : (setUpd s k u).ruls = s.ruls := rfl
@[simp] theorem setUpd_badval (k : Nat) (u : Upd) : (setUpd s k u).badval = s.badval := rfl
@[simp] theorem setUpd_probeDone (k : Nat) (u : Upd) : (setUpd s k u).probeDone = s.probeDone := rfl
@[simp] theorem setUpd_srp (k : Nat) (u : Upd) : (setUpd s k u).srp = s.srp := rfl
@[simp] theorem setUpd_tags (k : Nat) (u : Upd) : (setUpd s k u).tags = s.tags := rfl
@[simp] theorem setUpd_srpEarly (k : Nat) (u : Upd) : (setUpd s k u).srpEarly = s.srpEarly := rfl
@[simp] theorem setUpd_coh (k : Nat) (u : Upd) : (setUpd s k u).coh = s.coh := rfl
@[simp] theorem setUpd_ports (k : Nat) (u : Upd) : (setUpd s k u).ports = s.ports := rfl
@[simp] theorem setUpd_ctxs (k : Nat) (u : Upd) : (setUpd s k u).ctxs = s.ctxs := rfl
@[simp] theorem setUpd_routes (k : Nat) (u : Upd) : (setUpd s k u).routes = s.routes := rfl
@[simp] theorem setUpd_routesSh (k : Nat) (u : Upd) : (setUpd s k u).routesSh = s.routesSh := rfl
@[simp] theorem setUpd_rings (k : Nat) (u : Upd) : (setUpd s k u).rings = s.rings := rfl
@[simp] theorem setUpd_flows (k : Nat) (u : Upd) : (setUpd s k u).flows = s.flows := rfl
@[simp] theorem setUpd_macUni (k : Nat) (u : Upd) : (setUpd s k u).macUni = s.macUni := rfl
@[simp] theorem setUpd_macHash (k : Nat) (u : Upd) : (setUpd s k u).macHash = s.macHash := rfl
@[simp] theorem setUpd_ethBad (k : Nat) (u : Upd) : (setUpd s k u).ethBad = s.ethBad := rfl
@[simp] theorem setUpd_ethPause (k : Nat) (u : Upd) : (setUpd s k u).ethPause = s.ethPause := rfl
@[simp] theorem setUpd_ethTag (k : Nat) (u : Upd) : (setUpd s k u).ethTag = s.ethTag := rfl
@[simp] theorem setUpd_feeds (k : Nat) (u : Upd) : (setUpd s k u).feeds = s.feeds := rfl
@[simp] theorem setUpd_gauges (k : Nat) (u : Upd) : (setUpd s k u).gauges = s.gauges := rfl
@[simp] theorem setUpd_cores (k : Nat) (u : Upd) : (setUpd s k u).cores = s.cores := rfl
@[simp] theorem setUpd_sent (k : Nat) (u : Upd) : (setUpd s k u).sent = s.sent := rfl

/-! ### `setPins` -/

@[simp] theorem setPins_pending (r : Nat) (p : Nat × Nat) : (setPins s r p).pending = s.pending := rfl
@[simp] theorem setPins_tick (r : Nat) (p : Nat × Nat) : (setPins s r p).tick = s.tick := rfl
@[simp] theorem setPins_free (r : Nat) (p : Nat × Nat) : (setPins s r p).free = s.free := rfl
@[simp] theorem setPins_power (r : Nat) (p : Nat × Nat) : (setPins s r p).power = s.power := rfl
@[simp] theorem setPins_flash (r : Nat) (p : Nat × Nat) : (setPins s r p).flash = s.flash := rfl
@[simp] theorem setPins_col (r : Nat) (p : Nat × Nat) : (setPins s r p).col = s.col := rfl
@[simp] theorem setPins_drv (r : Nat) (p : Nat × Nat) : (setPins s r p).drv = s.drv := rfl
@[simp] theorem setPins_frames (r : Nat) (p : Nat × Nat) : (setPins s r p).frames = s.frames := rfl
@[simp] theorem setPins_regs (r : Nat) (p : Nat × Nat) : (setPins s r p).regs = s.regs := rfl
@[simp] theorem setPins_act (r : Nat) (p : Nat × Nat) : (setPins s r p).act = s.act := rfl
@[simp] theorem setPins_mem (r : Nat) (p : Nat × Nat) : (setPins s r p).mem = s.mem := rfl
@[simp] theorem setPins_ecc (r : Nat) (p : Nat × Nat) : (setPins s r p).ecc = s.ecc := rfl
@[simp] theorem setPins_res (r : Nat) (p : Nat × Nat) : (setPins s r p).res = s.res := rfl
@[simp] theorem setPins_resEcc (r : Nat) (p : Nat × Nat) : (setPins s r p).resEcc = s.resEcc := rfl
@[simp] theorem setPins_stale (r : Nat) (p : Nat × Nat) : (setPins s r p).stale = s.stale := rfl
@[simp] theorem setPins_scrubPos (r : Nat) (p : Nat × Nat) : (setPins s r p).scrubPos = s.scrubPos := rfl
@[simp] theorem setPins_bias (r : Nat) (p : Nat × Nat) : (setPins s r p).bias = s.bias := rfl
@[simp] theorem setPins_xlt (r : Nat) (p : Nat × Nat) : (setPins s r p).xlt = s.xlt := rfl
@[simp] theorem setPins_xltNodes (r : Nat) (p : Nat × Nat) : (setPins s r p).xltNodes = s.xltNodes := rfl
@[simp] theorem setPins_invals (r : Nat) (p : Nat × Nat) : (setPins s r p).invals = s.invals := rfl
@[simp] theorem setPins_cxl (r : Nat) (p : Nat × Nat) : (setPins s r p).cxl = s.cxl := rfl
@[simp] theorem setPins_cxlUp (r : Nat) (p : Nat × Nat) : (setPins s r p).cxlUp = s.cxlUp := rfl
@[simp] theorem setPins_cxlBytes (r : Nat) (p : Nat × Nat) : (setPins s r p).cxlBytes = s.cxlBytes := rfl
@[simp] theorem setPins_scb (r : Nat) (p : Nat × Nat) : (setPins s r p).scb = s.scb := rfl
@[simp] theorem setPins_queues (r : Nat) (p : Nat × Nat) : (setPins s r p).queues = s.queues := rfl
@[simp] theorem setPins_cqs (r : Nat) (p : Nat × Nat) : (setPins s r p).cqs = s.cqs := rfl
@[simp] theorem setPins_sems (r : Nat) (p : Nat × Nat) : (setPins s r p).sems = s.sems := rfl
@[simp] theorem setPins_outs (r : Nat) (p : Nat × Nat) : (setPins s r p).outs = s.outs := rfl
@[simp] theorem setPins_nextId (r : Nat) (p : Nat × Nat) : (setPins s r p).nextId = s.nextId := rfl
@[simp] theorem setPins_reported (r : Nat) (p : Nat × Nat) : (setPins s r p).reported = s.reported := rfl
@[simp] theorem setPins_sigs (r : Nat) (p : Nat × Nat) : (setPins s r p).sigs = s.sigs := rfl
@[simp] theorem setPins_inks (r : Nat) (p : Nat × Nat) : (setPins s r p).inks = s.inks := rfl
@[simp] theorem setPins_mcast (r : Nat) (p : Nat × Nat) : (setPins s r p).mcast = s.mcast := rfl
@[simp] theorem setPins_duct (r : Nat) (p : Nat × Nat) : (setPins s r p).duct = s.duct := rfl
@[simp] theorem setPins_nibs (r : Nat) (p : Nat × Nat) : (setPins s r p).nibs = s.nibs := rfl
@[simp] theorem setPins_qdma (r : Nat) (p : Nat × Nat) : (setPins s r p).qdma = s.qdma := rfl
@[simp] theorem setPins_mail (r : Nat) (p : Nat × Nat) : (setPins s r p).mail = s.mail := rfl
@[simp] theorem setPins_dmas (r : Nat) (p : Nat × Nat) : (setPins s r p).dmas = s.dmas := rfl
@[simp] theorem setPins_dmaTurn (r : Nat) (p : Nat × Nat) : (setPins s r p).dmaTurn = s.dmaTurn := rfl
@[simp] theorem setPins_links (r : Nat) (p : Nat × Nat) : (setPins s r p).links = s.links := rfl
@[simp] theorem setPins_blt (r : Nat) (p : Nat × Nat) : (setPins s r p).blt = s.blt := rfl
@[simp] theorem setPins_upds (r : Nat) (p : Nat × Nat) : (setPins s r p).upds = s.upds := rfl
@[simp] theorem setPins_updOrder (r : Nat) (p : Nat × Nat) : (setPins s r p).updOrder = s.updOrder := rfl
@[simp] theorem setPins_pins (r : Nat) (p : Nat × Nat) : (setPins s r p).pins = sset s.pins r p := rfl
@[simp] theorem setPins_bltWaits (r : Nat) (p : Nat × Nat) : (setPins s r p).bltWaits = s.bltWaits := rfl
@[simp] theorem setPins_ruls (r : Nat) (p : Nat × Nat) : (setPins s r p).ruls = s.ruls := rfl
@[simp] theorem setPins_badval (r : Nat) (p : Nat × Nat) : (setPins s r p).badval = s.badval := rfl
@[simp] theorem setPins_probeDone (r : Nat) (p : Nat × Nat) : (setPins s r p).probeDone = s.probeDone := rfl
@[simp] theorem setPins_srp (r : Nat) (p : Nat × Nat) : (setPins s r p).srp = s.srp := rfl
@[simp] theorem setPins_tags (r : Nat) (p : Nat × Nat) : (setPins s r p).tags = s.tags := rfl
@[simp] theorem setPins_srpEarly (r : Nat) (p : Nat × Nat) : (setPins s r p).srpEarly = s.srpEarly := rfl
@[simp] theorem setPins_coh (r : Nat) (p : Nat × Nat) : (setPins s r p).coh = s.coh := rfl
@[simp] theorem setPins_ports (r : Nat) (p : Nat × Nat) : (setPins s r p).ports = s.ports := rfl
@[simp] theorem setPins_ctxs (r : Nat) (p : Nat × Nat) : (setPins s r p).ctxs = s.ctxs := rfl
@[simp] theorem setPins_routes (r : Nat) (p : Nat × Nat) : (setPins s r p).routes = s.routes := rfl
@[simp] theorem setPins_routesSh (r : Nat) (p : Nat × Nat) : (setPins s r p).routesSh = s.routesSh := rfl
@[simp] theorem setPins_rings (r : Nat) (p : Nat × Nat) : (setPins s r p).rings = s.rings := rfl
@[simp] theorem setPins_flows (r : Nat) (p : Nat × Nat) : (setPins s r p).flows = s.flows := rfl
@[simp] theorem setPins_macUni (r : Nat) (p : Nat × Nat) : (setPins s r p).macUni = s.macUni := rfl
@[simp] theorem setPins_macHash (r : Nat) (p : Nat × Nat) : (setPins s r p).macHash = s.macHash := rfl
@[simp] theorem setPins_ethBad (r : Nat) (p : Nat × Nat) : (setPins s r p).ethBad = s.ethBad := rfl
@[simp] theorem setPins_ethPause (r : Nat) (p : Nat × Nat) : (setPins s r p).ethPause = s.ethPause := rfl
@[simp] theorem setPins_ethTag (r : Nat) (p : Nat × Nat) : (setPins s r p).ethTag = s.ethTag := rfl
@[simp] theorem setPins_feeds (r : Nat) (p : Nat × Nat) : (setPins s r p).feeds = s.feeds := rfl
@[simp] theorem setPins_gauges (r : Nat) (p : Nat × Nat) : (setPins s r p).gauges = s.gauges := rfl
@[simp] theorem setPins_cores (r : Nat) (p : Nat × Nat) : (setPins s r p).cores = s.cores := rfl
@[simp] theorem setPins_sent (r : Nat) (p : Nat × Nat) : (setPins s r p).sent = s.sent := rfl

/-! ### `setRul` -/

@[simp] theorem setRul_pending (g : Nat) (v : Rul) : (setRul s g v).pending = s.pending := rfl
@[simp] theorem setRul_tick (g : Nat) (v : Rul) : (setRul s g v).tick = s.tick := rfl
@[simp] theorem setRul_free (g : Nat) (v : Rul) : (setRul s g v).free = s.free := rfl
@[simp] theorem setRul_power (g : Nat) (v : Rul) : (setRul s g v).power = s.power := rfl
@[simp] theorem setRul_flash (g : Nat) (v : Rul) : (setRul s g v).flash = s.flash := rfl
@[simp] theorem setRul_col (g : Nat) (v : Rul) : (setRul s g v).col = s.col := rfl
@[simp] theorem setRul_drv (g : Nat) (v : Rul) : (setRul s g v).drv = s.drv := rfl
@[simp] theorem setRul_frames (g : Nat) (v : Rul) : (setRul s g v).frames = s.frames := rfl
@[simp] theorem setRul_regs (g : Nat) (v : Rul) : (setRul s g v).regs = s.regs := rfl
@[simp] theorem setRul_act (g : Nat) (v : Rul) : (setRul s g v).act = s.act := rfl
@[simp] theorem setRul_mem (g : Nat) (v : Rul) : (setRul s g v).mem = s.mem := rfl
@[simp] theorem setRul_ecc (g : Nat) (v : Rul) : (setRul s g v).ecc = s.ecc := rfl
@[simp] theorem setRul_res (g : Nat) (v : Rul) : (setRul s g v).res = s.res := rfl
@[simp] theorem setRul_resEcc (g : Nat) (v : Rul) : (setRul s g v).resEcc = s.resEcc := rfl
@[simp] theorem setRul_stale (g : Nat) (v : Rul) : (setRul s g v).stale = s.stale := rfl
@[simp] theorem setRul_scrubPos (g : Nat) (v : Rul) : (setRul s g v).scrubPos = s.scrubPos := rfl
@[simp] theorem setRul_bias (g : Nat) (v : Rul) : (setRul s g v).bias = s.bias := rfl
@[simp] theorem setRul_xlt (g : Nat) (v : Rul) : (setRul s g v).xlt = s.xlt := rfl
@[simp] theorem setRul_xltNodes (g : Nat) (v : Rul) : (setRul s g v).xltNodes = s.xltNodes := rfl
@[simp] theorem setRul_invals (g : Nat) (v : Rul) : (setRul s g v).invals = s.invals := rfl
@[simp] theorem setRul_cxl (g : Nat) (v : Rul) : (setRul s g v).cxl = s.cxl := rfl
@[simp] theorem setRul_cxlUp (g : Nat) (v : Rul) : (setRul s g v).cxlUp = s.cxlUp := rfl
@[simp] theorem setRul_cxlBytes (g : Nat) (v : Rul) : (setRul s g v).cxlBytes = s.cxlBytes := rfl
@[simp] theorem setRul_scb (g : Nat) (v : Rul) : (setRul s g v).scb = s.scb := rfl
@[simp] theorem setRul_queues (g : Nat) (v : Rul) : (setRul s g v).queues = s.queues := rfl
@[simp] theorem setRul_cqs (g : Nat) (v : Rul) : (setRul s g v).cqs = s.cqs := rfl
@[simp] theorem setRul_sems (g : Nat) (v : Rul) : (setRul s g v).sems = s.sems := rfl
@[simp] theorem setRul_outs (g : Nat) (v : Rul) : (setRul s g v).outs = s.outs := rfl
@[simp] theorem setRul_nextId (g : Nat) (v : Rul) : (setRul s g v).nextId = s.nextId := rfl
@[simp] theorem setRul_reported (g : Nat) (v : Rul) : (setRul s g v).reported = s.reported := rfl
@[simp] theorem setRul_sigs (g : Nat) (v : Rul) : (setRul s g v).sigs = s.sigs := rfl
@[simp] theorem setRul_inks (g : Nat) (v : Rul) : (setRul s g v).inks = s.inks := rfl
@[simp] theorem setRul_mcast (g : Nat) (v : Rul) : (setRul s g v).mcast = s.mcast := rfl
@[simp] theorem setRul_duct (g : Nat) (v : Rul) : (setRul s g v).duct = s.duct := rfl
@[simp] theorem setRul_nibs (g : Nat) (v : Rul) : (setRul s g v).nibs = s.nibs := rfl
@[simp] theorem setRul_qdma (g : Nat) (v : Rul) : (setRul s g v).qdma = s.qdma := rfl
@[simp] theorem setRul_mail (g : Nat) (v : Rul) : (setRul s g v).mail = s.mail := rfl
@[simp] theorem setRul_dmas (g : Nat) (v : Rul) : (setRul s g v).dmas = s.dmas := rfl
@[simp] theorem setRul_dmaTurn (g : Nat) (v : Rul) : (setRul s g v).dmaTurn = s.dmaTurn := rfl
@[simp] theorem setRul_links (g : Nat) (v : Rul) : (setRul s g v).links = s.links := rfl
@[simp] theorem setRul_blt (g : Nat) (v : Rul) : (setRul s g v).blt = s.blt := rfl
@[simp] theorem setRul_upds (g : Nat) (v : Rul) : (setRul s g v).upds = s.upds := rfl
@[simp] theorem setRul_updOrder (g : Nat) (v : Rul) : (setRul s g v).updOrder = s.updOrder := rfl
@[simp] theorem setRul_pins (g : Nat) (v : Rul) : (setRul s g v).pins = s.pins := rfl
@[simp] theorem setRul_bltWaits (g : Nat) (v : Rul) : (setRul s g v).bltWaits = s.bltWaits := rfl
@[simp] theorem setRul_ruls (g : Nat) (v : Rul) : (setRul s g v).ruls = sset s.ruls g v := rfl
@[simp] theorem setRul_badval (g : Nat) (v : Rul) : (setRul s g v).badval = s.badval := rfl
@[simp] theorem setRul_probeDone (g : Nat) (v : Rul) : (setRul s g v).probeDone = s.probeDone := rfl
@[simp] theorem setRul_srp (g : Nat) (v : Rul) : (setRul s g v).srp = s.srp := rfl
@[simp] theorem setRul_tags (g : Nat) (v : Rul) : (setRul s g v).tags = s.tags := rfl
@[simp] theorem setRul_srpEarly (g : Nat) (v : Rul) : (setRul s g v).srpEarly = s.srpEarly := rfl
@[simp] theorem setRul_coh (g : Nat) (v : Rul) : (setRul s g v).coh = s.coh := rfl
@[simp] theorem setRul_ports (g : Nat) (v : Rul) : (setRul s g v).ports = s.ports := rfl
@[simp] theorem setRul_ctxs (g : Nat) (v : Rul) : (setRul s g v).ctxs = s.ctxs := rfl
@[simp] theorem setRul_routes (g : Nat) (v : Rul) : (setRul s g v).routes = s.routes := rfl
@[simp] theorem setRul_routesSh (g : Nat) (v : Rul) : (setRul s g v).routesSh = s.routesSh := rfl
@[simp] theorem setRul_rings (g : Nat) (v : Rul) : (setRul s g v).rings = s.rings := rfl
@[simp] theorem setRul_flows (g : Nat) (v : Rul) : (setRul s g v).flows = s.flows := rfl
@[simp] theorem setRul_macUni (g : Nat) (v : Rul) : (setRul s g v).macUni = s.macUni := rfl
@[simp] theorem setRul_macHash (g : Nat) (v : Rul) : (setRul s g v).macHash = s.macHash := rfl
@[simp] theorem setRul_ethBad (g : Nat) (v : Rul) : (setRul s g v).ethBad = s.ethBad := rfl
@[simp] theorem setRul_ethPause (g : Nat) (v : Rul) : (setRul s g v).ethPause = s.ethPause := rfl
@[simp] theorem setRul_ethTag (g : Nat) (v : Rul) : (setRul s g v).ethTag = s.ethTag := rfl
@[simp] theorem setRul_feeds (g : Nat) (v : Rul) : (setRul s g v).feeds = s.feeds := rfl
@[simp] theorem setRul_gauges (g : Nat) (v : Rul) : (setRul s g v).gauges = s.gauges := rfl
@[simp] theorem setRul_cores (g : Nat) (v : Rul) : (setRul s g v).cores = s.cores := rfl
@[simp] theorem setRul_sent (g : Nat) (v : Rul) : (setRul s g v).sent = s.sent := rfl

/-! ### `setTag` -/

@[simp] theorem setTag_pending (t : Nat) (v : Tag) : (setTag s t v).pending = s.pending := rfl
@[simp] theorem setTag_tick (t : Nat) (v : Tag) : (setTag s t v).tick = s.tick := rfl
@[simp] theorem setTag_free (t : Nat) (v : Tag) : (setTag s t v).free = s.free := rfl
@[simp] theorem setTag_power (t : Nat) (v : Tag) : (setTag s t v).power = s.power := rfl
@[simp] theorem setTag_flash (t : Nat) (v : Tag) : (setTag s t v).flash = s.flash := rfl
@[simp] theorem setTag_col (t : Nat) (v : Tag) : (setTag s t v).col = s.col := rfl
@[simp] theorem setTag_drv (t : Nat) (v : Tag) : (setTag s t v).drv = s.drv := rfl
@[simp] theorem setTag_frames (t : Nat) (v : Tag) : (setTag s t v).frames = s.frames := rfl
@[simp] theorem setTag_regs (t : Nat) (v : Tag) : (setTag s t v).regs = s.regs := rfl
@[simp] theorem setTag_act (t : Nat) (v : Tag) : (setTag s t v).act = s.act := rfl
@[simp] theorem setTag_mem (t : Nat) (v : Tag) : (setTag s t v).mem = s.mem := rfl
@[simp] theorem setTag_ecc (t : Nat) (v : Tag) : (setTag s t v).ecc = s.ecc := rfl
@[simp] theorem setTag_res (t : Nat) (v : Tag) : (setTag s t v).res = s.res := rfl
@[simp] theorem setTag_resEcc (t : Nat) (v : Tag) : (setTag s t v).resEcc = s.resEcc := rfl
@[simp] theorem setTag_stale (t : Nat) (v : Tag) : (setTag s t v).stale = s.stale := rfl
@[simp] theorem setTag_scrubPos (t : Nat) (v : Tag) : (setTag s t v).scrubPos = s.scrubPos := rfl
@[simp] theorem setTag_bias (t : Nat) (v : Tag) : (setTag s t v).bias = s.bias := rfl
@[simp] theorem setTag_xlt (t : Nat) (v : Tag) : (setTag s t v).xlt = s.xlt := rfl
@[simp] theorem setTag_xltNodes (t : Nat) (v : Tag) : (setTag s t v).xltNodes = s.xltNodes := rfl
@[simp] theorem setTag_invals (t : Nat) (v : Tag) : (setTag s t v).invals = s.invals := rfl
@[simp] theorem setTag_cxl (t : Nat) (v : Tag) : (setTag s t v).cxl = s.cxl := rfl
@[simp] theorem setTag_cxlUp (t : Nat) (v : Tag) : (setTag s t v).cxlUp = s.cxlUp := rfl
@[simp] theorem setTag_cxlBytes (t : Nat) (v : Tag) : (setTag s t v).cxlBytes = s.cxlBytes := rfl
@[simp] theorem setTag_scb (t : Nat) (v : Tag) : (setTag s t v).scb = s.scb := rfl
@[simp] theorem setTag_queues (t : Nat) (v : Tag) : (setTag s t v).queues = s.queues := rfl
@[simp] theorem setTag_cqs (t : Nat) (v : Tag) : (setTag s t v).cqs = s.cqs := rfl
@[simp] theorem setTag_sems (t : Nat) (v : Tag) : (setTag s t v).sems = s.sems := rfl
@[simp] theorem setTag_outs (t : Nat) (v : Tag) : (setTag s t v).outs = s.outs := rfl
@[simp] theorem setTag_nextId (t : Nat) (v : Tag) : (setTag s t v).nextId = s.nextId := rfl
@[simp] theorem setTag_reported (t : Nat) (v : Tag) : (setTag s t v).reported = s.reported := rfl
@[simp] theorem setTag_sigs (t : Nat) (v : Tag) : (setTag s t v).sigs = s.sigs := rfl
@[simp] theorem setTag_inks (t : Nat) (v : Tag) : (setTag s t v).inks = s.inks := rfl
@[simp] theorem setTag_mcast (t : Nat) (v : Tag) : (setTag s t v).mcast = s.mcast := rfl
@[simp] theorem setTag_duct (t : Nat) (v : Tag) : (setTag s t v).duct = s.duct := rfl
@[simp] theorem setTag_nibs (t : Nat) (v : Tag) : (setTag s t v).nibs = s.nibs := rfl
@[simp] theorem setTag_qdma (t : Nat) (v : Tag) : (setTag s t v).qdma = s.qdma := rfl
@[simp] theorem setTag_mail (t : Nat) (v : Tag) : (setTag s t v).mail = s.mail := rfl
@[simp] theorem setTag_dmas (t : Nat) (v : Tag) : (setTag s t v).dmas = s.dmas := rfl
@[simp] theorem setTag_dmaTurn (t : Nat) (v : Tag) : (setTag s t v).dmaTurn = s.dmaTurn := rfl
@[simp] theorem setTag_links (t : Nat) (v : Tag) : (setTag s t v).links = s.links := rfl
@[simp] theorem setTag_blt (t : Nat) (v : Tag) : (setTag s t v).blt = s.blt := rfl
@[simp] theorem setTag_upds (t : Nat) (v : Tag) : (setTag s t v).upds = s.upds := rfl
@[simp] theorem setTag_updOrder (t : Nat) (v : Tag) : (setTag s t v).updOrder = s.updOrder := rfl
@[simp] theorem setTag_pins (t : Nat) (v : Tag) : (setTag s t v).pins = s.pins := rfl
@[simp] theorem setTag_bltWaits (t : Nat) (v : Tag) : (setTag s t v).bltWaits = s.bltWaits := rfl
@[simp] theorem setTag_ruls (t : Nat) (v : Tag) : (setTag s t v).ruls = s.ruls := rfl
@[simp] theorem setTag_badval (t : Nat) (v : Tag) : (setTag s t v).badval = s.badval := rfl
@[simp] theorem setTag_probeDone (t : Nat) (v : Tag) : (setTag s t v).probeDone = s.probeDone := rfl
@[simp] theorem setTag_srp (t : Nat) (v : Tag) : (setTag s t v).srp = s.srp := rfl
@[simp] theorem setTag_tags (t : Nat) (v : Tag) : (setTag s t v).tags = sset s.tags t v := rfl
@[simp] theorem setTag_srpEarly (t : Nat) (v : Tag) : (setTag s t v).srpEarly = s.srpEarly := rfl
@[simp] theorem setTag_coh (t : Nat) (v : Tag) : (setTag s t v).coh = s.coh := rfl
@[simp] theorem setTag_ports (t : Nat) (v : Tag) : (setTag s t v).ports = s.ports := rfl
@[simp] theorem setTag_ctxs (t : Nat) (v : Tag) : (setTag s t v).ctxs = s.ctxs := rfl
@[simp] theorem setTag_routes (t : Nat) (v : Tag) : (setTag s t v).routes = s.routes := rfl
@[simp] theorem setTag_routesSh (t : Nat) (v : Tag) : (setTag s t v).routesSh = s.routesSh := rfl
@[simp] theorem setTag_rings (t : Nat) (v : Tag) : (setTag s t v).rings = s.rings := rfl
@[simp] theorem setTag_flows (t : Nat) (v : Tag) : (setTag s t v).flows = s.flows := rfl
@[simp] theorem setTag_macUni (t : Nat) (v : Tag) : (setTag s t v).macUni = s.macUni := rfl
@[simp] theorem setTag_macHash (t : Nat) (v : Tag) : (setTag s t v).macHash = s.macHash := rfl
@[simp] theorem setTag_ethBad (t : Nat) (v : Tag) : (setTag s t v).ethBad = s.ethBad := rfl
@[simp] theorem setTag_ethPause (t : Nat) (v : Tag) : (setTag s t v).ethPause = s.ethPause := rfl
@[simp] theorem setTag_ethTag (t : Nat) (v : Tag) : (setTag s t v).ethTag = s.ethTag := rfl
@[simp] theorem setTag_feeds (t : Nat) (v : Tag) : (setTag s t v).feeds = s.feeds := rfl
@[simp] theorem setTag_gauges (t : Nat) (v : Tag) : (setTag s t v).gauges = s.gauges := rfl
@[simp] theorem setTag_cores (t : Nat) (v : Tag) : (setTag s t v).cores = s.cores := rfl
@[simp] theorem setTag_sent (t : Nat) (v : Tag) : (setTag s t v).sent = s.sent := rfl

/-! ### `setCore` -/

@[simp] theorem setCore_pending (k : Nat) (c : Core) : (setCore s k c).pending = s.pending := rfl
@[simp] theorem setCore_tick (k : Nat) (c : Core) : (setCore s k c).tick = s.tick := rfl
@[simp] theorem setCore_free (k : Nat) (c : Core) : (setCore s k c).free = s.free := rfl
@[simp] theorem setCore_power (k : Nat) (c : Core) : (setCore s k c).power = s.power := rfl
@[simp] theorem setCore_flash (k : Nat) (c : Core) : (setCore s k c).flash = s.flash := rfl
@[simp] theorem setCore_col (k : Nat) (c : Core) : (setCore s k c).col = s.col := rfl
@[simp] theorem setCore_drv (k : Nat) (c : Core) : (setCore s k c).drv = s.drv := rfl
@[simp] theorem setCore_frames (k : Nat) (c : Core) : (setCore s k c).frames = s.frames := rfl
@[simp] theorem setCore_regs (k : Nat) (c : Core) : (setCore s k c).regs = s.regs := rfl
@[simp] theorem setCore_act (k : Nat) (c : Core) : (setCore s k c).act = s.act := rfl
@[simp] theorem setCore_mem (k : Nat) (c : Core) : (setCore s k c).mem = s.mem := rfl
@[simp] theorem setCore_ecc (k : Nat) (c : Core) : (setCore s k c).ecc = s.ecc := rfl
@[simp] theorem setCore_res (k : Nat) (c : Core) : (setCore s k c).res = s.res := rfl
@[simp] theorem setCore_resEcc (k : Nat) (c : Core) : (setCore s k c).resEcc = s.resEcc := rfl
@[simp] theorem setCore_stale (k : Nat) (c : Core) : (setCore s k c).stale = s.stale := rfl
@[simp] theorem setCore_scrubPos (k : Nat) (c : Core) : (setCore s k c).scrubPos = s.scrubPos := rfl
@[simp] theorem setCore_bias (k : Nat) (c : Core) : (setCore s k c).bias = s.bias := rfl
@[simp] theorem setCore_xlt (k : Nat) (c : Core) : (setCore s k c).xlt = s.xlt := rfl
@[simp] theorem setCore_xltNodes (k : Nat) (c : Core) : (setCore s k c).xltNodes = s.xltNodes := rfl
@[simp] theorem setCore_invals (k : Nat) (c : Core) : (setCore s k c).invals = s.invals := rfl
@[simp] theorem setCore_cxl (k : Nat) (c : Core) : (setCore s k c).cxl = s.cxl := rfl
@[simp] theorem setCore_cxlUp (k : Nat) (c : Core) : (setCore s k c).cxlUp = s.cxlUp := rfl
@[simp] theorem setCore_cxlBytes (k : Nat) (c : Core) : (setCore s k c).cxlBytes = s.cxlBytes := rfl
@[simp] theorem setCore_scb (k : Nat) (c : Core) : (setCore s k c).scb = s.scb := rfl
@[simp] theorem setCore_queues (k : Nat) (c : Core) : (setCore s k c).queues = s.queues := rfl
@[simp] theorem setCore_cqs (k : Nat) (c : Core) : (setCore s k c).cqs = s.cqs := rfl
@[simp] theorem setCore_sems (k : Nat) (c : Core) : (setCore s k c).sems = s.sems := rfl
@[simp] theorem setCore_outs (k : Nat) (c : Core) : (setCore s k c).outs = s.outs := rfl
@[simp] theorem setCore_nextId (k : Nat) (c : Core) : (setCore s k c).nextId = s.nextId := rfl
@[simp] theorem setCore_reported (k : Nat) (c : Core) : (setCore s k c).reported = s.reported := rfl
@[simp] theorem setCore_sigs (k : Nat) (c : Core) : (setCore s k c).sigs = s.sigs := rfl
@[simp] theorem setCore_inks (k : Nat) (c : Core) : (setCore s k c).inks = s.inks := rfl
@[simp] theorem setCore_mcast (k : Nat) (c : Core) : (setCore s k c).mcast = s.mcast := rfl
@[simp] theorem setCore_duct (k : Nat) (c : Core) : (setCore s k c).duct = s.duct := rfl
@[simp] theorem setCore_nibs (k : Nat) (c : Core) : (setCore s k c).nibs = s.nibs := rfl
@[simp] theorem setCore_qdma (k : Nat) (c : Core) : (setCore s k c).qdma = s.qdma := rfl
@[simp] theorem setCore_mail (k : Nat) (c : Core) : (setCore s k c).mail = s.mail := rfl
@[simp] theorem setCore_dmas (k : Nat) (c : Core) : (setCore s k c).dmas = s.dmas := rfl
@[simp] theorem setCore_dmaTurn (k : Nat) (c : Core) : (setCore s k c).dmaTurn = s.dmaTurn := rfl
@[simp] theorem setCore_links (k : Nat) (c : Core) : (setCore s k c).links = s.links := rfl
@[simp] theorem setCore_blt (k : Nat) (c : Core) : (setCore s k c).blt = s.blt := rfl
@[simp] theorem setCore_upds (k : Nat) (c : Core) : (setCore s k c).upds = s.upds := rfl
@[simp] theorem setCore_updOrder (k : Nat) (c : Core) : (setCore s k c).updOrder = s.updOrder := rfl
@[simp] theorem setCore_pins (k : Nat) (c : Core) : (setCore s k c).pins = s.pins := rfl
@[simp] theorem setCore_bltWaits (k : Nat) (c : Core) : (setCore s k c).bltWaits = s.bltWaits := rfl
@[simp] theorem setCore_ruls (k : Nat) (c : Core) : (setCore s k c).ruls = s.ruls := rfl
@[simp] theorem setCore_badval (k : Nat) (c : Core) : (setCore s k c).badval = s.badval := rfl
@[simp] theorem setCore_probeDone (k : Nat) (c : Core) : (setCore s k c).probeDone = s.probeDone := rfl
@[simp] theorem setCore_srp (k : Nat) (c : Core) : (setCore s k c).srp = s.srp := rfl
@[simp] theorem setCore_tags (k : Nat) (c : Core) : (setCore s k c).tags = s.tags := rfl
@[simp] theorem setCore_srpEarly (k : Nat) (c : Core) : (setCore s k c).srpEarly = s.srpEarly := rfl
@[simp] theorem setCore_coh (k : Nat) (c : Core) : (setCore s k c).coh = s.coh := rfl
@[simp] theorem setCore_ports (k : Nat) (c : Core) : (setCore s k c).ports = s.ports := rfl
@[simp] theorem setCore_ctxs (k : Nat) (c : Core) : (setCore s k c).ctxs = s.ctxs := rfl
@[simp] theorem setCore_routes (k : Nat) (c : Core) : (setCore s k c).routes = s.routes := rfl
@[simp] theorem setCore_routesSh (k : Nat) (c : Core) : (setCore s k c).routesSh = s.routesSh := rfl
@[simp] theorem setCore_rings (k : Nat) (c : Core) : (setCore s k c).rings = s.rings := rfl
@[simp] theorem setCore_flows (k : Nat) (c : Core) : (setCore s k c).flows = s.flows := rfl
@[simp] theorem setCore_macUni (k : Nat) (c : Core) : (setCore s k c).macUni = s.macUni := rfl
@[simp] theorem setCore_macHash (k : Nat) (c : Core) : (setCore s k c).macHash = s.macHash := rfl
@[simp] theorem setCore_ethBad (k : Nat) (c : Core) : (setCore s k c).ethBad = s.ethBad := rfl
@[simp] theorem setCore_ethPause (k : Nat) (c : Core) : (setCore s k c).ethPause = s.ethPause := rfl
@[simp] theorem setCore_ethTag (k : Nat) (c : Core) : (setCore s k c).ethTag = s.ethTag := rfl
@[simp] theorem setCore_feeds (k : Nat) (c : Core) : (setCore s k c).feeds = s.feeds := rfl
@[simp] theorem setCore_gauges (k : Nat) (c : Core) : (setCore s k c).gauges = s.gauges := rfl
@[simp] theorem setCore_cores (k : Nat) (c : Core) : (setCore s k c).cores = sset s.cores k c := rfl
@[simp] theorem setCore_sent (k : Nat) (c : Core) : (setCore s k c).sent = s.sent := rfl

/-! ### `setCopy` -/

@[simp] theorem setCopy_pending (a : Nat) (line : Nat) (c : CLine) : (setCopy s a line c).pending = s.pending := rfl
@[simp] theorem setCopy_tick (a : Nat) (line : Nat) (c : CLine) : (setCopy s a line c).tick = s.tick := rfl
@[simp] theorem setCopy_free (a : Nat) (line : Nat) (c : CLine) : (setCopy s a line c).free = s.free := rfl
@[simp] theorem setCopy_power (a : Nat) (line : Nat) (c : CLine) : (setCopy s a line c).power = s.power := rfl
@[simp] theorem setCopy_flash (a : Nat) (line : Nat) (c : CLine) : (setCopy s a line c).flash = s.flash := rfl
@[simp] theorem setCopy_col (a : Nat) (line : Nat) (c : CLine) : (setCopy s a line c).col = s.col := rfl
@[simp] theorem setCopy_drv (a : Nat) (line : Nat) (c : CLine) : (setCopy s a line c).drv = s.drv := rfl
@[simp] theorem setCopy_frames (a : Nat) (line : Nat) (c : CLine) : (setCopy s a line c).frames = s.frames := rfl
@[simp] theorem setCopy_regs (a : Nat) (line : Nat) (c : CLine) : (setCopy s a line c).regs = s.regs := rfl
@[simp] theorem setCopy_act (a : Nat) (line : Nat) (c : CLine) : (setCopy s a line c).act = s.act := rfl
@[simp] theorem setCopy_mem (a : Nat) (line : Nat) (c : CLine) : (setCopy s a line c).mem = s.mem := rfl
@[simp] theorem setCopy_ecc (a : Nat) (line : Nat) (c : CLine) : (setCopy s a line c).ecc = s.ecc := rfl
@[simp] theorem setCopy_res (a : Nat) (line : Nat) (c : CLine) : (setCopy s a line c).res = s.res := rfl
@[simp] theorem setCopy_resEcc (a : Nat) (line : Nat) (c : CLine) : (setCopy s a line c).resEcc = s.resEcc := rfl
@[simp] theorem setCopy_stale (a : Nat) (line : Nat) (c : CLine) : (setCopy s a line c).stale = s.stale := rfl
@[simp] theorem setCopy_scrubPos (a : Nat) (line : Nat) (c : CLine) : (setCopy s a line c).scrubPos = s.scrubPos := rfl
@[simp] theorem setCopy_bias (a : Nat) (line : Nat) (c : CLine) : (setCopy s a line c).bias = s.bias := rfl
@[simp] theorem setCopy_xlt (a : Nat) (line : Nat) (c : CLine) : (setCopy s a line c).xlt = s.xlt := rfl
@[simp] theorem setCopy_xltNodes (a : Nat) (line : Nat) (c : CLine) : (setCopy s a line c).xltNodes = s.xltNodes := rfl
@[simp] theorem setCopy_invals (a : Nat) (line : Nat) (c : CLine) : (setCopy s a line c).invals = s.invals := rfl
@[simp] theorem setCopy_cxl (a : Nat) (line : Nat) (c : CLine) : (setCopy s a line c).cxl = s.cxl := rfl
@[simp] theorem setCopy_cxlUp (a : Nat) (line : Nat) (c : CLine) : (setCopy s a line c).cxlUp = s.cxlUp := rfl
@[simp] theorem setCopy_cxlBytes (a : Nat) (line : Nat) (c : CLine) : (setCopy s a line c).cxlBytes = s.cxlBytes := rfl
@[simp] theorem setCopy_scb (a : Nat) (line : Nat) (c : CLine) : (setCopy s a line c).scb = s.scb := rfl
@[simp] theorem setCopy_queues (a : Nat) (line : Nat) (c : CLine) : (setCopy s a line c).queues = s.queues := rfl
@[simp] theorem setCopy_cqs (a : Nat) (line : Nat) (c : CLine) : (setCopy s a line c).cqs = s.cqs := rfl
@[simp] theorem setCopy_sems (a : Nat) (line : Nat) (c : CLine) : (setCopy s a line c).sems = s.sems := rfl
@[simp] theorem setCopy_outs (a : Nat) (line : Nat) (c : CLine) : (setCopy s a line c).outs = s.outs := rfl
@[simp] theorem setCopy_nextId (a : Nat) (line : Nat) (c : CLine) : (setCopy s a line c).nextId = s.nextId := rfl
@[simp] theorem setCopy_reported (a : Nat) (line : Nat) (c : CLine) : (setCopy s a line c).reported = s.reported := rfl
@[simp] theorem setCopy_sigs (a : Nat) (line : Nat) (c : CLine) : (setCopy s a line c).sigs = s.sigs := rfl
@[simp] theorem setCopy_inks (a : Nat) (line : Nat) (c : CLine) : (setCopy s a line c).inks = s.inks := rfl
@[simp] theorem setCopy_mcast (a : Nat) (line : Nat) (c : CLine) : (setCopy s a line c).mcast = s.mcast := rfl
@[simp] theorem setCopy_duct (a : Nat) (line : Nat) (c : CLine) : (setCopy s a line c).duct = s.duct := rfl
@[simp] theorem setCopy_nibs (a : Nat) (line : Nat) (c : CLine) : (setCopy s a line c).nibs = s.nibs := rfl
@[simp] theorem setCopy_qdma (a : Nat) (line : Nat) (c : CLine) : (setCopy s a line c).qdma = s.qdma := rfl
@[simp] theorem setCopy_mail (a : Nat) (line : Nat) (c : CLine) : (setCopy s a line c).mail = s.mail := rfl
@[simp] theorem setCopy_dmas (a : Nat) (line : Nat) (c : CLine) : (setCopy s a line c).dmas = s.dmas := rfl
@[simp] theorem setCopy_dmaTurn (a : Nat) (line : Nat) (c : CLine) : (setCopy s a line c).dmaTurn = s.dmaTurn := rfl
@[simp] theorem setCopy_links (a : Nat) (line : Nat) (c : CLine) : (setCopy s a line c).links = s.links := rfl
@[simp] theorem setCopy_blt (a : Nat) (line : Nat) (c : CLine) : (setCopy s a line c).blt = s.blt := rfl
@[simp] theorem setCopy_upds (a : Nat) (line : Nat) (c : CLine) : (setCopy s a line c).upds = s.upds := rfl
@[simp] theorem setCopy_updOrder (a : Nat) (line : Nat) (c : CLine) : (setCopy s a line c).updOrder = s.updOrder := rfl
@[simp] theorem setCopy_pins (a : Nat) (line : Nat) (c : CLine) : (setCopy s a line c).pins = s.pins := rfl
@[simp] theorem setCopy_bltWaits (a : Nat) (line : Nat) (c : CLine) : (setCopy s a line c).bltWaits = s.bltWaits := rfl
@[simp] theorem setCopy_ruls (a : Nat) (line : Nat) (c : CLine) : (setCopy s a line c).ruls = s.ruls := rfl
@[simp] theorem setCopy_badval (a : Nat) (line : Nat) (c : CLine) : (setCopy s a line c).badval = s.badval := rfl
@[simp] theorem setCopy_probeDone (a : Nat) (line : Nat) (c : CLine) : (setCopy s a line c).probeDone = s.probeDone := rfl
@[simp] theorem setCopy_srp (a : Nat) (line : Nat) (c : CLine) : (setCopy s a line c).srp = s.srp := rfl
@[simp] theorem setCopy_tags (a : Nat) (line : Nat) (c : CLine) : (setCopy s a line c).tags = s.tags := rfl
@[simp] theorem setCopy_srpEarly (a : Nat) (line : Nat) (c : CLine) : (setCopy s a line c).srpEarly = s.srpEarly := rfl
@[simp] theorem setCopy_ports (a : Nat) (line : Nat) (c : CLine) : (setCopy s a line c).ports = s.ports := rfl
@[simp] theorem setCopy_ctxs (a : Nat) (line : Nat) (c : CLine) : (setCopy s a line c).ctxs = s.ctxs := rfl
@[simp] theorem setCopy_routes (a : Nat) (line : Nat) (c : CLine) : (setCopy s a line c).routes = s.routes := rfl
@[simp] theorem setCopy_routesSh (a : Nat) (line : Nat) (c : CLine) : (setCopy s a line c).routesSh = s.routesSh := rfl
@[simp] theorem setCopy_rings (a : Nat) (line : Nat) (c : CLine) : (setCopy s a line c).rings = s.rings := rfl
@[simp] theorem setCopy_flows (a : Nat) (line : Nat) (c : CLine) : (setCopy s a line c).flows = s.flows := rfl
@[simp] theorem setCopy_macUni (a : Nat) (line : Nat) (c : CLine) : (setCopy s a line c).macUni = s.macUni := rfl
@[simp] theorem setCopy_macHash (a : Nat) (line : Nat) (c : CLine) : (setCopy s a line c).macHash = s.macHash := rfl
@[simp] theorem setCopy_ethBad (a : Nat) (line : Nat) (c : CLine) : (setCopy s a line c).ethBad = s.ethBad := rfl
@[simp] theorem setCopy_ethPause (a : Nat) (line : Nat) (c : CLine) : (setCopy s a line c).ethPause = s.ethPause := rfl
@[simp] theorem setCopy_ethTag (a : Nat) (line : Nat) (c : CLine) : (setCopy s a line c).ethTag = s.ethTag := rfl
@[simp] theorem setCopy_feeds (a : Nat) (line : Nat) (c : CLine) : (setCopy s a line c).feeds = s.feeds := rfl
@[simp] theorem setCopy_gauges (a : Nat) (line : Nat) (c : CLine) : (setCopy s a line c).gauges = s.gauges := rfl
@[simp] theorem setCopy_cores (a : Nat) (line : Nat) (c : CLine) : (setCopy s a line c).cores = s.cores := rfl
@[simp] theorem setCopy_sent (a : Nat) (line : Nat) (c : CLine) : (setCopy s a line c).sent = s.sent := rfl

/-! ### `setFilter` -/

@[simp] theorem setFilter_pending (line : Nat) (e : FEnt) : (setFilter s line e).pending = s.pending := rfl
@[simp] theorem setFilter_tick (line : Nat) (e : FEnt) : (setFilter s line e).tick = s.tick := rfl
@[simp] theorem setFilter_free (line : Nat) (e : FEnt) : (setFilter s line e).free = s.free := rfl
@[simp] theorem setFilter_power (line : Nat) (e : FEnt) : (setFilter s line e).power = s.power := rfl
@[simp] theorem setFilter_flash (line : Nat) (e : FEnt) : (setFilter s line e).flash = s.flash := rfl
@[simp] theorem setFilter_col (line : Nat) (e : FEnt) : (setFilter s line e).col = s.col := rfl
@[simp] theorem setFilter_drv (line : Nat) (e : FEnt) : (setFilter s line e).drv = s.drv := rfl
@[simp] theorem setFilter_frames (line : Nat) (e : FEnt) : (setFilter s line e).frames = s.frames := rfl
@[simp] theorem setFilter_regs (line : Nat) (e : FEnt) : (setFilter s line e).regs = s.regs := rfl
@[simp] theorem setFilter_act (line : Nat) (e : FEnt) : (setFilter s line e).act = s.act := rfl
@[simp] theorem setFilter_mem (line : Nat) (e : FEnt) : (setFilter s line e).mem = s.mem := rfl
@[simp] theorem setFilter_ecc (line : Nat) (e : FEnt) : (setFilter s line e).ecc = s.ecc := rfl
@[simp] theorem setFilter_res (line : Nat) (e : FEnt) : (setFilter s line e).res = s.res := rfl
@[simp] theorem setFilter_resEcc (line : Nat) (e : FEnt) : (setFilter s line e).resEcc = s.resEcc := rfl
@[simp] theorem setFilter_stale (line : Nat) (e : FEnt) : (setFilter s line e).stale = s.stale := rfl
@[simp] theorem setFilter_scrubPos (line : Nat) (e : FEnt) : (setFilter s line e).scrubPos = s.scrubPos := rfl
@[simp] theorem setFilter_bias (line : Nat) (e : FEnt) : (setFilter s line e).bias = s.bias := rfl
@[simp] theorem setFilter_xlt (line : Nat) (e : FEnt) : (setFilter s line e).xlt = s.xlt := rfl
@[simp] theorem setFilter_xltNodes (line : Nat) (e : FEnt) : (setFilter s line e).xltNodes = s.xltNodes := rfl
@[simp] theorem setFilter_invals (line : Nat) (e : FEnt) : (setFilter s line e).invals = s.invals := rfl
@[simp] theorem setFilter_cxl (line : Nat) (e : FEnt) : (setFilter s line e).cxl = s.cxl := rfl
@[simp] theorem setFilter_cxlUp (line : Nat) (e : FEnt) : (setFilter s line e).cxlUp = s.cxlUp := rfl
@[simp] theorem setFilter_cxlBytes (line : Nat) (e : FEnt) : (setFilter s line e).cxlBytes = s.cxlBytes := rfl
@[simp] theorem setFilter_scb (line : Nat) (e : FEnt) : (setFilter s line e).scb = s.scb := rfl
@[simp] theorem setFilter_queues (line : Nat) (e : FEnt) : (setFilter s line e).queues = s.queues := rfl
@[simp] theorem setFilter_cqs (line : Nat) (e : FEnt) : (setFilter s line e).cqs = s.cqs := rfl
@[simp] theorem setFilter_sems (line : Nat) (e : FEnt) : (setFilter s line e).sems = s.sems := rfl
@[simp] theorem setFilter_outs (line : Nat) (e : FEnt) : (setFilter s line e).outs = s.outs := rfl
@[simp] theorem setFilter_nextId (line : Nat) (e : FEnt) : (setFilter s line e).nextId = s.nextId := rfl
@[simp] theorem setFilter_reported (line : Nat) (e : FEnt) : (setFilter s line e).reported = s.reported := rfl
@[simp] theorem setFilter_sigs (line : Nat) (e : FEnt) : (setFilter s line e).sigs = s.sigs := rfl
@[simp] theorem setFilter_inks (line : Nat) (e : FEnt) : (setFilter s line e).inks = s.inks := rfl
@[simp] theorem setFilter_mcast (line : Nat) (e : FEnt) : (setFilter s line e).mcast = s.mcast := rfl
@[simp] theorem setFilter_duct (line : Nat) (e : FEnt) : (setFilter s line e).duct = s.duct := rfl
@[simp] theorem setFilter_nibs (line : Nat) (e : FEnt) : (setFilter s line e).nibs = s.nibs := rfl
@[simp] theorem setFilter_qdma (line : Nat) (e : FEnt) : (setFilter s line e).qdma = s.qdma := rfl
@[simp] theorem setFilter_mail (line : Nat) (e : FEnt) : (setFilter s line e).mail = s.mail := rfl
@[simp] theorem setFilter_dmas (line : Nat) (e : FEnt) : (setFilter s line e).dmas = s.dmas := rfl
@[simp] theorem setFilter_dmaTurn (line : Nat) (e : FEnt) : (setFilter s line e).dmaTurn = s.dmaTurn := rfl
@[simp] theorem setFilter_links (line : Nat) (e : FEnt) : (setFilter s line e).links = s.links := rfl
@[simp] theorem setFilter_blt (line : Nat) (e : FEnt) : (setFilter s line e).blt = s.blt := rfl
@[simp] theorem setFilter_upds (line : Nat) (e : FEnt) : (setFilter s line e).upds = s.upds := rfl
@[simp] theorem setFilter_updOrder (line : Nat) (e : FEnt) : (setFilter s line e).updOrder = s.updOrder := rfl
@[simp] theorem setFilter_pins (line : Nat) (e : FEnt) : (setFilter s line e).pins = s.pins := rfl
@[simp] theorem setFilter_bltWaits (line : Nat) (e : FEnt) : (setFilter s line e).bltWaits = s.bltWaits := rfl
@[simp] theorem setFilter_ruls (line : Nat) (e : FEnt) : (setFilter s line e).ruls = s.ruls := rfl
@[simp] theorem setFilter_badval (line : Nat) (e : FEnt) : (setFilter s line e).badval = s.badval := rfl
@[simp] theorem setFilter_probeDone (line : Nat) (e : FEnt) : (setFilter s line e).probeDone = s.probeDone := rfl
@[simp] theorem setFilter_srp (line : Nat) (e : FEnt) : (setFilter s line e).srp = s.srp := rfl
@[simp] theorem setFilter_tags (line : Nat) (e : FEnt) : (setFilter s line e).tags = s.tags := rfl
@[simp] theorem setFilter_srpEarly (line : Nat) (e : FEnt) : (setFilter s line e).srpEarly = s.srpEarly := rfl
@[simp] theorem setFilter_ports (line : Nat) (e : FEnt) : (setFilter s line e).ports = s.ports := rfl
@[simp] theorem setFilter_ctxs (line : Nat) (e : FEnt) : (setFilter s line e).ctxs = s.ctxs := rfl
@[simp] theorem setFilter_routes (line : Nat) (e : FEnt) : (setFilter s line e).routes = s.routes := rfl
@[simp] theorem setFilter_routesSh (line : Nat) (e : FEnt) : (setFilter s line e).routesSh = s.routesSh := rfl
@[simp] theorem setFilter_rings (line : Nat) (e : FEnt) : (setFilter s line e).rings = s.rings := rfl
@[simp] theorem setFilter_flows (line : Nat) (e : FEnt) : (setFilter s line e).flows = s.flows := rfl
@[simp] theorem setFilter_macUni (line : Nat) (e : FEnt) : (setFilter s line e).macUni = s.macUni := rfl
@[simp] theorem setFilter_macHash (line : Nat) (e : FEnt) : (setFilter s line e).macHash = s.macHash := rfl
@[simp] theorem setFilter_ethBad (line : Nat) (e : FEnt) : (setFilter s line e).ethBad = s.ethBad := rfl
@[simp] theorem setFilter_ethPause (line : Nat) (e : FEnt) : (setFilter s line e).ethPause = s.ethPause := rfl
@[simp] theorem setFilter_ethTag (line : Nat) (e : FEnt) : (setFilter s line e).ethTag = s.ethTag := rfl
@[simp] theorem setFilter_feeds (line : Nat) (e : FEnt) : (setFilter s line e).feeds = s.feeds := rfl
@[simp] theorem setFilter_gauges (line : Nat) (e : FEnt) : (setFilter s line e).gauges = s.gauges := rfl
@[simp] theorem setFilter_cores (line : Nat) (e : FEnt) : (setFilter s line e).cores = s.cores := rfl
@[simp] theorem setFilter_sent (line : Nat) (e : FEnt) : (setFilter s line e).sent = s.sent := rfl

/-! ### `setTrans` -/

@[simp] theorem setTrans_pending (line : Nat) (t : Trans) : (setTrans s line t).pending = s.pending := rfl
@[simp] theorem setTrans_tick (line : Nat) (t : Trans) : (setTrans s line t).tick = s.tick := rfl
@[simp] theorem setTrans_free (line : Nat) (t : Trans) : (setTrans s line t).free = s.free := rfl
@[simp] theorem setTrans_power (line : Nat) (t : Trans) : (setTrans s line t).power = s.power := rfl
@[simp] theorem setTrans_flash (line : Nat) (t : Trans) : (setTrans s line t).flash = s.flash := rfl
@[simp] theorem setTrans_col (line : Nat) (t : Trans) : (setTrans s line t).col = s.col := rfl
@[simp] theorem setTrans_drv (line : Nat) (t : Trans) : (setTrans s line t).drv = s.drv := rfl
@[simp] theorem setTrans_frames (line : Nat) (t : Trans) : (setTrans s line t).frames = s.frames := rfl
@[simp] theorem setTrans_regs (line : Nat) (t : Trans) : (setTrans s line t).regs = s.regs := rfl
@[simp] theorem setTrans_act (line : Nat) (t : Trans) : (setTrans s line t).act = s.act := rfl
@[simp] theorem setTrans_mem (line : Nat) (t : Trans) : (setTrans s line t).mem = s.mem := rfl
@[simp] theorem setTrans_ecc (line : Nat) (t : Trans) : (setTrans s line t).ecc = s.ecc := rfl
@[simp] theorem setTrans_res (line : Nat) (t : Trans) : (setTrans s line t).res = s.res := rfl
@[simp] theorem setTrans_resEcc (line : Nat) (t : Trans) : (setTrans s line t).resEcc = s.resEcc := rfl
@[simp] theorem setTrans_stale (line : Nat) (t : Trans) : (setTrans s line t).stale = s.stale := rfl
@[simp] theorem setTrans_scrubPos (line : Nat) (t : Trans) : (setTrans s line t).scrubPos = s.scrubPos := rfl
@[simp] theorem setTrans_bias (line : Nat) (t : Trans) : (setTrans s line t).bias = s.bias := rfl
@[simp] theorem setTrans_xlt (line : Nat) (t : Trans) : (setTrans s line t).xlt = s.xlt := rfl
@[simp] theorem setTrans_xltNodes (line : Nat) (t : Trans) : (setTrans s line t).xltNodes = s.xltNodes := rfl
@[simp] theorem setTrans_invals (line : Nat) (t : Trans) : (setTrans s line t).invals = s.invals := rfl
@[simp] theorem setTrans_cxl (line : Nat) (t : Trans) : (setTrans s line t).cxl = s.cxl := rfl
@[simp] theorem setTrans_cxlUp (line : Nat) (t : Trans) : (setTrans s line t).cxlUp = s.cxlUp := rfl
@[simp] theorem setTrans_cxlBytes (line : Nat) (t : Trans) : (setTrans s line t).cxlBytes = s.cxlBytes := rfl
@[simp] theorem setTrans_scb (line : Nat) (t : Trans) : (setTrans s line t).scb = s.scb := rfl
@[simp] theorem setTrans_queues (line : Nat) (t : Trans) : (setTrans s line t).queues = s.queues := rfl
@[simp] theorem setTrans_cqs (line : Nat) (t : Trans) : (setTrans s line t).cqs = s.cqs := rfl
@[simp] theorem setTrans_sems (line : Nat) (t : Trans) : (setTrans s line t).sems = s.sems := rfl
@[simp] theorem setTrans_outs (line : Nat) (t : Trans) : (setTrans s line t).outs = s.outs := rfl
@[simp] theorem setTrans_nextId (line : Nat) (t : Trans) : (setTrans s line t).nextId = s.nextId := rfl
@[simp] theorem setTrans_reported (line : Nat) (t : Trans) : (setTrans s line t).reported = s.reported := rfl
@[simp] theorem setTrans_sigs (line : Nat) (t : Trans) : (setTrans s line t).sigs = s.sigs := rfl
@[simp] theorem setTrans_inks (line : Nat) (t : Trans) : (setTrans s line t).inks = s.inks := rfl
@[simp] theorem setTrans_mcast (line : Nat) (t : Trans) : (setTrans s line t).mcast = s.mcast := rfl
@[simp] theorem setTrans_duct (line : Nat) (t : Trans) : (setTrans s line t).duct = s.duct := rfl
@[simp] theorem setTrans_nibs (line : Nat) (t : Trans) : (setTrans s line t).nibs = s.nibs := rfl
@[simp] theorem setTrans_qdma (line : Nat) (t : Trans) : (setTrans s line t).qdma = s.qdma := rfl
@[simp] theorem setTrans_mail (line : Nat) (t : Trans) : (setTrans s line t).mail = s.mail := rfl
@[simp] theorem setTrans_dmas (line : Nat) (t : Trans) : (setTrans s line t).dmas = s.dmas := rfl
@[simp] theorem setTrans_dmaTurn (line : Nat) (t : Trans) : (setTrans s line t).dmaTurn = s.dmaTurn := rfl
@[simp] theorem setTrans_links (line : Nat) (t : Trans) : (setTrans s line t).links = s.links := rfl
@[simp] theorem setTrans_blt (line : Nat) (t : Trans) : (setTrans s line t).blt = s.blt := rfl
@[simp] theorem setTrans_upds (line : Nat) (t : Trans) : (setTrans s line t).upds = s.upds := rfl
@[simp] theorem setTrans_updOrder (line : Nat) (t : Trans) : (setTrans s line t).updOrder = s.updOrder := rfl
@[simp] theorem setTrans_pins (line : Nat) (t : Trans) : (setTrans s line t).pins = s.pins := rfl
@[simp] theorem setTrans_bltWaits (line : Nat) (t : Trans) : (setTrans s line t).bltWaits = s.bltWaits := rfl
@[simp] theorem setTrans_ruls (line : Nat) (t : Trans) : (setTrans s line t).ruls = s.ruls := rfl
@[simp] theorem setTrans_badval (line : Nat) (t : Trans) : (setTrans s line t).badval = s.badval := rfl
@[simp] theorem setTrans_probeDone (line : Nat) (t : Trans) : (setTrans s line t).probeDone = s.probeDone := rfl
@[simp] theorem setTrans_srp (line : Nat) (t : Trans) : (setTrans s line t).srp = s.srp := rfl
@[simp] theorem setTrans_tags (line : Nat) (t : Trans) : (setTrans s line t).tags = s.tags := rfl
@[simp] theorem setTrans_srpEarly (line : Nat) (t : Trans) : (setTrans s line t).srpEarly = s.srpEarly := rfl
@[simp] theorem setTrans_ports (line : Nat) (t : Trans) : (setTrans s line t).ports = s.ports := rfl
@[simp] theorem setTrans_ctxs (line : Nat) (t : Trans) : (setTrans s line t).ctxs = s.ctxs := rfl
@[simp] theorem setTrans_routes (line : Nat) (t : Trans) : (setTrans s line t).routes = s.routes := rfl
@[simp] theorem setTrans_routesSh (line : Nat) (t : Trans) : (setTrans s line t).routesSh = s.routesSh := rfl
@[simp] theorem setTrans_rings (line : Nat) (t : Trans) : (setTrans s line t).rings = s.rings := rfl
@[simp] theorem setTrans_flows (line : Nat) (t : Trans) : (setTrans s line t).flows = s.flows := rfl
@[simp] theorem setTrans_macUni (line : Nat) (t : Trans) : (setTrans s line t).macUni = s.macUni := rfl
@[simp] theorem setTrans_macHash (line : Nat) (t : Trans) : (setTrans s line t).macHash = s.macHash := rfl
@[simp] theorem setTrans_ethBad (line : Nat) (t : Trans) : (setTrans s line t).ethBad = s.ethBad := rfl
@[simp] theorem setTrans_ethPause (line : Nat) (t : Trans) : (setTrans s line t).ethPause = s.ethPause := rfl
@[simp] theorem setTrans_ethTag (line : Nat) (t : Trans) : (setTrans s line t).ethTag = s.ethTag := rfl
@[simp] theorem setTrans_feeds (line : Nat) (t : Trans) : (setTrans s line t).feeds = s.feeds := rfl
@[simp] theorem setTrans_gauges (line : Nat) (t : Trans) : (setTrans s line t).gauges = s.gauges := rfl
@[simp] theorem setTrans_cores (line : Nat) (t : Trans) : (setTrans s line t).cores = s.cores := rfl
@[simp] theorem setTrans_sent (line : Nat) (t : Trans) : (setTrans s line t).sent = s.sent := rfl

/-! ### `setPoison` -/

@[simp] theorem setPoison_pending (line : Nat) (p : Bool) : (setPoison s line p).pending = s.pending := rfl
@[simp] theorem setPoison_tick (line : Nat) (p : Bool) : (setPoison s line p).tick = s.tick := rfl
@[simp] theorem setPoison_free (line : Nat) (p : Bool) : (setPoison s line p).free = s.free := rfl
@[simp] theorem setPoison_power (line : Nat) (p : Bool) : (setPoison s line p).power = s.power := rfl
@[simp] theorem setPoison_flash (line : Nat) (p : Bool) : (setPoison s line p).flash = s.flash := rfl
@[simp] theorem setPoison_col (line : Nat) (p : Bool) : (setPoison s line p).col = s.col := rfl
@[simp] theorem setPoison_drv (line : Nat) (p : Bool) : (setPoison s line p).drv = s.drv := rfl
@[simp] theorem setPoison_frames (line : Nat) (p : Bool) : (setPoison s line p).frames = s.frames := rfl
@[simp] theorem setPoison_regs (line : Nat) (p : Bool) : (setPoison s line p).regs = s.regs := rfl
@[simp] theorem setPoison_act (line : Nat) (p : Bool) : (setPoison s line p).act = s.act := rfl
@[simp] theorem setPoison_ecc (line : Nat) (p : Bool) : (setPoison s line p).ecc = s.ecc := rfl
@[simp] theorem setPoison_res (line : Nat) (p : Bool) : (setPoison s line p).res = s.res := rfl
@[simp] theorem setPoison_resEcc (line : Nat) (p : Bool) : (setPoison s line p).resEcc = s.resEcc := rfl
@[simp] theorem setPoison_stale (line : Nat) (p : Bool) : (setPoison s line p).stale = s.stale := rfl
@[simp] theorem setPoison_scrubPos (line : Nat) (p : Bool) : (setPoison s line p).scrubPos = s.scrubPos := rfl
@[simp] theorem setPoison_bias (line : Nat) (p : Bool) : (setPoison s line p).bias = s.bias := rfl
@[simp] theorem setPoison_xlt (line : Nat) (p : Bool) : (setPoison s line p).xlt = s.xlt := rfl
@[simp] theorem setPoison_xltNodes (line : Nat) (p : Bool) : (setPoison s line p).xltNodes = s.xltNodes := rfl
@[simp] theorem setPoison_invals (line : Nat) (p : Bool) : (setPoison s line p).invals = s.invals := rfl
@[simp] theorem setPoison_cxl (line : Nat) (p : Bool) : (setPoison s line p).cxl = s.cxl := rfl
@[simp] theorem setPoison_cxlUp (line : Nat) (p : Bool) : (setPoison s line p).cxlUp = s.cxlUp := rfl
@[simp] theorem setPoison_cxlBytes (line : Nat) (p : Bool) : (setPoison s line p).cxlBytes = s.cxlBytes := rfl
@[simp] theorem setPoison_scb (line : Nat) (p : Bool) : (setPoison s line p).scb = s.scb := rfl
@[simp] theorem setPoison_queues (line : Nat) (p : Bool) : (setPoison s line p).queues = s.queues := rfl
@[simp] theorem setPoison_cqs (line : Nat) (p : Bool) : (setPoison s line p).cqs = s.cqs := rfl
@[simp] theorem setPoison_sems (line : Nat) (p : Bool) : (setPoison s line p).sems = s.sems := rfl
@[simp] theorem setPoison_outs (line : Nat) (p : Bool) : (setPoison s line p).outs = s.outs := rfl
@[simp] theorem setPoison_nextId (line : Nat) (p : Bool) : (setPoison s line p).nextId = s.nextId := rfl
@[simp] theorem setPoison_reported (line : Nat) (p : Bool) : (setPoison s line p).reported = s.reported := rfl
@[simp] theorem setPoison_sigs (line : Nat) (p : Bool) : (setPoison s line p).sigs = s.sigs := rfl
@[simp] theorem setPoison_inks (line : Nat) (p : Bool) : (setPoison s line p).inks = s.inks := rfl
@[simp] theorem setPoison_mcast (line : Nat) (p : Bool) : (setPoison s line p).mcast = s.mcast := rfl
@[simp] theorem setPoison_duct (line : Nat) (p : Bool) : (setPoison s line p).duct = s.duct := rfl
@[simp] theorem setPoison_nibs (line : Nat) (p : Bool) : (setPoison s line p).nibs = s.nibs := rfl
@[simp] theorem setPoison_qdma (line : Nat) (p : Bool) : (setPoison s line p).qdma = s.qdma := rfl
@[simp] theorem setPoison_mail (line : Nat) (p : Bool) : (setPoison s line p).mail = s.mail := rfl
@[simp] theorem setPoison_dmas (line : Nat) (p : Bool) : (setPoison s line p).dmas = s.dmas := rfl
@[simp] theorem setPoison_dmaTurn (line : Nat) (p : Bool) : (setPoison s line p).dmaTurn = s.dmaTurn := rfl
@[simp] theorem setPoison_links (line : Nat) (p : Bool) : (setPoison s line p).links = s.links := rfl
@[simp] theorem setPoison_blt (line : Nat) (p : Bool) : (setPoison s line p).blt = s.blt := rfl
@[simp] theorem setPoison_upds (line : Nat) (p : Bool) : (setPoison s line p).upds = s.upds := rfl
@[simp] theorem setPoison_updOrder (line : Nat) (p : Bool) : (setPoison s line p).updOrder = s.updOrder := rfl
@[simp] theorem setPoison_pins (line : Nat) (p : Bool) : (setPoison s line p).pins = s.pins := rfl
@[simp] theorem setPoison_bltWaits (line : Nat) (p : Bool) : (setPoison s line p).bltWaits = s.bltWaits := rfl
@[simp] theorem setPoison_ruls (line : Nat) (p : Bool) : (setPoison s line p).ruls = s.ruls := rfl
@[simp] theorem setPoison_badval (line : Nat) (p : Bool) : (setPoison s line p).badval = s.badval := rfl
@[simp] theorem setPoison_probeDone (line : Nat) (p : Bool) : (setPoison s line p).probeDone = s.probeDone := rfl
@[simp] theorem setPoison_srp (line : Nat) (p : Bool) : (setPoison s line p).srp = s.srp := rfl
@[simp] theorem setPoison_tags (line : Nat) (p : Bool) : (setPoison s line p).tags = s.tags := rfl
@[simp] theorem setPoison_srpEarly (line : Nat) (p : Bool) : (setPoison s line p).srpEarly = s.srpEarly := rfl
@[simp] theorem setPoison_coh (line : Nat) (p : Bool) : (setPoison s line p).coh = s.coh := rfl
@[simp] theorem setPoison_ports (line : Nat) (p : Bool) : (setPoison s line p).ports = s.ports := rfl
@[simp] theorem setPoison_ctxs (line : Nat) (p : Bool) : (setPoison s line p).ctxs = s.ctxs := rfl
@[simp] theorem setPoison_routes (line : Nat) (p : Bool) : (setPoison s line p).routes = s.routes := rfl
@[simp] theorem setPoison_routesSh (line : Nat) (p : Bool) : (setPoison s line p).routesSh = s.routesSh := rfl
@[simp] theorem setPoison_rings (line : Nat) (p : Bool) : (setPoison s line p).rings = s.rings := rfl
@[simp] theorem setPoison_flows (line : Nat) (p : Bool) : (setPoison s line p).flows = s.flows := rfl
@[simp] theorem setPoison_macUni (line : Nat) (p : Bool) : (setPoison s line p).macUni = s.macUni := rfl
@[simp] theorem setPoison_macHash (line : Nat) (p : Bool) : (setPoison s line p).macHash = s.macHash := rfl
@[simp] theorem setPoison_ethBad (line : Nat) (p : Bool) : (setPoison s line p).ethBad = s.ethBad := rfl
@[simp] theorem setPoison_ethPause (line : Nat) (p : Bool) : (setPoison s line p).ethPause = s.ethPause := rfl
@[simp] theorem setPoison_ethTag (line : Nat) (p : Bool) : (setPoison s line p).ethTag = s.ethTag := rfl
@[simp] theorem setPoison_feeds (line : Nat) (p : Bool) : (setPoison s line p).feeds = s.feeds := rfl
@[simp] theorem setPoison_gauges (line : Nat) (p : Bool) : (setPoison s line p).gauges = s.gauges := rfl
@[simp] theorem setPoison_cores (line : Nat) (p : Bool) : (setPoison s line p).cores = s.cores := rfl
@[simp] theorem setPoison_sent (line : Nat) (p : Bool) : (setPoison s line p).sent = s.sent := rfl

/-! ### `setEcc` -/

@[simp] theorem setEcc_pending (w : Nat) (n : Nat) : (setEcc s w n).pending = s.pending := rfl
@[simp] theorem setEcc_tick (w : Nat) (n : Nat) : (setEcc s w n).tick = s.tick := rfl
@[simp] theorem setEcc_free (w : Nat) (n : Nat) : (setEcc s w n).free = s.free := rfl
@[simp] theorem setEcc_power (w : Nat) (n : Nat) : (setEcc s w n).power = s.power := rfl
@[simp] theorem setEcc_flash (w : Nat) (n : Nat) : (setEcc s w n).flash = s.flash := rfl
@[simp] theorem setEcc_col (w : Nat) (n : Nat) : (setEcc s w n).col = s.col := rfl
@[simp] theorem setEcc_drv (w : Nat) (n : Nat) : (setEcc s w n).drv = s.drv := rfl
@[simp] theorem setEcc_frames (w : Nat) (n : Nat) : (setEcc s w n).frames = s.frames := rfl
@[simp] theorem setEcc_regs (w : Nat) (n : Nat) : (setEcc s w n).regs = s.regs := rfl
@[simp] theorem setEcc_act (w : Nat) (n : Nat) : (setEcc s w n).act = s.act := rfl
@[simp] theorem setEcc_mem (w : Nat) (n : Nat) : (setEcc s w n).mem = s.mem := rfl
@[simp] theorem setEcc_res (w : Nat) (n : Nat) : (setEcc s w n).res = s.res := rfl
@[simp] theorem setEcc_resEcc (w : Nat) (n : Nat) : (setEcc s w n).resEcc = s.resEcc := rfl
@[simp] theorem setEcc_stale (w : Nat) (n : Nat) : (setEcc s w n).stale = s.stale := rfl
@[simp] theorem setEcc_scrubPos (w : Nat) (n : Nat) : (setEcc s w n).scrubPos = s.scrubPos := rfl
@[simp] theorem setEcc_bias (w : Nat) (n : Nat) : (setEcc s w n).bias = s.bias := rfl
@[simp] theorem setEcc_xlt (w : Nat) (n : Nat) : (setEcc s w n).xlt = s.xlt := rfl
@[simp] theorem setEcc_xltNodes (w : Nat) (n : Nat) : (setEcc s w n).xltNodes = s.xltNodes := rfl
@[simp] theorem setEcc_invals (w : Nat) (n : Nat) : (setEcc s w n).invals = s.invals := rfl
@[simp] theorem setEcc_cxl (w : Nat) (n : Nat) : (setEcc s w n).cxl = s.cxl := rfl
@[simp] theorem setEcc_cxlUp (w : Nat) (n : Nat) : (setEcc s w n).cxlUp = s.cxlUp := rfl
@[simp] theorem setEcc_cxlBytes (w : Nat) (n : Nat) : (setEcc s w n).cxlBytes = s.cxlBytes := rfl
@[simp] theorem setEcc_scb (w : Nat) (n : Nat) : (setEcc s w n).scb = s.scb := rfl
@[simp] theorem setEcc_queues (w : Nat) (n : Nat) : (setEcc s w n).queues = s.queues := rfl
@[simp] theorem setEcc_cqs (w : Nat) (n : Nat) : (setEcc s w n).cqs = s.cqs := rfl
@[simp] theorem setEcc_sems (w : Nat) (n : Nat) : (setEcc s w n).sems = s.sems := rfl
@[simp] theorem setEcc_outs (w : Nat) (n : Nat) : (setEcc s w n).outs = s.outs := rfl
@[simp] theorem setEcc_nextId (w : Nat) (n : Nat) : (setEcc s w n).nextId = s.nextId := rfl
@[simp] theorem setEcc_reported (w : Nat) (n : Nat) : (setEcc s w n).reported = s.reported := rfl
@[simp] theorem setEcc_sigs (w : Nat) (n : Nat) : (setEcc s w n).sigs = s.sigs := rfl
@[simp] theorem setEcc_inks (w : Nat) (n : Nat) : (setEcc s w n).inks = s.inks := rfl
@[simp] theorem setEcc_mcast (w : Nat) (n : Nat) : (setEcc s w n).mcast = s.mcast := rfl
@[simp] theorem setEcc_duct (w : Nat) (n : Nat) : (setEcc s w n).duct = s.duct := rfl
@[simp] theorem setEcc_nibs (w : Nat) (n : Nat) : (setEcc s w n).nibs = s.nibs := rfl
@[simp] theorem setEcc_qdma (w : Nat) (n : Nat) : (setEcc s w n).qdma = s.qdma := rfl
@[simp] theorem setEcc_mail (w : Nat) (n : Nat) : (setEcc s w n).mail = s.mail := rfl
@[simp] theorem setEcc_dmas (w : Nat) (n : Nat) : (setEcc s w n).dmas = s.dmas := rfl
@[simp] theorem setEcc_dmaTurn (w : Nat) (n : Nat) : (setEcc s w n).dmaTurn = s.dmaTurn := rfl
@[simp] theorem setEcc_links (w : Nat) (n : Nat) : (setEcc s w n).links = s.links := rfl
@[simp] theorem setEcc_blt (w : Nat) (n : Nat) : (setEcc s w n).blt = s.blt := rfl
@[simp] theorem setEcc_upds (w : Nat) (n : Nat) : (setEcc s w n).upds = s.upds := rfl
@[simp] theorem setEcc_updOrder (w : Nat) (n : Nat) : (setEcc s w n).updOrder = s.updOrder := rfl
@[simp] theorem setEcc_pins (w : Nat) (n : Nat) : (setEcc s w n).pins = s.pins := rfl
@[simp] theorem setEcc_bltWaits (w : Nat) (n : Nat) : (setEcc s w n).bltWaits = s.bltWaits := rfl
@[simp] theorem setEcc_ruls (w : Nat) (n : Nat) : (setEcc s w n).ruls = s.ruls := rfl
@[simp] theorem setEcc_badval (w : Nat) (n : Nat) : (setEcc s w n).badval = s.badval := rfl
@[simp] theorem setEcc_probeDone (w : Nat) (n : Nat) : (setEcc s w n).probeDone = s.probeDone := rfl
@[simp] theorem setEcc_srp (w : Nat) (n : Nat) : (setEcc s w n).srp = s.srp := rfl
@[simp] theorem setEcc_tags (w : Nat) (n : Nat) : (setEcc s w n).tags = s.tags := rfl
@[simp] theorem setEcc_srpEarly (w : Nat) (n : Nat) : (setEcc s w n).srpEarly = s.srpEarly := rfl
@[simp] theorem setEcc_coh (w : Nat) (n : Nat) : (setEcc s w n).coh = s.coh := rfl
@[simp] theorem setEcc_ports (w : Nat) (n : Nat) : (setEcc s w n).ports = s.ports := rfl
@[simp] theorem setEcc_ctxs (w : Nat) (n : Nat) : (setEcc s w n).ctxs = s.ctxs := rfl
@[simp] theorem setEcc_routes (w : Nat) (n : Nat) : (setEcc s w n).routes = s.routes := rfl
@[simp] theorem setEcc_routesSh (w : Nat) (n : Nat) : (setEcc s w n).routesSh = s.routesSh := rfl
@[simp] theorem setEcc_rings (w : Nat) (n : Nat) : (setEcc s w n).rings = s.rings := rfl
@[simp] theorem setEcc_flows (w : Nat) (n : Nat) : (setEcc s w n).flows = s.flows := rfl
@[simp] theorem setEcc_macUni (w : Nat) (n : Nat) : (setEcc s w n).macUni = s.macUni := rfl
@[simp] theorem setEcc_macHash (w : Nat) (n : Nat) : (setEcc s w n).macHash = s.macHash := rfl
@[simp] theorem setEcc_ethBad (w : Nat) (n : Nat) : (setEcc s w n).ethBad = s.ethBad := rfl
@[simp] theorem setEcc_ethPause (w : Nat) (n : Nat) : (setEcc s w n).ethPause = s.ethPause := rfl
@[simp] theorem setEcc_ethTag (w : Nat) (n : Nat) : (setEcc s w n).ethTag = s.ethTag := rfl
@[simp] theorem setEcc_feeds (w : Nat) (n : Nat) : (setEcc s w n).feeds = s.feeds := rfl
@[simp] theorem setEcc_gauges (w : Nat) (n : Nat) : (setEcc s w n).gauges = s.gauges := rfl
@[simp] theorem setEcc_cores (w : Nat) (n : Nat) : (setEcc s w n).cores = s.cores := rfl
@[simp] theorem setEcc_sent (w : Nat) (n : Nat) : (setEcc s w n).sent = s.sent := rfl

/-! ### `gaugeClr` -/

@[simp] theorem gaugeClr_pending (key : Nat) : (gaugeClr s key).pending = s.pending := rfl
@[simp] theorem gaugeClr_tick (key : Nat) : (gaugeClr s key).tick = s.tick := rfl
@[simp] theorem gaugeClr_free (key : Nat) : (gaugeClr s key).free = s.free := rfl
@[simp] theorem gaugeClr_power (key : Nat) : (gaugeClr s key).power = s.power := rfl
@[simp] theorem gaugeClr_flash (key : Nat) : (gaugeClr s key).flash = s.flash := rfl
@[simp] theorem gaugeClr_col (key : Nat) : (gaugeClr s key).col = s.col := rfl
@[simp] theorem gaugeClr_drv (key : Nat) : (gaugeClr s key).drv = s.drv := rfl
@[simp] theorem gaugeClr_frames (key : Nat) : (gaugeClr s key).frames = s.frames := rfl
@[simp] theorem gaugeClr_regs (key : Nat) : (gaugeClr s key).regs = s.regs := rfl
@[simp] theorem gaugeClr_act (key : Nat) : (gaugeClr s key).act = s.act := rfl
@[simp] theorem gaugeClr_mem (key : Nat) : (gaugeClr s key).mem = s.mem := rfl
@[simp] theorem gaugeClr_ecc (key : Nat) : (gaugeClr s key).ecc = s.ecc := rfl
@[simp] theorem gaugeClr_res (key : Nat) : (gaugeClr s key).res = s.res := rfl
@[simp] theorem gaugeClr_resEcc (key : Nat) : (gaugeClr s key).resEcc = s.resEcc := rfl
@[simp] theorem gaugeClr_stale (key : Nat) : (gaugeClr s key).stale = s.stale := rfl
@[simp] theorem gaugeClr_scrubPos (key : Nat) : (gaugeClr s key).scrubPos = s.scrubPos := rfl
@[simp] theorem gaugeClr_bias (key : Nat) : (gaugeClr s key).bias = s.bias := rfl
@[simp] theorem gaugeClr_xlt (key : Nat) : (gaugeClr s key).xlt = s.xlt := rfl
@[simp] theorem gaugeClr_xltNodes (key : Nat) : (gaugeClr s key).xltNodes = s.xltNodes := rfl
@[simp] theorem gaugeClr_invals (key : Nat) : (gaugeClr s key).invals = s.invals := rfl
@[simp] theorem gaugeClr_cxl (key : Nat) : (gaugeClr s key).cxl = s.cxl := rfl
@[simp] theorem gaugeClr_cxlUp (key : Nat) : (gaugeClr s key).cxlUp = s.cxlUp := rfl
@[simp] theorem gaugeClr_cxlBytes (key : Nat) : (gaugeClr s key).cxlBytes = s.cxlBytes := rfl
@[simp] theorem gaugeClr_scb (key : Nat) : (gaugeClr s key).scb = s.scb := rfl
@[simp] theorem gaugeClr_queues (key : Nat) : (gaugeClr s key).queues = s.queues := rfl
@[simp] theorem gaugeClr_cqs (key : Nat) : (gaugeClr s key).cqs = s.cqs := rfl
@[simp] theorem gaugeClr_sems (key : Nat) : (gaugeClr s key).sems = s.sems := rfl
@[simp] theorem gaugeClr_outs (key : Nat) : (gaugeClr s key).outs = s.outs := rfl
@[simp] theorem gaugeClr_nextId (key : Nat) : (gaugeClr s key).nextId = s.nextId := rfl
@[simp] theorem gaugeClr_reported (key : Nat) : (gaugeClr s key).reported = s.reported := rfl
@[simp] theorem gaugeClr_sigs (key : Nat) : (gaugeClr s key).sigs = s.sigs := rfl
@[simp] theorem gaugeClr_inks (key : Nat) : (gaugeClr s key).inks = s.inks := rfl
@[simp] theorem gaugeClr_mcast (key : Nat) : (gaugeClr s key).mcast = s.mcast := rfl
@[simp] theorem gaugeClr_duct (key : Nat) : (gaugeClr s key).duct = s.duct := rfl
@[simp] theorem gaugeClr_nibs (key : Nat) : (gaugeClr s key).nibs = s.nibs := rfl
@[simp] theorem gaugeClr_qdma (key : Nat) : (gaugeClr s key).qdma = s.qdma := rfl
@[simp] theorem gaugeClr_mail (key : Nat) : (gaugeClr s key).mail = s.mail := rfl
@[simp] theorem gaugeClr_dmas (key : Nat) : (gaugeClr s key).dmas = s.dmas := rfl
@[simp] theorem gaugeClr_dmaTurn (key : Nat) : (gaugeClr s key).dmaTurn = s.dmaTurn := rfl
@[simp] theorem gaugeClr_links (key : Nat) : (gaugeClr s key).links = s.links := rfl
@[simp] theorem gaugeClr_blt (key : Nat) : (gaugeClr s key).blt = s.blt := rfl
@[simp] theorem gaugeClr_upds (key : Nat) : (gaugeClr s key).upds = s.upds := rfl
@[simp] theorem gaugeClr_updOrder (key : Nat) : (gaugeClr s key).updOrder = s.updOrder := rfl
@[simp] theorem gaugeClr_pins (key : Nat) : (gaugeClr s key).pins = s.pins := rfl
@[simp] theorem gaugeClr_bltWaits (key : Nat) : (gaugeClr s key).bltWaits = s.bltWaits := rfl
@[simp] theorem gaugeClr_ruls (key : Nat) : (gaugeClr s key).ruls = s.ruls := rfl
@[simp] theorem gaugeClr_badval (key : Nat) : (gaugeClr s key).badval = s.badval := rfl
@[simp] theorem gaugeClr_probeDone (key : Nat) : (gaugeClr s key).probeDone = s.probeDone := rfl
@[simp] theorem gaugeClr_srp (key : Nat) : (gaugeClr s key).srp = s.srp := rfl
@[simp] theorem gaugeClr_tags (key : Nat) : (gaugeClr s key).tags = s.tags := rfl
@[simp] theorem gaugeClr_srpEarly (key : Nat) : (gaugeClr s key).srpEarly = s.srpEarly := rfl
@[simp] theorem gaugeClr_coh (key : Nat) : (gaugeClr s key).coh = s.coh := rfl
@[simp] theorem gaugeClr_ports (key : Nat) : (gaugeClr s key).ports = s.ports := rfl
@[simp] theorem gaugeClr_ctxs (key : Nat) : (gaugeClr s key).ctxs = s.ctxs := rfl
@[simp] theorem gaugeClr_routes (key : Nat) : (gaugeClr s key).routes = s.routes := rfl
@[simp] theorem gaugeClr_routesSh (key : Nat) : (gaugeClr s key).routesSh = s.routesSh := rfl
@[simp] theorem gaugeClr_rings (key : Nat) : (gaugeClr s key).rings = s.rings := rfl
@[simp] theorem gaugeClr_flows (key : Nat) : (gaugeClr s key).flows = s.flows := rfl
@[simp] theorem gaugeClr_macUni (key : Nat) : (gaugeClr s key).macUni = s.macUni := rfl
@[simp] theorem gaugeClr_macHash (key : Nat) : (gaugeClr s key).macHash = s.macHash := rfl
@[simp] theorem gaugeClr_ethBad (key : Nat) : (gaugeClr s key).ethBad = s.ethBad := rfl
@[simp] theorem gaugeClr_ethPause (key : Nat) : (gaugeClr s key).ethPause = s.ethPause := rfl
@[simp] theorem gaugeClr_ethTag (key : Nat) : (gaugeClr s key).ethTag = s.ethTag := rfl
@[simp] theorem gaugeClr_feeds (key : Nat) : (gaugeClr s key).feeds = s.feeds := rfl
@[simp] theorem gaugeClr_gauges (key : Nat) : (gaugeClr s key).gauges = sdel s.gauges key := rfl
@[simp] theorem gaugeClr_cores (key : Nat) : (gaugeClr s key).cores = s.cores := rfl
@[simp] theorem gaugeClr_sent (key : Nat) : (gaugeClr s key).sent = s.sent := rfl

/-! ### `send` -/

@[simp] theorem send_pending (m : Sent) : (send s m).pending = s.pending := rfl
@[simp] theorem send_tick (m : Sent) : (send s m).tick = s.tick := rfl
@[simp] theorem send_free (m : Sent) : (send s m).free = s.free := rfl
@[simp] theorem send_power (m : Sent) : (send s m).power = s.power := rfl
@[simp] theorem send_flash (m : Sent) : (send s m).flash = s.flash := rfl
@[simp] theorem send_col (m : Sent) : (send s m).col = s.col := rfl
@[simp] theorem send_drv (m : Sent) : (send s m).drv = s.drv := rfl
@[simp] theorem send_frames (m : Sent) : (send s m).frames = s.frames := rfl
@[simp] theorem send_regs (m : Sent) : (send s m).regs = s.regs := rfl
@[simp] theorem send_act (m : Sent) : (send s m).act = s.act := rfl
@[simp] theorem send_mem (m : Sent) : (send s m).mem = s.mem := rfl
@[simp] theorem send_ecc (m : Sent) : (send s m).ecc = s.ecc := rfl
@[simp] theorem send_res (m : Sent) : (send s m).res = s.res := rfl
@[simp] theorem send_resEcc (m : Sent) : (send s m).resEcc = s.resEcc := rfl
@[simp] theorem send_stale (m : Sent) : (send s m).stale = s.stale := rfl
@[simp] theorem send_scrubPos (m : Sent) : (send s m).scrubPos = s.scrubPos := rfl
@[simp] theorem send_bias (m : Sent) : (send s m).bias = s.bias := rfl
@[simp] theorem send_xlt (m : Sent) : (send s m).xlt = s.xlt := rfl
@[simp] theorem send_xltNodes (m : Sent) : (send s m).xltNodes = s.xltNodes := rfl
@[simp] theorem send_invals (m : Sent) : (send s m).invals = s.invals := rfl
@[simp] theorem send_cxl (m : Sent) : (send s m).cxl = s.cxl := rfl
@[simp] theorem send_cxlUp (m : Sent) : (send s m).cxlUp = s.cxlUp := rfl
@[simp] theorem send_cxlBytes (m : Sent) : (send s m).cxlBytes = s.cxlBytes := rfl
@[simp] theorem send_scb (m : Sent) : (send s m).scb = s.scb := rfl
@[simp] theorem send_queues (m : Sent) : (send s m).queues = s.queues := rfl
@[simp] theorem send_cqs (m : Sent) : (send s m).cqs = s.cqs := rfl
@[simp] theorem send_sems (m : Sent) : (send s m).sems = s.sems := rfl
@[simp] theorem send_outs (m : Sent) : (send s m).outs = s.outs := rfl
@[simp] theorem send_nextId (m : Sent) : (send s m).nextId = s.nextId := rfl
@[simp] theorem send_reported (m : Sent) : (send s m).reported = s.reported := rfl
@[simp] theorem send_sigs (m : Sent) : (send s m).sigs = s.sigs := rfl
@[simp] theorem send_inks (m : Sent) : (send s m).inks = s.inks := rfl
@[simp] theorem send_mcast (m : Sent) : (send s m).mcast = s.mcast := rfl
@[simp] theorem send_duct (m : Sent) : (send s m).duct = s.duct := rfl
@[simp] theorem send_nibs (m : Sent) : (send s m).nibs = s.nibs := rfl
@[simp] theorem send_qdma (m : Sent) : (send s m).qdma = s.qdma := rfl
@[simp] theorem send_mail (m : Sent) : (send s m).mail = s.mail := rfl
@[simp] theorem send_dmas (m : Sent) : (send s m).dmas = s.dmas := rfl
@[simp] theorem send_dmaTurn (m : Sent) : (send s m).dmaTurn = s.dmaTurn := rfl
@[simp] theorem send_links (m : Sent) : (send s m).links = s.links := rfl
@[simp] theorem send_blt (m : Sent) : (send s m).blt = s.blt := rfl
@[simp] theorem send_upds (m : Sent) : (send s m).upds = s.upds := rfl
@[simp] theorem send_updOrder (m : Sent) : (send s m).updOrder = s.updOrder := rfl
@[simp] theorem send_pins (m : Sent) : (send s m).pins = s.pins := rfl
@[simp] theorem send_bltWaits (m : Sent) : (send s m).bltWaits = s.bltWaits := rfl
@[simp] theorem send_ruls (m : Sent) : (send s m).ruls = s.ruls := rfl
@[simp] theorem send_badval (m : Sent) : (send s m).badval = s.badval := rfl
@[simp] theorem send_probeDone (m : Sent) : (send s m).probeDone = s.probeDone := rfl
@[simp] theorem send_srp (m : Sent) : (send s m).srp = s.srp := rfl
@[simp] theorem send_tags (m : Sent) : (send s m).tags = s.tags := rfl
@[simp] theorem send_srpEarly (m : Sent) : (send s m).srpEarly = s.srpEarly := rfl
@[simp] theorem send_coh (m : Sent) : (send s m).coh = s.coh := rfl
@[simp] theorem send_ports (m : Sent) : (send s m).ports = s.ports := rfl
@[simp] theorem send_ctxs (m : Sent) : (send s m).ctxs = s.ctxs := rfl
@[simp] theorem send_routes (m : Sent) : (send s m).routes = s.routes := rfl
@[simp] theorem send_routesSh (m : Sent) : (send s m).routesSh = s.routesSh := rfl
@[simp] theorem send_rings (m : Sent) : (send s m).rings = s.rings := rfl
@[simp] theorem send_flows (m : Sent) : (send s m).flows = s.flows := rfl
@[simp] theorem send_macUni (m : Sent) : (send s m).macUni = s.macUni := rfl
@[simp] theorem send_macHash (m : Sent) : (send s m).macHash = s.macHash := rfl
@[simp] theorem send_ethBad (m : Sent) : (send s m).ethBad = s.ethBad := rfl
@[simp] theorem send_ethPause (m : Sent) : (send s m).ethPause = s.ethPause := rfl
@[simp] theorem send_ethTag (m : Sent) : (send s m).ethTag = s.ethTag := rfl
@[simp] theorem send_feeds (m : Sent) : (send s m).feeds = s.feeds := rfl
@[simp] theorem send_gauges (m : Sent) : (send s m).gauges = s.gauges := rfl
@[simp] theorem send_cores (m : Sent) : (send s m).cores = s.cores := rfl
@[simp] theorem send_sent (m : Sent) : (send s m).sent = s.sent ++ [m] := rfl

/-! ### `State.withPending` -/

@[simp] theorem State.withPending_pending (l : List Instr) : (s.withPending l).pending = l := rfl
@[simp] theorem State.withPending_tick (l : List Instr) : (s.withPending l).tick = s.tick := rfl
@[simp] theorem State.withPending_free (l : List Instr) : (s.withPending l).free = s.free := rfl
@[simp] theorem State.withPending_power (l : List Instr) : (s.withPending l).power = s.power := rfl
@[simp] theorem State.withPending_flash (l : List Instr) : (s.withPending l).flash = s.flash := rfl
@[simp] theorem State.withPending_col (l : List Instr) : (s.withPending l).col = s.col := rfl
@[simp] theorem State.withPending_drv (l : List Instr) : (s.withPending l).drv = s.drv := rfl
@[simp] theorem State.withPending_frames (l : List Instr) : (s.withPending l).frames = s.frames := rfl
@[simp] theorem State.withPending_regs (l : List Instr) : (s.withPending l).regs = s.regs := rfl
@[simp] theorem State.withPending_act (l : List Instr) : (s.withPending l).act = s.act := rfl
@[simp] theorem State.withPending_mem (l : List Instr) : (s.withPending l).mem = s.mem := rfl
@[simp] theorem State.withPending_ecc (l : List Instr) : (s.withPending l).ecc = s.ecc := rfl
@[simp] theorem State.withPending_res (l : List Instr) : (s.withPending l).res = s.res := rfl
@[simp] theorem State.withPending_resEcc (l : List Instr) : (s.withPending l).resEcc = s.resEcc := rfl
@[simp] theorem State.withPending_stale (l : List Instr) : (s.withPending l).stale = s.stale := rfl
@[simp] theorem State.withPending_scrubPos (l : List Instr) : (s.withPending l).scrubPos = s.scrubPos := rfl
@[simp] theorem State.withPending_bias (l : List Instr) : (s.withPending l).bias = s.bias := rfl
@[simp] theorem State.withPending_xlt (l : List Instr) : (s.withPending l).xlt = s.xlt := rfl
@[simp] theorem State.withPending_xltNodes (l : List Instr) : (s.withPending l).xltNodes = s.xltNodes := rfl
@[simp] theorem State.withPending_invals (l : List Instr) : (s.withPending l).invals = s.invals := rfl
@[simp] theorem State.withPending_cxl (l : List Instr) : (s.withPending l).cxl = s.cxl := rfl
@[simp] theorem State.withPending_cxlUp (l : List Instr) : (s.withPending l).cxlUp = s.cxlUp := rfl
@[simp] theorem State.withPending_cxlBytes (l : List Instr) : (s.withPending l).cxlBytes = s.cxlBytes := rfl
@[simp] theorem State.withPending_scb (l : List Instr) : (s.withPending l).scb = s.scb := rfl
@[simp] theorem State.withPending_queues (l : List Instr) : (s.withPending l).queues = s.queues := rfl
@[simp] theorem State.withPending_cqs (l : List Instr) : (s.withPending l).cqs = s.cqs := rfl
@[simp] theorem State.withPending_sems (l : List Instr) : (s.withPending l).sems = s.sems := rfl
@[simp] theorem State.withPending_outs (l : List Instr) : (s.withPending l).outs = s.outs := rfl
@[simp] theorem State.withPending_nextId (l : List Instr) : (s.withPending l).nextId = s.nextId := rfl
@[simp] theorem State.withPending_reported (l : List Instr) : (s.withPending l).reported = s.reported := rfl
@[simp] theorem State.withPending_sigs (l : List Instr) : (s.withPending l).sigs = s.sigs := rfl
@[simp] theorem State.withPending_inks (l : List Instr) : (s.withPending l).inks = s.inks := rfl
@[simp] theorem State.withPending_mcast (l : List Instr) : (s.withPending l).mcast = s.mcast := rfl
@[simp] theorem State.withPending_duct (l : List Instr) : (s.withPending l).duct = s.duct := rfl
@[simp] theorem State.withPending_nibs (l : List Instr) : (s.withPending l).nibs = s.nibs := rfl
@[simp] theorem State.withPending_qdma (l : List Instr) : (s.withPending l).qdma = s.qdma := rfl
@[simp] theorem State.withPending_mail (l : List Instr) : (s.withPending l).mail = s.mail := rfl
@[simp] theorem State.withPending_dmas (l : List Instr) : (s.withPending l).dmas = s.dmas := rfl
@[simp] theorem State.withPending_dmaTurn (l : List Instr) : (s.withPending l).dmaTurn = s.dmaTurn := rfl
@[simp] theorem State.withPending_links (l : List Instr) : (s.withPending l).links = s.links := rfl
@[simp] theorem State.withPending_blt (l : List Instr) : (s.withPending l).blt = s.blt := rfl
@[simp] theorem State.withPending_upds (l : List Instr) : (s.withPending l).upds = s.upds := rfl
@[simp] theorem State.withPending_updOrder (l : List Instr) : (s.withPending l).updOrder = s.updOrder := rfl
@[simp] theorem State.withPending_pins (l : List Instr) : (s.withPending l).pins = s.pins := rfl
@[simp] theorem State.withPending_bltWaits (l : List Instr) : (s.withPending l).bltWaits = s.bltWaits := rfl
@[simp] theorem State.withPending_ruls (l : List Instr) : (s.withPending l).ruls = s.ruls := rfl
@[simp] theorem State.withPending_badval (l : List Instr) : (s.withPending l).badval = s.badval := rfl
@[simp] theorem State.withPending_probeDone (l : List Instr) : (s.withPending l).probeDone = s.probeDone := rfl
@[simp] theorem State.withPending_srp (l : List Instr) : (s.withPending l).srp = s.srp := rfl
@[simp] theorem State.withPending_tags (l : List Instr) : (s.withPending l).tags = s.tags := rfl
@[simp] theorem State.withPending_srpEarly (l : List Instr) : (s.withPending l).srpEarly = s.srpEarly := rfl
@[simp] theorem State.withPending_coh (l : List Instr) : (s.withPending l).coh = s.coh := rfl
@[simp] theorem State.withPending_ports (l : List Instr) : (s.withPending l).ports = s.ports := rfl
@[simp] theorem State.withPending_ctxs (l : List Instr) : (s.withPending l).ctxs = s.ctxs := rfl
@[simp] theorem State.withPending_routes (l : List Instr) : (s.withPending l).routes = s.routes := rfl
@[simp] theorem State.withPending_routesSh (l : List Instr) : (s.withPending l).routesSh = s.routesSh := rfl
@[simp] theorem State.withPending_rings (l : List Instr) : (s.withPending l).rings = s.rings := rfl
@[simp] theorem State.withPending_flows (l : List Instr) : (s.withPending l).flows = s.flows := rfl
@[simp] theorem State.withPending_macUni (l : List Instr) : (s.withPending l).macUni = s.macUni := rfl
@[simp] theorem State.withPending_macHash (l : List Instr) : (s.withPending l).macHash = s.macHash := rfl
@[simp] theorem State.withPending_ethBad (l : List Instr) : (s.withPending l).ethBad = s.ethBad := rfl
@[simp] theorem State.withPending_ethPause (l : List Instr) : (s.withPending l).ethPause = s.ethPause := rfl
@[simp] theorem State.withPending_ethTag (l : List Instr) : (s.withPending l).ethTag = s.ethTag := rfl
@[simp] theorem State.withPending_feeds (l : List Instr) : (s.withPending l).feeds = s.feeds := rfl
@[simp] theorem State.withPending_gauges (l : List Instr) : (s.withPending l).gauges = s.gauges := rfl
@[simp] theorem State.withPending_cores (l : List Instr) : (s.withPending l).cores = s.cores := rfl
@[simp] theorem State.withPending_sent (l : List Instr) : (s.withPending l).sent = s.sent := rfl

end Sys2Proof.Machine
end

