-- ==== Sys2Proof/Laws/Keeps.lean ====
section
/-! SUPPORT. What every shared operation leaves alone (`Keeps`): registers and counters, memory with its
symbol code, coherent accesses by units, translation, gauges, the event log and completions. -/

namespace Sys2Proof.Machine
open Sys2Proof

theorem Keeps.refl (s : State) : Keeps s s := ⟨rfl, rfl, Nat.le_refl _, id, id⟩

theorem Keeps.trans {s t u : State} (h : Keeps s t) (k : Keeps t u) : Keeps s u :=
  ⟨k.pending.trans h.pending, k.tick.trans h.tick, Nat.le_trans h.svn k.svn, fun x => k.cap (h.cap x),
    fun x => k.mem (h.mem x)⟩

/-- A change outside the queue, TICK, the flash die and the bytes of memory. -/
theorem Keeps.of_eq {s t : State} (hp : t.pending = s.pending) (ht : t.tick = s.tick) (hf : t.flash.svn = s.flash.svn)
    (hm : t.mem.cells = s.mem.cells) : Keeps s t :=
  ⟨hp, ht, Nat.le_of_eq hf.symm, fun x => hf ▸ x, fun x => by simpa [State.memWf, Memory.wf, hm] using x⟩

/-- A choice between two continuations. -/
theorem Keeps.ite {s t u : State} {c : Prop} [Decidable c] (h : Keeps s t) (k : Keeps s u) : Keeps s (if c then t else u) := by
  split <;> assumption

/-- A fold over a list whose every step keeps. -/
theorem keeps_foldl {α : Type} (f : State → α → State) (h : ∀ s a, Keeps s (f s a)) :
    ∀ (l : List α) (s : State), Keeps s (l.foldl f s)
  | [], s => Keeps.refl s
  | a :: t, s => (h s a).trans (keeps_foldl f h t (f s a))

/-- The same for a fold that carries a result beside the state. -/
theorem keeps_foldl_fst {α β : Type} (f : State × β → α → State × β) (h : ∀ r a, Keeps r.1 (f r a).1) :
    ∀ (l : List α) (r : State × β), Keeps r.1 (l.foldl f r).1
  | [], r => Keeps.refl r.1
  | a :: t, r => (h r a).trans (keeps_foldl_fst f h t (f r a))

/-! ### Registers -/

theorem keeps_setReg (s : State) (a : Nat) (v : Word) : Keeps s (setReg s a v) := .of_eq rfl rfl rfl rfl
theorem keeps_setReg64 (s : State) (a v : Nat) : Keeps s (setReg64 s a v) := .of_eq rfl rfl rfl rfl
theorem keeps_applyShadow (s : State) (l : List Nat) : Keeps s (applyShadow s l) := .of_eq rfl rfl rfl rfl
theorem keeps_regSetBits (s : State) (a : Nat) (m : Word) : Keeps s (regSetBits s a m) := .of_eq rfl rfl rfl rfl
theorem keeps_count (s : State) (f : Frame) (o n : Nat) : Keeps s (count s f o n) := by
  unfold count
  split
  · exact .refl s
  · exact keeps_setReg64 _ _ _

/-! ### Lines, the symbol code and poison -/

theorem keeps_setPoison (s : State) (l : Nat) (p : Bool) : Keeps s (setPoison s l p) := .of_eq rfl rfl rfl rfl
theorem keeps_setEcc (s : State) (l n : Nat) : Keeps s (setEcc s l n) := .of_eq rfl rfl rfl rfl
theorem keeps_logUe (s : State) (l src : Nat) : Keeps s (logUe s l src) := .of_eq rfl rfl rfl rfl
theorem keeps_freshBit (s : State) : Keeps s (freshBit s).1 := .of_eq rfl rfl rfl rfl

theorem keeps_freeLine (s : State) (a n : Nat) (b : List Byte) :
    Keeps s { s with mem := { s.mem with cells := mputs s.mem.cells a b }, free := s.free + n } :=
  ⟨rfl, rfl, Nat.le_refl _, id, fun h => mputs_wf b a h⟩

theorem keeps_decodeWord (s : State) (w n src : Nat) : Keeps s (decodeWord s w n src) := by
  have bad : ∀ u : State, Keeps u (logUe (count (setPoison u (w / 8) true) (memFrameOf (w / 8)) 0x48 1) (w / 8) src) := fun u =>
    ((keeps_setPoison u _ true).trans (keeps_count _ _ _ _)).trans (keeps_logUe _ _ _)
  unfold decodeWord
  dsimp only
  split
  · exact .refl s
  · split
    · exact keeps_count _ _ _ _
    · split
      · exact bad _
      · split
        · exact (keeps_freshBit _).trans (bad _)
        · refine (keeps_freshBit s).trans ((keeps_count _ (memFrameOf (w / 8)) 0x40 1).trans ?_)
          exact keeps_freeLine _ _ _ _

theorem keeps_decodeWords (s : State) (l : List (Nat × Nat)) (src : Nat) : Keeps s (decodeWords s l src) :=
  keeps_foldl _ (fun _ _ => keeps_decodeWord _ _ _ _) l s

theorem keeps_injectOn (s : State) (l : Nat) : Keeps s (injectOn s l) := by
  unfold injectOn
  dsimp only
  split
  · exact (keeps_setReg _ _ _).trans (keeps_setEcc _ _ _)
  · exact .refl s

theorem keeps_hbmWrite (s : State) (l : Nat) : Keeps s (hbmWrite s l) := by
  exact .trans (t := { s with ecc := s.ecc.filter fun p => p.1 / 8 ≠ l }) (.of_eq rfl rfl rfl rfl) (keeps_injectOn _ _)

theorem keeps_hbmRead (s : State) (l src : Nat) : Keeps s (hbmRead s l src) := by
  unfold hbmRead
  exact .ite (.refl s) ((keeps_decodeWords s _ src).trans (keeps_hbmWrite _ _))

/-! ### The Reservoirs -/

theorem keeps_resRead (s : State) (l : Nat) : Keeps s (resRead s l) := by
  unfold resRead
  refine .ite (.refl s) (.trans (t := decodeWords { s with resEcc := s.resEcc.filter fun p => p.1 / 8 ≠ l } (lineResEcc s l) 2) ?_ ?_)
  · exact .trans (t := { s with resEcc := s.resEcc.filter fun p => p.1 / 8 ≠ l }) (.of_eq rfl rfl rfl rfl) (keeps_decodeWords _ _ _)
  · exact .ite (.of_eq rfl rfl rfl rfl) (.refl _)

/-- A line's entry goes, with its errors, and a dirty one is written. -/
theorem keeps_resDrop (s : State) (l : Nat) (b : Bool) : Keeps s
    (if b = true then hbmWrite { s with res := sdel s.res l, resEcc := s.resEcc.filter fun p => p.1 / 8 ≠ l } l
      else { s with res := sdel s.res l, resEcc := s.resEcc.filter fun p => p.1 / 8 ≠ l }) :=
  .trans (t := { s with res := sdel s.res l, resEcc := s.resEcc.filter fun p => p.1 / 8 ≠ l }) (.of_eq rfl rfl rfl rfl)
    (.ite (keeps_hbmWrite _ l) (.refl _))

theorem keeps_resEvict (s : State) (l : Nat) : Keeps s (resEvict s l) :=
  (Keeps.ite (c := sget false s.res l = true) (keeps_resRead s l) (.refl s)).trans (keeps_resDrop _ l _)

theorem keeps_resHold (s : State) (l : Nat) (d : Bool) : Keeps s (resHold s l d) := by
  unfold resHold
  split
  · exact .refl s
  · dsimp only
    generalize hc : (shas s.res l || decide ((resOf s l).length < resLines s (halfOf (l * 128 / 2 ^ 40)))) = c
    cases c
    · exact .trans (t := { s with free := s.free + 1 }) (.of_eq rfl rfl rfl rfl)
        ((keeps_resEvict _ _).trans (.of_eq rfl rfl rfl rfl))
    · exact .of_eq rfl rfl rfl rfl

theorem keeps_resFetch (s : State) (l : Nat) : Keeps s (resFetch s l) := .ite (keeps_resRead s l) (keeps_hbmRead _ _ _)

theorem keeps_rdLine (s : State) (l : Nat) : Keeps s (rdLine s l).1 := by
  unfold rdLine
  split
  · exact (Keeps.ite (keeps_count s .memB 0x150 1) (keeps_count s (memFrameOf l) 0x50 1)).trans (keeps_resHold _ _ _)
  · exact (keeps_resFetch s l).trans (keeps_resHold _ _ _)

theorem wf_runs (l : List (Nat × List Byte)) : ∀ (m : List Host.Cell), Memory.wfFrom 0 m = true →
    Memory.wfFrom 0 (l.foldl (fun c r => mputs c r.1 r.2) m) = true := by
  induction l with
  | nil => exact fun _ h => h
  | cons r t ih => exact fun m h => ih _ (mputs_wf r.2 r.1 h)

theorem keeps_runs (s : State) (l : List (Nat × List Byte)) :
    Keeps s { s with mem := { s.mem with cells := l.foldl (fun c r => mputs c r.1 r.2) s.mem.cells } } :=
  ⟨rfl, rfl, Nat.le_refl _, id, wf_runs l _⟩

theorem keeps_wrRuns (s : State) (line : Nat) (whole : Bool) (l : List (Nat × List Byte)) (p : Bool) :
    Keeps s (wrRuns s line whole l p) := by
  have h := (Keeps.ite (s := s) (c := whole = true) (t := { s with resEcc := s.resEcc.filter fun p => p.1 / 8 ≠ line })
    (.of_eq rfl rfl rfl rfl) (keeps_resFetch s line)).trans (keeps_runs _ l)
  exact h.trans ((Keeps.ite (c := p = true) (keeps_setPoison _ line true)
    (.ite (c := whole = true) (keeps_setPoison _ line false) (.refl _))).trans (keeps_resHold _ _ _))

theorem keeps_wrLine (s : State) (a : Nat) (b : List Byte) (p : Bool) : Keeps s (wrLine s a b p) := keeps_wrRuns _ _ _ _ _

theorem keeps_wrImage (s : State) (a : Nat) (b : List (Option Byte)) (p : Bool) : Keeps s (wrImage s a b p) := keeps_wrRuns _ _ _ _ _

/-! ### Coherent accesses by units -/

theorem keeps_snoopCur (s : State) (l : Nat) : Keeps s (snoopCur s l) := by
  refine keeps_foldl _ (fun s p => ?_) _ s
  refine .ite ?_ (.ite (keeps_wrLine _ _ _ _) (.refl s))
  exact (keeps_wrLine s (l * 128) p.2.data p.2.poison).trans (.ite (.refl _) (.of_eq rfl rfl rfl rfl))

theorem keeps_snoopInvAll (s : State) (l o : Nat) (b : List Byte) (p : Bool) : Keeps s (snoopInvAll s l o b p) :=
  .of_eq rfl rfl rfl rfl

theorem keeps_homeCount (s : State) (l : Nat) (o : Bool) : Keeps s (homeCount s l o) :=
  (keeps_count _ _ _ _).trans (keeps_count _ _ _ _)

theorem keeps_setStale (s : State) (l : Nat) (x : List (Nat × List Byte × Bool)) : Keeps s (setStale s l x) := .of_eq rfl rfl rfl rfl

theorem keeps_seenFrom (l : Nat) (now : List Byte × Bool) : ∀ (x : List (Nat × List Byte × Bool)) (s : State),
    Keeps s (seenFrom l now x s).1
  | [], s => keeps_setStale s l []
  | e :: t, s => by
    unfold seenFrom
    dsimp only
    split
    · exact (keeps_freshBit s).trans (keeps_setStale _ _ _)
    · exact (keeps_freshBit s).trans (keeps_seenFrom l now t _)

theorem keeps_seen (s : State) (l : Nat) (now : List Byte × Bool) : Keeps s (seen s l now).1 := by
  unfold seen
  split
  · exact keeps_seenFrom _ _ _ _
  · exact .refl s

theorem keeps_keepOld {s t : State} (h : Keeps s t) (s0 : State) (q l : Nat) : Keeps s (keepOld s0 t q l) :=
  h.trans (.of_eq rfl rfl rfl rfl)

theorem keeps_visible (s : State) (p : Nat → Bool) : Keeps s (visible s p) := .of_eq rfl rfl rfl rfl

theorem keeps_unitRead (s : State) (l : Nat) : Keeps s (unitRead s l).1 :=
  (((keeps_homeCount s l true).trans (keeps_snoopCur _ _)).trans (keeps_rdLine _ _)).trans (keeps_seen _ _ _)

theorem keeps_homeWrite (s : State) (a : Nat) (b : List Byte) (p : Bool) : Keeps s (homeWrite s a b p) :=
  ((Keeps.ite (.refl s) (keeps_snoopCur _ _)).trans ((keeps_snoopInvAll _ _ _ _ _).trans (keeps_wrLine _ _ _ _))).trans
    (.of_eq rfl rfl rfl rfl)

theorem keeps_unitWrite (s : State) (a : Nat) (b : List Byte) (p : Bool) : Keeps s (unitWrite s a b p) :=
  (keeps_homeCount s _ false).trans (keeps_homeWrite _ _ _ _)

theorem keeps_unitMask (s : State) (l : Nat) (img : List (Option Byte)) (p : Bool) : Keeps s (unitMask s l img p) := by
  have h := (keeps_homeCount s l false).trans
    (.ite (c := decide ((img.filterMap id).length = 128) = true) (.refl _) (keeps_snoopCur _ l))
  exact ((h.trans (keeps_foldl _ (fun _ _ => keeps_snoopInvAll _ _ _ _ _) (imageRuns 0 img) _)).trans
    (keeps_wrImage _ (l * 128) img p)).trans (.of_eq rfl rfl rfl rfl)

theorem keeps_farAtomic (s : State) (pa w : Nat) (op : AmoOp) (x e : Nat) : Keeps s (farAtomic s pa w op x e).1 := by
  have h : Keeps s (rdLine (snoopCur (count (homeCount s (pa / 128) false) (cohFrameOf (pa / 128)) 0x80 1) (pa / 128)) (pa / 128)).1 :=
    (((keeps_homeCount s _ false).trans (keeps_count _ _ _ _)).trans (keeps_snoopCur _ _)).trans (keeps_rdLine _ _)
  unfold farAtomic
  dsimp only
  split
  · exact h
  · exact h.trans (.ite (keeps_setStale _ _ _) (keeps_homeWrite _ _ _ _))

theorem keeps_pread (s : State) (a n : Nat) : Keeps s (pread s a n).1 := by
  refine keeps_foldl_fst _ (fun r c => ?_) _ (s, some [])
  obtain ⟨s, _ | acc⟩ := r
  · exact .refl s
  · dsimp only
    split
    · exact keeps_unitRead _ _
    · exact .refl s

theorem keeps_pwrite (s : State) (a : Nat) (b : List Byte) : Keeps s (pwrite s a b).1 := by
  refine keeps_foldl_fst _ (fun r c => ?_) _ (s, true)
  split
  · split
    · exact keeps_unitWrite _ _ _ _
    · exact .refl _
  · exact .refl _

/-! ### Translation -/

theorem keeps_xltFault (s : State) (h : Half) (sp : Space) (va c : Nat) : Keeps s (xltFault s h sp va c) := by
  unfold xltFault
  dsimp only
  refine (keeps_count s (.xlt h) 0x48 1).trans ?_
  split <;> exact .of_eq rfl rfl rfl rfl

theorem keeps_walkFrom (h : Half) (asid : BitVec 16) (vpn : Nat) (w : Bool) :
    ∀ (lv : Nat) (s : State) (table : Nat) (nodes : List TlbNode), Keeps s (walkFrom h asid vpn w lv s table nodes).1 := by
  intro lv
  induction lv with
  | zero =>
    intro s table nodes
    have hr := keeps_pread s (table + 8 * (vpn / 2 ^ (9 * 0) % 512)) 8
    unfold walkFrom
    dsimp only
    split
    · rename_i heq; rw [heq] at hr; exact hr
    · rename_i heq; rw [heq] at hr
      repeat' split
      all_goals exact hr
  | succ k ih =>
    intro s table nodes
    have hr := keeps_pread s (table + 8 * (vpn / 2 ^ (9 * (k + 1)) % 512)) 8
    unfold walkFrom
    dsimp only
    split
    · rename_i heq; rw [heq] at hr; exact hr
    · rename_i heq; rw [heq] at hr
      split
      · exact hr
      · split
        · exact hr
        · split
          · split
            · exact hr
            · exact hr.trans (ih _ _ _)
          · repeat' split
            all_goals exact hr

theorem keeps_xlate (s : State) (h : Half) (sp : Space) (va : Nat) (w : Bool) : Keeps s (xlate s h sp va w).1 := by
  unfold xlate
  dsimp only
  split
  · exact keeps_xltFault _ _ _ _ _
  · split
    · split
      · exact keeps_xltFault _ _ _ _ _
      · exact .refl s
    · refine (keeps_count s (.xlt h) 0x40 1).trans ?_
      generalize count s (.xlt h) 0x40 1 = u
      split
      all_goals
        rename_i heq
        have hu := Eq.mp (congrArg (fun p : State × Walk => Keeps u p.1) heq) (keeps_walkFrom _ _ _ _ _ _ _ _)
      · exact hu.trans (keeps_xltFault _ _ _ _ _)
      · exact hu.trans (.of_eq rfl rfl rfl rfl)

theorem keeps_vread (s : State) (h : Half) (sp : Space) (va n : Nat) : Keeps s (vread s h sp va n).1 := by
  refine keeps_foldl_fst _ (fun r c => ?_) _ (s, Except.ok [])
  obtain ⟨s, _ | acc⟩ := r
  · exact .refl s
  · dsimp only
    have hx := keeps_xlate s h sp c.1 false
    split
    · rename_i heq; rw [heq] at hx; exact hx
    · rename_i heq; rw [heq] at hx
      split
      · exact hx.trans (keeps_unitRead _ _)
      · exact hx

theorem keeps_vwrite (s : State) (h : Half) (sp : Space) (va : Nat) (b : List Byte) (p : Nat → Bool) :
    Keeps s (vwrite s h sp va b p).1 := by
  refine keeps_foldl_fst _ (fun r c => ?_) _ (s, (⟨none, 0⟩ : Wrote))
  dsimp only
  have hx := keeps_xlate r.1 h sp c.1 true
  split
  · exact .refl _
  · split
    · rename_i heq; rw [heq] at hx; exact hx
    · rename_i heq; rw [heq] at hx
      split
      · exact keeps_keepOld (hx.trans (keeps_unitWrite _ _ _ _)) _ _ _
      · exact hx

theorem keeps_vwriteRest (s : State) (h : Half) (sp : Space) (va : Nat) (b : List Byte) (p : Nat → Bool) (st : Nat) :
    Keeps s (vwriteRest s h sp va b p st).1 := by
  refine keeps_foldl_fst _ (fun r c => ?_) _ (s, [])
  dsimp only
  have hf := keeps_freshBit r.1
  have hx := keeps_xlate (freshBit r.1).1 h sp c.1 true
  split
  · split
    · exact hf
    · rename_i heq; rw [heq] at hx
      split
      · exact keeps_keepOld ((hf.trans hx).trans (keeps_unitWrite _ _ _ _)) _ _ _
      · exact hf
  · exact hf

/-! ### Gauges, the event log, completions -/

theorem keeps_gaugeAdd (s : State) (k : Nat) (l : List Conv) : Keeps s (gaugeAdd s k l) := by
  unfold gaugeAdd
  split
  · exact .refl s
  · exact .of_eq rfl rfl rfl rfl

theorem keeps_gaugeClr (s : State) (k : Nat) : Keeps s (gaugeClr s k) := .of_eq rfl rfl rfl rfl

theorem keeps_flashCopy : ∀ (fuel lim : Nat) (s : State), Keeps s (flashCopy fuel lim s)
  | 0, _, s => .refl s
  | fuel + 1, lim, s => by
    unfold flashCopy
    dsimp only
    split
    · exact .refl s
    · refine .trans ?_ (keeps_flashCopy fuel lim _)
      split <;> exact .of_eq rfl rfl rfl rfl

theorem keeps_logPut (s : State) (code sev : Nat) (p : List Byte) : Keeps s (logPut s code sev p) := by
  unfold logPut
  dsimp only
  split
  · refine Keeps.trans ?_ (keeps_flashCopy _ _ _)
    exact .of_eq rfl rfl rfl rfl
  · exact .of_eq rfl rfl rfl rfl

theorem keeps_report (s : State) (id : Nat) (st : BitVec 8) (d0 d1 : Nat) : Keeps s (report s id st d0 d1) := by
  unfold report
  split
  · exact .refl s
  · exact (Keeps.ite (keeps_visible s _) (.refl s)).trans (.of_eq rfl rfl rfl rfl)

theorem keeps_reportOpt (s : State) (id : Option Nat) (st : BitVec 8) (d0 d1 : Nat) : Keeps s (reportOpt s id st d0 d1) := by
  cases id
  · exact .refl s
  · exact keeps_report _ _ _ _ _

theorem keeps_send (s : State) (m : Sent) : Keeps s (send s m) := .of_eq rfl rfl rfl rfl

end Sys2Proof.Machine
end

