-- ==== Sys2Proof/WellFormed.lean ====
section
/-! DEFINITION. Well-formed commands: operands of the sizes and in the ranges that the manual gives their
carriers. -/

namespace Sys2Proof

/-- A slot has 224 body bytes (R174). -/
def JCmd.wf (c : JCmd) : Bool := decide (c.body.length = 224)

/-- An atomic is 4 or 8 bytes, naturally aligned (R338). -/
def addrWf (addr : BitVec 48) (wide : Bool) : Bool := decide (addr.toNat % (if wide then 8 else 4) = 0)

/-- A core's access lies in one line. -/
def spanWf (addr : BitVec 48) (log2w : Fin 4) : Bool := decide (addr.toNat % 128 + 2 ^ log2w.val ≤ 128)

/-- A block of a message holds 256 elements or none (R280). -/
def SrpMsg.wf (m : SrpMsg) : Bool :=
  m.blocks.all (fun b => decide (b.elems.length ≤ 256)) && decide (m.blocks.length ≤ 16) && decide (m.exps.length ≤ 16)
    && decide (m.well.length = 0 ∨ m.well.length = 96)

/-- A packet's payload is at most 4,096 bytes (R354). -/
def UtpPkt.wf (k : UtpPkt) : Bool := decide (k.payload.length ≤ 4096)

/-- Whether a command is well-formed. -/
def Instr.wellFormed : Instr → Bool
  | .nop c => c.wf
  | .inlineWrite c => c.wf
  | .fenceVisible c => c.wf
  | .gaugeSnapshot c => c.wf
  | .tileOp c => c.wf
  | .nibLaunch c => c.wf
  | .dmaStart c => c.wf
  | .bucketPost c => c.wf
  | .scaleRound c => c.wf
  | .reissue c => c.wf
  | .bucketRelease c => c.wf
  | .bucketAbort c => c.wf
  | .regionUpdate c => c.wf
  | .pinEpoch c => c.wf
  | .regionInit c => c.wf
  | .feedStreamOpen c => c.wf
  | .feedSubmit c => c.wf
  | .feedFlush c => c.wf
  | .feedStreamClose c => c.wf
  | .feedLoadMerges c => c.wf
  | .biasFlip c => c.wf
  | .xltInvalidate c => c.wf
  | .scbDoorbell _ _ _ => true
  | .scbCqDoorbell _ _ _ => true
  | .queueEnable _ _ => true
  | .queueDisable _ _ => true
  | .queueReset _ _ => true
  | .cqEnable _ _ => true
  | .cqDisable _ _ => true
  | .cqReset _ _ => true
  | .scbSemValueWrite _ _ => true
  | .commandDispatch _ => true
  | .slotFetchFail _ => true
  | .commandCompletion _ => true
  | .semaphoreSignal _ => true
  | .headWbFail _ => true
  | .cqEntryWriteFail _ _ => true
  | .msiWriteFail _ _ => true
  | .commandPortSubmit _ => true
  | .tileOpStart _ => true
  | .noWgradSkipRetire _ => true
  | .operandFetchFault _ => true
  | .outputWriteFault _ => true
  | .streamingEnd _ => true
  | .tileOpComplete _ => true
  | .completionRecordWrite _ => true
  | .ductusCredit _ _ => true
  | .ductusTileArrival _ => true
  | .ductusMergeDone _ => true
  | .ductusAbandon _ => true
  | .ductusFencedReply _ => true
  | .paletteScrub _ word upset => decide (word < 98304) && decide (upset ≤ 36)
  | .gaugeClear _ => true
  | .nibScalarInstruction _ => true
  | .csrAccess _ f3 _ _ _ => decide (f3.toNat % 4 ≠ 0)
  | .fence _ => true
  | .ecall _ => true
  | .ebreak _ => true
  | .remoteLoadReturn _ entry => decide (entry < 64)
  | .postedStoreFault _ => true
  | .nibStop _ => true
  | .apertureAccess _ _ off log2w _ => decide (off.toNat % 2 ^ log2w.val = 0)
  | .vadd _ _ => true
  | .vsub _ _ => true
  | .vmul _ _ => true
  | .vfma _ _ => true
  | .vfnms _ _ => true
  | .vmin _ _ => true
  | .vmax _ _ => true
  | .vdiv _ _ => true
  | .vsqrt _ _ => true
  | .vexp _ _ => true
  | .vlog _ _ => true
  | .vrsqrt _ _ => true
  | .vtanh _ _ => true
  | .vsgnj _ _ => true
  | .vsgnjn _ _ => true
  | .vsgnjx _ _ => true
  | .vand _ _ => true
  | .vor _ _ => true
  | .vxor _ _ => true
  | .vsll _ _ => true
  | .vsrl _ _ => true
  | .vsra _ _ => true
  | .vcmpeq _ _ => true
  | .vcmplt _ _ => true
  | .vcmple _ _ => true
  | .vmerge _ _ => true
  | .vbcast _ _ => true
  | .viota _ _ => true
  | .setlen _ _ => true
  | .vld _ _ => true
  | .vst _ _ => true
  | .vgather _ _ => true
  | .vscatter _ _ => true
  | .vcvt _ _ => true
  | .vcompress _ _ => true
  | .vexpand _ _ => true
  | .vredsum _ _ => true
  | .vredmax _ _ => true
  | .vredmin _ _ => true
  | .vmpop _ _ => true
  | .vmlogic _ _ => true
  | .vmld _ _ => true
  | .vmst _ _ => true
  | .vextract _ _ => true
  | .vinsert _ _ => true
  | .nwzero _ _ => true
  | .nwmac _ _ => true
  | .nwadd _ _ => true
  | .nwread _ _ => true
  | .nwst _ _ => true
  | .nwld _ _ => true
  | .nwflags _ _ => true
  | .msend _ _ => true
  | .mfree _ _ => true
  | .mwait _ _ => true
  | .namo _ _ => true
  | .qdma _ _ => true
  | .mailboxDelivery i => decide (i < 2 ^ 20)
  | .qdmaTransferDone _ => true
  | .dmaRun _ => true
  | .dmaPause _ => true
  | .dmaResume _ => true
  | .dmaDescPtrWrite _ _ => true
  | .descriptorFetch _ => true
  | .descriptorFetchFault _ => true
  | .dmaLineReturn _ => true
  | .dmaReadFail _ => true
  | .descriptorComplete _ => true
  | .dmaWritebackFail _ => true
  | .ligFlitReceive _ flit => decide (flit.length = 64)
  | .ligRetry _ _ => true
  | .ligReplayLimit _ => true
  | .ligAckTimeout _ => true
  | .srpScaleMsg m => m.wf
  | .srpReduceMsg m => m.wf
  | .srpGatherMsg m => m.wf
  | .srpAbandonMsg m => m.wf
  | .srpCreditMsg m => m.wf
  | .bucketComplete _ => true
  | .pinWaitTimeout _ => true
  | .updateStageDone _ => true
  | .updateStreamDone _ => true
  | .descriptorWriteback _ => true
  | .rulApply => true
  | .rulProbe _ => true
  | .hbmScrubRead _ line upset => decide (line < 2 ^ 34) && decide (upset.length ≤ 8) && upset.all fun n => decide (n ≤ 36)
  | .reservoirScrub _ line upset => decide (line < 2 ^ 34) && decide (upset.length ≤ 8) && upset.all fun n => decide (n ≤ 36)
  | .cxlLinkDown _ => true
  | .cxlResponseTimeout _ _ => true
  | .cxlFatalError _ => true
  | .coreLoad _ addr log2w => spanWf addr log2w
  | .coreStore _ addr log2w _ => spanWf addr log2w
  | .coreAtomic _ addr wide _ _ _ => addrWf addr wide
  | .cacheEviction _ _ => true
  | .cboClean _ _ => true
  | .cboFlush _ _ => true
  | .cboInval _ _ => true
  | .cboZero _ _ => true
  | .rdShared _ _ => true
  | .rdOwn _ _ => true
  | .upgrade _ _ => true
  | .atomicReq _ addr wide _ _ _ => addrWf addr wide
  | .wbDirty _ _ => true
  | .evictClean _ _ => true
  | .rdCur _ _ => true
  | .wrFull _ _ b _ => decide (b.length = 128)
  | .wrPartial _ addr b => decide (0 < b.length) && decide (addr.toNat % 128 + b.length ≤ 128)
  | .atomicFar _ addr wide _ _ _ => addrWf addr wide
  | .snpFwdShared _ _ _ => true
  | .snpFwdOwn _ _ _ => true
  | .snpInv _ _ => true
  | .snpCur _ _ => true
  | .data _ _ _ => true
  | .dataCmp _ _ _ => true
  | .grantCmp _ _ => true
  | .grantAck _ _ => true
  | .rspI _ _ => true
  | .rspS _ _ => true
  | .rspFwd _ _ => true
  | .rspIWbPend _ _ => true
  | .wbAck _ _ => true
  | .cmp _ _ => true
  | .nack _ _ _ => true
  | .nackRetry _ _ => true
  | .reservationLapse _ => true
  | .snoopTimeout _ => true
  | .grantAckTimeout _ => true
  | .linkBlockReceive _ block => decide (block.bytes.length = 256)
  | .linkRetry _ _ => true
  | .linkReplayLimit _ => true
  | .linkAckTimeout _ => true
  | .wavelengthLock _ => true
  | .alignHoldDone _ => true
  | .initBlock _ _ _ _ => true
  | .trainingRetry _ => true
  | .transitForward _ k => k.wf
  | .dataPacket k => k.wf
  | .ackPacket k => k.wf
  | .nakPacket k => k.wf
  | .rnrPacket k => k.wf
  | .openPacket k => k.wf
  | .openAckPacket k => k.wf
  | .domainDownPacket k => k.wf
  | .rtoExpiry _ => true
  | .ackDelayExpiry _ => true
  | .rnrDelayExpiry _ => true
  | .utpCtxReset _ => true
  | .txRingDoorbell _ _ _ => true
  | .rxRingDoorbell _ _ _ => true
  | .ethFrameRx _ _ => true
  | .sampleDispatch _ _ => true
  | .decodeComplete _ _ _ => true
  | .resizeComplete _ _ _ => true
  | .fedSwrDb _ _ => true
  | .budgetExpiry _ _ _ => true
  | .liveCloseExpiry _ _ => true
  | .batchEmit _ _ => true
  | .powerOn => true
  | .inputBelow34V => true
  | .inputTrip => true
  | .railFault _ => true
  | .thermalTrip _ _ => true
  | .railSequenceStep => true
  | .railTimeout _ => true
  | .bootStageAdvance r => r.failed.all (fun c => decide (c ≠ 0)) && r.cxlBytes.all fun p => decide (p.1 < 6)
  | .stageTimeout r => r.failed.all (fun c => decide (c ≠ 0)) && r.cxlBytes.all fun p => decide (p.1 < 6)
  | .colophonStartWatchdog => true
  | .colophonSample readings => decide (readings.length ≤ 256)
  | .heartbeatLapse => true
  | .driverStopped => true
  | .heartbeat => true
  | .attach => true
  | .detach => true
  | .packageReset => true
  | .downAutoReset => true
  | .coreRun _ => true
  | .updateGo => true
  | .updateFinish => true
  | .updateConfirm => true
  | .logCommit => true
  | .logFlashCopy => true
  | .arpRequest _ _ => true
  | .icmpEcho _ _ => true
  | .logRead _ _ _ _ _ => true
  | .sensorRead _ _ _ _ => true
  | .imageWrite _ _ _ _ _ => true
  | .imageCommit _ _ _ _ => true
  | .getVersion _ => true
  | .getCapabilities _ _ => true
  | .negotiateAlgorithms _ _ _ => true
  | .getDigests _ => true
  | .getCertificate _ _ _ _ => true
  | .challenge _ _ _ _ => true
  | .getMeasurements _ _ _ _ => true
  | .unlock _ _ => true
  | .postedWriteDone _ => true
  | .registerWrite _ addr _ => decide (addr.toNat % 4 = 0)
  | .opticalLockLoss _ => true
  | .clockLoss _ => true
  | .contributionReadDone _ block => decide (block < 2 ^ 24)
  | .batchDescriptorOwned _ _ => true

end Sys2Proof
end

