-- ==== Sys2Proof/Tests/Slice0.lean ====
section
/-! SUPPORT. Tests of one step each on small states, a well-formedness check with an ill-formed command for
each check, and for each statement a state that meets its hypotheses. -/

namespace Sys2Proof.Tests
open Sys2Proof Sys2Proof.Machine
-- One theorem after another: a thread for each would ask for more stack space than the check allows.
set_option Elab.async false

/-! ### States -/

/-- The next state of an answer. -/
def nx (o : Out) : State := match o with | .next s => s | _ => State.reset

/-- A leaf that maps the first 256 MiB onto themselves with every permission, in ASID 0 of a half. -/
def idLeaf (h : Half) : TlbEntry := ⟨h, 0, 0, 65536, 0, 0xFF⟩

/-- A package in stage 5 with its domain running, its driver attached and the identity mapping cached. -/
def up : State := { State.reset with
  power := { input := true, step := 9, rails := [128, 138], off := false }
  col := { State.reset.col with stage := 5, hostHalf := some 0, started := true }
  coh := { State.reset.coh with running := true }
  cores := [(0, { coreReset with running := true })]
  scb := [(0, ⟨.running, []⟩), (1, ⟨.running, []⟩)]
  srp := [(0, ⟨.running⟩), (1, ⟨.running⟩)]
  feeds := [(0, ⟨.running, [], [], [], [], [], [], 0⟩), (1, ⟨.running, [], [], [], [], [], [], 0⟩)]
  blt := .running
  drv := { State.reset.drv with st := .attached }
  regs := [(Frame.col.base + 0x30, 0xFF)]
  xlt := [idLeaf 0, idLeaf 1] }

/-- A result that is there and has a property, as the two parts that the statements name. -/
theorem some_parts {α β : Type} {r : α × Option β} (p : α → β → Bool)
    (h : (match r with | (a, some b) => p a b | _ => false) = true) : ∃ a b, r = (a, some b) ∧ p a b = true :=
  match r, h with
  | (a, some b), h => ⟨a, b, rfl, h⟩

theorem ok_parts {α β γ : Type} {r : α × Except γ β} (p : α → β → Bool)
    (h : (match r with | (a, .ok b) => p a b | _ => false) = true) : ∃ a b, r = (a, .ok b) ∧ p a b = true :=
  match r, h with
  | (a, .ok b), h => ⟨a, b, rfl, h⟩


/-- Queue 5 with 16 slots from 0x20000 on, and completion queue 3 with 16 entries from 0x30000 on. -/
def qUp : State := { up with
  queues := [(5, { queueReset with enabled := true, base := 0x20000, log2 := 4, tail := 1 })]
  cqs := [(3, { cqReset with enabled := true, base := 0x30000, log2 := 4 })] }

/-- A command at the head of queue 5 with an opcode's length, a target and a body. -/
def cmd (op : Nat) (target : BitVec 32) (body : List Byte) : JCmd :=
  ⟨5, ⟨BitVec.ofNat 8 (opLength op), 0, 0, 3, target, 0, 0, 0, 0, 0⟩, bslice body 0 224⟩

/-- An INLINE_WRITE of four bytes to address 0x1000. -/
def inlineCmd : JCmd := ⟨5, ⟨4, 0, 0, 3, 0, 0, 0, 0, 0, 0x1000⟩, bslice [1, 2, 3, 4] 0 224⟩

/-- Little-endian words of a body: width and value. -/
def body (l : List (Nat × Nat)) : List Byte := l.flatMap fun x => leBytes x.1 x.2

theorem starts {s : State} {c : JCmd} {op : Nat} {o : Bool}
    (h : (queueLive s c.queue.toNat && (cqOf s (queueHalf c.queue.toNat) (field c.hdr.cq 11 0)).enabled &&
      !headerBad s op c.hdr && !gateHeld s c o false) = true) : Starts s c op o := by
  simp only [Bool.and_eq_true, Bool.not_eq_true'] at h
  exact ⟨h.1.1.1, h.1.1.2, h.1.2, h.2⟩

theorem quiet {s : State} (h1 : Memory.wf s.mem = true) (h2 : s.coh.caches = []) (h3 : s.ecc = []) (h4 : s.stale = [])
    (h5 : s.resEcc = [] := by decide +kernel) : Quiet s :=
  ⟨h1, h2, (fun p hp => by rw [h3] at hp; cases hp), (fun p hp => by rw [h5] at hp; cases hp), h4⟩

/-- The identity leaf reaches every address below 256 MiB. -/
theorem reaches_id {s : State} {h : Half} {sp : Space} {va n : Nat} {w : Bool} (hx : s.xlt = [idLeaf 0, idLeaf 1])
    (ha : alive s = true) (hl : (liveStacks s 0).length = 6) (hs : sp.asid = 0) (hn : va + n ≤ 2 ^ 28) : Reaches s h sp va n va w := by
  intro i hi
  have h1 : va + i < 2 ^ 28 := by omega
  have h0 : halfOf ((va + i) / 2 ^ 40) = 0 := by rw [Nat.div_eq_of_lt (by omega)]; rfl
  constructor
  · have hd : (va + i) / 4096 < 65536 := by omega
    have hm : (va + i) / 4096 * 4096 + (va + i) % 4096 = va + i := by omega
    match h with
    | 0 => cases w <;> simp [cachedPa, hx, idLeaf, hs, hm, hd, leafCause, pteBit] <;> omega
    | 1 => cases w <;> simp [cachedPa, hx, idLeaf, hs, hm, hd, leafCause, pteBit] <;> omega
  · simp only [served, ha, mappedAt, h0, hl, Bool.true_and]
    rw [if_pos (by omega), Nat.mod_eq_of_lt (by omega)]
    exact decide_eq_true (by omega)

/-! ### The machine as a whole -/

theorem wit_StepRunsFront : ({ qUp with pending := [.tileOpStart ⟨0, 0⟩, .powerOn] } : State).pending = .tileOpStart ⟨0, 0⟩ :: [.powerOn] ∧
    State.reset.pending = [] := ⟨rfl, rfl⟩

theorem wit_MemoryStaysCanonical : ∃ t, qUp.memWf ∧ step { qUp with pending := [.inlineWrite inlineCmd] } = .next t ∧
    t.mem.cells = [(0x1000, 1), (0x1001, 2), (0x1002, 3), (0x1003, 4)] :=
  ⟨nx (step { qUp with pending := [.inlineWrite inlineCmd] }), by unfold State.memWf; decide +kernel, rfl, by decide +kernel⟩

theorem wit_FusedVersionNeverFalls : State.reset.flash.svn ≤ 127 ∧ ({ State.reset with flash := { State.reset.flash with svn := 127 } } : State).flash.svn ≤ 127 ∧
    ({ up with pending := [.postedWriteDone (BitVec.ofNat 48 Frame.id.base)] } : State).pending.head? = some (.postedWriteDone (BitVec.ofNat 48 Frame.id.base)) ∧
    ¬ ConfirmPosted { up with pending := [.postedWriteDone (BitVec.ofNat 48 Frame.id.base)] } (BitVec.ofNat 48 Frame.id.base) :=
  ⟨by decide, by decide, rfl, by rintro ⟨g, c, a, v, l, -, h, -⟩; cases h⟩

theorem wit_TickIsKeptByCommands : ({ qUp with pending := [.driverStopped] } : State).pending = .driverStopped :: [] ∧
    Instr.driverStopped ≠ .powerOn ∧ Instr.driverStopped ≠ .inputBelow34V := ⟨rfl, by decide, by decide⟩

/-! ### Scribe (p02) -/

theorem wit_DispatchTakesTheHead :
    (let s := { qUp with queues := [(5, { queueReset with enabled := true, base := 0x20000, log2 := 4, tail := 1, headWb := 0x1000 })] }
     Quiet s ∧ (queueOf s 5).headWb ≠ 0 ∧ (queueOf s 5).headWb.toNat % 4 = 0 ∧ served s (queueOf s 5).headWb.toNat = true) ∧
    (queueOf qUp 5).headWb = 0 :=
  ⟨⟨quiet (by decide +kernel) rfl rfl rfl, by decide +kernel, by decide +kernel, by decide +kernel⟩, by decide +kernel⟩

/-- An outstanding command of queue 5. -/
def outOf (id : Nat) (done : Option Done) : OutCmd := ⟨id, 5, 0, 0, 1, 0, 3, 0, 0, 0, 0, done⟩

theorem wit_NopAndFenceVisible : Starts qUp (cmd 0 0 []) 0 false ∧ Starts qUp (cmd 2 0 [2]) 2 false ∧
    Starts qUp (cmd 2 0 [2]) 2 true ∧ qUp.freshIds ∧ bget (cmd 2 0 [2]).body 0 4 ≤ 2 ∧
    (let s := { qUp with outs := [{ outOf 0 none with queue := 6 }], nextId := 1 }
     Starts s (cmd 2 0 [2]) 2 true ∧ s.freshIds ∧ (∃ o, o ∈ s.outs)) :=
  ⟨starts (by decide +kernel), starts (by decide +kernel), starts (by decide +kernel), (by intro o h; cases h), by decide +kernel,
    starts (by decide +kernel), (by intro o h; rcases List.mem_singleton.mp h with rfl; decide), _, List.mem_singleton.mpr rfl⟩

theorem wit_InlineWriteStores : Starts qUp inlineCmd 1 false ∧ Quiet (takeHead qUp inlineCmd 1) ∧
    Reaches qUp 0 (queueSpace qUp 5) inlineCmd.hdr.aux.toNat inlineCmd.hdr.length.toNat 0x1000 true :=
  ⟨starts (by decide +kernel), quiet (by decide +kernel) (by decide +kernel) (by decide +kernel) (by decide +kernel),
    reaches_id (by rfl) (by decide +kernel) (by decide +kernel) (by decide +kernel) (by decide +kernel)⟩

/-- INLINE_WRITE of 4 bytes at 0x1000 (R184). -/
theorem test_inline_write : mgets (nx (exec (.inlineWrite inlineCmd) qUp)).mem.cells 0xFFF 6 = [0, 1, 2, 3, 4, 0] := by decide +kernel

/-- A GAUGE_SNAPSHOT of Inkstone gauge sets 0 and 1 to 0x4000. -/
def snapCmd : JCmd := cmd 3 0 (body [(8, 0x4000), (4, 0x11), (4, 0), (4, 2)])

theorem wit_GaugeSnapshotWritesAndClears : Starts qUp snapCmd 3 true ∧ Quiet (takeHead qUp snapCmd 3) ∧ snapBad qUp 0 snapCmd.body = false ∧
    ¬ (snapKind snapCmd.body = 4 ∧ bltFenced qUp = true) ∧
    Reaches qUp 0 (queueSpace qUp 5) (bget snapCmd.body 0 8) (64 * bget snapCmd.body 16 4) 0x4000 true :=
  ⟨starts (by decide +kernel), quiet (by decide +kernel) (by decide +kernel) (by decide +kernel) (by decide +kernel), by decide +kernel, by decide +kernel,
    reaches_id (by rfl) (by decide +kernel) (by decide +kernel) (by decide +kernel) (by decide +kernel)⟩

/-- A state whose tables of queues and completion queues name one valid entry each. -/
def tabUp : State := { up with
  regs := [((Frame.scb 0).base + 0x10, 0x10000), ((Frame.scb 0).base + 0x18, 0x18000)]
  mem := { up.mem with cells := mputs (mputs [] (0x10000 + 64 * 5) (body [(8, 0x20000), (1, 4), (1, 7)])) (0x18000 + 32 * 3) (body [(8, 0x30000), (1, 16)]) } }

theorem wit_ScribeRegisters :
    (halfFenced qUp 0 = false ∧ (cqOf qUp 0 3).enabled = true ∧ (cqOf qUp 0 3).head.toNat < 2 ^ (cqOf qUp 0 3).log2.toNat ∧
      (cqOf qUp 0 3).log2.toNat ≤ 16 ∧ 0 + cqReserved qUp 0 3 ≤ (cqOf qUp 0 3).used) ∧
    (frameBusy tabUp (.scb 0) = false ∧ tabUp.drv.st = .attached ∧ alive tabUp = true ∧ queueHalf 5 = 0 ∧ (queueOf tabUp 5).enabled = false ∧
      (pread (scbBoundary (tabUp.taken (.scb 0)) 0) (regAct64 (scbBoundary (tabUp.taken (.scb 0)) 0) ((Frame.scb 0).base + 0x10) + 64 * 5) 64).2.map (fun b => (b.poisoned, queueEntryOk b.bytes)) =
        some (false, true)) ∧
    ((cqOf tabUp 0 3).enabled = false ∧
      (pread (scbBoundary (tabUp.taken (.scb 0)) 0) (regAct64 (scbBoundary (tabUp.taken (.scb 0)) 0) ((Frame.scb 0).base + 0x18) + 32 * 3) 32).2.map (fun b => (b.poisoned, cqEntryOk b.bytes)) =
        some (false, true)) ∧ tabUp.col.featPend = false := by decide +kernel

/-- A doorbell beyond the ring wraps, and one to a disabled queue is counted (R172). -/
theorem test_doorbell : (queueOf (nx (exec (.scbDoorbell 0 5 17) qUp)) 5).tail = 1 ∧
    regWord64 (nx (exec (.scbDoorbell 0 6 1) qUp)) ((Frame.scb 0).base + 0x50) = 1 := by decide +kernel

/-- A signal that lies behind the value changes nothing, one that wraps past 2^32 does (R180). -/
theorem test_signal :
    semOf (nx (exec (.semaphoreSignal 0) { up with sems := [(7, 10)], sigs := [⟨0, 5, 7, 9⟩] })) 7 = 10 ∧
    semOf (nx (exec (.semaphoreSignal 0) { up with sems := [(7, 0xFFFFFFFF)], sigs := [⟨0, 5, 7, 1⟩] })) 7 = 1 := by decide +kernel

theorem wit_SemaphoresMoveForward : alive up = true ∧
    (let moves (v x : Word) : Prop := 1 ≤ (x - v).toNat ∧ (x - v).toNat < 2 ^ 31
     moves 0 1 ∧ moves 0 0x7FFFFFFF ∧ ¬ moves 0 0 ∧ ¬ moves 0 0x80000000) := by decide +kernel

/-- The same with a NOP in slot 0 of the ring. -/
def nopUp : State := { qUp with mem := { qUp.mem with cells := mputs [] 0x20000 [0, 0, 0, 1, 0, 0, 3] } }

/-- The same with queue 6 behind it, of the same priority or the next, and a head of queue 5 that waits for a semaphore. -/
def twoUp (wait : Bool) (prio : BitVec 8) : State := { qUp with
  queues := [(5, { queueReset with enabled := true, base := 0x20000, log2 := 4, tail := 1 }),
    (6, { queueReset with enabled := true, base := 0x22000, log2 := 4, tail := 1, prio := prio })]
  mem := { qUp.mem with cells := mputs (mputs [] 0x20000 ([0, 0, 0, 1, if wait then 4 else 0, 0, 3] ++ leBytes 9 0 ++ [1])) 0x22000 [0, 0, 0, 1, 0, 0, 3] } }

theorem wit_ScribeTurns : (∀ p ∈ [(0 : BitVec 8), 1], queueLive (twoUp false p) 5 = true ∧ queueLive (twoUp false p) 6 = true) ∧
    queueHalf 5 = 0 ∧ queueHalf 6 = 0 ∧ ((twoUp false 0).queues.map Prod.fst).Pairwise (· < ·) ∧ sget 0 (scbOf (twoUp false 0) 0).rr 0 < 5 := by
  decide +kernel

theorem wit_ScribeSkipsTheHeld : alive (twoUp true 0) = true ∧ halfFenced (twoUp true 0) 0 = false ∧ dispatchOrder (twoUp true 0) 0 = [5, 6] ∧
    (match pread (twoUp true 0) 0x20000 256 with
     | (s1, some a) => !a.poisoned && decide (bget a.bytes 0 2 = 0) && (cqOf s1 0 (field (cmdOfSlot 5 a.bytes).hdr.cq 11 0)).enabled &&
       gateHeld s1 (cmdOfSlot 5 a.bytes) false false &&
       (let w := setQueue s1 5 { queueOf s1 5 with waiting := true }
        match pread w 0x22000 256 with
        | (s2, some b) => !b.poisoned && decide (bget b.bytes 0 2 = 0) && (let c := cmdOfSlot 6 b.bytes
          queueLive s2 6 && (cqOf s2 0 (field c.hdr.cq 11 0)).enabled && !headerBad s2 0 c.hdr && !gateHeld s2 c false false)
        | _ => false)
     | _ => false) = true := by decide +kernel

theorem wit_ScribeChoosesAndHalts : alive nopUp = true ∧ halfFenced nopUp 0 = false ∧ queueLive nopUp 5 = true ∧
    (queueOf nopUp 5).enabled = true ∧ (∃ rest, dispatchOrder nopUp 0 = 5 :: rest) ∧
    ∃ s' b, pread nopUp ((queueOf nopUp 5).base.toNat + 256 * (queueOf nopUp 5).head.toNat) 256 = (s', some b) ∧
      b.poisoned = false ∧ bget b.bytes 0 2 = 0 ∧ Starts s' (cmdOfSlot 5 b.bytes) 0 false := by
  obtain ⟨s', b, h, h'⟩ := some_parts (r := pread nopUp ((queueOf nopUp 5).base.toNat + 256 * (queueOf nopUp 5).head.toNat) 256)
    (fun s b => !b.poisoned && decide (bget b.bytes 0 2 = 0) && (let c := cmdOfSlot 5 b.bytes
      queueLive s c.queue.toNat && (cqOf s (queueHalf c.queue.toNat) (field c.hdr.cq 11 0)).enabled &&
        !headerBad s 0 c.hdr && !gateHeld s c false false)) (by decide +kernel)
  simp only [Bool.and_eq_true, Bool.not_eq_true', decide_eq_true_eq] at h'
  exact ⟨by decide +kernel, by decide +kernel, by decide +kernel, by decide +kernel, ⟨[], by decide +kernel⟩, s', b, h, h'.1.1, h'.1.2,
    h'.2.1.1.1, h'.2.1.1.2, h'.2.1.2, h'.2.2⟩

/-- COMMAND_DISPATCH of a NOP with CQE reports it, and COMMAND_COMPLETION posts its 32-byte entry (R173, R190). -/
theorem test_dispatch_nop : (nx (exec (.commandDispatch 0) nopUp)).reported = [0] ∧
    (queueOf (nx (exec (.commandDispatch 0) nopUp)) 5).head = 1 ∧
    (cqOf (nx (exec (.commandDispatch 0) nopUp)) 0 3).used = 1 := by decide +kernel

/-- One reported command, with and without an entry to post, and with a notification. -/
def doneUp (flags : BitVec 8) : State := { qUp with
  outs := [{ outOf 0 (some ⟨stOk, 0, 0, 0⟩) with flags := flags }], nextId := 1, reported := [0]
  cqs := [(3, { cqReset with enabled := true, base := 0x30000, log2 := 4, used := 1, wr := 15, msiAddr := 0x5000 })] }

theorem wit_CompletionsPostInOrder : ∀ f ∈ [(0 : BitVec 8), 1, 3],
    scbPosts (doneUp f) 0 = true ∧ nextDone (doneUp f) 0 = some ({ outOf 0 (some ⟨stOk, 0, 0, 0⟩) with flags := f }, ⟨stOk, 0, 0, 0⟩) ∧
    (cqOf (doneUp f) 0 3).enabled = true ∧ (cqOf (doneUp f) 0 3).epoch = 0 ∧ queueHalf 5 = 0 ∧ Quiet (doneUp f) ∧
    (∀ i, i < 32 → served (doneUp f) ((cqOf (doneUp f) 0 3).base.toNat + 32 * (cqOf (doneUp f) 0 3).wr.toNat + i) = true) ∧
    (cqOf (doneUp f) 0 3).msiAddr ≠ 0 := by
  intro f hf
  simp only [List.mem_cons, List.not_mem_nil, or_false] at hf
  rcases hf with rfl | rfl | rfl <;>
    exact ⟨by decide +kernel, by decide +kernel, by decide +kernel, by decide +kernel, by decide +kernel,
      quiet (by decide +kernel) rfl rfl rfl, by decide +kernel, by decide +kernel⟩

/-- The last entry of a ring inverts PHASE (R190). -/
theorem test_phase : (cqOf (nx (exec (.commandCompletion 0) (doneUp 1))) 0 3).phase = false ∧
    (cqOf (nx (exec (.commandCompletion 0) (doneUp 1))) 0 3).wr = 0 := by decide +kernel

theorem wit_MalformedFencedAndHeldCommands :
    (let s := { qUp with cqs := [] }
     queueLive s 5 = true ∧ (cqOf s 0 3).enabled = false) ∧
    (let s := { qUp with cqs := [(3, { cqReset with enabled := true, base := 0x30000, log2 := 4, used := 16 })] }
     queueLive s 5 = true ∧ (cqOf s 0 3).enabled = true ∧ 2 ^ (cqOf s 0 3).log2.toNat ≤ (cqOf s 0 3).used) ∧
    (let h := { (cmd 0 0 []).hdr with fence := 4, waitSem := 2047, waitValue := 0x80000000 }
     fenceWait h.fence = true ∧ h.waitSem.toNat ≤ 2047 ∧ 2 ^ 31 ≤ (semOf qUp h.waitSem.toNat - h.waitValue).toNat) ∧
    (let c := { cmd 0 0 [] with hdr := { (cmd 0 0 []).hdr with length := 1 } }
     queueLive qUp 5 = true ∧ gateHeld qUp c false false = false ∧ headerBad qUp 0 c.hdr = true) := by decide +kernel

theorem wit_GaugeClearClearsOneSet : gaugeSelFenced up (.ink ⟨0, 143⟩ 7) = false ∧ gaugeSelFenced up .blt = false ∧
    frameBusy up .blt = false := by decide +kernel


/-! ### Inkstones -/

/-- A legal tile operation: K = 64, E4M3 operands resident in segments 0 and 1 (B of a multicast from memory), with OUTC, MCAST, DUCT, PRED and SUCC as given. -/
def tileBytes (outc mc duct pred succ : Nat) : List Byte :=
  leBytes 48 0 ++ body [(4, 64), (4, if mc = 0 then 0x82833 else 0x80833), (4, outc), (4, mc), (8, 0x8000), (4, 1024)] ++ leBytes 0x24 0 ++
    body [(4, duct), (4, pred), (4, succ)]

def tileCmd (outc mc duct pred succ : Nat) : JCmd := cmd 0x10 1 (tileBytes outc mc duct pred succ)

/-- Quire 0.0, and an operation of it in a phase. -/
def q0 : QuireId := ⟨0, 0⟩
def opIn (b : List Byte) (p : Phase) : InkOp :=
  { newOp (tileOfBody (bslice b 0 224)) (.scribe 0) ⟨5, 0, 0⟩ false with phase := p }
def inkUp (op : InkOp) : State := { up with inks := [(0, { inkReset with running := some op })] }

theorem wit_TileOpsEnterTheQueueOfTwo :
    (∀ x ∈ [(0, 0, 0), (0, 0, 0x90003), (0, 0x3, 0)],
      (let c := tileCmd x.1 x.2.1 x.2.2 0 0
       let q := targetQuire c
       let b := tileOfBody c.body
       (queueLive qUp 5 && (cqOf qUp 0 3).enabled && !headerBad qUp 0x10 c.hdr && !gateHeld qUp c false false) = true ∧
       cmdSrc qUp q ≠ 1 ∧ inkRoom qUp q b (skipped qUp q b) = true ∧ tileBad q b = false ∧ quireFenced qUp q = false ∧
       noTraining qUp = false ∧ b.hasSucc = false ∧ b.hasPred = decide (x.2.2 ≠ 0) ∧ b.isMcast = decide (x.2.1 ≠ 0) ∧
       skipped qUp q b = false ∧ wordLocal qUp b.pred = true ∧ partnerFenced qUp b.pred = false ∧ mcFind qUp q b = none)) ∧
    (let n : NibId := ⟨0, 0, 15⟩
     let s := setNib { up with act := [((inkFrame q0).base + 8, 0xFFFFA)] } n
       { nibReset with portWait := true, stage := bputRange [] 0x20 (tileBytes 0 0 0 0 0) }
     let b := tileOfBody (bgetRange (nibOf s n).stage 0x20 224)
     alive s = true ∧ (nibOf s n).portWait = true ∧ portFirst s n = true ∧ (nibOf s n).storeFault = none ∧ quireFenced s q0 = false ∧ cmdSrc s q0 ≠ 0 ∧
     bitAt (inkCfg s q0) (4 + 15) = true ∧ tileBad q0 b = false ∧ b.isMcast = false ∧ b.hasPred = false ∧ b.hasSucc = false ∧
     inkRoom s q0 b (skipped s q0 b) = true ∧ inkBlocked s q0 = false) := by decide +kernel

theorem wit_TileOpStreamsExactProducts : ∀ p ∈ [Phase.fill, .idle],
    (let op := opIn (tileBytes 0 0 0 0 0) p
     let r := opIn (tileBytes 0 0 0 0 0) .released
     let s := if p = .fill then inkUp op else { up with inks := [(0, { inkReset with running := some r, waiting := some op })] }
     let a := inkOperandA s q0 op
     let b := inkOperandB a.1 q0 op
     alive s = true ∧
     ((op.phase = .fill ∧ (inkOf s q0).running = some op) ∨
       (op.phase = .idle ∧ (inkOf s q0).waiting = some op ∧ (inkOf s q0).running = some r ∧ wellsFree s q0 r = true)) ∧
     op.skip = false ∧ op.ended = none ∧ inkBlocked s q0 = false ∧
     mcReady s q0 op.body = true ∧ op.body.init ≠ 1 ∧ a.2.stop op.body.opA op.body.kLen = none ∧ b.2.stop op.body.opB op.body.kLen = none) := by
  decide +kernel

theorem wit_TileOutputActions :
    (∀ b ∈ [tileBytes 0 0 0x10000 0 0, tileBytes 0 0 0 0 0, tileBytes 4 0 0 0 0, tileBytes 0x8 0 0 0 0],
      (let s := inkUp (opIn b .streaming)
       alive s = true ∧ (inkOf s q0).running = some (opIn b .streaming) ∧ (opIn b .streaming).fetchFault = none ∧
       (opIn b .streaming).ended = none ∧ mcTogether s q0 (opIn b .streaming).body = true)) ∧
    (opIn (tileBytes 0 0 0x10000 0 0) .streaming).body.hasPred = true ∧ (opIn (tileBytes 4 0 0 0 0) .streaming).body.action = 1 ∧
    (opIn (tileBytes 0x8 0 0 0 0) .streaming).body.action = 2 ∧ (opIn (tileBytes 0x8 0 0 0 0) .streaming).body.outFmt ∈ [0, 1, 2, 3, 4, 0xA, 0xB] ∧
    (let op := opIn (tileBytes 0x8 0 0 0 0) .streaming
     ∀ i, i < 64 → ∀ j, j < 64 → i ≠ j → rowAddr op i + 8 * fmtBits 0 ≤ rowAddr op j ∨ rowAddr op j + 8 * fmtBits 0 ≤ rowAddr op i) := by
  decide +kernel

theorem wit_TileOutputActions_reach : Quiet (inkUp (opIn (tileBytes 4 0 0 0 0) .streaming)) ∧
    Reaches (inkUp (opIn (tileBytes 4 0 0 0 0) .streaming)) 0 ⟨5, 0, 0⟩ 0x8000 393216 0x8000 true ∧
    ∀ i, i < 64 → Reaches (inkUp (opIn (tileBytes 8 0 0 0 0) .streaming)) 0 ⟨5, 0, 0⟩ (0x8000 + 1024 * i) 256 (0x8000 + 1024 * i) true :=
  ⟨quiet (by decide +kernel) rfl rfl rfl, reaches_id rfl (by decide +kernel) (by decide +kernel) rfl (by decide),
    fun i hi => reaches_id rfl (by decide +kernel) (by decide +kernel) rfl (by omega)⟩

theorem wit_TileOpsEndAndReport :
    (let s := inkUp (opIn (tileBytes 0 0 0 0 0) .released)
     alive s = true ∧ inkBlocked s q0 = false ∧ opDone s q0 (opIn (tileBytes 0 0 0 0 0) .released) = true) ∧
    (let op := opIn (tileBytes 0 0 0 0 0) .streaming
     let w := { opIn (tileBytes 12 0 0x20000 0 0x20000) .idle with ended := some stPeerAbandoned }
     let s := { up with inks := [(0, { inkReset with running := some op, waiting := some w })] }
     inkBlocked s q0 = false ∧ opDone s q0 op = false ∧ (inkOf s q0).waiting = some w ∧ w.ended = some stPeerAbandoned) ∧
    (let op := { opIn (tileBytes 12 0 0x20000 0 0x20000) .streaming with fetchFault := some ⟨stTranslation, 0xFFFFFFFFFFFF⟩ }
     let s := inkUp op
     op.fetchFault.isSome = true ∧ op.phase = .streaming ∧ op.ended = none ∧ op.sent = false ∧ op.body.hasSucc = true ∧ wordLocal s op.body.succ = true ∧ partnerFenced s op.body.succ = false) ∧
    ({ opIn (tileBytes 0 0 0 0 0) .fill with skip := true } : InkOp).skip = true ∧
    ({ opIn (tileBytes 8 0 0 0 0) .drain with outFault := some ⟨stTranslation, 0⟩ } : InkOp).outFault.isSome = true := by decide +kernel

theorem wit_HeldRecordsAndPaletteScrub :
    (let r : HeldRec := ⟨15, 15, leBytes 64 0⟩
     let s := { up with inks := [(0, { inkReset with held := some r })] }
     alive s = true ∧ (inkOf s q0).held = some r ∧ (nibOf s (nibIn q0 r.nib)).mailFull r.mbox.toNat = false ∧ r.bytes.length = 64 ∧
     quireFenced s q0 = false ∧ bitAt (inkCfg s q0) 3 = true ∧ (inkOf s q0).palPoison.contains 98303 = false ∧ sget 0 (inkOf s q0).palEcc 98303 = 0 ∧
     bitAt (inkCfg { s with act := [((inkFrame q0).base + 8, 0xFFFF0)] } q0) 3 = false) := by decide +kernel

theorem wit_DuctusLinks :
    (∀ k ∈ [DKind.credit, .tile, .abandon, .fenced], ∀ p ∈ [Phase.send, .ductusWait, .merge, .streaming],
      (let m : DuctMsg := ⟨k, 0, 0, 0, []⟩
       let op := { opIn (if k = .tile then tileBytes 0 0 0x10000 0 0 else tileBytes 12 0 0x20000 0 0) p with
         recv := if p = .merge then some [] else none }
       let s := { inkUp op with duct := [m] }
       alive s = true ∧ s.duct = [m] ∧ m.dst = linkWord s q0 ∧ (inkOf s q0).running = some op ∧ op.skip = false ∧ op.sent = false ∧
       op.ended = none ∧ (wordLocal s m.src && tileOnLig s (wordQuire m.src)) = false ∧ op.body.tag = m.tag ∧ (inkOf s q0).credits = [] ∧ inkBlocked s q0 = false ∧
       (inkOf s q0).palEcc = [] ∧ (inkOf s q0).palPoison = [] ∧ (inkOf s q0).palFree = [] ∧
       (k = .tile → op.body.hasPred = true ∧ op.body.pred = m.src) ∧
       (k ≠ .tile → op.body.hasPred = false ∧ op.body.hasSucc = true ∧ op.body.succ = m.src ∧ op.body.action = 3 ∧
         wordLocal s op.body.succ = true))) ∧ (inkOf up q0).running = none := by decide +kernel


/-! ### Nibs and the Brush -/

/-- Nib 0.0.0 running at address 0 with an instruction word there, and other contents as given. -/
def n0 : NibId := ⟨0, 0, 0⟩
def nibRun (w : Word) (f : Nib → Nib) : State :=
  setNib qUp n0 (f { nibReset with st := .running, space := ⟨5, 0, 0⟩, ls := bputRange [] 0 (leBytes 4 w.toNat) })

/-- LUI, AUIPC, ADDI, ADD, JAL, JALR, BEQ, FADD.S, FEQ.S, FENCE.I, LW and SW, each with its length. -/
def scalarWords : List (Word × Nat) := [0x800002B7, 0x00001297, 0xFFF00293, 0x007302B3, 0x008000EF, 0x000280E7, 0x00000463, 0x003170D3,
  0xA03122D3, 0x0000100F, 0x00002283, 0x00502023].map fun w => (w, 4)

theorem wit_NibScalarInstructions : ∀ x ∈ scalarWords, let w := x.1
    nibReady (nibRun w id) n0 = true ∧ (nibOf (nibRun w id) n0).lsEcc = [] ∧ (match nibFetch (nibOf (nibRun w id) n0) with | .ok r => decide (r = x) | _ => false) = true ∧
    otherRow w = false ∧ (nibOf (nibRun w id) n0).waits (rvSources w) = false ∧
    (field w 6 0 = 0x13 → (aluExec w 0 (immI w)).isSome = true) ∧ (field w 6 0 = 0x33 → (aluExec w 0 0).isSome = true) ∧
    (field w 6 0 = 0x63 → (branchTaken (rvF3 w) 0 0).isSome = true) ∧
    (field w 6 0 = 0x53 → (fpExec (nibOf (nibRun w id) n0) w).isSome = true) ∧
    (field w 6 0 = 0x03 → (immI w).toNat % 4 = 0 ∧ lsPoisoned (nibOf (nibRun w id) n0) (immI w).toNat 4 = false) := by decide +kernel

/-- ADDI x5, x0, −1 at address 0 (RV32I). -/
theorem test_addi : (nibOf (nx (exec (.nibScalarInstruction n0) (nibRun 0xFFF00293 id))) n0).xr 5 = 0xFFFFFFFF ∧
    (nibOf (nx (exec (.nibScalarInstruction n0) (nibRun 0xFFF00293 id))) n0).pc = 4 := by decide +kernel

/-- LW at the last word of the local store completes, and one past it faults with cause 2 (R124, R134). -/
theorem test_lw_end :
    (nibOf (nx (exec (.nibScalarInstruction n0) (nibRun 0x0002A303 fun v => v.setX 5 0x2FFFC))) n0).st = .running ∧
    (nibOf (nx (exec (.nibScalarInstruction n0) (nibRun 0x0002A303 fun v => v.setX 5 0x30400))) n0).cause = 2 := by decide +kernel

theorem wit_NibSystemInstructions :
    (∀ x ∈ [(1, 0x800), (2, 0x002), (3, 0x801), (5, 0x807), (6, 0xC00)],
      (let s := nibRun (csrWord x.1 x.2 5 (if x.2 = 0xC00 then 0 else 6)) id
       nibAtWord s n0 (csrWord x.1 x.2 5 (if x.2 = 0xC00 then 0 else 6)) = true ∧ (nibOf s n0).pends false 6 = false ∧
       (csrRead s (nibOf s n0) x.2).isSome = true)) ∧
    (∀ x ∈ [((0x0FF0000F : Word), 4), (0x73, 4), (0x00100073, 4)], let w := x.1
      nibReady (nibRun w id) n0 = true ∧ (nibOf (nibRun w id) n0).lsEcc = [] ∧ (match nibFetch (nibOf (nibRun w id) n0) with | .ok r => decide (r = x) | _ => false) = true ∧
      nibQuiet (nibRun w id) n0 = true ∧ (nibOf (nibRun w id) n0).xr 17 = 0 ∧
      (let u := nibRun w fun v => { v with rops := [⟨.load 5 false 7, 0x80000000, 0, 0, []⟩] }
       nibReady u n0 = true ∧ (nibOf u n0).rops ≠ []) ∧
      (let u : State := { nibRun w id with qdma := [(0, [⟨0, 0x2FFE0⟩])] }
       nibReady u n0 = true ∧ qdmaBusy u n0 = true)) := by decide +kernel

/-- CSRRW of BSTAT is a write it ignores, and the old value goes to the register (R146). -/
theorem test_csrrw_bstat : (nibOf (nx (exec (.csrAccess n0 1 0x802 5 6) (nibRun (csrWord 1 0x802 5 6) fun v => v.setX 6 1))) n0).xr 5 = 0 := by
  decide +kernel

theorem wit_NibLaunchReturnsAndStops :
    (let c := cmd 0x20 2 []
     (queueLive qUp 5 && (cqOf qUp 0 3).enabled && !headerBad qUp 0x20 c.hdr && !gateHeld qUp c false false) = true ∧
     (nibOf qUp (targetNib c)).st = .halted ∧ bget c.body 0 4 % 2 = 0 ∧ bget c.body 0x14 4 = 0 ∧
     quireFenced qUp (targetNib c).quire = false ∧ noTraining qUp = false) ∧
    (let s := nibRun 0 fun v => { v with rops := [⟨.load 5 false 7, 0x80000000, 0, 0, []⟩] }
     alive s = true ∧ quireFenced s n0.quire = false ∧ (nibOf s n0).rops = [⟨.load 5 false 7, 0x80000000, 0, 0, []⟩] ∧ (nibOf s n0).storeFault = none ∧ s.invals = []) ∧
    (let s := nibRun 0 fun v => { v with storeFault := some ⟨4, 0x80000000, 0⟩ }
     nibQuiet s n0 = true ∧ (nibOf s n0).portWait = false ∧ (nibOf s n0).storeFault = some ⟨4, 0x80000000, 0⟩) ∧
    ((nibOf (nibRun 0 id) n0).st = .running ∧ nibQuiet (nibRun 0 id) n0 = true) ∧
    ((coreOf up 0).running = true ∧ 0x2FFF8 % 2 ^ 3 = 0 ∧ 0x2FFF8 < lsSize ∧ (nibOf up n0).st = .halted ∧
      (nibOf up n0).lsEcc = [] ∧ lsPoisoned (nibOf up n0) 0x2FFF8 8 = false) := by decide +kernel

/-- A custom-0 instruction in each format, over the whole LEN of FP32. -/
def c0 (f : BitVec 3) (m s : Bool) (vs1 : BitVec 4) (src2 : BitVec 5) : C0 := ⟨2, m, f, vs1, s, src2, 0⟩
def ready0 (op : Nat) (i : C0) (sh : Shape0) (fmts : List Nat) : Bool :=
  let s := nibRun (enc0 op i) fun v => { v with len := 1024 }
  (nibOf s n0).lsEcc.isEmpty && nibAtWord s n0 (enc0 op i) && !(nibOf s n0).pends (fmtFp i.fmt.toNat) i.src2.toNat && !bad0 (nibOf s n0) i sh fmts

theorem wit_BrushArithmetic : (∀ op ∈ [0, 1, 2, 3, 4], ∀ f ∈ [(0 : BitVec 3), 1, 2, 3], ready0 op (c0 f false false 1 15) .bin [0, 1, 2, 3] = true) ∧
    (∀ f ∈ [(0 : BitVec 3), 1], ready0 7 (c0 f true true 1 31) .bin [0, 1] = true ∧ ready0 8 (c0 f false false 1 0) .un [0, 1] = true) := by
  decide +kernel

theorem wit_BrushSelectsAndBits : (∀ op ∈ [5, 6], ∀ f ∈ [(0 : BitVec 3), 1, 2, 3], ready0 op (c0 f false false 1 15) .bin [0, 1, 2, 3] = true) ∧
    (∀ op ∈ [0xD, 0xE, 0xF], ∀ f ∈ [(0 : BitVec 3), 1], ready0 op (c0 f true false 1 15) .bin [0, 1] = true) ∧
    (∀ op ∈ [0x10, 0x11, 0x12, 0x13, 0x14, 0x15], ∀ f ∈ [(2 : BitVec 3), 3], ready0 op (c0 f false true 1 31) .bin [2, 3] = true) ∧
    ready0 0x19 (c0 0 true false 1 15) .merge [0, 1, 2, 3] = true ∧ ready0 0x1A (c0 1 false true 0 31) .bcast [0, 1, 2, 3] = true ∧
    ready0 0x1B (c0 2 false false 0 0) .iota [2] = true := by decide +kernel

theorem wit_BrushApproximations : ∀ op ∈ [9, 0xA, 0xB, 0xC], ∀ f ∈ [(0 : BitVec 3), 1], ready0 op (c0 f false false 1 0) .un [0, 1] = true := by
  decide +kernel

theorem wit_BrushCompares : ∀ op ∈ [0x16, 0x17, 0x18], ∀ f ∈ [(0 : BitVec 3), 1, 2, 3],
    ready0 op ⟨2, false, f, 1, false, 15, 0⟩ .cmp [0, 1, 2, 3] = true := by decide +kernel

/-- VFMA v3, v1, f2 in FP32, unmasked, encodes as the example of R147 says. -/
theorem test_vfma_word : enc0 3 ⟨3, false, 0, 1, true, 2, 0⟩ = 0x1828818B := by decide +kernel

/-- 1.5 × 2 + 0.25 rounds once to 3.25 in FP32 (R153). -/
theorem test_vfma : (nibOf (nx (exec (.vfma n0 ⟨3, false, 0, 1, false, 2, 0⟩) (nibRun (enc0 3 ⟨3, false, 0, 1, false, 2, 0⟩) fun v =>
    { v with len := 1, v := [(1024, 0x3FC00000), (2048, 0x40000000), (3072, 0x3E800000)] }))) n0).velem 3 32 0 = 0x40500000 := by decide +kernel

/-- A custom-1 instruction that is ready, with the Nib's other contents as given. -/
def ready1 (op : Nat) (i : C1) (f : Nib → Nib) : Bool :=
  let s := nibRun (enc1 op i) f
  (nibOf s n0).lsEcc.isEmpty && nibAtWord s n0 (enc1 op i) && (List.range 32).all fun r => !(nibOf s n0).pends false r

theorem wit_BrushScalarsAndMasks :
    ready1 0 ⟨31, 0, 1, 0, 0⟩ (fun v => v.setX 1 0xFFFFFFFF) = true ∧
    (∀ op ∈ [8, 9, 0xA], ∀ f ∈ [(0 : BitVec 3), 1, 2, 3], ready1 op ⟨5, f, 15, 0, 1⟩ (fun v => { v with len := 1024 }) = true ∧
      badLen { nibReset with len := 1024 } (fmtBits (fmtCode f.toNat)) true = false) ∧
    ready1 0xB ⟨5, 0, 3, 0, 0⟩ (fun v => { v with len := 1024 }) = true ∧ ready1 0xC ⟨3, 3, 2, 1, 0⟩ (fun v => { v with len := 1024 }) = true ∧
    (∀ l ∈ [(0 : BitVec 13), 1], ready1 0xF ⟨5, 0, 15, 6, 0⟩ (fun v => { v.setX 6 1023 with len := l }) = true ∧
      ready1 0x10 ⟨15, 0, 5, 6, 0⟩ (fun v => { v.setX 6 1023 with len := l }) = true) := by decide +kernel

theorem wit_BrushLoadsAndStores :
    (∀ x ∈ [(1, (⟨2, 0, 5, 0, 0⟩ : C1)), (1, ⟨2, 2, 5, 6, 1⟩), (3, ⟨2, 0, 5, 3, 0⟩)],
      (let s := nibRun (enc1 x.1 x.2) fun v => { v.setX 5 0x2FF00 with len := 4 }
       let w := if x.1 = 3 then 32 else f3Width x.2.f3
       let l := if x.1 = 3 then gatherAddrs (nibOf s n0) x.2 [0, 1, 2, 3] else stepAddrs (nibOf s n0) x.2 (w / 8) [0, 1, 2, 3]
       ready1 x.1 x.2 (fun v => { v.setX 5 0x2FF00 with len := 4 }) = true ∧ w ≠ 0 ∧ badLen (nibOf s n0) 32 true = false ∧
       brushStalls s n0 (w / 8) (l.map Prod.snd) = false ∧ (brushReads n0 (w / 8) (x.1 = 3) none l s).2.isOk = true ∧
       ∀ y ∈ l, y.2 % (w / 8) = 0 ∧ y.2 + w / 8 ≤ lsSize)) ∧
    (∀ x ∈ [(2, (⟨2, 0, 5, 6, 0⟩ : C1)), (2, ⟨2, 2, 5, 0, 1⟩), (4, ⟨2, 0, 5, 3, 0⟩)],
      (let s := nibRun (enc1 x.1 x.2) fun v => { (v.setX 5 0x2FF00).setX 6 32 with len := 4 }
       let w := if x.1 = 4 then 32 else f3Width x.2.f3
       let l := if x.1 = 4 then gatherAddrs (nibOf s n0) x.2 [0, 1, 2, 3] else stepAddrs (nibOf s n0) x.2 (w / 8) [0, 1, 2, 3]
       ready1 x.1 x.2 (fun v => { (v.setX 5 0x2FF00).setX 6 32 with len := 4 }) = true ∧ w ≠ 0 ∧
       brushStalls s n0 (w / 8) (l.map Prod.snd) = false ∧
       (brushWrites n0 (w / 8) (x.1 = 4) false (l.map fun y => (y.2, leBytes (w / 8) ((nibOf s n0).velem 2 w y.1))) s).2.isOk = true)) ∧
    (let i : C1 := ⟨2, 0, 5, 0, 0⟩
     let s := nibRun (enc1 2 i) fun v => { v.setX 5 0x2FFF0 with len := 4 }
     ready1 2 i (fun v => { v.setX 5 0x2FFF0 with len := 4 }) = true ∧ badLen (nibOf s n0) 32 false = false ∧
     0x2FFF0 % 4 = 0 ∧ 0x2FFF0 + 4 * 4 ≤ lsSize) ∧
    ready1 0xD ⟨3, 0, 5, 0, 0⟩ (fun v => { v.setX 5 0x2FF80 with len := 1024 }) = true ∧ 0x2FF80 + 128 ≤ lsSize ∧
    ready1 0xE ⟨3, 0, 5, 0, 0⟩ (fun v => { v.setX 5 0x2FF80 with len := 1024 }) = true := by decide +kernel

theorem wit_BrushConvertsCompressesExpands :
    ready1 5 ⟨2, 0, 1, 2, 0⟩ (fun v => { v with len := 1024 }) = true ∧ fmtMx (2 / 2) = false ∧
    ready1 5 ⟨2, 0, 4, 14, 1⟩ (fun v => { v with len := 32 }) = true ∧ fmtMx (14 / 2) = true ∧
    (∀ b ∈ [fmtBits 0, fmtBits 1, fmtBits 7], badLen { nibReset with len := 1024 } b true = false) ∧
    ready1 6 ⟨2, 0, 1, 5, 3⟩ (fun v => { v with len := 1024 }) = true ∧ ready1 7 ⟨2, 0, 1, 0, 3⟩ (fun v => { v with len := 1024 }) = true := by
  decide +kernel

theorem wit_NibWellInstructions :
    ready1 0x11 ⟨0, 0, 0, 0, 0⟩ id = true ∧ (∀ f ∈ [(0 : BitVec 3), 1, 2, 3], ready1 0x12 ⟨0, f, 1, 15, 1⟩ (fun v => { v with len := 1024 }) = true ∧
      ready1 0x13 ⟨0, f, 15, 0, 1⟩ (fun v => { v with len := 1024 }) = true) ∧
    (∀ r ∈ [(0 : BitVec 5), 1], nwCode r.toNat = true ∧ ready1 0x14 ⟨5, 0, 0, r, 0⟩ id = true) ∧
    ready1 0x15 ⟨0, 0, 5, 0, 0⟩ (fun v => v.setX 5 0x2FFA0) = true ∧ 0x2FFA0 % 32 = 0 ∧ 0x2FFA0 + 96 ≤ lsSize ∧
    ready1 0x16 ⟨0, 0, 5, 0, 0⟩ (fun v => v.setX 5 0x2FFA0) = true ∧
    ((nibOf (nibRun (enc1 0x16 ⟨0, 0, 5, 0, 0⟩) fun v => v.setX 5 0x2FFA0) n0).ls.map Prod.fst).Pairwise (· < ·) ∧
    ready1 0x17 ⟨5, 0, 0, 0, 0⟩ id = true := by decide +kernel

/-- A Nib with window 0 open on virtual address 0. -/
def winUp (w : Word) (f : Nib → Nib) : State :=
  let s := nibRun w f
  { s with act := [((nibFrame n0).base + 0x800, 1)] }

theorem wit_MailboxesAtomicsAndQdma :
    ready1 0x18 ⟨0, 0, 5, 6, 0⟩ (fun v => v.setX 5 0x2FFC0) = true ∧ ready1 0x19 ⟨0, 0, 5, 0, 0⟩ (fun v => v.setX 5 31) = true ∧
    ready1 0x1A ⟨5, 0, 6, 0, 0⟩ (fun v => { v.setX 6 0x8000 with mfull := 0x8000 }) = true ∧
    ((0x8000 : BitVec 16) &&& 0x8000 ≠ 0 ∧ (0 : BitVec 16) &&& 0x8000 = 0) ∧
    (∀ f ∈ [(0 : BitVec 3), 1, 2, 3, 4, 5, 6],
      (let i : C1 := ⟨7, f, 5, 6, 0⟩
       let s := winUp (enc1 0x1B i) fun v => v.setX 5 0x80001000
       nibAtWord s n0 (enc1 0x1B i) = true ∧ (namoOp f).isSome = true ∧ nibAddr s n0 0x80001000 4 = .win 0x1000 ∧
       cachedPa s 0 (nibOf s n0).space 0x1000 true = some 0x1000 ∧ mappedAt s 0x1000 = true ∧ linePoisoned s (0x1000 / 128) = false ∧ lineEcc s (0x1000 / 128) = [])) ∧
    ready1 0x1C ⟨0, 0, 5, 0, 0⟩ (fun v => v.setX 5 0x2FFE0) = true ∧
    (let src : NibId := ⟨0, 0, 1⟩
     let dst : Word := BitVec.ofNat 32 (15 + 16 * 0 + 256 * 0 + 65536 * 0)
     let s := { setNib up src { nibReset with st := .running, rops := [⟨.msend, dst, 0, 0, []⟩] } with mail := [⟨src.num, dst, leBytes 64 0, false⟩] }
     alive s = true ∧ s.mail = [⟨src.num, dst, leBytes 64 0, false⟩] ∧ src ≠ n0 ∧ quireFenced s n0.quire = false ∧
     (nibOf s src).rops = [⟨.msend, dst, 0, 0, []⟩] ∧ (nibOf s src).storeFault = none ∧ (inkOf s n0.quire).held = none ∧
     (nibOf s n0).mailFull 15 = false ∧ (nibOf s n0).st ≠ .waiting ∧
     (nibOf (setNib s n0 { nibOf s n0 with mfull := 0x8000 }) n0).mailFull 15 = true ∧
     (∀ m ∈ [(⟨0, dst, leBytes 64 0, true⟩ : Mail), ⟨2, dst, leBytes 64 0, true⟩], (m.tried = true ∧ m.dst = dst) ∧ (m.src < src.num ∨ src.num ≤ m.src))) ∧
    (∀ dir ∈ [0, 1],
      (let d := 0x2FFE0
       let b := body [(4, 0x100), (4, 32), (8, 0x1000), (2, 1), (2, dir)]
       let s := { setNib qUp n0 { nibReset with space := ⟨5, 0, 0⟩, ls := bputRange [] d b } with qdma := [(0, [⟨0, 0x2FFE0⟩])] }
       let v := nibOf s n0
       alive s = true ∧ sget [] s.qdma 0 = [⟨0, 0x2FFE0⟩] ∧ d % 32 = 0 ∧ d + 32 ≤ lsSize ∧ v.storeFault = none ∧
       qdmaBad (bgetRange v.ls d 32) = false ∧ lsPoisoned v d 32 = false ∧ bget (bgetRange v.ls d 32) 0x10 2 = 1 ∧
       0x1000 % 128 + 32 ≤ 128 ∧ cachedPa s 0 v.space 0x1000 (dir = 1) = some 0x1000 ∧ mappedAt s 0x1000 = true ∧
       linePoisoned s (0x1000 / 128) = false ∧ lineEcc s (0x1000 / 128) = [])) := by decide +kernel


/-! ### DMA (p07) -/

def d0 : DmaId := ⟨0, 0⟩
/-- Channel 0 of half 0 with contents as given, under queue 5. -/
def dmaUp (f : Dma → Dma) : State := setDma qUp d0 (f { dmaReset with space := ⟨5, 0, 0⟩ })

/-- A one-row descriptor: control word, source, destination, bytes, NEXT and pattern. -/
def desc (ctl : Nat) (src dst n next : Nat) (pat : Nat) : List Byte :=
  body [(4, ctl), (4, 0), (8, src), (8, dst), (4, n), (4, 1), (4, 0), (4, 0), (8, next), (8, 0), (8, pat)]

/-- The channel running at 0x6000, with a descriptor in memory there. -/
def descUp (ctl : Nat) : State :=
  let s := dmaUp fun v => { v with st := .running, ptr := 0x6000 }
  { s with mem := { s.mem with cells := mputs [] 0x6000 (desc ctl 0x7000 0x8000 256 0x6040 0) } }

theorem wit_DmaStartsPausesAndResumes :
    (let c := cmd 0x30 0x23 (body [(8, 0x6000)])
     (queueLive qUp 5 && (cqOf qUp 0 3).enabled && !headerBad qUp 0x30 c.hdr && !gateHeld qUp c false false) = true ∧
     bget c.body 0 8 % 64 = 0 ∧ dmaFenced qUp ⟨0, 2⟩ = false ∧ (dmaOf qUp ⟨0, 2⟩).st = .idle ∧
     (dmaOf qUp ⟨0, 2⟩).pauseReq = false ∧ updReads qUp ⟨0, 2⟩ = false) ∧
    alive qUp = true ∧ dmaFenced qUp d0 = false ∧ (dmaOf qUp d0).st = .idle ∧
    (dmaOf (dmaUp fun v => { v with st := .running }) d0).reads = [] ∧ updReads qUp d0 = false ∧
    (dmaOf (dmaUp fun v => { v with st := .running, reads := [⟨128, 0x7000, some 0x7000, []⟩] }) d0).reads ≠ [] ∧
    (dmaOf (dmaUp fun v => { v with st := .paused, pauseReq := true }) d0).st = .paused ∧
    (dmaOf (dmaUp fun v => { v with st := .halted }) d0).st = .halted := by decide +kernel

theorem wit_DmaDescriptorsRunInOrder :
    (∀ x ∈ [(1, true), (3, true), (9, true), (0, false)],
      (let s := descUp x.1
       alive s = true ∧ dmaFenced s d0 = false ∧ (dmaOf s d0).st = .running ∧ (dmaOf s d0).desc = none ∧ (dmaOf s d0).ptr.toNat % 64 = 0 ∧
       (match vread s 0 (dmaOf s d0).space 0x6000 64 with
        | (_, .ok b) => !b.poisoned && (dmaDesc b.bytes).own == x.2 && !(dmaDesc b.bytes).bad | _ => false) = true)) ∧
    (let s := dmaUp fun v => { v with st := .running, ptr := 0x6001 }
     alive s = true ∧ dmaFenced s d0 = false ∧ (dmaOf s d0).ptr.toNat % 64 ≠ 0 ∧
     (let u := dmaUp fun v => { v with st := .running, ptr := 0x6001, launch := some 7 }
      (dmaOf u d0).launch = some 7 ∧ (dmaOf u d0).desc = none)) ∧
    (∀ ctl ∈ [1, 3],
      (let x := dmaDesc (desc ctl 0x7000 0x8000 256 0x6040 0)
       let s := dmaUp fun v => { v with st := .running, ptr := 0x6000, desc := some x, done := 256 }
       (dmaOf s d0).desc = some x ∧ x.own = true ∧ (dmaOf s d0).fail = none ∧ (dmaOf s d0).poison = false ∧
       x.total ≤ (dmaOf s d0).done ∧ s.mem.cells = [] ∧ s.coh.caches = [] ∧ x.chain = decide (ctl = 3))) ∧
    (let x := dmaDesc (desc 1 0x7000 0x8000 256 0 0)
     let s := dmaUp fun v => { v with st := .running, ptr := 0x1000000000000, desc := some x, done := 256 }
     alive s = true ∧ x.total ≤ (dmaOf s d0).done ∧ 2 ^ 48 ≤ (dmaOf s d0).ptr.toNat) := by decide +kernel

/-- The third kind of hypothesis: a quiet memory that the descriptor's address reaches. -/
theorem wit_DmaWriteBack :
    Quiet (dmaUp fun v => { v with st := .running, ptr := 0x6000 }) ∧
    Reaches (dmaUp fun v => { v with st := .running, ptr := 0x6000 }) 0 ⟨5, 0, 0⟩ 0x6000 64 0x6000 true :=
  ⟨quiet (by decide +kernel) (by decide +kernel) (by decide +kernel) (by decide +kernel),
    reaches_id (by decide +kernel) (by decide +kernel) (by decide +kernel) (by decide +kernel) (by decide +kernel)⟩

/-- A channel moving a descriptor's first piece, with the reads that are outstanding. -/
def moving (y : DmaDesc) (r : List DmaRead) : State :=
  dmaUp fun v => { v with st := .running, ptr := 0x6000, desc := some y, reads := r }

theorem wit_DmaMovesBytes :
    (∀ x ∈ [((1 : Nat), false, [(⟨128, 0x7000, some 0x7000, []⟩ : DmaRead)]), (9, true, []), (1, false, [⟨128, 0x7000, none, []⟩])],
      (let y := dmaDesc (desc x.1 0x7000 0x8070 256 0 0x0807060504030201)
       let s := moving y x.2.2
       alive s = true ∧ dmaFenced s d0 = false ∧ (dmaOf s d0).st = .running ∧ (dmaOf s d0).desc = some y ∧ y.bad = false ∧
       (dmaOf s d0).fail = none ∧ (dmaOf s d0).done < y.total ∧ y.fill = x.2.1 ∧ (dmaOf s d0).reads = x.2.2 ∧ y.piece 0 = (if x.2.1 then 16 else 128) ∧
       y.dstAt 0 = 0x8070 ∧ dmaWaits s d0 = false ∧ served s 0x7000 = true ∧ 0x7000 % 128 + 128 ≤ 128 ∧ s.invals = [] ∧
       (∀ i, i < 128 → y.inSrc (0x8070 + i) = false) ∧ s.xlt = [idLeaf 0, idLeaf 1] ∧ (liveStacks s 0).length = 6)) ∧
    (let y := dmaDesc (desc 9 0 0x8070 256 0 0)
     let s := moving y []
     dmaWaits { setDma s ⟨0, 1⟩ (dmaOf s d0) with regs := s.regs ++ [((Frame.dma 0).base + 0x140, 4)] } d0 = true ∧
     dmaWaits { setDma s ⟨0, 1⟩ (dmaOf s d0) with dmaTurn := [(0, 0)] } d0 = true) := by decide +kernel

/-- The same with a quiet memory that the destination reaches. -/
theorem wit_DmaMovesBytes_reach : Quiet (moving (dmaDesc (desc 9 0 0x8070 256 0 0)) []) ∧
    Reaches (moving (dmaDesc (desc 9 0 0x8070 256 0 0)) []) 0 ⟨5, 0, 0⟩ 0x8070 128 0x8070 true :=
  ⟨quiet (by decide +kernel) (by decide +kernel) (by decide +kernel) (by decide +kernel),
    reaches_id (by decide +kernel) (by decide +kernel) (by decide +kernel) (by decide +kernel) (by decide +kernel)⟩

/-- A fill writes to the end of the line first, with the pattern from the row's start (R200, R201). -/
theorem test_dma_fill :
    mgets (nx (exec (.dmaLineReturn d0) (dmaUp fun v =>
      { v with st := .running, ptr := 0x6000, desc := some (dmaDesc (desc 9 0 0x807C 256 0 0x0807060504030201)) }))).mem.cells 0x807B 6 = [0, 1, 2, 3, 4, 0] := by
  decide +kernel

/-! ### Flit links and ports (p08) -/

theorem leNat_leBytes (n x : Nat) : leNat (leBytes n x) = x % 256 ^ n := by
  induction n generalizing x with
  | zero => simp [leBytes, leNat, Nat.mod_one]
  | succ n ih => rw [Nat.pow_succ, Nat.mul_comm (256 ^ n), Nat.mod_mul, ← ih]; rfl

theorem leBytes_len (n x : Nat) : (leBytes n x).length = n := by
  induction n generalizing x with
  | zero => rfl
  | succ n ih => simp [leBytes, ih]

/-- What the last bytes of a frame spell. -/
theorem bget_tail (b : List Byte) (k n x : Nat) (h : b.length = k) : bget (b ++ leBytes n x) k n = x % 256 ^ n := by
  rw [← leNat_leBytes]
  simp [bget, ← h, List.drop_left', List.take_of_length_le, leBytes_len]

/-- A flit or a block: bytes and a check value. -/
def framed (b : List Byte) (n x : Nat) : List Byte := b ++ leBytes n x

theorem framed_ok (b : List Byte) (n x : Nat) : (framed b n x).length = b.length + n ∧ bget (framed b n x) b.length n = x % 256 ^ n ∧
    (framed b n x).take b.length = b :=
  ⟨by simp [framed, leBytes_len], bget_tail b _ n x rfl, by simp [framed]⟩

/-- The bytes of a flit before its CRC. -/
def flitBody (cw : Nat) : List Byte := leBytes 4 cw ++ List.replicate 58 7
/-- The bytes of a block before its CRC. -/
def blockBody (hdr : Nat) (pay : List Byte) : List Byte := leBytes 8 hdr ++ bslice pay 0 244

theorem flit_ok (cw : Nat) : (framed (flitBody cw) 2 (crc16 (flitBody cw)).toNat).length = 64 ∧
    bget (framed (flitBody cw) 2 (crc16 (flitBody cw)).toNat) 62 2 = (crc16 ((framed (flitBody cw) 2 (crc16 (flitBody cw)).toNat).take 62)).toNat ∧
    bget (framed (flitBody cw) 2 ((crc16 (flitBody cw)).toNat + 1)) 62 2 ≠ (crc16 ((framed (flitBody cw) 2 ((crc16 (flitBody cw)).toNat + 1)).take 62)).toNat := by
  have hl : (flitBody cw).length = 62 := by simp [flitBody, leBytes_len]
  have h := framed_ok (flitBody cw) 2 (crc16 (flitBody cw)).toNat
  have g := framed_ok (flitBody cw) 2 ((crc16 (flitBody cw)).toNat + 1)
  rw [hl] at h g
  rw [h.2.1, h.2.2, g.2.1, g.2.2]
  have hb : (crc16 (flitBody cw)).toNat < 2 ^ 16 := (crc16 (flitBody cw)).isLt
  exact ⟨h.1, by omega, by omega⟩

theorem block_ok (hdr : Nat) (pay : List Byte) : let b := blockBody hdr pay
    (framed b 4 (crc32 b).toNat).length = 256 ∧ bget (framed b 4 (crc32 b).toNat) 252 4 = (crc32 ((framed b 4 (crc32 b).toNat).take 252)).toNat ∧
    bget (framed b 4 ((crc32 b).toNat + 1)) 252 4 ≠ (crc32 ((framed b 4 ((crc32 b).toNat + 1)).take 252)).toNat := by
  intro b
  have hl : b.length = 252 := by
    simp only [b, blockBody, List.length_append, leBytes_len, bslice, List.length_replicate, List.length_take, List.length_drop]; omega
  have h := framed_ok b 4 (crc32 b).toNat
  have g := framed_ok b 4 ((crc32 b).toNat + 1)
  rw [hl] at h g
  rw [h.2.1, h.2.2, g.2.1, g.2.2]
  have hb : (crc32 b).toNat < 2 ^ 32 := (crc32 b).isLt
  exact ⟨h.1, by omega, by omega⟩

def ligUp (f : Link → Link) : State := setLink up (.lig 0) (f linkReset)
/-- Two flits in the replay buffer. -/
def twoSent (l : Link) : Link := { l with replay := [(1022, 0, []), (1023, 0, [])], nextSeq := 0 }

theorem wit_FlitLinksDeliverRetryAndFail :
    linkLive (ligUp twoSent) (.lig 0) = true ∧ linkLive (ligUp twoSent) (.blVellum 1) = true ∧ linkLive (ligUp twoSent) (.blBlotter 0) = true ∧
    (linkOf (ligUp twoSent) (.lig 0)).rxExp = 0 ∧ fieldN (2 ^ 14 * 1022) 13 4 = 0 ∧ fieldN (2 ^ 14 * 1022) 23 14 = 1022 ∧
    fieldN 8 3 2 = 2 ∧ fieldN 16 13 4 ≠ 0 ∧
    (linkOf (ligUp twoSent) (.lig 0)).replay = [] ++ (1022, 0, []) :: [(1023, 0, [])] ∧
    1 < replayLimit (ligUp twoSent) (.blVellum 0) ∧
    (linkOf (ligUp fun l => { l with discard := true }) (.lig 0)).discard = true ∧
    (linkOf (ligUp fun l => { l with txq := [(0, 1, [])] }) (.lig 0)).txq = [(0, 1, [])] ∧
    flitCredit (linkOf (ligUp fun l => { l with txq := [(0, 1, [])] }) (.lig 0)) (.lig 0) 1 = true ∧
    replayLimit (ligUp fun l => { l with reqCount := 31 }) (.lig 0) ≤ 31 ∧ (linkOf (ligUp twoSent) (.lig 0)).replay ≠ [] := by
  decide +kernel

/-- Port 0 in a state and role. -/
def portIn (st : PortSt) (role : BitVec 2) (f : Link → Link) : State := setPort up 0 { portReset with st := st, role := role, link := f linkReset }
/-- A packet with no payload to a package; its route goes by port 0. -/
def transit (hops : Byte) : UtpPkt :=
  let k : UtpPkt := { (pktOfBytes []) with dst := 9, src := 2, hops := hops }
  { k with hcrc := pktHcrc k }
def routeUp : State :=
  let s := portIn .up 1 id
  { s with col := { s.col with rubric := { s.col.rubric with pkg := 5 } }, routes := [(9, 0x04000000)] }

/-- The same with port 1 UP and the route by it. -/
def routeTwo : State :=
  setPort { routeUp with routes := [(9, 0x04000001)] } 1 { portReset with st := .up, role := 1 }

theorem wit_VellumPortsTrainFailAndForward :
    (∀ x ∈ [(PortSt.signal, (1 : BitVec 2)), (.aligned, 2), (.aligned, 1), (.init, 1), (.up, 1)], portLive (portIn x.1 x.2 id) 0 = true ∧
      (portOf (portIn x.1 x.2 id) 0).st = x.1 ∧ (portOf (portIn x.1 x.2 id) 0).role = x.2 ∧
      portLive { portIn x.1 x.2 id with coh := { up.coh with down := true } } 0 = true) ∧
    portReplayLimit (portIn .up 1 fun l => { l with reqCount := 31 }) 0 ≤ (portOf (portIn .up 1 fun l => { l with reqCount := 31 }) 0).link.reqCount ∧
    (portOf (portIn .up 1 twoSent) 0).link.replay = [] ++ (1022, 0, []) :: [(1023, 0, [])] ∧
    1 < portReplayLimit (portIn .up 1 twoSent) 0 ∧ (portOf (portIn .up 1 fun l => { l with discard := true }) 0).link.discard = true ∧
    (portOf routeUp 0).link.cut = [] ∧ (portOf routeTwo 1).link.txq = [] ∧ (portOf routeTwo 1).link.owner = [] ∧ routeTwo.routesSh = [] ∧
    routePort routeTwo (portHalf 0) (transit 1) = some 1 ∧ blockFree (portOf routeTwo 1).link (pktLane (atLevel routeTwo (portHalf 0) (transit 1))) = true ∧
    (∀ x ∈ [((0 : Nat), (0 : BitVec 16)), (2 ^ 29, 0), (2 ^ 29 + 2 ^ 30, 5), (2 ^ 29 + 2 ^ 30, 9)],
      (let b := blockBody x.1 (leBytes 2 x.2.toNat)
       fieldN (bget b 0 8) 28 27 = 0 ∧
       fieldN (bget b 0 8) 11 0 = (portOf routeUp 0).link.rxExp ∧ (portOf routeUp 0).link.txq = [] ∧
       (pktOfBytes ((b.drop 8).take 244)).dst = x.2 ∧ (pktOfBytes ((b.drop 8).take 244)).opcode = 0)) ∧ ownPkg routeUp = 5 ∧
    (∀ hops ∈ [(0 : Byte), 1], alive routeUp = true ∧ halfFenced routeUp 0 = false ∧ (transit hops).dst ≠ ownPkg routeUp ∧
      pktHeadOk (transit hops) = true) ∧ bitAt (routeOf routeUp 0 9) 26 = true ∧ portUp routeUp 0 = true ∧
    (transit 1).payload.length ≤ 212 ∧ blockFree (portOf routeUp 0).link 0 = true := by decide +kernel

/-! ### Contexts, rings and Ethernet (p09) -/

/-- This package is 5, package 2 is reached by port 0. -/
def utpUp : State := { routeUp with routes := [(2, 0x04000000)] }
/-- A packet that package 2 sends to package 5. -/
def fromTwo (op cls : Nat) (psn : Nat) (apsn : Option Nat) (pay : List Byte) : UtpPkt :=
  mkPkt { up with col := { up.col with rubric := { up.col.rubric with pkg := 2 } } } 5 cls op true psn apsn pay
/-- Context (2, 2) with contents as given. -/
def ctxUp (f : Ctx → Ctx) : State := setCtx utpUp (ctxKey 2 2) (f { ctxReset with st := .opened, inc := some (incarnation up) })
/-- A Ductus credit for an Inkstone of this package. -/
def creditBytes : List Byte := body [(4, 0), (4, 7), (4, 5), (4, 2)]
/-- Two packets waiting for an acknowledgement. -/
def twoWait (c : Ctx) : Ctx := { c with unacked := [fromTwo 0 2 4 none [], fromTwo 0 2 5 none []], psn := 6, sentN := 2 }

/-- The same with a go-back-N from PSN 4 whose blocks wait in port 0. -/
def resending : State :=
  setPort (ctxUp fun c => { twoWait c with goback := some 4 }) 0 { portReset with link := { linkReset with txq := [(256 + 34, 0, [])] } }

theorem payload_ok (k : UtpPkt) (h : k.payload.length = k.len.toNat) (hp : k.pcrc = pktPcrc k.payload) : pktPayOk k = true := by
  simp [pktPayOk, h, hp]

theorem credit_for_us (psn : Nat) (h : pktHeadOk (fromTwo 0 2 psn none (bslice creditBytes 0 32)) = true) (f : Ctx → Ctx) :
    ForUs (ctxUp f) (fromTwo 0 2 psn none (bslice creditBytes 0 32)) 0 :=
  ⟨by rfl, by rfl, by rfl, by rw [pktGood, h, payload_ok _ (by rfl) (by rfl)]; rfl⟩

theorem for_us {s : State} {k : UtpPkt} {op : Nat} (h : (alive s && decide (k.dst = ownPkg s) && decide (k.opcode.toNat = op) && pktGood k) = true) :
    ForUs s k op := by
  simp only [Bool.and_eq_true, decide_eq_true_eq] at h
  exact ⟨h.1.1.1, h.1.1.2, h.1.2, h.2⟩

theorem wit_ContextsDeliverInOrder :
    (ForUs (ctxUp id) (fromTwo 0 2 0 none (bslice creditBytes 0 32)) 0 ∧ InOpen (ctxUp id) (fromTwo 0 2 0 none (bslice creditBytes 0 32)) ∧
      (∃ m, ductOfBytes (bslice creditBytes 0 32) = some m ∧ m.kind = .credit ∧ quireFenced (ctxUp id) (wordQuire m.dst) = false)) ∧
    (∀ psn ∈ [1, 0x7FFFFF, 0x800000, 0xFFFFFF], ForUs (ctxUp id) (fromTwo 0 2 psn none []) 0 ∧ InOpen (ctxUp id) (fromTwo 0 2 psn none []) ∧
      bitAt (fromTwo 0 2 psn none []).apsn 31 = false) ∧
    (routePort (ctxUp id) 0 (mkPkt (ctxUp id) 2 2 2 false 0 none [])).isSome = true ∧
    (ForUs (ctxUp twoWait) (fromTwo 1 2 0 (some 5) []) 1 ∧ InOpen (ctxUp twoWait) (fromTwo 1 2 0 (some 5) []) ∧
      bitAt (fromTwo 1 2 0 (some 5) []).apsn 31 = true ∧ field (fromTwo 1 2 0 (some 5) []).apsn 23 0 = 5) ∧
    (∀ op ∈ [2, 3], ForUs (ctxUp twoWait) (fromTwo op 2 0 none []) op ∧ InOpen (ctxUp twoWait) (fromTwo op 2 0 none [])) ∧
    gobackRuns (ctxUp twoWait) 34 4 = false ∧ gobackRuns resending 34 4 = true ∧
    (ForUs (ctxUp fun c => { c with inc := some 9 }) (fromTwo 0 2 0 none []) 0 ∧ (fromTwo 0 2 0 none []).inc ≠ 9 ∧
      (ctxUp fun c => { c with inc := some 9 }).noWork) := by
  refine ⟨⟨credit_for_us 0 (by decide +kernel) id, ⟨by decide +kernel, by decide +kernel⟩, _, rfl, by decide +kernel, by decide +kernel⟩, ?_, ?_, ?_, ?_, ?_⟩
  · intro psn h
    simp only [List.mem_cons, List.not_mem_nil, or_false] at h
    rcases h with rfl | rfl | rfl | rfl <;>
      exact ⟨for_us (by decide +kernel), ⟨by decide +kernel, by decide +kernel⟩, by decide +kernel⟩
  · decide +kernel
  · exact ⟨for_us (by decide +kernel), ⟨by decide +kernel, by decide +kernel⟩, by decide +kernel, by decide +kernel⟩
  · intro op h
    simp only [List.mem_cons, List.not_mem_nil, or_false] at h
    rcases h with rfl | rfl <;> exact ⟨for_us (by decide +kernel), ⟨by decide +kernel, by decide +kernel⟩⟩
  · exact ⟨by decide +kernel, by decide +kernel, for_us (by decide +kernel), by decide +kernel, rfl, rfl, rfl⟩

/-- DATA in order for a Ductus class advances the expected PSN, DATA above it leaves one NAK (R357). -/
theorem test_data_gap : (ctxOf (nx (exec (.dataPacket (fromTwo 0 2 1 none [])) (ctxUp id))) (ctxKey 2 2)).nakSent = true ∧
    (ctxOf (nx (exec (.dataPacket (fromTwo 0 2 1 none [])) (ctxUp id))) (ctxKey 2 2)).expPsn = 0 := by decide +kernel

theorem wit_ContextsOpenRetryAndReset :
    (∀ st ∈ [CtxSt.closed, .failed, .down, .opened, .opening], ForUs (ctxUp fun c => { c with st := st }) (fromTwo 4 2 0 none []) 4) ∧
    (fromTwo 4 2 0 none []).inc = incarnation up ∧ (2 : BitVec 16).toNat < (ownPkg utpUp).toNat ∧
    (ForUs (ctxUp fun c => { c with st := .opening }) (fromTwo 5 2 0 none []) 5) ∧
    (ForUs (ctxUp id) (fromTwo 6 0 0 none []) 6 ∧ (ctxUp id).noWork) ∧
    alive (ctxUp twoWait) = true ∧ ctxHalf (ctxUp twoWait) 2 = 0 ∧ (ctxOf (ctxUp twoWait) 34).unacked ≠ [] ∧
    retryLimit { ctxUp twoWait with act := [((Frame.utp 0).base + 0x08, 7 * 1024)] } 0 = 7 ∧
    retryLimit (ctxUp id) 0 ≤ (ctxOf (ctxUp fun c => { c with retries := 15 }) 34).retries + 1 ∧
    (ctxOf (ctxUp fun c => { c with sinceAck := 15, rnrWait := true }) 34).sinceAck = 15 ∧
    (let s := { ctxUp id with regs := [((Frame.utp 0).base + 0x18, 34)], frames := { up.frames with lock := [frameKey (.utp 0)] } }
     halfFenced s 0 = false ∧ field (regWord s ((Frame.utp 0).base + 0x18)) 19 0 = 34 ∧ s.frames.lock.contains (frameKey (.utp 0)) = true) ∧
    (ctxUp id).frames.lock.contains (frameKey (.utp 0)) = false := by
  refine ⟨?_, by decide +kernel, by decide +kernel, for_us (by decide +kernel), ⟨for_us (by decide +kernel), rfl, rfl, rfl⟩, by decide +kernel,
    by decide +kernel, by decide +kernel, by decide +kernel, by decide +kernel, by decide +kernel, by decide +kernel, by decide +kernel⟩
  intro st h
  simp only [List.mem_cons, List.not_mem_nil, or_false] at h
  rcases h with rfl | rfl | rfl | rfl | rfl <;> exact for_us (by decide +kernel)

/-- Ring 6 of half 0 with 16 descriptors each way from 0x20000 and 0x28000 on, one of each owned, and port 0 on Ethernet. -/
def ringUp : State :=
  let s := portIn .up 2 id
  { s with
    regs := s.regs ++ [(ringBlock 0 6, 0x20000), (ringBlock 0 6 + 8, 0x28000), (ringBlock 0 6 + 0x10, 0x144)]
    rings := [(6, { ringReset with rxTail := 1 })]
    mem := { s.mem with cells := mputs (mputs [] 0x20000 (body [(4, 2 ^ 31), (4, 64), (8, 0x30000)])) 0x28000 (body [(4, 2 ^ 31), (4, 2048), (8, 0x31000)]) } }

/-- A broadcast frame of 60 bytes without FCS, with an EtherType and a payload. -/
def etherBody (t : Nat) (pay : List Byte) : List Byte :=
  [255, 255, 255, 255, 255, 255, 0, 0, 0, 0, 0, 1, BitVec.ofNat 8 (t / 256), BitVec.ofNat 8 t] ++ bslice pay 0 46
/-- An IPv4 datagram for 10.0.0.1, UDP port 5004, with a good header checksum and no UDP checksum. -/
def udpPay : List Byte := [0x45, 0, 0, 0x1C, 0, 0, 0, 0, 0x40, 17, 0x70, 0xD1, 0, 0, 0, 0, 10, 0, 0, 1, 0, 0, 0x13, 0x8C, 0, 8, 0, 0]

theorem ether_ok (t : Nat) (pay : List Byte) : let b := etherBody t pay; let f := framed b 4 (crc32 b).toNat
    f.length = 64 ∧ f.take (f.length - 4) = b ∧ bget f (f.length - 4) 4 = (crc32 (f.take (f.length - 4))).toNat ∧
    (let g := framed b 4 ((crc32 b).toNat + 1); g.length = 64 ∧ bget g (g.length - 4) 4 ≠ (crc32 (g.take (g.length - 4))).toNat) := by
  intro b f
  have hl : b.length = 60 := by
    simp only [b, etherBody, List.length_append, List.length_cons, List.length_nil, bslice, List.length_replicate, List.length_take, List.length_drop]; omega
  have h := framed_ok b 4 (crc32 b).toNat
  have g := framed_ok b 4 ((crc32 b).toNat + 1)
  have hb : (crc32 b).toNat < 2 ^ 32 := (crc32 b).isLt
  rw [hl] at h g
  refine ⟨h.1, ?_, ?_, g.1, ?_⟩
  · rw [h.1]; exact h.2.2
  · rw [h.1]; show bget f 60 4 = (crc32 (f.take 60)).toNat; rw [h.2.1, h.2.2]; omega
  · rw [g.1]; show bget _ 60 4 ≠ (crc32 (List.take 60 _)).toNat; rw [g.2.1, g.2.2]; omega

theorem wit_RingsAndEthernetFrames :
    (let s0 := ringApply (setRing ringUp 0 6 { ringOf ringUp 0 6 with txTail := 1 }) 0 6
     halfFenced ringUp 0 = false ∧ alive ringUp = true ∧ ringsStopped ringUp = false ∧ ringOn s0 0 6 = true ∧ txLog2 s0 0 6 = 4 ∧
     (ringOf ringUp 0 6).txHead.toNat < 16 ∧ txDesc s0 0 6 0 = 0x20000 ∧
     (match ownedDesc s0 0x20000 with
      | (s1, some d) => (match pread s1 (bget d 8 8) (bget d 4 4) with
        | (s2, some pb) => !pb.poisoned && decide (s2.coh.caches = []) && decide (s2.ecc = []) && decide (s2.stale = []) && decide (s2.resEcc = []) && decide ((ethPorts ringUp 0)[bget d 0 2]? = some 0) &&
          (List.range 32).all fun i => served s2 (0x20000 + i)
        | _ => false)
      | _ => false) = true) ∧
    alive ringUp = true ∧ (portOf ringUp 0).role = 2 ∧ engineFenced ringUp 0 = false ∧
    beget (etherBody 0x8808 []) 12 2 = 0x8808 ∧ beget (etherBody 0x806 []) 12 2 ≠ 0x8808 ∧ isTag (beget (etherBody 0x806 []) 12 2) = false ∧
    etherTo ((etherBody 0x8100 [0, 5, 8, 0]).take 12 ++ (etherBody 0x8100 [0, 5, 8, 0]).drop 16) = .drop ∧
    macAccepts ringUp 0 (BitVec.ofNat 48 (beget (etherBody 0x806 []) 0 6)) = true ∧ etherTo (etherBody 0x806 []) = .ring ∧
    etherTo (etherBody 0x800 udpPay) = .udp false 0x0A000001 5004 [] ∧ flowMatch ringUp 0 false 0x0A000001 5004 = none ∧
    (let s : State := { ringUp with flows := [(0, ⟨true, false, 0x0A000001, 5004, none, true⟩)] }
     flowMatch s 0 false 0x0A000001 5004 = some ⟨true, false, 0x0A000001, 5004, none, true⟩) ∧
    (match rxPosted ringUp 0 6 with
     | (s1, some (a, d)) => decide (a = 0x28000) && decide (bget d 4 4 = 2048) && decide (bget d 8 8 = 0x31000) && decide (s1.coh.caches = []) && decide (s1.ecc = []) && decide (s1.stale = []) && decide (s1.resEcc = []) &&
         ((List.range 32).all fun i => served s1 (a + i)) && (List.range 60).all fun i => served s1 (0x31000 + i)
     | _ => false) = true := by decide +kernel

/-- A frame for the ring lands in the posted buffer, and its length is reported without the FCS (R360, R362). -/
theorem test_ether_to_ring : (let s := nx (.next (ethToRing ringUp 0 (etherBody 0x806 [9, 8, 7])))
    mgets s.mem.cells 0x31000 17 = (etherBody 0x806 [9, 8, 7]).take 17 ∧ mgets s.mem.cells 0x28014 4 = [60, 0, 0, 0]) := by decide +kernel

/-! ### The Scriptorium (p10) -/

/-- A bucket descriptor: tag, control word, elements, and the participants' number in the list at 0x9000. -/
def bdescBytes (tag ctl elems ranks mode : Nat) : List Byte :=
  body [(4, tag), (4, ctl), (8, elems), (8, 0xB000), (8, 0), (8, 0xC000), (8, if mode = 0 then 0xA000 else 0), (8, 1), (8, 0x9000), (4, 0), (4, ranks), (8, 0)]
/-- MODE 0 with half 0's contribution; RETAIN is bit 12. -/
def bdesc0 (ranks : Nat) : BDesc := bdescOf (bdescBytes 4 0x1004 2 ranks 0)

/-- Package 5 with a bucket descriptor at 0x8000, participants 5 and 2, a table 0x7F and a contribution of 1.5 and 288. -/
def srpUp (ranks : Nat) : State :=
  let m := mputs (mputs (mputs (mputs [] 0x8000 (bdescBytes 4 0x1004 2 ranks 0)) 0x9000 [5, 0, 2, 0]) 0xA000 [0x7F]) 0xB000 [0xC0, 0x3F, 0x90, 0x43]
  { qUp with
    col := { qUp.col with rubric := { qUp.col.rubric with pkg := 5, pools := [1, 0] } }, routes := [(2, 0x04000000)]
    ports := utpUp.ports, mem := { qUp.mem with cells := m } }

/-- Tag 4 with contents as given, under command 0. -/
def tagUp (ranks : List (BitVec 16)) (f : Tag → Tag) : State :=
  let s := srpUp ranks.length
  setTag { s with outs := [outOf 0 none], nextId := 1 } 4 (f { tagReset with
    st := .running, space := ⟨5, 0, 0⟩, out := some 0, desc := some (bdesc0 ranks.length), ranks := ranks, table := [0x7F] })

def starting (s : State) (op : Nat) (c : JCmd) (o : Bool) : Bool :=
  queueLive s c.queue.toNat && (cqOf s (queueHalf c.queue.toNat) (field c.hdr.cq 11 0)).enabled && !headerBad s op c.hdr && !gateHeld s c o false

theorem wit_BucketsStartSumAndComplete :
    (∀ n ∈ [1, 2],
      (let s := srpUp n
       let c := cmd 0x40 4 (body [(8, 0x8000)])
       starting s 0x40 c false = true ∧ srpHeld s 5 true = false ∧ leadHalf s 4 = 0 ∧ (tagOf s 4).live = false ∧ (tagOf s 4).heldMsgs = [] ∧
       (match vread (takeHead s c 0x40) 0 (queueSpace s 5) 0x8000 128 with
        | (s1, .ok pb) =>
          let d := bdescOf pb.bytes
          !pb.poisoned && !d.bad false && !d.bad true && decide (field d.tag 19 0 = 4) && !ranksPast s d && (match readRanks s1 0 (queueSpace s 5) d with
            | (s2, .ok l) => decide (l.length = n) && !ranksBad s l && (match readTable s2 0 (queueSpace s 5) d with | (_, .ok t) => decide (t = [0x7F]) | _ => false)
            | _ => false)
        | _ => false) = true)) ∧
    (∀ h ∈ [0, 16],
      (let s := srpUp 1
       let c := cmd 0x41 4 (body [(8, 0x8000), (4, h)])
       starting s 0x41 c false = true ∧ bget c.body 8 4 = h ∧
       (match packageExps 0 (queueSpace s 5) (bdesc0 1) (bdesc0 1).blocks 0 s with
        | (s3, .ok l) => decide (l.length = 1) && decide (s3.coh.caches = []) && decide (s3.ecc = []) && decide (s3.stale = []) && decide (s3.resEcc = [])
        | _ => false) = true)) ∧
    (let s := tagUp [5] fun t => { t with st := .held, out := none }
     (∀ x ∈ [(2 : Nat), 31], starting s 0x42 (cmd 0x42 4 (body [(4, 4), (4, x)])) false = true ∧ x < 32 ∧ x / 2 ≠ 0) ∧
     starting s 0x43 (cmd 0x43 4 (body [(4, 4)])) false = true ∧ (tagOf s 4).st = .held ∧ (tagOf s 4).attempt < 15 ∧ srpHeld s 5 false = false) ∧
    (let s := tagUp [5, 2] id
     starting s 0x44 (cmd 0x44 4 (body [(4, 4)])) false = true ∧ (tagOf s 4).out = some 0 ∧ (s.outs.map fun o => (o.id, o.done)) = [(0, none)] ∧
     srpOn s (leadHalf s 4) = true) ∧
    (let s := tagUp [5, 2] fun t => { t with credits := 1 }
     (tagOf s 4).pos s (segOf 2 1 0) = 0 ∧ (tagOf s 4).outq = [] ∧ 0 < (tagOf s 4).credits) ∧
    (∀ ranks ∈ [[(5 : BitVec 16)], [5, 2]],
      (let s := tagUp ranks fun t => { t with credits := 1 }
       let t := tagOf s 4
       0 < (bdesc0 ranks.length).blocks ∧ 0 ∉ t.expDone ∧
       (match readBoth (setTag s 4 { t with expDone := [0] }) 0 t.space (bdesc0 ranks.length) 0 with
        | (s2, .ok cv) => decide (s2.coh.caches = []) && decide (cv.1.length = 2)
        | _ => false) = true)) ∧
    (let s := tagUp [5] fun t => { t with outDone := [0] }
     (bdesc0 1).blocks ≤ (tagOf s 4).outDone.length ∧ allAcked s (tagOf s 4) = true ∧ (bdesc0 1).sumsqMode = 0 ∧ (bdesc0 1).retain = true) := by
  decide +kernel

/-- The hops of the manual's worked example, element 0 and element 300 (09, *Worked example: four packages*). -/
theorem test_hops : (let v (k : Nat) : FNum := (fmtValue 0 k)
    [(hopE4M3 .rne 0 0x7F (v 0x3FC00000) none).bits, (hopE4M3 .rne 0 0x7F (v 0x40200000) (some 0x3C)).bits,
     (hopE4M3 .rne 0 0x7F (v 0xBF400000) (some 0x48)).bits, (hopE4M3 .rne 0 0x7F (v 0x43900000) none).bits,
     (hopE4M3 .rne 0 0x7F (v 0x43400000) (some 0x79)).bits, (hopE4M3 .rne 0 0x80 (v 0x43400000) (some 0x71)).bits]) =
    [0x3C, 0x48, 0x45, 0x79, 0x7E, 0x77] := by decide +kernel

/-- The closing element of segment 1 becomes the final 0x43B0 (the same example). -/
theorem test_final : (((finalBlock { tagReset with table := [0x7F] } (bdesc0 1) 4 0 ([fmtValue 0 0x3F000000, fmtValue 0 0x3F000000], false)
    (some ⟨[0x7B, 0x7B], 0x7F, 0⟩)).1.elems.getD 0 0)) = 0x43B0 := by decide +kernel

/-- A message for tag 4 from package 2, for the list that a tag holds. -/
def msgTo (s : State) : SrpMsg := { srpMsg s 4 (tagOf s 4) with src := 2 }

theorem wit_ScriptoriumMessages :
    (let s := tagUp [5] fun t => { t with st := .free }
     srpOn s 0 = true ∧ leadHalf s 4 = 0 ∧ (msgTo s).tag.toNat = 4 ∧ (tagOf s 4).st = .free ∧ poolRoom s 4 1 (msgTo s) = true) ∧
    (let s := tagUp [5, 2] fun t => { t with attempt := 1 }
     (tagOf s 4).live = true ∧ ({ msgTo s with attempt := 0 } : SrpMsg).attempt.toNat < (tagOf s 4).attempt ∧ (msgTo s).early = false) ∧
    (let s := tagUp [5, 2] id
     (msgTo s).attempt.toNat = (tagOf s 4).attempt ∧ (tagOf s 4).outq = [] ∧ (msgTo s).early = false ∧ (tagOf s 4).heldMsgs = [] ∧ (tagOf s 4).out = some 0 ∧ (s.outs.map fun o => (o.id, o.done)) = [(0, none)] ∧
     (ctxOf s (ctxKey 2 0)).st ≠ .failed ∧ (ctxOf s (ctxKey 2 0)).st ≠ .down ∧
     srpFits (bdesc0 2) 1 { msgTo s with blocks := [⟨[], 0x7F, 0⟩] } = true ∧ (1 : BitVec 32) ≠ (tagOf s 4).crc) ∧
    (let s := setTag (srpUp 2) 4 { tagReset with
       st := .scaling, space := ⟨5, 0, 0⟩, out := some 0, desc := some { bdesc0 2 with elems := 512 }, ranks := [5, 2] }
     let m := { msgTo s with exps := [3] }
     (tagOf s 4).rank s = 0 ∧ m.crc = (tagOf s 4).crc ∧ srpFits { bdesc0 2 with elems := 512 } 0 m = true ∧
     (tagOf s 4).expDone.length + m.exps.length < ({ bdesc0 2 with elems := 512 } : BDesc).blocks) ∧
    (let s := tagUp [2, 5] id
     let m := { msgTo s with blocks := [⟨List.replicate 256 0x3C, 0x7F, 0⟩] }
     let t := tagOf s 4
     m.crc = t.crc ∧ srpFits (bdesc0 2) 1 m = true ∧ t.table.getD 0 0 = 0x7F ∧ t.pos s (segOf t.n (bdesc0 2).blocks 0) = t.n - 1 ∧
     (match readBoth (srpCredit s 4 m.src m.early 1) 0 t.space (bdesc0 2) 0 with | (s2, .ok _) => decide (s2.coh.caches = []) | _ => false) = true) ∧
    (let s := tagUp [5, 2] id
     let m := { msgTo s with blocks := [⟨List.replicate 256 0x3C, 0, 0⟩] }
     let t := tagOf s 4
     srpFits (bdesc0 2) 2 m = true ∧ (t.rank s + 1) % t.n = segOf t.n (bdesc0 2).blocks 0 ∧ m.first.toNat = 0) := by decide +kernel

/-- The final of the closing block of a reduce message at the closing rank is in memory: 1.5 + 1.5 = 3.0 is 0x4040 (R275). -/
theorem test_reduce : (let s := tagUp [2, 5] id
    mgets (nx (exec (.srpReduceMsg { msgTo s with blocks := [⟨List.replicate 256 0x3C, 0x7F, 0⟩] }) s)).mem.cells 0xC000 2) = [0x40, 0x40] := by
  decide +kernel

/-! ### The Blotter, the Ruler, tiers (p11, p12) -/

/-- A region of one AdamW element at step 7: control word, second buffer. -/
def regionBytes (ctl w1 : Nat) : List Byte :=
  body [(4, ctl), (4, 0), (8, 7), (8, 0xE000), (8, w1), (8, 0xE100), (8, 0xE180), (8, if ctl % 4 = 1 then 0xE200 else 0), (8, 1), (4, 0), (4, 0),
    (8, 1), (4, 0x3F000000), (4, if ctl % 4 = 0 then 0 else 0x3F000000), (4, 0), (4, 0)]
def region (ctl w1 : Nat) : Region := regionOf (bslice (regionBytes ctl w1) 0 256)

/-- The region table at 0xD000 with one region. -/
def bltUp (ctl w1 : Nat) : State :=
  { qUp with
    regs := qUp.regs ++ [(Frame.blt.base + 0x10, 0xD000), (Frame.blt.base + 0x20, 1)]
    mem := { qUp.mem with cells := mputs [] 0xD000 (regionBytes ctl w1) } }

/-- An update of region 0 in slot 0, in a stage, for a descriptor. -/
def updUp (stage ctl : Nat) (f : Upd → Upd) : State :=
  let s := bltUp ctl (if ctl / 16 % 2 = 1 then 0xE080 else 0)
  let u := newUpd s 0 ⟨5, 0, 0⟩ (body [(4, 0), (4, 0), (8, 7)])
  setUpd { s with outs := [outOf 0 none], nextId := 1 } 0 (f { u with
    stage := stage, desc := if stage = 1 then none else some (region ctl (if ctl / 16 % 2 = 1 then 0xE080 else 0)), rtable := 0xD000 })
def u0 (s : State) : Upd := (updAt s 0).getD (newUpd s 0 ⟨5, 0, 0⟩ [])

theorem wit_RegionUpdatesRunStageByStage :
    (let s := setUpd (bltUp 0x11 0xE080) 0 (newUpd (bltUp 0x11 0xE080) 9 ⟨5, 0, 0⟩ [])
     starting s 0x50 (cmd 0x50 6 (body [(4, 0), (4, 0), (8, 7)])) false = true ∧
     rulerOff s (cmd 0x50 6 (body [(4, 0), (4, 0), (8, 7)])) = false ∧ bltFenced s = false ∧ updAt s 1 = none ∧ updAt s 0 ≠ none) ∧
    (let s := updUp 1 0x11 id
     bltLive s = true ∧ (u0 s).stage = 1 ∧ updWaits s (u0 s) = false ∧ (u0 s).region < field (regWord s (Frame.blt.base + 0x20)) 16 0 ∧
     (match readRegion (regionBoundary s) 0xD000 with | (_, .ok d) => decide (d = region 0x11 0xE080) | _ => false) = true) ∧
    (let s := setUpd (updUp 1 0x11 id) 1 { u0 (updUp 1 0x11 id) with order := 5 }
     updWaits s ((updAt s 1).getD (u0 s)) = true) ∧
    (region 0x11 0xE080).bad = false ∧ (region 0x10 0xE080).bad = false ∧ (region 0x1F 0xE080).bad = true ∧ (u0 (updUp 2 0x11 id)).bad = false ∧
    (u0 (updUp 2 0x11 fun u => { u with uctl := 6 })).bad = true ∧ (region 0x11 0xE080).frozen = false ∧ (region 0x19 0xE080).frozen = true ∧
    (region 0x11 0xE080).step = (u0 (updUp 4 0x11 id)).expect ∧ (region 0x11 0xE080).step ≠ (u0 (updUp 4 0x11 fun u => { u with expect := 8 })).expect ∧
    (∀ m ∈ [0, 1], field (u0 (updUp 5 0x11 fun u => { u with uctl := BitVec.ofNat 32 (2 * m) })).uctl 2 1 = m) ∧
    (let s := updUp 5 0x11 fun u => { u with uctl := 4, clipAddr := 0xE300 }
     (match vread s (queueHalf (u0 s).space.queue.toNat) (u0 s).space 0xE300 4 with | (_, .ok b) => !b.poisoned | _ => false) = true) ∧
    ((region 1 0).versioned = false ∧ (pinsOf (updUp 6 0x11 id) 0).2 = 0 ∧ (region 0x11 0xE080).versioned = true ∧
      (pinsOf (setPins (updUp 6 0x11 id) 0 (0, 1)) 0).2 ≠ 0) ∧
    (let s := updUp 7 0x11 id
     (xlateTensors s (queueHalf (u0 s).space.queue.toNat) (u0 s).space (region 0x11 0xE080).n (region 0x11 0xE080).tensors).2 = none) ∧
    (let s := updUp 7 0x11 id
     (xlateTensors { s with xlt := [] } (queueHalf (u0 s).space.queue.toNat) (u0 s).space (region 0x11 0xE080).n (region 0x11 0xE080).tensors).2 ≠ none) ∧
    (let s := updUp 9 0x11 id
     s.ecc = [] ∧ s.stale = [] ∧ s.coh.caches = [] ∧ (∀ i, i < 16 → served s (0xD000 + i) = true) ∧ s.bltWaits = [] ∧ (u0 s).stage = 9 ∧
     (s.outs.map fun o => (o.id, o.done)) = [(0, none)]) := by decide +kernel

/-- The cosine schedule of the manual's worked example (08): the group's settings and the values at five steps. -/
theorem test_ruler : (let g : RulSet := ⟨2, 0x39800000, 0x3E000000, 0, 2000, 48000, 0⟩
    [500, 2000, 50000, 60000].map (ruler g)) = [0x38800000, 0x39800000, 0x38000000, 0x38000000] := by decide +kernel
theorem test_ruler_cosine : ruler ⟨2, 0x39800000, 0x3E000000, 0, 2000, 48000, 0⟩ 14000 = 0x395F322A := by decide +kernel

theorem wit_RegionStreamsPinsAndTheRuler :
    (∀ ctl ∈ [0x11, 1, 0, 2],
      (let s := updUp 8 ctl id
       let d := (u0 s).desc.getD (region 0 0)
       let h := queueHalf (u0 s).space.queue.toNat
       bltLive s = true ∧ (u0 s).stage = 8 ∧ (∀ n ∈ [1, 32], ({ d with elems := BitVec.ofNat _ n } : Region).bad = false ∧
         ({ d with elems := BitVec.ofNat _ n } : Region).n = n) ∧ d.adapter = false ∧ d.recto = 0xE000 ∧
       d.dest = (if ctl = 0x11 then 0xE080 else 0xE000) ∧ d.m.toNat = 0xE180 ∧ s.xlt = [idLeaf 0, idLeaf 1] ∧ (liveStacks s 0).length = 6 ∧
       (∀ a ∈ [0xE000, 0xE100, 0xE180, 0xE200], (match vread s h (u0 s).space a 128 with
         | (s', .ok b) => !b.poisoned && decide (s'.coh.caches = []) && decide (s'.ecc = []) && decide (s'.stale = []) | _ => false) = true))) ∧
    (let s := bltUp 0x11 0xE080
     let c (op epoch : Nat) := cmd 0x51 6 (body [(2, 0), (2, 0), (4, op), (8, epoch)])
     starting (updUp 8 0x11 id) 0x51 (c 0 0) false = true ∧ inStream (updUp 8 0x11 id) 0 = true ∧ inStream s 0 = false ∧
     starting s 0x51 (c 0 0) false = true ∧ bltFenced s = false ∧ 0 < field (regWord s (Frame.blt.base + 0x20)) 16 0 ∧ s.bltWaits = [] ∧
     (∀ e ∈ [6, 7, 2 ^ 48 - 1], starting s 0x51 (c 1 e) false = true ∧ bget (c 1 e).body 8 8 = e) ∧
     (match readRegion (regionBoundary (takeHead s (c 0 0) 0x51)) 0xD000 with
      | (s1, .ok d) => !d.bad && d.versioned && decide (d.step = 7) && decide ((pinsOf (setPins s1 0 (65534, 1)) 0) = (65534, 1)) | _ => false) = true ∧
     starting s 0x52 (cmd 0x52 6 []) false = true) ∧
    bltFenced up = false ∧ frameBusy up .rul = false ∧ rulBusy up (rulSel up) = false ∧ rulBusy (updUp 7 0x11 id) 0 = true ∧
    (∃ p ∈ (setRul up 3 { rulOf up 3 with applyWait := true }).ruls, p.2.applyWait = true) := by decide +kernel

/-- A release of the verso: step 7, epoch 6 (R252). -/
theorem test_release_verso : pinsOf (nx (exec (.pinEpoch (cmd 0x51 6 (body [(2, 0), (2, 0), (4, 1), (8, 6)]))) (setPins (bltUp 0x11 0xE080) 0 (3, 2)))) 0 = (3, 1) := by
  decide +kernel

theorem wit_ScrubsFailuresBiasAndInvalidation :
    (∀ l ∈ [0, 0x1234],
      (let s : State := { up with scrubPos := [(stackKey l up, stackLine up l)] }
       alive s = true ∧ hbmLine s 0 l = true ∧ linePoisoned s l = false ∧ lineEcc s l = [] ∧ lineResEcc s l = [] ∧ sget 0 s.scrubPos (stackKey l s) = stackLine s l ∧
       sget false s.res l = false ∧ bitAt (if stackLine s l = 0 then regWord s ((Frame.mem 0).base + 4) else regAct s ((Frame.mem 0).base + 4)) 16 = true)) ∧
    (let s : State := { up with act := [((Frame.mem 0).base + 4, 0)], res := [(0x1234, false)] }
     bitAt (regAct s ((Frame.mem 0).base + 4)) 16 = false ∧ 0 < stackLine s 0x1234 ∧ sget 0 s.scrubPos (stackKey 0x1234 s) ≠ stackLine s 0x1234 ∧
     shas s.res 0x1234 = true ∧ alive s = true ∧ hbmLine s 0 0x1234 = true) ∧
    (let s : State := { up with cxlUp := [0, 5], cxl := [⟨0, [0, 5], 2 ^ 30⟩] }
     alive s = true ∧ bltFenced s = false ∧ 0 ∈ s.cxlUp ∧ 5 ∈ s.cxlUp ∧ (cxlPlace s (tier2 + 4096)).map Prod.fst = some 5) ∧
    (∀ x ∈ [((0 : Nat), 16, 0), (2 ^ 40 - 65536, 1, 1), (2 ^ 40, 2 ^ 24, 0), (0x100000000000, 1, 1)],
      (let c := cmd 0x70 7 (body [(8, x.1), (4, x.2.1), (4, x.2.2)])
       starting qUp 0x70 c false = true ∧ bget c.body 0 8 = x.1 ∧ bget c.body 8 4 = x.2.1 ∧ bget c.body 12 4 = x.2.2 ∧ x.1 % 65536 = 0 ∧
       ((x.1 < 2 ^ 41 ∧ x.1 / 2 ^ 40 = (x.1 + 65536 * x.2.1 - 1) / 2 ^ 40) ∨ (tier2 ≤ x.1 ∧ x.1 + 65536 * x.2.1 ≤ 2 * tier2)))) ∧
    qUp.coh.flips = [] ∧ qUp.coh.trans = [] ∧ qUp.coh.badTags = [] ∧ qUp.coh.caches = [] ∧
    (let s := { qUp with coh := { qUp.coh with caches := [(copyKey 7 0x205, ⟨.m, List.replicate 128 9, false, .i, none, false, none, none, []⟩)] } }
     let c := cmd 0x70 7 (body [(8, 0), (4, 16), (4, 1)])
     starting s 0x70 c false = true ∧ (takeHead s c 0x70).coh.caches = s.coh.caches ∧ Memory.wf (takeHead s c 0x70).mem = true ∧
     biasPage 0x205 = 1 ∧ mappedAt s 65536 = true ∧ 1 ∉ s.bias ∧ 0x205 < lineSpan) ∧
    (∀ x ∈ [((0 : Nat), 0, 2 ^ 17 - 1), (2 ^ 48 - 4096, 2 ^ 24, 0)],
      (let c := cmd 0x71 7 (body [(8, x.1), (4, x.2.1), (4, x.2.2)])
       starting qUp 0x71 c false = true ∧ bget c.body 0 8 = x.1 ∧ bget c.body 8 4 = x.2.1 ∧ bget c.body 12 4 = x.2.2)) ∧
    (let c := cmd 0x71 7 (body [(8, 0), (4, 0), (4, 2 ^ 16)])
     let s := moving (dmaDesc (desc 1 0x7000 0x8070 256 0 0)) [⟨128, 0x7000, some 0x7000, []⟩]
     starting s 0x71 c false = true ∧ ((takeHead s c 0x71).dmas.map fun p => p.2.reads) = [[⟨128, 0x7000, some 0x7000, []⟩]]) ∧
    (let c := cmd 0x71 7 (body [(8, 0x100000), (4, 1), (4, 2 ^ 16)])
     let s := moving (dmaDesc (desc 1 0x7000 0x8070 256 0 0)) [⟨128, 0x7000, some 0x7000, []⟩]
     starting s 0x71 c false = true ∧ ∃ e ∈ (takeHead s c 0x71).xlt, e.h.val = 0 ∧ e.asid = 0 ∧ e.vpn ≤ 7 ∧ 7 < e.vpn + e.pages ∧
       (e.vpn < 0x100 + 1 ∧ 0x100 < e.vpn + e.pages)) := by decide +kernel

/-- The dead pin of the manual's worked example (R305): half, stack, stack page, pseudo-channel, byte of the line. -/
theorem test_dead_pin : (let a := 0x010001234567
    (halfOf (a / 2 ^ 40), (a % 2 ^ 40) / 4096 % (liveStacks up 1).length, (a % 2 ^ 40) / 4096 / (liveStacks up 1).length, a % 4096 / 128, a % 128)) =
    (1, 4, 776, 10, 103) := by decide +kernel

/-! ### Coherence (p13) -/

def core3 : CoreId := ⟨0, 3⟩
/-- A copy of line 0x40 in core 3, in a state, with bytes 9, and one pending operation if any. -/
def lineCopy (st : CSt) (op : Option CoreOp) : CLine := ⟨st, List.replicate 128 9, false, .i, none, false, op, none, []⟩
def cohUp (st : CSt) (op : Option CoreOp) (f : Coh → Coh) : State :=
  let s := { up with cores := [(core3.num, { coreReset with running := true })] }
  { s with coh := f { s.coh with caches := [(copyKey core3.num 0x40, lineCopy st op)] } }

theorem wit_SnoopedCachesAnswer : ∀ st ∈ [CSt.s, .e, .f, .m, .isd, .imd, .sma, .mia],
    homeUp (cohUp st none id) 0x40 = true ∧ copyOf (cohUp st none id) core3.num 0x40 = lineCopy st none ∧
    Memory.wf (cohUp st none id).mem = true ∧ copyOf (cohUp st none id) core3.num 0x41 = lineNone ∧
    (cohUp st none id).coh.badTags = [] := by decide +kernel

/-- A snoop for a shared reader of a line in M writes it home, forwards it and leaves S (R327). -/
theorem test_snp_fwd_shared : (let t := nx (exec (.snpFwdShared core3 0x40 ⟨0, 4⟩) (cohUp .m none id))
    (copyOf t core3.num 0x40).st = .s ∧ mgets t.mem.cells 0x2000 2 = [9, 9]) := by decide +kernel

theorem wit_CoreAccessesByState :
    (∀ st ∈ [CSt.s, .e, .f, .m], ∀ x ∈ [((0x2000 : Nat), (0 : Nat)), (0x207F, 0), (0x2078, 3)],
      (let s := cohUp st none id
       coreRuns s core3 = true ∧ alive s = true ∧ mappedAt s x.1 = true ∧ inLine x.1 x.2 = true ∧ x.1 / 128 = 0x40 ∧
       (copyOf s core3.num 0x40).op = none ∧ (copyOf s core3.num 0x40).more = [] ∧ (copyOf s core3.num 0x40).poison = false ∧ cboWaits s core3.num = [] ∧ wbOut s core3.num 0x40 < 8)) ∧
    (∀ wide ∈ [true, false], amoAligned 0x2078 wide = true) ∧
    (copyOf (cohUp .m none id) core3.num 0x41).op = none ∧ (copyOf (cohUp .m none id) core3.num 0x41).st = .i ∧
    (mappedAt up 0x700000000000 = false ∧ inRegs 0x700000000000 = false ∧ inLine 0x700000000000 3 = true) ∧
    (∀ g ∈ [Grant.m, .e, .f],
      (let s := { cohUp .isd (some (.load 0x2078 3)) id with tick := 5 }
       let s' := setCopy s core3.num 0x40 { lineCopy .isd (some (.load 0x2078 3)) with got := some g }
       alive s = true ∧ (copyOf s core3.num 0x40).comp = false ∧ (copyOf s' core3.num 0x40).got = some g)) ∧
    (∀ st ∈ [CSt.imd, .sma], ∀ b ∈ [true, false],
      (let s := cohUp st (some (.atomic 0x2078 true .add 1 0)) fun c => if b then c else { c with running := false, down := true }
       let v := { lineCopy st (some (.atomic 0x2078 true .add 1 0)) with old := some (leBytes 8 1, false) }
       (copyOf s core3.num 0x40).st = st ∧ (copyOf s core3.num 0x40).op ≠ none ∧ alive s = b ∧ coreRuns s core3 = true ∧ mappedAt s 0x2078 = true ∧
       (copyOf (setCopy s core3.num 0x40 v) core3.num 0x40).old = some (leBytes 8 1, false))) ∧
    (copyOf (cohUp .mia none id) core3.num 0x40).st = .mia ∧
    (let s := setCopy (cohUp .i none fun c => { c with retryAt := [(copyKey core3.num 0x40, 0)] }) core3.num 0x40 (lineCopy .i (some (.load 0x2078 3)))
     shas s.coh.retryAt (copyKey core3.num 0x40) = true ∧ sget 0 s.coh.retryAt (copyKey core3.num 0x40) ≤ s.tick.toNat ∧ (copyOf s core3.num 0x40).st = .i ∧ (0x2078 : BitVec 48).toNat / 128 = 0x40) ∧
    (let s := cohUp .i none fun c => { c with retryAt := [(copyKey 0x200 0x40, 0)], asked := [(copyKey 0x200 0x40, (.rdCur, []))] }
     alive s = true ∧ 96 ≤ 0x200 ∧ shas s.coh.retryAt (copyKey 0x200 0x40) = true ∧
     s.coh.asked.find? (fun p => p.1 = copyKey 0x200 0x40) = some (copyKey 0x200 0x40, (.rdCur, []))) ∧
    (∀ g ∈ [(96 : Nat), 106], nonCaching g = true ∧ g < 256 ∧ ∀ b ∈ [true, false], (copyKey g 0x40, b) ∉ up.coh.replies) ∧
    (let s := setCopy (cohUp .s none id) core3.num 0x40 (lineCopy .s (some (.store 0x2000 3 7)))
     copyServes (copyOf s core3.num 0x40).st (.load 0x2078 3) = true ∧ shas s.stale 0x40 = false ∧ (copyOf s core3.num 0x40).op ≠ none) ∧
    (∀ st ∈ [CSt.isd, .mia], copyServes st (.load 0x2078 3) = false) := by
  refine ⟨?_, ?_, ?_, ?_, ?_, ?_, ?_, ?_, ?_, ?_, ?_, ?_, ?_⟩ <;> decide +kernel

/-- A store in F asks with Upgrade and waits in SM_A (R326). -/
theorem test_store_in_f : (let t := nx (exec (.coreStore core3 0x2000 3 7) (cohUp .f none id))
    (copyOf t core3.num 0x40).st = .sma ∧ t.sent = [.coh .upgrade core3.num (homeId 0x40) 0x40] ∧ t.mem = up.mem) := by decide +kernel

theorem wit_HomesServeRequests :
    (∀ e ∈ [(⟨[], none⟩ : FEnt), ⟨[7], none⟩, ⟨[core3.num], none⟩, ⟨[7], some (7, .m)⟩, ⟨[7, 9], none⟩, ⟨[7, core3.num], none⟩, ⟨[7, 9], some (7, .f)⟩],
      (let s := cohUp .i none fun c => { c with filter := [(0x40, e)] }
       homeUp s 0x40 = true ∧ filterOf s 0x40 = e ∧ homeRefuses s core3.num 0x40 = false ∧ homeRefuses s 100 0x40 = false ∧
       lineEcc s 0x40 = [] ∧ filterFull s 0x40 = false)) ∧
    (let s := cohUp .i none fun c => { c with trans := [(0x40, ⟨7, .own, [], none, false, true⟩)], nacks := [(copyKey core3.num 0x40, 6)] }
     shas s.coh.trans 0x40 = true ∧ shas s.coh.resv 0x40 = false ∧ sget 0 s.coh.nacks (copyKey core3.num 0x40) < 7) ∧
    (let s := cohUp .i none fun c => { c with trans := [(0x40, ⟨7, .own, [], none, false, true⟩)], nacks := [(copyKey core3.num 0x40, 7)] }
     shas s.coh.trans 0x40 = true ∧ shas s.coh.resv 0x40 = false ∧ 7 ≤ sget 0 s.coh.nacks (copyKey core3.num 0x40) ∧
     (s.coh.resv.filter fun p => lineHome p.1 = lineHome 0x40).length < 64) ∧
    (let s := cohUp .i none fun c => { c with resv := [(0x40, 7)] }
     shas s.coh.resv 0x40 = true ∧ sget 0 s.coh.resv 0x40 ≠ core3.num ∧ homeUp s 0x40 = true) ∧
    (let s := up
     filterFull s 0x40 = false ∧ (∀ g ∈ [96, 106, 256, 543], nonCaching g = true) ∧ amoAligned 0x2078 true = true ∧ Memory.wf s.mem = true ∧ s.coh.flips = [] ∧
     linePoisoned s 0x40 = false ∧ lineResEcc s 0x40 = [] ∧ shas s.stale 0x40 = false ∧ s.resEcc = [] ∧ (0x2078 : BitVec 48).toNat % 128 + 8 ≤ 128 ∧ atomicFarChosen s 0x40 .add = false ∧ atomicFarChosen s 0x40 .lr = false ∧
     atomicFarChosen { s with regs := (cohFrameOf 0x40).base + 4 |> fun a => [(a, 0x20000)] } 0x40 .add = true) ∧
    (let s := cohUp .mia none fun c => { c with filter := [(0x40, ⟨[core3.num], some (core3.num, .m)⟩)] }
     (filterOf s 0x40).owner = some (core3.num, .m) ∧ (copyOf s core3.num 0x40).st = .mia ∧ (copyOf s core3.num 0x40).data.length = 128 ∧
     transOf s 0x40 = none) ∧
    (∀ t ∈ [(⟨8, .own, [core3.num, 7], none, false, false⟩ : Trans), ⟨8, .own, [core3.num], none, false, false⟩, ⟨core3.num, .own, [], none, false, true⟩],
      (let s := cohUp .i none fun c => { c with trans := [(0x40, t)], resv := [(0x40, 7)], filter := [(0x40, ⟨[core3.num, 7], none⟩)] }
       transOf s 0x40 = some t ∧ homeUp s 0x40 = true ∧ core3.num ∈ (filterOf s 0x40).holders ∧ shas s.coh.resv 0x40 = true)) ∧
    (let s := cohUp .i none fun c => { c with
       trans := [(0x40, ⟨homeId 0x40, .evict 0x80, [core3.num], none, false, false⟩), (0x80, ⟨7, .shared, [], none, false, false⟩)]
       filter := [(0x40, ⟨[core3.num], none⟩)] }
     transOf s 0x40 = some ⟨homeId 0x40, .evict 0x80, [core3.num], none, false, false⟩ ∧ s.coh.flips = [] ∧
     transOf s 0x80 = some ⟨7, .shared, [], none, false, false⟩ ∧ (filterOf s 0x80).holders = [] ∧ lineEcc s 0x80 = [] ∧
     homeUp s 0x40 = true ∧
     (let t := nx (exec (.rspI core3 0x40) s)
      (filterOf t 0x40).holders = [] ∧ filterOf t 0x80 = ⟨[7], some (7, .e)⟩ ∧ t.sent = s.sent ++ [.coh (.dataCmp .e) (homeId 0x80) 7 0x80] ∧
      transOf t 0x40 = none ∧ regWord64 t ((cohFrameOf 0x40).base + 0x68) = (regWord64 s ((cohFrameOf 0x40).base + 0x68) + 1) % 2 ^ 64)) := by decide +kernel

/-- The rest of the homes' hypotheses: a snoop answer that is due and one that is not, an entry in error, and a reservation that
has lapsed and one that has not. -/
theorem wit_HomesServeRequests_more :
    (let t : Trans := ⟨8, .own, [core3.num, 7], none, false, false⟩
     let s (o : Option (Nat × Grant)) := cohUp .i none fun c => { c with trans := [(0x40, t)], filter := [(0x40, ⟨[core3.num, 7], o⟩)] }
     invSnooped (s none) core3.num 0x40 t = true ∧ invSnooped (s (some (core3.num, .m))) core3.num 0x40 t = false ∧
     fwdSnooped (s none) core3.num 0x40 t = false ∧ fwdSnooped (s (some (core3.num, .m))) core3.num 0x40 t = true ∧
     fwdSnooped (s (some (core3.num, .m))) core3.num 0x40 ⟨8, .shared, [core3.num], none, false, false⟩ = true) ∧
    (let s := cohUp .i none fun c => { c with badTags := [copyKey (homeId 0x40) 0x40] }
     homeUp s 0x40 = true ∧ copyKey (homeId 0x40) 0x40 ∈ s.coh.badTags) ∧
    (let s : State := { cohUp .i none fun c => { c with resv := [(0x40, 7)], resvAt := [(0x40, 5)] } with tick := 2005 }
     homeUp s 0x40 = true ∧ shas s.coh.resv 0x40 = true ∧ transOf s 0x40 = none ∧ sget 0 s.coh.resvAt 0x40 + 2000 ≤ s.tick.toNat ∧
     ({ s with tick := 2004 } : State).tick.toNat < sget 0 s.coh.resvAt 0x40 + 2000) := by decide +kernel

/-- An EvictClean of the only sharer leaves the filter empty, and RdShared is then granted E (R323, R329). -/
theorem test_rd_shared : (let t := nx (exec (.rdShared core3 0x40) up)
    t.sent = [.coh (.dataCmp .e) (homeId 0x40) core3.num 0x40] ∧ filterOf t 0x40 = ⟨[core3.num], some (core3.num, .e)⟩) := by decide +kernel

/-! ### The Feed (p14) -/

/-- A file stream's descriptor: control word (KIND 0, PIPE), one slot of 128 bytes, a ring of four at 0x10000, 4 KiB of staging. -/
def fileDesc (ctl : Nat) : List Byte :=
  body [(4, ctl), (4, 1), (4, 128), (4, 0), (8, 0x10000), (1, 2), (1, 0), (2, 0xFFFF), (4, 2000000), (8, 0x18000), (8, 4096), (4, 0), (4, 0), (4, 0),
    (2, 0), (2, 0), (2, 4), (2, 4)]
def sdesc (ctl : Nat) : StreamDesc := streamDescOf (bslice (fileDesc ctl) 0 128)
/-- A baseline JPEG header of 8 by 8 with one component. -/
def jpegBytes : List Byte := [0xFF, 0xD8, 0xFF, 0xC0, 0, 11, 8, 0, 8, 0, 8, 1, 1, 0x11, 0]

/-- The next sample of a stream, of 15 bytes at 0x19000. -/
def sampleIn (st : SampleSt) : Sample := ⟨0, 0x19000, 15, 0, [0, 0, 0, 0], 7, none, 3, jpegBytes, false, none, st⟩
/-- Stream 0 of Feed 0 open on a descriptor, with contents as given. -/
def feedUp (ctl : Nat) (f : Stream → Stream) : State :=
  let s := { qUp with
    regs := qUp.regs ++ [((Frame.fed 0).base + 0x18, 0x1A000)]
    mem := { qUp.mem with cells := mputs (mputs (mputs (mputs (mputs [] 0x10000 (body [(4, 2 ^ 31), (4, 0), (8, 0x1B000), (8, 0x1C000)])) 0x19000 jpegBytes)
      0x1A000 (body [(4, 2)])) 0x1A01C (body [(4, 64), (8, 0x1D000), (4, 5)])) 0x1E000 (fileDesc ctl) } }
  setStream s 0 0 (f { streamReset with st := .opened, space := ⟨5, 0, 0⟩, desc := some (sdesc ctl) })
def feedCmd (op : Nat) (l : List (Nat × Nat)) : JCmd := cmd op 5 (body l)

theorem wit_FeedCommandsOpenFillAndLoad :
    (∀ k ∈ [1, 31],
      (let s := feedUp 4 id
       let c := feedCmd 0x60 [(4, k), (4, 0), (8, 0x1E000)]
       starting s 0x60 c false = true ∧ (feedOf s 0).run = .running ∧ (streamOf s 0 k).st = .closed ∧ (streamOf s 0 k).samples = [] ∧
       (match vread (takeHead s c 0x60) 0 (queueSpace s 5) 0x1E000 128 with
        | (s1, .ok pb) => !pb.poisoned && !(streamDescOf pb.bytes).bad s1 | _ => false) = true)) ∧
    (∀ n ∈ [1, 2],
      (let s := feedUp 4 id
       let s := { s with mem := { s.mem with cells := mputs (mputs s.mem.cells 0x1F008 [15]) 0x1F028 [15] } }
       let c := feedCmd 0x61 [(4, 0), (4, n), (8, 0x1F000)]
       starting s 0x61 c false = true ∧ (streamOf s 0 0).st = .opened ∧ (streamOf s 0 0).d.off s = false ∧ (streamOf s 0 0).d.live = false ∧
       (match vread (takeHead s c 0x61) 0 ⟨5, 0, 0⟩ 0x1F000 (32 * n) with
        | (_, .ok pb) => !pb.poisoned && (List.range n).all fun i => decide (bget pb.bytes (32 * i + 8) 4 ≠ 0) | _ => false) = true)) ∧
    (let s := feedUp 4 id
     starting s 0x62 (feedCmd 0x62 []) false = true ∧ starting s 0x63 (feedCmd 0x63 []) false = true ∧ (streamOf s 0 0).d.off s = false ∧ (streamOf s 0 0).slots = [] ∧
     (streamOf s 0 0).flushes = [] ∧ (streamOf s 0 0).samples = [] ∧ (streamOf s 0 0).next ≤ (streamOf s 0 0).firstSeq ∧ (streamOf s 0 0).closeOut = none) ∧
    (let v := streamOf (feedUp 4 fun v => { v with samples := [sampleIn .queued], next := 1 }) 0 0
     (∀ x ∈ v.samples, x.st = .queued) ∧ v.firstSeq < v.next) ∧
    (let s := feedUp 4 id
     let s := { s with mem := { s.mem with cells := mputs s.mem.cells 0x1F000 (body [(8, 0x61 + 2 ^ 19 * 0x62), (8, 256)]) } }
     let c := feedCmd 0x64 [(4, 0), (4, 2), (8, 0x1F000), (8, 0x1F100)]
     starting s 0x64 c false = true ∧ (feedOf s 0).loads = [] ∧ tokenizing (feedOf s 0) = false ∧
     (match vread (setFeed (takeHead s c 0x64) 0 (feedOf s 0)) 0 (queueSpace s 5) 0x1F000 16 with
      | (s1, .ok mb) => (match vread s1 0 (queueSpace s 5) 0x1F100 256 with
        | (_, .ok cb) => !mb.poisoned && !cb.poisoned && cb.bytes.all (fun b => decide (b.toNat < 64)) && (List.range 2).all fun i =>
            let e := bget mb.bytes (8 * i) 8
            decide (e < 2 ^ 38 ∧ e % 2 ^ 19 < 256 + i ∧ e / 2 ^ 19 % 2 ^ 19 < 256 + i)
        | _ => false)
      | _ => false) = true) := by decide +kernel

theorem wit_FeedSamplesBecomeSlotsAndBatches :
    (∀ st ∈ [SampleSt.queued, .engine 0 7, .decoded (.image 1 1 1 [9]), .software 0],
      (let s := feedUp 0 fun v => { v with samples := [sampleIn st], next := 1, owned := 1 }
       let v := streamOf s 0 0
       feedOn s 0 = true ∧ v.samples = [sampleIn st] ∧ v.slots = [] ∧ v.flushes = [] ∧ 0 < v.owned ∧ v.firstSeq = (sampleIn st).seq ∧ v.d.live = false ∧ 0 < v.d.b ∧
       (feedOf s 0).loads = [] ∧ v.closeOut = none ∧ v.d.swAllowed = false ∧
       budgetOf v.d (sampleIn st) ≠ 0)) ∧
    (let s := feedUp 4 fun v => { v with samples := [sampleIn .queued] }
     let v := streamOf s 0 0
     v.d.pipe = 1 ∧ (stageAlloc v (stageSize v.d (sampleIn .queued) 0)).isSome = true ∧
     (match vread s 0 v.space 0x19000 15 with | (_, .ok pb) => !pb.poisoned && decide (pb.length ≤ v.d.slotBytes.toNat) | _ => false) = true) ∧
    (let s := feedUp 0 fun v => { v with samples := [sampleIn .queued] }
     let v := streamOf s 0 0
     v.d.pipe = 0 ∧
     (match vread s 0 v.space 0x19000 15 with
      | (s1, .ok pb) => !pb.poisoned && (pickEngine s1 0 0).isSome && (match jpegHead pb.bytes with
        | some j => j.covered && !implausible j.w j.h j.samp.length pb.length v.d.side v.d.pixels v.d.ratio &&
            (stageAlloc v (stageSize v.d (sampleIn .queued) (j.w * j.h * j.samp.length))).isSome
        | none => false)
      | _ => false) = true) ∧
    (match cropResize 1 1 1 [9] [0, 0, 0, 0] 4 4 with | .bytes b => decide (b.length ≤ 128) | _ => false) = true ∧
    (∀ ctl ∈ [8, 12],
      (let s := feedUp ctl fun v => { v with samples := [sampleIn (.software 0)] }
       let s := setFeed s 0 { feedOf s 0 with swr := [(0, 0, 0)] }
       let v := streamOf s 0 0
       (v.d.pipe = 2 ∨ v.d.pipe = 3) ∧ (feedOf s 0).swr.find? (fun p => p.1 = 0) = some (0, 0, 0) ∧
       (match pread s (swrBase s 0 + 64 * 0) 64 with
        | (s1, some pb) => decide (bget pb.bytes 0 4 < 2 ^ 31) && !pb.poisoned && decide (pb.bytes.getD 0x2C 0 = stOk) && decide (bget pb.bytes 0x28 4 ≤ bget pb.bytes 0x1C 4) &&
          (match pread s1 (bget pb.bytes 0x20 8) (bget pb.bytes 0x28 4) with
           | (_, some out) => !out.poisoned && decide (out.length ≤ 128) | _ => false)
        | _ => false) = true ∧ sampleAt { v with samples := [sampleIn (.late 0)] } 0 = none ∧ readyOf (sampleIn (.late 0)) = none)) ∧
    (let s := feedUp 0 fun v => { v with slots := [(0, slotOf v.d (sampleIn .queued) (.bytes [1, 2]))] }
     let v := streamOf s 0 0
     feedOn s 0 = true ∧ batchDue v = some 1 ∧ v.flushes = [] ∧ v.descAt 0 = v.d.ring.toNat + 64 * v.ringPos ∧ v.descAt 1 = v.d.ring.toNat + 64 * (v.ringPos + 1) ∧ v.slots.length = 1 ∧ v.d.b = 1 ∧ v.closeOut = none ∧ v.d.sem = 0xFFFF ∧
     (match vread s 0 v.space (v.d.ring.toNat + 64 * v.ringPos) 64 with
      | (s1, .ok pb) => !pb.poisoned && decide (2 ^ 31 ≤ bget pb.bytes 0 4) && decide (bget pb.bytes 8 8 = 0x1B000) && decide (bget pb.bytes 16 8 = 0x1C000) &&
          decide (s1.coh.caches = []) && decide (s1.ecc = []) && decide (s1.stale = []) && decide (s1.resEcc = []) | _ => false) = true ∧
     (match vread s 0 v.space (v.d.ring.toNat + 64 * (v.ringPos + 1)) 64 with | (_, .ok pb) => decide (bget pb.bytes 0 4 < 2 ^ 31) | _ => false) = true) ∧
    (let s := setStream up 0 0 { streamReset with desc := some { sdesc 1 with liveClose := 5, slots := 2 }, slots := [(0, slotOf (sdesc 1) (sampleIn .queued) (.bytes []))] }
     feedOn s 0 = true ∧ (streamOf s 0 0).d.live = true ∧ (streamOf s 0 0).d.liveClose ≠ 0 ∧ (streamOf s 0 0).slots ≠ [] ∧ batchDue (streamOf s 0 0) = none) ∧
    (let v := streamOf (feedUp 0 fun v => { v with waitDesc := true }) 0 0
     v.waitDesc = true ∧ batchDue v = none ∧ v.owned = 0) ∧ (streamOf (feedUp 0 id) 0 0).waitDesc = false := by decide +kernel

/-- Sample 9 of the manual's worked example is implausible, and sample 8 is not (R381, R384). -/
theorem test_implausible : implausible 4000 3000 3 60000 16384 67108864 400 = true ∧ implausible 1024 768 3 60000 16384 67108864 400 = false := by
  decide

/-- The batch of that example: slots 0 and 3 valid, mask byte 0x09 (R384). -/
theorem test_batch_mask : (let w (ok : Bool) : Slot := { slotOf (sdesc 0) (sampleIn .queued) (.bytes []) with valid := ok }
    bget (metaBytes { streamReset with slots := [(0, w true), (1, w false), (2, w false), (3, w true)] } 4) 0 4) = 9 := by decide +kernel

/-! ### Power, boot and reset (p15) -/

/-- A package that boots, in a stage, after a reset of a kind, with flash slots as given. -/
def bootIn (stage : Nat) (why : BitVec 2) (slots : Sparse SlotSt) : State := { State.reset with
  power := { input := true, step := 9, rails := [137], off := false }
  col := { State.reset.col with stage := stage, lastReset := why }
  flash := State.reset.flash.put fun r => { r with slots := slots } }
/-- A Rubric whose one record names package 5. -/
def rubBytes : List Byte :=
  let r := body [(2, 1), (2, 0), (4, 2), (4, 5)]
  body [(4, 0x4252565A), (2, 1), (2, 0), (4, 76), (4, 0)] ++ sha256 r ++ List.replicate 16 0 ++ r

theorem wit_PowerComesUpTripsAndGoes :
    (nx (exec .inputBelow34V up)).power.input = false ∧ up.power.input = true ∧ logDue up = [] ∧
    (logDue (logPut up 0x0010 3 [])).length = 1 ∧
    (∀ step ∈ [0, 1, 2, 3, 4, 5, 6, 7, 8],
      (let s := { bootIn 1 0 [] with power := { input := true, step := step, rails := stepRails up step, off := false } }
       booting s = true ∧ s.col.stage = 1 ∧ s.power.step < 9 ∧ railsBarred s 0 = false ∧
       (1 ≤ step → (stepRails s s.power.step).any (fun r => s.power.rails.contains r) = true))) ∧
    (let s := { bootIn 1 1 [] with power := { input := true, step := 3, rails := [131], off := false } }
     booting s = true ∧ 131 ∈ stepRails s s.power.step ∧ 131 ∈ s.power.rails ∧ s.col.lastReset ≠ 0) ∧
    (alive up = true ∧ up.upds = [] ∧ up.power.off = false ∧ 2 ≤ up.col.stage ∧ 128 ∈ up.power.rails ∧ up.col.logFlashed ≤ up.col.logNext ∧
      up.col.logNext + 2 < 2 ^ 32) ∧
    (∀ x ∈ [((0 : Nat), (1760 : Int)), (95, 1760), (96, 1680), (107, 1680), (108, 1440), (125, 1440)],
      (let v := (BitVec.ofInt 32 x.2).setWidth 16
       v.toInt ≠ -32768 ∧ (x.1 < 96 ∧ 110 * 16 ≤ v.toInt ∨ 96 ≤ x.1 ∧ x.1 < 108 ∧ 105 * 16 ≤ v.toInt ∨ 108 ≤ x.1 ∧ x.1 < 126 ∧ 90 * 16 ≤ v.toInt))) ∧
    clusterFenced up 1 5 = false ∧ halfFenced up 1 = false ∧ bltFenced up = false := by decide +kernel

/-- A trip is cause 8 at the first live Reservoir, and every rail but the Colophon domain's goes off (R340, R456). -/
theorem test_input_trip : (let t := nx (exec .inputTrip up)
    t.coh.down = true ∧ t.coh.cause = 8 ∧ t.power.rails = [150, 151] ∧ t.power.off = true ∧ t.ports = []) := by decide +kernel

theorem wit_BootSelectsFencesAndStarts :
    (∀ a ∈ [SlotSt.active, .pending 1, .pending 3, .invalid], ∀ b ∈ [SlotSt.invalid, .fallback],
      (let s := bootIn 0 0 [(0, a), (1, b)]
       booting s = true ∧ s.col.stage = 0 ∧ s.col.lastReset = 0 ∧ slotSt s.flash 0 0 = a ∧ slotSt s.flash 0 1 = b)) ∧
    slotSt (bootIn 0 0 [(0, .pending 0), (1, .active)]).flash 0 0 = .pending 0 ∧
    (let s := bootIn 1 0 []
     booting s = true ∧ s.col.stage = 1 ∧ 9 ≤ s.power.step ∧ s.col.started = false ∧
     unitCode (unitOf 1 287) = true ∧ (bootIn 1 1 []).col.lastReset ≠ 0 ∧ (bootIn 1 1 []).col.fences.any (fun p => p.1 = unitOf 1 287) = false) ∧
    (let s := bootIn 2 0 []
     let s := { s with col := { s.col with rubric := { s.col.rubric with roles := List.replicate 28 1 ++ List.replicate 6 3 } } }
     s.col.stage = 2 ∧ [((5 : Nat), (2 : Nat) ^ 41)].filter (fun p => p.1 = 5) = [(5, 2 ^ 41)] ∧ s.col.rubric.roles.getD 33 0 = 3 ∧ bltFenced s = false ∧
     engineFenced s 16 = false) ∧
    (let s := bootIn 3 0 []
     s.col.stage = 3 ∧ hostCapable s 0 = true ∧ Memory.wf s.mem = true ∧ clusterFenced s 0 0 = false ∧
     (let s := { s with col := { s.col with fences := [(unitOf 8 0, 2), (unitOf 8 1, 2)] } }
      hostCapable s 0 = false ∧ hostCapable s 1 = false)) ∧
    booting (bootIn 4 0 []) = true ∧
    (let s := { bootIn 1 0 [] with power := { input := true, step := 0, rails := [], off := false } }
     booting s = true ∧ s.power.step = 0 ∧ s.col.stage = 1) ∧
    (let s := { bootIn 1 1 [] with power := { input := true, step := 2, rails := [133], off := false } }
     booting s = true ∧ s.col.lastReset ≠ 0 ∧ s.power.step = 2 ∧ s.col.stage = 1) ∧
    (let s := { up with frames := { up.frames with lock := [frameKey .id] }, coh := { up.coh with down := true, downTick := 0 }
                        regs := up.regs ++ [(Frame.id.base + 0x124, 1)] }
     frameBusy s .id = false ∧ s.frames.lock.contains (frameKey .id) = true ∧ canReset s = true ∧ s.coh.down = true ∧ s.upds = [] ∧ s.resEcc = [] ∧ s.col.updImage = none ∧
     bitAt (regWord s (Frame.id.base + 0x124)) 0 = true ∧ s.tick.toNat < 1000000 ∧
     0 + max 1 (field (regWord s (Frame.id.base + 0x124)) 16 1) * 1000000 ≤ ({ s with tick := 1000000 } : State).tick.toNat) ∧
    up.frames.lock.contains (frameKey .id) = false ∧
    (4 ≤ up.col.stage ∧ up.col.bootFailed = false ∧ up.power.off = false ∧ clusterFenced up 1 5 = false ∧ (coreOf up 95).running = false ∧ (coreOf up 0).running = true) := by
  decide +kernel

/-- SHA-256 of "abc" (FIPS 180-4). -/
theorem test_sha256 : sha256 [0x61, 0x62, 0x63] = [0xBA, 0x78, 0x16, 0xBF, 0x8F, 0x01, 0xCF, 0xEA, 0x41, 0x41, 0x40, 0xDE, 0x5D, 0xAE, 0x22, 0x23,
    0xB0, 0x03, 0x61, 0xA3, 0x96, 0x17, 0x7A, 0x9C, 0xB4, 0x10, 0xFF, 0x61, 0xF2, 0x00, 0x15, 0xAD] := by decide +kernel

/-- The smallest Rubric is valid and names its package (R406, R407, R411). -/
theorem test_rubric : (match rubValid rubBytes with | some l => (rubricOf 76 l).1.pkg == 5 | none => false) = true := by decide +kernel

/-! ### Driver, samples, updates and registers (p16) -/

theorem wit_DriverAttachesBeatsAndStops :
    (∀ st ∈ [DrvSt.detached, .stopped, .attached, .stopping],
      (let s := { up with drv := { up.drv with st := st } }
       frameBusy s .id = false ∧ anyQueueEnabled s = false ∧ s.drv.st = st)) ∧
    anyQueueEnabled qUp = true ∧ up.inks = [] ∧ up.tags = [] ∧ up.bltWaits = [] ∧ alive up = true ∧ (∀ p ∈ up.feeds, p.2.streams = []) ∧
    (let s := { updUp 6 0x11 id with drv := { up.drv with st := .attached }, inks := [], tags := [] }
     frameBusy s .id = false ∧ s.blt = .running ∧ (s.upds.map fun p => p.2.stage) = [6] ∧ (s.outs.map fun o => (o.id, o.done)) = [(0, none)] ∧ s.bltWaits = []) ∧
    (let s (tick : Nat) := { up with tick := BitVec.ofNat 64 tick, regs := up.regs ++ [(Frame.id.base + 0x10C, 500), (Frame.id.base + 0x110, 0xA13E9340), (Frame.id.base + 0x114, 1)] }
     firmwareUp (s 0) = true ∧ (s 0).drv.st = .attached ∧
     max 10 (field (regWord (s 0) (Frame.id.base + 0x10C)) 15 0) * 1000000 < (s 7501000000).tick.toNat - regWord64 (s 0) (Frame.id.base + 0x110) ∧
     (s 7500000000).tick.toNat - regWord64 (s 0) (Frame.id.base + 0x110) ≤ max 10 (field (regWord (s 0) (Frame.id.base + 0x10C)) 15 0) * 1000000) ∧
    (let s := { up with drv := { up.drv with st := .stopping }, scb := [(0, ⟨.stopped, []⟩)], srp := [], feeds := [(1, { feedReset with run := .stopped })], blt := .stopped }
     s.drv.st = .stopping ∧ (∀ h : Half, (scbOf s h).run ∈ [RunSt.stopped, .off] ∧ (srpOf s h).run ∈ [RunSt.stopped, .off] ∧ (feedOf s h).run ∈ [RunSt.stopped, .off]) ∧
     s.upds = []) ∧
    (scbOf { up with drv := { up.drv with st := .stopping } } 0).run = .running := by decide +kernel

/-- The heartbeat of the manual's worked example (R451): no lapse at 499.8 ms, one at 500.8 ms. -/
theorem test_heartbeat : (let s (tick : Nat) := { up with
      tick := BitVec.ofNat 64 tick, regs := up.regs ++ [(Frame.id.base + 0x10C, 500), (Frame.id.base + 0x110, 0xA13E9340), (Frame.id.base + 0x114, 1)] }
    regWord64 (s 0) (Frame.id.base + 0x110) = 7000200000 ∧
    (nx (exec .heartbeatLapse (s 7500000000))).drv.st = .attached ∧ (nx (exec .heartbeatLapse (s 7501000000))).drv.st = .stopping) := by decide +kernel

/-- Sensor 0 is that of group 0, 72 of cluster 0; 160 is the input power. -/
theorem wit_SamplesDriveClocksAndPower :
    firmwareUp up = true ∧ groupLive up 0 = true ∧ groupLive up 71 = true ∧ liveGroups up ≠ [] ∧
    (let l : List (BitVec 8 × BitVec 32) := [(0, 0x8000), (71, 16 * 95), (82, 16 * 20), (87, 16 * 104), (160, 0x7530FFFF)]
     (∀ x ∈ [((0 : Nat), (0x8000 : BitVec 32)), (71, 16 * 95), (72 + 10 * (6 / 6) + 6 % 6, 16 * 20), (72 + 10 * (11 / 6) + 11 % 6, 16 * 104), (160, 0x7530FFFF)],
       (l.filter fun p => p.1.toNat = x.1).map Prod.snd = [x.2]) ∧
     (let v : BitVec 32 := 0x7530FFFF
      let hist := (up.col.powHist ++ [field v 15 0 * field v 31 16]).drop (up.col.powHist.length - 9)
      let s := { up with col := { up.col with rubric := { up.col.rubric with powerLimit := 1000 } } }
      v ≠ 0xFFFFFFFF ∧ s.col.rubric.powerLimit * 100000 * 97 ≤ field v 15 0 * field v 31 16 * 100 ∧
      s.col.rubric.powerLimit * 100000 * hist.length < hist.sum ∧ runStep s.col 0 < 4 ∧ (∀ g ∈ [0, 71], runStep s.col 0 ≤ runStep s.col g) ∧
      runStep s.col 0 < runStep { s.col with stepP := [(71, 1)] } 71 ∧
      (∀ g ∈ liveGroups s, runStep { s.col with stepP := (List.range 144).map fun i => (i, 4) } g = 4) ∧
      (let c := { s.col with powLow := 9, ceilLow := 1 }
       let low : BitVec 32 := 0x00010001
       low ≠ 0xFFFFFFFF ∧ field low 15 0 * field low 31 16 * 100 < c.rubric.powerLimit * 100000 * 97 ∧ 9 ≤ c.powLow ∧ 0 < c.ceilLow ∧
       ((c.powHist ++ [field low 15 0 * field low 31 16]).drop (c.powHist.length - 9)).sum ≤ c.rubric.powerLimit * 100000))) := by decide +kernel

/-- COL_UPD registers for an image of 76 bytes at 0x40000 of component 3, which holds the Rubric `rubBytes`. -/
def updReady (len : Nat) : State := { up with
  regs := up.regs ++ [(Frame.col.base + 0x48, 0x40000), (Frame.col.base + 0x50, BitVec.ofNat 32 len), (Frame.col.base + 0x54, 3)]
  mem := { up.mem with cells := mputs [] 0x40000 rubBytes } }

theorem wit_UpdatesAndRegisterWritesTakeEffect :
    (let s := updReady 76
     frameBusy s .col = false ∧ field (regWord s (Frame.col.base + 0x54)) 1 0 = 3 ∧ s.col.upd ≠ .busy ∧ bootedPending s 2 = false ∧
     bootedPending { s with flash := s.flash.put fun r => { r with slots := [(4, .pending 2)] } } 2 = true ∧ slotSize 2 < (regWord (updReady (2 ^ 20 + 1)) (Frame.col.base + 0x50)).toNat ∧
     76 ≤ slotSize 2 ∧ alive s = true ∧
     (match pread (s.taken .col) 0x40000 76 with | (s1, some pb) => !pb.poisoned && decide (updCause s1 2 pb.bytes = 0) | _ => false) = true ∧
     (match pread (s.taken .col) 0x50000 76 with | (s1, some pb) => !pb.poisoned && decide (updCause s1 2 pb.bytes ≠ 0) | _ => false) = true ∧
     (pread (s.taken .col) 0xFFFFFFFF0000 76).2 = none) ∧
    (∀ img ∈ [none, some rubBytes],
      (let s := { up with col := { up.col with upd := .busy, updComp := 3, updImage := img } }
       firmwareUp s = true ∧ s.col.upd = .busy ∧ s.col.updComp.toNat = 2 + 1 ∧ s.col.updImage = img ∧ rubBytes.length ≤ slotSize 2)) ∧
    (let s := { up with frames := { up.frames with lock := [frameKey .col] }, flash := up.flash.put fun r => { r with slots := [(0, .pending 2), (1, .active), (2, .active)] } }
     frameBusy s .col = false ∧ s.frames.lock.contains (frameKey .col) = true ∧ (∀ c ∈ [0, 1, 2], bootedSlot s c < 2) ∧ bootedPending s 0 = true ∧
     bootedPending s 1 = false ∧ bootedPending s 2 = false ∧
     bootedPending { s with flash := s.flash.put fun r => { r with slots := [(0, .active)] } } 0 = false) ∧
    (∀ sev ∈ [0, 4],
      (let e := body [(8, 0), (4, 0), (4, 5), (2, 1), (1, sev)]
       let s := { up with col := { up.col with logFlashed := 5, logNext := 6, log := [(5, e)] } }
       s.power.input = true ∧ sget [] s.col.log (5 % 4096) = e ∧ bget e 12 4 = 5 ∧ flashMin s = 2)) ∧
    (frameAt Frame.id.base = some .id ∧ frameFenced up .id = false ∧ Frame.id.posted = true ∧ frameBusy up .id = false) ∧
    coreRuns up ⟨0, 0⟩ = true ∧ quireFenced up ⟨1, 143⟩ = false ∧
    frameBusy (up.taken .id) .id = true ∧ regWord64 (updReady 76) (Frame.col.base + 0x48) < 2 ^ 48 ∧
    (let s := { up with frames := { up.frames with posted := [(frameKey .id, .write ⟨0, 0⟩ (Frame.id.base + 0x124) 3 none)], lock := [frameKey .id] } }
     s.frames.lock.contains (frameKey .id) = true ∧ up.frames.lock.contains (frameKey .id) = false) ∧
    (inRegs (Frame.id.base + 2) = true ∧ apertureAt (Frame.id.base + 2) = none ∧ (Frame.id.base + 2) % 4 ≠ 0 ∧ frameAt 0xF00000070000 = none ∧
      inRegs 0xF00000070000 = true ∧ apertureAt 0xF00000070000 = none) := by decide +kernel

theorem wit_LogCommitMakesOneEntry : frameBusy up .col = false ∧ featureOn up 7 = true ∧ featureOn { up with regs := [] } 7 = false := by decide +kernel

/-- The clear alias of INK_CFG that the manual's example names lies in window 2 of that frame (R430, R432). -/
theorem test_window : frameAt 0xF00011258008 = some (.ink 1 37) := by decide +kernel

/-! ### Port M (p17) -/

def someone : Requester := ⟨0x0A000002, 4000⟩

theorem wit_PortMAnswersRequests :
    (let s := { up with col := { up.col with rubric := { up.col.rubric with ip := some 0x0A000001, permit := true } } }
     portM s = true ∧ ownIp s = some 0x0A000001 ∧ ownIp s ≠ some 7 ∧ s.col.recovery = false ∧
     (∀ comp ∈ [1, 2, 3], imageAllowed s comp = true) ∧ imageAllowed s 4 = false ∧ imageAllowed s 0 = false ∧
     slotSize 2 < 2 ^ 20 + 1 ∧
     (let s := { s with flash := { s.flash with bytes := flashWrite s.flash.bytes (slotBase 2 (1 - bootedSlot s 2)) rubBytes } }
      updCause s 2 (flashRange s.flash.bytes (slotBase 2 (1 - bootedSlot s 2)) 76) = 0) ∧
     updCause s 2 (flashRange s.flash.bytes (slotBase 2 (1 - bootedSlot s 2)) 76) ≠ 0 ∧
     (let s := { s with col := { s.col with spdm := (List.range 4).map fun i => ⟨⟨1, BitVec.ofNat 16 i⟩, [0], []⟩ } }
      s.col.spdm.any (fun x => x.who = someone) = false ∧ s.col.spdm.length = 4)) ∧
    (let s := { up with col := { up.col with recovery := true } }
     portM s = true ∧ s.col.recovery = true ∧ s.flash.ip = none ∧ imageAllowed s 1 = true ∧ imageAllowed s 2 = false) := by decide +kernel

/-- The seventeenth request that waits, and one of version 2, are dropped (R413). -/
theorem test_port_full : ∀ hd ∈ [(⟨1, 3, 9, true, 16⟩ : ReqHead), ⟨2, 3, 9, true, 0⟩], (nx (exec (.sensorRead someone hd 0 64) up)).sent = [] := by decide +kernel

/-- A sensor read of 65 values is answered bad length (R413). -/
theorem test_sensor_read : (nx (exec (.sensorRead someone ⟨1, 3, 9, true, 15⟩ 0 65) up)).sent = [.mgmt (.reply someone 3 9 3 [])] := by decide +kernel

/-! ### Numbers, Wells and headers: the manual's tables and worked cases -/

/-- A header word of the worked example of chapter 06: LENGTH, FLAGS, FENCE and CQ of a slot's first bytes. -/
theorem test_header_word : (let c := cmdOfSlot 5 (body [(8, 0x0003000801080030), (4, 0xC3), (2, 0), (2, 17), (4, 0), (4, 5)])
    [c.hdr.length.toNat, c.hdr.flags.toNat, c.hdr.fence.toNat, c.hdr.cq.toNat, targetIndex c.hdr.target, c.hdr.signalSem.toNat, c.hdr.signalValue.toNat]) =
    [8, 1, 8, 3, 12, 17, 5] := by decide +kernel

/-- The test vectors of R56. -/
theorem test_sand : [sand 0 1 0, sand 0 1 1, sand 1 1 1] = [0x4E6B72B3, 0x1983F8CF, 0x0399B4F2] := by decide +kernel

/-- The worked conversions of chapter 02: ties to even and toward zero, a NaN, and stochastic rounding into BF16. -/
theorem test_bf16 : (let c (m : Rnd) (n x : Nat) : Nat := (fmtConv 1 m 0 n (fmtValue 0 x)).bits
    [c .rne 0 0x3F818000, c .rne 0 0x3F808000, c .rtz 0 0x3F818000, c .rtz 0 0x7F800001, c .sr 0x4E6B72B3 0x3F80C000, c .sr 0x0399B4F2 0x3F80C000]) =
    [0x3F82, 0x3F80, 0x3F81, 0x7FC0, 0x3F81, 0x3F80] := by decide +kernel

/-- 500.0, 460.0, 1.5 × 2^-9 and 2^-11 into E4M3 (the same section): bits and gauge conditions. -/
theorem test_e4m3 : (let c (m : Rnd) (r x : Nat) : Conv := fmtConv 3 m r 0 (fmtValue 0 x)
    c .rne 0 0x43FA0000 = ⟨0x7E, true, false, false, false⟩ ∧ c .rtz 2 0x43FA0000 = ⟨0x7F, true, false, false, true⟩ ∧
    c .rne 2 0x43E60000 = ⟨0x7E, false, false, false, false⟩ ∧
    c .rne 0 0x3B400000 = ⟨0x02, false, false, true, false⟩ ∧ c .rne 0 0x3A000000 = ⟨0x00, false, true, false, false⟩) := by decide +kernel

/-- 70,000.0 into E5M2 (the same section). -/
theorem test_e5m2 : (let c (m : Rnd) (r : Nat) : Nat := (fmtConv 4 m r 0 (fmtValue 0 0x4788B800)).bits
    [c .rne 2, c .rtz 2, c .rne 1, c .rtz 1]) = [0x7C, 0x7B, 0x7B, 0x7B] := by decide +kernel

/-- A cell's BF16 products from zero. -/
def cell (l : List (Nat × Nat)) : Well := l.foldl (fun w p => w.addProduct (.val (fmtValue 1 p.1)) (.val (fmtValue 1 p.2))) wellZero

/-- Special values with ordinary products (chapter 03, *Worked cases*): flags, count, byte 34, the other 79 bytes. -/
theorem test_well_specials : (let w := cell [(0x7F80, 0x4000), (0x3FC0, 0x4000), (0x3E80, 0x4080), (0x7FC1, 0x3F80)]
    (w.flags, w.cnt) = (3, 4) ∧ w.raw.getD 34 0 = 4 ∧ (w.raw.take 80).foldl (fun n b => n + b.toNat) 0 = 4 ∧
    [0, 1, 2, 3, 4, 0xA, 0xB].map (fun f => (w.readout f .rne 0 0).2.bits) = [0x7FC00000, 0x7FC0, 0x7E00, 0x7F, 0x7E, 0, 0]) := by decide +kernel

/-- The same without the NaN: row 3 of R72, default and saturating. -/
theorem test_well_infinite : (let w := cell [(0x7F80, 0x4000), (0x3FC0, 0x4000), (0x3E80, 0x4080)]
    [0, 1, 2, 3, 4, 0xA, 0xB].map (fun f => (w.readout f .rne 0 0).2.bits) = [0x7F800000, 0x7F80, 0x7C00, 0x7E, 0x7C, 0x7F, 0x7FFFFFFF] ∧
    [0, 1, 2, 4].map (fun f => (w.readout f .rne 1 0).2.bits) = [0x7F7FFFFF, 0x7F7F, 0x7BFF, 0x7B]) := by decide +kernel

/-- An overflow by merge (chapter 03): +2^366 and +2^366. -/
theorem test_well_overflow : (let w : Well := ⟨1#640 <<< 638, 0, 1⟩
    let m := w.merge w
    m.flags = 0x08 ∧ m.raw.getD 79 0 = 0x80 ∧ (m.raw.take 79).all (· == 0) = true ∧ m.cnt = 2 ∧
    (m.readout 1 .rne 2 0).2.bits = 0x7F80 ∧ (m.readout 1 .rne 1 0).2.bits = 0x7F7F) := by decide +kernel

/-! ### The Feed's decoders: bytes by the formats' own rules -/

/-- A fixed block of `abc` and a copy of six from three back, then a stored block (RFC 1951). -/
theorem test_inflate : inflate true 0 9 [75, 76, 74, 78, 4, 35, 0] = some ([97, 98, 99, 97, 98, 99, 97, 98, 99], false) ∧
    inflate true 0 8 [75, 76, 74, 78, 4, 35, 0] = some ([97, 98, 99, 97, 98, 99, 97, 98, 99], true) ∧
    inflate true 0 9 [1, 1, 0, 0xFE, 0xFF, 7] = some ([7], false) ∧ inflate true 0 9 [1, 1, 0, 0xFE, 0xFE, 7] = none := by decide +kernel

/-- A skippable frame, then one of a run block of three bytes (RFC 8878). -/
theorem test_zstd : zstd 9 [0x50, 0x2A, 0x4D, 0x18, 1, 0, 0, 0, 9, 0x28, 0xB5, 0x2F, 0xFD, 0x20, 3, 0x1B, 0, 0, 7] = some ([7, 7, 7], false) ∧
    (zHeads 9 [0x28, 0xB5, 0x2F, 0xFD, 0x00, 0x70, 1, 0, 0]).map ZHead.covered = [false] := by decide +kernel

/-- R366: a DC of 4 is one half in every sample and rounds up, as minus one half does. -/
theorem test_idct : idctAt [(0, 4)] 3 5 = 1 ∧ idctAt [(0, -4)] 3 5 = 0 ∧ idctAt [(0, -5)] 0 0 = -1 ∧
    ycc 128 128 255 = [255, 37, 128] := by decide +kernel

/-! ### Well-formedness: an ill-formed command for each check, refused -/

/-- A message whose parts are given. -/
def msgOf (blocks : List SrpBlock) (exps : List (BitVec 16)) (well : List Byte) : SrpMsg := ⟨1, 0, 0, 0, 0, 0, 0, 0, 0, 0, false, blocks, exps, well⟩

theorem test_ill_formed : ([
    .nop ⟨5, ⟨0, 0, 0, 3, 0, 0, 0, 0, 0, 0⟩, [1]⟩, .paletteScrub q0 98304 0, .paletteScrub q0 0 37, .csrAccess n0 4 0 0 0, .remoteLoadReturn n0 64,
    .apertureAccess core3 n0 2 2 none, .mailboxDelivery (2 ^ 20), .ligFlitReceive (.lig 0) [0], .srpScaleMsg (msgOf [⟨List.replicate 257 0, 0, 0⟩] [] []),
    .srpReduceMsg (msgOf (List.replicate 17 ⟨[], 0, 0⟩) [] []), .srpGatherMsg (msgOf [] (List.replicate 17 0) []), .srpCreditMsg (msgOf [] [] [0]),
    .hbmScrubRead 0 (2 ^ 34) [], .hbmScrubRead 0 0 (List.replicate 9 0), .reservoirScrub 0 0 [37], .coreLoad core3 0x7F 1, .coreAtomic core3 4 true .add 0 0, .wrFull 0 0 [0] false,
    .wrPartial 0 0 [], .wrPartial 0 0x7F [some 0, none], .linkBlockReceive 0 ⟨[0], 0, 0, false, 0⟩, .dataPacket { fromTwo 0 2 1 none [] with payload := List.replicate 4097 0 },
    .bootStageAdvance ⟨[0], []⟩, .bootStageAdvance ⟨[], [(6, 1)]⟩, .stageTimeout ⟨[0], []⟩, .stageTimeout ⟨[], [(6, 1)]⟩, .colophonSample (List.replicate 257 (0, 0)), .registerWrite core3 2 0,
    .contributionReadDone 0 (2 ^ 24)] : List Instr).all (fun c => !c.wellFormed) = true := by decide +kernel

theorem test_well_formed : ([.nop (cmd 0 0 []), .paletteScrub q0 98303 36, .csrAccess n0 1 0 0 0, .coreLoad core3 0x7F 0, .coreAtomic core3 8 true .add 0 0,
    .srpReduceMsg (msgOf [⟨[1], 0, 0⟩] [] []), .dataPacket (fromTwo 0 2 1 none []), .registerWrite core3 4 0] : List Instr).all Instr.wellFormed = true := by
  decide +kernel

end Sys2Proof.Tests
end

section
/-! SUPPORT. Sparse tables under a map, counters of register frames, and the ends of the flit links. -/

namespace Sys2Proof.Machine
open Sys2Proof

/-! ### Sparse tables -/

/-- A map of the values that keeps the default maps what is read. -/
theorem sget_map {α β : Type} {d : α} {d' : β} {g : α → β} (hd : g d = d') (m : Sparse α) (k : Nat) :
    sget d' (m.map fun p => (p.1, g p.2)) k = g (sget d m k) := by
  induction m with
  | nil => exact hd.symm
  | cons p t ih =>
    obtain ⟨k', v⟩ := p
    simp only [List.map_cons, sget, ih]
    split <;> rfl

theorem sget_filter {α : Type} (d : α) (q : Nat → Bool) (m : Sparse α) (k : Nat) :
    sget d (m.filter fun p => q p.1) k = if q k = true then sget d m k else d := by
  induction m with
  | nil => simp [sget]
  | cons p t ih =>
    obtain ⟨k', v⟩ := p
    by_cases hk : k' = k
    · subst hk
      cases hq : q k' <;> simp_all [sget]
    · cases hq : q k' <;> simp [sget, hq, hk, ih]

theorem sset_sset {α : Type} (m : Sparse α) (k : Nat) (v w : α) : sset (sset m k v) k w = sset m k w := by
  induction m with
  | nil => simp [sset]
  | cons p t ih =>
    obtain ⟨k', v'⟩ := p
    by_cases hlt : k < k'
    · simp [sset, hlt]
    · by_cases he : k = k'
      · subst he
        simp [sset]
      · simp [sset, hlt, he, ih]

/-! ### Registers -/

theorem regWord_setReg (s : State) (a b : Nat) (v : Word) : regWord (setReg s a v) b = if b = a then v else regWord s b := by
  simp only [regWord, setReg_regs, sget_sset]

theorem regWord_setReg_ne {a b : Nat} (s : State) (v : Word) (h : b ≠ a) : regWord (setReg s a v) b = regWord s b := by
  rw [regWord_setReg, if_neg h]

theorem regWord_setReg64_ne {a b : Nat} (s : State) (v : Nat) (h : b ≠ a) (h' : b ≠ a + 4) :
    regWord (setReg64 s a v) b = regWord s b := by
  rw [setReg64, regWord_setReg_ne _ _ h', regWord_setReg_ne _ _ h]

theorem regWord64_setReg64 (s : State) (a v : Nat) : regWord64 (setReg64 s a v) a = v % 2 ^ 64 := by
  simp [regWord64, setReg64, regWord_setReg]
  omega

theorem regWord_count_ne {f : Frame} {off b : Nat} (s : State) (n : Nat) (h : b ≠ f.base + off) (h' : b ≠ f.base + off + 4) :
    regWord (count s f off n) b = regWord s b := by
  unfold count
  split
  · rfl
  · exact regWord_setReg64_ne _ _ h h'

theorem regWord64_count_one (s : State) (f : Frame) (off : Nat) :
    regWord64 (count s f off 1) (f.base + off) = (regWord64 s (f.base + off) + 1) % 2 ^ 64 :=
  regWord64_setReg64 _ _ _

theorem count_eq (s : State) (f : Frame) (off n : Nat) : count s f off n = { s with regs := (count s f off n).regs } := by
  unfold count
  split <;> rfl

/-! ### Link ends -/

theorem linkIdx_inj {e e' : LinkEnd} (h : linkIdx e = linkIdx e') : e = e' := by
  cases e <;> cases e' <;> simp only [linkIdx] at h
  case lig.lig | blVellum.blVellum | blBlotter.blBlotter => exact congrArg _ (Fin.ext (by omega))
  all_goals omega

@[simp] theorem linkOf_setLink (s : State) (e : LinkEnd) (l : Link) : linkOf (setLink s e l) e = l := by simp [linkOf]

@[simp] theorem setLink_setLink (s : State) (e : LinkEnd) (l l' : Link) : setLink (setLink s e l) e l' = setLink s e l' := by
  simp only [setLink, sset_sset]

theorem linkOf_setLink_ne {e e' : LinkEnd} (s : State) (l : Link) (h : e' ≠ e) : linkOf (setLink s e l) e' = linkOf s e' :=
  sget_sset_ne _ _ _ fun k => h (linkIdx_inj k)

theorem linkOf_congr {s t : State} (h : t.links = s.links) (e : LinkEnd) : linkOf t e = linkOf s e := by rw [linkOf, h]; rfl

@[simp] theorem linkOf_ligCount (s : State) (e e' : LinkEnd) (off : Nat) : linkOf (ligCount s e off) e' = linkOf s e' := by
  cases e
  case lig h => exact linkOf_congr (congrArg State.links (count_eq s (.lig h) off 1)) e'
  all_goals rfl

theorem ligCount_eq (s : State) (e : LinkEnd) (off : Nat) : ligCount s e off = { s with regs := (ligCount s e off).regs } := by
  cases e
  case lig h => exact count_eq s (.lig h) off 1
  all_goals rfl

end Sys2Proof.Machine
end

section
/-! SUPPORT. What putting waiting flits on the wire does (R17 to R20). -/

namespace Sys2Proof.Machine
open Sys2Proof

/-- Registers that nothing a unit does to memory or to the fabric writes: those of the Colophon domain, and the status of
a Ligature end. -/
def calmReg (a : Nat) : Bool := survives a || a = (Frame.lig 0).base || a = (Frame.lig 1).base

theorem calmReg_lig (h : Half) : calmReg (Frame.lig h).base = true := by revert h; decide

/-- The words of a counter are not calm, so that every calm register stays. -/
theorem calm_count {f : Frame} {off : Nat} (s : State) (n : Nat) (h : calmReg (f.base + off) = false) (h' : calmReg (f.base + off + 4) = false)
    (a : Nat) (ha : calmReg a = true) : regWord (count s f off n) a = regWord s a :=
  regWord_count_ne s n (fun e => by simp [← e, ha] at h) (fun e => by simp [← e, ha] at h')

/-- The sending side of a link taken from another. -/
def Link.sendSide (l l' : Link) : Link :=
  { l with nextSeq := l'.nextSeq, replay := l'.replay, txq := l'.txq, spent := l'.spent, cvc := l'.cvc, out := l'.out }

/-- What putting waiting flits of one end on the wire may change: the sending side of its link, and counters. -/
structure Pumps (e : LinkEnd) (s t : State) : Prop where
  rest : t = { s with links := t.links, regs := t.regs }
  link : linkOf t e = (linkOf s e).sendSide (linkOf t e)
  others : ∀ e', e' ≠ e → linkOf t e' = linkOf s e'
  calm : ∀ a, calmReg a = true → regWord t a = regWord s a

theorem Pumps.refl (e : LinkEnd) (s : State) : Pumps e s s := ⟨rfl, rfl, fun _ _ => rfl, fun _ _ => rfl⟩

theorem Pumps.trans {e : LinkEnd} {s t u : State} (h : Pumps e s t) (k : Pumps e t u) : Pumps e s u where
  rest := k.rest.trans (congrArg (fun x : State => { x with links := u.links, regs := u.regs }) h.rest)
  link := k.link.trans (by rw [h.link]; rfl)
  others e' ne := (k.others e' ne).trans (h.others e' ne)
  calm a ha := (k.calm a ha).trans (h.calm a ha)

theorem pumps_setLink (s : State) (e : LinkEnd) (l : Link) : Pumps e s (setLink s e ((linkOf s e).sendSide l)) where
  rest := rfl
  link := by simp [Link.sendSide]
  others _ ne := linkOf_setLink_ne _ _ ne
  calm _ _ := rfl

theorem pumps_ligCount (s : State) (e e' : LinkEnd) {off : Nat} (ho : off ∈ [0x10, 0x18, 0x20, 0x28]) : Pumps e s (ligCount s e' off) where
  rest := by rw [ligCount_eq]
  link := by simp [Link.sendSide]
  others _ _ := by simp
  calm a ha := by
    cases e'
    case lig h =>
      have hc : ∀ h : Half, ∀ o ∈ [0x10, 0x18, 0x20, 0x28], calmReg ((Frame.lig h).base + o) = false ∧ calmReg ((Frame.lig h).base + o + 4) = false := by
        decide
      exact calm_count s 1 (hc h off ho).1 (hc h off ho).2 a ha
    all_goals rfl

/-- A first-send takes a SEQ, a credit and a replay entry (R18, R20). -/
theorem flitOut_eq_some {s t : State} {e : LinkEnd} {vc : Nat} (h : flitOut s e vc = some t) :
    ∃ l, t = ligCount (setLink s e ((linkOf s e).sendSide l)) e 0x10 := by
  unfold flitOut at h
  dsimp only at h
  split at h
  · cases h
  · split at h
    · cases h
    · split at h
      · rename_i i _ _ x _ _
        cases h
        exact ⟨{ flitPut (linkOf s e) (linkOf s e).nextSeq x.2.1 x.2.2 with
          nextSeq := ((linkOf s e).nextSeq + 1) % 1024
          replay := (linkOf s e).replay ++ [((linkOf s e).nextSeq, x.2)]
          txq := dropAt (linkOf s e).txq i
          spent := sset (linkOf s e).spent vc (sget 0 (linkOf s e).spent vc + 1) }, rfl⟩
      · cases h

theorem pumps_flitOut {s t : State} {e : LinkEnd} {vc : Nat} (h : flitOut s e vc = some t) : Pumps e s t := by
  obtain ⟨l, rfl⟩ := flitOut_eq_some h
  exact (pumps_setLink s e l).trans (pumps_ligCount _ e e (by decide))

theorem pumps_flitTurn (e : LinkEnd) (vc : Nat) : ∀ (n : Nat) (s : State), Pumps e s (flitTurn n s e vc).1
  | 0, s => .refl e s
  | n + 1, s => by
    unfold flitTurn
    split
    · exact .refl e s
    · rename_i t ht
      exact (pumps_flitOut ht).trans (pumps_flitTurn e vc n t)

theorem pumps_foldl {α β : Type} (e : LinkEnd) {f : State × β → α → State × β} (h : ∀ r a, Pumps e r.1 (f r a).1) :
    ∀ (l : List α) (r : State × β), Pumps e r.1 (l.foldl f r).1
  | [], r => .refl e r.1
  | a :: t, r => (h r a).trans (pumps_foldl e h t (f r a))

theorem pumps_flitCycle (s : State) (e : LinkEnd) : Pumps e s (flitCycle s e).1 :=
  have own := pumps_foldl e (f := fun r vc =>
      let t := flitTurn (flitShare e vc) r.1 e vc
      (t.1, r.2 + t.2)) (fun r vc => pumps_flitTurn e vc (flitShare e vc) r.1) (List.range 4) (s, 0)
  own.trans (pumps_foldl e (f := fun r vc => flitTurn r.2 r.1 e vc) (fun r vc => pumps_flitTurn e vc r.2 r.1) [2, 1, 0, 3] _)

theorem pumps_flitPump (e : LinkEnd) : ∀ (n : Nat) (s : State), Pumps e s (flitPump n s e)
  | 0, s => .refl e s
  | n + 1, s => by
    unfold flitPump
    dsimp only
    split
    · exact (pumps_flitCycle s e).trans (pumps_flitPump e n _)
    · split
      · exact (pumps_flitCycle s e).trans (pumps_ligCount _ e e (by decide))
      · exact pumps_flitCycle s e

/-! ### A link with nothing to send, and one with a single flit -/

theorem flitOut_idle {s : State} {e : LinkEnd} (vc : Nat) (h : (linkOf s e).txq = []) : flitOut s e vc = none := by
  simp [flitOut, h, findIdx?]

theorem flitTurn_of_none {s : State} {e : LinkEnd} {vc : Nat} (h : flitOut s e vc = none) (n : Nat) : flitTurn n s e vc = (s, n) := by
  cases n with
  | zero => rfl
  | succ n => rw [flitTurn, h]

/-- The flits of one cycle on a link. -/
def cycleShare : LinkEnd → Nat
  | .lig _ => 16
  | _ => 8

theorem flitShare_sum (e : LinkEnd) : flitShare e 0 + flitShare e 1 + flitShare e 2 + flitShare e 3 = cycleShare e := by
  cases e <;> rfl

theorem flitShare_pos (e : LinkEnd) {vc : Nat} (h : vc < 4) : 0 < flitShare e vc := by
  have hp : ∀ v < 4, 0 < [4, 5, 2, 5].getD v 0 ∧ 0 < [2, 2, 1, 3].getD v 0 := by decide
  cases e
  case lig => exact (hp vc h).1
  all_goals exact (hp vc h).2

theorem flitCycle_idle {s : State} {e : LinkEnd} (h : (linkOf s e).txq = []) : flitCycle s e = (s, cycleShare e) := by
  have ht (n vc : Nat) : flitTurn n s e vc = (s, n) := flitTurn_of_none (flitOut_idle vc h) n
  rw [← flitShare_sum]
  simp [flitCycle, List.range_succ, ht]

theorem cycleShare_gt_one (e : LinkEnd) : 1 < cycleShare e := by cases e <;> simp [cycleShare]

theorem flitPump_idle {s : State} {e : LinkEnd} (h : (linkOf s e).txq = []) (n : Nat) : flitPump n s e = s := by
  cases n with
  | zero => rfl
  | succ n =>
    have := cycleShare_gt_one e
    rw [flitPump, flitCycle_idle h]
    simp [flitWaits, h, show cycleShare e ≠ 0 by omega]

/-- The state after the first send of a link's only waiting flit. -/
def flitSent (s : State) (e : LinkEnd) (x : Nat × Nat × List Byte) : State :=
  let l := linkOf s e
  ligCount (setLink s e { flitPut l l.nextSeq x.2.1 x.2.2 with
    nextSeq := (l.nextSeq + 1) % 1024
    replay := l.replay ++ [(l.nextSeq, x.2)]
    txq := []
    spent := sset l.spent (x.2.1 % 4) (sget 0 l.spent (x.2.1 % 4) + 1) }) e 0x10

section
variable {s : State} {e : LinkEnd} {x : Nat × Nat × List Byte} (hq : (linkOf s e).txq = [x])
  (hr : (linkOf s e).replay.length < 256) (hc : flitCredit (linkOf s e) e (x.2.1 % 4) = true)
include hq

theorem flitOut_other {vc : Nat} (h : x.2.1 % 4 ≠ vc) : flitOut s e vc = none := by
  simp [flitOut, hq, findIdx?, h]

include hr hc

theorem flitOut_only : flitOut s e (x.2.1 % 4) = some (flitSent s e x) := by
  simp [flitOut, hq, findIdx?, hr, hc, flitSent, dropAt]

theorem flitTurn_only (n : Nat) : flitTurn (n + 1) s e (x.2.1 % 4) = (flitSent s e x, n) := by
  rw [flitTurn, flitOut_only hq hr hc]
  exact flitTurn_of_none (flitOut_idle _ (by simp [flitSent])) n

theorem flitCycle_only : flitCycle s e = (flitSent s e x, cycleShare e - 1) := by
  have hs (n vc : Nat) : flitTurn n (flitSent s e x) e vc = (flitSent s e x, n) :=
    flitTurn_of_none (flitOut_idle vc (by simp [flitSent])) n
  have ho (n vc : Nat) (h : x.2.1 % 4 ≠ vc) : flitTurn n s e vc = (s, n) := flitTurn_of_none (flitOut_other hq h) n
  have hx (n : Nat) (h : 0 < n) : flitTurn n s e (x.2.1 % 4) = (flitSent s e x, n - 1) := by
    obtain ⟨m, rfl⟩ : ∃ m, n = m + 1 := ⟨n - 1, by omega⟩
    exact flitTurn_only hq hr hc m
  have hp (vc : Nat) (h : vc < 4) := flitShare_pos e h
  rw [← flitShare_sum]
  have hv : x.2.1 % 4 < 4 := Nat.mod_lt _ (by decide)
  generalize x.2.1 % 4 = v at *
  have h0 := hp 0 (by decide)
  have h1 := hp 1 (by decide)
  have h2 := hp 2 (by decide)
  have h3 := hp 3 (by decide)
  obtain rfl | rfl | rfl | rfl : v = 0 ∨ v = 1 ∨ v = 2 ∨ v = 3 := by omega
  all_goals
    simp [flitCycle, List.range_succ, hs, ho, hx, h0, h1, h2, h3]
    omega

theorem flitPump_only (n : Nat) : flitPump (n + 1) s e = flitSent s e x := by
  have := cycleShare_gt_one e
  rw [flitPump, flitCycle_only hq hr hc]
  simp [show cycleShare e - 1 ≠ 0 by omega, flitWaits, flitSent]

end

end Sys2Proof.Machine
end

section
/-! SUPPORT. What an arriving flit does to a link end (R16 to R21). -/

namespace Sys2Proof.Machine
open Sys2Proof

theorem findIdx?_append {α : Type} {p : α → Bool} {x : α} {post : List α} (hx : p x = true) :
    ∀ {pre : List α}, (∀ y ∈ pre, p y = false) → findIdx? p (pre ++ x :: post) = some pre.length
  | [], _ => by simp [findIdx?, hx]
  | y :: pre, h => by
    have hy := h y List.mem_cons_self
    simp [findIdx?, hy, findIdx?_append hx fun z hz => h z (List.mem_cons_of_mem _ hz)]

theorem bslice_of_length {b : List Byte} {off n : Nat} (h : off + n ≤ b.length) : bslice b off n = (b.drop off).take n := by
  simp [bslice]
  omega

/-! ### The ACK and the credit report -/

/-- An ACK changes the replay buffer alone. -/
theorem takeAck_eq (l : Link) (a : Nat) : takeAck l a = { l with replay := (takeAck l a).replay } := by
  unfold takeAck
  split <;> rfl

theorem takeAck_replay {l : Link} {a : Nat} {pre post : List (Nat × Nat × List Byte)} {x : Nat × Nat × List Byte}
    (h : l.replay = pre ++ x :: post) (hx : x.1 = a) (hp : ∀ y ∈ pre, y.1 ≠ a) : (takeAck l a).replay = post := by
  have hi : findIdx? (fun y => decide (y.1 = a)) l.replay = some pre.length := by
    rw [h]
    exact findIdx?_append (by simpa using hx) fun y hy => by simpa using hp y hy
  simp only [takeAck, hi]
  simp [h]

theorem takeAck_replay_length_le (l : Link) (a : Nat) : (takeAck l a).replay.length ≤ l.replay.length := by
  unfold takeAck
  split <;> simp

/-- A credit report changes the credits alone. -/
theorem takeCredit_eq (l : Link) (ch cnt unit md : Nat) : takeCredit l ch cnt unit md = { l with credited := (takeCredit l ch cnt unit md).credited } := by
  unfold takeCredit
  dsimp only
  split <;> rfl

theorem takeCredit_credited (l : Link) (ch cnt unit md : Nat) : sget 0 (takeCredit l ch cnt unit md).credited ch =
    sget 0 l.credited ch + unit * ((cnt + md - sget 0 l.credited ch / unit % md) % md) := by
  unfold takeCredit
  dsimp only
  split
  · rename_i h; simp [h]
  · simp

theorem takeCredit_credited_le (l : Link) (ch cnt unit md v : Nat) : sget 0 l.credited v ≤ sget 0 (takeCredit l ch cnt unit md).credited v := by
  by_cases hv : v = ch
  · subst hv
    rw [takeCredit_credited]
    omega
  · unfold takeCredit
    dsimp only
    split
    · exact Nat.le_refl _
    · exact Nat.le_of_eq (sget_sset_ne _ _ _ hv).symm

/-- The count that the credits then stand at is the one reported (R19). -/
theorem takeCredit_reported (l : Link) (ch : Nat) {cnt : Nat} (h : cnt < 64) :
    sget 0 (takeCredit l ch cnt 8 64).credited ch / 8 % 64 = cnt := by
  rw [takeCredit_credited]
  omega

/-! ### The flit itself -/

/-- A link end after an intact flit gave its ACK and its credit report. -/
def flitAcked (l : Link) (cw : Nat) : Link :=
  { takeCredit (takeAck l (fieldN cw 23 14)) (fieldN cw 25 24) (fieldN cw 31 26) 8 64 with discard := false }

/-- Whether a flit is a head or a body in order. -/
def flitInOrder (l : Link) (cw : Nat) : Bool := decide (fieldN cw 3 2 < 2 ∧ fieldN cw 13 4 = l.rxExp)

/-- A link end after an intact flit, before what may leave leaves. -/
def flitTaken (l : Link) (flit : List Byte) : Link :=
  let cw := bget flit 0 4
  if flitInOrder l cw then takeFlit (flitAcked l cw) (fieldN cw 1 0) (fieldN cw 3 2) ((flit.drop 4).take 58) else flitAcked l cw

theorem flitAcked_eq (l : Link) (cw : Nat) :
    flitAcked l cw = { l with replay := (takeAck l (fieldN cw 23 14)).replay, credited := (flitAcked l cw).credited, discard := false } := by
  unfold flitAcked
  rw [takeCredit_eq, takeAck_eq]

theorem takeFlit_eq (l : Link) (vc kind : Nat) (payload : List Byte) : takeFlit l vc kind payload = { l with
    rxExp := (l.rxExp + 1) % 1024, freed := sset l.freed vc (sget 0 l.freed vc + 1), rx := (takeFlit l vc kind payload).rx
    partials := sset l.partials vc ((if kind = 0 then [] else sget [] l.partials vc) ++ payload) } := by
  unfold takeFlit
  dsimp only
  split <;> simp

/-- Taking a flit leaves the sending side as the ACK and the credit report left it. -/
theorem flitTaken_eq (l : Link) (flit : List Byte) : flitTaken l flit = { l with
    replay := (takeAck l (fieldN (bget flit 0 4) 23 14)).replay, credited := (flitAcked l (bget flit 0 4)).credited, discard := false
    rxExp := (flitTaken l flit).rxExp, freed := (flitTaken l flit).freed, rx := (flitTaken l flit).rx
    partials := (flitTaken l flit).partials } := by
  unfold flitTaken
  dsimp only
  split
  · rw [takeFlit_eq, flitAcked_eq]
  · rw [flitAcked_eq]

theorem bget_64 {b : List Byte} (h : b.length = 64) : bslice b 0 64 = b := by
  rw [bslice_of_length (by omega), List.drop_zero, List.take_of_length_le (by omega)]

section
variable {s : State} {e : LinkEnd} {flit : List Byte} (hl : linkLive s e = true) (hn : flit.length = 64)
include hl hn

theorem flitReceive_damaged (hc : bget flit 62 2 ≠ (crc16 (flit.take 62)).toNat) :
    flitReceive s e flit = ligCount (setLink s e { flitRetryOut (linkOf s e) with discard := true }) e 0x18 := by
  simp [flitReceive, hl, bget_64 hn, hc]

theorem flitReceive_discarded (hc : bget flit 62 2 = (crc16 (flit.take 62)).toNat) (hd : (linkOf s e).discard = true)
    (hs : fieldN (bget flit 0 4) 13 4 ≠ (linkOf s e).rxExp) : flitReceive s e flit = s := by
  simp [flitReceive, hl, bget_64 hn, hc, hd, hs]

/-- An intact flit is taken, then what may leave leaves, and an idle flit answers a taken one when nothing else did. -/
theorem flitReceive_intact (hc : bget flit 62 2 = (crc16 (flit.take 62)).toNat)
    (hd : (linkOf s e).discard = false ∨ fieldN (bget flit 0 4) 13 4 = (linkOf s e).rxExp) :
    flitReceive s e flit =
      (let l := flitTaken (linkOf s e) flit
       let t := flitPump (l.txq.length + 1) (setLink s e l) e
       if flitInOrder (linkOf s e) (bget flit 0 4) && decide ((linkOf t e).nextSeq = l.nextSeq) then setLink t e (flitIdle (linkOf t e)) else t) := by
  have hd' : ((linkOf s e).discard && decide (fieldN (bget flit 0 4) 13 4 ≠ (linkOf s e).rxExp)) = false := by
    rcases hd with h | h <;> simp [h]
  have hx : (flitAcked (linkOf s e) (bget flit 0 4)).rxExp = (linkOf s e).rxExp := by rw [flitAcked_eq]
  have hb : bslice flit 4 58 = (flit.drop 4).take 58 := bslice_of_length (by omega)
  unfold flitReceive
  simp only [hl, bget_64 hn, hc, hd', hb]
  simp only [flitTaken, flitInOrder, ← hx, flitAcked, ne_eq, not_true_eq_false, Bool.not_true, if_false, Bool.false_eq_true]

end

end Sys2Proof.Machine
end

section
/-! A flit link takes flits in order and resends (R16 to R21). -/

namespace Sys2Proof.Machine
open Sys2Proof

/-! ### An intact flit -/

@[simp] theorem flitTaken_discard (l : Link) (flit : List Byte) : (flitTaken l flit).discard = false := by rw [flitTaken_eq]
@[simp] theorem flitTaken_txq (l : Link) (flit : List Byte) : (flitTaken l flit).txq = l.txq := by rw [flitTaken_eq]
@[simp] theorem flitTaken_nextSeq (l : Link) (flit : List Byte) : (flitTaken l flit).nextSeq = l.nextSeq := by rw [flitTaken_eq]
@[simp] theorem flitTaken_out (l : Link) (flit : List Byte) : (flitTaken l flit).out = l.out := by rw [flitTaken_eq]
@[simp] theorem flitTaken_spent (l : Link) (flit : List Byte) : (flitTaken l flit).spent = l.spent := by rw [flitTaken_eq]
@[simp] theorem flitTaken_replay (l : Link) (flit : List Byte) :
    (flitTaken l flit).replay = (takeAck l (fieldN (bget flit 0 4) 23 14)).replay := by rw [flitTaken_eq]
@[simp] theorem flitTaken_credited (l : Link) (flit : List Byte) :
    (flitTaken l flit).credited = (flitAcked l (bget flit 0 4)).credited := by rw [flitTaken_eq]

theorem flitAcked_reported (l : Link) (cw : Nat) :
    sget 0 (flitAcked l cw).credited (fieldN cw 25 24) / 8 % 64 = fieldN cw 31 26 := by
  exact takeCredit_reported _ _ (Nat.mod_lt _ (by decide))

theorem flitAcked_credited_le (l : Link) (cw vc : Nat) : sget 0 l.credited vc ≤ sget 0 (flitAcked l cw).credited vc := by
  refine Nat.le_trans (Nat.le_of_eq ?_) (takeCredit_credited_le (takeAck l (fieldN cw 23 14)) (fieldN cw 25 24) (fieldN cw 31 26) 8 64 vc)
  rw [takeAck_eq]

/-- A flit out of order, an idle or a control flit leaves the receiving side as it was. -/
theorem flitTaken_of_not_inOrder {l : Link} {flit : List Byte} (h : flitInOrder l (bget flit 0 4) = false) :
    (flitTaken l flit).rxExp = l.rxExp ∧ (flitTaken l flit).freed = l.freed ∧ (flitTaken l flit).partials = l.partials ∧
      (flitTaken l flit).rx = l.rx := by
  have ht : flitTaken l flit = flitAcked l (bget flit 0 4) := by simp [flitTaken, h]
  rw [ht, flitAcked_eq]
  exact ⟨rfl, rfl, rfl, rfl⟩

/-- A head or body flit in order is taken on its channel and frees one slot. -/
theorem flitTaken_of_inOrder {l : Link} {flit : List Byte} (h : flitInOrder l (bget flit 0 4) = true) :
    (let vc := fieldN (bget flit 0 4) 1 0
     (flitTaken l flit).rxExp = (l.rxExp + 1) % 1024 ∧ (flitTaken l flit).freed = sset l.freed vc (sget 0 l.freed vc + 1) ∧
     (flitTaken l flit).partials = sset l.partials vc
       ((if fieldN (bget flit 0 4) 3 2 = 0 then [] else sget [] l.partials vc) ++ (flit.drop 4).take 58)) := by
  have ht : flitTaken l flit = takeFlit (flitAcked l (bget flit 0 4)) (fieldN (bget flit 0 4) 1 0) (fieldN (bget flit 0 4) 3 2)
      ((flit.drop 4).take 58) := by simp [flitTaken, h]
  rw [ht, takeFlit_eq, flitAcked_eq]
  exact ⟨rfl, rfl, rfl⟩

/-- An idle flit changes the sending side of a link alone. -/
theorem pumps_flitIdle (s : State) (e : LinkEnd) : Pumps e s (setLink s e (flitIdle (linkOf s e))) :=
  pumps_setLink s e (flitIdle (linkOf s e))

/-- The part of the statement on an intact flit. -/
structure TakesFlit (s t : State) (e : LinkEnd) (flit : List Byte) : Prop where
  pumps : Pumps e (setLink s e (flitTaken (linkOf s e) flit)) t
  replay : (linkOf s e).txq = [] → (linkOf t e).replay = (takeAck (linkOf s e) (fieldN (bget flit 0 4) 23 14)).replay
  sends : ∀ x, (linkOf s e).txq = [x] → (linkOf s e).replay.length < 256 → flitCredit (linkOf s e) e (x.2.1 % 4) = true →
    t = flitSent (setLink s e (flitTaken (linkOf s e) flit)) e x

theorem takesFlit_flitReceive {s : State} {e : LinkEnd} {flit : List Byte} (hl : linkLive s e = true) (hn : flit.length = 64)
    (hc : bget flit 62 2 = (crc16 (flit.take 62)).toNat)
    (hd : (linkOf s e).discard = false ∨ fieldN (bget flit 0 4) 13 4 = (linkOf s e).rxExp) :
    TakesFlit s (flitReceive s e flit) e flit := by
  rw [flitReceive_intact hl hn hc hd]
  dsimp only
  constructor
  · split
    · exact (pumps_flitPump e _ _).trans (pumps_flitIdle _ e)
    · exact pumps_flitPump e _ _
  · intro hq
    rw [flitPump_idle (by simpa using hq)]
    split <;> simp [flitIdle, flitPut]
  · intro x hq hr hcr
    have hr' := takeAck_replay_length_le (linkOf s e) (fieldN (bget flit 0 4) 23 14)
    have hcr' := flitAcked_credited_le (linkOf s e) (bget flit 0 4) (x.2.1 % 4)
    rw [flitPump_only (x := x) (by simpa using hq) (by simp; omega) (by simp [flitCredit] at hcr ⊢; omega), if_neg]
    simp [flitSent]
    omega

/-! ### A damaged flit, and what is sent again -/

theorem leNat_leBytes (n x : Nat) : leNat (leBytes n x) = x % 256 ^ n := by
  induction n generalizing x with
  | zero => simp [leBytes, leNat, Nat.mod_one]
  | succ n ih =>
    have h : x % 256 ^ (n + 1) = x % 256 + 256 * (x / 256 % 256 ^ n) := by rw [Nat.pow_succ', Nat.mod_mul]
    rw [h, ← ih]
    rfl

theorem leBytes_length (n x : Nat) : (leBytes n x).length = n := by
  induction n generalizing x with
  | zero => rfl
  | succ n ih => simp [leBytes, ih]

theorem bget_leBytes_append (n x : Nat) (b : List Byte) : bget (leBytes n x ++ b) 0 n = x % 256 ^ n := by
  rw [← leNat_leBytes]
  simp [bget, leBytes_length]

/-- The control word of a flit (R16). -/
def controlWord (l : Link) (seq vck : Nat) : Nat :=
  vck % 16 + 2 ^ 4 * (seq % 1024) + 2 ^ 14 * ((l.rxExp + 1023) % 1024) + 2 ^ 24 * (l.cvc % 4) +
    2 ^ 26 * (sget 0 l.freed (l.cvc % 4) / 8 % 64)

theorem bget_buildFlit_control (l : Link) (seq vck : Nat) (payload : List Byte) :
    bget (buildFlit l seq vck payload) 0 4 = controlWord l seq vck := by
  have h : controlWord l seq vck < 256 ^ 4 := by
    unfold controlWord
    omega
  rw [← Nat.mod_eq_of_lt h, ← bget_leBytes_append 4, buildFlit, List.append_assoc]
  rfl

theorem controlWord_kind (l : Link) (seq vck : Nat) : fieldN (controlWord l seq vck) 3 2 = vck / 4 % 4 := by
  simp only [fieldN, controlWord]
  omega

theorem controlWord_seq (l : Link) (seq vck : Nat) : fieldN (controlWord l seq vck) 13 4 = seq % 1024 := by
  simp only [fieldN, controlWord]
  omega

/-- A RETRY names the expected number (R21). -/
theorem bget_retry_payload (l : Link) (seq vck n : Nat) : bget (buildFlit l seq vck ([1, 0] ++ leBytes 2 n)) 6 2 = n % 2 ^ 16 := by
  simp [buildFlit, bslice, bget, leBytes, leNat]
  omega

/-- The bytes of a flit depend on a link's expected number, its freed slots and its turn among the channels alone. -/
theorem buildFlit_congr {l l' : Link} (hx : l.rxExp = l'.rxExp) (hf : l.freed = l'.freed) (hc : l.cvc % 4 = l'.cvc % 4)
    (seq vck : Nat) (payload : List Byte) : buildFlit l seq vck payload = buildFlit l' seq vck payload := by
  simp only [buildFlit, hx, hf, hc]

/-- Flits put one after another, CVC rotating (R19). -/
theorem foldl_flitPut_out (xs : List (Nat × Nat × List Byte)) : ∀ l : Link,
    (xs.foldl (fun l x => flitPut l x.1 x.2.1 x.2.2) l).out =
      l.out ++ xs.zipIdx.map fun y => buildFlit { l with cvc := l.cvc + y.2 } y.1.1 y.1.2.1 y.1.2.2 := by
  induction xs with
  | nil => simp
  | cons x xs ih =>
    intro l
    have hb (y : (Nat × Nat × List Byte) × Nat) : buildFlit { flitPut l x.1 x.2.1 x.2.2 with cvc := (flitPut l x.1 x.2.1 x.2.2).cvc + y.2 } y.1.1 y.1.2.1 y.1.2.2 =
        buildFlit { l with cvc := l.cvc + (y.2 + 1) } y.1.1 y.1.2.1 y.1.2.2 := by
      apply buildFlit_congr
      · rfl
      · rfl
      · show ((l.cvc + 1) % 4 + y.2) % 4 = (l.cvc + (y.2 + 1)) % 4
        omega
    rw [List.foldl_cons, ih, List.zipIdx_cons', List.map_cons, List.map_map]
    simp only [hb]
    simp [flitPut, Function.comp_def]

theorem foldl_flitPut_eq (xs : List (Nat × Nat × List Byte)) : ∀ l : Link, xs.foldl (fun l x => flitPut l x.1 x.2.1 x.2.2) l =
    { l with cvc := (xs.foldl (fun l x => flitPut l x.1 x.2.1 x.2.2) l).cvc, out := (xs.foldl (fun l x => flitPut l x.1 x.2.1 x.2.2) l).out } := by
  induction xs with
  | nil => exact fun _ => rfl
  | cons x xs ih => exact fun l => ih (flitPut l x.1 x.2.1 x.2.2)

/-- A link end that has counted a request for a number. -/
def requested (l : Link) (seq n : Nat) : Link := { l with lastReq := some seq, reqCount := n }

/-- A link end after a RETRY below the limit: the buffered flits from the number on leave again, when there is one. -/
def resent (l : Link) (seq n : Nat) : Link :=
  match findIdx? (fun x => x.1 = seq) l.replay with
  | none => requested l seq n
  | some i => (l.replay.drop i).foldl (fun l x => flitPut l x.1 x.2.1 x.2.2) (requested l seq n)

theorem replayLimit_setLink (s : State) (e e' : LinkEnd) (l : Link) : replayLimit (setLink s e' l) e = replayLimit s e := by cases e <;> rfl

theorem flitRetry_of_lt {s : State} {e : LinkEnd} {seq n : Nat} (hl : linkLive s e = true)
    (hn : n = if (linkOf s e).lastReq = some seq then (linkOf s e).reqCount + 1 else 1) (hlt : n < replayLimit s e) :
    flitRetry s e seq = ligCount (setLink s e (resent (linkOf s e) seq n)) e 0x20 := by
  subst hn
  unfold flitRetry resent
  simp only [hl, Bool.not_true, Bool.false_eq_true, if_false, replayLimit_setLink]
  rw [if_neg (by simpa using hlt)]
  cases hf : findIdx? (fun x => decide (x.1 = seq)) (linkOf s e).replay with
  | none => rfl
  | some i => exact congrArg (fun t => ligCount t e 0x20) (setLink_setLink s e _ _)

end Sys2Proof.Machine
end

section
/-! SUPPORT. What accesses of units to memory, packets that leave and the end of the domain leave alone (R329, R340, R341, R351). -/

namespace Sys2Proof.Machine
open Sys2Proof

/-- A fold stays in a relation that its every step keeps. -/
theorem foldl_rel {σ α : Type} {R : σ → σ → Prop} (refl : ∀ s, R s s) (trans : ∀ {s t u}, R s t → R t u → R s u) {f : σ → α → σ}
    (h : ∀ s a, R s (f s a)) : ∀ (l : List α) (s : σ), R s (l.foldl f s)
  | [], s => refl s
  | a :: l, s => trans (h s a) (foldl_rel refl trans h l (f s a))

/-! ### Calm registers -/

/-- Frames whose registers units write as they work. -/
def Frame.works : Frame → Bool
  | .id | .col | .lig _ => false
  | _ => true

theorem bounds_of_calmReg {a : Nat} (h : calmReg a = true) :
    0xF00000000000 ≤ a ∧ a < 0xF00000020000 ∨ a = 0xF00001040000 ∨ a = 0xF00001140000 := by
  simp only [calmReg, survives, Bool.or_eq_true, Bool.and_eq_true, decide_eq_true_eq] at h
  simp only [Frame.base, vellumBase] at h
  omega

theorem calmReg_of_works {f : Frame} (hf : f.works = true) {off : Nat} (ho : off < 65536) : calmReg (f.base + off) = false := by
  refine Bool.eq_false_iff.2 fun hc => ?_
  have := bounds_of_calmReg hc
  cases f <;> simp [Frame.works] at hf <;> simp only [Frame.base, vellumBase] at this <;> omega

theorem calm_setReg {s : State} {a : Nat} (h : calmReg a = false) (v : Word) (b : Nat) (hb : calmReg b = true) :
    regWord (setReg s a v) b = regWord s b :=
  regWord_setReg_ne s v fun e => by simp [← e, hb] at h

theorem calm_setReg64 {s : State} {a : Nat} (h : calmReg a = false) (h' : calmReg (a + 4) = false) (v b : Nat) (hb : calmReg b = true) :
    regWord (setReg64 s a v) b = regWord s b :=
  (calm_setReg h' _ b hb).trans (calm_setReg h _ b hb)

/-! ### Accesses to memory -/

/-- A state with what accesses to memory change taken from another. -/
def State.accessed (s t : State) : State :=
  { s with free := t.free, regs := t.regs, mem := t.mem, ecc := t.ecc, res := t.res, resEcc := t.resEcc, stale := t.stale
           xlt := t.xlt, xltNodes := t.xltNodes, coh := t.coh, gauges := t.gauges, cores := t.cores }

/-- What accesses of units to memory do at most: of registers only counters and error logs of working frames change, and of a
core only its reservation. -/
structure Accesses (s t : State) : Prop where
  rest : t = s.accessed t
  calm : ∀ a, calmReg a = true → regWord t a = regWord s a
  cores : ∀ k, coreOf t k = { coreOf s k with lr := (coreOf t k).lr }

theorem Accesses.of_rest {s t : State} (h : t = s.accessed t) (hr : t.regs = s.regs) (hc : t.cores = s.cores) : Accesses s t :=
  ⟨h, fun a _ => by rw [regWord, hr]; rfl, fun k => by rw [coreOf, hc]; rfl⟩

theorem Accesses.refl (s : State) : Accesses s s := .of_rest rfl rfl rfl

theorem Accesses.trans {s t u : State} (h : Accesses s t) (k : Accesses t u) : Accesses s u where
  rest := by
    have hu : t.accessed u = (s.accessed t).accessed u := congrArg (fun x : State => x.accessed u) h.rest
    exact k.rest.trans hu
  calm a ha := (k.calm a ha).trans (h.calm a ha)
  cores n := (k.cores n).trans (by rw [h.cores n])

theorem Accesses.ite {s t u : State} {c : Prop} [Decidable c] (h : Accesses s t) (k : Accesses s u) : Accesses s (if c then t else u) := by
  split <;> assumption

theorem accesses_foldl {α : Type} {f : State → α → State} (h : ∀ s a, Accesses s (f s a)) (l : List α) (s : State) : Accesses s (l.foldl f s) :=
  foldl_rel .refl .trans h l s

theorem accesses_foldl_fst {α β : Type} {f : State × β → α → State × β} (h : ∀ r a, Accesses r.1 (f r a).1) (l : List α) (r : State × β) :
    Accesses r.1 (l.foldl f r).1 :=
  foldl_rel (R := fun r r' => Accesses r.1 r'.1) (fun _ => .refl _) .trans h l r

section
variable (s : State)

theorem accesses_setReg {f : Frame} (hf : f.works = true) {off : Nat} (ho : off < 65536) (v : Word) : Accesses s (setReg s (f.base + off) v) :=
  ⟨rfl, fun a => calm_setReg (calmReg_of_works hf ho) v a, fun _ => rfl⟩

theorem accesses_setReg64 {f : Frame} (hf : f.works = true) {off : Nat} (ho : off < 65532) (v : Nat) :
    Accesses s (setReg64 s (f.base + off) v) :=
  (accesses_setReg s hf (by omega) _).trans (accesses_setReg (off := off + 4) _ hf (by omega) _)

theorem accesses_count {f : Frame} (hf : f.works = true) {off : Nat} (ho : off < 65532) (n : Nat) : Accesses s (count s f off n) :=
  .ite (.refl s) (accesses_setReg64 s hf ho _)

theorem accesses_setPoison (l : Nat) (p : Bool) : Accesses s (setPoison s l p) := .of_rest rfl rfl rfl
theorem accesses_setEcc (l n : Nat) : Accesses s (setEcc s l n) := .of_rest rfl rfl rfl
theorem accesses_freshBit : Accesses s (freshBit s).1 := .of_rest rfl rfl rfl

theorem accesses_logUe (l src : Nat) : Accesses s (logUe s l src) :=
  (accesses_setReg64 s (f := memFrameOf l) rfl (by decide) _).trans (accesses_setReg _ (f := memFrameOf l) rfl (by decide) _)

/-- A codeword that is not corrected poisons its line, counts and is logged. -/
theorem accesses_poisonLine (line src : Nat) :
    Accesses s (logUe (count (setPoison s line true) (memFrameOf line) 0x48 1) line src) :=
  ((accesses_setPoison s line true).trans (accesses_count _ rfl (by decide) _)).trans (accesses_logUe _ _ _)

theorem accesses_decodeWord (w n src : Nat) : Accesses s (decodeWord s w n src) := by
  have fix (u : State) : Accesses u (count u (memFrameOf (w / 8)) 0x40 1) := accesses_count u rfl (by decide) 1
  unfold decodeWord
  dsimp only
  split
  · exact .refl s
  · split
    · exact fix s
    · split
      · exact accesses_poisonLine s _ _
      · split
        · exact (accesses_freshBit s).trans (accesses_poisonLine _ _ _)
        · exact ((accesses_freshBit s).trans (fix _)).trans (.of_rest rfl rfl rfl)

theorem accesses_decodeWords (l : List (Nat × Nat)) (src : Nat) : Accesses s (decodeWords s l src) :=
  accesses_foldl (fun s _ => accesses_decodeWord s _ _ _) l s

theorem accesses_injectOn (l : Nat) : Accesses s (injectOn s l) :=
  .ite ((accesses_setReg s (f := memFrameOf l) rfl (by decide) _).trans (accesses_setEcc _ _ _)) (.refl s)

theorem accesses_hbmWrite (l : Nat) : Accesses s (hbmWrite s l) :=
  .trans (t := { s with ecc := s.ecc.filter fun p => p.1 / 8 ≠ l }) (.of_rest rfl rfl rfl) (accesses_injectOn _ l)

theorem accesses_hbmRead (l src : Nat) : Accesses s (hbmRead s l src) :=
  .ite (.refl s) ((accesses_decodeWords s _ src).trans (accesses_hbmWrite _ l))

/-- The errors of a line in its Reservoir are forgotten. -/
theorem accesses_resEcc (l : Nat) : Accesses s { s with resEcc := s.resEcc.filter fun p => p.1 / 8 ≠ l } := .of_rest rfl rfl rfl

theorem accesses_resRead (l : Nat) : Accesses s (resRead s l) :=
  .ite (.refl s) (((accesses_resEcc s l).trans (accesses_decodeWords _ (lineResEcc s l) 2)).trans (.ite (.of_rest rfl rfl rfl) (.refl _)))

theorem accesses_resEvict (l : Nat) : Accesses s (resEvict s l) := by
  have drop (u : State) : Accesses u { u with res := sdel u.res l, resEcc := u.resEcc.filter fun p => p.1 / 8 ≠ l } := .of_rest rfl rfl rfl
  exact ((Accesses.ite (accesses_resRead s l) (.refl s)).trans (drop _)).trans (.ite (accesses_hbmWrite _ l) (.refl _))

theorem accesses_resHold (l : Nat) (d : Bool) : Accesses s (resHold s l d) := by
  have hold (u : State) (b : Bool) : Accesses u { u with res := sset u.res l b } := .of_rest rfl rfl rfl
  have free : Accesses s { s with free := s.free + 1 } := .of_rest rfl rfl rfl
  exact .ite (.refl s) ((Accesses.ite (.refl s) (free.trans (accesses_resEvict _ _))).trans (hold _ _))

theorem accesses_resFetch (l : Nat) : Accesses s (resFetch s l) := .ite (accesses_resRead s l) (accesses_hbmRead s l 0)

theorem accesses_rdLine (l : Nat) : Accesses s (rdLine s l).1 := by
  unfold rdLine
  split
  · exact (Accesses.ite (accesses_count s (f := .memB) rfl (by decide) 1)
      (accesses_count s (f := memFrameOf l) rfl (by decide) 1)).trans (accesses_resHold _ _ _)
  · exact (accesses_resFetch s l).trans (accesses_resHold _ _ _)

theorem accesses_wrRuns (line : Nat) (whole : Bool) (l : List (Nat × List Byte)) (p : Bool) : Accesses s (wrRuns s line whole l p) := by
  have put (u : State) : Accesses u { u with mem := { u.mem with cells := l.foldl (fun c r => mputs c r.1 r.2) u.mem.cells } } :=
    .of_rest rfl rfl rfl
  have mark (u : State) : Accesses u (if p then setPoison u line true else if whole then setPoison u line false else u) :=
    .ite (accesses_setPoison u line true) (.ite (accesses_setPoison u line false) (.refl u))
  exact (((Accesses.ite (accesses_resEcc s line) (accesses_resFetch s line)).trans (put _)).trans (mark _)).trans (accesses_resHold _ _ _)

theorem accesses_wrLine (a : Nat) (b : List Byte) (p : Bool) : Accesses s (wrLine s a b p) := accesses_wrRuns s _ _ _ _

/-! ### Coherent accesses -/

theorem accesses_snoopCur (l : Nat) : Accesses s (snoopCur s l) := by
  refine accesses_foldl (fun s p => ?_) _ s
  exact .ite ((accesses_wrLine s _ _ _).trans (.ite (.refl _) (.of_rest rfl rfl rfl))) (.ite (accesses_wrLine s _ _ _) (.refl s))

/-- A core whose reservation a write of a line breaks. -/
def unreserve (line : Nat) (c : Core) : Core := if c.lr = some line then { c with lr := none } else c

theorem unreserve_eq (line : Nat) (c : Core) : unreserve line c = { c with lr := (unreserve line c).lr } := by
  unfold unreserve
  split <;> rfl

theorem coreOf_snoopInvAll (l o : Nat) (b : List Byte) (p : Bool) (k : Nat) : coreOf (snoopInvAll s l o b p) k = unreserve l (coreOf s k) := by
  have h : (snoopInvAll s l o b p).cores = s.cores.map fun p => (p.1, unreserve l p.2) := by
    refine List.map_congr_left fun p _ => ?_
    unfold unreserve
    split <;> rfl
  rw [coreOf, h, sget_map (g := unreserve l) (d := coreReset) (by rfl)]
  rfl

theorem accesses_snoopInvAll (l o : Nat) (b : List Byte) (p : Bool) : Accesses s (snoopInvAll s l o b p) where
  rest := rfl
  calm _ _ := rfl
  cores k := by rw [coreOf_snoopInvAll, unreserve_eq]

theorem cohFrameOf_works (l : Nat) : (cohFrameOf l).works = true := by
  unfold cohFrameOf
  split <;> rfl

theorem accesses_homeCount (l : Nat) (o : Bool) : Accesses s (homeCount s l o) :=
  (accesses_count s (cohFrameOf_works l) (by decide) _).trans (accesses_count _ (cohFrameOf_works l) (by decide) _)

theorem accesses_setStale (l : Nat) (x : List (Nat × List Byte × Bool)) : Accesses s (setStale s l x) := .of_rest rfl rfl rfl

theorem accesses_seenFrom (l : Nat) (now : List Byte × Bool) :
    ∀ (x : List (Nat × List Byte × Bool)) (s : State), Accesses s (seenFrom l now x s).1
  | [], s => accesses_setStale s l []
  | e :: t, s => by
    unfold seenFrom
    dsimp only
    split
    · exact (accesses_freshBit s).trans (accesses_setStale _ _ _)
    · exact (accesses_freshBit s).trans (accesses_seenFrom l now t _)

theorem accesses_seen (l : Nat) (now : List Byte × Bool) : Accesses s (seen s l now).1 := by
  unfold seen
  split
  · exact accesses_seenFrom l now _ s
  · exact .refl s

theorem accesses_unitRead (l : Nat) : Accesses s (unitRead s l).1 :=
  (((accesses_homeCount s l true).trans (accesses_snoopCur _ l)).trans (accesses_rdLine _ l)).trans (accesses_seen _ l _)

theorem accesses_homeWrite (a : Nat) (b : List Byte) (p : Bool) : Accesses s (homeWrite s a b p) := by
  have seen (u : State) : Accesses u { u with stale := sdel u.stale (a / 128) } := .of_rest rfl rfl rfl
  exact (((Accesses.ite (.refl s) (accesses_snoopCur s _)).trans (accesses_snoopInvAll _ _ _ _ _)).trans (accesses_wrLine _ _ _ _)).trans (seen _)

theorem accesses_unitWrite (a : Nat) (b : List Byte) (p : Bool) : Accesses s (unitWrite s a b p) :=
  (accesses_homeCount s _ false).trans (accesses_homeWrite _ _ _ _)

theorem accesses_pread (a n : Nat) : Accesses s (pread s a n).1 := by
  refine accesses_foldl_fst (fun r c => ?_) _ (s, some [])
  obtain ⟨s, _ | acc⟩ := r
  · exact .refl s
  · dsimp only
    split
    · exact accesses_unitRead s _
    · exact .refl s

/-! ### Translation -/

theorem accesses_xltFault (h : Half) (sp : Space) (va c : Nat) : Accesses s (xltFault s h sp va c) := by
  have bits (u : State) (m : Word) : Accesses u (regSetBits u (Frame.xlt h).base m) := accesses_setReg u (f := .xlt h) (off := 0) rfl (by decide) _
  refine (accesses_count s (f := .xlt h) rfl (by decide) 1).trans (.ite (bits _ 2) ?_)
  exact ((bits _ 1).trans (accesses_setReg64 _ (f := .xlt h) rfl (by decide) _)).trans (accesses_setReg _ (f := .xlt h) rfl (by decide) _)

theorem accesses_walkFrom (h : Half) (asid : BitVec 16) (vpn : Nat) (w : Bool) :
    ∀ (lv : Nat) (s : State) (table : Nat) (nodes : List TlbNode), Accesses s (walkFrom h asid vpn w lv s table nodes).1 := by
  intro lv
  induction lv with
  | zero =>
    intro s table nodes
    have hr := accesses_pread s (table + 8 * (vpn / 2 ^ (9 * 0) % 512)) 8
    unfold walkFrom
    dsimp only
    split
    all_goals
      rename_i heq
      rw [heq] at hr
      (repeat' split) <;> exact hr
  | succ k ih =>
    intro s table nodes
    have hr := accesses_pread s (table + 8 * (vpn / 2 ^ (9 * (k + 1)) % 512)) 8
    unfold walkFrom
    dsimp only
    split
    all_goals
      rename_i heq
      rw [heq] at hr
    · exact hr
    · repeat' split
      any_goals exact hr
      exact hr.trans (ih _ _ _)

theorem accesses_xlate (h : Half) (sp : Space) (va : Nat) (w : Bool) : Accesses s (xlate s h sp va w).1 := by
  unfold xlate
  dsimp only
  split
  · exact accesses_xltFault s _ _ _ _
  · split
    · split
      · exact accesses_xltFault s _ _ _ _
      · exact .refl s
    · refine (accesses_count s (f := .xlt h) (off := 0x40) rfl (by decide) 1).trans ?_
      generalize count s (.xlt h) 0x40 1 = u
      split
      all_goals
        rename_i heq
        have hu := Eq.mp (congrArg (fun p : State × Walk => Accesses u p.1) heq) (accesses_walkFrom _ _ _ _ _ _ _ _)
      · exact hu.trans (accesses_xltFault _ _ _ _ _)
      · exact hu.trans (.of_rest rfl rfl rfl)

theorem accesses_vread (h : Half) (sp : Space) (va n : Nat) : Accesses s (vread s h sp va n).1 := by
  refine accesses_foldl_fst (fun r c => ?_) _ (s, Except.ok [])
  obtain ⟨s, _ | acc⟩ := r
  · exact .refl s
  · dsimp only
    have hx := accesses_xlate s h sp c.1 false
    split
    all_goals
      rename_i heq
      rw [heq] at hx
    · exact hx
    · split
      · exact hx.trans (accesses_unitRead _ _)
      · exact hx

theorem accesses_vwrite (h : Half) (sp : Space) (va : Nat) (b : List Byte) (p : Nat → Bool) : Accesses s (vwrite s h sp va b p).1 := by
  refine accesses_foldl_fst (fun r c => ?_) _ (s, (⟨none, 0⟩ : Wrote))
  dsimp only
  have hx := accesses_xlate r.1 h sp c.1 true
  split
  · exact .refl _
  · split
    all_goals
      rename_i heq
      rw [heq] at hx
    · exact hx
    · split
      · exact (hx.trans (accesses_unitWrite _ _ _ _)).trans (accesses_setStale _ _ _)
      · exact hx

/-! ### A stream that is cut off (R262) -/

theorem accesses_gaugeAdd (k : Nat) (l : List Conv) : Accesses s (gaugeAdd s k l) := .ite (.refl s) (.of_rest rfl rfl rfl)

theorem accesses_readBlock (h : Half) (sp : Space) (d : Region) (addr fmt b : Nat) : Accesses s (readBlock s h sp d addr fmt b).1 := by
  refine accesses_foldl_fst (fun r l => ?_) _ (s, [], false)
  obtain ⟨s, acc, bad⟩ := r
  dsimp only
  split
  · have hx := accesses_vread s h sp (addr + (64 * b + 128 / (fmtBits fmt / 8) * l) * (fmtBits fmt / 8)) 128
    split
    all_goals
      rename_i heq
      rw [heq] at hx
      exact hx
  · exact .refl s

theorem accesses_writeLineElems (h : Half) (sp : Space) (addr eb : Nat) (l : List WElem) : Accesses s (writeLineElems s h sp addr eb l).1 := by
  refine accesses_foldl_fst (fun r run => ?_) _ (s, false)
  split
  · exact .refl _
  · split
    · exact .refl _
    · exact accesses_vwrite _ _ _ _ _ _

theorem accesses_writeBlock (h : Half) (sp : Space) (addr fmt b : Nat) (l : List WElem) (a : StreamAcc) :
    Accesses s (writeBlock s h sp addr fmt b l a).1 := by
  refine accesses_foldl_fst (fun r k => ?_) _ (s, a)
  have line (u : State) (x : Bool) (es : List WElem) (acc : Bool → StreamAcc) (hu : Accesses r.1 u) : Accesses r.1
      (if !x then (u, r.2)
        else ((writeLineElems u h sp addr (fmtBits fmt / 8) es).1, acc (writeLineElems u h sp addr (fmtBits fmt / 8) es).2)).1 := by
    split
    · exact hu
    · exact hu.trans (accesses_writeLineElems _ _ _ _ _ _)
  dsimp only
  split
  · exact line _ _ _ (fun _ => _) (accesses_freshBit _)
  · exact line _ _ _ (fun _ => _) (.refl _)

theorem accesses_outElems (d : Region) (fmt stream t : Nat) (pick : Elem → Nat) (pois : Stepped → Bool) (es : List Stepped) :
    Accesses s (outElems d fmt stream t pick pois s es).1 := by
  refine accesses_foldl_fst (fun r e => ?_) _ (s, [])
  split
  · exact .of_rest rfl rfl rfl
  · exact .refl _

theorem accesses_streamBlock (d : Region) (u : Upd) (k : Scalars) (a : StreamAcc) (b : Nat) : Accesses s (streamBlock d u k s a b).1 := by
  have rd (s : State) (addr fmt : Nat) := accesses_readBlock s (queueHalf u.space.queue.toNat) u.space d addr fmt b
  have wr (s : State) (addr fmt : Nat) (l : List WElem) (a : StreamAcc) :=
    accesses_writeBlock s (queueHalf u.space.queue.toNat) u.space addr fmt b l a
  unfold streamBlock
  dsimp only
  have inputs := ((rd s d.recto 1).trans (rd _ d.g.toNat d.gFmt)).trans (rd _ d.m.toNat d.sFmt)
  have put {v : State} {fmt stream t addr f : Nat} {pick : Elem → Nat} {pois : Stepped → Bool} {es : List Stepped} {acc : StreamAcc}
      (h : Accesses s v) : Accesses s (writeBlock (outElems d fmt stream t pick pois v es).1 (queueHalf u.space.queue.toNat) u.space addr f b
        (outElems d fmt stream t pick pois v es).2 acc).1 :=
    (h.trans (accesses_outElems v _ _ _ _ _ _ _)).trans (wr _ _ _ _ _)
  split
  · exact put (put (put (inputs.trans (rd _ _ _))))
  · exact put (put inputs)

theorem accesses_streamGo (d : Region) (u : Upd) (k : Scalars) :
    ∀ (n b : Nat) (s : State) (a : StreamAcc), Accesses s (streamGo d u k n b s a).1
  | 0, _, s, _ => .refl s
  | n + 1, b, s, a => (accesses_streamBlock s d u k a b).trans (accesses_streamGo d u k n (b + 1) _ _)

theorem accesses_streamCut (u : Upd) : Accesses s (streamCut s u) := by
  unfold streamCut
  split
  · exact .refl s
  · refine .ite (.refl s) ?_
    exact ((accesses_streamGo _ u _ _ 0 s _).trans (accesses_gaugeAdd _ _ _)).trans
      (.ite (.refl _) (accesses_count _ (f := .blt) rfl (by decide) 1))

theorem accesses_bltCut : Accesses s (bltCut s) := accesses_foldl (f := fun s (p : Nat × Upd) => streamCut s p.2) (fun s p => accesses_streamCut s p.2) s.upds s

/-- Where nothing streams, the end of the domain cuts nothing off. -/
theorem bltCut_of_noStream (h : s.noStream) : bltCut s = s := by
  have cut (l : List (Nat × Upd)) (hl : ∀ p ∈ l, p.2.stage ≠ 8) : l.foldl (fun s p => streamCut s p.2) s = s := by
    induction l with
    | nil => rfl
    | cons p t ih =>
      have hp : streamCut s p.2 = s := by
        unfold streamCut
        split
        · rfl
        · rw [if_pos (hl p List.mem_cons_self)]
      rw [List.foldl_cons, hp]
      exact ih fun q hq => hl q (List.mem_cons_of_mem _ hq)
  exact cut s.upds h

end

end Sys2Proof.Machine
end

section
/-! SUPPORT. What packets that leave and the end of the coherent domain do (R340, R341, R351, R359). -/

namespace Sys2Proof.Machine
open Sys2Proof

/-! ### Packets that leave -/

/-- A state with what packets that leave change taken from another. -/
def State.emitted (s t : State) : State :=
  { s with regs := t.regs, act := t.act, links := t.links, ports := t.ports, routes := t.routes, routesSh := t.routesSh, sent := t.sent }

/-- What packets that leave do at most: of registers only those of working frames change, and no flit leaves by a link that
has failed. -/
structure Emits (s t : State) : Prop where
  rest : t = s.emitted t
  calm : ∀ a, calmReg a = true → regWord t a = regWord s a
  dead : ∀ e, (linkOf s e).failed = true → linkOf t e = linkOf s e

theorem Emits.of_rest {s t : State} (h : t = s.emitted t) (hr : t.regs = s.regs) (hl : t.links = s.links) : Emits s t :=
  ⟨h, fun a _ => by rw [regWord, hr]; rfl, fun e _ => linkOf_congr hl e⟩

theorem Emits.refl (s : State) : Emits s s := .of_rest rfl rfl rfl

theorem Emits.trans {s t u : State} (h : Emits s t) (k : Emits t u) : Emits s u where
  rest := by
    have hu : t.emitted u = (s.emitted t).emitted u := congrArg (fun x : State => x.emitted u) h.rest
    exact k.rest.trans hu
  calm a ha := (k.calm a ha).trans (h.calm a ha)
  dead e he := (k.dead e (by rw [h.dead e he, he])).trans (h.dead e he)

theorem Emits.ite {s t u : State} {c : Prop} [Decidable c] (h : Emits s t) (k : Emits s u) : Emits s (if c then t else u) := by
  split <;> assumption

theorem emits_foldl {α : Type} {f : State → α → State} (h : ∀ s a, Emits s (f s a)) (l : List α) (s : State) : Emits s (l.foldl f s) :=
  foldl_rel .refl .trans h l s

section
variable (s : State)

/-- A counter outside the calm registers. -/
theorem emits_setReg64 {a : Nat} (h : calmReg a = false) (h' : calmReg (a + 4) = false) (v : Nat) : Emits s (setReg64 s a v) :=
  ⟨rfl, calm_setReg64 h h' v, fun _ _ => rfl⟩

theorem emits_count {f : Frame} (hf : f.works = true) {off : Nat} (ho : off < 65532) (n : Nat) : Emits s (count s f off n) :=
  .ite (.refl s) (emits_setReg64 s (calmReg_of_works hf (by omega)) (calmReg_of_works (off := off + 4) hf (by omega)) _)

theorem portBase_add (p off : Nat) : ∃ f : Frame, f.works = true ∧ portBase p + off = f.base + (portBase p - f.base + off) ∧ (p < 34 → portBase p - f.base < 0x1000) := by
  unfold portBase
  split
  · exact ⟨.lfp 0, rfl, by omega, by omega⟩
  · split
    · exact ⟨.lfp 1, rfl, by omega, by omega⟩
    · exact ⟨.lfpB, rfl, by omega, by omega⟩

theorem emits_portCount {p : Nat} (hp : p < 34) {off : Nat} (ho : off < 0x1000) (n : Nat) : Emits s (portCount s p off n) := by
  obtain ⟨f, hf, hb, hlt⟩ := portBase_add p off
  have := hlt hp
  unfold portCount
  rw [hb]
  exact emits_setReg64 s (calmReg_of_works hf (by omega)) (calmReg_of_works (off := portBase p - f.base + off + 4) hf (by omega)) _

theorem emits_setPort (p : Nat) (v : Port) : Emits s (setPort s p v) := .of_rest rfl rfl rfl

theorem emits_blockOut (p src vlf : Nat) (payload : List Byte) : Emits s (blockOut s p src vlf payload) := by
  have put (u : State) (l : Link) (seq : Nat) : Emits u (blockPut u p l seq vlf payload) := .of_rest rfl rfl rfl
  exact (Emits.ite (emits_setPort s _ _) (.refl s)).trans (put _ _ _)

theorem emits_linkPump (p : Nat) : ∀ (n : Nat) (s : State), Emits s (linkPump n s p)
  | 0, s => .refl s
  | n + 1, s => by
    unfold linkPump
    dsimp only
    split
    · exact .refl s
    · split
      · exact .refl s
      · exact ((emits_setPort s _ _).trans (emits_blockOut _ _ _ _ _)).trans (emits_linkPump p n _)

theorem emits_blockSend {p : Nat} (hp : p < 34) (src vlf : Nat) (payload : List Byte) : Emits s (blockSend s p src vlf payload) :=
  ((Emits.ite (.refl s) (emits_portCount s hp (by decide) 1)).trans (emits_setPort _ _ _)).trans (emits_linkPump p _ _)

/-- Flits of an end that passes flits leave every failed one alone. -/
theorem Pumps.emits {s t : State} {e : LinkEnd} (h : Pumps e s t) (he : (linkOf s e).failed = false) : Emits s t where
  rest := by rw [h.rest]; rfl
  calm := h.calm
  dead e' he' := h.others e' fun k => by rw [k, he] at he'; cases he'

theorem linkLive_failed {s : State} {e : LinkEnd} (h : linkLive s e = true) : (linkOf s e).failed = false := by
  unfold linkLive at h
  simp only [Bool.and_eq_true, Bool.not_eq_true'] at h
  exact h.1.2

theorem emits_linkSend (a b vc : Nat) (u : FlitUse) (src dst addr : Nat) (data : List Byte) : Emits s (linkSend s a b vc u src dst addr data) := by
  unfold linkSend linkSendAs
  split
  · exact .refl s
  · rename_i e _
    split
    · rename_i hl
      have waits (q : List (Nat × Nat × List Byte)) : Pumps e s (setLink s e { linkOf s e with txq := q }) :=
        pumps_setLink s e { linkOf s e with txq := q }
      exact ((waits _).trans (pumps_flitPump e _ _)).emits (linkLive_failed hl)
    · exact .refl s

theorem emits_blockTo (h : Half) {p : Nat} (hp : p < 34) (src vlf : Nat) (payload : List Byte) : Emits s (blockTo s h p src vlf payload) :=
  (emits_linkSend s _ _ _ _ _ _ _ _).trans (emits_blockSend _ hp _ _ _)

theorem emits_emitPkt (h : Half) (k : UtpPkt) {p : Nat} (hp : p < 34) (src : Nat) : Emits s (emitPkt s h k p src) := by
  have sent (u : State) (m : Sent) : Emits u (send u m) := .of_rest rfl rfl rfl
  exact (sent s _).trans (emits_foldl (fun s x => emits_blockTo s h hp _ _ _) _ _)

theorem emits_utpBoundary (h : Half) : Emits s (utpBoundary s h) := .of_rest rfl rfl rfl

theorem routePort_lt {s : State} {h : Half} {k : UtpPkt} {p : Nat} (hr : routePort s h k = some p) : p < 28 := by
  unfold routePort at hr
  dsimp only at hr
  split at hr
  · cases hr
  · have hu := List.find?_some hr
    simp only [portUp, Bool.and_eq_true, decide_eq_true_eq] at hu
    exact hu.1.1

theorem emits_routePktAs (h : Half) (src : Nat) (k : UtpPkt) : Emits s (routePktAs s h src k) := by
  refine (emits_utpBoundary s h).trans ?_
  unfold routePktAs
  dsimp only
  split
  · exact emits_count _ (f := .utp h) rfl (by decide) 1
  · rename_i hr
    exact emits_emitPkt _ h k (Nat.lt_trans (routePort_lt hr) (by decide)) src

theorem emits_sendDowns : Emits s (sendDowns s) :=
  emits_foldl (f := fun s (p : Nat × Ctx) => if p.2.st = .opened || p.2.st = .opening then
    routePktAs s (ctxHalf s (p.1 % 16)) 255 (mkPkt s (BitVec.ofNat 16 (p.1 / 16)) (p.1 % 16) 6 false 0 none []) else s)
    (fun s _ => .ite (emits_routePktAs s _ _ _) (.refl s)) s.ctxs s

/-! ### The event log and an update that is cut short -/

theorem flashCopy_eq : ∀ (n lim : Nat) (s : State), flashCopy n lim s =
    { s with col := { s.col with logFlashed := (flashCopy n lim s).col.logFlashed }
             flash := { s.flash with log := (flashCopy n lim s).flash.log, logHead := (flashCopy n lim s).flash.logHead } }
  | 0, _, _ => rfl
  | n + 1, lim, s => by
    unfold flashCopy
    dsimp only
    split
    · rfl
    · split
      · exact flashCopy_eq n lim _
      · exact flashCopy_eq n lim _

/-- The log of events changes the log and its copy in flash alone. -/
theorem logPut_eq (code sev : Nat) (payload : List Byte) : logPut s code sev payload =
    { s with
      col := { s.col with
        log := (logPut s code sev payload).col.log, logNext := (logPut s code sev payload).col.logNext
        logFlashed := (logPut s code sev payload).col.logFlashed }
      flash := { s.flash with log := (logPut s code sev payload).flash.log, logHead := (logPut s code sev payload).flash.logHead } } := by
  unfold logPut
  dsimp only
  split
  · rw [flashCopy_eq]
  · rfl

theorem updCut_eq : updCut s = { s with free := (updCut s).free, col := (updCut s).col, flash := (updCut s).flash } := by
  unfold updCut
  dsimp only
  split
  · split <;> rfl
  · rfl

/-! ### The end of the domain -/

/-- A state after the work that the end of the domain brings, before the units halt. -/
def quiesced (s : State) (payload : List Byte) : State := logPut (updCut (fabricStop (sendDowns (bltCut s)))) 0x0030 4 payload

theorem domainDown_eq {s : State} (h : alive s = true) (cause home agent addr : Nat) : domainDown s cause home agent addr =
    (let t := quiesced s (logFields [(4, cause), (4, agent), (8, addr)])
     { t with
      coh := { t.coh with
        running := false, down := true, cause := BitVec.ofNat 4 cause, downHome := home + 1
        downAgent := BitVec.ofNat 10 agent, downAddr := BitVec.ofNat 48 addr, downTick := t.tick.toNat }
      cores := t.cores.map fun p => (p.1, if p.2.running then { p.2 with nmi := true, mncause := 1, machine := true } else p.2)
      scb := t.scb.map fun p => (p.1, { p.2 with run := if p.2.run = .off then .off else .halted })
      srp := t.srp.map fun p => (p.1, { p.2 with run := if p.2.run = .off then .off else .halted })
      feeds := t.feeds.map fun p => (p.1, { p.2 with run := if p.2.run = .off then .off else .halted })
      blt := if t.blt = .off then .off else .halted }) := by
  unfold domainDown
  rw [h]
  rfl

/-- What stands between a state and its last before the units halt: an access's footprint, a packet's, and the log's. -/
theorem quiesced_eq (b : List Byte) : quiesced s b =
    { (s.accessed (bltCut s)).emitted (sendDowns (bltCut s)) with
      ports := (quiesced s b).ports, free := (quiesced s b).free, col := (quiesced s b).col, flash := (quiesced s b).flash } := by
  have hs : sendDowns (bltCut s) = (s.accessed (bltCut s)).emitted (sendDowns (bltCut s)) :=
    (emits_sendDowns (bltCut s)).rest.trans
      (congrArg (fun x : State => x.emitted (sendDowns (bltCut s))) (accesses_bltCut s).rest)
  have hp : fabricStop (sendDowns (bltCut s)) =
      { (s.accessed (bltCut s)).emitted (sendDowns (bltCut s)) with ports := (fabricStop (sendDowns (bltCut s))).ports } :=
    congrArg (fun x : State => { x with ports := (fabricStop (sendDowns (bltCut s))).ports }) hs
  unfold quiesced
  rw [logPut_eq, updCut_eq, hp]

@[simp] theorem quiesced_tick (b : List Byte) : (quiesced s b).tick = s.tick := by rw [quiesced_eq]; rfl
@[simp] theorem quiesced_upds (b : List Byte) : (quiesced s b).upds = s.upds := by rw [quiesced_eq]; rfl
@[simp] theorem quiesced_scb (b : List Byte) : (quiesced s b).scb = s.scb := by rw [quiesced_eq]; rfl
@[simp] theorem quiesced_srp (b : List Byte) : (quiesced s b).srp = s.srp := by rw [quiesced_eq]; rfl
@[simp] theorem quiesced_feeds (b : List Byte) : (quiesced s b).feeds = s.feeds := by rw [quiesced_eq]; rfl
@[simp] theorem quiesced_blt (b : List Byte) : (quiesced s b).blt = s.blt := by rw [quiesced_eq]; rfl
@[simp] theorem quiesced_coh (b : List Byte) : (quiesced s b).coh = (bltCut s).coh := by rw [quiesced_eq]; rfl
@[simp] theorem quiesced_mem (b : List Byte) : (quiesced s b).mem = (bltCut s).mem := by rw [quiesced_eq]; rfl
@[simp] theorem quiesced_cores (b : List Byte) : (quiesced s b).cores = (bltCut s).cores := by rw [quiesced_eq]; rfl
@[simp] theorem quiesced_regs (b : List Byte) : (quiesced s b).regs = (sendDowns (bltCut s)).regs := by rw [quiesced_eq]; rfl
@[simp] theorem quiesced_links (b : List Byte) : (quiesced s b).links = (sendDowns (bltCut s)).links := by rw [quiesced_eq]; rfl

end

/-- A core at the end of the domain (R341). -/
def haltCore (c : Core) : Core := if c.running then { c with nmi := true, mncause := 1, machine := true } else c

theorem haltCore_lr {c d : Core} (h : c = { d with lr := c.lr }) : haltCore c =
    if d.running then { d with nmi := true, mncause := 1, machine := true, lr := (haltCore c).lr } else { d with lr := (haltCore c).lr } := by
  have hr : c.running = d.running := by rw [h]
  have hl : (haltCore c).lr = c.lr := by
    unfold haltCore
    split <;> rfl
  rw [hl, ← hr]
  unfold haltCore
  split
  · rw [h]
  · exact h.trans (by rw [hr])

section
variable {s : State} (h : alive s = true) (cause home agent addr : Nat)
include h

theorem domainDown_cores (k : Nat) : coreOf (domainDown s cause home agent addr) k = haltCore (coreOf (bltCut s) k) := by
  have hm : (domainDown s cause home agent addr).cores = (bltCut s).cores.map fun p => (p.1, haltCore p.2) := by
    rw [domainDown_eq h]
    simp only [quiesced_cores]
    rfl
  rw [coreOf, hm]
  exact sget_map (g := haltCore) (d := coreReset) (by rfl) _ k

theorem domainDown_scb (g : Half) : (scbOf (domainDown s cause home agent addr) g).run = haltRun (scbOf s g).run := by
  rw [domainDown_eq h]
  simp only [scbOf, quiesced_scb]
  have hm := sget_map (d := (⟨.off, []⟩ : Scb)) (g := fun v : Scb => { v with run := haltRun v.run }) (by rfl) s.scb g.val
  have hr := congrArg Scb.run hm
  exact hr

theorem domainDown_srp (g : Half) : (srpOf (domainDown s cause home agent addr) g).run = haltRun (srpOf s g).run := by
  rw [domainDown_eq h]
  simp only [srpOf, quiesced_srp]
  have hm := sget_map (d := (⟨.off⟩ : Srp)) (g := fun v : Srp => { v with run := haltRun v.run }) (by rfl) s.srp g.val
  have hr := congrArg Srp.run hm
  exact hr

theorem domainDown_feeds (g : Half) : (feedOf (domainDown s cause home agent addr) g).run = haltRun (feedOf s g).run := by
  rw [domainDown_eq h]
  simp only [feedOf, quiesced_feeds]
  have hm := sget_map (d := feedReset) (g := fun v : Feed => { v with run := haltRun v.run }) (by rfl) s.feeds g.val
  have hr := congrArg Feed.run hm
  exact hr

/-- The domain goes down (R340, R341). -/
theorem domainDown_goesDown : GoesDown s (domainDown s cause home agent addr) cause home agent addr where
  down := by rw [domainDown_eq h]; simp only [quiesced_tick]
  coh hn := by rw [domainDown_eq h]; simp only [quiesced_tick, quiesced_coh, bltCut_of_noStream s hn]
  cores k := by rw [domainDown_cores h]; exact haltCore_lr ((accesses_bltCut s).cores k)
  lrs hn k := by
    rw [domainDown_cores h, bltCut_of_noStream s hn]
    unfold haltCore
    split <;> rfl
  upds := by rw [domainDown_eq h]; simp only [quiesced_upds]
  scribes := domainDown_scb h cause home agent addr
  scriptoria := domainDown_srp h cause home agent addr
  feeds := domainDown_feeds h cause home agent addr
  blotter := by rw [domainDown_eq h]; simp only [quiesced_blt]; rfl
  mem hn := by rw [domainDown_eq h]; simp only [quiesced_mem, bltCut_of_noStream s hn]

theorem domainDown_calm {a : Nat} (ha : calmReg a = true) : regWord (domainDown s cause home agent addr) a = regWord s a := by
  have hr : (domainDown s cause home agent addr).regs = (sendDowns (bltCut s)).regs := by rw [domainDown_eq h]; simp only [quiesced_regs]
  rw [regWord, hr]
  exact ((emits_sendDowns (bltCut s)).calm a ha).trans ((accesses_bltCut s).calm a ha)

/-- A failed link stays as it failed. -/
theorem domainDown_dead {e : LinkEnd} (he : (linkOf s e).failed = true) : linkOf (domainDown s cause home agent addr) e = linkOf s e := by
  have hl : (domainDown s cause home agent addr).links = (sendDowns (bltCut s)).links := by rw [domainDown_eq h]; simp only [quiesced_links]
  have hb : linkOf (bltCut s) e = linkOf s e := linkOf_congr (by rw [(accesses_bltCut s).rest]; rfl) e
  rw [linkOf_congr hl, (emits_sendDowns (bltCut s)).dead e (by rw [hb, he]), hb]

end

end Sys2Proof.Machine
end

section
/-! A flit link takes flits in order, resends on request and takes the domain down when it fails (R16 to R23, R340). -/

namespace Sys2Proof.Machine
open Sys2Proof

/-! ### The failure of a link (R22, R23) -/

/-- The number of the event that a link's failure logs (R423). -/
def linkNumber : LinkEnd → Nat
  | .lig _ => 0
  | .blVellum h | .blBlotter h => 1 + h.val

/-- The cause that COH_STAT records for a link's failure (R340). -/
def linkCause : LinkEnd → Nat
  | .lig _ => 4
  | _ => 5

/-- A state in which a link has failed and the failure is logged, before the domain goes down. -/
def linkFailed (s : State) (e : LinkEnd) (cause : BitVec 2) : State :=
  let t := setLink s e { linkOf s e with failed := true, cause := cause }
  logLinkFail (match e with | .lig h => regSetBits t (Frame.lig h).base 2 | _ => t) (linkNumber e) cause.toNat

theorem linkFail_eq (s : State) (e : LinkEnd) (cause : BitVec 2) :
    linkFail s e cause = domainDown (linkFailed s e cause) (linkCause e) (endHome e) (homeAgent (endHome e)) 0 := by
  cases e <;> rfl

theorem linkFailed_eq (s : State) (e : LinkEnd) (cause : BitVec 2) : linkFailed s e cause =
    { s with
      links := sset s.links (linkIdx e) { linkOf s e with failed := true, cause := cause }
      regs := (linkFailed s e cause).regs, col := (linkFailed s e cause).col, flash := (linkFailed s e cause).flash } := by
  unfold linkFailed logLinkFail
  dsimp only
  rw [logPut_eq]
  cases e <;> rfl

theorem linkOf_linkFailed (s : State) (e : LinkEnd) (cause : BitVec 2) :
    linkOf (linkFailed s e cause) e = { linkOf s e with failed := true, cause := cause } := by
  rw [linkFailed_eq]
  simp [linkOf]

/-- A Ligature end that has failed says so in LIG_STAT. -/
theorem linkFailed_stat (s : State) (h : Half) (cause : BitVec 2) :
    bitAt (regWord (linkFailed s (.lig h) cause) (Frame.lig h).base) 1 = true := by
  have hr : (linkFailed s (.lig h) cause).regs = (regSetBits s (Frame.lig h).base 2).regs := by
    unfold linkFailed logLinkFail
    dsimp only
    rw [logPut_eq]
    rfl
  rw [regWord, hr, regSetBits, setReg_regs, sget_sset_same]
  simp [bitAt]

/-- What a failing link leaves behind: the link with its cause, the domain down, and the failure in LIG_STAT. -/
structure LinkGone (s t : State) (e : LinkEnd) (cause : BitVec 2) : Prop where
  link : linkOf t e = { linkOf s e with failed := true, cause := cause }
  down : GoesDown s t (linkCause e) (endHome e) (homeAgent (endHome e)) 0
  stat : ∀ h, e = .lig h → bitAt (regWord t (Frame.lig h).base) 1 = true

theorem linkFail_gone {s : State} (h : alive s = true) (e : LinkEnd) (cause : BitVec 2) : LinkGone s (linkFail s e cause) e cause := by
  have ha : alive (linkFailed s e cause) = true := by rw [linkFailed_eq]; exact h
  have hl := linkOf_linkFailed s e cause
  rw [linkFail_eq]
  constructor
  · rw [domainDown_dead ha _ _ _ _ (by rw [hl]), hl]
  · have hd := domainDown_goesDown ha (linkCause e) (endHome e) (homeAgent (endHome e)) 0
    generalize domainDown (linkFailed s e cause) _ _ _ _ = t at hd
    rw [linkFailed_eq] at hd
    exact ⟨hd.down, hd.coh, hd.cores, hd.lrs, hd.upds, hd.scribes, hd.scriptoria, hd.feeds, hd.blotter, hd.mem⟩
  · rintro g rfl
    rw [domainDown_calm ha _ _ _ _ (calmReg_lig g)]
    exact linkFailed_stat s g cause

theorem linkLive_alive {s : State} {e : LinkEnd} (h : linkLive s e = true) : alive s = true := by
  unfold linkLive at h
  simp only [Bool.and_eq_true] at h
  exact h.1.1

/-! ### The parts of the statement -/

section
variable {s : State} {e : LinkEnd} {flit : List Byte}

/-- What an intact flit does to a link end that does not discard it. -/
theorem TakesFlit.statement {t : State} (h : TakesFlit s t e flit) :
    (let l := linkOf s e
     let cw := bget flit 0 4
     let vc := fieldN cw 1 0
     t = { s with links := t.links, regs := t.regs } ∧ (linkOf t e).discard = false ∧
     (∀ pre x post, l.txq = [] → l.replay = pre ++ x :: post → x.1 = fieldN cw 23 14 → (∀ y ∈ pre, y.1 ≠ fieldN cw 23 14) →
       (linkOf t e).replay = post) ∧
     sget 0 (linkOf t e).credited (fieldN cw 25 24) / 8 % 64 = fieldN cw 31 26 ∧
     (fieldN cw 3 2 < 2 → fieldN cw 13 4 = l.rxExp →
       (linkOf t e).rxExp = (l.rxExp + 1) % 1024 ∧ sget 0 (linkOf t e).freed vc = sget 0 l.freed vc + 1 ∧
       sget [] (linkOf t e).partials vc = (if fieldN cw 3 2 = 0 then [] else sget [] l.partials vc) ++ (flit.drop 4).take 58 ∧
       (∀ c, c ≠ vc → sget [] (linkOf t e).partials c = sget [] l.partials c ∧ sget 0 (linkOf t e).freed c = sget 0 l.freed c)) ∧
     (fieldN cw 13 4 ≠ l.rxExp ∨ 2 ≤ fieldN cw 3 2 →
       (linkOf t e).rxExp = l.rxExp ∧ (linkOf t e).freed = l.freed ∧ (linkOf t e).partials = l.partials ∧ (linkOf t e).rx = l.rx) ∧
     (∀ src vck pay, l.txq = [(src, vck, pay)] → l.replay.length < 256 → flitCredit l e (vck % 4) = true →
       ∃ l', l'.rxExp = (linkOf t e).rxExp ∧ (linkOf t e).out = l.out ++ [buildFlit l' l.nextSeq vck pay] ∧ (linkOf t e).txq = [] ∧
         (linkOf t e).nextSeq = (l.nextSeq + 1) % 1024 ∧ (linkOf t e).replay.getLast? = some (l.nextSeq, vck, pay) ∧
         sget 0 (linkOf t e).spent (vck % 4) = sget 0 l.spent (vck % 4) + 1)) := by
  intro l cw vc
  have hl : linkOf t e = (flitTaken l flit).sendSide (linkOf t e) := by simpa using h.pumps.link
  have hdiscard : (linkOf t e).discard = (flitTaken l flit).discard := by rw [hl]; rfl
  have hcredited : (linkOf t e).credited = (flitTaken l flit).credited := by rw [hl]; rfl
  have hrxExp : (linkOf t e).rxExp = (flitTaken l flit).rxExp := by rw [hl]; rfl
  have hfreed : (linkOf t e).freed = (flitTaken l flit).freed := by rw [hl]; rfl
  have hpartials : (linkOf t e).partials = (flitTaken l flit).partials := by rw [hl]; rfl
  have hrx : (linkOf t e).rx = (flitTaken l flit).rx := by rw [hl]; rfl
  refine ⟨h.pumps.rest, ?discard, ?ack, ?credit, ?inOrder, ?other, ?sends⟩
  case discard => rw [hdiscard, flitTaken_discard]
  case ack =>
    intro pre x post hq hr hx hp
    rw [h.replay hq]
    exact takeAck_replay hr hx hp
  case credit =>
    rw [hcredited, flitTaken_credited]
    exact flitAcked_reported l cw
  case inOrder =>
    intro hk hs
    obtain ⟨h1, h2, h3⟩ := flitTaken_of_inOrder (l := l) (flit := flit) (by simp [flitInOrder, cw] at hk hs ⊢; exact ⟨hk, hs⟩)
    rw [hrxExp, hfreed, hpartials, h1, h2, h3]
    exact ⟨rfl, sget_sset_same _ _ _ _, sget_sset_same _ _ _ _, fun c hc => ⟨sget_sset_ne _ _ _ hc, sget_sset_ne _ _ _ hc⟩⟩
  case other =>
    intro (ho : fieldN (bget flit 0 4) 13 4 ≠ l.rxExp ∨ 2 ≤ fieldN (bget flit 0 4) 3 2)
    rw [hrxExp, hfreed, hpartials, hrx]
    refine flitTaken_of_not_inOrder ?_
    simp only [flitInOrder, decide_eq_false_iff_not, not_and]
    omega
  case sends =>
    intro src vck pay hq hr hc
    rw [h.sends (src, vck, pay) hq hr hc]
    refine ⟨flitTaken l flit, ?_⟩
    simp [flitSent, flitPut, l]

/-- A damaged flit puts a RETRY that names the expected number on the wire and starts the discard. -/
theorem flitReceive_damaged_statement (hl : linkLive s e = true) (hn : flit.length = 64) (hc : bget flit 62 2 ≠ (crc16 (flit.take 62)).toNat) :
    (let l := linkOf s e
     ∃ t f, exec (.ligFlitReceive e flit) s = .next t ∧ t = { s with links := t.links, regs := t.regs } ∧
       linkOf t e = { l with discard := true, cvc := (l.cvc + 1) % 4, out := l.out ++ [f] } ∧ fieldN (bget f 0 4) 3 2 = 2 ∧
       fieldN (bget f 0 4) 13 4 = l.nextSeq % 1024 ∧ bget f 6 2 = l.rxExp % 2 ^ 16 ∧
       ∀ h, e = .lig h → regWord64 t ((Frame.lig h).base + 0x18) = (regWord64 s ((Frame.lig h).base + 0x18) + 1) % 2 ^ 64) := by
  intro l
  refine ⟨flitReceive s e flit, buildFlit l l.nextSeq 8 ([1, 0] ++ leBytes 2 l.rxExp), rfl, ?_⟩
  rw [flitReceive_damaged hl hn hc]
  refine ⟨by rw [ligCount_eq]; rfl, by rw [linkOf_ligCount, linkOf_setLink]; rfl, ?_, ?_, bget_retry_payload _ _ _ _, ?_⟩
  · rw [bget_buildFlit_control, controlWord_kind]
  · rw [bget_buildFlit_control, controlWord_seq]
  · rintro h rfl
    exact regWord64_count_one _ _ _

/-- A RETRY below the limit is counted, and the buffered flits from its number on leave again. -/
theorem flitRetry_statement (hl : linkLive s e = true) (seq : BitVec 10) (n : Nat)
    (hn : n = if (linkOf s e).lastReq = some seq.toNat then (linkOf s e).reqCount + 1 else 1) (hlt : n < replayLimit s e) :
    (let l := linkOf s e
     ∃ t, exec (.ligRetry e seq) s = .next t ∧
       linkOf t e = { l with lastReq := some seq.toNat, reqCount := n, cvc := (linkOf t e).cvc, out := (linkOf t e).out } ∧
       t = { s with links := t.links, regs := t.regs } ∧
       ∀ pre x post, l.replay = pre ++ x :: post → x.1 = seq.toNat → (∀ y ∈ pre, y.1 ≠ seq.toNat) →
         (linkOf t e).out = l.out ++ ((x :: post).zipIdx).map fun y =>
           buildFlit { l with cvc := l.cvc + y.2 } y.1.1 y.1.2.1 y.1.2.2) := by
  intro l
  refine ⟨flitRetry s e seq.toNat, rfl, ?_⟩
  rw [flitRetry_of_lt hl hn hlt, linkOf_ligCount, linkOf_setLink]
  refine ⟨?_, by rw [ligCount_eq]; rfl, ?_⟩
  · unfold resent
    split
    · rfl
    · rw [foldl_flitPut_eq]
      rfl
  · intro pre x post hr hx hp
    have hi : findIdx? (fun y => decide (y.1 = seq.toNat)) (linkOf s e).replay = some pre.length := by
      rw [show (linkOf s e).replay = pre ++ x :: post from hr]
      exact findIdx?_append (by simpa using hx) fun y hy => by simpa using hp y hy
    have hd : (linkOf s e).replay.drop pre.length = x :: post := by
      rw [show (linkOf s e).replay = pre ++ x :: post from hr, List.drop_left]
    simp only [resent, hi, hd]
    rw [foldl_flitPut_out]
    rfl

end

/-- Settles O39: each command's effect on a live link end by its own lemma; that the failure takes the domain down rests on what
its end leaves alone. -/
theorem flitLinksDeliverRetryAndFail : Obligations.FlitLinksDeliverRetryAndFail := by
  unfold Obligations.FlitLinksDeliverRetryAndFail
  intro s e hl l
  refine ⟨?intact, fun flit hn hc => flitReceive_damaged_statement hl hn hc, fun seq n hn hlt => flitRetry_statement hl seq n hn hlt,
    ?limit, ?quiet, ?timeout⟩
  case intact =>
    intro flit hn hc cw vc
    refine ⟨fun hd hs => ?_, fun hd => ⟨_, rfl, (takesFlit_flitReceive hl hn hc hd).statement⟩⟩
    exact congrArg Host.Outcome.next (flitReceive_discarded hl hn hc hd hs)
  case limit =>
    intro hr
    have g := linkFail_gone (linkLive_alive hl) e 1
    refine ⟨linkFail s e 1, ?_, g.link, by cases e <;> exact g.down, g.stat⟩
    show Host.Outcome.next _ = _
    rw [hl, if_pos (by simpa using hr)]
  case quiet =>
    intro hr
    show Host.Outcome.next _ = _
    rw [hl, if_neg (by simpa using hr)]
  case timeout =>
    intro hr
    have g := linkFail_gone (linkLive_alive hl) e 2
    refine ⟨linkFail s e 2, ?_, g.link, by cases e <;> exact g.down, g.stat⟩
    show Host.Outcome.next _ = _
    rw [hl, if_pos (by simpa using hr)]

end Sys2Proof.Machine
end

section
/-! SUPPORT. The boot control record, the event log, and the selection of a component's slot (R391, R396, R422, R423). -/

namespace Sys2Proof.Machine
open Sys2Proof

/-! ### The boot control record -/

/-- The copy just written is the one in force (R391). -/
theorem record_put (f : Flash) (g : BootRec → BootRec) : (f.put g).record = { g f.record with gen := f.record.gen + 1, good := true } := by
  have hin : ∀ b : Bool, b = (f.recB.good && (!f.recA.good || decide (f.recA.gen < f.recB.gen))) →
      (f.put g).record = { g f.record with gen := f.record.gen + 1, good := true } := by
    have newer (n : Nat) : ¬ n + 1 < n := by omega
    rintro (_ | _) hb
    · simp [Flash.put, Flash.record, ← hb]
    · simp [Flash.put, Flash.record, ← hb, newer]
  exact hin _ rfl

theorem slots_put (f : Flash) (g : BootRec → BootRec) : (f.put g).slots = (g f.record).slots := by rw [Flash.slots, record_put]
theorem cycles_put (f : Flash) (g : BootRec → BootRec) : (f.put g).cycles = (g f.record).cycles := by rw [Flash.cycles, record_put]

/-- Writing the record leaves the rest of the flash die and the fuses alone. -/
theorem put_eq (f : Flash) (g : BootRec → BootRec) : f.put g = { f with recA := (f.put g).recA, recB := (f.put g).recB } := by
  unfold Flash.put
  dsimp only
  split <;> rfl

@[simp] theorem put_bytes (f : Flash) (g : BootRec → BootRec) : (f.put g).bytes = f.bytes := by rw [put_eq]
@[simp] theorem put_svn (f : Flash) (g : BootRec → BootRec) : (f.put g).svn = f.svn := by rw [put_eq]
@[simp] theorem put_log (f : Flash) (g : BootRec → BootRec) : (f.put g).log = f.log := by rw [put_eq]

theorem slotSt_setSlot (s : State) (c k c' k' : Nat) (v : SlotSt) :
    slotSt (setSlot s c k v).flash c' k' = if 2 * c' + k' = 2 * c + k then v else slotSt s.flash c' k' := by
  simp only [slotSt, setSlot, slots_put, sget_sset]
  rfl

/-! ### The log and the fences -/

/-- An event below severity 4 stays in the log's ring (R422). -/
theorem logPut_low {sev : Nat} (h : sev ≠ 4) (s : State) (code : Nat) (payload : List Byte) : logPut s code sev payload =
    { s with col := { s.col with log := sset s.col.log (s.col.logNext % 4096) (logEntry s code sev payload), logNext := s.col.logNext + 1 } } := by
  unfold logPut
  rw [if_neg h]

/-- Whether a unit is fenced in this boot. -/
def isFenced (s : State) (c : BitVec 24) : Bool := s.col.fences.any fun p => p.1 = c

/-- A state with fences and the log of events taken from another. -/
def State.fencedAs (s t : State) : State :=
  { s with col := { s.col with fences := t.col.fences, log := t.col.log, logNext := t.col.logNext } }

/-- What fencing units does at most: a unit fenced once stays fenced. -/
structure Fences (s t : State) : Prop where
  rest : t = s.fencedAs t
  grows : ∀ c, isFenced s c = true → isFenced t c = true

theorem Fences.refl (s : State) : Fences s s := ⟨rfl, fun _ h => h⟩

theorem Fences.trans {s t u : State} (h : Fences s t) (k : Fences t u) : Fences s u where
  rest := by
    have hu : t.fencedAs u = (s.fencedAs t).fencedAs u := congrArg (fun x : State => x.fencedAs u) h.rest
    exact k.rest.trans hu
  grows c hc := k.grows c (h.grows c hc)

theorem fences_logPut {sev : Nat} (h : sev ≠ 4) (s : State) (code : Nat) (payload : List Byte) : Fences s (logPut s code sev payload) := by
  rw [logPut_low h]
  exact ⟨rfl, fun _ hc => hc⟩

/-- The fences of a state with one more. -/
theorem fences_add (s : State) (c : BitVec 24) (src : BitVec 8) :
    Fences s { s with col := { s.col with fences := s.col.fences ++ [(c, src)] } } :=
  ⟨rfl, fun d hd => by simp only [isFenced, List.any_append, Bool.or_eq_true] at hd ⊢; exact .inl hd⟩

/-- One unit is fenced, unless it is fenced already or its code names none. -/
def fenceOne (src : BitVec 8) (s : State) (c : BitVec 24) : State :=
  if !unitCode c || s.col.fences.any (fun p => p.1 = c) then s
  else logPut { s with col := { s.col with fences := s.col.fences ++ [(c, src)] } } 0x0010 1 (logFields [(4, c.toNat + 2 ^ 24 * src.toNat)])

theorem fenceUnits_eq (s : State) (src : BitVec 8) (l : List (BitVec 24)) : fenceUnits s src l = l.foldl (fenceOne src) s := rfl

theorem fences_fenceOne (src : BitVec 8) (s : State) (c : BitVec 24) : Fences s (fenceOne src s c) := by
  unfold fenceOne
  split
  · exact .refl s
  · exact (fences_add s c src).trans (fences_logPut (by decide) _ _ _)

theorem fenceOne_fenced (src : BitVec 8) (s : State) {c : BitVec 24} (hc : unitCode c = true) : isFenced (fenceOne src s c) c = true := by
  unfold fenceOne
  split
  · rename_i h
    simpa [hc, isFenced] using h
  · exact (fences_logPut (by decide) _ _ _).grows c (by simp [isFenced])

theorem fences_fenceUnits (s : State) (src : BitVec 8) (l : List (BitVec 24)) : Fences s (fenceUnits s src l) :=
  foldl_rel .refl .trans (fences_fenceOne src) l s

theorem fenceUnits_fenced (src : BitVec 8) {c : BitVec 24} (hc : unitCode c = true) :
    ∀ (l : List (BitVec 24)) (s : State), c ∈ l → isFenced (fenceUnits s src l) c = true
  | [], _, h => by cases h
  | d :: l, s, h => by
    rw [fenceUnits_eq, List.foldl_cons, ← fenceUnits_eq]
    rcases List.mem_cons.1 h with rfl | h
    · exact (fences_fenceUnits _ src l).grows c (fenceOne_fenced src s hc)
    · exact fenceUnits_fenced src hc l _ h

/-! ### The selection of a slot (R396) -/

/-- What selecting a component's slot does at most: the states of its own slots change, and rejections are logged. -/
structure Picks (c : Nat) (s t : State) : Prop where
  rest : t = { s with col := { s.col with log := t.col.log, logNext := t.col.logNext }, flash := t.flash }
  bytes : t.flash.bytes = s.flash.bytes
  svn : t.flash.svn = s.flash.svn
  slots : ∀ c' k, k < 2 → c' ≠ c → slotSt t.flash c' k = slotSt s.flash c' k

theorem Picks.refl (c : Nat) (s : State) : Picks c s s := ⟨rfl, rfl, rfl, fun _ _ _ _ => rfl⟩

theorem Picks.trans {c : Nat} {s t u : State} (h : Picks c s t) (k : Picks c t u) : Picks c s u where
  rest := by
    have hu := congrArg (fun x : State => { x with col := { x.col with log := u.col.log, logNext := u.col.logNext }, flash := u.flash }) h.rest
    exact k.rest.trans hu
  bytes := k.bytes.trans h.bytes
  svn := k.svn.trans h.svn
  slots c' j hj hc := (k.slots c' j hj hc).trans (h.slots c' j hj hc)

theorem Picks.ite {c : Nat} {s t u : State} {p : Prop} [Decidable p] (h : Picks c s t) (k : Picks c s u) : Picks c s (if p then t else u) := by
  split <;> assumption

theorem picks_setSlot (s : State) (c : Nat) {k : Nat} (hk : k < 2) (v : SlotSt) : Picks c s (setSlot s c k v) where
  rest := rfl
  bytes := put_bytes _ _
  svn := put_svn _ _
  slots c' j hj hc := by rw [slotSt_setSlot, if_neg (by omega)]

theorem picks_rejectSlot (s : State) (c : Nat) {k : Nat} (hk : k < 2) (e : Nat) : Picks c s (rejectSlot s c k e) := by
  refine .trans ?_ (picks_setSlot _ c hk .invalid)
  rw [rejectLog, logPut_low (by decide)]
  exact ⟨rfl, rfl, rfl, fun _ _ _ _ => rfl⟩

theorem Picks.slotImage {c : Nat} {s t : State} (h : Picks c s t) (d k : Nat) : slotImage t d k = slotImage s d k := by
  simp only [Machine.slotImage, h.bytes]

theorem Picks.compCheck {c : Nat} {s t : State} (h : Picks c s t) (d : Nat) (b : List Byte) : compCheck t d b = compCheck s d b := by
  simp only [Machine.compCheck, h.svn]

/-- A slot without attempts left is INVALID. -/
def dropSpent (c : Nat) (s : State) (k : Nat) : State := if slotSt s.flash c k = .pending 0 then setSlot s c k .invalid else s

/-- A component's slots without those that have no attempts left. -/
def dropped (s : State) (c : Nat) : State := dropSpent c (dropSpent c s 0) 1

theorem picks_dropped (s : State) (c : Nat) : Picks c s (dropped s c) := by
  have one (s : State) (k : Nat) (hk : k < 2) : Picks c s (dropSpent c s k) := .ite (picks_setSlot s c hk _) (.refl c s)
  exact (one s 0 (by decide)).trans (one _ 1 (by decide))

theorem slotSt_dropSpent (c : Nat) (s : State) (j k : Nat) : slotSt (dropSpent c s j).flash c k =
    if k = j ∧ slotSt s.flash c j = .pending 0 then .invalid else slotSt s.flash c k := by
  unfold dropSpent
  split
  · rename_i h
    rw [slotSt_setSlot]
    by_cases hk : k = j
    · simp [hk, h]
    · rw [if_neg (by omega), if_neg (by simp [hk])]
  · rename_i h
    simp [h]

theorem slotSt_dropped (s : State) (c : Nat) {k : Nat} (hk : k < 2) : slotSt (dropped s c).flash c k =
    if slotSt s.flash c k = .pending 0 then .invalid else slotSt s.flash c k := by
  simp only [dropped, slotSt_dropSpent]
  obtain rfl | rfl : k = 0 ∨ k = 1 := by omega
  · simp
  · simp

/-- The attempts that a slot has left after this one, when it is on trial. -/
def attemptsLeft (s : State) (c k : Nat) : Option Nat := match slotSt s.flash c k with | .pending (n + 1) => some n | _ => none

/-- The selection, with the steps before it named. -/
theorem pickSlot_eq (s : State) (c : Nat) : pickSlot s c =
    (let t := dropped s c
     let is (v : SlotSt) (k : Nat) : Bool := slotSt t.flash c k = v
     match attemptsLeft t c 0, attemptsLeft t c 1 with
     | some n, _ => (setSlot t c 0 (.pending n), some 0)
     | none, some n => (setSlot t c 1 (.pending n), some 1)
     | none, none => (t, [0, 1].find? (is .active) <|> [0, 1].find? (is .fallback))) := rfl

theorem picks_pickSlot (s : State) (c : Nat) : Picks c s (pickSlot s c).1 := by
  rw [pickSlot_eq]
  dsimp only
  split
  · exact (picks_dropped s c).trans (picks_setSlot _ c (by decide) _)
  · exact (picks_dropped s c).trans (picks_setSlot _ c (by decide) _)
  · exact picks_dropped s c

theorem pickSlot_lt {s t : State} {c k : Nat} (h : pickSlot s c = (t, some k)) : k < 2 := by
  have two {p q : Nat → Bool} (hf : ([0, 1].find? p <|> [0, 1].find? q) = some k) : k < 2 := by
    have hm : k ∈ [0, 1] := by
      cases hp : [0, 1].find? p with
      | none => rw [hp] at hf; exact List.mem_of_find?_eq_some hf
      | some j => rw [hp] at hf; cases hf; exact List.mem_of_find?_eq_some hp
    simp at hm
    omega
  rw [pickSlot_eq] at h
  dsimp only at h
  split at h
  · cases h; decide
  · cases h; decide
  · exact two (Prod.mk.inj h).2

end Sys2Proof.Machine
end

section
/-! SUPPORT. Which slot a component selects (R396). -/

namespace Sys2Proof.Machine
open Sys2Proof

theorem attemptsLeft_of {s : State} {c k : Nat} {v : SlotSt} (h : slotSt s.flash c k = v) (hv : ∀ n, v ≠ .pending (n + 1)) : attemptsLeft s c k = none := by
  unfold attemptsLeft
  split
  · rename_i n hn
    exact absurd (h ▸ hn) (hv n)
  · rfl

theorem attemptsLeft_pending {s : State} {c k n : Nat} (h : slotSt s.flash c k = .pending (n + 1)) : attemptsLeft s c k = some n := by
  simp [attemptsLeft, h]

/-- The state of a slot that no trial keeps from the choice of an ACTIVE one. -/
theorem dropped_quiet {s : State} {c k : Nat} (hk : k < 2) (h : slotSt s.flash c k ∈ [SlotSt.invalid, .fallback, .pending 0]) :
    slotSt (dropped s c).flash c k = .invalid ∨ slotSt (dropped s c).flash c k = .fallback := by
  rw [slotSt_dropped s c hk]
  simp only [List.mem_cons, List.not_mem_nil, or_false] at h
  rcases h with h | h | h <;> simp [h]

theorem pickSlot_active {s : State} {c k : Nat} (hk : k < 2) (h : slotSt s.flash c k = .active)
    (ho : slotSt s.flash c (1 - k) ∈ [SlotSt.invalid, .fallback, .pending 0]) : pickSlot s c = (dropped s c, some k) := by
  have ha : slotSt (dropped s c).flash c k = .active := by rw [slotSt_dropped s c hk, h]; rfl
  have hq := dropped_quiet (c := c) (show 1 - k < 2 by omega) ho
  have h1 := attemptsLeft_of ha (fun n => by simp)
  have h2 : attemptsLeft (dropped s c) c (1 - k) = none := by rcases hq with h | h <;> exact attemptsLeft_of h fun n => by simp
  rw [pickSlot_eq]
  obtain rfl | rfl : k = 0 ∨ k = 1 := by omega
  · simp [h1, h2, ha]
  · rcases hq with hq | hq <;> simp_all

theorem pickSlot_pending {s : State} {c k n : Nat} (hk : k < 2) (h : slotSt s.flash c k = .pending (n + 1))
    (ho : slotSt s.flash c (1 - k) ∈ [SlotSt.active, .invalid, .fallback]) :
    pickSlot s c = (setSlot (dropped s c) c k (.pending n), some k) := by
  have ha : slotSt (dropped s c).flash c k = .pending (n + 1) := by rw [slotSt_dropped s c hk, h]; rfl
  have hq : attemptsLeft (dropped s c) c (1 - k) = none := by
    refine attemptsLeft_of rfl fun m => ?_
    rw [slotSt_dropped s c (by omega)]
    simp only [List.mem_cons, List.not_mem_nil, or_false] at ho
    rcases ho with h | h | h <;> simp [h]
  have h1 := attemptsLeft_pending ha
  rw [pickSlot_eq]
  obtain rfl | rfl : k = 0 ∨ k = 1 := by omega
  · simp [h1]
  · simp_all

theorem pickSlot_none {s : State} {c : Nat} (h : ∀ k, k < 2 → slotSt s.flash c k = .invalid) : pickSlot s c = (dropped s c, none) := by
  have hi (k : Nat) (hk : k < 2) : slotSt (dropped s c).flash c k = .invalid := by rw [slotSt_dropped s c hk, h k hk]; rfl
  have hn (k : Nat) (hk : k < 2) : attemptsLeft (dropped s c) c k = none := attemptsLeft_of (hi k hk) fun n => by simp
  rw [pickSlot_eq]
  simp [hn, hi]

section
variable {s t : State} {c k : Nat}

theorem chooseSlot_of_none (h : pickSlot s c = (t, none)) : chooseSlot s c = (t, none) := by
  unfold chooseSlot
  rw [h]

theorem chooseSlot_of_good (h : pickSlot s c = (t, some k)) (hg : compCheck s c (slotImage s c k) = 0) : chooseSlot s c = (t, some k) := by
  have hp : Picks c s t := by simpa [h] using picks_pickSlot s c
  unfold chooseSlot
  rw [h]
  simp [hp.compCheck, hp.slotImage, hg]

/-- The slot that was picked fails its check, and the other one is taken. -/
theorem chooseSlot_of_bad (h : pickSlot s c = (t, some k)) (hb : compCheck s c (slotImage s c k) ≠ 0)
    (ho : slotSt t.flash c (1 - k) ≠ .invalid) (hg : compCheck s c (slotImage s c (1 - k)) = 0) :
    chooseSlot s c = (rejectSlot t c k (compCheck s c (slotImage s c k)), some (1 - k)) := by
  have hk := pickSlot_lt h
  have hp : Picks c s t := by simpa [h] using picks_pickSlot s c
  have hr := hp.trans (picks_rejectSlot t c hk (compCheck s c (slotImage s c k)))
  have hs : slotSt (rejectSlot t c k (compCheck s c (slotImage s c k))).flash c (1 - k) = slotSt t.flash c (1 - k) := by
    rw [rejectSlot, slotSt_setSlot, if_neg (by omega), rejectLog, logPut_low (by decide)]
  unfold chooseSlot
  rw [h]
  simp [hp.compCheck, hp.slotImage, hb, hs, ho, hr.compCheck, hr.slotImage, hg]

/-- What selecting a slot answers: its footprint, and an image that passes its check. -/
theorem chooseSlot_spec {o : Option Nat} (h : chooseSlot s c = (t, o)) :
    Picks c s t ∧ ∀ k, o = some k → k < 2 ∧ compCheck s c (slotImage s c k) = 0 := by
  unfold chooseSlot at h
  split at h
  · rename_i u hu
    cases h
    exact ⟨by simpa [hu] using picks_pickSlot s c, by simp⟩
  · rename_i u j hu
    have hp : Picks c s u := by simpa [hu] using picks_pickSlot s c
    have hj := pickSlot_lt hu
    have hr (e : Nat) : Picks c s (rejectSlot u c j e) := hp.trans (picks_rejectSlot u c hj e)
    dsimp only at h
    split at h
    · rename_i he
      cases h
      rw [hp.slotImage, hp.compCheck] at he
      exact ⟨hp, fun k hk => by cases hk; exact ⟨hj, he⟩⟩
    · split at h
      · cases h
        exact ⟨hr _, by simp⟩
      · split at h
        · rename_i he
          cases h
          rw [(hr _).slotImage, (hr _).compCheck] at he
          exact ⟨hr _, fun k hk => by cases hk; exact ⟨by omega, he⟩⟩
        · cases h
          exact ⟨(hr _).trans (picks_rejectSlot _ c (by omega) _), by simp⟩

end

end Sys2Proof.Machine
end

section
/-! Boot stages 0 and 1: the Colophon firmware, the Rubric and the self-test (R29, R395 to R397, R408, R415). -/

namespace Sys2Proof.Machine
open Sys2Proof

/-! ### Ends of stages -/

theorem warm_eq_false {s : State} (h : s.col.lastReset = 0) : warm s = false := by simp [warm, h]
theorem warm_eq_true {s : State} (h : s.col.lastReset ≠ 0) : warm s = true := decide_eq_true h

theorem reach_eq (s : State) (n : Nat) : reach s n =
    { s with col := { s.col with stage := n, log := (reach s n).col.log, logNext := (reach s n).col.logNext } } := by
  rw [reach, logPut_low (by decide)]

theorem bootLog_eq (s : State) (why : Nat) : bootLog s why =
    { s with col := { s.col with log := (bootLog s why).col.log, logNext := (bootLog s why).col.logNext } } := by
  rw [bootLog, logPut_low (by decide)]

/-- Boot has ended at management service (R397). -/
def AtManagement (t : State) : Prop := t.col.bootFailed = true ∧ t.col.service = 0

theorem toManagement_eq (s : State) (why : Nat) : toManagement s why =
    { s with col := { s.col with
      bootFailed := true, service := 0, log := (toManagement s why).col.log, logNext := (toManagement s why).col.logNext } } := by
  rw [toManagement, bootLog_eq]

theorem toManagement_atManagement (s : State) (why : Nat) : AtManagement (toManagement s why) := ⟨rfl, rfl⟩

theorem getD_setMeas (s : State) (i : Nat) (d : List Byte) {j : Nat} (h : j < 3) :
    (setMeas s i d).col.meas.getD j [] = if j + 1 = i then d else s.col.meas.getD j [] := by
  simp [setMeas, List.getD, h]

theorem slotImage_congr {s t : State} (h : t.flash.bytes = s.flash.bytes) (c k : Nat) : slotImage t c k = slotImage s c k := by
  simp only [slotImage, h]

/-! ### The Rubric (R408, R411) -/

/-- What taking the Rubric leaves of stage 0, and what it ends with: boot at management service, or a valid Rubric in force. -/
structure RubricTaken (s t : State) : Prop where
  mem : t.mem = s.mem
  stage : t.col.stage = s.col.stage
  booted : t.col.bootedCol = s.col.bootedCol
  meas : t.col.meas.getD 0 [] = s.col.meas.getD 0 []
  slots : ∀ k, k < 2 → slotSt t.flash 0 k = slotSt s.flash 0 k
  rubric : AtManagement t ∨ ∃ l, rubValid (slotImage s 2 t.col.bootedRub) = some l ∧
    t.col.rubric = (rubricOf (bget (slotImage s 2 t.col.bootedRub) 8 4) l).1

/-- The Rubric of a slot is in force and measured. -/
def rubricInForce (s : State) (k : Nat) (b : List Byte) (r : Rubric) : State :=
  setMeas { s with col := { s.col with rubric := r, bootedRub := k, fences := [] } } 3 (sha256 (b.take (bget b 8 4)))

/-- The last valid management address is kept in flash (R391). -/
def keepIp (s : State) (ip : BitVec 32) : State := { s with flash := s.flash.put fun r => { r with ip := some ip } }

section
variable {s t : State}

/-- No Rubric to take ends boot at management service. -/
theorem rubricTaken_management (hp : Picks 2 s t) : RubricTaken s (toManagement t 3) where
  mem := by rw [toManagement_eq, hp.rest]
  stage := by rw [toManagement_eq, hp.rest]
  booted := by rw [toManagement_eq, hp.rest]
  meas := by rw [toManagement_eq, hp.rest]
  slots k hk := by rw [toManagement_eq]; exact hp.slots 0 k hk (by decide)
  rubric := .inl (toManagement_atManagement t 3)

/-- Fences and the management address change nothing of a Rubric in force. -/
theorem rubricTaken_inForce (hp : Picks 2 s t) {k : Nat} {l : List RubRec} (hv : rubValid (slotImage s 2 k) = some l) {u : State}
    (hu : Fences (rubricInForce t k (slotImage s 2 k) (rubricOf (bget (slotImage s 2 k) 8 4) l).1) u ∨
      ∃ ip, Fences (keepIp (rubricInForce t k (slotImage s 2 k) (rubricOf (bget (slotImage s 2 k) 8 4) l).1) ip) u) : RubricTaken s u := by
  have hm : (rubricInForce t k (slotImage s 2 k) (rubricOf (bget (slotImage s 2 k) 8 4) l).1).col.meas.getD 0 [] = s.col.meas.getD 0 [] := by
    rw [rubricInForce, getD_setMeas _ _ _ (by decide), hp.rest]
    rfl
  have hslots := fun k hk => hp.slots 0 k hk (by decide)
  rcases hu with hu | ⟨ip, hu⟩
  · constructor
    · rw [hu.rest, hp.rest]; rfl
    · rw [hu.rest, hp.rest]; rfl
    · rw [hu.rest, hp.rest]; rfl
    · rw [hu.rest]; exact hm
    · rw [hu.rest]; exact hslots
    · rw [hu.rest]; exact .inr ⟨l, hv, rfl⟩
  · constructor
    · rw [hu.rest, hp.rest]; rfl
    · rw [hu.rest, hp.rest]; rfl
    · rw [hu.rest, hp.rest]; rfl
    · rw [hu.rest]; exact hm
    · intro j hj
      rw [hu.rest, ← hslots j hj]
      simp only [slotSt, keepIp, State.fencedAs, slots_put]
      rfl
    · rw [hu.rest]; exact .inr ⟨l, hv, rfl⟩

end

theorem takeRubric_taken (s : State) : RubricTaken s (takeRubric s) := by
  have log (t : State) (l : Refused) : Fences t (l.foldl (fun s x => logPut s 0x0011 2 (logFields [(4, x.1), (4, x.2)])) t) :=
    foldl_rel .refl .trans (fun s _ => fences_logPut (by decide) s _ _) l t
  have last (t : State) (l : Refused) (f : State → List (BitVec 24)) (g : List (BitVec 24)) :
      Fences t (fenceUnits (fenceUnits (l.foldl (fun s x => logPut s 0x0011 2 (logFields [(4, x.1), (4, x.2)])) t) 1
        (f (l.foldl (fun s x => logPut s 0x0011 2 (logFields [(4, x.1), (4, x.2)])) t))) 3 g) :=
    ((log t l).trans (fences_fenceUnits _ 1 _)).trans (fences_fenceUnits _ 3 g)
  unfold takeRubric
  rcases h : chooseSlot s 2 with ⟨t, _ | k⟩
  · exact rubricTaken_management (chooseSlot_spec h).1
  · have hp := (chooseSlot_spec h).1
    dsimp only
    rw [hp.slotImage]
    cases hv : rubValid (slotImage s 2 k) with
    | none => exact rubricTaken_management hp
    | some l =>
      dsimp only
      cases hip : (rubricOf (bget (slotImage s 2 k) 8 4) l).1.ip with
      | none => exact rubricTaken_inForce hp hv (.inl (last _ _ (fun s => s.flash.fences) _))
      | some ip => exact rubricTaken_inForce hp hv (.inr ⟨ip, last _ _ (fun s => s.flash.fences) _⟩)

/-! ### Stage 0 of a power-on -/

/-- The firmware of a slot runs, measured, and stage 1 begins. -/
def firmwareRuns (u : State) (k : Nat) (img : List Byte) : State :=
  reach (setMeas { u with col := { u.col with bootedCol := k, reselect := false } } 1 (sha256 img)) 1

section
variable (u : State) (k : Nat) (img : List Byte)

theorem firmwareRuns_eq : firmwareRuns u k img = { u with col := (firmwareRuns u k img).col } := by
  rw [firmwareRuns, reach_eq]
  rfl

theorem firmwareRuns_warm : warm (firmwareRuns u k img) = warm u := by
  rw [firmwareRuns, reach_eq]
  rfl

theorem firmwareRuns_meas : (firmwareRuns u k img).col.meas.getD 0 [] = sha256 img := by
  rw [firmwareRuns, reach_eq]
  exact getD_setMeas _ _ _ (by decide)

end

section
variable {s u : State} (hw : s.col.lastReset = 0)
include hw

/-- The firmware of the slot that was selected runs, measured, and the Rubric is taken. -/
theorem endStage0_some {k : Nat} (h : chooseSlot s 0 = (u, some k)) :
    (let t := endStage0 s
     t.mem = s.mem ∧ t.col.stage = 1 ∧ t.col.bootedCol = k ∧ t.col.meas.getD 0 [] = sha256 (slotImage s 0 k) ∧
     (∀ j, j < 2 → slotSt t.flash 0 j = slotSt u.flash 0 j) ∧
     (AtManagement t ∨ ∃ l, rubValid (slotImage s 2 t.col.bootedRub) = some l ∧
       t.col.rubric = (rubricOf (bget (slotImage s 2 t.col.bootedRub) 8 4) l).1)) := by
  have hp := (chooseSlot_spec h).1
  have hwarm : warm s = false := warm_eq_false hw
  have huwarm : warm u = false := by rw [warm, hp.rest]; exact hwarm
  have hi : slotImage { u with col := { u.col with bootedCol := k, reselect := false } } 0 k = slotImage s 0 k := hp.slotImage 0 k
  have he : endStage0 s = takeRubric (firmwareRuns u k (slotImage s 0 k)) := by
    unfold endStage0
    simp only [hwarm, Bool.false_and, Bool.false_eq_true, if_false, h, hi]
    exact if_neg (by rw [← firmwareRuns, firmwareRuns_warm, huwarm]; decide)
  have hv := firmwareRuns_eq u k (slotImage s 0 k)
  have hm := firmwareRuns_meas u k (slotImage s 0 k)
  obtain ⟨mem, stage, booted, meas, slots, rubric⟩ := takeRubric_taken (firmwareRuns u k (slotImage s 0 k))
  have himg (j : Nat) : slotImage (firmwareRuns u k (slotImage s 0 k)) 2 j = slotImage s 2 j :=
    (slotImage_congr (by rw [hv]) 2 j).trans (hp.slotImage 2 j)
  simp only [himg] at rubric
  rw [he]
  refine ⟨?_, stage.trans rfl, booted.trans rfl, meas.trans hm, fun j hj => ?_, rubric⟩
  · rw [mem, hv, hp.rest]
  · rw [slots j hj, hv]

/-- No slot is left, and the ROM goes to recovery. -/
theorem endStage0_none (h : chooseSlot s 0 = (u, none)) :
    (let t := endStage0 s
     t.mem = s.mem ∧ t.col.recovery = true ∧ AtManagement t ∧ t.col.stage = s.col.stage) := by
  have hp := (chooseSlot_spec h).1
  have hwarm : warm s = false := warm_eq_false hw
  have he : endStage0 s = { bootLog u 2 with col := { (bootLog u 2).col with recovery := true, bootFailed := true, service := 0 } } := by
    unfold endStage0
    simp only [hwarm, Bool.false_and, Bool.false_eq_true, if_false, h]
  rw [he, bootLog_eq, hp.rest]
  exact ⟨rfl, rfl, ⟨rfl, rfl⟩, rfl⟩

end

/-! ### Stage 1 and the ROM's start -/

section
variable {s : State} {failed : List (BitVec 24)}

theorem endStage1_cold (hw : s.col.lastReset = 0) :
    (let t := endStage1 s failed
     t.col.stage = 2 ∧ t.col.started = s.col.started ∧ (∀ c ∈ failed, unitCode c = true → isFenced t c = true) ∧ t.mem = s.mem) := by
  have he : endStage1 s failed = reach (fenceUnits s 2 failed) 2 := by
    unfold endStage1
    rw [warm_eq_false hw, if_neg Bool.false_ne_true]
  have hf := fences_fenceUnits s 2 failed
  rw [he, reach_eq]
  refine ⟨rfl, ?_, ?_, ?_⟩
  · rw [hf.rest]; rfl
  · exact fun c hc hu => fenceUnits_fenced 2 hu failed s hc
  · rw [hf.rest]; rfl

theorem endStage1_warm (hw : s.col.lastReset ≠ 0) {c : BitVec 24} (hc : c ∈ failed) (hu : unitCode c = true) (hn : ¬ isFenced s c = true) :
    AtManagement (endStage1 s failed) := by
  have hb : failed.any (fun c => unitCode c && !s.col.fences.any fun p => p.1 = c) = true :=
    List.any_eq_true.2 ⟨c, hc, by
      show (unitCode c && !isFenced s c) = true
      rw [hu, Bool.eq_false_iff.2 hn]
      rfl⟩
  unfold endStage1
  rw [warm_eq_true hw, if_pos rfl, if_pos hb]
  exact toManagement_atManagement s 5

end

end Sys2Proof.Machine
end

section
/-! Boot stages 2 and 3: the CXL links, the ports, the boot area and the boot hart (R312, R344, R349, R399 to R401). -/

namespace Sys2Proof.Machine
open Sys2Proof

/-! ### Folds over tables -/

theorem mem_ninsert {l : List Nat} {k j : Nat} : j ∈ ninsert l k ↔ j = k ∨ j ∈ l := by
  induction l with
  | nil => simp [ninsert]
  | cons a t ih =>
    simp only [ninsert]
    split
    · simp
    · split
      · rename_i h
        simp [h]
      · rw [List.mem_cons, List.mem_cons, ih]
        exact or_left_comm

theorem mem_foldl_ninsert {α : Type} {j : Nat} : ∀ {xs : List (Nat × α)} {l : List Nat},
    j ∈ xs.foldl (fun l p => ninsert l p.1) l ↔ j ∈ l ∨ ∃ p ∈ xs, p.1 = j
  | [], l => by simp
  | x :: xs, l => by
    rw [List.foldl_cons, mem_foldl_ninsert, mem_ninsert]
    simp only [List.mem_cons, exists_eq_or_imp]
    rw [or_comm (a := j = x.1), or_assoc, eq_comm (a := j)]

theorem sget_foldl_sset_none {α β : Type} {d : β} {f : α → β} {k : Nat} : ∀ {xs : List (Nat × α)} {m : Sparse β},
    (∀ p ∈ xs, p.1 ≠ k) → sget d (xs.foldl (fun m p => sset m p.1 (f p.2)) m) k = sget d m k
  | [], _, _ => rfl
  | x :: xs, m, h => by
    rw [List.foldl_cons, sget_foldl_sset_none fun p hp => h p (List.mem_cons_of_mem _ hp)]
    exact sget_sset_ne _ _ _ (h x List.mem_cons_self).symm

/-- A key that stands once in a list keeps the value it was given. -/
theorem sget_foldl_sset_once {α β : Type} {d : β} {f : α → β} {k : Nat} {a : α} : ∀ {xs : List (Nat × α)} {m : Sparse β},
    xs.filter (fun p => p.1 = k) = [(k, a)] → sget d (xs.foldl (fun m p => sset m p.1 (f p.2)) m) k = f a
  | [], _, h => by simp at h
  | x :: xs, m, h => by
    rw [List.foldl_cons]
    by_cases hx : x.1 = k
    · rw [List.filter_cons_of_pos (by simpa using hx)] at h
      obtain ⟨rfl, hn⟩ := List.cons.inj h
      rw [sget_foldl_sset_none fun p hp hk => by simpa [hk] using List.filter_eq_nil_iff.1 hn p hp]
      exact sget_sset_same _ _ _ _
    · rw [List.filter_cons_of_neg (by simpa using hx)] at h
      exact sget_foldl_sset_once h

theorem sget_map_keys {α : Type} (d : α) (f : Nat → α) (ks : List Nat) (k : Nat) :
    sget d (ks.map fun p => (p, f p)) k = if k ∈ ks then f k else d := by
  induction ks with
  | nil => rfl
  | cons j t ih =>
    by_cases hj : j = k
    · simp [sget, hj]
    · simp [sget, hj, ih, Ne.symm hj]

/-! ### Stage 2 (R31, R312, R344) -/

theorem fences_fenceByLigature (s : State) : Fences s (fenceByLigature s) := by
  unfold fenceByLigature
  split
  · exact .refl s
  · split
    · exact .refl s
    · exact fences_fenceUnits s _ _

/-- The links that come up, with the capacity each reports. -/
def cxlReady (s : State) (caps : List (Nat × Nat)) : List (Nat × Nat) :=
  caps.filter fun p =>
    decide (p.1 < 6) && !bltFenced s && !engineFenced s (14 + p.1 / 2) && s.col.rubric.roles.getD (28 + p.1) 0 = 3

/-- The sets of the second tier aside, the links that come up get their usable capacity. -/
theorem mapCxl_eq (s : State) (caps : List (Nat × Nat)) : mapCxl s caps = { s with
    cxlUp := (cxlReady s caps).foldl (fun l p => ninsert l p.1) [], cxlBytes := (cxlReady s caps).foldl (fun m p => sset m p.1 (usable p.2)) []
    cxl := (mapCxl s caps).cxl
    col := { s.col with log := (mapCxl s caps).col.log, logNext := (mapCxl s caps).col.logNext } } := by
  let R (r r' : State × List Nat) : Prop :=
    r'.1 = { r.1 with cxl := r'.1.cxl, col := { r.1.col with log := r'.1.col.log, logNext := r'.1.col.logNext } }
  have trans {r t u : State × List Nat} (h : R r t) (k : R t u) : R r u := by
    have hu := congrArg (fun x : State => { x with cxl := u.1.cxl, col := { x.col with log := u.1.col.log, logNext := u.1.col.logNext } }) h
    exact k.trans hu
  unfold mapCxl
  refine foldl_rel (R := R) (fun _ => rfl) trans (fun r x => ?_) _ _
  dsimp only
  split
  · show R r (_, _)
    simp only [R]
    rw [logPut_low (by decide)]
  · split <;> rfl

theorem filter_filter_swap {α : Type} (p q : α → Bool) (l : List α) : (l.filter p).filter q = (l.filter q).filter p := by
  simp only [List.filter_filter, Bool.and_comm]

/-- A link of a CXL port that reports a capacity once comes up with what is usable of it (R312). -/
theorem mapCxl_link {s : State} {caps : List (Nat × Nat)} {l n : Nat} (hl : l < 6) (hc : caps.filter (fun p => p.1 = l) = [(l, n)])
    (hr : s.col.rubric.roles.getD (28 + l) 0 = 3) (hb : bltFenced s = false) (he : engineFenced s (14 + l / 2) = false) :
    l ∈ (mapCxl s caps).cxlUp ∧ sget 0 (mapCxl s caps).cxlBytes l = usable n := by
  have hready : (cxlReady s caps).filter (fun p => p.1 = l) = [(l, n)] := by
    rw [cxlReady, filter_filter_swap, hc]
    simp only [List.filter_cons, List.filter_nil, hl, hb, he, hr]
    rfl
  have hmem : (l, n) ∈ cxlReady s caps :=
    (List.mem_filter.1 (hready ▸ List.mem_cons_self : (l, n) ∈ (cxlReady s caps).filter fun p => p.1 = l)).1
  rw [mapCxl_eq]
  exact ⟨mem_foldl_ninsert.2 (.inr ⟨(l, n), hmem, rfl⟩), sget_foldl_sset_once hready⟩

theorem usable_eq (n : Nat) : usable n = min (2 ^ 41) ((n / 2 ^ 28 - 1) * 2 ^ 28) := by
  rw [usable, Nat.sub_mul, Nat.one_mul]

theorem portOf_startPorts (s : State) {p : Nat} (hp : p < 34) : (portOf (startPorts s) p).st =
    if s.col.rubric.roles.getD p 0 = 0 ∨ engineFenced s (p / 2) = true then .disabled
    else if 28 ≤ p ∧ p - 28 ∈ s.cxlUp then .up else .signal := by
  unfold portOf startPorts
  dsimp only
  rw [sget_map_keys, if_pos (List.mem_range.2 hp)]
  by_cases h28 : 28 ≤ p <;> by_cases hu : p - 28 ∈ s.cxlUp <;> simp [h28, hu]

/-- The state at the end of stage 2 with its fences, before the second tier comes up. -/
def stage2Fenced (s : State) (r : BootReport) : State := fenceByLigature (fenceUnits s 2 r.failed)

theorem fences_stage2Fenced (s : State) (r : BootReport) : Fences s (stage2Fenced s r) :=
  (fences_fenceUnits s 2 r.failed).trans (fences_fenceByLigature _)

/-- Stage 2 ends as on a power-on when no unit fails that was not fenced before. -/
theorem endStage2_eq {s : State} {r : BootReport} (h : s.col.lastReset = 0 ∨ ∀ c ∈ r.failed, unitCode c = true → isFenced s c = true) :
    endStage2 s r = reach (startPorts (mapCxl (stage2Fenced s r) r.cxlBytes)) 3 := by
  refine if_neg ?_
  rcases h with h | h
  · simp [warm_eq_false h]
  · have hb : (r.failed.any fun c => unitCode c && !s.col.fences.any fun p => p.1 = c) = false := by
      refine List.any_eq_false.2 fun c hc => ?_
      show ¬ (unitCode c && !isFenced s c) = true
      cases hu : unitCode c with
      | false => simp
      | true => simp [h c hc hu]
    rw [hb, Bool.and_false]
    exact Bool.false_ne_true

/-- What stage 2 leaves beside its ports and its links. -/
theorem endStage2_rest {s : State} {r : BootReport} (h : s.col.lastReset = 0 ∨ ∀ c ∈ r.failed, unitCode c = true → isFenced s c = true) :
    (let t := endStage2 s r
     let u := mapCxl (stage2Fenced s r) r.cxlBytes
     t.col.stage = 3 ∧ t.mem = s.mem ∧ t.col.fences = (stage2Fenced s r).col.fences ∧ t.ports = (startPorts u).ports ∧
     t.cxlUp = u.cxlUp ∧ t.cxlBytes = u.cxlBytes) := by
  rw [endStage2_eq h, reach_eq]
  refine ⟨rfl, ?_, ?_, rfl, rfl, rfl⟩
  · show (mapCxl (stage2Fenced s r) r.cxlBytes).mem = s.mem
    rw [mapCxl_eq, (fences_stage2Fenced s r).rest]
    rfl
  · show (mapCxl (stage2Fenced s r) r.cxlBytes).col.fences = _
    rw [mapCxl_eq]

/-- What stage 2 leaves: the fences, the CXL links that came up, and the ports (R29, R312, R344). -/
theorem endStage2_spec {s : State} {r : BootReport} (h : s.col.lastReset = 0 ∨ ∀ c ∈ r.failed, unitCode c = true → isFenced s c = true) :
    (let t := endStage2 s r
     t.col.stage = 3 ∧ t.mem = s.mem ∧ (∀ c ∈ r.failed, unitCode c = true → isFenced t c = true) ∧
     (∀ l n, l < 6 → r.cxlBytes.filter (fun p => p.1 = l) = [(l, n)] → s.col.rubric.roles.getD (28 + l) 0 = 3 →
       bltFenced t = false → engineFenced t (14 + l / 2) = false →
       l ∈ t.cxlUp ∧ sget 0 t.cxlBytes l = min (2 ^ 41) ((n / 2 ^ 28 - 1) * 2 ^ 28) ∧ (portOf t (28 + l)).st = .up) ∧
     ∀ p, p < 28 → (portOf t p).st =
       if s.col.rubric.roles.getD p 0 = 0 ∨ engineFenced t (p / 2) = true then .disabled else .signal) := by
  obtain ⟨hstage, hmem, hfences, hports, hup, hbytes⟩ := endStage2_rest h
  generalize endStage2 s r = t at hstage hmem hfences hports hup hbytes
  have hf := fences_stage2Fenced s r
  have hm := mapCxl_eq (stage2Fenced s r) r.cxlBytes
  have hroles : (stage2Fenced s r).col.rubric.roles = s.col.rubric.roles := by rw [hf.rest]; rfl
  have hmroles : (mapCxl (stage2Fenced s r) r.cxlBytes).col.rubric.roles = s.col.rubric.roles := by rw [hm]; exact hroles
  have hfm : (mapCxl (stage2Fenced s r) r.cxlBytes).col.fences = t.col.fences := by rw [hm]; exact hfences.symm
  have heng (e : Nat) : engineFenced (mapCxl (stage2Fenced s r) r.cxlBytes) e = engineFenced t e := by
    simp only [engineFenced, halfFenced, bltFenced, unitFenced, hfm]
  have hport {p : Nat} (hp : p < 34) := portOf_startPorts (mapCxl (stage2Fenced s r) r.cxlBytes) hp
  simp only [hmroles, heng, ← hup] at hport
  have hpt (p : Nat) : portOf t p = portOf (startPorts (mapCxl (stage2Fenced s r) r.cxlBytes)) p := by simp only [portOf, hports]
  refine ⟨hstage, hmem, fun c hc hu => ?_, fun l n hl hc hr hb he => ?_, fun p hp => ?_⟩
  · have hs : isFenced (stage2Fenced s r) c = true := (fences_fenceByLigature _).grows c (fenceUnits_fenced 2 hu r.failed s hc)
    simpa only [isFenced, hfences] using hs
  · have hb' : bltFenced (stage2Fenced s r) = false := by simpa only [bltFenced, unitFenced, hfences] using hb
    have he' : engineFenced (stage2Fenced s r) (14 + l / 2) = false := by
      simpa only [engineFenced, halfFenced, bltFenced, unitFenced, hfences] using he
    obtain ⟨hin, hget⟩ := mapCxl_link hl hc (by rw [hroles, hr]) hb' he'
    rw [← hup] at hin
    refine ⟨hin, by rw [hbytes, hget, usable_eq], ?_⟩
    rw [hpt, hport (by omega), hr, show (28 + l) / 2 = 14 + l / 2 by omega, he]
    simp [hin]
  · rw [hpt, hport (by omega)]
    simp [show ¬ 28 ≤ p by omega]

end Sys2Proof.Machine
end

section
/-! Boot stage 3: the host half, the boot area and the boot hart (R397, R399, R401). -/

namespace Sys2Proof.Machine
open Sys2Proof

/-! ### Writes to HBM before the domain runs -/

theorem bootWrite_memWf {s : State} (h : s.memWf) (a : Nat) (b : List Byte) : (bootWrite s a b).memWf := mputs_wf b a h

theorem bootWrite_holds {s : State} (h : s.memWf) (a : Nat) (b : List Byte) : Holds (bootWrite s a b) a b := by
  intro i hi
  rw [List.getD_eq_getElem?_getD, List.getElem?_eq_getElem hi]
  exact mget_mputs_in b a i h hi

theorem Holds.of_mem {s t : State} {a : Nat} {b : List Byte} (h : Holds s a b) (hm : t.mem = s.mem) : Holds t a b := fun i hi => by
  rw [State.byteAt, hm]
  exact h i hi

/-- A state and one after it that differs in memory and its symbol code alone. -/
def OnlyMemory (s t : State) : Prop := t = { s with mem := t.mem, ecc := t.ecc }

theorem OnlyMemory.trans {s t u : State} (h : OnlyMemory s t) (k : OnlyMemory t u) : OnlyMemory s u := by
  have hu := congrArg (fun x : State => { x with mem := u.mem, ecc := u.ecc }) h
  exact Eq.trans k hu

theorem onlyMemory_bootWrite (s : State) (a : Nat) (b : List Byte) : OnlyMemory s (bootWrite s a b) := rfl

theorem onlyMemory_writeBootArea (s : State) (img : List Byte) : OnlyMemory s (writeBootArea s img) := by
  unfold writeBootArea
  exact (((onlyMemory_bootWrite s _ _).trans (onlyMemory_bootWrite _ _ _)).trans (onlyMemory_bootWrite _ _ _)).trans (onlyMemory_bootWrite _ _ _)

theorem writeBootArea_holds {s : State} (h : s.memWf) (img : List Byte) :
    Holds (writeBootArea s img) (bootBase s + bget img 0x18 8) ((img.drop 1152).take (bget img 0x10 8)) := by
  unfold writeBootArea
  exact bootWrite_holds (bootWrite_memWf (bootWrite_memWf (bootWrite_memWf h _ _) _ _) _ _) _ _

/-! ### The firmware is loaded -/

/-- The server-core firmware of a slot is measured. -/
def firmwareMeasured (s : State) (k : Nat) (img : List Byte) : State :=
  let m := setMeas { s with col := { s.col with bootedScfw := k } } 2 (sha256 img)
  { m with col := { m.col with service := serviceLevel m } }

/-- The server-core firmware of a slot is measured and loaded, and stage 4 is reached. -/
def firmwareLoaded (s : State) (k : Nat) (img : List Byte) : State := reach (writeBootArea (firmwareMeasured s k img) img) 4

section
variable (s : State) (k : Nat) (img : List Byte)

/-- What loading the firmware leaves beside memory and the Colophon's own record of it. -/
theorem firmwareLoaded_eq : firmwareLoaded s k img = { s with
    mem := (firmwareLoaded s k img).mem, ecc := (firmwareLoaded s k img).ecc
    col := { s.col with
      stage := 4, bootedScfw := k, meas := (firmwareLoaded s k img).col.meas, service := (firmwareLoaded s k img).col.service
      log := (firmwareLoaded s k img).col.log, logNext := (firmwareLoaded s k img).col.logNext } } := by
  have hm := onlyMemory_writeBootArea (firmwareMeasured s k img) img
  rw [firmwareLoaded, reach_eq]
  generalize writeBootArea (firmwareMeasured s k img) img = t at hm
  rw [hm]
  rfl

theorem firmwareLoaded_meas : (firmwareLoaded s k img).col.meas.getD 1 [] = sha256 img := by
  have hm := onlyMemory_writeBootArea (firmwareMeasured s k img) img
  rw [firmwareLoaded, reach_eq, hm]
  exact getD_setMeas _ _ _ (by decide)

theorem firmwareLoaded_holds (h : s.memWf) :
    Holds (firmwareLoaded s k img) (bootBase s + bget img 0x18 8) ((img.drop 1152).take (bget img 0x10 8)) := by
  have hb : bootBase (firmwareMeasured s k img) = bootBase s := rfl
  have hm : (firmwareLoaded s k img).mem = (writeBootArea (firmwareMeasured s k img) img).mem := by rw [firmwareLoaded, reach_eq]
  have hw : (firmwareMeasured s k img).memWf := h
  have hl := writeBootArea_holds hw img
  rw [hb] at hl
  exact hl.of_mem hm

end

/-! ### The domain starts -/

theorem sget_map_halves {α : Type} {d v : α} {g : Half} : ∀ {hs : List Half}, g ∈ hs → sget d (hs.map fun h => (h.val, v)) g.val = v
  | [], h => by cases h
  | h' :: hs, h => by
    by_cases he : h'.val = g.val
    · simp [sget, he]
    · rcases List.mem_cons.1 h with rfl | h
      · exact absurd rfl he
      · simpa [sget, he] using sget_map_halves h

theorem startDomain_live {s : State} {g : Half} (h : halfFenced s g = false) (entry : Nat) :
    (let t := startDomain s entry
     (scbOf t g).run = .running ∧ (srpOf t g).run = .running ∧ (feedOf t g).run = .running) := by
  have hg : g ∈ ([0, 1] : List Half).filter fun h => !halfFenced s h := by
    have hall : ∀ g : Half, g ∈ ([0, 1] : List Half) := by decide
    exact List.mem_filter.2 ⟨hall g, by simp [h]⟩
  exact ⟨congrArg Scb.run (sget_map_halves (d := (⟨.off, []⟩ : Scb)) hg), congrArg Srp.run (sget_map_halves (d := (⟨.off⟩ : Srp)) hg),
    congrArg Feed.run (sget_map_halves (d := feedReset) hg)⟩

/-- The boot hart is the first core of the host half's first live cluster (R401). -/
theorem startDomain_core {s : State} {h : Half} {j : Nat} (hh : s.col.hostHalf = some h) (hj : j < 6) (hc : clusterFenced s h j = false)
    (hf : ∀ i, i < j → clusterFenced s h i = true) (entry : Nat) :
    coreOf (startDomain s entry) (48 * h.val + 8 * j) = { coreReset with
      running := true, machine := true, pc := BitVec.ofNat 64 (2 ^ 40 * h.val + entry), a0 := BitVec.ofNat 64 (48 * h.val + 8 * j)
      a1 := BitVec.ofNat 64 (2 ^ 40 * h.val) } := by
  have hk : (List.range 6).find? (fun k => !clusterFenced s h k) = some j :=
    List.find?_range_eq_some.2 ⟨by simp [hc], List.mem_range.2 hj, fun i hi => by simp [hf i hi]⟩
  have hb : bootBase s = 2 ^ 40 * h.val := by simp only [bootBase, hh, Option.getD_some]
  simp only [coreOf, startDomain, hh, Option.getD_some, hk, sget_sset_same, coreStart, hb]

/-! ### Stage 3 -/

/-- A state whose host half is chosen. -/
def withHost (s : State) (h : Half) : State := { s with col := { s.col with hostHalf := some h } }

section
variable {s : State}

theorem endStage3_incapable (h0 : hostCapable s 0 = false) (h1 : hostCapable s 1 = false) : endStage3 s = toManagement s 4 := by
  unfold endStage3
  rw [h0, h1]
  rfl

variable {h : Half} (hh : h = if hostCapable s 0 then 0 else 1) (hc : hostCapable s h = true) (hw : s.col.lastReset = 0)
include hh hc hw

/-- A half that can host takes the firmware of the slot that is selected. -/
theorem endStage3_eq : endStage3 s =
    (match chooseSlot (withHost s h) 1 with
     | (t, none) => toManagement t 6
     | (t, some k) => startDomain (firmwareLoaded t k (slotImage t 1 k)) (bget (slotImage t 1 k) 0x20 8)) := by
  have hcap : (!hostCapable s 0 && !hostCapable s 1) = false := by
    cases h0 : hostCapable s 0 with
    | true => rfl
    | false =>
      rw [h0] at hh
      rw [hh] at hc
      exact congrArg (fun b => true && !b) hc
  have hwarm : warm (withHost s h) = false := warm_eq_false hw
  unfold endStage3
  rw [hcap, ← hh]
  simp only [Bool.false_eq_true, if_false]
  rw [← withHost, hwarm]
  simp only [Bool.false_eq_true, if_false]
  rcases hs : chooseSlot (withHost s h) 1 with ⟨t, _ | k⟩
  · rfl
  · have ht : warm { t with col := { t.col with bootedScfw := k } } = false := by
      refine warm_eq_false ?_
      have hp := (chooseSlot_spec hs).1
      rw [hp.rest]
      exact hw
    simp only [ht, Bool.false_eq_true, if_false]
    rfl

end

end Sys2Proof.Machine
end

section
/-! Package reset, the watchdog of the ROM and the start of a core (R395, R433, R435, R440 to R445, R459). -/

namespace Sys2Proof.Machine
open Sys2Proof

/-! ### The ROM starts -/

theorem romStart_eq (s : State) : romStart s = { s with
    flash := s.flash.put fun r => { r with cycles := r.cycles + 1 }
    col := { s.col with
      stage := 0, recovery := false, bootFailed := false, started := false
      log := (romStart s).col.log, logNext := (romStart s).col.logNext } } := by
  rw [romStart, reach_eq]

theorem romStart_cycles (s : State) : (romStart s).flash.cycles = s.flash.cycles + 1 := by
  rw [romStart_eq]
  exact cycles_put _ _

theorem romStart_slots (s : State) : (romStart s).flash.slots = s.flash.slots := by
  rw [romStart_eq]
  exact slots_put _ _

/-- Without a start mark the slot is INVALID, and the ROM starts from the first step of the rails (R395). -/
theorem startWatchdog_cold {s : State} (hb : booting s = true) (hs : s.col.stage = 1 ∨ s.col.stage = 2) (hm : s.col.started = false)
    (hw : s.col.lastReset = 0) :
    (let t := startWatchdog s
     t.col.stage = 0 ∧ slotSt t.flash 0 s.col.bootedCol = .invalid ∧ t.flash.cycles = s.flash.cycles + 1 ∧ t.power.rails = [150, 151] ∧
     t.mem = s.mem) := by
  have hwarm : warm (romStart (setSlot s 0 s.col.bootedCol .invalid)) = false := by
    rw [romStart_eq]
    exact warm_eq_false hw
  have he : startWatchdog s = { romStart (setSlot s 0 s.col.bootedCol .invalid) with
      col := { (romStart (setSlot s 0 s.col.bootedCol .invalid)).col with reselect := true }
      power := { (romStart (setSlot s 0 s.col.bootedCol .invalid)).power with step := 0, rails := colRails } } := by
    unfold startWatchdog
    rw [if_neg (by rcases hs with h | h <;> simp [hb, h, hm])]
    simp only [hwarm, Bool.false_eq_true, if_false]
  rw [he]
  refine ⟨?_, ?_, ?_, rfl, ?_⟩
  · rw [romStart_eq]
  · have hslot := slotSt_setSlot s 0 s.col.bootedCol 0 s.col.bootedCol .invalid
    simp only [slotSt, romStart_slots] at hslot ⊢
    rw [hslot, if_pos trivial]
  · show (romStart _).flash.cycles = _
    rw [romStart_cycles, setSlot, cycles_put]
    rfl
  · rw [romStart_eq]
    rfl

/-! ### The units stop before a reset -/

theorem calmReg_survives {a : Nat} (h : survives a = true) : calmReg a = true := by simp [calmReg, h]

/-- What a package reset keeps is not touched while units stop: memory, the flash die but for the slot of an update whose
image is still being read, and the Colophon's record of the boot. -/
structure Stops (s t : State) : Prop where
  pending : t.pending = s.pending
  tick : t.tick = s.tick
  mem : t.mem = s.mem
  power : t.power = s.power
  col : t.col.fences = s.col.fences ∧ t.col.rubric = s.col.rubric ∧ t.col.meas = s.col.meas ∧ (s.col.updImage = none → t.col.updImage = none)
  flash : s.col.updImage = none → t.flash = s.flash
  cycles : t.flash.cycles = s.flash.cycles
  svn : t.flash.svn = s.flash.svn
  log : t.flash.log = s.flash.log
  resEcc : s.resEcc = [] → t.resEcc = []
  calm : ∀ a, calmReg a = true → regWord t a = regWord s a

theorem Stops.refl (s : State) : Stops s s := ⟨rfl, rfl, rfl, rfl, ⟨rfl, rfl, rfl, id⟩, fun _ => rfl, rfl, rfl, rfl, id, fun _ _ => rfl⟩

theorem Stops.trans {s t u : State} (h : Stops s t) (k : Stops t u) : Stops s u where
  pending := k.pending.trans h.pending
  tick := k.tick.trans h.tick
  mem := k.mem.trans h.mem
  power := k.power.trans h.power
  col := by
    obtain ⟨hf, hr, hm, hi⟩ := h.col
    obtain ⟨kf, kr, km, ki⟩ := k.col
    exact ⟨kf.trans hf, kr.trans hr, km.trans hm, fun x => ki (hi x)⟩
  flash x := (k.flash (h.col.2.2.2 x)).trans (h.flash x)
  cycles := k.cycles.trans h.cycles
  svn := k.svn.trans h.svn
  log := k.log.trans h.log
  resEcc x := k.resEcc (h.resEcc x)
  calm a ha := (k.calm a ha).trans (h.calm a ha)

/-- Packets that leave change nothing that a reset keeps. -/
theorem Emits.stops {s t : State} (h : Emits s t) : Stops s t := by
  have hc := h.calm
  have hr := h.rest
  constructor
  case calm => exact hc
  all_goals rw [hr]
  case col => exact ⟨rfl, rfl, rfl, id⟩
  case flash => exact fun _ => rfl
  case resEcc => exact id
  all_goals rfl

theorem stops_updCut (s : State) : Stops s (updCut s) := by
  by_cases h : (decide (s.col.upd = .busy) && s.col.updImage.isSome) = true
  · have hi : s.col.updImage ≠ none := by
      intro hn
      simp [hn] at h
    unfold updCut
    rw [if_pos h]
    dsimp only
    split
    · exact ⟨rfl, rfl, rfl, rfl, ⟨rfl, rfl, rfl, fun _ => rfl⟩, fun hn => absurd hn hi, cycles_put _ _, put_svn _ _, put_log _ _, id, fun _ _ => rfl⟩
    · exact ⟨rfl, rfl, rfl, rfl, ⟨rfl, rfl, rfl, id⟩, fun _ => rfl, rfl, rfl, rfl, id, fun _ _ => rfl⟩
  · rw [updCut, if_neg h]
    exact .refl s

theorem hbmWrite_mem (s : State) (l : Nat) : (hbmWrite s l).mem = s.mem ∧ (hbmWrite s l).resEcc = s.resEcc := by
  unfold hbmWrite injectOn
  dsimp only
  split
  · exact ⟨rfl, rfl⟩
  · exact ⟨rfl, rfl⟩

/-- A line leaves a Reservoir without errors, and memory stays. -/
theorem resEvict_mem {s : State} (h : s.resEcc = []) (l : Nat) : (resEvict s l).mem = s.mem ∧ (resEvict s l).resEcc = [] := by
  have hr : resRead s l = s := by simp [resRead, lineResEcc, h]
  unfold resEvict
  dsimp only
  rw [hr, ite_self]
  split
  · rw [(hbmWrite_mem _ l).1, (hbmWrite_mem _ l).2]
    simp [h]
  · simp [h]

theorem stops_resEvict {s : State} (h : s.resEcc = []) (l : Nat) : Stops s (resEvict s l) := by
  obtain ⟨hm, he⟩ := resEvict_mem h l
  have ha := accesses_resEvict s l
  have hc := ha.calm
  have hr := ha.rest
  constructor
  case mem => exact hm
  case resEcc => exact fun _ => he
  case calm => exact hc
  all_goals rw [hr]
  case col => exact ⟨rfl, rfl, rfl, id⟩
  case flash => exact fun _ => rfl
  all_goals rfl

theorem stops_resEvicts (l : List (Nat × Bool)) : ∀ {s : State}, s.resEcc = [] → Stops s (l.foldl (fun s p => resEvict s p.1) s) := by
  induction l with
  | nil => exact fun _ => .refl _
  | cons p t ih => exact fun h => (stops_resEvict h p.1).trans (ih (resEvict_mem h p.1).2)

/-- The units stop and peers are told (R442). -/
def unitsStopped (s : State) : State := if alive s then updCut (sendDowns (bltCut s)) else s

theorem stops_unitsStopped {s : State} (h : alive s = true → s.noStream) : Stops s (unitsStopped s) := by
  unfold unitsStopped
  split
  · rename_i ha
    rw [bltCut_of_noStream s (h ha)]
    exact (emits_sendDowns s).stops.trans (stops_updCut _)
  · exact .refl s

/-! ### Package reset -/

/-- The Reservoirs give up their lines (R442). -/
def resEmptied (s : State) : State := s.res.foldl (fun s p => resEvict s p.1) s

/-- The part right after its reset, before the ROM starts (R443). -/
def afterReset (s : State) (why : BitVec 2) : State :=
  let kept (l : List Nat) : List Nat := l.filter fun k => k * 65536 = Frame.id.base || k * 65536 = Frame.col.base
  { State.reset with
    pending := s.pending, tick := s.tick, free := s.free, flash := s.flash, sent := s.sent, mem := s.mem, ecc := s.ecc
    power := { s.power with step := 2, rails := retained s.power.rails }
    col := coloReset s.col why
    regs := s.regs.filter fun p => survives p.1
    act := s.act.filter fun p => survives p.1
    frames := {
      lock := kept s.frames.lock, latches := s.frames.latches.filter fun p => survives (p.1 / 96 * 65536)
      posted := [], wdrop := kept s.frames.wdrop, gviol := kept s.frames.gviol } }

theorem packageReset_eq (s : State) (why : BitVec 2) : packageReset s why = romStart (afterReset (resEmptied (unitsStopped s)) why) := rfl

theorem stops_resEmptied {s : State} (h : alive s = true → s.noStream) (he : s.resEcc = []) : Stops s (resEmptied (unitsStopped s)) := by
  have hu := stops_unitsStopped h
  exact hu.trans (stops_resEvicts _ (hu.resEcc he))

theorem regWord_afterReset (s : State) (why : BitVec 2) (a : Nat) :
    regWord (afterReset s why) a = if survives a = true then regWord s a else regReset a :=
  sget_filter (regReset a) survives s.regs a

/-- What a package reset for reason `why` keeps and what it resets (R442, R443, R459). -/
def ResetTo (s t : State) (why : BitVec 2) : Prop :=
  t.pending = s.pending ∧ t.mem = s.mem ∧ t.tick = s.tick ∧ (s.col.updImage = none → t.flash = s.flash.put fun r => { r with cycles := r.cycles + 1 }) ∧
  t.flash.cycles = s.flash.cycles + 1 ∧ t.flash.svn = s.flash.svn ∧ t.flash.log = s.flash.log ∧ t.col.fences = s.col.fences ∧ t.col.rubric = s.col.rubric ∧ t.col.meas = s.col.meas ∧ t.col.lastReset = why ∧ t.col.stage = 0 ∧
  t.coh = State.reset.coh ∧ t.cores = [] ∧ t.queues = [] ∧ t.cqs = [] ∧ t.inks = [] ∧ t.nibs = [] ∧ t.ctxs = [] ∧ t.drv = State.reset.drv ∧
  (∀ a, regWord t a = if survives a then regWord s a else regReset a) ∧ ∀ r ∈ t.power.rails, r ∈ s.power.rails ∧ (r % 10 = 3 ∨ r % 10 = 5 ∨ 150 ≤ r)

theorem packageReset_resetTo {s : State} (h : alive s = true → s.noStream) (he : s.resEcc = []) (why : BitVec 2) :
    ResetTo s (packageReset s why) why := by
  have hs := stops_resEmptied h he
  rw [packageReset_eq]
  generalize resEmptied (unitsStopped s) = u at hs
  obtain ⟨fences, rubric, meas, -⟩ := hs.col
  have hcycles := romStart_cycles (afterReset u why)
  have hflash : (romStart (afterReset u why)).flash = u.flash.put fun r => { r with cycles := r.cycles + 1 } := by rw [romStart_eq]; rfl
  have hregs (a : Nat) : regWord (romStart (afterReset u why)) a = regWord (afterReset u why) a := by rw [romStart_eq]; rfl
  refine ⟨?_, ?_, ?_, ?_, ?_, ?_, ?_, ?_, ?_, ?_, ?_, ?_, ?_, ?_, ?_, ?_, ?_, ?_, ?_, ?_, ?regs, ?rails⟩
  · rw [romStart_eq]; exact hs.pending
  · rw [romStart_eq]; exact hs.mem
  · rw [romStart_eq]; exact hs.tick
  · intro hi; rw [hflash, hs.flash hi]
  · rw [hcycles]; exact congrArg (· + 1) hs.cycles
  · rw [hflash, put_svn, hs.svn]
  · rw [hflash, put_log, hs.log]
  · rw [romStart_eq]; exact fences
  · rw [romStart_eq]; exact rubric
  · rw [romStart_eq]; exact meas
  case regs =>
    intro a
    rw [hregs, regWord_afterReset]
    by_cases ha : survives a = true
    · rw [if_pos ha, if_pos ha, hs.calm a (calmReg_survives ha)]
    · rw [if_neg ha, if_neg ha]
  case rails =>
    intro r hr
    rw [romStart_eq] at hr
    have hm := List.mem_filter.1 (show r ∈ retained u.power.rails from hr)
    rw [hs.power] at hm
    simpa [or_assoc] using hm
  all_goals rw [romStart_eq]
  all_goals rfl

/-! ### Registers that act (R433, R435, R440, R444, R445) -/

theorem postedOp_idle {s : State} {f : Frame} (h : frameBusy s f = false) (g : State → State) : postedOp s f g = g (s.taken f) := by
  rw [postedOp, h]
  rfl

theorem guardOp_unlocked {s : State} {f : Frame} (h : s.frames.lock.contains (frameKey f) = true) (g : State → State) :
    guardOp s f g = g { s with frames := { s.frames with lock := s.frames.lock.filter fun k => k ≠ frameKey f } } := if_pos h

theorem guardOp_locked {s : State} {f : Frame} (h : s.frames.lock.contains (frameKey f) = false) (g : State → State) :
    guardOp s f g = { s with frames := { s.frames with gviol := ninsert s.frames.gviol (frameKey f) } } :=
  if_neg (by rw [h]; exact Bool.false_ne_true)

theorem packageReset_guarded {s : State} (hb : frameBusy s .id = false) (hl : s.frames.lock.contains (frameKey .id) = true)
    (hr : canReset s = true) (hn : s.noStream) (he : s.resEcc = []) : ∃ t, exec .packageReset s = .next t ∧ ResetTo s t 1 := by
  let u : State := { s.taken .id with frames := { (s.taken .id).frames with lock := (s.taken .id).frames.lock.filter fun k => k ≠ frameKey .id } }
  have hx : exec .packageReset s = .next (packageReset u 1) := by
    have hu : canReset u = true := hr
    show Host.Outcome.next _ = _
    rw [postedOp_idle hb, guardOp_unlocked (s := s.taken .id) hl]
    exact congrArg Host.Outcome.next (if_pos hu)
  exact ⟨_, hx, packageReset_resetTo (s := u) (fun _ => hn) he 1⟩

theorem mem_ninsert_self (l : List Nat) (k : Nat) : (ninsert l k).contains k = true := by
  simpa using (mem_ninsert (l := l) (k := k) (j := k)).2 (.inl rfl)

theorem packageReset_refused {s : State} (hb : frameBusy s .id = false) (hl : s.frames.lock.contains (frameKey .id) = false) :
    ∃ t, exec .packageReset s = .next t ∧ t = { s with frames := t.frames } ∧ t.frames.gviol.contains (frameKey .id) = true := by
  have hx : exec .packageReset s = .next { s.taken .id with
      frames := { (s.taken .id).frames with gviol := ninsert (s.taken .id).frames.gviol (frameKey .id) } } := by
    show Host.Outcome.next _ = _
    rw [postedOp_idle hb, guardOp_locked (s := s.taken .id) hl]
  exact ⟨_, hx, rfl, mem_ninsert_self _ _⟩

theorem downAutoReset_due {s : State} (hr : canReset s = true) (hd : s.coh.down = true)
    (ha : bitAt (regWord s (Frame.id.base + 0x124)) 0 = true) (h : s.coh.downTick + downDelay s * 1000000 ≤ s.tick.toNat) (he : s.resEcc = []) :
    ∃ t, exec .downAutoReset s = .next t ∧ ResetTo s t 2 := by
  have hx : exec .downAutoReset s = .next (packageReset s 2) := by
    show Host.Outcome.next _ = _
    rw [hr, hd, ha, decide_eq_true h]
    rfl
  have hdead : alive s = false := by simp [alive, hd]
  exact ⟨_, hx, packageReset_resetTo (fun h => by simp [hdead] at h) he 2⟩

theorem downAutoReset_early {s : State} (h : s.tick.toNat < s.coh.downTick + downDelay s * 1000000) : exec .downAutoReset s = .next s := by
  show Host.Outcome.next _ = _
  rw [decide_eq_false (Nat.not_le.2 h), Bool.and_false]
  rfl

/-- The address at which CORE_CTL.RUN starts a core. -/
def coreEntry (s : State) (c : CoreId) : BitVec 64 := BitVec.ofNat 64 (regWord64 s (Frame.id.base + 0x200 + 16 * c.num))

theorem coreRun_of_held {s : State} {c : CoreId} (h4 : 4 ≤ s.col.stage) (hf : s.col.bootFailed = false)
    (ho : s.power.off = false) (hc : clusterFenced s c.h (c.c.val / 8) = false) (hr : (coreOf s c.num).running = false) :
    coreRun s c = { s with cores := sset s.cores c.num (coreStart s c.num (coreEntry s c)) } := by
  have h4' : decide (s.col.stage < 4) = false := decide_eq_false (by omega)
  refine if_neg ?_
  rw [h4', hf, ho, hc, show (sget coreReset s.cores c.num).running = false from hr]
  decide

theorem coreRun_of_running {s : State} {c : CoreId} (hr : (coreOf s c.num).running = true) : coreRun s c = s := by
  refine if_pos ?_
  rw [show (sget coreReset s.cores c.num).running = true from hr, Bool.or_true]

theorem exec_coreRun {s : State} (hb : frameBusy s .id = false) (c : CoreId) : exec (.coreRun c) s = .next (coreRun (s.taken .id) c) :=
  congrArg Host.Outcome.next (postedOp_idle hb fun s => coreRun s c)

/-- CORE_CTL.RUN starts a held core at its own entry. -/
theorem coreRun_held {s : State} {c : CoreId} (hb : frameBusy s .id = false) (h4 : 4 ≤ s.col.stage) (hf : s.col.bootFailed = false)
    (ho : s.power.off = false) (hc : clusterFenced s c.h (c.c.val / 8) = false) (hr : (coreOf s c.num).running = false) :
    exec (.coreRun c) s = .next { s.taken .id with cores := sset s.cores c.num (coreStart s c.num (coreEntry s c)) } := by
  rw [exec_coreRun hb, coreRun_of_held (s := s.taken .id) h4 hf ho hc hr]
  rfl

theorem coreRun_running {s : State} {c : CoreId} (hb : frameBusy s .id = false) (hr : (coreOf s c.num).running = true) :
    exec (.coreRun c) s = .next (s.taken .id) := by
  rw [exec_coreRun hb, coreRun_of_running (s := s.taken .id) hr]

end Sys2Proof.Machine
end

section
/-! The stages of boot, one lemma for each sentence of the statement, and the statement itself. -/

namespace Sys2Proof.Machine
open Sys2Proof

/-! ### Which end a stage has (R395) -/

section
variable {s t : State} {r : BootReport}

theorem exec_bootStageAdvance (h : stageAdvance s r = t) : exec (.bootStageAdvance r) s = .next t := congrArg Host.Outcome.next h
theorem exec_stageTimeout (h : stageTimeout s r = t) : exec (.stageTimeout r) s = .next t := congrArg Host.Outcome.next h

variable (hb : booting s = true)
include hb

theorem stageAdvance_stage0 (h : s.col.stage = 0) : stageAdvance s r = endStage0 s := by simp [stageAdvance, hb, h]
theorem stageAdvance_stage1 (h : s.col.stage = 1) (h9 : 9 ≤ s.power.step) : stageAdvance s r = endStage1 (startMark s) r.failed := by
  simp [stageAdvance, hb, h, Nat.not_lt.2 h9]
theorem stageAdvance_stage2 (h : s.col.stage = 2) : stageAdvance s r = endStage2 (startMark s) r := by simp [stageAdvance, hb, h]
theorem stageAdvance_stage3 (h : s.col.stage = 3) : stageAdvance s r = endStage3 s := by simp [stageAdvance, hb, h]
theorem stageAdvance_stage4 (h : s.col.stage = 4) : stageAdvance s r = reach s 5 := by simp [stageAdvance, hb, h]

/-- Below 44 V stage 1 stops at its first step, and boot ends at management service. -/
theorem stageTimeout_management (h : s.col.stage = 1) (hp : s.power.step = if warm s then 2 else 0) : stageTimeout s r = toManagement s 7 := by
  simp [stageTimeout, hb, h, ← hp]

theorem stageTimeout_stage1 (h : s.col.stage = 1) (hp : s.power.step ≠ if warm s then 2 else 0) :
    stageTimeout s r = endStage1 { bootLog s 1 with power := { (bootLog s 1).power with step := 9 } } r.failed := by
  have hl : (bootLog s 1).col.stage = 1 := by rw [bootLog_eq]; exact h
  simp [stageTimeout, hb, h, hp, hl]

theorem stageTimeout_stage2 (h : s.col.stage = 2) : stageTimeout s r = endStage2 (bootLog s 1) r := by
  have hl : (bootLog s 1).col.stage = 2 := by rw [bootLog_eq]; exact h
  simp [stageTimeout, hb, h, hl]

end

/-! ### Which slot stage 0 boots (R395, R396) -/

/-- What stage 0 leaves of a slot when it boots one. -/
def Boots (t : State) (booted k : Nat) (v : SlotSt) : Prop := t.col.stage = 1 ∧ t.col.bootedCol = booted ∧ slotSt t.flash 0 k = v

section
variable {s u : State} {k : Nat} (hw : s.col.lastReset = 0) (hk : k < 2)
include hw hk

theorem endStage0_boots {j : Nat} (h : chooseSlot s 0 = (u, some j)) : Boots (endStage0 s) j k (slotSt u.flash 0 k) := by
  obtain ⟨-, hstage, hbooted, -, hslots, -⟩ := endStage0_some hw h
  exact ⟨hstage, hbooted, hslots k hk⟩

theorem endStage0_boots_active (h : slotSt s.flash 0 k = .active) (ho : slotSt s.flash 0 (1 - k) ∈ [SlotSt.invalid, .fallback, .pending 0])
    (hg : compCheck s 0 (slotImage s 0 k) = 0) : Boots (endStage0 s) k k .active := by
  have hv : slotSt (dropped s 0).flash 0 k = .active := by rw [slotSt_dropped s 0 hk, h]; rfl
  exact hv ▸ endStage0_boots hw hk (chooseSlot_of_good (pickSlot_active hk h ho) hg)

theorem endStage0_boots_pending {n : Nat} (h : slotSt s.flash 0 k = .pending (n + 1))
    (ho : slotSt s.flash 0 (1 - k) ∈ [SlotSt.active, .invalid, .fallback]) (hg : compCheck s 0 (slotImage s 0 k) = 0) :
    Boots (endStage0 s) k k (.pending n) := by
  have hv : slotSt (setSlot (dropped s 0) 0 k (.pending n)).flash 0 k = .pending n := by rw [slotSt_setSlot, if_pos rfl]
  exact hv ▸ endStage0_boots hw hk (chooseSlot_of_good (pickSlot_pending hk h ho) hg)

theorem endStage0_boots_other (h : slotSt s.flash 0 k = .active) (ho : slotSt s.flash 0 (1 - k) = .fallback)
    (hb : compCheck s 0 (slotImage s 0 k) ≠ 0) (hg : compCheck s 0 (slotImage s 0 (1 - k)) = 0) :
    Boots (endStage0 s) (1 - k) k .invalid := by
  have hp : pickSlot s 0 = (dropped s 0, some k) := pickSlot_active hk h (by simp [ho])
  have hf : slotSt (dropped s 0).flash 0 (1 - k) ≠ .invalid := by rw [slotSt_dropped s 0 (by omega), ho]; decide
  have hv : slotSt (rejectSlot (dropped s 0) 0 k (compCheck s 0 (slotImage s 0 k))).flash 0 k = .invalid := by
    rw [rejectSlot, slotSt_setSlot, if_pos rfl]
  exact hv ▸ endStage0_boots hw hk (chooseSlot_of_bad hp hb hf hg)

end

/-! ### Stage 3 (R397, R399, R401) -/

section
variable {s : State} {h : Half} {j : Nat}

/-- What selecting a slot and loading its firmware leave of a state that has chosen its host half. -/
theorem firmwareLoaded_keeps {u : State} (hp : Picks 1 (withHost s h) u) (k : Nat) (img : List Byte) :
    (let t := firmwareLoaded u k img
     t.col.fences = s.col.fences ∧ t.col.hostHalf = some h ∧ t.col.stage = 4 ∧ t.col.bootedScfw = k) := by
  rw [firmwareLoaded_eq, hp.rest]
  exact ⟨rfl, rfl, rfl, rfl⟩

theorem halfFenced_congr {t : State} (hf : t.col.fences = s.col.fences) (g : Half) : halfFenced t g = halfFenced s g := by
  simp only [halfFenced, unitFenced, hf]

theorem bltFenced_congr {t : State} (hf : t.col.fences = s.col.fences) : bltFenced t = bltFenced s := by
  simp only [bltFenced, unitFenced, hf]

theorem clusterFenced_congr {t : State} (hf : t.col.fences = s.col.fences) (g : Half) (i : Nat) : clusterFenced t g i = clusterFenced s g i := by
  simp only [clusterFenced, halfFenced, unitFenced, hf]

/-- A half that can host and a good firmware slot start the domain, its units and the boot hart. -/
theorem endStage3_starts (hh : h = if hostCapable s 0 then 0 else 1) (hc : hostCapable s h = true) (hw : s.col.lastReset = 0) (hm : s.memWf)
    (hj : j < 6) (hcl : clusterFenced s h j = false) (hfirst : ∀ i, i < j → clusterFenced s h i = true) {u : State} {k : Nat}
    (hs : chooseSlot (withHost s h) 1 = (u, some k)) :
    (let t := endStage3 s
     let img := slotImage s 1 k
     t.col.stage = 4 ∧ t.col.hostHalf = some h ∧ t.col.bootedScfw = k ∧
     t.col.meas.getD 1 [] = sha256 img ∧ t.coh.running = true ∧ t.coh.down = false ∧
     coreOf t (48 * h.val + 8 * j) = { coreReset with
       running := true, machine := true, pc := BitVec.ofNat 64 (2 ^ 40 * h.val + bget img 0x20 8), a0 := BitVec.ofNat 64 (48 * h.val + 8 * j),
       a1 := BitVec.ofNat 64 (2 ^ 40 * h.val) } ∧
     Holds t (2 ^ 40 * h.val + bget img 0x18 8) ((img.drop 1152).take (bget img 0x10 8)) ∧
     (∀ g : Half, halfFenced s g = false → (scbOf t g).run = .running ∧ (srpOf t g).run = .running ∧ (feedOf t g).run = .running) ∧
     t.blt = if bltFenced s then .off else .running) := by
  have hp := (chooseSlot_spec hs).1
  have himg : slotImage u 1 k = slotImage s 1 k := hp.slotImage 1 k
  have hum : u.memWf := by rw [State.memWf, hp.rest]; exact hm
  have hbase : bootBase u = 2 ^ 40 * h.val := by rw [bootBase, hp.rest]; rfl
  rw [endStage3_eq hh hc hw, hs]
  simp only [himg]
  obtain ⟨hfences, hhost, hstage, hscfw⟩ := firmwareLoaded_keeps hp k (slotImage s 1 k)
  have hmeas := firmwareLoaded_meas u k (slotImage s 1 k)
  have hholds := firmwareLoaded_holds u k (slotImage s 1 k) hum
  rw [hbase] at hholds
  generalize firmwareLoaded u k (slotImage s 1 k) = v at hfences hhost hstage hscfw hmeas hholds
  refine ⟨hstage, hhost, hscfw, hmeas, rfl, rfl, ?hart, hholds.of_mem rfl, fun g hg => ?units, ?blt⟩
  case hart =>
    exact startDomain_core hhost hj (by rw [clusterFenced_congr hfences, hcl]) (fun i hi => by rw [clusterFenced_congr hfences, hfirst i hi]) _
  case units => exact startDomain_live (by rw [halfFenced_congr hfences, hg]) _
  case blt => rw [← bltFenced_congr hfences]; rfl

/-- No slot holds a firmware that passes. -/
theorem endStage3_no_firmware (hh : h = if hostCapable s 0 then 0 else 1) (hc : hostCapable s h = true) (hw : s.col.lastReset = 0) {u : State}
    (hs : chooseSlot (withHost s h) 1 = (u, none)) : AtManagement (endStage3 s) ∧ (endStage3 s).mem = s.mem := by
  rw [endStage3_eq hh hc hw, hs]
  dsimp only
  refine ⟨toManagement_atManagement u 6, ?_⟩
  rw [toManagement_eq, (chooseSlot_spec hs).1.rest]
  rfl

end

/-! ### A stage overruns its limit (R397) -/

/-- Every stage before the last fences what is not up and goes on. -/
theorem stageTimeout_fences {s : State} {r : BootReport} (hb : booting s = true) (hw : s.col.lastReset = 0)
    (h : (s.col.stage = 1 ∧ s.power.step ≠ 0) ∨ s.col.stage = 2) :
    (stageTimeout s r).col.stage = s.col.stage + 1 ∧ ∀ c ∈ r.failed, unitCode c = true → isFenced (stageTimeout s r) c = true := by
  have hl : (bootLog s 1).col.lastReset = 0 := by rw [bootLog_eq]; exact hw
  rcases h with ⟨h1, hp⟩ | h2
  · have hp' : s.power.step ≠ if warm s then 2 else 0 := by rwa [warm_eq_false hw, if_neg Bool.false_ne_true]
    rw [stageTimeout_stage1 hb h1 hp', h1]
    obtain ⟨hstage, -, hfenced, -⟩ := endStage1_cold
      (s := { bootLog s 1 with power := { (bootLog s 1).power with step := 9 } }) (failed := r.failed) hl
    exact ⟨hstage, hfenced⟩
  · rw [stageTimeout_stage2 hb h2, h2]
    obtain ⟨hstage, -, hfenced, -⟩ := endStage2_spec (s := bootLog s 1) (r := r) (.inl hl)
    exact ⟨hstage, hfenced⟩

/-! ### The statement -/

/-- Settles O55: each stage and each reset by its own lemma; which slot is booted is the selection's, and what a reset keeps is what no
unit touches while it stops. -/
theorem bootSelectsFencesAndStarts : Obligations.BootSelectsFencesAndStarts := by
  unfold Obligations.BootSelectsFencesAndStarts
  refine ⟨fun s r hb => ⟨fun h0 hw => ⟨?select, fun k hk => ⟨?active, ?pending, ?other⟩, ?recovery⟩, ?stage1, ?stage2,
    fun h3 => ⟨?incapable, ?starts⟩, ?stage4, ?warmTimeout, fun hw => ⟨?coldTimeout, ?overrun⟩, ?watchdog⟩,
    fun s => ⟨⟨?guarded, ?refused, fun hr hd ha => ⟨?due, ?early⟩⟩, fun c hf => ⟨?held, ?running⟩⟩⟩
  case select =>
    refine ⟨_, exec_bootStageAdvance (stageAdvance_stage0 hb h0), ?_⟩
    rcases hc : chooseSlot s 0 with ⟨u, _ | k⟩
    · obtain ⟨hmem, hrec, hmgmt, hstage⟩ := endStage0_none hw hc
      exact ⟨hmem, hrec, hmgmt, hstage.trans h0⟩
    · obtain ⟨hmem, hstage, hbooted, hmeas, -, hrub⟩ := endStage0_some hw hc
      exact ⟨hmem, hstage, hbooted, ((chooseSlot_spec hc).2 k rfl).2, hmeas, hrub⟩
  case active =>
    exact fun h ho => ⟨_, exec_bootStageAdvance (stageAdvance_stage0 hb h0), endStage0_boots_active hw hk h ho⟩
  case pending =>
    exact fun n h ho => ⟨_, exec_bootStageAdvance (stageAdvance_stage0 hb h0), endStage0_boots_pending hw hk h ho⟩
  case other =>
    exact fun h ho => ⟨_, exec_bootStageAdvance (stageAdvance_stage0 hb h0), fun ⟨hbad, hg⟩ => endStage0_boots_other hw hk h ho hbad hg⟩
  case recovery =>
    intro hs0 hs1
    have hp : pickSlot s 0 = (dropped s 0, none) := pickSlot_none fun k hk => by
      obtain rfl | rfl : k = 0 ∨ k = 1 := by omega
      · exact hs0
      · exact hs1
    obtain ⟨-, hrec, hmgmt, hstage⟩ := endStage0_none hw (chooseSlot_of_none hp)
    exact ⟨_, exec_bootStageAdvance (stageAdvance_stage0 hb h0), hrec, hmgmt, hstage.trans h0⟩
  case stage1 =>
    intro h1 h9
    refine ⟨fun hw => ?_, fun hw ⟨c, hc, hu, hn⟩ => ?_⟩
    · obtain ⟨hstage, hstart, hfenced, hmem⟩ := endStage1_cold (s := startMark s) (failed := r.failed) hw
      exact ⟨_, exec_bootStageAdvance (stageAdvance_stage1 hb h1 h9), hstage, hstart, hfenced, hmem⟩
    · exact ⟨_, exec_bootStageAdvance (stageAdvance_stage1 hb h1 h9), endStage1_warm (s := startMark s) hw hc hu hn⟩
  case stage2 =>
    exact fun h2 hw => ⟨_, exec_bootStageAdvance (stageAdvance_stage2 hb h2), endStage2_spec (s := startMark s) hw⟩
  case incapable =>
    intro hc0 hc1
    refine ⟨_, exec_bootStageAdvance ((stageAdvance_stage3 hb h3).trans (endStage3_incapable hc0 hc1)), toManagement_atManagement s 4, ?_⟩
    rw [toManagement_eq]
  case starts =>
    intro h j hh hc hw hm hj hcl hfirst
    refine ⟨_, exec_bootStageAdvance (stageAdvance_stage3 hb h3), ?_⟩
    rw [← withHost]
    rcases hs : chooseSlot (withHost s h) 1 with ⟨u, _ | k⟩
    · exact endStage3_no_firmware hh hc hw hs
    · exact endStage3_starts hh hc hw hm hj hcl hfirst hs
  case stage4 =>
    intro h4
    refine ⟨_, exec_bootStageAdvance (stageAdvance_stage4 hb h4), ?_⟩
    rw [reach_eq]
    exact ⟨rfl, rfl, rfl⟩
  case warmTimeout =>
    intro hw h1 hp
    have hstep : s.power.step = if warm s then 2 else 0 := by rw [warm_eq_true hw, if_pos rfl, hp]
    refine ⟨_, exec_stageTimeout (stageTimeout_management hb h1 hstep), toManagement_atManagement s 7, ?_⟩
    rw [toManagement_eq]
  case coldTimeout =>
    intro h1 hp
    have hstep : s.power.step = if warm s then 2 else 0 := by rw [warm_eq_false hw, if_neg Bool.false_ne_true, hp]
    refine ⟨_, exec_stageTimeout (stageTimeout_management hb h1 hstep), toManagement_atManagement s 7, ?_⟩
    rw [toManagement_eq]
  case overrun => exact fun h => ⟨_, rfl, stageTimeout_fences hb hw h⟩
  case watchdog => exact fun hs hm hw => ⟨_, rfl, startWatchdog_cold hb hs hm hw⟩
  case guarded => exact packageReset_guarded
  case refused => exact packageReset_refused
  case due => exact fun h he => downAutoReset_due hr hd ha h he
  case early => exact downAutoReset_early
  case held =>
    intro h4 hboot hoff hcl hr
    refine ⟨_, coreRun_held hf h4 hboot hoff hcl hr, sget_sset_same _ _ _ _, fun k hk => ?_, rfl⟩
    exact sget_sset_ne _ _ _ hk
  case running => exact coreRun_running hf

end Sys2Proof.Machine
end

section
/-! SUPPORT. Bytes written in one piece to a sparse store, and what a message does to a mailbox (R136, R140). -/

namespace Sys2Proof.Machine
open Sys2Proof

/-! ### Sparse tables in pieces -/

theorem sget_of_forall_ne {α : Type} (d : α) {m : Sparse α} {k : Nat} (h : ∀ p ∈ m, p.1 ≠ k) : sget d m k = d := by
  induction m with
  | nil => rfl
  | cons p t ih => rw [sget, if_neg (h p List.mem_cons_self), ih fun p' hp => h p' (List.mem_cons_of_mem _ hp)]

theorem sget_append_of_left_ne {α : Type} (d : α) {l r : Sparse α} {k : Nat} (h : ∀ p ∈ l, p.1 ≠ k) : sget d (l ++ r) k = sget d r k := by
  induction l with
  | nil => rfl
  | cons p t ih => rw [List.cons_append, sget, if_neg (h p List.mem_cons_self), ih fun p' hp => h p' (List.mem_cons_of_mem _ hp)]

theorem sget_append_of_right_ne {α : Type} (d : α) {l r : Sparse α} {k : Nat} (h : ∀ p ∈ r, p.1 ≠ k) : sget d (l ++ r) k = sget d l k := by
  induction l with
  | nil => exact sget_of_forall_ne d h
  | cons p t ih => rw [List.cons_append, sget, sget, ih]

/-! ### Bytes in one piece -/

/-- The entries that `bputRange` lists for the bytes `b` at key `a`: zero bytes are left out. -/
def listedBytes (a : Nat) (b : List Byte) : Sparse Byte := ((b.zipIdx a).filter fun x => x.1 ≠ 0).map fun x => (x.2, x.1)

theorem bputRange_eq (m : Sparse Byte) (a : Nat) (b : List Byte) :
    bputRange m a b = m.filter (fun p => p.1 < a) ++ listedBytes a b ++ m.filter fun p => a + b.length ≤ p.1 := rfl

theorem listedBytes_zero_cons (a : Nat) (t : List Byte) : listedBytes a (0 :: t) = listedBytes (a + 1) t := rfl

theorem listedBytes_cons_of_ne {x : Byte} (hx : x ≠ 0) (a : Nat) (t : List Byte) :
    listedBytes a (x :: t) = (a, x) :: listedBytes (a + 1) t :=
  congrArg (List.map _) (List.filter_cons_of_pos (a := (x, a)) (p := fun y : Byte × Nat => decide (y.1 ≠ 0)) (decide_eq_true hx))

theorem le_of_mem_listedBytes {a : Nat} {b : List Byte} {p : Nat × Byte} (h : p ∈ listedBytes a b) : a ≤ p.1 := by
  simp only [listedBytes, List.mem_map, List.mem_filter] at h
  obtain ⟨x, ⟨hx, -⟩, rfl⟩ := h
  exact List.le_snd_of_mem_zipIdx hx

theorem sget_listedBytes (b : List Byte) (a i : Nat) : sget 0 (listedBytes a b) (a + i) = b.getD i 0 := by
  induction b generalizing a i with
  | nil => rfl
  | cons x t ih =>
    by_cases hx : x = 0
    · rw [hx, listedBytes_zero_cons]
      cases i with
      | zero => exact sget_of_forall_ne 0 fun p hp => by have := le_of_mem_listedBytes hp; omega
      | succ i => rw [show a + (i + 1) = a + 1 + i by omega, ih, List.getD_cons_succ]
    · rw [listedBytes_cons_of_ne hx]
      cases i with
      | zero => exact if_pos rfl
      | succ i => rw [sget, if_neg (by omega), show a + (i + 1) = a + 1 + i by omega, ih, List.getD_cons_succ]

/-- The bytes written read back, whatever stood there. -/
theorem sget_bputRange_in (m : Sparse Byte) (a : Nat) {b : List Byte} {i : Nat} (h : i < b.length) :
    sget 0 (bputRange m a b) (a + i) = b.getD i 0 := by
  rw [bputRange_eq, sget_append_of_right_ne, sget_append_of_left_ne, sget_listedBytes]
  all_goals
    intro p hp
    have := (List.mem_filter.1 hp).2
    simp only [decide_eq_true_eq] at this
    omega

/-! ### Mailboxes -/

@[simp] theorem nibOf_setNib (s : State) (n : NibId) (v : Nib) : nibOf (setNib s n v) n = v := sget_sset_same _ _ _ _

@[simp] theorem inkOf_setInk (s : State) (q : QuireId) (v : Ink) : inkOf (setInk s q v) q = v := sget_sset_same _ _ _ _

theorem inkOf_congr {s t : State} (h : t.inks = s.inks) (q : QuireId) : inkOf t q = inkOf s q := by rw [inkOf, inkAt, h]; rfl

@[simp] theorem setX_mfull (v : Nib) (i : Nat) (w : Word) : (v.setX i w).mfull = v.mfull := by
  unfold Nib.setX
  split <;> rfl

@[simp] theorem setX_mbox (v : Nib) (i : Nat) (w : Word) : (v.setX i w).mbox = v.mbox := by
  unfold Nib.setX
  split <;> rfl

theorem mailFull_mailIn (v : Nib) {b : Nat} (hb : b < 16) (bytes : List Byte) : (v.mailIn b bytes).mailFull b = true := by
  simp [Nib.mailFull, Nib.mailIn, bitAt, hb]

theorem sget_mbox_mailIn (v : Nib) (b : Nat) {bytes : List Byte} (hl : bytes.length = 64) {i : Nat} (hi : i < 64) :
    sget 0 (v.mailIn b bytes).mbox (64 * b + i) = bytes.getD i 0 := by
  have hs : bslice bytes 0 64 = bytes := by rw [bslice_of_length (by omega), List.drop_zero, ← hl, List.take_length]
  rw [Nib.mailIn, hs]
  exact sget_bputRange_in _ _ (hl ▸ hi)

/-- A message changes its Nib, and a Nib that resumes counts what it retires. -/
theorem mailTo_eq (s : State) (n : NibId) (b : Nat) (bytes : List Byte) :
    mailTo s n b bytes = { s with regs := (mailTo s n b bytes).regs, nibs := (mailTo s n b bytes).nibs } := by
  dsimp only [mailTo]
  split
  · rw [nibRetire, count_eq]
    rfl
  · rfl

/-- A Nib that resumes has the mailboxes that the message left. -/
theorem mailTo_mailboxes (s : State) (n : NibId) (b : Nat) (bytes : List Byte) :
    (nibOf (mailTo s n b bytes) n).mfull = ((nibOf s n).mailIn b bytes).mfull ∧
      (nibOf (mailTo s n b bytes) n).mbox = ((nibOf s n).mailIn b bytes).mbox := by
  dsimp only [mailTo]
  split <;> simp [nibRetire]

theorem mailTo_mailHolds (s : State) (n : NibId) {b : Nat} (hb : b < 16) {bytes : List Byte} (hl : bytes.length = 64) :
    MailHolds (mailTo s n b bytes) n b bytes := by
  obtain ⟨hfull, hbox⟩ := mailTo_mailboxes s n b bytes
  refine ⟨?_, fun i hi => ?_⟩
  · rw [Nib.mailFull, hfull]
    exact mailFull_mailIn _ hb bytes
  · rw [hbox, sget_mbox_mailIn _ b hl hi]

end Sys2Proof.Machine
end

section
/-! Held completion records and the palette scrub, one lemma for each sentence of the statement, and the statement itself. -/

namespace Sys2Proof.Machine
open Sys2Proof

/-! ### The held record (R142) -/

theorem recordWrite_of_free {s : State} {q : QuireId} {r : HeldRec} (ha : alive s = true) (hr : (inkOf s q).held = some r)
    (hf : (nibOf s (nibIn q r.nib)).mailFull r.mbox.toNat = false) :
    recordWrite s q = mailTo (setInk s q { inkOf s q with held := none }) (nibIn q r.nib) r.mbox.toNat r.bytes := by
  simp [recordWrite, hr, ha, hf]

/-- A free mailbox takes the held record, and the Inkstone holds it no more. -/
theorem recordWrite_spec {s : State} {q : QuireId} {r : HeldRec} (ha : alive s = true) (hr : (inkOf s q).held = some r)
    (hf : (nibOf s (nibIn q r.nib)).mailFull r.mbox.toNat = false) (hl : r.bytes.length = 64) :
    inkOf (recordWrite s q) q = { inkOf s q with held := none } ∧
      MailHolds (recordWrite s q) (nibIn q r.nib) r.mbox.toNat r.bytes ∧ (recordWrite s q).mem = s.mem := by
  rw [recordWrite_of_free ha hr hf]
  refine ⟨?ink, mailTo_mailHolds _ _ r.mbox.isLt hl, ?mem⟩
  case ink =>
    rw [inkOf_congr (s := setInk s q { inkOf s q with held := none }) (by rw [mailTo_eq]), inkOf_setInk]
  case mem => rw [mailTo_eq, setInk_mem]

/-! ### The palette scrub (R98, R305) -/

section
variable {s : State} {q : QuireId} {word : Nat} (ha : alive s = true) (hq : quireFenced s q = false) (hw : word < 98304)
  (hp : (inkOf s q).palPoison.contains word = false)
include ha hq hw hp

theorem paletteScrub_on (hc : bitAt (inkCfg s q) 3 = true) (upset : Nat) :
    paletteScrub s q word upset = palWord s q word (sget 0 (inkOf s q).palEcc word + upset) true := by
  simp only [paletteScrub, ha, hq, hp, hc, Nat.not_le.2 hw]
  rfl

theorem paletteScrub_off (hc : bitAt (inkCfg s q) 3 = false) (upset : Nat) :
    paletteScrub s q word upset = setInk s q (palMark (inkOf s q) word (sget 0 (inkOf s q).palEcc word + upset)) := by
  simp only [paletteScrub, ha, hq, hp, hc, Nat.not_le.2 hw]
  rfl

end

theorem palWord_one_scrub (s : State) (q : QuireId) (word : Nat) :
    palWord s q word 1 true = count (setInk s q (palMark (inkOf s q) word 0)) (inkFrame q) 0x40 1 := rfl

theorem palWord_two (s : State) (q : QuireId) (word : Nat) (scrub : Bool) :
    palWord s q word 2 scrub =
      count (setInk s q (palMark { inkOf s q with palPoison := ninsert (inkOf s q).palPoison word } word 0)) (inkFrame q) 0x48 1 := rfl

/-! ### The statement -/

/-- Settles O22: a held record goes the way of every message to a mailbox, and a scrub that starts from a word without errors
meets just the symbols upset now. -/
theorem heldRecordsAndPaletteScrub : Obligations.HeldRecordsAndPaletteScrub := by
  unfold Obligations.HeldRecordsAndPaletteScrub
  refine ⟨fun s q r ha hr hf hl => ⟨_, rfl, recordWrite_spec ha hr hf hl⟩,
    fun s q word ha hq hw hp => ⟨fun hc he => ⟨congrArg Host.Outcome.next ?one, congrArg Host.Outcome.next ?two⟩,
      fun n hc => congrArg Host.Outcome.next (paletteScrub_off ha hq hw hp hc n)⟩⟩
  case one => rw [paletteScrub_on ha hq hw hp hc, he, Nat.zero_add, palWord_one_scrub]
  case two => rw [paletteScrub_on ha hq hw hp hc, he, Nat.zero_add, palWord_two]

end Sys2Proof.Machine
end
